-- ==== Sys2Proof/Word.lean ====
section
/-! DEFINITION. The words of the serial line and of the receiver: a byte (R174) and a signed 12-bit sample (R35). -/

namespace Sys2Proof

/-- One byte of a link frame or of the store (R192, R198). -/
abbrev Byte := BitVec 8

/-- One receiver sample, a signed integer in -2048..2047 (R35, R40), two's complement. -/
abbrev Sample := BitVec 12

end Sys2Proof
end

