-- ==== Sys2Proof/Config.lean ====
section
/-! DEFINITION. What the manual leaves open: constants with no body, so that no proof can lean on a value. -/

namespace Sys2Proof

/-- FREE VALUE (log 2). The time in ms from the n-th request that reports it to the next boundary (R71, R187), before it is
held within the frame interval. The model has no clock. -/
opaque Config.timeToBoundary : Nat → Nat

/-- FREE VALUE (log 3). Whether, at the n-th warm reset that finds changed marks, the pair origins join the report queue
before the system origin (R22, R191: either order). -/
opaque Config.pairsBeforeSystem : Nat → Bool

end Sys2Proof
end

