-- ==== Sys2Proof/Syntax.lean ====
section
/-! DEFINITION. The commands: one constructor of `Instr` for each row of the table of operations and events. Request
fields have the width they have in the link frame (R193, R194). -/

namespace Sys2Proof

/-- The source, acting level and tag of a complete link frame (R176, R192). -/
structure Header where
  /-- The source field, 0..15; 8..15 names no link source. -/
  source : BitVec 4
  /-- The acting level field, 0..15; 4..15 is MALFORMED. -/
  acting : BitVec 4
  tag : Byte
  deriving DecidableEq, Repr

/-- A reference as sent: kind 0 for G, 1 for L, 2 for S, then the number (R4, R194). -/
structure Reference where
  kind : Byte
  number : Byte
  deriving DecidableEq, Repr

/-- A path element as PATH_APPEND sends it (R194). -/
structure SentElement where
  reference : Reference
  /-- The nominal delay in microseconds. -/
  delay : BitVec 24
  /-- 0 none, 1 A, 2 B. -/
  tag : Byte
  deriving DecidableEq, Repr

/-- The eleven bytes START and SCHEDULE share (R76, R77, R194). -/
structure CampaignRequest where
  kind : Byte
  pair : Byte
  first : Byte
  last : Byte
  exponent : Byte
  chip : Byte
  sequence : Byte
  level : BitVec 16
  reference : Byte
  autoLocate : Byte
  deriving DecidableEq, Repr

/-- The fields of DEFINE_GATE after the gate number (R127, R194). -/
structure GateRequest where
  action : Byte
  first : BitVec 16
  last : BitVec 16
  mask : BitVec 16
  level : Byte
  exponent : Byte
  deriving DecidableEq, Repr

/-- The two serial line rates a strap pin selects between (R174). -/
inductive LineRate where
  /-- 115,200 bits/s. -/
  | low
  /-- 921,600 bits/s. -/
  | high
  deriving DecidableEq, Repr

/-- The commands of the part. A request constructor says that a link frame of its kind is complete (R179). An event
constructor says that what it names has happened; `strap` is the rate strap as read if the event makes a reset (R174). -/
inductive Instr where
  | powerOn (strap : LineRate)
  | characterReceived (b : Byte)
  | framingError
  | lineBreak
  | breakReset (strap : LineRate)
  | interCharacterGap
  | unknownKindRequest (h : Header) (kind : Byte)
  | transmissionEnd (strap : LineRate)
  | coldLoadEnd
  | status (h : Header)
  | readEntry (h : Header) (ref : Reference)
  | readSpan (h : Header) (span pair : Byte)
  | readPath (h : Header) (pair view first count : Byte)
  | readChannels (h : Header)
  | readExtents (h : Header)
  | readGrants (h : Header)
  | readCampaign (h : Header) (slot : Byte)
  | readResults (h : Header) (slot first count : Byte)
  | readGates (h : Header)
  | readOrders (h : Header)
  | readBaseline (h : Header) (pair : Byte) (first : BitVec 16) (count view : Byte)
  | selectSpan (h : Header) (span : Byte)
  | setSourceLevel (h : Header) (source level : Byte)
  | start (h : Header) (r : CampaignRequest)
  | schedule (h : Header) (r : CampaignRequest) (period : BitVec 16) (parity : Byte)
  | abort (h : Header) (slot : Byte)
  | release (h : Header) (slot : Byte)
  | isolate (h : Header) (gate : Byte) (ref : Reference) (pair argument force : Byte)
  | withdrawOrder (h : Header) (order : Byte)
  | adopt (h : Header) (slot : Byte)
  | dropBaseline (h : Header) (pair : Byte) (first last : BitVec 16)
  | commit (h : Header) (pair : Byte) (first : BitVec 16) (count : Byte)
  | clearCondition (h : Header) (ref : Reference) (pair : Byte)
  | defineEntry (h : Header) (ref : Reference) (kind address spare route : Byte)
  | dropEntry (h : Header) (ref : Reference)
  | pathAppend (h : Header) (restart : Byte) (elements : List SentElement)
  | setPath (h : Header) (pair : Byte)
  | setCrosspoint (h : Header) (channel pair mark : Byte)
  | setCeiling (h : Header) (pair : Byte) (ceiling : BitVec 16)
  | setOrderSettings (h : Header) (chip sequence limit : Byte)
  | setTiming (h : Header) (change : Byte) (interval : BitVec 16)
  | setThresholds (h : Header) (floor tStep tDrift : BitVec 16)
  | defineGate (h : Header) (gate : Byte) (g : GateRequest)
  | dropGate (h : Header) (gate : Byte)
  | eraseBlock (h : Header) (block : Byte)
  | reset (h : Header) (which : Byte)
  | eraseEnd
  | slotProgrammed
  | boundary
  | periodicDue (slot : Fin 32)
  | settleEnd (c : Fin 4)
  | primingPeriodEnd (c : Fin 4)
  | coastingPeriodStart (c : Fin 4)
  | slicePeriodEnd (c : Fin 4) (present : Bool) (samples : List Sample)
  | referencePeriodEnd (c : Fin 4) (samples : List Sample)
  | wordPeriodEnd (c : Fin 4)
  | listeningPeriodEnd (c : Fin 4) (samples : List Sample)
  | lineReturnsToMark
  deriving DecidableEq, Repr

end Sys2Proof
end

