-- ==== Sys2Proof/Machine/Arith.lean ====
section
/-! DEFINITION. The part's exact arithmetic: rounding (R1), probe settings and levels (R28, R29, R31), logarithms (R54),
probe sequences (R40), period sums (R42, R138), and the request kinds (R194). -/

namespace Sys2Proof.Machine

/-! ## Rounding -/

/-- Nearest integer to `a / b`, halves away from zero, for a quotient that is not negative (R1). -/
def nearestDiv (a b : Nat) : Nat := (2 * a + b) / (2 * b)

/-- A setting clamped into `lo..hi` (R1). -/
def clampNat (lo hi x : Nat) : Nat := if x < lo then lo else if hi < x then hi else x

/-- A signed setting clamped into `lo..hi` (R1). -/
def clampInt (lo hi x : Int) : Int := if x < lo then lo else if hi < x then hi else x

/-! ## Probe settings (R28) -/

/-- The chip period of a chip period code, in microseconds: 10, 20, 40, 80 (R28). -/
def chipMicros (code : Fin 4) : Nat := 10 * 2 ^ code.val

/-- The length in chips of a sequence code: 1023, 2047, 4095, 8191 (R28). -/
def sequenceLength (code : Fin 4) : Nat := 2 ^ (10 + code.val) - 1

/-- The reference depth of a reference code, in percent: 1, 2, 4, 8 (R28). -/
def referencePercent (code : Fin 4) : Nat := 2 ^ code.val

/-- One period in microseconds: the sequence length times the chip period (R28). -/
def periodMicros (chip sequence : Fin 4) : Nat := sequenceLength sequence * chipMicros chip

/-- The nominal lag of a delay in microseconds: `nearest(t / chip)` (R41). -/
def nominalLag (delay : Nat) (chip : Fin 4) : Nat := nearestDiv delay (chipMicros chip)

/-! ## Levels -/

/-- `acc` plus the largest number below `2 ^ bits` that keeps `10 ^ _ ≤ q`: with `acc = 0` and enough bits, the floor of
the decimal logarithm of `q`. -/
def floorLog10 (q : Nat) : Nat → Nat → Nat
  | 0, acc => acc
  | bits + 1, acc => if 10 ^ (acc + 2 ^ bits) ≤ q then floorLog10 q bits (acc + 2 ^ bits) else floorLog10 q bits acc

/-- `nearest(2000·log10(a / b))` in cdB for `0 < a ≤ b`, from the exact logarithm (R29, R54): with
`m = floor(4000·log10(b / a))`, the nearest integer to `m / 2` taken from the exact value is `(m + 1) / 2`. -/
def levelOf (a b : Nat) : Int := -(((floorLog10 (b ^ 4000 / a ^ 4000) 15 0 + 1) / 2 : Nat) : Int)

/-- The probe level of a level code and reference code, `nearest(2000·log10(c / 4095 · ref))` (R29). -/
def probeLevel (code : Nat) (reference : Fin 4) : Int := levelOf (code * referencePercent reference) (4095 * 100)

/-- The echo level of an echo amplitude, `nearest(2000·log10(A_q / 524,288))` (R54). -/
def echoLevel (aq : Nat) : Int := levelOf aq 524288

/-- The largest code at or above `acc` that can be reached by adding distinct powers `2 ^ _` below `2 ^ bits` while the
probe level stays at or below the ceiling (R31, step 2). -/
def largestCodeFrom (reference : Fin 4) (ceiling : Int) : Nat → Nat → Nat
  | 0, acc => acc
  | bits + 1, acc =>
    if acc + 2 ^ bits ≤ 4095 ∧ probeLevel (acc + 2 ^ bits) reference ≤ ceiling then
      largestCodeFrom reference ceiling bits (acc + 2 ^ bits)
    else largestCodeFrom reference ceiling bits acc

/-- The largest code of 64..4095 whose probe level at the reference is at or below the ceiling, if any (R31). -/
def largestCode (reference : Fin 4) (ceiling : Int) : Option Nat :=
  if probeLevel 64 reference ≤ ceiling then some (largestCodeFrom reference ceiling 12 64) else none

/-- Steps 2 and 3 of R31: the reference of the given code, then the next smaller, down to 1%. -/
def stepDownLevel (ceiling : Int) : Nat → Nat × Fin 4
  | 0 => ((largestCode 0 ceiling).getD 64, 0)
  | r + 1 =>
    match largestCode (Fin.ofNat 4 (r + 1)) ceiling with
    | some c => (c, Fin.ofNat 4 (r + 1))
    | none => stepDownLevel ceiling r

/-- The level code and reference applied for a requested pair under a ceiling (R31). -/
def fixLevel (code : Nat) (reference : Fin 4) (ceiling : Int) : Nat × Fin 4 :=
  if probeLevel code reference ≤ ceiling then (code, reference) else stepDownLevel ceiling reference.val

/-! ## Probe sequences (R40) -/

/-- The places of the sum in the recurrence of a sequence code (R40). -/
def sequenceTaps (code : Fin 4) : List Nat :=
  match code with
  | 0 => [3, 0]
  | 1 => [2, 0]
  | 2 => [6, 4, 1, 0]
  | 3 => [4, 3, 1, 0]

/-- `n` bits of the recurrence from a window of its next bits. -/
def sequenceBits (taps : List Nat) : Nat → List Bool → List Bool
  | 0, _ => []
  | n + 1, window =>
    window.headD false ::
      sequenceBits taps n (window.tail ++ [taps.foldl (fun b t => xor b (window.getD t false)) false])

/-- The bits a[0]..a[L-1] of one period; `true` is a chip of -1 and `false` a chip of +1 (R40). -/
def probeBits (code : Fin 4) : List Bool :=
  sequenceBits (sequenceTaps code) (sequenceLength code) (List.replicate (10 + code.val) true)

/-! ## Period sums -/

/-- `acc` plus the sum of the samples, each negated where its bit is set. -/
def signedSum : List Sample → List Bool → Int → Int
  | s :: ss, b :: bs, acc => signedSum ss bs (if b then acc - s.toInt else acc + s.toInt)
  | _, _, acc => acc

/-- The samples of a period taken from lag `lag` on, wrapping at its end: `s[(n + lag) mod L]` for n = 0 to L-1 (R42). -/
def laggedSamples (samples : List Sample) (lag : Int) : List Sample :=
  samples.drop (lag % samples.length).toNat ++ samples.take (lag % samples.length).toNat

/-- The period sum of an element with lag `d` at offset `o` (R42). -/
def periodSum (bits : List Bool) (samples : List Sample) (d : Nat) (o : Int) : Int :=
  signedSum (laggedSamples samples (d + o)) bits 0

/-- The probe bits as driven: chips whose echo lies in this period carry this period's polarity, the later ones the
previous period's (R138). -/
def drivenBits (bits : List Bool) (lag : Int) (inverted previousInverted : Bool) : List Bool :=
  (bits.take (bits.length - lag.toNat)).map (xor inverted)
    ++ (bits.drop (bits.length - lag.toNat)).map (xor previousInverted)

/-- The ISU period sum at offset `o` (R138). -/
def isuPeriodSum (bits : List Bool) (samples : List Sample) (d : Nat) (o : Int) (inverted previousInverted : Bool) : Int :=
  signedSum (laggedSamples samples (d + o)) (drivenBits bits (d + o) inverted previousInverted) 0

/-! ## Peaks and amplitudes -/

/-- The offsets in the order in which R51 prefers them among equal magnitudes. -/
def peakOrder : List Int := [0, -1, 1, -2, 2]

/-- The first offset of the list with the largest magnitude, against a best one so far (R51). -/
def peakAmong (value : Int → Int) : List Int → Int → Int
  | [], best => best
  | o :: rest, best => peakAmong value rest (if (value best).natAbs < (value o).natAbs then o else best)

/-- The peak offset of five cells, given as a function of the offset (R51). -/
def peakOffset (value : Int → Int) : Int := peakAmong value peakOrder 0

/-- `nearest(|C|·256 / (periods·L))` (R52, R137, R142). -/
def amplitude (c : Int) (periods length : Nat) : Nat := nearestDiv (c.natAbs * 256) (periods * length)

/-! ## Request kinds (R194) -/

/-- The kind bytes the part knows as requests (R194). -/
def requestKinds : List Byte :=
  [0x01, 0x02, 0x03, 0x04, 0x05, 0x06, 0x07, 0x08, 0x09, 0x0A, 0x0B, 0x0C, 0x10, 0x11, 0x20, 0x21, 0x22, 0x23, 0x28, 0x29,
   0x30, 0x31, 0x32, 0x33, 0x40, 0x41, 0x42, 0x43, 0x48, 0x49, 0x4A, 0x4B, 0x4C, 0x50, 0x51, 0x58, 0x5F]

/-- Is the byte a request kind (R179, check 1)? -/
def isRequestKind (kind : Byte) : Bool := requestKinds.contains kind

end Sys2Proof.Machine
end

