-- ==== Sys2Proof/WellFormed.lean ====
section
/-! DEFINITION. Which commands the spec has: the checks on operands that no type makes. -/

namespace Sys2Proof

/-- The samples of one whole period, of one of the four sequence lengths (R28, R35). -/
def wholePeriod (samples : List Sample) : Bool :=
  samples.length == Machine.sequenceLength 0 || samples.length == Machine.sequenceLength 1
    || samples.length == Machine.sequenceLength 2 || samples.length == Machine.sequenceLength 3

/-- A command of the spec: an UNKNOWN_KIND_REQUEST carries no request kind (R179), a path element list fits in one link
frame's body of 512 bytes (R192, R194), and a received period has one of the four lengths (R35). -/
def Instr.wellFormed : Instr → Bool
  | .unknownKindRequest _ kind => !Machine.isRequestKind kind
  | .pathAppend _ _ elements => decide (2 + 6 * elements.length ≤ 512)
  | .slicePeriodEnd _ _ samples => wholePeriod samples
  | .referencePeriodEnd _ samples => wholePeriod samples
  | .listeningPeriodEnd _ samples => wholePeriod samples
  | .powerOn _ | .characterReceived _ | .framingError | .lineBreak | .breakReset _ | .interCharacterGap
  | .transmissionEnd _ | .coldLoadEnd | .status _ | .readEntry _ _ | .readSpan _ _ _ | .readPath _ _ _ _ _
  | .readChannels _ | .readExtents _ | .readGrants _ | .readCampaign _ _ | .readResults _ _ _ _ | .readGates _
  | .readOrders _ | .readBaseline _ _ _ _ _ | .selectSpan _ _ | .setSourceLevel _ _ _ | .start _ _ | .schedule _ _ _ _
  | .abort _ _ | .release _ _ | .isolate _ _ _ _ _ _ | .withdrawOrder _ _ | .adopt _ _ | .dropBaseline _ _ _ _
  | .commit _ _ _ _ | .clearCondition _ _ _ | .defineEntry _ _ _ _ _ _ | .dropEntry _ _ | .setPath _ _
  | .setCrosspoint _ _ _ _ | .setCeiling _ _ _ | .setOrderSettings _ _ _ _ | .setTiming _ _ _ | .setThresholds _ _ _ _
  | .defineGate _ _ _ | .dropGate _ _ | .eraseBlock _ _ | .reset _ _ | .eraseEnd | .slotProgrammed | .boundary
  | .periodicDue _ | .settleEnd _ | .primingPeriodEnd _ | .coastingPeriodStart _ | .wordPeriodEnd _
  | .lineReturnsToMark => true

end Sys2Proof
end

