-- ==== Sys2Proof/Machine/Table.lean ====
section
/-! DEFINITION. Sparse memories: lists of (address, content) pairs in one canonical form, with a content that every
unlisted address reads as. -/

namespace Sys2Proof.Machine

/-- A memory: the listed addresses with their contents. -/
abbrev Table (α : Type) := List (Nat × α)

/-- The content of address `k`; an unlisted address reads as `d`. -/
def tableGet {α : Type} (d : α) : Table α → Nat → α
  | [], _ => d
  | (j, v) :: rest, k => if j = k then v else tableGet d rest k

/-- The memory without address `k`. -/
def tableDrop {α : Type} (t : Table α) (k : Nat) : Table α := t.filter (fun c => !(c.1 == k))

/-- The pair placed before the first address that is not below it. -/
def tableInsert {α : Type} (k : Nat) (v : α) : Table α → Table α
  | [] => [(k, v)]
  | (j, w) :: rest => if j < k then (j, w) :: tableInsert k v rest else (k, v) :: (j, w) :: rest

/-- The memory with `v` at address `k`; the content of an unlisted address is not listed. -/
def tableSet {α : Type} [DecidableEq α] (d : α) (t : Table α) (k : Nat) (v : α) : Table α :=
  if v = d then tableDrop t k else tableInsert k v (tableDrop t k)

/-- The memory with the addresses `start .. start + length - 1` back at the content of an unlisted address. -/
def tableClear {α : Type} (t : Table α) (start length : Nat) : Table α :=
  t.filter (fun c => !(decide (start ≤ c.1) && decide (c.1 < start + length)))

/-- The canonical form: addresses strictly rising, and no content that an unlisted address reads as. -/
abbrev Table.wf {α : Type} (d : α) (t : Table α) : Prop :=
  t.Pairwise (fun a b => a.1 < b.1) ∧ ∀ c ∈ t, c.2 ≠ d

end Sys2Proof.Machine
end

