-- ==== Sys2Proof/Machine/State.lean ====
section
/-! DEFINITION. The state of the part, block by block, as plain data, and its value after reset. -/

namespace Sys2Proof.Machine

/-! ## Numbers of things (conventions of the scope file) -/

/-- A fibre pair, 0..15. -/
abbrev Pair := Fin 16
/-- A probe channel, 0..3. -/
abbrev Chan := Fin 4
/-- A campaign slot, 0..31. -/
abbrev Slot := Fin 32
/-- An order record, 0..7. -/
abbrev OrderNo := Fin 8
/-- A link source, 0..7. -/
abbrev Source := Fin 8
/-- A source level, 0..3; 0 is the most privileged. -/
abbrev Level := Fin 4
/-- A table index, 0..271. -/
abbrev Index := Fin 272
/-- A chip period, sequence or reference code, 0..3 (R28). -/
abbrev Code := Fin 4

/-! ## Codes (R197) -/

/-- The reasons: of refusals, failures, outcomes, stops and a refined INCONCLUSIVE (R197). -/
inductive Reason where
  | unknownKind | malformed | level | starting | range | wrongKind | wrongState | duplicate | inUse | pairBusy | entryBusy
  | noSlot | queueFull | listFull | storeBusy | gateAbsent | outsideGate | notOnPath | notLocated | noSpare | noReference
  | lagAlias | ordersFull | noPath | resolution | noRoute | noBaseline | dark | pathChanged | exponent | depth | refused
  | garbled | noAnswer | channelLost | withdrawn | confirmFailed | count | pageEnd | occupied
  deriving DecidableEq, Repr

/-- A leg of a branching unit, or its route (R3, R13). -/
inductive Leg where
  | a | b
  deriving DecidableEq, Repr

/-- The kind of an entry with the fields its kind has (R2, R3). -/
inductive EntryKind where
  | line (spare : Fin 3)
  | branching (route : Leg)
  | equalizer
  deriving DecidableEq, Repr

/-- A defined entry (R3). -/
structure Entry where
  kind : EntryKind
  address : Byte
  /-- The order mark. -/
  mark : Bool
  deriving DecidableEq, Repr

/-- The ten conditions (R10). -/
inductive Condition where
  | unmeasured | normal | suspect | drifting | located | loopFault | inconclusive | isolating | isolated | unresolved
  deriving DecidableEq, Repr

/-- Isolation in effect (R9). -/
inductive Isolation where
  | nothing | spare | gainHold | loopMuted
  deriving DecidableEq, Repr

/-- The classes of Fault Location and the two refined classes beyond them (R110, R197). -/
inductive ElementClass where
  | muted | lost | noEcho | breakAfter | noBaseline | drift | normal | spike | step | rise | ambiguous | inconclusive | aborted
  deriving DecidableEq, Repr

/-- An amplifier record (R9), with the starting values of R7 as its defaults. -/
structure AmpRecord where
  condition : Condition := .unmeasured
  isolation : Isolation := .nothing
  lastClass : Option ElementClass := none
  amplitude : Nat := 0
  echo : Int := -12000
  gain : Option Int := none
  deviation : Option Int := none
  offset : Int := 0
  frame : Option Nat := none
  changed : Bool := false
  deriving DecidableEq, Repr

/-- An element of a path list or of a path assembly list (R13, R14). -/
structure PathElement where
  entry : Index
  /-- Round-trip delay in microseconds. -/
  delay : Nat
  tag : Option Leg
  deriving DecidableEq, Repr

/-- The Line Plant Table. -/
structure Plant where
  entries : Table (Option Entry)
  /-- The record of index i on pair p stands at address 16·i + p. -/
  records : Table AmpRecord
  paths : Vector (List PathElement) 16
  spans : Vector (Fin 16) 8
  assembly : Vector (List PathElement) 8
  deriving DecidableEq, Repr

/-! ## Probe Channels -/

/-- The six channel states (R23). -/
inductive ChannelState where
  | disconnected | parked | coasting | settling | priming | periods
  deriving DecidableEq, Repr

/-- A probe signature (R33). -/
structure Signature where
  pair : Pair
  chip : Code
  sequence : Code
  level : Nat
  reference : Code
  deriving DecidableEq, Repr

/-- What holds a channel (R23). -/
inductive Holder where
  /-- A slice of a campaign slot: the periods it still takes, and whether one of its periods was accepted (R37, R67). -/
  | slice (slot : Slot) (remaining : Nat) (lit : Bool)
  | order (n : OrderNo)
  deriving DecidableEq, Repr

/-- A channel record (R23). -/
structure Channel where
  state : ChannelState := .disconnected
  point : Option Pair := none
  /-- The probe: absent is STOPPED, a signature is RUNNING. -/
  probe : Option Signature := none
  holder : Option Holder := none
  deriving DecidableEq, Repr

/-- The Probe Channels. -/
structure Switch where
  channels : Vector Channel 4
  enabled : Vector (Vector Bool 16) 4
  ceilings : Vector Int 16
  dark : Vector Bool 16
  deriving DecidableEq, Repr

/-! ## Echo Correlator -/

/-- An entry of the extent list (R43). -/
structure Extent where
  start : Nat
  length : Nat
  slot : Slot
  deriving DecidableEq, Repr

/-- The Echo Correlator. -/
structure Correlator where
  cells : Table Int
  extents : List Extent
  floor : Nat
  deriving DecidableEq, Repr

/-! ## Frame Clock and Grant Arbiter -/

/-- The Frame Clock and Grant Arbiter. -/
structure Arbiter where
  frame : Nat
  /-- The interval in force, in ms. -/
  interval : Nat
  pendingInterval : Option Nat
  service : List Pair
  lastServed : Vector (Option Nat) 16
  previous : Vector (Option Chan) 16
  deriving DecidableEq, Repr

/-! ## Campaign Engine -/

/-- The states of a campaign record (R74). -/
inductive CampaignState where
  | free | queued | idlePeriodic | reserved | awaitingRoom | measuring | nested | done | failed | aborted
  deriving DecidableEq, Repr

/-- The kinds of campaign (R73). -/
inductive CampaignKind where
  | survey | locate | confirm
  deriving DecidableEq, Repr

/-- How a campaign was made (R73). -/
inductive CampaignOrigin where
  | demand | periodic | child | order
  deriving DecidableEq, Repr

/-- The verdict summaries (R111). -/
inductive Summary where
  | lineDark | breakSeen | stepSeen | loopFaultSeen | undecided | driftSeen | clear
  deriving DecidableEq, Repr

/-- The parity tags (R69). -/
inductive Parity where
  | any | even | odd
  deriving DecidableEq, Repr

/-- The periodic part of a campaign record (R69). -/
structure PeriodicPart where
  period : Nat
  parity : Parity
  countdown : Nat
  due : Bool
  overruns : Nat
  deriving DecidableEq, Repr

/-- An element of a campaign's element list (R73, R84). -/
structure Element where
  entry : Index
  lag : Nat
  position : Nat
  deriving DecidableEq, Repr

/-- A result element (R49, R73). Its SHIFTED mark is computed from the peak offset (R51). -/
structure ResultElement where
  entry : Index
  position : Nat
  offset : Int
  amplitude : Nat
  echo : Int
  gain : Option Int
  deviation : Option Int
  /-- The class; absent until the Fault Locator fills it. -/
  verdict : Option ElementClass := none
  refined : Option ElementClass := none
  refiningDepth : Option Nat := none
  /-- The reason of a refined INCONCLUSIVE (R122). -/
  reason : Option Reason := none
  deriving DecidableEq, Repr

/-- The probe settings of a campaign or an order (R28). -/
structure Settings where
  chip : Code := 0
  sequence : Code := 0
  level : Nat := 0
  reference : Code := 0
  deriving DecidableEq, Repr

/-- A campaign record (R73), with its FREE values as defaults. A record whose kind is absent holds no campaign: it is FREE,
or RESERVED and not yet a confirm. -/
structure Campaign where
  state : CampaignState := .free
  kind : Option CampaignKind := none
  origin : CampaignOrigin := .demand
  requester : Source := 0
  requesterLevel : Level := 0
  pair : Pair := 0
  first : Nat := 0
  last : Nat := 0
  exponent : Nat := 0
  accepted : Nat := 0
  requested : Settings := {}
  /-- The applied level code and reference. -/
  applied : Option (Nat × Code) := none
  clamped : Bool := false
  mustPrime : Bool := false
  autoLocate : Bool := false
  depth : Nat := 0
  parent : Option Slot := none
  /-- The element list; an absent one is empty. -/
  elements : List Element := []
  /-- The extent: its start and length. -/
  extent : Option (Nat × Nat) := none
  darkCount : Nat := 0
  /-- The suspect cursor: a path position. -/
  cursor : Option Nat := none
  /-- The results list; an absent one is empty. -/
  results : List ResultElement := []
  summary : Option Summary := none
  failure : Option Reason := none
  periodic : Option PeriodicPart := none
  deriving DecidableEq, Repr

/-- The Campaign Engine. -/
structure Engine where
  slots : Vector Campaign 32
  demand : List Slot
  /-- The periodic list, in slot order. -/
  periodic : List Slot
  /-- The chain of each pair, root first. -/
  chains : Vector (List Slot) 16
  deriving DecidableEq, Repr

/-! ## Fault Locator -/

/-- The Fault Locator. -/
structure Locator where
  tStep : Nat
  tDrift : Nat
  lineDark : Vector Bool 16
  deriving DecidableEq, Repr

/-! ## Isolation Unit -/

/-- The seven order actions (R128). -/
inductive Action where
  | pumpToSpare | pumpRestore | gainHold | gainRelease | loopMute | routeA | routeB
  deriving DecidableEq, Repr

/-- A present action gate (R126). -/
structure Gate where
  action : Action
  first : Index
  last : Index
  mask : BitVec 16
  level : Level
  exponent : Nat
  deriving DecidableEq, Repr

/-- The order settings (R135). -/
structure OrderSettings where
  chip : Code
  sequence : Code
  limit : Nat
  deriving DecidableEq, Repr

/-- The states of a taken order record (R134). -/
inductive OrderState where
  | waitingChannel | referencing | sending | listening | confirming | doneAccepted | doneRefused | doneFailed | doneUnresolved
  deriving DecidableEq, Repr

/-- The attempt outcomes (R133). -/
inductive AttemptOutcome where
  | accept | refuse | garbled | noAnswer | channelLost
  deriving DecidableEq, Repr

/-- The confirm result of an order record (R152). -/
structure ConfirmResult where
  summary : Option Summary
  verdict : Option ElementClass
  amplitude : Option Nat
  deriving DecidableEq, Repr

/-- A taken order record (R133). The last three fields are the running burst's own (R136, R137, R140, R142). -/
structure Order where
  entry : Index
  pair : Pair
  action : Action
  argument : Byte
  gate : Fin 32
  exponent : Nat
  requester : Source
  requesterLevel : Level
  reserved : Slot
  prior : Condition
  address : Byte
  chip : Code
  sequence : Code
  limit : Nat
  lag : Nat
  state : OrderState := .waitingChannel
  attempts : Nat := 0
  wordSent : Bool := false
  reference : Option Nat := none
  offset : Option Int := none
  lastOutcome : Option AttemptOutcome := none
  channel : Option Chan := none
  confirm : Option ConfirmResult := none
  reason : Option Reason := none
  /-- The applied level code and reference of the burst (R136). -/
  applied : Nat × Code := (64, 0)
  /-- The periods the current phase has taken. -/
  phase : Nat := 0
  /-- The bits of the listening window so far, first period first. -/
  window : List Bool := []
  deriving DecidableEq, Repr

/-- The Isolation Unit. -/
structure IsolationUnit where
  gates : Vector (Option Gate) 32
  orders : Vector (Option Order) 8
  settings : OrderSettings
  /-- The acceptance list, oldest first. -/
  acceptance : List OrderNo
  /-- The five working cells of each channel, offset -2 first. -/
  working : Vector (Vector Int 5) 4
  /-- Whether the last period a burst drove on the channel was inverted (R138). -/
  inverted : Vector Bool 4
  deriving DecidableEq, Repr

/-! ## Baseline Store -/

/-- An image record that is not ABSENT (R161). -/
structure Baseline where
  /-- STORED; otherwise ADOPTED. -/
  stored : Bool
  gain : Int
  address : Byte
  deriving DecidableEq, Repr

/-- A record of the staging buffer (R167). -/
structure Staged where
  index : Index
  baseline : Option Baseline
  deriving DecidableEq, Repr

/-- A running commit (R167, R168): what has been programmed, and what is left, whose head is being programmed. -/
structure CommitJob where
  pair : Pair
  first : Index
  staged : Nat
  pageLimited : Bool
  written : List Staged
  remaining : List Staged
  deriving DecidableEq, Repr

/-- The store state (R165). -/
inductive StoreOp where
  | idle
  | erasing (block : Fin 32)
  | programming (job : CommitJob)
  | loading
  deriving DecidableEq, Repr

/-- The last-operation record (R165). -/
inductive LastOp where
  | erase (block : Fin 32)
  | commit (pair : Pair) (first : Index) (staged programmed : Nat) (stop : Reason)
  deriving DecidableEq, Repr

/-- The Baseline Store. -/
structure BaselineStore where
  /-- The store's bytes (R198): byte i of slot n stands at address 8·n + i; an unlisted byte is 0xFF. -/
  store : List Host.Cell
  /-- The image: the record of (pair p, index i) stands at address 512·p + i; an unlisted one is ABSENT. -/
  image : Table (Option Baseline)
  staging : List Staged
  op : StoreOp
  lastOp : Option LastOp
  deriving DecidableEq, Repr

/-! ## Command Link -/

/-- The receive assembler with the bytes received since the sync (R175). -/
inductive Assembler where
  | hunting
  | length (got : List Byte)
  | content (length : Nat) (got : List Byte)
  deriving DecidableEq, Repr

/-- A link frame the part sends (R192); its acting level is 0. -/
structure LinkFrame where
  source : Source
  tag : Byte
  kind : Byte
  body : List Byte
  deriving DecidableEq, Repr

/-- The 58 report origins (R183). -/
inductive Origin where
  | campaign (slot : Slot)
  | order (n : OrderNo)
  | pair (p : Pair)
  | store
  | system
  deriving DecidableEq, Repr

/-- The transmitter (R185). A reply being sent is still at the head of the reply queue (R181). -/
inductive Transmitter where
  | idle
  | reply (f : LinkFrame)
  | report (f : LinkFrame)
  deriving DecidableEq, Repr

/-- The part states (R186, R191). -/
inductive PartState where
  | starting | ready
  deriving DecidableEq, Repr

/-- The reset kinds (R184). -/
inductive ResetKind where
  | cold | warm
  deriving DecidableEq, Repr

/-- The reset causes (R184, R191). -/
inductive ResetCause where
  | powerOn | request | lineBreak
  deriving DecidableEq, Repr

/-- The Command Link. -/
structure Link where
  assembler : Assembler
  levels : Vector Level 8
  replies : List LinkFrame
  reports : List Origin
  transmitter : Transmitter
  /-- The receive-ready line: asserted. -/
  ready : Bool
  part : PartState
  lastReset : ResetKind × ResetCause
  pendingReset : Option ResetKind
  rate : LineRate
  /-- A break is in progress (R174, R190). -/
  lineAtSpace : Bool
  /-- The break in progress has made its reset (R190). -/
  breakSpent : Bool
  deriving DecidableEq, Repr

/-! ## The whole part -/

/-- The state of the part, the queue of waiting commands, and the count of free values taken. -/
structure State where
  lpt : Plant
  pch : Switch
  ecr : Correlator
  fga : Arbiter
  cen : Engine
  flo : Locator
  isu : IsolationUnit
  bst : BaselineStore
  clk : Link
  /-- The commands that are waiting, first in, first out. -/
  pending : List Instr
  /-- The model's own: how many free values have been taken (log 2, log 3). -/
  freeCount : Nat
  deriving DecidableEq, Repr

/-- No command stops the part: the spec describes no fatal state. The type has no constructor. -/
inductive Fault where
  deriving DecidableEq, Repr

/-- Why the model has no meaning for a command. -/
inductive Refusal where
  /-- Raised by `exec` for a command that has no meaning yet. Safe: the model stops. -/
  | notModelled (mnemonic : String)
  /-- Raised by a period end whose sample list is not one whole period of the channel's sequence (R35). Safe: no such event
  exists (log 22). -/
  | samplesAreNotOnePeriod
  /-- Raised by an UNKNOWN_KIND_REQUEST that carries a request kind (R179). Safe: it is no command of that row (log 22). -/
  | kindIsARequest
  deriving DecidableEq, Repr

/-! ## Reset values -/

/-- The Line Plant Table after a cold reset (R21). -/
def Plant.cold : Plant :=
  { entries := [], records := [], paths := Vector.replicate 16 [], spans := Vector.replicate 8 0,
    assembly := Vector.replicate 8 [] }

/-- The Probe Channels after a cold reset (R39). -/
def Switch.cold : Switch :=
  { channels := Vector.replicate 4 {}, enabled := Vector.replicate 4 (Vector.replicate 16 true),
    ceilings := Vector.replicate 16 (-3000), dark := Vector.replicate 16 false }

/-- The Echo Correlator after a cold reset (R59; the cells: log 9). -/
def Correlator.cold : Correlator := { cells := [], extents := [], floor := 8 }

/-- The Frame Clock and Grant Arbiter after a reset that leaves the given interval in force (R61, R65, R72). -/
def Arbiter.afterReset (interval : Nat) : Arbiter :=
  { frame := 0, interval := interval, pendingInterval := none,
    service := [0, 1, 2, 3, 4, 5, 6, 7, 8, 9, 10, 11, 12, 13, 14, 15],
    lastServed := Vector.replicate 16 none, previous := Vector.replicate 16 none }

/-- The Campaign Engine after either reset (R101). -/
def Engine.afterReset : Engine :=
  { slots := Vector.replicate 32 {}, demand := [], periodic := [], chains := Vector.replicate 16 [] }

/-- The Fault Locator after a cold reset (R125). -/
def Locator.cold : Locator := { tStep := 150, tDrift := 300, lineDark := Vector.replicate 16 false }

/-- The Isolation Unit after a cold reset (R127, R135, R158; the working cells and polarities: log 26). -/
def IsolationUnit.cold : IsolationUnit :=
  { gates := Vector.replicate 32 none, orders := Vector.replicate 8 none,
    settings := { chip := 1, sequence := 2, limit := 3 }, acceptance := [],
    working := Vector.replicate 4 (Vector.replicate 5 0), inverted := Vector.replicate 4 false }

/-- The Baseline Store right after a cold reset, the load begun, with the given store contents (R165, R171). -/
def BaselineStore.loading (store : List Host.Cell) : BaselineStore :=
  { store := store, image := [], staging := [], op := .loading, lastOp := none }

/-- The Command Link right after a cold reset: STARTING (R177, R191). -/
def Link.cold (cause : ResetCause) (rate : LineRate) (lineAtSpace breakSpent : Bool) : Link :=
  { assembler := .hunting, levels := (Vector.replicate 8 3).set 0 0, replies := [], reports := [], transmitter := .idle,
    ready := true, part := .starting, lastReset := (.cold, cause), pendingReset := none, rate := rate,
    lineAtSpace := lineAtSpace, breakSpent := breakSpent }

/-- The part right after a power-on cold reset (R191): STARTING, the baseline load running. The store reads BLANK
(log 8) and the strap low (log 10). -/
def State.reset : State :=
  { lpt := .cold, pch := .cold, ecr := .cold, fga := .afterReset 5000, cen := .afterReset, flo := .cold, isu := .cold,
    bst := .loading [], clk := .cold .powerOn .low false false, pending := [], freeCount := 0 }

end Sys2Proof.Machine
end

