-- ==== Sys2Proof/Machine/Codes.lean ====
section
/-! DEFINITION. The code tables of R197 (and R128 for the actions). -/

namespace Sys2Proof.Machine

/-- The reason byte (R197). -/
def reasonCode : Reason → Nat
  | .unknownKind => 0x01 | .malformed => 0x02 | .level => 0x03 | .starting => 0x04 | .range => 0x05 | .wrongKind => 0x06
  | .wrongState => 0x07 | .duplicate => 0x08 | .inUse => 0x09 | .pairBusy => 0x0A | .entryBusy => 0x0B | .noSlot => 0x0C
  | .queueFull => 0x0D | .listFull => 0x0E | .storeBusy => 0x0F | .gateAbsent => 0x10 | .outsideGate => 0x11
  | .notOnPath => 0x12 | .notLocated => 0x13 | .noSpare => 0x14 | .noReference => 0x15 | .lagAlias => 0x16
  | .ordersFull => 0x17 | .noPath => 0x20 | .resolution => 0x21 | .noRoute => 0x22 | .noBaseline => 0x23 | .dark => 0x24
  | .pathChanged => 0x25 | .exponent => 0x26 | .depth => 0x27 | .refused => 0x28 | .garbled => 0x29 | .noAnswer => 0x2A
  | .channelLost => 0x2B | .withdrawn => 0x2C | .confirmFailed => 0x2D | .count => 0x30 | .pageEnd => 0x31
  | .occupied => 0x32

/-- The condition code (R197). -/
def conditionCode : Condition → Nat
  | .unmeasured => 0 | .normal => 1 | .suspect => 2 | .drifting => 3 | .located => 4 | .loopFault => 5 | .inconclusive => 6
  | .isolating => 7 | .isolated => 8 | .unresolved => 9

/-- The code of isolation in effect (R197). -/
def isolationCode : Isolation → Nat
  | .nothing => 0 | .spare => 1 | .gainHold => 2 | .loopMuted => 3

/-- The class and refined class code (R197). -/
def classCode : ElementClass → Nat
  | .muted => 1 | .lost => 2 | .noEcho => 3 | .breakAfter => 4 | .noBaseline => 5 | .drift => 6 | .normal => 7 | .spike => 8
  | .step => 9 | .rise => 10 | .ambiguous => 11 | .inconclusive => 12 | .aborted => 13

/-- The verdict summary code (R197). -/
def summaryCode : Summary → Nat
  | .lineDark => 1 | .breakSeen => 2 | .stepSeen => 3 | .loopFaultSeen => 4 | .undecided => 5 | .driftSeen => 6 | .clear => 7

/-- The campaign state code (R197). -/
def campaignStateCode : CampaignState → Nat
  | .free => 0 | .queued => 1 | .idlePeriodic => 2 | .reserved => 3 | .awaitingRoom => 4 | .measuring => 5 | .nested => 6
  | .done => 7 | .failed => 8 | .aborted => 9

/-- The campaign kind code (R197). -/
def campaignKindCode : CampaignKind → Nat
  | .survey => 0 | .locate => 1 | .confirm => 2

/-- The campaign origin code (R197). -/
def campaignOriginCode : CampaignOrigin → Nat
  | .demand => 0 | .periodic => 1 | .child => 2 | .order => 3

/-- The parity tag code (R197). -/
def parityCode : Parity → Nat
  | .any => 0 | .even => 1 | .odd => 2

/-- The order state code of a taken record (R197). -/
def orderStateCode : OrderState → Nat
  | .waitingChannel => 1 | .referencing => 2 | .sending => 3 | .listening => 4 | .confirming => 5 | .doneAccepted => 6
  | .doneRefused => 7 | .doneFailed => 8 | .doneUnresolved => 9

/-- The action code (R128). -/
def actionCode : Action → Nat
  | .pumpToSpare => 1 | .pumpRestore => 2 | .gainHold => 3 | .gainRelease => 4 | .loopMute => 5 | .routeA => 6 | .routeB => 7

/-- The action of a code (R128). -/
def actionOf : Nat → Option Action
  | 1 => some .pumpToSpare | 2 => some .pumpRestore | 3 => some .gainHold | 4 => some .gainRelease | 5 => some .loopMute
  | 6 => some .routeA | 7 => some .routeB | _ => none

/-- The attempt outcome code (R197). -/
def outcomeCode : AttemptOutcome → Nat
  | .accept => 1 | .refuse => 2 | .garbled => 3 | .noAnswer => 4 | .channelLost => 5

/-- The entry kind code (R197). -/
def entryKindCode : EntryKind → Nat
  | .line _ => 1 | .branching _ => 2 | .equalizer => 3

/-- The route code (R197). -/
def routeCode : Leg → Nat
  | .a => 0 | .b => 1

/-- The leg tag code (R197). -/
def tagCode : Option Leg → Nat
  | none => 0 | some .a => 1 | some .b => 2

/-- The leg tag of a code (R194). -/
def tagOf : Nat → Option Leg
  | 1 => some .a | 2 => some .b | _ => none

/-- The channel state code (R197). -/
def channelStateCode : ChannelState → Nat
  | .disconnected => 0 | .parked => 1 | .coasting => 2 | .settling => 3 | .priming => 4 | .periods => 5

/-- The store state code (R197). -/
def storeStateCode : StoreOp → Nat
  | .idle => 0 | .erasing _ => 1 | .programming _ => 2 | .loading => 3

/-- The image status code (R197). -/
def imageStatusCode : Option Baseline → Nat
  | none => 0 | some b => if b.stored then 1 else 2

/-- The part state code (R197). -/
def partStateCode : PartState → Nat
  | .starting => 0 | .ready => 1

/-- The reset kind code (R195). -/
def resetKindCode : ResetKind → Nat
  | .cold => 1 | .warm => 2

/-- The reset cause code (R195). -/
def resetCauseCode : ResetCause → Nat
  | .powerOn => 1 | .request => 2 | .lineBreak => 3

end Sys2Proof.Machine
end

