-- ==== Sys2Proof/Machine/Format.lean ====
section
/-! DEFINITION. Field encoding (R193), link frames and their CRC (R175, R192), the codes of result elements (R196) and store
slots (R198), and big-endian reading of request fields. -/

namespace Sys2Proof.Machine

/-! ## Field encoding (R193): most significant byte first -/

/-- A field of one byte. -/
def u8 (n : Nat) : List Byte := [BitVec.ofNat 8 n]

/-- An unsigned field of two bytes. -/
def u16 (n : Nat) : List Byte := [BitVec.ofNat 8 (n / 256), BitVec.ofNat 8 n]

/-- An unsigned field of three bytes. -/
def u24 (n : Nat) : List Byte := [BitVec.ofNat 8 (n / 65536), BitVec.ofNat 8 (n / 256), BitVec.ofNat 8 n]

/-- A signed field of one byte. -/
def i8 (x : Int) : List Byte := [BitVec.ofInt 8 x]

/-- A signed field of two bytes. -/
def i16 (x : Int) : List Byte := u16 (BitVec.ofInt 16 x).toNat

/-- A flag or a mark: 0 or 1. -/
def flagByte (b : Bool) : List Byte := u8 (if b then 1 else 0)

/-- An optional field of `width` bytes: a presence byte, then the field, or zeros when it is absent. -/
def optional {α : Type} (width : Nat) (field : α → List Byte) : Option α → List Byte
  | none => 0 :: List.replicate width 0
  | some x => 1 :: field x

/-- A list: a one-byte count, then the elements. -/
def counted {α : Type} (field : α → List Byte) (xs : List α) : List Byte := u8 xs.length ++ xs.flatMap field

/-- A run whose number of elements is fixed: the elements without a count (log 5). -/
def fixedRun {α : Type} (field : α → List Byte) (xs : List α) : List Byte := xs.flatMap field

/-- Two bytes read most significant first. -/
def join16 (high low : Byte) : BitVec 16 := high ++ low

/-- Three bytes read most significant first. -/
def join24 (high middle low : Byte) : BitVec 24 := high ++ middle ++ low

/-! ## Link frames (R192) -/

/-- `n` shifts of the CRC register, the polynomial x^16 + x^12 + x^5 + 1 entering when a one leaves. -/
def crcShift : Nat → BitVec 16 → BitVec 16
  | 0, r => r
  | n + 1, r => crcShift n (if r.msb then (r <<< 1) ^^^ 0x1021#16 else r <<< 1)

/-- One byte enters the CRC register, most significant bit first. -/
def crcByte (r : BitVec 16) (b : Byte) : BitVec 16 := crcShift 8 (r ^^^ ((b.setWidth 16) <<< 8))

/-- The CRC-16 of a run of bytes; the register starts at all ones (R175, R192). -/
def crc16 (bytes : List Byte) : BitVec 16 := bytes.foldl crcByte 0xFFFF#16

/-- The sync byte (R175, R192). -/
def syncByte : Byte := 0xC3

/-- The counted bytes of a frame the part sends: the acting level field is 0 (R181, R184). -/
def frameCounted (f : LinkFrame) : List Byte := BitVec.ofNat 8 (16 * f.source.val) :: f.tag :: f.kind :: f.body

/-- The bytes of a frame on the line, from its sync byte to its last CRC byte (R185, R192). -/
def frameBytes (f : LinkFrame) : List Byte :=
  syncByte :: (u16 (frameCounted f).length ++ frameCounted f
    ++ u16 (crc16 (u16 (frameCounted f).length ++ frameCounted f)).toNat)

/-- The kind byte of an accepting reply (R195). -/
def kindAccepted : Byte := 0xF0

/-- The kind byte of a refusing reply (R195). -/
def kindRefused : Byte := 0xF1

/-! ## Result elements (R196) -/

/-- The SHIFTED mark: the peak is at the edge of its window (R51). -/
def shifted (r : ResultElement) : Bool := r.offset == 2 || r.offset == -2

/-- The 15 bytes of a result element (R196). -/
def resultBytes (r : ResultElement) : List Byte :=
  u16 ((r.offset + 2).toNat * 8192 + (if shifted r then 4096 else 0) + r.entry.val)
    ++ u8 r.position
    ++ u8 ((r.refiningDepth.getD 0) * 16 + (if r.gain.isSome then 8 else 0) + (if r.deviation.isSome then 4 else 0))
    ++ u24 r.amplitude ++ i16 r.echo ++ i16 (r.gain.getD 0) ++ i16 (r.deviation.getD 0)
    ++ u8 ((r.verdict.map classCode).getD 0 * 16 + (r.refined.map classCode).getD 0)
    ++ u8 ((r.reason.map reasonCode).getD 0)

/-! ## Store slots (R198) -/

/-- The state of a slot as judged from its bytes (R160, R198). -/
inductive SlotState where
  | blank | holding | torn
  deriving DecidableEq, Repr

/-- The opening mark (R198). -/
def openingMark : Byte := 0x3C

/-- The completion mark (R198). -/
def completionMark : Byte := 0xA5

/-- Byte `i` of a slot; an erased byte is 0xFF (R198). -/
def slotByte (store : List Host.Cell) (slot i : Nat) : Byte := tableGet (0xFF : Byte) store (8 * slot + i)

/-- The eight bytes of a slot (R198). -/
def slotBytes (store : List Host.Cell) (slot : Nat) : List Byte :=
  [slotByte store slot 0, slotByte store slot 1, slotByte store slot 2, slotByte store slot 3, slotByte store slot 4,
   slotByte store slot 5, slotByte store slot 6, slotByte store slot 7]

/-- A slot's state is judged from its bytes whenever it is read (R198). -/
def slotState (store : List Host.Cell) (slot : Nat) : SlotState :=
  if slotBytes store slot = List.replicate 8 0xFF then .blank
  else if slotByte store slot 0 = openingMark ∧ slotByte store slot 7 = completionMark then .holding
  else .torn

/-- The pair byte of a slot (R198). -/
def slotPair (store : List Host.Cell) (slot : Nat) : Nat := (slotByte store slot 1).toNat

/-- The table index of a slot (R198). -/
def slotIndex (store : List Host.Cell) (slot : Nat) : Nat := (join16 (slotByte store slot 2) (slotByte store slot 3)).toNat

/-- The line address of a slot (R198). -/
def slotAddress (store : List Host.Cell) (slot : Nat) : Byte := slotByte store slot 4

/-- The LG_base of a slot (R198). -/
def slotGain (store : List Host.Cell) (slot : Nat) : Int := (join16 (slotByte store slot 5) (slotByte store slot 6)).toInt

/-- Bytes written one after another from an address on. -/
def writeBytes (store : List Host.Cell) : Nat → List Byte → List Host.Cell
  | _, [] => store
  | a, b :: rest => writeBytes (tableSet (0xFF : Byte) store a b) (a + 1) rest

end Sys2Proof.Machine
end

