-- ==== Sys2Proof/Machine/Ops.lean ====
section
/-! DEFINITION. The named reads and writes of the state that every meaning goes through: one home for each piece of state. -/

namespace Sys2Proof.Machine

/-! ## Lists of all pairs, channels, records, slots -/

/-- The pairs in ascending order. -/
def allPairs : List Pair := [0, 1, 2, 3, 4, 5, 6, 7, 8, 9, 10, 11, 12, 13, 14, 15]

/-- The channels in ascending order. -/
def allChannels : List Chan := [0, 1, 2, 3]

/-- The order records in ascending order. -/
def allOrders : List OrderNo := [0, 1, 2, 3, 4, 5, 6, 7]

/-- The campaign slots in ascending order. -/
def allSlots : List Slot :=
  [0, 1, 2, 3, 4, 5, 6, 7, 8, 9, 10, 11, 12, 13, 14, 15, 16, 17, 18, 19, 20, 21, 22, 23, 24, 25, 26, 27, 28, 29, 30, 31]

/-- The table indices in ascending order. -/
def allIndices : List Index := List.finRange 272

/-! ## Line Plant Table -/

/-- The entry at a table index; absent if undefined (R2). -/
def State.entry (s : State) (i : Index) : Option Entry := tableGet none s.lpt.entries i.val

/-- The state with an entry replaced. -/
def State.setEntry (s : State) (i : Index) (e : Option Entry) : State :=
  { s with lpt := { s.lpt with entries := tableSet none s.lpt.entries i.val e } }

/-- The amplifier record of an entry on a pair (R9). -/
def State.record (s : State) (i : Index) (p : Pair) : AmpRecord := tableGet {} s.lpt.records (16 * i.val + p.val)

/-- The state with an amplifier record replaced. -/
def State.setRecord (s : State) (i : Index) (p : Pair) (r : AmpRecord) : State :=
  { s with lpt := { s.lpt with records := tableSet {} s.lpt.records (16 * i.val + p.val) r } }

/-- A pair's path list (R13). -/
def State.path (s : State) (p : Pair) : List PathElement := s.lpt.paths[p]

/-- The state with a pair's path list replaced. -/
def State.setPath (s : State) (p : Pair) (l : List PathElement) : State :=
  { s with lpt := { s.lpt with paths := s.lpt.paths.set p l } }

/-- A source's span selection (R5). -/
def State.span (s : State) (src : Source) : Fin 16 := s.lpt.spans[src]

/-- The state with a source's span selection replaced. -/
def State.setSpan (s : State) (src : Source) (n : Fin 16) : State :=
  { s with lpt := { s.lpt with spans := s.lpt.spans.set src n } }

/-- A source's path assembly list (R14). -/
def State.assemblyList (s : State) (src : Source) : List PathElement := s.lpt.assembly[src]

/-- The state with a source's path assembly list replaced. -/
def State.setAssemblyList (s : State) (src : Source) (l : List PathElement) : State :=
  { s with lpt := { s.lpt with assembly := s.lpt.assembly.set src l } }

/-! ## Probe Channels -/

/-- A channel record (R23). -/
def State.channel (s : State) (c : Chan) : Channel := s.pch.channels[c]

/-- The state with a channel record replaced. -/
def State.setChannel (s : State) (c : Chan) (ch : Channel) : State :=
  { s with pch := { s.pch with channels := s.pch.channels.set c ch } }

/-- The enable mark of a crosspoint (R24). -/
def State.pointEnabled (s : State) (c : Chan) (p : Pair) : Bool := s.pch.enabled[c][p]

/-- The state with an enable mark replaced. -/
def State.setPointEnabled (s : State) (c : Chan) (p : Pair) (b : Bool) : State :=
  { s with pch := { s.pch with enabled := s.pch.enabled.set c (s.pch.enabled[c].set p b) } }

/-- A pair's level ceiling (R30). -/
def State.ceiling (s : State) (p : Pair) : Int := s.pch.ceilings[p]

/-- The state with a pair's ceiling replaced. -/
def State.setCeilingOf (s : State) (p : Pair) (x : Int) : State :=
  { s with pch := { s.pch with ceilings := s.pch.ceilings.set p x } }

/-- A pair's DARK mark (R37). -/
def State.darkMark (s : State) (p : Pair) : Bool := s.pch.dark[p]

/-- The state with a pair's DARK mark replaced. -/
def State.setDarkMark (s : State) (p : Pair) (b : Bool) : State :=
  { s with pch := { s.pch with dark := s.pch.dark.set p b } }

/-! ## Echo Correlator -/

/-- A correlation cell (R43). -/
def State.cell (s : State) (a : Nat) : Int := tableGet 0 s.ecr.cells a

/-- The state with the correlation cells replaced. -/
def State.setCells (s : State) (cells : Table Int) : State := { s with ecr := { s.ecr with cells := cells } }

/-- The state with the extent list replaced. -/
def State.setExtents (s : State) (l : List Extent) : State := { s with ecr := { s.ecr with extents := l } }

/-! ## Frame Clock and Grant Arbiter -/

/-- The state with a pair's previous channel set (R65). -/
def State.setPrevious (s : State) (p : Pair) (c : Chan) : State :=
  { s with fga := { s.fga with previous := s.fga.previous.set p (some c) } }

/-- The state with a pair's last-served frame set to the frame number (R65). -/
def State.setLastServed (s : State) (p : Pair) : State :=
  { s with fga := { s.fga with lastServed := s.fga.lastServed.set p (some s.fga.frame) } }

/-! ## Campaign Engine -/

/-- A campaign record (R73). -/
def State.campaign (s : State) (n : Slot) : Campaign := s.cen.slots[n]

/-- The state with a campaign record replaced. -/
def State.setCampaign (s : State) (n : Slot) (c : Campaign) : State :=
  { s with cen := { s.cen with slots := s.cen.slots.set n c } }

/-- A pair's chain, root first; empty if the pair has none (R85). -/
def State.chain (s : State) (p : Pair) : List Slot := s.cen.chains[p]

/-- The state with a pair's chain replaced. -/
def State.setChain (s : State) (p : Pair) (l : List Slot) : State :=
  { s with cen := { s.cen with chains := s.cen.chains.set p l } }

/-- A pair's chain top (R85). -/
def State.chainTop (s : State) (p : Pair) : Option Slot := (s.chain p).getLast?

/-- The state with the demand queue replaced (R78). -/
def State.setDemand (s : State) (l : List Slot) : State := { s with cen := { s.cen with demand := l } }

/-- The state with the periodic list replaced (R79). -/
def State.setPeriodicList (s : State) (l : List Slot) : State := { s with cen := { s.cen with periodic := l } }

/-- The lowest-numbered FREE campaign slot (R75). -/
def State.freeSlot (s : State) : Option Slot := allSlots.find? (fun n => (s.campaign n).state == .free)

/-! ## Fault Locator -/

/-- A pair's LINE_DARK mark (R112). -/
def State.lineDarkMark (s : State) (p : Pair) : Bool := s.flo.lineDark[p]

/-- The state with a pair's LINE_DARK mark replaced. -/
def State.setLineDarkMark (s : State) (p : Pair) (b : Bool) : State :=
  { s with flo := { s.flo with lineDark := s.flo.lineDark.set p b } }

/-! ## Isolation Unit -/

/-- An action gate; absent if not present (R126). -/
def State.gate (s : State) (g : Fin 32) : Option Gate := s.isu.gates[g]

/-- The state with an action gate replaced. -/
def State.setGate (s : State) (g : Fin 32) (x : Option Gate) : State :=
  { s with isu := { s.isu with gates := s.isu.gates.set g x } }

/-- An order record; absent if free (R133). -/
def State.order (s : State) (n : OrderNo) : Option Order := s.isu.orders[n]

/-- The state with an order record replaced. -/
def State.setOrder (s : State) (n : OrderNo) (o : Option Order) : State :=
  { s with isu := { s.isu with orders := s.isu.orders.set n o } }

/-- The state with the acceptance list replaced (R133). -/
def State.setAcceptance (s : State) (l : List OrderNo) : State := { s with isu := { s.isu with acceptance := l } }

/-- The lowest-numbered free order record (R132). -/
def State.freeOrder (s : State) : Option OrderNo := allOrders.find? (fun n => (s.order n).isNone)

/-- The working cell of a channel at offset `o`, -2..2 (R137). -/
def State.workingCell (s : State) (c : Chan) (o : Int) : Int := s.isu.working[c].toList.getD (o + 2).toNat 0

/-- The state with a channel's five working cells replaced. -/
def State.setWorking (s : State) (c : Chan) (cells : Vector Int 5) : State :=
  { s with isu := { s.isu with working := s.isu.working.set c cells } }

/-- Whether the last period driven on a channel was inverted (R138). -/
def State.lastInverted (s : State) (c : Chan) : Bool := s.isu.inverted[c]

/-- The state with the polarity of the last period driven on a channel replaced. -/
def State.setInverted (s : State) (c : Chan) (b : Bool) : State :=
  { s with isu := { s.isu with inverted := s.isu.inverted.set c b } }

/-! ## Baseline Store -/

/-- The image record of a pair and index; absent if ABSENT (R161). -/
def State.baseline (s : State) (p : Pair) (i : Index) : Option Baseline :=
  tableGet none s.bst.image (512 * p.val + i.val)

/-- The state with an image record replaced. -/
def State.setBaseline (s : State) (p : Pair) (i : Index) (b : Option Baseline) : State :=
  { s with bst := { s.bst with image := tableSet none s.bst.image (512 * p.val + i.val) b } }

/-! ## Command Link -/

/-- A source's level (R177). -/
def State.level (s : State) (src : Source) : Level := s.clk.levels[src]

/-- The state with a source's level replaced. -/
def State.setLevel (s : State) (src : Source) (l : Level) : State :=
  { s with clk := { s.clk with levels := s.clk.levels.set src l } }

/-- The state with the report queue replaced (R183). -/
def State.setReports (s : State) (l : List Origin) : State := { s with clk := { s.clk with reports := l } }

/-- The state with the assembler replaced (R175). -/
def State.setAssembler (s : State) (a : Assembler) : State := { s with clk := { s.clk with assembler := a } }

/-- The state with the transmitter replaced (R185). -/
def State.setTransmitter (s : State) (t : Transmitter) : State := { s with clk := { s.clk with transmitter := t } }

/-- What the receive-ready line shows: fewer than 8 replies queued, and no reset pending (R182). -/
def readyOf (replies : List LinkFrame) (pending : Option ResetKind) : Bool :=
  decide (replies.length < 8) && pending.isNone

/-- The state with the reply queue replaced and the receive-ready line with it (R181, R182). -/
def State.setReplies (s : State) (l : List LinkFrame) : State :=
  { s with clk := { s.clk with replies := l, ready := readyOf l s.clk.pendingReset } }

/-- The state with a reset made pending and the receive-ready line with it (R182, R189). -/
def State.setPendingReset (s : State) (k : ResetKind) : State :=
  { s with clk := { s.clk with pendingReset := some k, ready := readyOf s.clk.replies (some k) } }

/-! ## Free values -/

/-- The state after one more free value has been taken (log 2, log 3). -/
def State.takeFree (s : State) : State := { s with freeCount := s.freeCount + 1 }

end Sys2Proof.Machine
end

