-- ==== Sys2Proof/Machine/Flags.lean ====
section
/-! DEFINITION. Marks and queues: changed marks (R11), report origins (R183), the DARK and LINE_DARK marks (R37, R112), the
reply queue (R181) and the receive-ready line (R182). -/

namespace Sys2Proof.Machine

/-- An origin not in the report queue joins its tail; one that is there keeps its place (R183). -/
def State.queueOrigin (s : State) (o : Origin) : State :=
  if o ∈ s.clk.reports then s else s.setReports (s.clk.reports ++ [o])

/-- An origin is withdrawn wherever it stands (R183). -/
def State.withdrawOrigin (s : State) (o : Origin) : State := s.setReports (s.clk.reports.filter (fun x => !(x == o)))

/-- A record's condition takes a value; if it differs, the changed mark is set and the pair's origin queued (R11). -/
def State.setCondition (s : State) (i : Index) (p : Pair) (c : Condition) : State :=
  if (s.record i p).condition = c then s
  else (s.setRecord i p { s.record i p with condition := c, changed := true }).queueOrigin (.pair p)

/-- The pair's DARK mark is set and its origin queued (R37). -/
def State.markDark (s : State) (p : Pair) : State := (s.setDarkMark p true).queueOrigin (.pair p)

/-- The pair's LINE_DARK mark is set and its origin queued (R112). -/
def State.markLineDark (s : State) (p : Pair) : State := (s.setLineDarkMark p true).queueOrigin (.pair p)

/-- The order mark of a defined entry is set or cleared (R3, R132, R153). -/
def State.setOrderMark (s : State) (i : Index) (b : Bool) : State :=
  match s.entry i with
  | none => s
  | some e => s.setEntry i (some { e with mark := b })

/-- A reply joins the tail of the reply queue (R181). -/
def State.queueReply (s : State) (f : LinkFrame) : State := s.setReplies (s.clk.replies ++ [f])

/-- The indices of the pair's records whose changed marks are set, lowest first (R11). -/
def State.markedRecords (s : State) (p : Pair) : List Index := allIndices.filter (fun i => (s.record i p).changed)

/-- Does some record of the pair hold a changed mark (R11)? -/
def State.pairMarked (s : State) (p : Pair) : Bool := !(s.markedRecords p).isEmpty

end Sys2Proof.Machine
end

