-- ==== Sys2Proof/Machine/Operands.lean ====
section
/-! DEFINITION. Operand forms: identifiers in range (R1), references (R4), the effective path (R17) and who asks (R176). -/

namespace Sys2Proof.Machine

/-- An identifier within its range, or nothing (R1). -/
def inRange (n x : Nat) : Option (Fin n) := if h : x < n then some ⟨x, h⟩ else none

/-- Who made a request: its link source and its effective level (R176). -/
structure Asker where
  source : Source
  effective : Level
  deriving DecidableEq, Repr

/-- The answer of an owning block: a refusal, or the state after the request and the reply data. A refused request changes
no state (R179). -/
abbrev Answer := Except Reason (State × List Byte)

/-- The table index a reference resolves to for a source, or nothing where its number is out of its kind's range (R4). -/
def State.resolve (s : State) (src : Source) (r : Reference) : Option Index :=
  match r.kind.toNat with
  | 0 => if r.number.toNat < 16 then inRange 272 r.number.toNat else none
  | 1 => inRange 272 (16 + r.number.toNat)
  | 2 => if r.number.toNat < 16 then inRange 272 (16 + 16 * (s.span src).val + r.number.toNat) else none
  | _ => none

/-- The kind of an index's entry, if it is defined. -/
def State.kindOf (s : State) (i : Index) : Option EntryKind := (s.entry i).map Entry.kind

/-- Is the index's entry a defined BRANCHING entry? -/
def State.isBranching (s : State) (i : Index) : Bool :=
  match s.kindOf i with
  | some (.branching _) => true
  | _ => false

/-- The BRANCHING element of a path list with its unit's current route, if it has one (R17). -/
def State.branchOf (s : State) : List PathElement → Option (PathElement × Leg)
  | [] => none
  | e :: rest =>
    match s.kindOf e.entry with
    | some (.branching route) => some (e, route)
    | _ => s.branchOf rest

/-- A pair's effective path under the routes in force (R17). -/
def State.effectivePath (s : State) (p : Pair) : List PathElement :=
  match s.branchOf (s.path p) with
  | none => s.path p
  | some (unit, route) =>
    (s.path p).filter (fun e => e.tag == none && !(e.entry == unit.entry)) ++ [unit]
      ++ (s.path p).filter (fun e => e.tag == some route)

/-- The 1-based place of an entry in a list of path elements, counting from `k`. -/
def placeOf (i : Index) : List PathElement → Nat → Option Nat
  | [], _ => none
  | e :: rest, k => if e.entry = i then some k else placeOf i rest (k + 1)

/-- An entry's position on a pair's effective path, if it has one (R17). -/
def State.positionOf (s : State) (p : Pair) (i : Index) : Option Nat := placeOf i (s.effectivePath p) 1

/-- An entry's delay in a pair's path list (R131, check 10). -/
def State.delayOf (s : State) (p : Pair) (i : Index) : Option Nat :=
  ((s.path p).find? (fun e => e.entry == i)).map PathElement.delay

/-- Does the pair's path list hold the entry, on either leg or untagged? -/
def State.pathHolds (s : State) (p : Pair) (i : Index) : Bool := (s.path p).any (fun e => e.entry == i)

/-- The LG_base of a baseline that applies to the record of an entry on a pair, if one does (R56). -/
def State.appliedBaseline (s : State) (i : Index) (p : Pair) : Option Int :=
  match s.baseline p i, s.entry i with
  | some b, some e => if b.address = e.address then some b.gain else none
  | _, _ => none

end Sys2Proof.Machine
end

