-- ==== Sys2Proof/Machine/Correlator.lean ====
section
/-! DEFINITION. The Echo Correlator: extents (R43 to R46), accumulation (R47), zeroing (R48) and reduction (R49 to R57). -/

namespace Sys2Proof.Machine

/-! ## Extents -/

/-- The lowest start address, from `at0` on, of a run of `length` free cells below 8192, past extents in start order (R44). -/
def firstFit (length : Nat) : List Extent → Nat → Option Nat
  | [], at0 => if at0 + length ≤ 8192 then some at0 else none
  | e :: rest, at0 => if at0 + length ≤ e.start then some at0 else firstFit length rest (max at0 (e.start + e.length))

/-- An extent placed in the list by its start address (R43). -/
def insertExtent (x : Extent) : List Extent → List Extent
  | [] => [x]
  | e :: rest => if e.start < x.start then e :: insertExtent x rest else x :: e :: rest

/-- First-fit allocation of `length` cells to a slot: the extent joins the list, its cells are set to 0 and the record holds
it; nothing where there is no room (R44). -/
def State.allocate (s : State) (n : Slot) (length : Nat) : Option State :=
  match firstFit length s.ecr.extents 0 with
  | none => none
  | some a =>
    let s := s.setExtents (insertExtent { start := a, length := length, slot := n } s.ecr.extents)
    let s := s.setCells (tableClear s.ecr.cells a length)
    some (s.setCampaign n { s.campaign n with extent := some (a, length) })

/-- The channel a slot's slice holds, if it holds one. -/
def State.sliceChannel (s : State) (n : Slot) : Option Chan :=
  allChannels.find? (fun c =>
    match (s.channel c).holder with
    | some (.slice m _ _) => m == n
    | _ => false)

/-- A slice in progress ends at the release of its extent: from PRIMING or PERIODS to COASTING, from SETTLING to PARKED (R46).
A slice waiting for a period start leaves its channel COASTING (log 4). -/
def State.endSlice (s : State) (n : Slot) : State :=
  match s.sliceChannel n with
  | none => s
  | some c =>
    s.setChannel c { s.channel c with
      state := if (s.channel c).state = .settling then .parked else .coasting, holder := none }

/-- A slot's extent leaves the extent list and the record; the cells keep what they held (R45). -/
def State.dropExtent (s : State) (n : Slot) : State :=
  let s := s.setExtents (s.ecr.extents.filter (fun e => !(e.slot == n)))
  s.setCampaign n { s.campaign n with extent := none }

/-- The release of a slot's extent by abort, chain failure or the end of its chain: the slice it holds ends too (R45, R46). -/
def State.releaseExtent (s : State) (n : Slot) : State := (s.endSlice n).dropExtent n

/-- The cells of an extent set to 0; no extent, no cell. -/
def zeroedCells (cells : Table Int) : Option (Nat × Nat) → Table Int
  | none => cells
  | some (a, length) => tableClear cells a length

/-- Zeroing a campaign's accumulations: its cells and its accepted count to 0, its must-prime mark set (R48). -/
def State.zeroCampaign (s : State) (n : Slot) : State :=
  let s := s.setCells (zeroedCells s.ecr.cells (s.campaign n).extent)
  s.setCampaign n { s.campaign n with accepted := 0, mustPrime := true }

/-! ## Accumulation -/

/-- The cell of offset `o` of the element whose cells begin at `a` (R43). -/
def cellAddress (a : Nat) (o : Int) : Nat := a + (o + 2).toNat

/-- The five period sums of an element added to its cells (R42, R47). -/
def addPeriod (bits : List Bool) (samples : List Sample) (d a : Nat) (cells : Table Int) : Table Int :=
  [-2, -1, 0, 1, 2].foldl
    (fun t o => tableSet 0 t (cellAddress a o) (tableGet 0 t (cellAddress a o) + periodSum bits samples d o)) cells

/-- One accepted period added to every cell of an element list whose cells begin at `a` (R47). -/
def addPeriods (bits : List Bool) (samples : List Sample) : Nat → List Element → Table Int → Table Int
  | _, [], cells => cells
  | a, e :: rest, cells => addPeriods bits samples (a + 5) rest (addPeriod bits samples e.lag a cells)

/-- An accepted period joins its holder's accumulations and its accepted count goes up by one (R36, R47). -/
def State.acceptPeriod (s : State) (n : Slot) (samples : List Sample) : State :=
  let c := s.campaign n
  let s := match c.extent with
    | none => s
    | some (a, _) => s.setCells (addPeriods (probeBits c.requested.sequence) samples a c.elements s.ecr.cells)
  s.setCampaign n { c with accepted := c.accepted + 1 }

/-! ## Reduction -/

/-- The number of accepted periods a campaign takes, M (R47, R73). -/
def Campaign.periods (c : Campaign) : Nat := 2 ^ c.exponent

/-- The probe level of the campaign's applied settings (R55). -/
def Campaign.appliedLevel (c : Campaign) : Int :=
  match c.applied with
  | some (code, reference) => probeLevel code reference
  | none => probeLevel c.requested.level c.requested.reference

/-- One element reduced to its result element (R49, R51 to R57). -/
def State.reduceElement (s : State) (c : Campaign) (a : Nat) (e : Element) : ResultElement :=
  let o := peakOffset (fun o => s.cell (cellAddress a o))
  let aq := amplitude (s.cell (cellAddress a o)) c.periods (sequenceLength c.requested.sequence)
  if aq < s.ecr.floor then
    { entry := e.entry, position := e.position, offset := o, amplitude := aq, echo := -12000, gain := none, deviation := none }
  else
    let gain := echoLevel aq - c.appliedLevel
    { entry := e.entry, position := e.position, offset := o, amplitude := aq, echo := echoLevel aq, gain := some gain,
      deviation := (s.appliedBaseline e.entry c.pair).map (fun base => gain - base) }

/-- The elements of a list reduced in list order, the first one's cells beginning at `a` (R49). -/
def State.reduceFrom (s : State) (c : Campaign) : Nat → List Element → List ResultElement
  | _, [] => []
  | a, e :: rest => s.reduceElement c a e :: s.reduceFrom c (a + 5) rest

/-- The extent is reduced into the results list and then released (R49). -/
def State.reduceCampaign (s : State) (n : Slot) : State :=
  match (s.campaign n).extent with
  | none => s
  | some (a, _) =>
    let results := s.reduceFrom (s.campaign n) a (s.campaign n).elements
    (s.setCampaign n { s.campaign n with results := results }).dropExtent n

/-! ## What READ_EXTENTS shows -/

/-- The free runs between extents in start order, each with its start and length (R58). -/
def freeRuns : List Extent → Nat → List (Nat × Nat)
  | [], at0 => if at0 < 8192 then [(at0, 8192 - at0)] else []
  | e :: rest, at0 =>
    (if at0 < e.start then [(at0, e.start - at0)] else []) ++ freeRuns rest (max at0 (e.start + e.length))

/-- The longest free run, the lowest among equals (R58; log 12). -/
def longestRun : List (Nat × Nat) → Option (Nat × Nat)
  | [] => none
  | r :: rest =>
    match longestRun rest with
    | none => some r
    | some q => if r.2 < q.2 then some q else some r

end Sys2Proof.Machine
end

