-- ==== Sys2Proof/Machine/Channels.lean ====
section
/-! DEFINITION. Channel operations: applied settings (R31), signatures and priming (R33), carrying out a grant (R24, R66), the
slice's length (R67) and what a channel does at its ends (R34). -/

namespace Sys2Proof.Machine

/-- Is a channel free for the arbiter: DISCONNECTED, PARKED or COASTING with no holder (R23, R62)? A channel granted to a
holder that waits for its first period start is held (log 4). -/
def Channel.isFree (ch : Channel) : Bool :=
  (ch.state == .disconnected || ch.state == .parked || ch.state == .coasting) && ch.holder.isNone

/-- Is a channel held (R23, R62)? -/
def Channel.isHeld (ch : Channel) : Bool := !ch.isFree

/-- The signature a campaign's slice drives (R33). -/
def Campaign.signature (c : Campaign) : Signature :=
  let level := c.applied.getD (c.requested.level, c.requested.reference)
  { pair := c.pair, chip := c.requested.chip, sequence := c.requested.sequence, level := level.1, reference := level.2 }

/-- The signature an order's burst drives (R136). -/
def Order.signature (o : Order) : Signature :=
  { pair := o.pair, chip := o.chip, sequence := o.sequence, level := o.applied.1, reference := o.applied.2 }

/-- The signature a holder drives (R33); a free record has none. -/
def State.holderSignature (s : State) : Holder → Option Signature
  | .slice n _ _ => some (s.campaign n).signature
  | .order n => (s.order n).map Order.signature

/-- The applied settings of a campaign whose applied level exceeds the ceiling are lost with its accumulations (R31). -/
def State.dropExcessLevel (s : State) (n : Slot) : State :=
  match (s.campaign n).applied with
  | none => s
  | some (code, reference) =>
    if s.ceiling (s.campaign n).pair < probeLevel code reference then
      let s := s.zeroCampaign n
      s.setCampaign n { s.campaign n with applied := none }
    else s

/-- A campaign's applied settings fixed at the start of a slice: when its accepted count is 0, and when its applied level
exceeds the ceiling, its accumulations then zeroed first; the clamped mark follows (R31). -/
def State.fixCampaignLevel (s : State) (n : Slot) : State :=
  let s := s.dropExcessLevel n
  let c := s.campaign n
  if c.accepted = 0 ∨ c.applied = none then
    let level := fixLevel c.requested.level c.requested.reference (s.ceiling c.pair)
    s.setCampaign n { c with applied := some level, clamped := decide (level ≠ (c.requested.level, c.requested.reference)) }
  else s

/-- An order's applied level under its pair's ceiling: the request is code 4095 at the 8% reference (R31, R136). -/
def State.orderLevel (s : State) (o : Order) : Nat × Code := fixLevel 4095 3 (s.ceiling o.pair)

/-- Every other channel that holds the pair's point opens it, stops its probe and becomes DISCONNECTED (R24, step 2). -/
def State.openElsewhere (s : State) (c : Chan) (p : Pair) : State :=
  allChannels.foldl (fun s d => if d ≠ c ∧ (s.channel d).point = some p then s.setChannel d {} else s) s

/-- Does a grant of the channel to the pair settle (R24, R66)? -/
def State.settles (s : State) (c : Chan) (p : Pair) : Bool := !((s.channel c).point == some p)

/-- Does a grant prime: the probe stopped, or another signature, or the must-prime mark set (R33, R48, R66)? A grant that
settles stops the probe. -/
def State.primes (s : State) (c : Chan) (p : Pair) (sig : Signature) (mustPrime : Bool) : Bool :=
  s.settles c p || !((s.channel c).probe == some sig) || mustPrime

/-- A grant of a channel to a pair carried out for a holder (R24, R33): it settles, or primes, or waits COASTING for its
first period start (log 4). -/
def State.carryGrant (s : State) (c : Chan) (p : Pair) (h : Holder) (sig : Signature) (mustPrime : Bool) : State :=
  if s.settles c p then
    (s.openElsewhere c p).setChannel c { state := .settling, point := some p, probe := none, holder := some h }
  else if s.primes c p sig mustPrime then
    s.setChannel c { state := .priming, point := some p, probe := some sig, holder := some h }
  else s.setChannel c { s.channel c with holder := some h }

/-- The length of a slice in periods, before the cap: `max(1, floor((F - s - q) / P))`, in microseconds (R67). -/
def sliceLength (interval : Nat) (settle prime : Bool) (period : Nat) : Nat :=
  max 1 ((((interval * 1000 : Nat) : Int) - (if settle then 50000 else 0) - (if prime then (period : Int) else 0))
    / (period : Int)).toNat

/-- The lowest-numbered free channel whose point to the pair is enabled (R63, R64). -/
def State.lowestFree (s : State) (p : Pair) : Option Chan :=
  allChannels.find? (fun c => (s.channel c).isFree && s.pointEnabled c p)

/-- Is a pair barred: does a held channel hold its point closed (R62)? -/
def State.barred (s : State) (p : Pair) : Bool :=
  allChannels.any (fun c => (s.channel c).isHeld && (s.channel c).point == some p)

/-- The channel whose point to the pair is closed, if one is (R24). -/
def State.channelOn (s : State) (p : Pair) : Option Chan := allChannels.find? (fun c => (s.channel c).point == some p)

/-- A holder's use of a channel is over: the holder is absent and the channel COASTING with its probe running on (R34). -/
def State.coast (s : State) (c : Chan) : State :=
  s.setChannel c { s.channel c with state := .coasting, holder := none }

/-- A COASTING channel without a holder stops its probe and becomes PARKED (R34). -/
def State.parkIfCoasting (s : State) (c : Chan) : State :=
  if (s.channel c).state = .coasting ∧ (s.channel c).holder = none then
    s.setChannel c { s.channel c with state := .parked, probe := none }
  else s

end Sys2Proof.Machine
end

