-- ==== Sys2Proof/Machine/Chains.lean ====
section
/-! DEFINITION. Slots and chains of the Campaign Engine (R75, R85, R91, R92), the stage-one checks (R81), and the one place
where an order ends (R153). -/

namespace Sys2Proof.Machine

/-! ## Slots -/

/-- A slot becomes FREE: every field takes its FREE value and its report origin is withdrawn (R75). -/
def State.freeUp (s : State) (n : Slot) : State := (s.setCampaign n {}).withdrawOrigin (.campaign n)

/-- A slot leaves its chain and becomes FREE, its extent released and its slice ended (R45, R46, R85). -/
def State.dropSlot (s : State) (n : Slot) : State := (s.releaseExtent n).freeUp n

/-- Every slot of a list leaves its chain and becomes FREE (R85). -/
def State.dropSlots (s : State) (l : List Slot) : State := l.foldl State.dropSlot s

/-- The accumulations of the pair's chain top are zeroed, if it has a chain (R92). -/
def State.zeroChainTop (s : State) (p : Pair) : State :=
  match s.chainTop p with
  | none => s
  | some n => s.zeroCampaign n

/-! ## The end of an order (R153) -/

/-- A record enters a DONE state: its reason is written, the entry's order mark cleared, the amplifier record's condition
written and the order's report origin queued (R153). -/
def State.endOrder (s : State) (n : OrderNo) (o : Order) (state : OrderState) (reason : Option Reason) (c : Condition) : State :=
  let s := s.setOrder n (some { o with state := state, reason := reason })
  let s := s.setOrderMark o.entry false
  (s.setCondition o.entry o.pair c).queueOrigin (.order n)

/-- The order whose confirm stands in a slot: the record in CONFIRMING that reserved it (R150). -/
def State.confirmOrder (s : State) (n : Slot) : Option (OrderNo × Order) :=
  allOrders.findSome? (fun k =>
    match s.order k with
    | some o => if o.state = .confirming ∧ o.reserved = n then some (k, o) else none
    | none => none)

/-- A confirm that failed before its verdict: its slot becomes FREE and its order ends DONE_UNRESOLVED with the reason, the
record UNRESOLVED (R151). -/
def State.failConfirm (s : State) (n : Slot) (reason : Reason) : State :=
  let found := s.confirmOrder n
  let s := s.freeUp n
  match found with
  | none => s
  | some (k, o) => s.endOrder k o .doneUnresolved (some reason) .unresolved

/-! ## Chain failure (R91) -/

/-- A root that left a failed chain, treated by its origin (R91). Its walk is over, so its cursor is absent (log 16); what it had
counted, applied and listed stays in its record (DEDUCED, log 37). -/
def State.failRoot (s : State) (n : Slot) (reason : Reason) : State :=
  let c := s.campaign n
  match c.origin with
  | .demand | .child =>
    (s.setCampaign n { c with state := .failed, failure := some reason, cursor := none }).queueOrigin (.campaign n)
  | .periodic =>
    (s.setCampaign n { c with state := .idlePeriodic, failure := some reason, cursor := none }).queueOrigin (.campaign n)
  | .order => s.failConfirm n reason

/-- A chain failure: every campaign above the root becomes FREE, extents are released, the pair has no chain, and the root is
treated by its origin (R91). -/
def State.failChain (s : State) (p : Pair) (reason : Reason) : State :=
  match s.chain p with
  | [] => s
  | root :: above => (((s.dropSlots above).releaseExtent root).setChain p []).failRoot root reason

/-! ## Element lists and stage-one checks -/

/-- The elements of a run of path elements whose first stands at position `k`, with their lags (R41, R84). -/
def elementsFrom (chip : Code) : Nat → List PathElement → List Element
  | _, [] => []
  | k, e :: rest => { entry := e.entry, lag := nominalLag e.delay chip, position := k } :: elementsFrom chip (k + 1) rest

/-- The element list of the positions `first .. last` of an effective path (R84). -/
def elementList (path : List PathElement) (chip : Code) (first last : Nat) : List Element :=
  elementsFrom chip first ((path.drop (first - 1)).take (last + 1 - first))

/-- ALIAS: every lag plus 2 is at or below L - 1 (R81, check 3). -/
def lagsFit (sequence : Code) (els : List Element) : Bool :=
  els.all (fun e => decide (e.lag + 2 ≤ sequenceLength sequence - 1))

/-- RESOLUTION: the lags of each two consecutive elements differ by 3 or more (R81, check 4). -/
def lagsApart : List Element → Bool
  | e :: f :: rest => (decide (e.lag + 3 ≤ f.lag) || decide (f.lag + 3 ≤ e.lag)) && lagsApart (f :: rest)
  | _ => true

/-- The stage-one checks, in order: the element list of the campaign, or the reason of the first check that fails (R81). -/
def State.stageOne (s : State) (c : Campaign) : Except Reason (List Element) :=
  let els := elementList (s.effectivePath c.pair) c.requested.chip c.first c.last
  if s.path c.pair = [] then .error .noPath
  else if (s.effectivePath c.pair).length < c.last then .error .range
  else if !lagsFit c.requested.sequence els then .error .lagAlias
  else if !lagsApart els then .error .resolution
  else if !allChannels.any (fun k => s.pointEnabled k c.pair) then .error .noRoute
  else if c.kind = some .locate ∧ els.all (fun e => (s.appliedBaseline e.entry c.pair).isNone) then .error .noBaseline
  else .ok els

end Sys2Proof.Machine
end

