-- ==== Sys2Proof/Machine/Locator.lean ====
section
/-! DEFINITION. The Fault Locator and the measurement end: classification (R103 to R110), verdict summary (R111, R112), merges
(R113 to R116), the suspect walk (R118 to R123), child creation and return (R86, R89), finishing (R90), the confirm's verdict
(R152) and the measurement end as one event (R88). -/

namespace Sys2Proof.Machine

/-! ## Classification -/

/-- What classification reads of an element: whether it has an echo, its D, and whether its record is LOOP_MUTED (R103). -/
structure Observed where
  echo : Bool
  deviation : Option Int
  muted : Bool
  deriving DecidableEq, Repr

/-- The D of a classifiable element: it has a D and its record is not LOOP_MUTED (R104). -/
def Observed.classifiable (o : Observed) : Option Int := if o.muted then none else o.deviation

/-- The elements of a list whose records are not LOOP_MUTED (R106). -/
def unmuted (l : List Observed) : List Observed := l.filter (fun o => !o.muted)

/-- The D of the nearest classifiable element of a list, its first one (R104). -/
def nextDeviation (l : List Observed) : Option Int := l.findSome? Observed.classifiable

/-- Tests 6 to 11 for a classifiable element with its D, D_prev, drift reference S and D_next, if Next exists (R108 to
R110). -/
def judge (tStep tDrift : Nat) (d previous reference : Int) (next : Option Int) : ElementClass :=
  let dD := d - previous
  let returns := match next with | some n => decide (2 * (n - previous).natAbs < tStep) | none => false
  let persists := match next with | some n => decide (2 * (n - d).natAbs < tStep) | none => false
  if tStep ≤ dD.natAbs ∧ returns = true then .spike
  else if dD ≤ -(tStep : Int) then if persists then .step else .ambiguous
  else if (tStep : Int) ≤ dD then if persists then .rise else .ambiguous
  else if tStep ≤ 2 * dD.natAbs then .ambiguous
  else if tDrift ≤ (d - reference).natAbs then .drift
  else .normal

/-- The class of an element from D_prev and S as far as they exist before it, and the elements after it (R106 to R110). -/
def classOf (tStep tDrift : Nat) (previous reference : Option Int) (o : Observed) (later : List Observed) : ElementClass :=
  if o.muted then .muted
  else if !o.echo then if (unmuted later).any Observed.echo then .lost else .noEcho
  else if !(unmuted later).isEmpty && !(unmuted later).any Observed.echo then .breakAfter
  else
    match o.deviation with
    | none => .noBaseline
    | some d =>
      match previous with
      | none => if tDrift ≤ d.natAbs then .drift else .normal
      | some p => judge tStep tDrift d p (reference.getD d) (nextDeviation later)

/-- The drift reference after an element: its D if it is classed STEP or RISE, else the reference before it, else the D of the
first classifiable element (R105). -/
def nextReference (reference : Option Int) (o : Observed) (cls : ElementClass) : Option Int :=
  match o.classifiable with
  | none => reference
  | some d => if cls = .step ∨ cls = .rise then some d else some (reference.getD d)

/-- The classes of a list in list order (R103). `previous` and `reference` are D_prev and S: 0 at the start of a range that
begins at 1, absent at the start of any other (R104, R105). -/
def classify (tStep tDrift : Nat) : Option Int → Option Int → List Observed → List ElementClass
  | _, _, [] => []
  | previous, reference, o :: later =>
    let cls := classOf tStep tDrift previous reference o later
    cls :: classify tStep tDrift (o.classifiable <|> previous) (nextReference reference o cls) later

/-! ## Verdict summary -/

/-- The final verdict of an element: its refined class if it has one, and its class otherwise (R111). -/
def ResultElement.final (r : ResultElement) : Option ElementClass := r.refined <|> r.verdict

/-- Does the element have an echo (R103)? -/
def ResultElement.hasEcho (r : ResultElement) : Bool := !(r.echo == -12000)

/-- Is some final verdict of the list the given class? -/
def seen (l : List ResultElement) (c : ElementClass) : Bool := l.any (fun r => r.final == some c)

/-- The verdict summary: the first value whose condition holds (R111). -/
def summarize (l : List ResultElement) : Summary :=
  if !l.any ResultElement.hasEcho then .lineDark
  else if seen l .breakAfter then .breakSeen
  else if seen l .step then .stepSeen
  else if seen l .spike || seen l .lost then .loopFaultSeen
  else if seen l .ambiguous || seen l .inconclusive || seen l .aborted
      || l.any (fun r => r.refined == some .noEcho || r.refined == some .noBaseline) then .undecided
  else if seen l .drift then .driftSeen
  else .clear

/-! ## Merges -/

/-- The survey merge (R114). -/
def surveyMerge (c : Condition) (cls : ElementClass) : Condition :=
  match c with
  | .unmeasured | .normal | .drifting | .inconclusive | .suspect | .isolated =>
    match cls with
    | .step | .breakAfter | .spike | .lost | .ambiguous => .suspect
    | .drift => .drifting
    | .normal | .rise => .normal
    | .noEcho | .noBaseline | .muted | .inconclusive | .aborted => c
  | .located | .loopFault | .isolating | .unresolved => c

/-- The target merge (R115), with the refined classes of R116. -/
def targetMerge (c : Condition) (cls : ElementClass) : Condition :=
  match c with
  | .suspect | .inconclusive =>
    match cls with
    | .step | .breakAfter => .located
    | .spike | .lost => .loopFault
    | .normal | .rise => .normal
    | .drift => .drifting
    | .noEcho | .noBaseline | .inconclusive => .inconclusive
    | .ambiguous | .muted | .aborted => c
  | .unmeasured | .normal | .drifting | .located | .loopFault | .isolating | .isolated | .unresolved => c

/-- A class applied to a record's condition by the target merge (R115, R116). -/
def State.applyTarget (s : State) (i : Index) (p : Pair) (cls : ElementClass) : State :=
  s.setCondition i p (targetMerge (s.record i p).condition cls)

/-- A class applied to a record's condition by the survey merge (R114). -/
def State.applySurvey (s : State) (i : Index) (p : Pair) (cls : ElementClass) : State :=
  s.setCondition i p (surveyMerge (s.record i p).condition cls)

/-- The position of a child's target: its parent's suspect cursor (R123). -/
def State.targetOf (s : State) (c : Campaign) : Option Nat :=
  match c.parent with
  | none => none
  | some parent => (s.campaign parent).cursor

/-- The merge a classified element makes, by its campaign's kind and place (R113). -/
def State.mergeElement (s : State) (c : Campaign) (target : Option Nat) (r : ResultElement) : State :=
  match r.verdict, c.kind, c.origin with
  | some cls, some .survey, _ => s.applySurvey r.entry c.pair cls
  | some cls, some .locate, .child => if target = some r.position then s.applyTarget r.entry c.pair cls else s
  | some cls, some .locate, _ => (s.applySurvey r.entry c.pair cls).applyTarget r.entry c.pair cls
  | _, _, _ => s

/-! ## The measurement end's own writes (R88) -/

/-- The last-measurement fields of an element's record (R88, step 2). -/
def State.recordMeasurement (s : State) (p : Pair) (r : ResultElement) : State :=
  s.setRecord r.entry p { s.record r.entry p with
    amplitude := r.amplitude, echo := r.echo, gain := r.gain, deviation := r.deviation, offset := r.offset,
    frame := some s.fga.frame }

/-- What classification reads of a result element (R103). -/
def State.observe (s : State) (p : Pair) (r : ResultElement) : Observed :=
  { echo := r.hasEcho, deviation := r.deviation, muted := (s.record r.entry p).isolation == .loopMuted }

/-- The class is written as the last class of the element's record (R103). -/
def State.recordClass (s : State) (p : Pair) (r : ResultElement) : State :=
  s.setRecord r.entry p { s.record r.entry p with lastClass := r.verdict }

/-- Result elements with their classes filled in. -/
def withClasses : List ResultElement → List ElementClass → List ResultElement
  | r :: rs, c :: cs => { r with verdict := some c } :: withClasses rs cs
  | rs, _ => rs

/-- Does the range of a results list begin at 1 (R103)? -/
def beginsAtOne (l : List ResultElement) : Bool :=
  match l with
  | r :: _ => r.position == 1
  | [] => false

/-- The classified results list of a campaign (R103). -/
def State.classified (s : State) (c : Campaign) : List ResultElement :=
  let base : Option Int := if beginsAtOne c.results then some 0 else none
  withClasses c.results (classify s.flo.tStep s.flo.tDrift base base (c.results.map (s.observe c.pair)))

/-- Classification, merges and verdict summary (R88, step 3; R103, R111 to R113). -/
def State.classifyCampaign (s : State) (n : Slot) : State :=
  let c := s.campaign n
  let results := s.classified c
  let target := s.targetOf c
  let s := s.setCampaign n { c with results := results, summary := some (summarize results) }
  let s := results.foldl (fun s r => s.recordClass c.pair r) s
  let s := results.foldl (fun s r => s.mergeElement c target r) s
  if summarize results = .lineDark then s.markLineDark c.pair else s

/-! ## The suspect walk -/

/-- The suspect classes (R110, R118). -/
def ElementClass.suspect : ElementClass → Bool
  | .lost | .breakAfter | .spike | .step | .ambiguous => true
  | .muted | .noEcho | .noBaseline | .drift | .normal | .rise | .inconclusive | .aborted => false

/-- Does the campaign walk the element (R118)? -/
def walks (c : Campaign) (target : Option Nat) (r : ResultElement) : Bool :=
  match r.verdict, c.kind with
  | some cls, some .survey => c.autoLocate && cls.suspect
  | some cls, some .locate =>
    cls == .ambiguous && (match c.origin with | .child => target == some r.position | _ => true)
  | _, _ => false

/-- The positions still to walk: those of walkable elements beyond the cursor, in list order (R119). -/
def State.toWalk (s : State) (n : Slot) : List Nat :=
  let c := s.campaign n
  (c.results.filter (fun r => walks c (s.targetOf c) r
    && (match c.cursor with | none => true | some k => decide (k < r.position)))).map ResultElement.position

/-- The result element of a campaign at a path position. -/
def Campaign.resultAt (c : Campaign) (k : Nat) : Option ResultElement := c.results.find? (fun r => r.position == k)

/-- A refined class written into the element at a position, applied to its record (R116), the summary rewritten (R111). -/
def State.writeRefined (s : State) (n : Slot) (k : Nat) (cls : ElementClass) (depth : Option Nat) (reason : Option Reason) :
    State :=
  let c := s.campaign n
  let results := c.results.map (fun r =>
    if r.position = k then { r with refined := some cls, refiningDepth := depth, reason := reason } else r)
  let s := s.setCampaign n { c with results := results, summary := some (summarize results) }
  match c.resultAt k with
  | none => s
  | some r => s.applyTarget r.entry c.pair cls

/-- The range of a child for the walked element at position `p` of a path of length `len` (R120). -/
def childRange (cls : Option ElementClass) (p len : Nat) : Nat × Nat :=
  if cls = some .breakAfter then (p, min len (p + 1)) else (max 1 (p - 1), min len (p + 1))

/-- The exponent of a child: the parent's plus 3 for a SURVEY parent, plus 2 for a LOCATE one (R121). -/
def childExponent (c : Campaign) : Nat := if c.kind = some .survey then c.exponent + 3 else c.exponent + 2

/-- The record of a child (R86, step 3). -/
def childOf (parent : Campaign) (parentSlot : Slot) (range : Nat × Nat) (els : List Element) : Campaign :=
  { state := .awaitingRoom, kind := some .locate, origin := .child, requester := parent.requester,
    requesterLevel := parent.requesterLevel, pair := parent.pair, first := range.1, last := range.2,
    exponent := childExponent parent, requested := parent.requested, depth := parent.depth + 1, parent := some parentSlot,
    elements := els }

/-- An extent asked for a child in AWAITING_ROOM: found, it is ACTIVE/MEASURING (R86, step 5; R87). -/
def State.seekRoom (s : State) (n : Slot) : State :=
  match s.allocate n (5 * (s.campaign n).elements.length) with
  | none => s
  | some s => s.setCampaign n { s.campaign n with state := .measuring }

/-- A child asked for at a position of the chain top, or the limit that stops it (R86, R122). -/
def State.makeChild (s : State) (n : Slot) (k : Nat) : Except Reason State :=
  let c := s.campaign n
  let path := s.effectivePath c.pair
  let range := childRange ((c.resultAt k).bind ResultElement.verdict) k path.length
  let els := elementList path c.requested.chip range.1 range.2
  if 8 < c.depth + 1 then .error .depth
  else if 15 < childExponent c then .error .exponent
  else
    match s.freeSlot with
    | none => .error .noSlot
    | some child =>
      if !lagsFit c.requested.sequence els then .error .lagAlias
      else if !lagsApart els then .error .resolution
      else
        let s := s.setCampaign child (childOf c n range els)
        let s := s.setCampaign n { s.campaign n with state := .nested }
        let s := s.setChain c.pair (s.chain c.pair ++ [child])
        .ok (s.seekRoom child)

/-- Walk steps over the positions left: until a child is made (`true`), or until the walk is done and the cursor absent
(`false`) (R119). -/
def State.walkFrom (n : Slot) : List Nat → State → State × Bool
  | [], s => (s.setCampaign n { s.campaign n with cursor := none }, false)
  | k :: rest, s =>
    let s := s.setCampaign n { s.campaign n with cursor := some k }
    match s.makeChild n k with
    | .ok s => (s, true)
    | .error reason => State.walkFrom n rest (s.writeRefined n k .inconclusive none (some reason))

/-- A chain top begins or continues its walk (R119). -/
def State.walk (s : State) (n : Slot) : State × Bool := State.walkFrom n (s.toWalk n) s

/-- The verdict of a finished child on its target: class, refining depth and reason (R123). -/
def State.targetVerdict (s : State) (n : Slot) : Option (ElementClass × Nat × Option Reason) :=
  let c := s.campaign n
  match (s.targetOf c).bind c.resultAt with
  | none => none
  | some r => r.final.map (fun cls => (cls, r.refiningDepth.getD c.depth, if r.refined.isSome then r.reason else none))

/-- A chain's top leaves it and becomes FREE; the campaign below it becomes ACTIVE (R89, R96). -/
def State.resumeParent (s : State) (p : Pair) (child parent : Slot) : State :=
  let s := (s.dropSlot child).setChain p ((s.chain p).dropLast)
  s.setCampaign parent { s.campaign parent with state := .measuring }

/-- A finished child returns to its parent: the target verdict is written at the parent's cursor (R89, R123). -/
def State.returnChild (s : State) (p : Pair) (child parent : Slot) : State :=
  let verdict := s.targetVerdict child
  let s := s.resumeParent p child parent
  match verdict, (s.campaign parent).cursor with
  | some (cls, depth, reason), some k => s.writeRefined parent k cls (some depth) reason
  | _, _ => s

/-! ## Finishing a root (R90) and the confirm's verdict (R152) -/

/-- Does a confirm pass, by the order's action, the target and the list (R152)? -/
def confirmPasses (action : Action) (floor : Nat) (target : ResultElement) (l : List ResultElement) : Bool :=
  match action with
  | .pumpToSpare | .gainHold =>
    target.verdict == some .normal || target.verdict == some .rise || target.verdict == some .drift
  | .pumpRestore | .gainRelease => target.verdict == some .normal || target.verdict == some .rise
  | .loopMute => decide (target.amplitude < floor)
  | .routeA | .routeB =>
    !l.any (fun r => r.verdict == some .noEcho || r.verdict == some .lost || r.verdict == some .breakAfter)

/-- The condition of the ordered record when its confirm passes (R152). -/
def passedCondition : Action → Condition
  | .pumpRestore | .gainRelease => .normal
  | .pumpToSpare | .gainHold | .loopMute | .routeA | .routeB => .isolated

/-- An order settled by its confirm's results list and summary (R152). -/
def State.settleOrder (s : State) (k : OrderNo) (o : Order) (c : Campaign) : State :=
  match c.results.find? (fun r => r.entry == o.entry) with
  | none =>
    s.endOrder k { o with confirm := some { summary := c.summary, verdict := none, amplitude := none } } .doneUnresolved
      (some .notOnPath) .unresolved
  | some target =>
    let result : ConfirmResult :=
      { summary := c.summary, verdict := target.verdict, amplitude := some target.amplitude }
    let o := { o with confirm := some result }
    if confirmPasses o.action s.ecr.floor target c.results then s.endOrder k o .doneAccepted none (passedCondition o.action)
    else s.endOrder k o .doneUnresolved (some .confirmFailed) .unresolved

/-- A confirm's verdict: its results settle its order and its slot becomes FREE (R90, R152). -/
def State.confirmVerdict (s : State) (n : Slot) : State :=
  let c := s.campaign n
  let found := s.confirmOrder n
  let s := s.freeUp n
  match found with
  | none => s
  | some (k, o) => s.settleOrder k o c

/-- A root whose walk is done finishes: its chain ends and it is treated by its origin (R90). -/
def State.finishRoot (s : State) (p : Pair) (n : Slot) : State :=
  let s := (s.releaseExtent n).setChain p []
  let c := s.campaign n
  match c.origin with
  | .demand | .child => (s.setCampaign n { c with state := .done }).queueOrigin (.campaign n)
  | .periodic => (s.setCampaign n { c with state := .idlePeriodic, failure := none }).queueOrigin (.campaign n)
  | .order => s.confirmVerdict n

/-- The chain, top first, walks on and unwinds: until a child is made, or through the root's finish (R88, R89, R90, R119). -/
def State.unwind (p : Pair) : List Slot → State → State
  | [], s => s
  | [root], s =>
    match s.walk root with
    | (s, true) => s
    | (s, false) => s.finishRoot p root
  | top :: parent :: below, s =>
    match s.walk top with
    | (s, true) => s
    | (s, false) => State.unwind p (parent :: below) (s.returnChild p top parent)

/-- The measurement end of a pair's chain top, one event (R88). -/
def State.measurementEnd (s : State) (n : Slot) : State :=
  let p := (s.campaign n).pair
  let s := s.reduceCampaign n
  let s := (s.campaign n).results.foldl (fun s r => s.recordMeasurement p r) s
  let s := s.classifyCampaign n
  State.unwind p (s.chain p).reverse s

end Sys2Proof.Machine
end

