-- ==== Sys2Proof/Machine/Orders.lean ====
section
/-! DEFINITION. The order burst and its outcomes: actions (R128), the word (R139, R140), reference and listening (R137, R138,
R142), attempts (R143, R144), burst end (R145), refusal, failure and acceptance (R146 to R150). -/

namespace Sys2Proof.Machine

/-! ## Actions (R128) -/

/-- Does the action allow the entry kind (R128)? -/
def actionAllows (action : Action) (kind : EntryKind) : Bool :=
  match action, kind with
  | .pumpToSpare, .line _ | .pumpRestore, .line _ | .gainHold, .line _ | .gainRelease, .line _ => true
  | .loopMute, _ => true
  | .routeA, .branching _ | .routeB, .branching _ => true
  | _, _ => false

/-- The route a ROUTE action sets (R128). -/
def actionRoute : Action → Option Leg
  | .routeA => some .a
  | .routeB => some .b
  | .pumpToSpare | .pumpRestore | .gainHold | .gainRelease | .loopMute => none

/-- Does the record's condition fit the action (R128)? -/
def actionFits (action : Action) (c : Condition) : Bool :=
  match action with
  | .pumpToSpare | .gainHold => c == .located || c == .unresolved
  | .pumpRestore | .gainRelease => c == .isolated || c == .unresolved
  | .loopMute => c == .loopFault
  | .routeA | .routeB => true

/-! ## The order word (R139) -/

/-- The four bytes of the order word: address, action and pair, argument, check (R139). -/
def orderWord (o : Order) : List Byte :=
  let b1 : Byte := BitVec.ofNat 8 (actionCode o.action * 16 + o.pair.val)
  [o.address, b1, o.argument, 255 - (o.address + b1 + o.argument)]

/-- The bits of a byte, most significant first. -/
def byteBits (b : Byte) : List Bool :=
  [b.getMsbD 0, b.getMsbD 1, b.getMsbD 2, b.getMsbD 3, b.getMsbD 4, b.getMsbD 5, b.getMsbD 6, b.getMsbD 7]

/-- The 32 bits of the order word in the order they are sent (R140). -/
def wordBits (o : Order) : List Bool := (orderWord o).flatMap byteBits

/-! ## Decoding a window (R142) -/

/-- The eight answer bits from the window's first 0 on. -/
def answerBits (window : List Bool) : List Bool := (window.dropWhile id).take 8

/-- The answer of a window of 12 bits (R142). -/
def decodeWindow (window : List Bool) : AttemptOutcome :=
  if 5 ≤ (window.takeWhile id).length then .noAnswer
  else if answerBits window = [false, true, false, false, true, true, false, true] then .accept
  else if answerBits window = [false, true, true, false, false, true, true, false] then .refuse
  else .garbled

/-! ## Phases -/

/-- A record that begins REFERENCING on a channel: no period taken (R136, R137). -/
def Order.referencing (o : Order) (level : Nat × Code) : Order :=
  { o with state := .referencing, applied := level, phase := 0, window := [] }

/-- A record that begins SENDING its word: word sent becomes yes (R140). -/
def Order.sending (o : Order) : Order := { o with state := .sending, wordSent := true, phase := 0, window := [] }

/-- A record that begins LISTENING (R140). -/
def Order.listening (o : Order) : Order := { o with state := .listening, phase := 0, window := [] }

/-- The working cells of a channel set to 0 (R137). -/
def State.clearWorking (s : State) (c : Chan) : State := s.setWorking c (Vector.replicate 5 0)

/-- The channel is given back: the record names none, the channel coasts, and the pair's chain top is zeroed (R92, R145). The
order itself is written by what follows in the same event. -/
def State.endBurst (s : State) (c : Chan) (p : Pair) : State := (s.coast c).zeroChainTop p

/-! ## Outcomes -/

/-- The order ends DONE_FAILED: the reserved slot becomes FREE and the record takes the condition (R147). -/
def State.failOrder (s : State) (n : OrderNo) (o : Order) (reason : Reason) (c : Condition) : State :=
  (s.freeUp o.reserved).endOrder n { o with channel := none } .doneFailed (some reason) c

/-- The condition after NO_REFERENCE or WITHDRAWN: the prior one, or UNRESOLVED once a word was sent (R147). -/
def Order.conditionIfUnheard (o : Order) : Condition := if o.wordSent then .unresolved else o.prior

/-- A REFUSE: DONE_REFUSED with the prior condition, the reserved slot FREE (R146). -/
def State.refuseOrder (s : State) (n : OrderNo) (o : Order) : State :=
  (s.freeUp o.reserved).endOrder n { o with channel := none } .doneRefused (some .refused) o.prior

/-- Isolation in effect of the record (entry, pair) written (R148). -/
def State.setIsolation (s : State) (i : Index) (p : Pair) (x : Isolation) : State :=
  s.setRecord i p { s.record i p with isolation := x }

/-- The entry's spare pump count changed, if it is a LINE entry (R148). -/
def State.changeSpare (s : State) (i : Index) (f : Fin 3 → Fin 3) : State :=
  match s.entry i with
  | some { kind := .line n, address := a, mark := m } => s.setEntry i (some { kind := .line (f n), address := a, mark := m })
  | _ => s

/-- One spare pump fewer. -/
def spareDown (n : Fin 3) : Fin 3 := ⟨n.val - 1, by omega⟩

/-- One spare pump more, at most 2 (R128). -/
def spareUp (n : Fin 3) : Fin 3 := ⟨min 2 (n.val + 1), by omega⟩

/-- The unit's route set, if it is a BRANCHING entry (R149). -/
def State.setRoute (s : State) (i : Index) (leg : Leg) : State :=
  match s.entry i with
  | some { kind := .branching _, address := a, mark := m } => s.setEntry i (some { kind := .branching leg, address := a, mark := m })
  | _ => s

/-- The chain of every pair whose path list holds the unit fails with PATH_CHANGED (R149), in ascending pair order (DESIGN CHOICE,
log 36). -/
def State.failRoutedChains (s : State) (i : Index) : State :=
  allPairs.foldl (fun s p => if s.pathHolds p i then s.failChain p .pathChanged else s) s

/-- The effect of an accepted order on the plant table (R128, R148, R149). -/
def State.applyEffect (s : State) (o : Order) : State :=
  match o.action with
  | .pumpToSpare => (s.changeSpare o.entry spareDown).setIsolation o.entry o.pair .spare
  | .pumpRestore => (s.changeSpare o.entry spareUp).setIsolation o.entry o.pair .nothing
  | .gainHold => s.setIsolation o.entry o.pair .gainHold
  | .gainRelease => s.setIsolation o.entry o.pair .nothing
  | .loopMute => s.setIsolation o.entry o.pair .loopMuted
  | .routeA => (s.setRoute o.entry .a).failRoutedChains o.entry
  | .routeB => (s.setRoute o.entry .b).failRoutedChains o.entry

/-- The range of a confirm for an entry at position `p` of a path of length `len` (R150). -/
def confirmRange (action : Action) (p len : Nat) : Nat × Nat :=
  match actionRoute action with
  | some _ => (p, min len (p + 2))
  | none => (max 1 (p - 2), min len (p + 2))

/-- The record of a confirm, still RESERVED (R150). -/
def confirmOf (o : Order) (range : Nat × Nat) : Campaign :=
  { state := .reserved, kind := some .confirm, origin := .order, requester := o.requester,
    requesterLevel := o.requesterLevel, pair := o.pair, first := range.1, last := range.2, exponent := o.exponent,
    requested := { chip := o.chip, sequence := o.sequence, level := 4095, reference := 3 }, depth := 1 }

/-- After the effect, the reserved slot becomes a confirm and the record CONFIRMING; without a position for the entry the order
ends DONE_UNRESOLVED, NOT_ON_PATH (R150). -/
def State.makeConfirm (s : State) (n : OrderNo) (o : Order) : State :=
  match s.positionOf o.pair o.entry with
  | none => (s.freeUp o.reserved).endOrder n { o with channel := none } .doneUnresolved (some .notOnPath) .unresolved
  | some k =>
    let s := s.setOrder n (some { o with state := .confirming, channel := none })
    s.setCampaign o.reserved (confirmOf o (confirmRange o.action k (s.effectivePath o.pair).length))

/-- The 12th listening period has ended: the answer counts as an attempt and settles what follows (R142, R143, R145, R146,
R148). -/
def State.concludeAttempt (s : State) (n : OrderNo) (o : Order) (c : Chan) (outcome : AttemptOutcome) : State :=
  let o := { o with attempts := o.attempts + 1, lastOutcome := some outcome }
  match outcome with
  | .accept =>
    let s := (s.setOrder n (some { o with channel := none })).endBurst c o.pair
    (s.applyEffect o).makeConfirm n o
  | .refuse => ((s.setOrder n (some { o with channel := none })).endBurst c o.pair).refuseOrder n o
  | .garbled | .noAnswer | .channelLost =>
    if o.attempts < o.limit then s.setOrder n (some o.sending)
    else
      ((s.setOrder n (some { o with channel := none })).endBurst c o.pair).failOrder n o
        (if outcome = .garbled then .garbled else .noAnswer) .unresolved

/-- A crosspoint disable reaches a burst: the attempt counts as CHANNEL_LOST; the record waits again, or ends when no attempt
remains; the pair's chain top is zeroed (R27, R144, R145). -/
def State.loseChannel (s : State) (n : OrderNo) (o : Order) : State :=
  let s := s.zeroChainTop o.pair
  let o := { o with attempts := o.attempts + 1, lastOutcome := some .channelLost, channel := none }
  if o.attempts < o.limit then
    s.setOrder n (some { o with state := .waitingChannel, reference := none, offset := none, phase := 0, window := [] })
  else s.failOrder n o .channelLost .unresolved

/-- Is an order on the pair in one of the states (R15, R83)? -/
def State.anyOrder (s : State) (p : Pair) (states : List OrderState) : Bool :=
  allOrders.any (fun n =>
    match s.order n with
    | some o => o.pair == p && states.contains o.state
    | none => false)

/-- The states of an order that holds or waits for a channel (R83). -/
def burstStates : List OrderState := [.waitingChannel, .referencing, .sending, .listening]

/-- The states of an order in flight (R15, R83). -/
def flightStates : List OrderState := [.waitingChannel, .referencing, .sending, .listening, .confirming]

/-- The five ISU period sums of a period added to the channel's working cells (R137). -/
def State.addReference (s : State) (c : Chan) (o : Order) (samples : List Sample) : State :=
  let sum (k : Int) : Int := s.workingCell c k + isuPeriodSum (probeBits o.sequence) samples o.lag k false (s.lastInverted c)
  s.setWorking c #v[sum (-2), sum (-1), sum 0, sum 1, sum 2]

end Sys2Proof.Machine
end

