-- ==== Sys2Proof/Machine/Transmit.lean ====
section
/-! DEFINITION. The transmitter (R185) and the reports it builds (R183, R184, R195), and the end of every event, at which an
idle transmitter begins what is queued. -/

namespace Sys2Proof.Machine

/-! ## Reports (R184, R195) -/

/-- A report frame: its source field names its destination and its tag is 0 (R184). -/
def reportFrame (destination : Source) (kind : Byte) (body : List Byte) : LinkFrame :=
  { source := destination, tag := 0, kind := kind, body := body }

/-- The body of a campaign report (R195). -/
def campaignReportBody (n : Slot) (c : Campaign) : List Byte :=
  u8 n.val ++ u8 (campaignStateCode c.state) ++ u8 ((c.kind.map campaignKindCode).getD 0) ++ u8 c.pair.val
    ++ u8 ((c.summary.map summaryCode).getD 0) ++ u8 ((c.failure.map reasonCode).getD 0)
    ++ u16 ((c.periodic.map PeriodicPart.overruns).getD 0)

/-- The five confirm bytes of an order report after its present byte (R195). -/
def confirmBytes (r : ConfirmResult) : List Byte :=
  u8 ((r.summary.map summaryCode).getD 0) ++ u8 ((r.verdict.map classCode).getD 0) ++ u24 (r.amplitude.getD 0)

/-- The body of an order report (R195). -/
def orderReportBody (n : OrderNo) (o : Order) : List Byte :=
  u8 n.val ++ u8 (orderStateCode o.state) ++ u8 ((o.reason.map reasonCode).getD 0) ++ u16 o.entry.val ++ u8 o.pair.val
    ++ u8 (actionCode o.action) ++ u8 o.attempts ++ u8 ((o.lastOutcome.map outcomeCode).getD 0)
    ++ optional 5 confirmBytes o.confirm

/-- An entry of a pair report: table index and condition (R195). -/
def pairReportEntry (s : State) (p : Pair) (i : Index) : List Byte := u16 i.val ++ u8 (conditionCode (s.record i p).condition)

/-- The marks byte of a pair report: DARK in bit 0, LINE_DARK in bit 1 (R195). -/
def pairMarksByte (s : State) (p : Pair) : List Byte :=
  u8 ((if s.darkMark p then 1 else 0) + (if s.lineDarkMark p then 2 else 0))

/-- The body of a pair report that carries the given records (R195). -/
def pairReportBody (s : State) (p : Pair) (carried : List Index) : List Byte :=
  u8 p.val ++ pairMarksByte s p ++ counted (pairReportEntry s p) carried

/-- The body of a store report, from the last-operation record (R170, R195). -/
def storeReportBody : Option LastOp → List Byte
  | none => u8 0 ++ u8 0 ++ u16 0 ++ u8 0 ++ u8 0 ++ u8 0
  | some (.erase block) => u8 1 ++ u8 block.val ++ u16 0 ++ u8 0 ++ u8 0 ++ u8 0
  | some (.commit pair first staged programmed stop) =>
    u8 2 ++ u8 pair.val ++ u16 first.val ++ u8 staged ++ u8 programmed ++ u8 (reasonCode stop)

/-- The body of a system report (R195). -/
def systemReportBody (last : ResetKind × ResetCause) : List Byte := u8 (resetKindCode last.1) ++ u8 (resetCauseCode last.2)

/-- The records a pair report carries: up to 128 marked ones, lowest table index first (R11). -/
def State.carriedRecords (s : State) (p : Pair) : List Index := (s.markedRecords p).take 128

/-- The changed marks of the carried records cleared (R11). -/
def State.clearMarks (s : State) (p : Pair) (l : List Index) : State :=
  l.foldl (fun s i => s.setRecord i p { s.record i p with changed := false }) s

/-- The effect of building a pair report: the marks it carries are cleared, and the pair is queued again if records of it are
still marked (R11, R184). -/
def State.pairReported (s : State) (p : Pair) : State :=
  let s := ((s.clearMarks p (s.carriedRecords p)).setDarkMark p false).setLineDarkMark p false
  if s.pairMarked p then s.queueOrigin (.pair p) else s

/-- The effect of building an order report: the record is free and leaves the acceptance list (R153, R184). -/
def State.orderReported (s : State) (n : OrderNo) : State :=
  (s.setOrder n none).setAcceptance (s.isu.acceptance.filter (fun m => !(m == n)))

/-- The report of an origin as the state stands, and the state after its building (R184). -/
def State.buildReport (s : State) : Origin → LinkFrame × State
  | .campaign n => (reportFrame (s.campaign n).requester 0xE0 (campaignReportBody n (s.campaign n)), s)
  | .order n =>
    match s.order n with
    | none => (reportFrame 0 0xE1 (u8 n.val ++ List.replicate 14 0), s)
    | some o => (reportFrame o.requester 0xE1 (orderReportBody n o), s.orderReported n)
  | .pair p => (reportFrame 0 0xE2 (pairReportBody s p (s.carriedRecords p)), s.pairReported p)
  | .store => (reportFrame 0 0xE3 (storeReportBody s.bst.lastOp), s)
  | .system => (reportFrame 0 0xE4 (systemReportBody s.clk.lastReset), s)

/-! ## The transmitter (R185) -/

/-- The transmitter chooses its next frame: the reply at the head, else the report of the origin at the head, which leaves the
queue, else nothing (R185). A reply stays at the head of the queue until its transmission ends (R181). -/
def State.chooseNext (s : State) : State :=
  match s.clk.replies with
  | f :: _ => s.setTransmitter (.reply f)
  | [] =>
    match s.clk.reports with
    | [] => s.setTransmitter .idle
    | o :: rest => ((s.setReports rest).buildReport o).2.setTransmitter (.report ((s.setReports rest).buildReport o).1)

/-- The end of an event: an idle transmitter begins at once with what the event queued (R185; log 18). -/
def State.concludeEvent (s : State) : State :=
  match s.clk.transmitter with
  | .idle => s.chooseNext
  | .reply _ => s
  | .report _ => s

end Sys2Proof.Machine
end

