-- ==== Sys2Proof/Machine/Requests.lean ====
section
/-! DEFINITION. Taking a request (R176, R179, R181, R182): the link's checks, the owning block's answer, the reply. -/

namespace Sys2Proof.Machine

/-- What `exec` answers. -/
abbrev Result := Host.Outcome State Fault Refusal

/-- The reply to an accepted request: its kind, then the reply data (R195). -/
def acceptance (src : Source) (tag kind : Byte) (data : List Byte) : LinkFrame :=
  { source := src, tag := tag, kind := kindAccepted, body := kind :: data }

/-- The reply to a refused request: its kind, then the reason (R195). -/
def refusal (src : Source) (tag kind : Byte) (r : Reason) : LinkFrame :=
  { source := src, tag := tag, kind := kindRefused, body := kind :: u8 (reasonCode r) }

/-- The block's answer becomes the reply: an accepted request leaves the state it made, a refused one no change (R179, R181). -/
def State.answerRequest (s : State) (src : Source) (tag kind : Byte) : Answer → State
  | .ok (s', data) => s'.queueReply (acceptance src tag kind data)
  | .error r => s.queueReply (refusal src tag kind r)

/-- The effective level of a request: the greater of the source's level and the acting level (R176). -/
def State.effectiveLevel (s : State) (src : Source) (acting : Level) : Level := max (s.level src) acting

/-- The kind of STATUS, the one request taken while STARTING (R186). -/
def statusKind : Byte := 0x01

/-- The link's checks 2 to 4, then the owning block (R179). `wellMade` says that the body has the length and makeup of its
layout, `needed` is the required level (R180). -/
def State.judgeRequest (s : State) (src : Source) (h : Header) (kind : Byte) (wellMade : Bool) (needed : Level)
    (act : Asker → State → Answer) : Answer :=
  if s.clk.part = .starting ∧ kind ≠ statusKind then .error .starting
  else
    match inRange 4 h.acting.toNat, wellMade with
    | some acting, true =>
      if needed < s.effectiveLevel src acting then .error .level
      else act { source := src, effective := s.effectiveLevel src acting } s
    | _, _ => .error .malformed

/-- Is a complete frame discarded without a reply: 8 replies queued, or a reset pending (R179, R182)? -/
def State.discards (s : State) : Bool := !readyOf s.clk.replies s.clk.pendingReset

/-- A complete frame of a known kind: discarded if its source field names no source (R176) or the queue is full or a reset
pending (R182); otherwise the request is taken, one event with its reply (R179). -/
def State.takeFrame (s : State) (h : Header) (kind : Byte) (wellMade : Bool) (needed : Level)
    (act : Asker → State → Answer) : State :=
  match inRange 8 h.source.toNat with
  | none => s
  | some src =>
    if s.discards then s
    else (s.answerRequest src h.tag kind (s.judgeRequest src h kind wellMade needed act)).concludeEvent

/-- A complete frame whose kind is no request kind: refused UNKNOWN_KIND by check 1 (R179). -/
def State.takeUnknown (s : State) (h : Header) (kind : Byte) : State :=
  match inRange 8 h.source.toNat with
  | none => s
  | some src => if s.discards then s else (s.answerRequest src h.tag kind (.error .unknownKind)).concludeEvent

/-- A complete frame of a known kind whose body has the wrong length: MALFORMED by check 3 (R179, R194). -/
def State.takeMisshapen (s : State) (h : Header) (kind : Byte) : State :=
  s.takeFrame h kind false 3 (fun _ _ => .error .malformed)

/-- UNKNOWN_KIND_REQUEST: a frame of a kind the part does not know as a request (R179). A kind that is known makes no command
of this row (log 22). -/
def execUnknownKindRequest (h : Header) (kind : Byte) (s : State) : Result :=
  if isRequestKind kind then .refused .kindIsARequest else .next (s.takeUnknown h kind)

/-! ## Field checks of R193 -/

/-- A flag byte is 0 or 1 (R193). -/
def isFlag (b : Byte) : Bool := b == 0 || b == 1

/-- A reference kind byte is 0, 1 or 2 (R194). -/
def wellMadeRef (r : Reference) : Bool := decide (r.kind.toNat ≤ 2)

end Sys2Proof.Machine
end

