-- ==== Sys2Proof/Machine/Grants.lean ====
section
/-! DEFINITION. The grant pass (R62 to R67): candidates, orders first by acceptance, then chain tops by the service list. -/

namespace Sys2Proof.Machine

/-! ## Candidates (R62) -/

/-- The records in WAITING_CHANNEL in the order of their acceptance (R62, R63). -/
def State.waitingOrders (s : State) : List OrderNo :=
  s.isu.acceptance.filter (fun n =>
    match s.order n with
    | some o => o.state == .waitingChannel
    | none => false)

/-- Is a campaign a candidate as chain top: ACTIVE/MEASURING, with an extent, holding no channel (R62)? -/
def State.ready (s : State) (n : Slot) : Bool :=
  (s.campaign n).state == .measuring && (s.campaign n).extent.isSome && (s.sliceChannel n).isNone

/-- The chain top of a pair, if it is a candidate (R62). -/
def State.candidateTop (s : State) (p : Pair) : Option Slot :=
  match s.chainTop p with
  | some n => if s.ready n then some n else none
  | none => none

/-! ## Granting -/

/-- A channel granted to an order record: it enters REFERENCING with its applied level fixed, its working cells at 0, and names
the channel; the pair's previous channel follows (R65, R66, R136, R137). -/
def State.grantOrder (s : State) (n : OrderNo) (o : Order) (c : Chan) : State :=
  let o := { o.referencing (s.orderLevel o) with channel := some c }
  let s := (s.setOrder n (some o)).clearWorking c
  (s.carryGrant c o.pair (.order n) o.signature false).setPrevious o.pair c

/-- One order record examined: not granted if its pair is barred, which a grant earlier in this pass makes it, or if no free
channel has an enabled point (R62, R63). -/
def State.considerOrder (s : State) (n : OrderNo) : State :=
  match s.order n with
  | none => s
  | some o =>
    if s.barred o.pair then s
    else
      match s.lowestFree o.pair with
      | some c => s.grantOrder n o c
      | none => s

/-- The channel of a chain top's grant: the pair's previous one if it is free with its point enabled, else the lowest free
one (R64). -/
def State.chooseChannel (s : State) (p : Pair) : Option Chan :=
  match s.fga.previous[p] with
  | some c => if (s.channel c).isFree && s.pointEnabled c p then some c else s.lowestFree p
  | none => s.lowestFree p

/-- A channel granted to a chain top for a slice: its applied settings fixed (R31, R66), its length capped at the periods it
still needs (R67), last-served frame and previous channel set (R65). -/
def State.grantSlice (s : State) (p : Pair) (n : Slot) (c : Chan) : State :=
  let s := s.fixCampaignLevel n
  let x := s.campaign n
  let k := sliceLength s.fga.interval (s.settles c p) (s.primes c p x.signature x.mustPrime)
    (periodMicros x.requested.chip x.requested.sequence)
  let s := s.carryGrant c p (.slice n (min k (x.periods - x.accepted)) false) x.signature x.mustPrime
  (s.setPrevious p c).setLastServed p

/-- One pair of the service list examined, given the candidate it had before the boundary; the pairs served so far go along
(R64, R65). -/
def considerTop (before : State) (acc : State × List Pair) (p : Pair) : State × List Pair :=
  match before.candidateTop p with
  | none => acc
  | some n =>
    if acc.1.barred p then acc
    else
      match acc.1.chooseChannel p with
      | some c => (acc.1.grantSlice p n c, acc.2 ++ [p])
      | none => acc

/-- The service list after a pass: the pairs served go to its end in ascending order (R65). -/
def serviceAfter (service served : List Pair) : List Pair :=
  service.filter (fun p => !served.contains p) ++ allPairs.filter (fun p => served.contains p)

/-- The state with the service list replaced (R65). -/
def State.setService (s : State) (l : List Pair) : State := { s with fga := { s.fga with service := l } }

/-- A COASTING channel that received no grant at the boundary stops its probe and becomes PARKED (R34). A channel granted for
a period start still to come has a holder (log 4). -/
def State.parkUngranted (s : State) : State := allChannels.foldl State.parkIfCoasting s

/-- The grant pass of a boundary; `before` is the state before the boundary, by which candidates are judged (R62 to R66). -/
def State.grantPass (s before : State) : State :=
  let s := before.waitingOrders.foldl State.considerOrder s
  let out := s.fga.service.foldl (considerTop before) (s, [])
  (out.1.setService (serviceAfter out.1.fga.service out.2)).parkUngranted

end Sys2Proof.Machine
end

