-- ==== Sys2Proof/Machine/Boundary.lean ====
section
/-! DEFINITION. The boundary: the frame clock (R60, R61), the periodic countdowns (R69, R70), the grant pass and the dispatch
pass (R80 to R84, R87). -/

namespace Sys2Proof.Machine

/-! ## The frame clock -/

/-- The frame number after a boundary: it advances by one, 4095 by 0 (R60). -/
def nextFrame (frame : Nat) : Nat := if 4095 ≤ frame then 0 else frame + 1

/-- The frame number advances and a pending interval takes force (R60, R61). -/
def State.advanceClock (s : State) : State :=
  { s with fga := { s.fga with frame := nextFrame s.fga.frame, interval := s.fga.pendingInterval.getD s.fga.interval,
                               pendingInterval := none } }

/-! ## Periodic countdowns -/

/-- The state with a slot's periodic part replaced. -/
def State.setPeriodic (s : State) (n : Slot) (x : PeriodicPart) : State :=
  s.setCampaign n { s.campaign n with periodic := some x }

/-- Does the parity of a frame number match a tag (R69)? -/
def parityMatches (tag : Parity) (frame : Nat) : Bool :=
  match tag with
  | .any => true
  | .even => frame % 2 == 0
  | .odd => frame % 2 == 1

/-- A slot falls due: its countdown is reloaded, and its pending-due mark set; with the mark already set, or on a chain, it
overruns and its report origin is queued (R69, R70). -/
def State.fallDue (s : State) (n : Slot) (x : PeriodicPart) : State :=
  if (s.campaign n).state = .idlePeriodic ∧ x.due = false then s.setPeriodic n { x with countdown := x.period, due := true }
  else
    (s.setPeriodic n { x with countdown := x.period, due := true, overruns := min 65535 (x.overruns + 1) }).queueOrigin
      (.campaign n)

/-- A slot whose countdown is 0 falls due if the parity matches (R69). -/
def State.dueIfZero (s : State) (n : Slot) : State :=
  match (s.campaign n).periodic with
  | none => s
  | some x => if x.countdown = 0 ∧ parityMatches x.parity s.fga.frame = true then s.fallDue n x else s

/-- The countdown of a slot run at a boundary (R69). -/
def State.runCountdown (s : State) (n : Slot) : State :=
  match (s.campaign n).periodic with
  | none => s
  | some x => (s.setPeriodic n { x with countdown := x.countdown - 1 }).dueIfZero n

/-- The countdowns of every slot on the periodic list, in slot order (R69, R79). -/
def State.runCountdowns (s : State) : State := s.cen.periodic.foldl State.runCountdown s

/-- PERIODIC_DUE: the fall-due of one slot on the periodic list whose countdown stands at 0 with a matching parity (R69, R70;
log 11). Otherwise nothing is due (log 1). -/
def execPeriodicDue (slot : Fin 32) (s : State) : Result :=
  if s.clk.part = .ready ∧ slot ∈ s.cen.periodic then .next (s.dueIfZero slot).concludeEvent else .next s

/-! ## Dispatch -/

/-- What a candidate that passed both stages becomes: the root of its pair's chain (R84). -/
def committed (c : Campaign) (els : List Element) : Campaign :=
  { c with
    state := .measuring, elements := els, accepted := 0, darkCount := 0, mustPrime := false, clamped := false,
    applied := none, results := [], summary := none, cursor := none, failure := none, depth := 1, parent := none,
    periodic := c.periodic.map (fun x => { x with countdown := x.period, due := false }) }

/-- Commit of a candidate whose extent has been found (R84). -/
def State.commitRoot (s : State) (n : Slot) (els : List Element) : State :=
  let s := s.setCampaign n (committed (s.campaign n) els)
  (s.setChain (s.campaign n).pair [n]).setDemand (s.cen.demand.filter (fun m => !(m == n)))

/-- Is another order of the pair in the way of a candidate (R83, check 2)? -/
def State.orderInWay (s : State) (c : Campaign) : Bool :=
  if c.kind = some .confirm then s.anyOrder c.pair burstStates else s.anyOrder c.pair flightStates

/-- Stage two, then commit; a candidate that fails a check changes nothing (R83, R84). -/
def State.stageTwo (s : State) (n : Slot) (els : List Element) : State :=
  let c := s.campaign n
  if !(s.chain c.pair).isEmpty || s.orderInWay c then s
  else
    match s.allocate n (5 * els.length) with
    | none => s
    | some t => t.commitRoot n els

/-- A candidate that failed a stage-one check, by where it came from (R82). -/
def State.failDispatch (s : State) (n : Slot) (reason : Reason) : State :=
  let c := s.campaign n
  match c.state with
  | .queued =>
    ((s.setDemand (s.cen.demand.filter (fun m => !(m == n)))).setCampaign n
      { c with state := .failed, failure := some reason }).queueOrigin (.campaign n)
  | .idlePeriodic =>
    (s.setCampaign n { c with failure := some reason, periodic := c.periodic.map (fun x => { x with due := false }) }).queueOrigin
      (.campaign n)
  | .reserved => s.failConfirm n reason
  | .free | .awaitingRoom | .measuring | .nested | .done | .failed | .aborted => s

/-- One candidate of groups 2 to 4 examined (R81 to R84). -/
def State.examine (s : State) (n : Slot) : State :=
  match s.stageOne (s.campaign n) with
  | .error reason => s.failDispatch n reason
  | .ok els => s.stageTwo n els

/-- Group 1: a pair's chain top in AWAITING_ROOM asks again for its extent (R80, R87). -/
def State.retryRoom (s : State) (p : Pair) : State :=
  match s.chainTop p with
  | none => s
  | some n => if (s.campaign n).state = .awaitingRoom then s.seekRoom n else s

/-- Group 2: the RESERVED slots that carry a confirm, in the order of their orders' acceptance (R80). -/
def State.waitingConfirms (s : State) : List Slot :=
  s.isu.acceptance.filterMap (fun k =>
    match s.order k with
    | some o =>
      if o.state = .confirming ∧ (s.campaign o.reserved).state = .reserved ∧ (s.campaign o.reserved).kind = some .confirm then
        some o.reserved
      else none
    | none => none)

/-- Group 3: IDLE_PERIODIC slots with the pending-due mark set, in slot order (R80). -/
def State.dueSlots (s : State) : List Slot :=
  s.cen.periodic.filter (fun n =>
    (s.campaign n).state == .idlePeriodic && ((s.campaign n).periodic.map PeriodicPart.due).getD false)

/-- The dispatch pass: the four groups in order, each candidate examined once (R80). -/
def State.dispatchPass (s : State) : State :=
  let s := allPairs.foldl State.retryRoom s
  let s := s.waitingConfirms.foldl State.examine s
  let s := s.dueSlots.foldl State.examine s
  s.cen.demand.foldl State.examine s

/-! ## BOUNDARY -/

/-- A boundary: the clock, the grant pass judged on the state before it, the countdowns, the dispatch pass (R60 to R70, R80;
log 11). -/
def State.boundary (s : State) : State := ((s.advanceClock.grantPass s).runCountdowns).dispatchPass.concludeEvent

/-- BOUNDARY; while the part is STARTING the clock marks no boundary (R60; log 1). -/
def execBoundary (s : State) : Result :=
  match s.clk.part with
  | .starting => .next s
  | .ready => .next s.boundary

end Sys2Proof.Machine
end

