-- ==== Sys2Proof/Machine/CampaignRequests.lean ====
section
/-! DEFINITION. The requests of the Campaign Engine: START (R76), SCHEDULE (R77), ABORT (R93 to R96) and RELEASE (R97). -/

namespace Sys2Proof.Machine

/-! ## START and SCHEDULE -/

/-- The host's kinds of campaign by their codes (R76, R197). -/
def hostKind : Nat → Option CampaignKind
  | 0 => some .survey
  | 1 => some .locate
  | _ => none

/-- The record START fills from its fields, the requester's level being the effective one; nothing where a field is out of
range (R76). -/
def requestedCampaign (r : CampaignRequest) (a : Asker) : Option Campaign :=
  match hostKind r.kind.toNat, inRange 16 r.pair.toNat, inRange 4 r.chip.toNat, inRange 4 r.sequence.toNat,
      inRange 4 r.reference.toNat with
  | some kind, some pair, some chip, some sequence, some reference =>
    if 1 ≤ r.first.toNat ∧ r.first.toNat ≤ r.last.toNat ∧ r.last.toNat ≤ 128 then
      some { state := .queued, kind := some kind, origin := .demand, requester := a.source, requesterLevel := a.effective,
             pair := pair, first := r.first.toNat, last := r.last.toNat, exponent := clampNat 0 15 r.exponent.toNat,
             requested := { chip := chip, sequence := sequence, level := clampNat 64 4095 r.level.toNat,
                            reference := reference },
             autoLocate := decide (kind = .survey) && r.autoLocate == 1, depth := 1 }
    else none
  | _, _, _, _, _ => none

/-- START at the engine (R76). -/
def answerStart (r : CampaignRequest) (a : Asker) (s : State) : Answer :=
  match requestedCampaign r a with
  | none => .error .range
  | some c =>
    match s.freeSlot with
    | none => .error .noSlot
    | some n =>
      if 8 ≤ s.cen.demand.length then .error .queueFull
      else .ok ((s.setCampaign n c).setDemand (s.cen.demand ++ [n]),
                u8 n.val ++ u8 c.exponent ++ u16 c.requested.level ++ u8 (s.cen.demand.length + 1))

/-- START as a frame. -/
def State.takeStart (s : State) (h : Header) (r : CampaignRequest) : State :=
  s.takeFrame h 0x20 (isFlag r.autoLocate) 2 (answerStart r)

/-- START (R76). -/
def execStart (h : Header) (r : CampaignRequest) (s : State) : Result := .next (s.takeStart h r)

/-- The parity tag of a code (R77, R197). -/
def parityOf : Nat → Option Parity
  | 0 => some .any
  | 1 => some .even
  | 2 => some .odd
  | _ => none

/-- A slot placed in the periodic list, which is kept in slot order (R79). -/
def insertSlot (n : Slot) : List Slot → List Slot
  | [] => [n]
  | m :: rest => if m < n then m :: insertSlot n rest else n :: m :: rest

/-- SCHEDULE at the engine (R77). -/
def answerSchedule (r : CampaignRequest) (period : BitVec 16) (parity : Byte) (a : Asker) (s : State) : Answer :=
  match requestedCampaign r a, parityOf parity.toNat with
  | some c, some tag =>
    match s.freeSlot with
    | none => .error .noSlot
    | some n =>
      if 16 ≤ s.cen.periodic.length then .error .listFull
      else
        let every := clampNat 1 4096 period.toNat
        let c := { c with
          state := .idlePeriodic, origin := .periodic,
          periodic := some { period := every, parity := tag, countdown := every, due := false, overruns := 0 } }
        .ok ((s.setCampaign n c).setPeriodicList (insertSlot n s.cen.periodic),
             u8 n.val ++ u8 c.exponent ++ u16 c.requested.level ++ u16 every)
  | _, _ => .error .range

/-- SCHEDULE as a frame. -/
def State.takeSchedule (s : State) (h : Header) (r : CampaignRequest) (period : BitVec 16) (parity : Byte) : State :=
  s.takeFrame h 0x21 (isFlag r.autoLocate) 2 (answerSchedule r period parity)

/-- SCHEDULE (R77). -/
def execSchedule (h : Header) (r : CampaignRequest) (period : BitVec 16) (parity : Byte) (s : State) : Result :=
  .next (s.takeSchedule h r period parity)

/-! ## ABORT and RELEASE -/

/-- May the asker end the campaign: its requester's source, or effective level 0 (R93)? -/
def mayEnd (c : Campaign) (a : Asker) : Bool := c.requester == a.source || a.effective == 0

/-- A list without a slot. -/
def withoutSlot (l : List Slot) (n : Slot) : List Slot := l.filter (fun m => !(m == n))

/-- A periodic part whose countdown has stopped with its pending-due mark cleared (R94). -/
def stopped (p : PeriodicPart) : PeriodicPart := { p with due := false }

/-- The abort of a QUEUED or IDLE_PERIODIC campaign (R94). -/
def State.abortWaiting (s : State) (n : Slot) : State :=
  let s := (s.setDemand (withoutSlot s.cen.demand n)).setPeriodicList (withoutSlot s.cen.periodic n)
  (s.setCampaign n { s.campaign n with state := .aborted, periodic := (s.campaign n).periodic.map stopped }).queueOrigin
    (.campaign n)

/-- The abort of a root on its pair's chain, the campaigns above it given (R95). Its cursor is absent (log 16); what it had
counted, applied and listed stays in its record (DEDUCED, log 37). -/
def State.abortRoot (s : State) (p : Pair) (n : Slot) (above : List Slot) : State :=
  let s := ((s.dropSlots above).releaseExtent n).setChain p []
  let s := s.setPeriodicList (withoutSlot s.cen.periodic n)
  (s.setCampaign n { s.campaign n with state := .aborted, cursor := none }).queueOrigin (.campaign n)

/-- The abort of a child: it and the campaigns above it become FREE, and its parent resumes with the refined class ABORTED at
the child's depth, walking on or finishing (R96). `below` is the parent and what is below it, top first. -/
def State.abortChild (s : State) (p : Pair) (n : Slot) (below above : List Slot) : State :=
  match below with
  | [] => s
  | parent :: _ =>
    let depth := (s.campaign n).depth
    let s := ((s.dropSlots above).dropSlot n).setChain p below.reverse
    let s := s.setCampaign parent { s.campaign parent with state := .measuring }
    let s := match (s.campaign parent).cursor with
      | some k => s.writeRefined parent k .aborted (some depth) none
      | none => s
    State.unwind p below s

/-- A chain cut at a slot: what is below it, top first, and what is above it. -/
def splitAtSlot (n : Slot) : List Slot → List Slot → Option (List Slot × List Slot)
  | [], _ => none
  | m :: rest, below => if m = n then some (below, rest) else splitAtSlot n rest (m :: below)

/-- The abort of a campaign on its pair's chain, and the number of slots it frees or ends (R93, R95, R96). The
count takes in the target and the campaigns above it; a parent that goes on is not counted (DEDUCED, log 17), nor is a parent
that the abort of a child resumes and that finishes or becomes FREE in the same event (DESIGN CHOICE, log 40): R93 does not
say whether such a parent counts. -/
def State.abortOnChain (s : State) (n : Slot) : Answer :=
  let p := (s.campaign n).pair
  match splitAtSlot n (s.chain p) [] with
  | none => .error .wrongState
  | some ([], above) => .ok (s.abortRoot p n above, u8 (above.length + 1))
  | some (parent :: below, above) => .ok (s.abortChild p n (parent :: below) above, u8 (above.length + 1))

/-- ABORT at the engine: RANGE, then WRONG_STATE, then LEVEL (R93). -/
def answerAbort (slot : Byte) (a : Asker) (s : State) : Answer :=
  match inRange 32 slot.toNat with
  | none => .error .range
  | some n =>
    if (s.campaign n).kind = some .confirm then .error .wrongState
    else
      match (s.campaign n).state with
      | .free | .reserved | .done | .failed | .aborted => .error .wrongState
      | .queued | .idlePeriodic => if mayEnd (s.campaign n) a then .ok (s.abortWaiting n, u8 1) else .error .level
      | .awaitingRoom | .measuring | .nested => if mayEnd (s.campaign n) a then s.abortOnChain n else .error .level

/-- ABORT as a frame. -/
def State.takeAbort (s : State) (h : Header) (slot : Byte) : State := s.takeFrame h 0x22 true 2 (answerAbort slot)

/-- ABORT (R93 to R96). -/
def execAbort (h : Header) (slot : Byte) (s : State) : Result := .next (s.takeAbort h slot)

/-- RELEASE at the engine (R93, R97). -/
def answerRelease (slot : Byte) (a : Asker) (s : State) : Answer :=
  match inRange 32 slot.toNat with
  | none => .error .range
  | some n =>
    match (s.campaign n).state with
    | .done | .failed | .aborted => if mayEnd (s.campaign n) a then .ok (s.freeUp n, u8 n.val) else .error .level
    | .free | .queued | .idlePeriodic | .reserved | .awaitingRoom | .measuring | .nested => .error .wrongState

/-- RELEASE as a frame. -/
def State.takeRelease (s : State) (h : Header) (slot : Byte) : State := s.takeFrame h 0x23 true 2 (answerRelease slot)

/-- RELEASE (R97). -/
def execRelease (h : Header) (slot : Byte) (s : State) : Result := .next (s.takeRelease h slot)

end Sys2Proof.Machine
end

