-- ==== Sys2Proof/Machine/OrderRequests.lean ====
section
/-! DEFINITION. The requests of the Isolation Unit: ISOLATE (R129 to R132), WITHDRAW_ORDER (R156), SET_ORDER_SETTINGS (R135),
DEFINE_GATE and DROP_GATE (R127). -/

namespace Sys2Proof.Machine

/-! ## ISOLATE -/

/-- Does the gate cover the entry and the pair (R130, check 3)? -/
def Gate.covers (g : Gate) (i : Index) (p : Pair) : Bool :=
  decide (g.first ≤ i) && decide (i ≤ g.last) && g.mask.getLsbD p.val

/-- Check 4 of R130: the entry is defined with a kind the action allows, and a ROUTE action would change the route. -/
def kindReason (action : Action) : Option Entry → Option Reason
  | none => some .wrongKind
  | some e =>
    if !actionAllows action e.kind then some .wrongKind
    else
      match e.kind with
      | .branching route => if actionRoute action = some route then some .wrongState else none
      | .line _ | .equalizer => none

/-- The spare pump count of an entry, 0 for one that has none. -/
def spareOf : Option Entry → Nat
  | some { kind := .line n, .. } => n.val
  | _ => 0

/-- The nominal lag of an entry on a pair at a chip period, from its delay in the pair's path list (R131, check 10). -/
def State.orderLag (s : State) (i : Index) (p : Pair) (chip : Code) : Nat := nominalLag ((s.delayOf p i).getD 0) chip

/-- Is check 7 of R131 skipped: the force flag set at effective level 0? -/
def forced (force : Byte) (a : Asker) : Bool := force == 1 && a.effective == 0

/-- The reason of the first check of R130 and R131 that an ISOLATE under a present gate fails, if one does. -/
def State.isolateReason (s : State) (g : Gate) (i : Index) (p : Pair) (a : Asker) (force : Byte) : Option Reason :=
  if g.level < a.effective then some .level
  else if !g.covers i p then some .outsideGate
  else
    match kindReason g.action (s.entry i) with
    | some r => some r
    | none =>
      if (s.positionOf p i).isNone then some .notOnPath
      else if (s.entry i).any Entry.mark then some .entryBusy
      else if !forced force a && !actionFits g.action (s.record i p).condition then some .notLocated
      else if g.action = .pumpToSpare ∧ spareOf (s.entry i) = 0 then some .noSpare
      else if (s.record i p).amplitude < s.ecr.floor then some .noReference
      else if sequenceLength s.isu.settings.sequence - 1 < s.orderLag i p s.isu.settings.chip + 2 then some .lagAlias
      else none

/-- The order record an accepted ISOLATE fills (R133). -/
def State.newOrder (s : State) (gate : Fin 32) (g : Gate) (i : Index) (p : Pair) (argument : Byte) (a : Asker)
    (slot : Slot) : Order :=
  { entry := i, pair := p, action := g.action, argument := argument, gate := gate, exponent := g.exponent,
    requester := a.source, requesterLevel := a.effective, reserved := slot, prior := (s.record i p).condition,
    address := ((s.entry i).map Entry.address).getD 0, chip := s.isu.settings.chip, sequence := s.isu.settings.sequence,
    limit := s.isu.settings.limit, lag := s.orderLag i p s.isu.settings.chip }

/-- The effects of an accepted ISOLATE (R132). -/
def State.acceptOrder (s : State) (k : OrderNo) (o : Order) : State :=
  let s := (s.setOrder k (some o)).setAcceptance (s.isu.acceptance ++ [k])
  let s := s.setCampaign o.reserved { state := .reserved }
  let s := s.setOrderMark o.entry true
  s.setCondition o.entry o.pair .isolating

/-- ISOLATE at the unit: R129, then the twelve checks of R130 and R131, then R132. -/
def answerIsolate (gate : Byte) (ref : Reference) (pair argument force : Byte) (a : Asker) (s : State) : Answer :=
  match inRange 32 gate.toNat, inRange 16 pair.toNat, s.resolve a.source ref with
  | some g, some p, some i =>
    match s.gate g with
    | none => .error .gateAbsent
    | some x =>
      match s.isolateReason x i p a force with
      | some r => .error r
      | none =>
        match s.freeOrder, s.freeSlot with
        | none, _ => .error .ordersFull
        | some _, none => .error .noSlot
        | some k, some n =>
          .ok (s.acceptOrder k (s.newOrder g x i p argument a n),
               u8 k.val ++ u8 n.val ++ u16 (s.orderLag i p s.isu.settings.chip))
  | _, _, _ => .error .range

/-- ISOLATE as a frame. -/
def State.takeIsolate (s : State) (h : Header) (gate : Byte) (ref : Reference) (pair argument force : Byte) : State :=
  s.takeFrame h 0x28 (wellMadeRef ref && isFlag force) 3 (answerIsolate gate ref pair argument force)

/-- ISOLATE (R129 to R132). -/
def execIsolate (h : Header) (gate : Byte) (ref : Reference) (pair argument force : Byte) (s : State) : Result :=
  .next (s.takeIsolate h gate ref pair argument force)

/-! ## WITHDRAW_ORDER -/

/-- WITHDRAW_ORDER at the unit (R156). -/
def answerWithdrawOrder (order : Byte) (a : Asker) (s : State) : Answer :=
  match inRange 8 order.toNat with
  | none => .error .range
  | some k =>
    match s.order k with
    | none => .error .wrongState
    | some o =>
      if o.state ≠ .waitingChannel then .error .wrongState
      else if o.requester = a.source ∨ a.effective = 0 then
        .ok (s.failOrder k o .withdrawn o.conditionIfUnheard, u8 k.val ++ u8 (conditionCode o.conditionIfUnheard))
      else .error .level

/-- WITHDRAW_ORDER as a frame. -/
def State.takeWithdrawOrder (s : State) (h : Header) (order : Byte) : State :=
  s.takeFrame h 0x29 true 3 (answerWithdrawOrder order)

/-- WITHDRAW_ORDER (R156). -/
def execWithdrawOrder (h : Header) (order : Byte) (s : State) : Result := .next (s.takeWithdrawOrder h order)

/-! ## SET_ORDER_SETTINGS -/

/-- SET_ORDER_SETTINGS at the unit (R135). -/
def answerSetOrderSettings (chip sequence limit : Byte) (_ : Asker) (s : State) : Answer :=
  match inRange 4 chip.toNat, inRange 4 sequence.toNat with
  | some c, some q =>
    let x : OrderSettings := { chip := c, sequence := q, limit := clampNat 1 4 limit.toNat }
    .ok ({ s with isu := { s.isu with settings := x } }, u8 c.val ++ u8 q.val ++ u8 x.limit)
  | _, _ => .error .range

/-- SET_ORDER_SETTINGS as a frame. -/
def State.takeSetOrderSettings (s : State) (h : Header) (chip sequence limit : Byte) : State :=
  s.takeFrame h 0x4A true 0 (answerSetOrderSettings chip sequence limit)

/-- SET_ORDER_SETTINGS (R135). -/
def execSetOrderSettings (h : Header) (chip sequence limit : Byte) (s : State) : Result :=
  .next (s.takeSetOrderSettings h chip sequence limit)

/-! ## Gates -/

/-- The gate of a DEFINE_GATE request, or nothing where a field is out of range (R127). -/
def requestedGate (g : GateRequest) : Option Gate :=
  match actionOf g.action.toNat, inRange 272 g.first.toNat, inRange 272 g.last.toNat, inRange 4 g.level.toNat with
  | some action, some first, some last, some level =>
    if last < first then none
    else some { action := action, first := first, last := last, mask := g.mask, level := level,
                exponent := clampNat 0 15 g.exponent.toNat }
  | _, _, _, _ => none

/-- DEFINE_GATE at the unit (R127). -/
def answerDefineGate (gate : Byte) (g : GateRequest) (_ : Asker) (s : State) : Answer :=
  match inRange 32 gate.toNat, requestedGate g with
  | some n, some x => .ok (s.setGate n (some x), u8 n.val ++ u8 x.exponent)
  | _, _ => .error .range

/-- DEFINE_GATE as a frame. -/
def State.takeDefineGate (s : State) (h : Header) (gate : Byte) (g : GateRequest) : State :=
  s.takeFrame h 0x50 true 0 (answerDefineGate gate g)

/-- DEFINE_GATE (R127). -/
def execDefineGate (h : Header) (gate : Byte) (g : GateRequest) (s : State) : Result := .next (s.takeDefineGate h gate g)

/-- DROP_GATE at the unit (R127). -/
def answerDropGate (gate : Byte) (_ : Asker) (s : State) : Answer :=
  match inRange 32 gate.toNat with
  | none => .error .range
  | some n => .ok (s.setGate n none, [])

/-- DROP_GATE as a frame. -/
def State.takeDropGate (s : State) (h : Header) (gate : Byte) : State := s.takeFrame h 0x51 true 0 (answerDropGate gate)

/-- DROP_GATE (R127). -/
def execDropGate (h : Header) (gate : Byte) (s : State) : Result := .next (s.takeDropGate h gate)

end Sys2Proof.Machine
end

