-- ==== Sys2Proof/Machine/PlantRequests.lean ====
section
/-! DEFINITION. The requests of the Line Plant Table: SELECT_SPAN (R5), DEFINE_ENTRY (R6, R7), DROP_ENTRY (R8), CLEAR_CONDITION
(R12), PATH_APPEND (R14) and SET_PATH (R15, R16). -/

namespace Sys2Proof.Machine

/-! ## SELECT_SPAN (R5) -/

/-- SELECT_SPAN at the table (R5). -/
def answerSelectSpan (span : Byte) (a : Asker) (s : State) : Answer :=
  match inRange 16 span.toNat with
  | none => .error .range
  | some n => .ok (s.setSpan a.source n, u8 n.val)

/-- SELECT_SPAN as a frame. -/
def State.takeSelectSpan (s : State) (h : Header) (span : Byte) : State :=
  s.takeFrame h 0x10 true 3 (answerSelectSpan span)

/-- SELECT_SPAN (R5). -/
def execSelectSpan (h : Header) (span : Byte) (s : State) : Result := .next (s.takeSelectSpan h span)

/-! ## DEFINE_ENTRY (R6, R7) -/

/-- Does an entry of this kind code carry a spare pump count above 2 (R6, check 3)? -/
def spareTooMany (kind spare : Nat) : Bool := kind == 1 && decide (2 < spare)

/-- The entry kind of a kind code at an index, if the index may take it (R2). -/
def entryKindAt (i : Index) (kind spare route : Nat) : Option EntryKind :=
  match kind with
  | 1 => if 16 ≤ i.val then some (.line (Fin.ofNat 3 spare)) else none
  | 2 => if i.val < 16 then some (.branching (if route = 0 then .a else .b)) else none
  | 3 => if i.val < 16 then some .equalizer else none
  | _ => none

/-- Is the entry in some pair's path list, on either leg (R6, R8)? -/
def State.onSomePath (s : State) (i : Index) : Bool := allPairs.any (fun p => s.pathHolds p i)

/-- Is the entry's order mark set? -/
def State.orderMarked (s : State) (i : Index) : Bool :=
  match s.entry i with
  | some e => e.mark
  | none => false

/-- Does another defined entry hold the line address (R6, check 5)? -/
def State.addressTaken (s : State) (i : Index) (address : Byte) : Bool :=
  allIndices.any (fun j => !(j == i) &&
    (match s.entry j with
     | some e => e.address == address
     | none => false))

/-- A record put into its starting values; its changed mark is set if its condition was other than UNMEASURED, and keeps its
value otherwise (R7, R11; log 25). -/
def State.restartRecord (s : State) (i : Index) (p : Pair) : State :=
  if (s.record i p).condition = .unmeasured then s.setRecord i p { changed := (s.record i p).changed }
  else (s.setRecord i p { changed := true }).queueOrigin (.pair p)

/-- The 16 records of an entry put into their starting values (R7). The pairs that change are queued in ascending order (DESIGN
CHOICE, log 36). -/
def State.restartRecords (s : State) (i : Index) : State := allPairs.foldl (fun s p => s.restartRecord i p) s

/-- DEFINE_ENTRY at the table: the checks of R6 in order, then the effects of R7. -/
def answerDefineEntry (ref : Reference) (kind address spare route : Byte) (a : Asker) (s : State) : Answer :=
  match s.resolve a.source ref with
  | none => .error .range
  | some i =>
    match entryKindAt i kind.toNat spare.toNat route.toNat with
    | none => .error .wrongKind
    | some k =>
      if address.toNat = 0 ∨ 254 < address.toNat ∨ spareTooMany kind.toNat spare.toNat = true then .error .range
      else if (s.entry i).isSome ∧ (s.onSomePath i = true ∨ s.orderMarked i = true) then .error .inUse
      else if s.addressTaken i address then .error .duplicate
      else .ok ((s.setEntry i (some { kind := k, address := address, mark := false })).restartRecords i, u16 i.val)

/-- DEFINE_ENTRY as a frame; the route byte of a BRANCHING entry is 0 or 1 (R194). -/
def State.takeDefineEntry (s : State) (h : Header) (ref : Reference) (kind address spare route : Byte) : State :=
  s.takeFrame h 0x40 (wellMadeRef ref && (!(kind == 2) || isFlag route)) 0 (answerDefineEntry ref kind address spare route)

/-- DEFINE_ENTRY (R6, R7). -/
def execDefineEntry (h : Header) (ref : Reference) (kind address spare route : Byte) (s : State) : Result :=
  .next (s.takeDefineEntry h ref kind address spare route)

/-! ## DROP_ENTRY (R8) -/

/-- An entry undefined, its 16 records at their starting values with their changed marks clear (R8). -/
def State.undefineEntry (s : State) (i : Index) : State :=
  allPairs.foldl (fun s p => s.setRecord i p {}) (s.setEntry i none)

/-- DROP_ENTRY at the table (R8). -/
def answerDropEntry (ref : Reference) (a : Asker) (s : State) : Answer :=
  match s.resolve a.source ref with
  | none => .error .range
  | some i =>
    if s.onSomePath i = true ∨ s.orderMarked i = true then .error .inUse
    else if (s.entry i).isNone then .ok (s, [])
    else .ok (s.undefineEntry i, [])

/-- DROP_ENTRY as a frame. -/
def State.takeDropEntry (s : State) (h : Header) (ref : Reference) : State :=
  s.takeFrame h 0x41 (wellMadeRef ref) 0 (answerDropEntry ref)

/-- DROP_ENTRY (R8). -/
def execDropEntry (h : Header) (ref : Reference) (s : State) : Result := .next (s.takeDropEntry h ref)

/-! ## CLEAR_CONDITION (R12) -/

/-- The pairs a pair byte names: one pair, or all of them (R12, R194). -/
def pairsNamed (pair : Byte) : Option (List Pair) :=
  if pair = 0xFF then some allPairs
  else
    match inRange 16 pair.toNat with
    | none => none
    | some p => some [p]

/-- Each named record takes UNMEASURED (R12). The pairs that change are queued in ascending order (DESIGN CHOICE, log 36). -/
def State.clearConditions (s : State) (i : Index) (l : List Pair) : State :=
  l.foldl (fun s p => s.setCondition i p .unmeasured) s

/-- CLEAR_CONDITION at the table (R12). -/
def answerClearCondition (ref : Reference) (pair : Byte) (a : Asker) (s : State) : Answer :=
  match s.resolve a.source ref, pairsNamed pair with
  | some i, some l =>
    if l.any (fun p => (s.record i p).condition == .isolating) then .error .entryBusy
    else .ok (s.clearConditions i l, u8 (l.filter (fun p => !((s.record i p).condition == .unmeasured))).length)
  | _, _ => .error .range

/-- CLEAR_CONDITION as a frame. -/
def State.takeClearCondition (s : State) (h : Header) (ref : Reference) (pair : Byte) : State :=
  s.takeFrame h 0x33 (wellMadeRef ref) 1 (answerClearCondition ref pair)

/-- CLEAR_CONDITION (R12). -/
def execClearCondition (h : Header) (ref : Reference) (pair : Byte) (s : State) : Result :=
  .next (s.takeClearCondition h ref pair)

/-! ## PATH_APPEND (R14) -/

/-- A sent element resolved; nothing where its reference does not resolve or its delay exceeds 250,000 us (R14). -/
def State.resolveElement (s : State) (src : Source) (e : SentElement) : Option PathElement :=
  match s.resolve src e.reference with
  | none => none
  | some i => if 250000 < e.delay.toNat then none else some { entry := i, delay := e.delay.toNat, tag := tagOf e.tag.toNat }

/-- The elements of a request resolved in their order, or nothing if one is not (R14). -/
def State.resolveElements (s : State) (src : Source) : List SentElement → Option (List PathElement)
  | [] => some []
  | e :: rest =>
    match s.resolveElement src e, s.resolveElements src rest with
    | some x, some xs => some (x :: xs)
    | _, _ => none

/-- PATH_APPEND at the table (R14). -/
def answerPathAppend (restart : Byte) (elements : List SentElement) (a : Asker) (s : State) : Answer :=
  match s.resolveElements a.source elements with
  | none => .error .range
  | some l =>
    let list := (if restart = 1 then [] else s.assemblyList a.source) ++ l
    if 128 < list.length then .error .range else .ok (s.setAssemblyList a.source list, u8 list.length)

/-- The makeup of a PATH_APPEND body: a restart flag, at most 64 elements, each with a reference kind and a leg tag in range
(R193, R194). -/
def wellMadeAppend (restart : Byte) (elements : List SentElement) : Bool :=
  isFlag restart && decide (elements.length ≤ 64)
    && elements.all (fun e => wellMadeRef e.reference && decide (e.tag.toNat ≤ 2))

/-- PATH_APPEND as a frame. -/
def State.takePathAppend (s : State) (h : Header) (restart : Byte) (elements : List SentElement) : State :=
  s.takeFrame h 0x42 (wellMadeAppend restart elements) 0 (answerPathAppend restart elements)

/-- PATH_APPEND (R14). -/
def execPathAppend (h : Header) (restart : Byte) (elements : List SentElement) (s : State) : Result :=
  .next (s.takePathAppend h restart elements)

/-! ## SET_PATH (R15, R16) -/

/-- Do the numbers strictly increase? -/
def increasing : List Nat → Bool
  | a :: b :: rest => decide (a < b) && increasing (b :: rest)
  | _ => true

/-- The delays of the elements with a leg tag, in list order. -/
def legDelays (leg : Leg) (l : List PathElement) : List Nat :=
  (l.filter (fun e => e.tag == some leg)).map PathElement.delay

/-- The remaining conditions of R13 on a list: one BRANCHING element at most, tags exactly on the elements after it, delays
strictly increasing along the untagged elements and along each leg, each leg beginning beyond the branching unit. -/
def State.wellOrdered (s : State) (l : List PathElement) : Bool :=
  let trunk := l.takeWhile (fun e => !s.isBranching e.entry)
  match l.dropWhile (fun e => !s.isBranching e.entry) with
  | [] => l.all (fun e => e.tag.isNone) && increasing (l.map PathElement.delay)
  | unit :: legs =>
    trunk.all (fun e => e.tag.isNone) && unit.tag.isNone && legs.all (fun e => e.tag.isSome)
      && legs.all (fun e => !s.isBranching e.entry)
      && increasing ((trunk ++ [unit]).map PathElement.delay)
      && increasing (unit.delay :: legDelays .a legs) && increasing (unit.delay :: legDelays .b legs)

/-- Does an entry appear twice in a list (R15, check 4)? -/
def repeats : List Index → Bool
  | [] => false
  | i :: rest => rest.contains i || repeats rest

/-- The entries of the old list and the new, each once (R16, step 1). -/
def entriesConcerned (old new : List PathElement) : List Index := ((old ++ new).map PathElement.entry).eraseDups

/-- The effects of an accepted SET_PATH (R16). -/
def State.installPath (s : State) (src : Source) (p : Pair) : State :=
  let concerned := entriesConcerned (s.path p) (s.assemblyList src)
  let s := (s.setPath p (s.assemblyList src)).setAssemblyList src []
  concerned.foldl (fun s i => s.setCondition i p .unmeasured) s

/-- SET_PATH at the table: the checks of R15 in order, then the effects of R16. -/
def answerSetPath (pair : Byte) (a : Asker) (s : State) : Answer :=
  match inRange 16 pair.toNat with
  | none => .error .range
  | some p =>
    let l := s.assemblyList a.source
    if !(s.chain p).isEmpty || s.anyOrder p flightStates then .error .pairBusy
    else if !l.all (fun e => (s.entry e.entry).isSome) then .error .range
    else if repeats (l.map PathElement.entry) then .error .duplicate
    else if !s.wellOrdered l then .error .range
    else .ok (s.installPath a.source p, u8 l.length ++ u8 ((s.installPath a.source p).effectivePath p).length)

/-- SET_PATH as a frame. -/
def State.takeSetPath (s : State) (h : Header) (pair : Byte) : State := s.takeFrame h 0x43 true 0 (answerSetPath pair)

/-- SET_PATH (R15, R16). -/
def execSetPath (h : Header) (pair : Byte) (s : State) : Result := .next (s.takeSetPath h pair)

end Sys2Proof.Machine
end

