-- ==== Sys2Proof/Machine/SettingRequests.lean ====
section
/-! DEFINITION. The requests on levels, switch, timing and thresholds: SET_SOURCE_LEVEL (R178), SET_CROSSPOINT (R25 to R27),
SET_CEILING (R30, R32), SET_TIMING (R61, R187) and SET_THRESHOLDS (R188). -/

namespace Sys2Proof.Machine

/-! ## SET_SOURCE_LEVEL (R178) -/

/-- Is some source at level 0 (R178)? -/
def State.someLevelZero (s : State) : Bool := s.clk.levels.toList.contains 0

/-- May the asker set the level: its own, not lower than it stands, or with effective level 0 (R178)? -/
def State.maySetLevel (s : State) (a : Asker) (src : Source) (l : Level) : Bool :=
  (src == a.source && decide (s.level src ≤ l)) || a.effective == 0

/-- SET_SOURCE_LEVEL at the link (R178). -/
def answerSetSourceLevel (source level : Byte) (a : Asker) (s : State) : Answer :=
  match inRange 8 source.toNat, inRange 4 level.toNat with
  | some src, some l =>
    if !s.maySetLevel a src l then .error .level
    else if !(s.setLevel src l).someLevelZero then .error .wrongState
    else .ok (s.setLevel src l, u8 src.val ++ u8 l.val)
  | _, _ => .error .range

/-- SET_SOURCE_LEVEL as a frame. -/
def State.takeSetSourceLevel (s : State) (h : Header) (source level : Byte) : State :=
  s.takeFrame h 0x11 true 3 (answerSetSourceLevel source level)

/-- SET_SOURCE_LEVEL (R178). -/
def execSetSourceLevel (h : Header) (source level : Byte) (s : State) : Result := .next (s.takeSetSourceLevel h source level)

/-! ## SET_CROSSPOINT (R25 to R27) -/

/-- The point a channel holds closed opens: the channel is DISCONNECTED; a slice ends unjudged (R26), a burst loses its channel
(R27, R144). -/
def State.disconnect (s : State) (c : Chan) : State :=
  match (s.channel c).holder with
  | some (.order n) =>
    match s.order n with
    | some o => (s.setChannel c {}).loseChannel n o
    | none => s.setChannel c {}
  | some (.slice _ _ _) => s.setChannel c {}
  | none => s.setChannel c {}

/-- SET_CROSSPOINT at the switch (R25). -/
def answerSetCrosspoint (channel pair mark : Byte) (_ : Asker) (s : State) : Answer :=
  match inRange 4 channel.toNat, inRange 16 pair.toNat with
  | some c, some p =>
    let s1 := s.setPointEnabled c p (mark == 1)
    let s2 := if mark = 0 ∧ (s.channel c).point = some p then s1.disconnect c else s1
    .ok (s2, flagByte (mark == 1) ++ u8 (channelStateCode (s2.channel c).state))
  | _, _ => .error .range

/-- SET_CROSSPOINT as a frame; the mark is 0 or 1 (R193, R194). -/
def State.takeSetCrosspoint (s : State) (h : Header) (channel pair mark : Byte) : State :=
  s.takeFrame h 0x48 (isFlag mark) 0 (answerSetCrosspoint channel pair mark)

/-- SET_CROSSPOINT (R25 to R27). -/
def execSetCrosspoint (h : Header) (channel pair mark : Byte) (s : State) : Result :=
  .next (s.takeSetCrosspoint h channel pair mark)

/-! ## SET_CEILING (R30, R32) -/

/-- The probe level of a signature (R29). -/
def Signature.probeLevel (g : Signature) : Int := Machine.probeLevel g.level g.reference

/-- A channel parked by a ceiling: probe stopped, point kept, no holder (R32). -/
def parked (ch : Channel) : Channel := { ch with state := .parked, probe := none, holder := none }

/-- A burst restarted by a ceiling: settings fixed anew, REFERENCING again, priming at the new level once settled (R32, R144). -/
def State.restartBurst (s : State) (c : Chan) (n : OrderNo) (o : Order) : State :=
  let o := o.referencing (s.orderLevel o)
  let s := (s.setOrder n (some o)).clearWorking c
  if (s.channel c).state = .settling then s
  else s.setChannel c { s.channel c with state := .priming, probe := some o.signature }

/-- The channel on a pair whose ceiling was lowered (R32). -/
def State.cutByCeiling (s : State) (c : Chan) (p : Pair) : State :=
  match (s.channel c).holder with
  | some (.slice n _ _) =>
    if s.ceiling p < (s.campaign n).appliedLevel then (s.setChannel c (parked (s.channel c))).zeroCampaign n else s
  | some (.order n) =>
    match s.order n with
    | some o => if s.ceiling p < o.signature.probeLevel then s.restartBurst c n o else s
    | none => s
  | none =>
    match (s.channel c).state, (s.channel c).probe with
    | .coasting, some g => if s.ceiling p < g.probeLevel then s.setChannel c (parked (s.channel c)) else s
    | _, _ => s

/-- A pair's ceiling set; lowered, it applies at once to the pair's channel (R30, R32). -/
def State.applyCeiling (s : State) (p : Pair) (x : Int) : State :=
  if x < s.ceiling p then
    match s.channelOn p with
    | some c => (s.setCeilingOf p x).cutByCeiling c p
    | none => s.setCeilingOf p x
  else s.setCeilingOf p x

/-- SET_CEILING at the switch (R30). -/
def answerSetCeiling (pair : Byte) (ceiling : BitVec 16) (_ : Asker) (s : State) : Answer :=
  match inRange 16 pair.toNat with
  | none => .error .range
  | some p =>
    let x := clampInt (-7612) (-2194) ceiling.toInt
    .ok (s.applyCeiling p x, i16 x)

/-- SET_CEILING as a frame. -/
def State.takeSetCeiling (s : State) (h : Header) (pair : Byte) (ceiling : BitVec 16) : State :=
  s.takeFrame h 0x49 true 0 (answerSetCeiling pair ceiling)

/-- SET_CEILING (R30, R32). -/
def execSetCeiling (h : Header) (pair : Byte) (ceiling : BitVec 16) (s : State) : Result :=
  .next (s.takeSetCeiling h pair ceiling)

/-! ## SET_TIMING (R61, R187) -/

/-- FREE VALUE (log 2). The time to the next boundary in ms, as the reply to this request gives it: within the interval. -/
def State.timeLeft (s : State) : Nat := min (Config.timeToBoundary s.freeCount) s.fga.interval

/-- The pending interval set, if the change flag is set (R61, R187). -/
def State.setTimingValue (s : State) (change : Byte) (interval : BitVec 16) : State :=
  if change = 1 then
    { s with fga := { s.fga with pendingInterval := some (clampNat 250 60000 interval.toNat) } }
  else s

/-- SET_TIMING at the arbiter (R61, R187). -/
def answerSetTiming (change : Byte) (interval : BitVec 16) (_ : Asker) (s : State) : Answer :=
  let t := s.setTimingValue change interval
  .ok (t.takeFree,
       optional 2 u16 (if change = 1 then t.fga.pendingInterval else none) ++ u16 t.fga.interval
         ++ optional 2 u16 t.fga.pendingInterval ++ u16 t.fga.frame ++ u16 s.timeLeft)

/-- SET_TIMING as a frame. -/
def State.takeSetTiming (s : State) (h : Header) (change : Byte) (interval : BitVec 16) : State :=
  s.takeFrame h 0x4B (isFlag change) 0 (answerSetTiming change interval)

/-- SET_TIMING (R61, R187). -/
def execSetTiming (h : Header) (change : Byte) (interval : BitVec 16) (s : State) : Result :=
  .next (s.takeSetTiming h change interval)

/-! ## SET_THRESHOLDS (R188) -/

/-- The echo floor and the two thresholds set in one event (R53, R102, R188). -/
def State.setThresholdValues (s : State) (floor tStep tDrift : Nat) : State :=
  { s with ecr := { s.ecr with floor := floor }, flo := { s.flo with tStep := tStep, tDrift := tDrift } }

/-- SET_THRESHOLDS at the link (R188). -/
def answerSetThresholds (floor tStep tDrift : BitVec 16) (_ : Asker) (s : State) : Answer :=
  let f := clampNat 1 4096 floor.toNat
  let t := clampNat 50 1000 tStep.toNat
  let d := clampNat 100 3000 tDrift.toNat
  .ok (s.setThresholdValues f t d, u16 f ++ u16 t ++ u16 d)

/-- SET_THRESHOLDS as a frame. -/
def State.takeSetThresholds (s : State) (h : Header) (floor tStep tDrift : BitVec 16) : State :=
  s.takeFrame h 0x4C true 0 (answerSetThresholds floor tStep tDrift)

/-- SET_THRESHOLDS (R188). -/
def execSetThresholds (h : Header) (floor tStep tDrift : BitVec 16) (s : State) : Result :=
  .next (s.takeSetThresholds h floor tStep tDrift)

end Sys2Proof.Machine
end

