-- ==== Sys2Proof/Machine/Store.lean ====
section
/-! DEFINITION. The Baseline Store: ADOPT (R162), DROP_BASELINE (R164), COMMIT (R167 to R169), ERASE_BLOCK (R166), the ends of
their steps, and the cold load (R171). -/

namespace Sys2Proof.Machine

/-! ## Slots (R159) -/

/-- The store slot of a pair and an index (R159). -/
def storeSlot (p : Pair) (i : Index) : Nat := 512 * p.val + i.val

/-- The pair whose indices an erase block covers (R159). -/
def blockPair (block : Fin 32) : Pair := ⟨block.val / 2, by omega⟩

/-- Does an erase block cover the slot of an index of its pair (R159)? -/
def blockCovers (block : Fin 32) (i : Index) : Bool := decide (i.val / 256 = block.val % 2)

/-- The usable end of the page of an index (R159). -/
def pageEnd (i : Index) : Nat := min 271 (32 * (i.val / 32) + 31)

/-! ## ADOPT (R162, R163) -/

/-- One result element adopted: the state, the records written and the elements skipped for an undefined entry (R162). -/
def adoptElement (p : Pair) (acc : State × Nat × Nat) (r : ResultElement) : State × Nat × Nat :=
  match r.gain with
  | none => acc
  | some gain =>
    match acc.1.entry r.entry with
    | none => (acc.1, acc.2.1, acc.2.2 + 1)
    | some e => (acc.1.setBaseline p r.entry (some { stored := false, gain := gain, address := e.address }), acc.2.1 + 1, acc.2.2)

/-- ADOPT at the store (R162). -/
def answerAdopt (slot : Byte) (_ : Asker) (s : State) : Answer :=
  match inRange 32 slot.toNat with
  | none => .error .range
  | some n =>
    if (s.campaign n).state ≠ .done then .error .wrongState
    else
      let out := (s.campaign n).results.foldl (adoptElement (s.campaign n).pair) (s, 0, 0)
      .ok (out.1, u16 out.2.1 ++ u8 out.2.2)

/-- ADOPT as a frame. -/
def State.takeAdopt (s : State) (h : Header) (slot : Byte) : State := s.takeFrame h 0x30 true 1 (answerAdopt slot)

/-- ADOPT (R162). -/
def execAdopt (h : Header) (slot : Byte) (s : State) : Result := .next (s.takeAdopt h slot)

/-! ## DROP_BASELINE (R164) -/

/-- The table indices of a run. -/
def indexRun (first last : Nat) : List Index := allIndices.filter (fun i => decide (first ≤ i.val) && decide (i.val ≤ last))

/-- DROP_BASELINE at the store (R164). -/
def answerDropBaseline (pair : Byte) (first last : BitVec 16) (_ : Asker) (s : State) : Answer :=
  match inRange 16 pair.toNat, inRange 272 first.toNat, inRange 272 last.toNat with
  | some p, some f, some l =>
    if l < f then .error .range
    else
      let run := indexRun f.val l.val
      .ok (run.foldl (fun s i => s.setBaseline p i none) s, u16 (run.filter (fun i => (s.baseline p i).isSome)).length)
  | _, _, _ => .error .range

/-- DROP_BASELINE as a frame. -/
def State.takeDropBaseline (s : State) (h : Header) (pair : Byte) (first last : BitVec 16) : State :=
  s.takeFrame h 0x31 true 1 (answerDropBaseline pair first last)

/-- DROP_BASELINE (R164). -/
def execDropBaseline (h : Header) (pair : Byte) (first last : BitVec 16) (s : State) : Result :=
  .next (s.takeDropBaseline h pair first last)

/-! ## Programming a commit (R167 to R169) -/

/-- The state with the store state replaced (R165). -/
def State.setStoreOp (s : State) (op : StoreOp) : State := { s with bst := { s.bst with op := op } }

/-- The state with the staging buffer replaced (R167). -/
def State.setStaging (s : State) (l : List Staged) : State := { s with bst := { s.bst with staging := l } }

/-- The state with the store's bytes replaced (R198). -/
def State.setStore (s : State) (cells : List Host.Cell) : State := { s with bst := { s.bst with store := cells } }

/-- The state with the last-operation record written (R165). -/
def State.setLastOp (s : State) (x : Option LastOp) : State := { s with bst := { s.bst with lastOp := x } }

/-- A programmed record's status at a commit's end: STORED if the image still holds the staged value and address (R169). -/
def State.settleProgrammed (s : State) (p : Pair) (x : Staged) : State :=
  match s.baseline p x.index, x.baseline with
  | some b, some staged =>
    if b.gain = staged.gain ∧ b.address = staged.address then s.setBaseline p x.index (some { b with stored := true }) else s
  | _, _ => s

/-- The end of a commit, in one event (R169). -/
def State.endCommit (s : State) (job : CommitJob) (stop : Reason) : State :=
  let s := job.written.foldl (fun s x => s.settleProgrammed job.pair x) s
  let s := (s.setStaging []).setStoreOp .idle
  (s.setLastOp (some (.commit job.pair job.first job.staged job.written.length stop))).queueOrigin .store

/-- The stop reason of a commit whose staged records are all taken (R169). -/
def CommitJob.fullStop (job : CommitJob) : Reason := if job.pageLimited then .pageEnd else .count

/-- The commit goes on from a list of staged records left: an ABSENT one is passed over, a BLANK slot's programming begins with
its opening mark, any other slot stops the commit (R168, R198). -/
def State.advanceCommit (s : State) (job : CommitJob) : List Staged → State
  | [] => s.endCommit { job with remaining := [] } job.fullStop
  | x :: rest =>
    match x.baseline with
    | none => s.advanceCommit job rest
    | some _ =>
      if slotState s.bst.store (storeSlot job.pair x.index) = .blank then
        (s.setStore (tableSet (0xFF : Byte) s.bst.store (8 * storeSlot job.pair x.index) openingMark)).setStoreOp
          (.programming { job with remaining := x :: rest })
      else s.endCommit { job with remaining := x :: rest } .occupied

/-- Bytes 1 to 7 of a programmed slot: pair, index, line address, LG_base, completion mark (R198). -/
def programmedBytes (p : Pair) (i : Index) (b : Baseline) : List Byte :=
  u8 p.val ++ u16 i.val ++ [b.address] ++ i16 b.gain ++ [completionMark]

/-- The staged records of a run: index and image record as they stand (R167). -/
def State.stageRun (s : State) (p : Pair) (run : List Index) : List Staged :=
  run.map (fun i => { index := i, baseline := s.baseline p i })

/-- COMMIT at the store (R167). RANGE is tested before STORE_BUSY (DESIGN CHOICE, log 39), and the reply gives the number staged one
byte, as the store report does (DESIGN CHOICE, log 35). -/
def answerCommit (pair : Byte) (first : BitVec 16) (count : Byte) (_ : Asker) (s : State) : Answer :=
  match inRange 16 pair.toNat, inRange 272 first.toNat with
  | some p, some f =>
    if s.bst.op ≠ .idle then .error .storeBusy
    else
      let n := clampNat 1 32 count.toNat
      let staged := s.stageRun p (indexRun f.val (min (f.val + n - 1) (pageEnd f)))
      let job : CommitJob :=
        { pair := p, first := f, staged := staged.length, pageLimited := decide (pageEnd f < f.val + n - 1), written := [],
          remaining := [] }
      .ok ((s.setStaging staged).advanceCommit job staged, u8 staged.length ++ u8 n)
  | _, _ => .error .range

/-- COMMIT as a frame. -/
def State.takeCommit (s : State) (h : Header) (pair : Byte) (first : BitVec 16) (count : Byte) : State :=
  s.takeFrame h 0x32 true 1 (answerCommit pair first count)

/-- COMMIT (R167 to R169). -/
def execCommit (h : Header) (pair : Byte) (first : BitVec 16) (count : Byte) (s : State) : Result :=
  .next (s.takeCommit h pair first count)

/-- The end of a slot's 2 ms: its other bytes and its completion mark are programmed, and the commit goes on (R168, R198). -/
def State.slotDone (s : State) (job : CommitJob) : State :=
  match job.remaining with
  | [] => s
  | x :: rest =>
    match x.baseline with
    | none => s
    | some b =>
      let s := s.setStore (writeBytes s.bst.store (8 * storeSlot job.pair x.index + 1) (programmedBytes job.pair x.index b))
      s.advanceCommit { job with written := job.written ++ [x] } rest

/-- SLOT_PROGRAMMED (R168, R169); when no slot is being programmed, nothing is due (log 1). -/
def execSlotProgrammed (s : State) : Result :=
  match s.bst.op with
  | .programming job => .next (s.slotDone job).concludeEvent
  | .idle | .erasing _ | .loading => .next s

/-! ## Erasing (R166) -/

/-- The 256 slots of a block BLANK: an erased byte is 0xFF (R166, R198). -/
def erasedStore (cells : List Host.Cell) (block : Fin 32) : List Host.Cell := tableClear cells (2048 * block.val) 2048

/-- A STORED record becomes ADOPTED, its value and address kept (R166). -/
def unstored : Option Baseline → Option Baseline
  | some b => some { b with stored := false }
  | none => none

/-- Every STORED record of the block's pair and indices becomes ADOPTED (R166). -/
def State.unstoreBlock (s : State) (block : Fin 32) : State :=
  (allIndices.filter (blockCovers block)).foldl
    (fun s i => s.setBaseline (blockPair block) i (unstored (s.baseline (blockPair block) i))) s

/-- ERASE_BLOCK at the store (R166). RANGE is tested before STORE_BUSY, for which R165 and R166 give no order (DESIGN CHOICE, log
39). -/
def answerEraseBlock (block : Byte) (_ : Asker) (s : State) : Answer :=
  match inRange 32 block.toNat with
  | none => .error .range
  | some b => if s.bst.op ≠ .idle then .error .storeBusy else .ok (s.setStoreOp (.erasing b), [])

/-- ERASE_BLOCK as a frame. -/
def State.takeEraseBlock (s : State) (h : Header) (block : Byte) : State := s.takeFrame h 0x58 true 0 (answerEraseBlock block)

/-- ERASE_BLOCK (R166). -/
def execEraseBlock (h : Header) (block : Byte) (s : State) : Result := .next (s.takeEraseBlock h block)

/-- The end of an erase, in one event (R166). -/
def State.endErase (s : State) (block : Fin 32) : State :=
  let s := (s.setStore (erasedStore s.bst.store block)).unstoreBlock block
  ((s.setStoreOp .idle).setLastOp (some (.erase block))).queueOrigin .store

/-- ERASE_END (R166); when no erase runs, nothing is due (log 1). -/
def execEraseEnd (s : State) : Result :=
  match s.bst.op with
  | .erasing block => .next (s.endErase block).concludeEvent
  | .idle | .programming _ | .loading => .next s

/-! ## The cold load (R171) -/

/-- The usable store slots: those of indices 0..271 of every pair (R159, R171). -/
def usableSlots : List Nat := allPairs.flatMap (fun p => allIndices.map (storeSlot p))

/-- One slot read at the cold load: a HOLDING one is loaded STORED under the pair and index its bytes hold (R171, R198). -/
def State.loadSlot (s : State) (slot : Nat) : State :=
  match slotState s.bst.store slot, inRange 16 (slotPair s.bst.store slot), inRange 272 (slotIndex s.bst.store slot) with
  | .holding, some p, some i =>
    s.setBaseline p i (some { stored := true, gain := slotGain s.bst.store slot, address := slotAddress s.bst.store slot })
  | _, _, _ => s

/-- Every usable slot read into the image (R171). -/
def State.loadImage (s : State) : State := usableSlots.foldl State.loadSlot s

end Sys2Proof.Machine
end

