-- ==== Sys2Proof/Machine/Queries.lean ====
section
/-! DEFINITION. The queries: STATUS (R186), READ_ENTRY (R18), READ_SPAN (R19), READ_PATH (R20), READ_CHANNELS (R38), READ_EXTENTS
(R58), READ_GRANTS (R71), READ_CAMPAIGN (R99), READ_RESULTS (R100), READ_GATES and READ_ORDERS (R157), READ_BASELINE (R173).
Their layouts: R193, R196 and logs 5, 6, 35 and 38. -/

namespace Sys2Proof.Machine

/-! ## STATUS (R186) -/

/-- The reply data of STATUS (R186). -/
def State.statusData (s : State) (a : Asker) : List Byte :=
  u8 (partStateCode s.clk.part) ++ u8 (resetKindCode s.clk.lastReset.1) ++ u8 (resetCauseCode s.clk.lastReset.2)
    ++ u16 s.fga.frame ++ u8 (s.level a.source).val ++ u8 (s.span a.source).val ++ u8 s.cen.demand.length
    ++ optional 1 (fun n : Slot => u8 n.val) s.cen.demand.head?
    ++ u8 (allSlots.filter (fun n => (s.campaign n).state == .free)).length
    ++ u8 (allOrders.filter (fun n => (s.order n).isNone)).length
    ++ u8 (storeStateCode s.bst.op) ++ u8 s.clk.replies.length ++ u8 s.clk.reports.length

/-- STATUS as a frame. -/
def State.takeStatus (s : State) (h : Header) : State :=
  s.takeFrame h statusKind true 3 (fun a s => .ok (s, s.statusData a))

/-- STATUS (R186). -/
def execStatus (h : Header) (s : State) : Result := .next (s.takeStatus h)

/-! ## READ_ENTRY and READ_SPAN -/

/-- The spare pumps of a kind that has them. -/
def spareField : EntryKind → Option Nat
  | .line n => some n.val
  | .branching _ | .equalizer => none

/-- The route of a kind that has one. -/
def routeField : EntryKind → Option Leg
  | .branching r => some r
  | .line _ | .equalizer => none

/-- The fields of an entry as READ_ENTRY carries them (R18). The order mark takes no presence byte: 0 for an entry that is not
defined (DESIGN CHOICE, log 35). -/
def entryData (e : Option Entry) : List Byte :=
  flagByte e.isSome ++ optional 1 (fun k => u8 (entryKindCode k)) (e.map Entry.kind)
    ++ optional 1 (fun b : Byte => [b]) (e.map Entry.address)
    ++ optional 1 u8 ((e.map Entry.kind).bind spareField)
    ++ optional 1 (fun r => u8 (routeCode r)) ((e.map Entry.kind).bind routeField)
    ++ flagByte (e.any Entry.mark)

/-- Every field of an amplifier record, in the order of R9. -/
def recordData (r : AmpRecord) : List Byte :=
  u8 (conditionCode r.condition) ++ u8 (isolationCode r.isolation) ++ optional 1 (fun c => u8 (classCode c)) r.lastClass
    ++ u24 r.amplitude ++ i16 r.echo ++ optional 2 i16 r.gain ++ optional 2 i16 r.deviation ++ i8 r.offset
    ++ optional 2 u16 r.frame ++ flagByte r.changed

/-- READ_ENTRY at the table (R18); its 16 records stand in ascending pair order (DESIGN CHOICE, log 38). -/
def answerReadEntry (ref : Reference) (a : Asker) (s : State) : Answer :=
  match s.resolve a.source ref with
  | none => .error .range
  | some i => .ok (s, u16 i.val ++ entryData (s.entry i) ++ fixedRun (fun p => recordData (s.record i p)) allPairs)

/-- READ_ENTRY as a frame. -/
def State.takeReadEntry (s : State) (h : Header) (ref : Reference) : State :=
  s.takeFrame h 0x02 (wellMadeRef ref) 3 (answerReadEntry ref)

/-- READ_ENTRY (R18). -/
def execReadEntry (h : Header) (ref : Reference) (s : State) : Result := .next (s.takeReadEntry h ref)

/-- One summary of READ_SPAN (R19); its order mark as in `entryData` (DESIGN CHOICE, log 35). -/
def State.spanSummary (s : State) (p : Pair) (i : Index) : List Byte :=
  let e := s.entry i
  let r := s.record i p
  flagByte e.isSome ++ optional 1 (fun b : Byte => [b]) (e.map Entry.address)
    ++ optional 1 u8 ((e.map Entry.kind).bind spareField) ++ flagByte (e.any Entry.mark)
    ++ u8 (conditionCode r.condition) ++ u8 (isolationCode r.isolation)
    ++ optional 1 (fun c => u8 (classCode c)) r.lastClass ++ optional 2 i16 r.gain ++ optional 2 i16 r.deviation
    ++ optional 2 u16 r.frame

/-- READ_SPAN at the table (R19). -/
def answerReadSpan (span pair : Byte) (_ : Asker) (s : State) : Answer :=
  match inRange 16 span.toNat, inRange 16 pair.toNat with
  | some n, some p => .ok (s, fixedRun (s.spanSummary p) (indexRun (16 + 16 * n.val) (16 + 16 * n.val + 15)))
  | _, _ => .error .range

/-- READ_SPAN as a frame. -/
def State.takeReadSpan (s : State) (h : Header) (span pair : Byte) : State :=
  s.takeFrame h 0x03 true 3 (answerReadSpan span pair)

/-- READ_SPAN (R19). -/
def execReadSpan (h : Header) (span pair : Byte) (s : State) : Result := .next (s.takeReadSpan h span pair)

/-! ## READ_PATH -/

/-- At most `count` elements of a list from a first place on, counted from 1; none from place 0 (R20, R100). -/
def window {α : Type} (l : List α) (first count : Nat) : List α := if first = 0 then [] else (l.drop (first - 1)).take count

/-- The six bytes of a path element in a reply (R194). -/
def pathElementData (e : PathElement) : List Byte := u16 e.entry.val ++ u24 e.delay ++ u8 (tagCode e.tag)

/-- READ_PATH at the table; view 0 is LIST and 1 EFFECTIVE (R20). The branching unit's index and route stand under one presence
byte (DESIGN CHOICE, log 35). -/
def answerReadPath (pair view first count : Byte) (_ : Asker) (s : State) : Answer :=
  match inRange 16 pair.toNat with
  | none => .error .range
  | some p =>
    let l := if view = 0 then s.path p else s.effectivePath p
    .ok (s, u8 l.length
      ++ optional 3 (fun x : PathElement × Leg => u16 x.1.entry.val ++ u8 (routeCode x.2)) (s.branchOf (s.path p))
      ++ counted pathElementData (window l first.toNat (clampNat 1 64 count.toNat)))

/-- READ_PATH as a frame; a view code outside its table is MALFORMED (R193). -/
def State.takeReadPath (s : State) (h : Header) (pair view first count : Byte) : State :=
  s.takeFrame h 0x04 (isFlag view) 3 (answerReadPath pair view first count)

/-- READ_PATH (R20). -/
def execReadPath (h : Header) (pair view first count : Byte) (s : State) : Result :=
  .next (s.takeReadPath h pair view first count)

/-! ## READ_CHANNELS and READ_EXTENTS -/

/-- The kind and number of a holder (R38, R197). -/
def holderFields : Holder → List Byte
  | .slice n _ _ => u8 1 ++ u8 n.val
  | .order n => u8 2 ++ u8 n.val

/-- The holder of a channel, or absent (R38, R193): its kind and number under one presence byte (DESIGN CHOICE, log 35). -/
def holderData (x : Option Holder) : List Byte := optional 2 holderFields x

/-- A signature and its probe level, which READ_CHANNELS sends as one group (R38; DESIGN CHOICE, log 38). -/
def signatureData (g : Signature) : List Byte :=
  u8 g.pair.val ++ u8 g.chip.val ++ u8 g.sequence.val ++ u16 g.level ++ u8 g.reference.val ++ i16 g.probeLevel

/-- One channel of READ_CHANNELS (R38). A running probe's signature and its PL are 8 bytes under one presence byte (DESIGN CHOICE,
log 38); the holder: `holderData`. -/
def channelData (ch : Channel) : List Byte :=
  u8 (channelStateCode ch.state) ++ optional 1 (fun p : Pair => u8 p.val) ch.point ++ holderData ch.holder
    ++ optional 8 signatureData ch.probe

/-- The reply data of READ_CHANNELS (R38): channels, pairs and points in ascending order, a pair's ceiling and DARK mark side by
side (DESIGN CHOICE, log 38). -/
def State.channelsData (s : State) : List Byte :=
  fixedRun (fun c => channelData (s.channel c)) allChannels
    ++ fixedRun (fun p => i16 (s.ceiling p) ++ flagByte (s.darkMark p)) allPairs
    ++ fixedRun (fun c => fixedRun (fun p => flagByte (s.pointEnabled c p)) allPairs) allChannels

/-- READ_CHANNELS as a frame. -/
def State.takeReadChannels (s : State) (h : Header) : State :=
  s.takeFrame h 0x05 true 3 (fun _ s => .ok (s, s.channelsData))

/-- READ_CHANNELS (R38). -/
def execReadChannels (h : Header) (s : State) : Result := .next (s.takeReadChannels h)

/-- One extent of READ_EXTENTS with its campaign's accepted count and M (R58). -/
def State.extentData (s : State) (e : Extent) : List Byte :=
  u16 e.start ++ u16 e.length ++ u8 e.slot.val ++ u16 (s.campaign e.slot).accepted ++ u16 (s.campaign e.slot).periods

/-- The number of free cells (R58). -/
def freeCells (l : List Extent) : Nat := 8192 - (l.map Extent.length).sum

/-- The reply data of READ_EXTENTS (R58). -/
def State.extentsData (s : State) : List Byte :=
  counted s.extentData s.ecr.extents ++ u16 (freeCells s.ecr.extents)
    ++ optional 4 (fun r : Nat × Nat => u16 r.2 ++ u16 r.1) (longestRun (freeRuns s.ecr.extents 0)) ++ u16 s.ecr.floor

/-- READ_EXTENTS as a frame. -/
def State.takeReadExtents (s : State) (h : Header) : State :=
  s.takeFrame h 0x06 true 3 (fun _ s => .ok (s, s.extentsData))

/-- READ_EXTENTS (R58). -/
def execReadExtents (h : Header) (s : State) : Result := .next (s.takeReadExtents h)

/-! ## READ_GRANTS (R71) -/

/-- One pair of the service list with its last-served frame and previous channel (R71). -/
def State.serviceData (s : State) (p : Pair) : List Byte :=
  u8 p.val ++ optional 2 u16 s.fga.lastServed[p] ++ optional 1 (fun c : Chan => u8 c.val) s.fga.previous[p]

/-- The reply data of READ_GRANTS (R71). The run of bar and candidate marks stands in ascending pair order, the two marks of a pair
side by side (DESIGN CHOICE, log 38). -/
def State.grantsData (s : State) : List Byte :=
  u16 s.fga.frame ++ u16 s.fga.interval ++ optional 2 u16 s.fga.pendingInterval ++ u16 s.timeLeft
    ++ fixedRun s.serviceData s.fga.service
    ++ fixedRun (fun p => flagByte (s.barred p) ++ flagByte (s.candidateTop p).isSome) allPairs
    ++ counted (fun n : OrderNo => u8 n.val) s.waitingOrders

/-- READ_GRANTS as a frame; the time to the boundary is a free value taken (log 2). -/
def State.takeReadGrants (s : State) (h : Header) : State :=
  s.takeFrame h 0x07 true 3 (fun _ s => .ok (s.takeFree, s.grantsData))

/-- READ_GRANTS (R71). -/
def execReadGrants (h : Header) (s : State) : Result := .next (s.takeReadGrants h)

/-! ## READ_CAMPAIGN and READ_RESULTS -/

/-- The periodic part as READ_CAMPAIGN carries it (R73). -/
def periodicData (x : PeriodicPart) : List Byte :=
  u16 x.period ++ u8 (parityCode x.parity) ++ u16 x.countdown ++ flagByte x.due ++ u16 x.overruns

/-- A slot's place in the demand queue, counted from 1 at the head (R99). -/
def placeIn (n : Slot) : List Slot → Nat → Option Nat
  | [], _ => none
  | m :: rest, k => if m = n then some k else placeIn n rest (k + 1)

/-- The chain that holds a slot, root to top, empty if none does (R99). READ_CAMPAIGN sends it as a counted list in every case, with
count 0 and no presence byte for a campaign on no chain (DESIGN CHOICE, log 38). -/
def State.chainWith (s : State) (n : Slot) : List Slot :=
  if n ∈ s.chain (s.campaign n).pair then s.chain (s.campaign n).pair else []

/-- The fields of a campaign record in the order of R73, the two lists as their lengths (R99). The applied settings, the extent and
the periodic part are each one group under one presence byte (DESIGN CHOICE, log 38). -/
def campaignData (n : Slot) (c : Campaign) : List Byte :=
  u8 n.val ++ u8 (campaignStateCode c.state) ++ u8 ((c.kind.map campaignKindCode).getD 0) ++ u8 (campaignOriginCode c.origin)
    ++ u8 c.requester.val ++ u8 c.requesterLevel.val ++ u8 c.pair.val ++ u8 c.first ++ u8 c.last ++ u8 c.exponent
    ++ u16 c.accepted ++ u8 c.requested.chip.val ++ u8 c.requested.sequence.val ++ u16 c.requested.level
    ++ u8 c.requested.reference.val
    ++ optional 3 (fun x : Nat × Code => u16 x.1 ++ u8 x.2.val) c.applied
    ++ flagByte c.clamped ++ flagByte c.mustPrime ++ flagByte c.autoLocate ++ u8 c.depth
    ++ optional 1 (fun m : Slot => u8 m.val) c.parent ++ u8 c.elements.length
    ++ optional 4 (fun x : Nat × Nat => u16 x.1 ++ u16 x.2) c.extent ++ u8 c.darkCount ++ optional 1 u8 c.cursor
    ++ u8 c.results.length ++ optional 1 (fun x => u8 (summaryCode x)) c.summary
    ++ optional 1 (fun r => u8 (reasonCode r)) c.failure ++ optional 8 periodicData c.periodic

/-- READ_CAMPAIGN at the engine (R99); the form of the chain at its end: `State.chainWith` (DESIGN CHOICE, log 38). -/
def answerReadCampaign (slot : Byte) (_ : Asker) (s : State) : Answer :=
  match inRange 32 slot.toNat with
  | none => .error .range
  | some n =>
    .ok (s, campaignData n (s.campaign n) ++ optional 1 u8 (placeIn n s.cen.demand 1)
      ++ counted (fun m : Slot => u8 m.val) (s.chainWith n))

/-- READ_CAMPAIGN as a frame. -/
def State.takeReadCampaign (s : State) (h : Header) (slot : Byte) : State :=
  s.takeFrame h 0x08 true 3 (answerReadCampaign slot)

/-- READ_CAMPAIGN (R99). -/
def execReadCampaign (h : Header) (slot : Byte) (s : State) : Result := .next (s.takeReadCampaign h slot)

/-- The total length READ_RESULTS gives for a list: its length, but 0 for a first place of 0 or one beyond the list (R100). -/
def shownTotal {α : Type} (l : List α) (first : Nat) : Nat := if first = 0 ∨ l.length < first then 0 else l.length

/-- READ_RESULTS at the engine, laid out as R196 gives it (R100). -/
def answerReadResults (slot first count : Byte) (_ : Asker) (s : State) : Answer :=
  match inRange 32 slot.toNat with
  | none => .error .range
  | some n =>
    let c := s.campaign n
    .ok (s, u8 n.val ++ u8 (shownTotal c.results first.toNat) ++ u8 ((c.summary.map summaryCode).getD 0) ++ [first]
      ++ counted resultBytes (window c.results first.toNat (clampNat 1 32 count.toNat)))

/-- READ_RESULTS as a frame. -/
def State.takeReadResults (s : State) (h : Header) (slot first count : Byte) : State :=
  s.takeFrame h 0x09 true 3 (answerReadResults slot first count)

/-- READ_RESULTS (R100). -/
def execReadResults (h : Header) (slot first count : Byte) (s : State) : Result := .next (s.takeReadResults h slot first count)

/-! ## READ_GATES and READ_ORDERS (R157) -/

/-- The fields of a gate in the order of R126. -/
def gateData (g : Gate) : List Byte :=
  u8 (actionCode g.action) ++ u16 g.first.val ++ u16 g.last.val ++ u16 g.mask.toNat ++ u8 g.level.val ++ u8 g.exponent

/-- The reply data of READ_GATES (R157): the gates in ascending order, the fields of each under one presence byte, its present mark
(DESIGN CHOICE, log 38). -/
def State.gatesData (s : State) : List Byte :=
  fixedRun (fun g => optional 9 gateData (s.gate g)) allSlots
    ++ u8 s.isu.settings.chip.val ++ u8 s.isu.settings.sequence.val ++ u8 s.isu.settings.limit

/-- READ_GATES as a frame. -/
def State.takeReadGates (s : State) (h : Header) : State := s.takeFrame h 0x0A true 3 (fun _ s => .ok (s, s.gatesData))

/-- READ_GATES (R157). -/
def execReadGates (h : Header) (s : State) : Result := .next (s.takeReadGates h)

/-- A confirm result as READ_ORDERS carries it: the verdict summary, which R152 never leaves absent, then the target's class and
A_q, or absent (R152). -/
def confirmData (r : ConfirmResult) : List Byte :=
  u8 ((r.summary.map summaryCode).getD 0) ++ optional 1 (fun c => u8 (classCode c)) r.verdict ++ optional 3 u24 r.amplitude

/-- The fields of a taken order record in the order of R133. -/
def orderData (o : Order) : List Byte :=
  u16 o.entry.val ++ u8 o.pair.val ++ u8 (actionCode o.action) ++ [o.argument] ++ u8 o.gate.val ++ u8 o.exponent
    ++ u8 o.requester.val ++ u8 o.requesterLevel.val ++ u8 o.reserved.val ++ u8 (conditionCode o.prior) ++ [o.address]
    ++ u8 o.chip.val ++ u8 o.sequence.val ++ u8 o.limit ++ u16 o.lag ++ u8 (orderStateCode o.state) ++ u8 o.attempts
    ++ flagByte o.wordSent ++ optional 3 u24 o.reference ++ optional 1 i8 o.offset
    ++ optional 1 (fun x => u8 (outcomeCode x)) o.lastOutcome ++ optional 1 (fun c : Chan => u8 c.val) o.channel
    ++ optional 7 confirmData o.confirm ++ optional 1 (fun r => u8 (reasonCode r)) o.reason

/-- The reply data of READ_ORDERS (R157): the records in ascending order (DESIGN CHOICE, log 38), each under one presence byte
(DESIGN CHOICE, log 6). -/
def State.ordersData (s : State) : List Byte :=
  fixedRun (fun n => optional 40 orderData (s.order n)) allOrders ++ counted (fun n : OrderNo => u8 n.val) s.isu.acceptance

/-- READ_ORDERS as a frame. -/
def State.takeReadOrders (s : State) (h : Header) : State := s.takeFrame h 0x0B true 3 (fun _ s => .ok (s, s.ordersData))

/-- READ_ORDERS (R157). -/
def execReadOrders (h : Header) (s : State) : Result := .next (s.takeReadOrders h)

/-! ## READ_BASELINE (R173) -/

/-- The running operation: an erase's block, then a commit's pair, first index, number staged and number programmed (R173), the
block and the commit's fields each under a presence byte (DESIGN CHOICE, log 6), the two numbers one byte each, as in the store
report (DESIGN CHOICE, log 35). -/
def runningData (op : StoreOp) : List Byte :=
  u8 (storeStateCode op)
    ++ optional 1 (fun b : Fin 32 => u8 b.val) (match op with | .erasing b => some b | _ => none)
    ++ optional 5 (fun j : CommitJob => u8 j.pair.val ++ u16 j.first.val ++ u8 j.staged ++ u8 j.written.length)
         (match op with | .programming j => some j | _ => none)

/-- One index of the IMAGE view (R173). -/
def State.imageData (s : State) (p : Pair) (i : Index) : List Byte :=
  u8 (imageStatusCode (s.baseline p i)) ++ optional 2 i16 ((s.baseline p i).map Baseline.gain)
    ++ optional 1 (fun b : Byte => [b]) ((s.baseline p i).map Baseline.address)
    ++ optional 1 (fun b : Byte => [b]) ((s.entry i).map Entry.address) ++ flagByte (s.appliedBaseline i p).isSome

/-- Is a slot's block being erased (R173)? -/
def State.slotErasing (s : State) (slot : Nat) : Bool :=
  match s.bst.op with
  | .erasing block => slot / 256 == block.val
  | .idle | .programming _ | .loading => false

/-- The slot state code, ERASING among them (R173, R197). -/
def State.slotCode (s : State) (slot : Nat) : Nat :=
  if s.slotErasing slot then 3
  else
    match slotState s.bst.store slot with
    | .blank => 0
    | .holding => 1
    | .torn => 2

/-- One slot of the STORE view (R173). What a HOLDING slot holds stands under one presence byte (DESIGN CHOICE, log 35). -/
def State.slotData (s : State) (slot : Nat) : List Byte :=
  u8 (s.slotCode slot) ++ optional 6 (fun n => (slotBytes s.bst.store n).drop 1 |>.take 6)
    (if s.slotCode slot = 1 then some slot else none)

/-- One index of READ_BASELINE in the view asked for; view 0 is IMAGE and 1 STORE (R173). -/
def State.baselineData (s : State) (p : Pair) (view : Byte) (i : Index) : List Byte :=
  if view = 0 then s.imageData p i else s.slotData (storeSlot p i)

/-- The last-operation record, or absent (R165, R173): the store report's seven bytes (R195) under one presence byte (DESIGN
CHOICE, log 35). -/
def lastOpData (x : Option LastOp) : List Byte := optional 7 (fun y => storeReportBody (some y)) x

/-- READ_BASELINE at the store (R173). -/
def answerReadBaseline (pair : Byte) (first : BitVec 16) (count view : Byte) (_ : Asker) (s : State) : Answer :=
  match inRange 16 pair.toNat, inRange 272 first.toNat with
  | some p, some f =>
    .ok (s, runningData s.bst.op ++ lastOpData s.bst.lastOp
      ++ counted (s.baselineData p view) (indexRun f.val (f.val + clampNat 1 32 count.toNat - 1)))
  | _, _ => .error .range

/-- READ_BASELINE as a frame; a view code outside its table is MALFORMED (R193). -/
def State.takeReadBaseline (s : State) (h : Header) (pair : Byte) (first : BitVec 16) (count view : Byte) : State :=
  s.takeFrame h 0x0C (isFlag view) 3 (answerReadBaseline pair first count view)

/-- READ_BASELINE (R173). -/
def execReadBaseline (h : Header) (pair : Byte) (first : BitVec 16) (count view : Byte) (s : State) : Result :=
  .next (s.takeReadBaseline h pair first count view)

end Sys2Proof.Machine
end

