-- ==== Sys2Proof/Machine/Resets.lean ====
section
/-! DEFINITION. The resets: cold (R21, R39, R59, R61, R72, R101, R125, R158, R171, R191), warm (R22 and the same rules), what a
reset leaves of a running store operation (R172), and the end of the cold load. -/

namespace Sys2Proof.Machine

/-! ## What a reset leaves of the store (R172) -/

/-- The store's bytes after a reset: an erase is finished by the store on its own, and a slot being programmed is TORN, its
opening mark alone programmed (R172, R198; log 14). -/
def BaselineStore.cellsAfterReset (b : BaselineStore) : List Host.Cell :=
  match b.op with
  | .erasing block => erasedStore b.store block
  | .idle | .programming _ | .loading => b.store

/-- The image statuses recomputed at a warm reset for the records an interrupted operation reached (R172). -/
def State.recoverStatuses (s : State) : State :=
  match s.bst.op with
  | .erasing block => s.unstoreBlock block
  | .programming job => job.written.foldl (fun s x => s.settleProgrammed job.pair x) s
  | .idle | .loading => s

/-! ## Cold reset -/

/-- A cold reset with its cause, the rate strap as read, and the break flags it leaves: every block at its cold values, the
baseline load begun (R191). The queue of waiting commands and the count of free values are the model's own. -/
def State.coldReset (s : State) (cause : ResetCause) (strap : LineRate) (lineAtSpace breakSpent : Bool) : State :=
  { lpt := .cold, pch := .cold, ecr := .cold, fga := .afterReset 5000, cen := .afterReset, flo := .cold, isu := .cold,
    bst := .loading s.bst.cellsAfterReset, clk := .cold cause strap lineAtSpace breakSpent, pending := s.pending,
    freeCount := s.freeCount }

/-- POWER_ON: a cold reset with cause POWER_ON (R191); the line is taken to be at mark (log 13). -/
def execPowerOn (strap : LineRate) (s : State) : Result := .next (s.coldReset .powerOn strap false false)

/-! ## Warm reset -/

/-- A record at a warm reset: an ISOLATING one takes UNRESOLVED with its changed mark set (R22). -/
def warmRecord (r : AmpRecord) : AmpRecord :=
  if r.condition = .isolating then { r with condition := .unresolved, changed := true } else r

/-- Contents of a sparse memory mapped one by one. -/
def tableMap {α : Type} (f : α → α) (t : Table α) : Table α := t.map (fun c => (c.1, f c.2))

/-- The Line Plant Table at a warm reset: order marks clear, ISOLATING records UNRESOLVED, assembly lists empty (R22). -/
def Plant.warm (x : Plant) : Plant :=
  { x with entries := tableMap (Option.map (fun e => { e with mark := false })) x.entries,
           records := tableMap warmRecord x.records, assembly := Vector.replicate 8 [] }

/-- The Probe Channels at a warm reset: channels DISCONNECTED, DARK marks clear, enable marks and ceilings kept (R39). -/
def Switch.warm (x : Switch) : Switch :=
  { x with channels := Vector.replicate 4 {}, dark := Vector.replicate 16 false }

/-- The Echo Correlator at a warm reset: no extent, the floor kept (R59; the cells: log 9). -/
def Correlator.warm (x : Correlator) : Correlator := { x with cells := [], extents := [] }

/-- The Frame Clock and Grant Arbiter at a warm reset: the interval is the last value taken (R61, R72). -/
def Arbiter.warm (x : Arbiter) : Arbiter := .afterReset (x.pendingInterval.getD x.interval)

/-- The Fault Locator at a warm reset: thresholds kept, LINE_DARK marks clear (R125). -/
def Locator.warm (x : Locator) : Locator := { x with lineDark := Vector.replicate 16 false }

/-- The Isolation Unit at a warm reset: orders free, gates and settings kept (R127, R135, R158; log 26). -/
def IsolationUnit.warm (x : IsolationUnit) : IsolationUnit :=
  { x with orders := Vector.replicate 8 none, acceptance := [], working := Vector.replicate 4 (Vector.replicate 5 0),
           inverted := Vector.replicate 4 false }

/-- The Baseline Store at a warm reset, the statuses recomputed before: IDLE, nothing staged, no last operation (R172). -/
def BaselineStore.warm (x : BaselineStore) : BaselineStore :=
  { x with store := x.cellsAfterReset, staging := [], op := .idle, lastOp := none }

/-- The Command Link at a warm reset: queues emptied, frame cut off, source levels kept, READY at once (R177, R191). -/
def Link.warm (x : Link) (cause : ResetCause) (strap : LineRate) (lineAtSpace breakSpent : Bool) : Link :=
  { x with assembler := .hunting, replies := [], reports := [], transmitter := .idle, ready := true, part := .ready,
           lastReset := (.warm, cause), pendingReset := none, rate := strap, lineAtSpace := lineAtSpace,
           breakSpent := breakSpent }

/-- The blocks at a warm reset, the image statuses recomputed before and the origins queued after (R191). -/
def State.warmBlocks (s : State) (cause : ResetCause) (strap : LineRate) (lineAtSpace breakSpent : Bool) : State :=
  { lpt := s.lpt.warm, pch := s.pch.warm, ecr := s.ecr.warm, fga := s.fga.warm, cen := .afterReset, flo := s.flo.warm,
    isu := s.isu.warm, bst := s.bst.warm, clk := s.clk.warm cause strap lineAtSpace breakSpent, pending := s.pending,
    freeCount := s.freeCount }

/-- The pairs that hold a changed mark, as origins (R22). -/
def State.markedPairs (s : State) : List Origin := (allPairs.filter (fun p => s.pairMarked p)).map Origin.pair

/-- After a warm reset the system origin and the origins of pairs with changed marks are queued, the system's before the pairs'
or after them (R22, R191): FREE VALUE, log 3. -/
def State.queueAfterWarm (s : State) : State :=
  if s.markedPairs = [] then s.setReports [.system]
  else if Config.pairsBeforeSystem s.freeCount then s.takeFree.setReports (s.markedPairs ++ [.system])
  else s.takeFree.setReports (.system :: s.markedPairs)

/-- A warm reset; during STARTING it is carried out as a cold one (R171, R190, R191). -/
def State.warmReset (s : State) (cause : ResetCause) (strap : LineRate) (lineAtSpace breakSpent : Bool) : State :=
  match s.clk.part with
  | .starting => s.coldReset cause strap lineAtSpace breakSpent
  | .ready => (s.recoverStatuses.warmBlocks cause strap lineAtSpace breakSpent).queueAfterWarm.concludeEvent

/-- BREAK_RESET: the break reaches 200 ms and makes its one reset, warm, with cause BREAK (R190). No break in progress, or one
that has made its reset: nothing is due (log 1). -/
def execBreakReset (strap : LineRate) (s : State) : Result :=
  if s.clk.lineAtSpace ∧ s.clk.breakSpent = false then .next (s.warmReset .lineBreak strap true true) else .next s

/-- The reset that a RESET request made pending takes effect with cause REQUEST (R189). -/
def State.requestedReset (s : State) (kind : ResetKind) (strap : LineRate) : State :=
  match kind with
  | .cold => s.coldReset .request strap s.clk.lineAtSpace s.clk.breakSpent
  | .warm => s.warmReset .request strap s.clk.lineAtSpace s.clk.breakSpent

/-! ## RESET (R189) -/

/-- The kind byte of RESET. -/
def resetRequestKind : Byte := 0x5F

/-- RESET at the link: the named reset becomes pending (R189). -/
def answerReset (which : Byte) (_ : Asker) (s : State) : Answer :=
  .ok (s.setPendingReset (if which = 0 then .cold else .warm), [])

/-- RESET as a frame; any body but COLD or WARM is MALFORMED (R189). -/
def State.takeReset (s : State) (h : Header) (which : Byte) : State :=
  s.takeFrame h resetRequestKind (isFlag which) 0 (answerReset which)

/-- RESET (R189). -/
def execReset (h : Header) (which : Byte) (s : State) : Result := .next (s.takeReset h which)

/-! ## TRANSMISSION_END (R185) -/

/-- Is the frame the ACCEPTED reply of a RESET request (R189)? -/
def isResetReply (f : LinkFrame) : Bool := f.kind == kindAccepted && f.body.head? == some resetRequestKind

/-- A sent reply leaves the head of the reply queue (R181, R185). -/
def State.replySent (s : State) : State := s.setReplies (s.clk.replies.drop 1)

/-- TRANSMISSION_END: a sent reply leaves the queue; the end of the RESET reply brings the pending reset; otherwise the
transmitter chooses its next frame (R185, R189). With the transmitter idle nothing is due (log 1). -/
def execTransmissionEnd (strap : LineRate) (s : State) : Result :=
  match s.clk.transmitter with
  | .idle => .next s
  | .report _ => .next s.chooseNext
  | .reply f =>
    match isResetReply f, s.clk.pendingReset with
    | true, some kind => .next (s.replySent.requestedReset kind strap)
    | _, _ => .next s.replySent.chooseNext

/-! ## COLD_LOAD_END (R171) -/

/-- The part READY (R191). -/
def State.enterReady (s : State) : State := { s with clk := { s.clk with part := .ready } }

/-- COLD_LOAD_END: the image is loaded, the store IDLE, the part READY, the system origin queued (R171, R191). With no load
running nothing is due (log 1). -/
def execColdLoadEnd (s : State) : Result :=
  match s.clk.part, s.bst.op with
  | .starting, .loading => .next ((s.loadImage.setStoreOp .idle).enterReady.queueOrigin .system).concludeEvent
  | _, _ => .next s

end Sys2Proof.Machine
end

