-- ==== Sys2Proof/Machine/Frames.lean ====
section
/-! DEFINITION. The bodies of requests as bytes (R192 to R194): read from a frame, written into one, and the request of a
complete frame taken (R176, R179). -/

namespace Sys2Proof.Machine

/-! ## Writing a request -/

/-- A field of two bytes, most significant first (R193). -/
def bytes16 (x : BitVec 16) : List Byte := [x.extractLsb' 8 8, x.extractLsb' 0 8]

/-- A field of three bytes, most significant first (R193). -/
def bytes24 (x : BitVec 24) : List Byte := [x.extractLsb' 16 8, x.extractLsb' 8 8, x.extractLsb' 0 8]

/-- The two bytes of a reference (R194). -/
def refBytes (r : Reference) : List Byte := [r.kind, r.number]

/-- The six bytes of a path element in a request (R194). -/
def elementBytes (e : SentElement) : List Byte := refBytes e.reference ++ bytes24 e.delay ++ [e.tag]

/-- The eleven bytes START and SCHEDULE share (R194). -/
def campaignBytes (r : CampaignRequest) : List Byte :=
  [r.kind, r.pair, r.first, r.last, r.exponent, r.chip, r.sequence] ++ bytes16 r.level ++ [r.reference, r.autoLocate]

/-- The nine bytes of a gate's fields (R194). -/
def gateBytes (g : GateRequest) : List Byte :=
  [g.action] ++ bytes16 g.first ++ bytes16 g.last ++ bytes16 g.mask ++ [g.level, g.exponent]

/-- A request as a frame carries it: its header, its kind byte and its body. -/
structure SentFrame where
  header : Header
  kind : Byte
  body : List Byte
  deriving DecidableEq, Repr

/-- The frame of a request, by the table of R194; an event has none. -/
def requestFrame : Instr → Option SentFrame
  | .status h => some ⟨h, 0x01, []⟩
  | .readEntry h ref => some ⟨h, 0x02, refBytes ref⟩
  | .readSpan h span pair => some ⟨h, 0x03, [span, pair]⟩
  | .readPath h pair view first count => some ⟨h, 0x04, [pair, view, first, count]⟩
  | .readChannels h => some ⟨h, 0x05, []⟩
  | .readExtents h => some ⟨h, 0x06, []⟩
  | .readGrants h => some ⟨h, 0x07, []⟩
  | .readCampaign h slot => some ⟨h, 0x08, [slot]⟩
  | .readResults h slot first count => some ⟨h, 0x09, [slot, first, count]⟩
  | .readGates h => some ⟨h, 0x0A, []⟩
  | .readOrders h => some ⟨h, 0x0B, []⟩
  | .readBaseline h pair first count view => some ⟨h, 0x0C, [pair] ++ bytes16 first ++ [count, view]⟩
  | .selectSpan h span => some ⟨h, 0x10, [span]⟩
  | .setSourceLevel h source level => some ⟨h, 0x11, [source, level]⟩
  | .start h r => some ⟨h, 0x20, campaignBytes r⟩
  | .schedule h r period parity => some ⟨h, 0x21, campaignBytes r ++ bytes16 period ++ [parity]⟩
  | .abort h slot => some ⟨h, 0x22, [slot]⟩
  | .release h slot => some ⟨h, 0x23, [slot]⟩
  | .isolate h gate ref pair argument force => some ⟨h, 0x28, [gate] ++ refBytes ref ++ [pair, argument, force]⟩
  | .withdrawOrder h order => some ⟨h, 0x29, [order]⟩
  | .adopt h slot => some ⟨h, 0x30, [slot]⟩
  | .dropBaseline h pair first last => some ⟨h, 0x31, [pair] ++ bytes16 first ++ bytes16 last⟩
  | .commit h pair first count => some ⟨h, 0x32, [pair] ++ bytes16 first ++ [count]⟩
  | .clearCondition h ref pair => some ⟨h, 0x33, refBytes ref ++ [pair]⟩
  | .defineEntry h ref kind address spare route => some ⟨h, 0x40, refBytes ref ++ [kind, address, spare, route]⟩
  | .dropEntry h ref => some ⟨h, 0x41, refBytes ref⟩
  | .pathAppend h restart elements =>
    some ⟨h, 0x42, [restart] ++ [BitVec.ofNat 8 elements.length] ++ elements.flatMap elementBytes⟩
  | .setPath h pair => some ⟨h, 0x43, [pair]⟩
  | .setCrosspoint h channel pair mark => some ⟨h, 0x48, [channel, pair, mark]⟩
  | .setCeiling h pair ceiling => some ⟨h, 0x49, [pair] ++ bytes16 ceiling⟩
  | .setOrderSettings h chip sequence limit => some ⟨h, 0x4A, [chip, sequence, limit]⟩
  | .setTiming h change interval => some ⟨h, 0x4B, [change] ++ bytes16 interval⟩
  | .setThresholds h floor tStep tDrift => some ⟨h, 0x4C, bytes16 floor ++ bytes16 tStep ++ bytes16 tDrift⟩
  | .defineGate h gate g => some ⟨h, 0x50, [gate] ++ gateBytes g⟩
  | .dropGate h gate => some ⟨h, 0x51, [gate]⟩
  | .eraseBlock h block => some ⟨h, 0x58, [block]⟩
  | .reset h which => some ⟨h, 0x5F, [which]⟩
  | .unknownKindRequest h kind => if isRequestKind kind then none else some ⟨h, kind, []⟩
  | .powerOn _ | .characterReceived _ | .framingError | .lineBreak | .breakReset _ | .interCharacterGap
  | .transmissionEnd _ | .coldLoadEnd | .eraseEnd | .slotProgrammed | .boundary | .periodicDue _ | .settleEnd _
  | .primingPeriodEnd _ | .coastingPeriodStart _ | .slicePeriodEnd _ _ _ | .referencePeriodEnd _ _ | .wordPeriodEnd _
  | .listeningPeriodEnd _ _ | .lineReturnsToMark => none

/-- The counted bytes of a request frame: source and acting level, tag, kind, body (R192). -/
def sentCounted (f : SentFrame) : List Byte := (f.header.source ++ f.header.acting) :: f.header.tag :: f.kind :: f.body

/-- The bytes of a request frame on the line, from the sync byte to the last CRC byte (R192). -/
def sentBytes (f : SentFrame) : List Byte :=
  syncByte :: (u16 (sentCounted f).length ++ sentCounted f ++ bytes16 (crc16 (u16 (sentCounted f).length ++ sentCounted f)))

/-! ## Reading a request -/

/-- The path elements of a body: six bytes each; nothing where bytes are left over (R194). -/
def readElements : List Byte → Option (List SentElement)
  | [] => some []
  | b1 :: b2 :: b3 :: b4 :: b5 :: b6 :: rest =>
    match readElements rest with
    | some l => some (⟨⟨b1, b2⟩, join24 b3 b4 b5, b6⟩ :: l)
    | none => none
  | _ => none

/-- The PATH_APPEND of a body: the restart flag, a count, and that number of elements (R194). -/
def readAppend (h : Header) : List Byte → Option Instr
  | restart :: count :: rest =>
    match readElements rest with
    | some l => if l.length = count.toNat then some (.pathAppend h restart l) else none
    | none => none
  | _ => none

/-- The request of a kind byte and a body, queries (R194); nothing for another length. -/
def readQuery (h : Header) (kind : Nat) (body : List Byte) : Option Instr :=
  match kind with
  | 0x01 =>
    match body with
    | [] => some (.status h)
    | _ => none
  | 0x02 =>
    match body with
    | [b1, b2] => some (.readEntry h ⟨b1, b2⟩)
    | _ => none
  | 0x03 =>
    match body with
    | [b1, b2] => some (.readSpan h b1 b2)
    | _ => none
  | 0x04 =>
    match body with
    | [b1, b2, b3, b4] => some (.readPath h b1 b2 b3 b4)
    | _ => none
  | 0x05 =>
    match body with
    | [] => some (.readChannels h)
    | _ => none
  | 0x06 =>
    match body with
    | [] => some (.readExtents h)
    | _ => none
  | 0x07 =>
    match body with
    | [] => some (.readGrants h)
    | _ => none
  | 0x08 =>
    match body with
    | [b1] => some (.readCampaign h b1)
    | _ => none
  | 0x09 =>
    match body with
    | [b1, b2, b3] => some (.readResults h b1 b2 b3)
    | _ => none
  | 0x0A =>
    match body with
    | [] => some (.readGates h)
    | _ => none
  | 0x0B =>
    match body with
    | [] => some (.readOrders h)
    | _ => none
  | 0x0C =>
    match body with
    | [b1, b2, b3, b4, b5] => some (.readBaseline h b1 (join16 b2 b3) b4 b5)
    | _ => none
  | _ => none

/-- The request of a kind byte and a body, requests 0x10 to 0x23 (R194); nothing for another length. -/
def readLink (h : Header) (kind : Nat) (body : List Byte) : Option Instr :=
  match kind with
  | 0x10 =>
    match body with
    | [b1] => some (.selectSpan h b1)
    | _ => none
  | 0x11 =>
    match body with
    | [b1, b2] => some (.setSourceLevel h b1 b2)
    | _ => none
  | 0x20 =>
    match body with
    | [b1, b2, b3, b4, b5, b6, b7, b8, b9, b10, b11] =>
      some (.start h ⟨b1, b2, b3, b4, b5, b6, b7, join16 b8 b9, b10, b11⟩)
    | _ => none
  | 0x21 =>
    match body with
    | [b1, b2, b3, b4, b5, b6, b7, b8, b9, b10, b11, b12, b13, b14] =>
      some (.schedule h ⟨b1, b2, b3, b4, b5, b6, b7, join16 b8 b9, b10, b11⟩ (join16 b12 b13) b14)
    | _ => none
  | 0x22 =>
    match body with
    | [b1] => some (.abort h b1)
    | _ => none
  | 0x23 =>
    match body with
    | [b1] => some (.release h b1)
    | _ => none
  | _ => none

/-- The request of a kind byte and a body, requests 0x28 to 0x33 (R194); nothing for another length. -/
def readOrder (h : Header) (kind : Nat) (body : List Byte) : Option Instr :=
  match kind with
  | 0x28 =>
    match body with
    | [b1, b2, b3, b4, b5, b6] => some (.isolate h b1 ⟨b2, b3⟩ b4 b5 b6)
    | _ => none
  | 0x29 =>
    match body with
    | [b1] => some (.withdrawOrder h b1)
    | _ => none
  | 0x30 =>
    match body with
    | [b1] => some (.adopt h b1)
    | _ => none
  | 0x31 =>
    match body with
    | [b1, b2, b3, b4, b5] => some (.dropBaseline h b1 (join16 b2 b3) (join16 b4 b5))
    | _ => none
  | 0x32 =>
    match body with
    | [b1, b2, b3, b4] => some (.commit h b1 (join16 b2 b3) b4)
    | _ => none
  | 0x33 =>
    match body with
    | [b1, b2, b3] => some (.clearCondition h ⟨b1, b2⟩ b3)
    | _ => none
  | _ => none

/-- The request of a kind byte and a body, requests 0x40 to 0x5F (R194); nothing for another length. -/
def readPlant (h : Header) (kind : Nat) (body : List Byte) : Option Instr :=
  match kind with
  | 0x40 =>
    match body with
    | [b1, b2, b3, b4, b5, b6] => some (.defineEntry h ⟨b1, b2⟩ b3 b4 b5 b6)
    | _ => none
  | 0x41 =>
    match body with
    | [b1, b2] => some (.dropEntry h ⟨b1, b2⟩)
    | _ => none
  | 0x42 => readAppend h body
  | 0x43 =>
    match body with
    | [b1] => some (.setPath h b1)
    | _ => none
  | 0x48 =>
    match body with
    | [b1, b2, b3] => some (.setCrosspoint h b1 b2 b3)
    | _ => none
  | 0x49 =>
    match body with
    | [b1, b2, b3] => some (.setCeiling h b1 (join16 b2 b3))
    | _ => none
  | 0x4A =>
    match body with
    | [b1, b2, b3] => some (.setOrderSettings h b1 b2 b3)
    | _ => none
  | 0x4B =>
    match body with
    | [b1, b2, b3] => some (.setTiming h b1 (join16 b2 b3))
    | _ => none
  | 0x4C =>
    match body with
    | [b1, b2, b3, b4, b5, b6] => some (.setThresholds h (join16 b1 b2) (join16 b3 b4) (join16 b5 b6))
    | _ => none
  | 0x50 =>
    match body with
    | [b1, b2, b3, b4, b5, b6, b7, b8, b9, b10] =>
      some (.defineGate h b1 ⟨b2, join16 b3 b4, join16 b5 b6, join16 b7 b8, b9, b10⟩)
    | _ => none
  | 0x51 =>
    match body with
    | [b1] => some (.dropGate h b1)
    | _ => none
  | 0x58 =>
    match body with
    | [b1] => some (.eraseBlock h b1)
    | _ => none
  | 0x5F =>
    match body with
    | [b1] => some (.reset h b1)
    | _ => none
  | _ => none

/-- The request a kind byte and a body make, or nothing where the kind is unknown or the body has the wrong length (R194). -/
def readRequest (h : Header) (kind : Byte) (body : List Byte) : Option Instr :=
  if kind.toNat < 0x10 then readQuery h kind.toNat body
  else if kind.toNat < 0x28 then readLink h kind.toNat body
  else if kind.toNat < 0x40 then readOrder h kind.toNat body
  else readPlant h kind.toNat body

/-! ## Taking a complete frame (R176, R179) -/

/-- The request of a command taken; an event takes none. -/
def State.takeRequest (s : State) : Instr → State
  | .status h => s.takeStatus h
  | .readEntry h ref => s.takeReadEntry h ref
  | .readSpan h span pair => s.takeReadSpan h span pair
  | .readPath h pair view first count => s.takeReadPath h pair view first count
  | .readChannels h => s.takeReadChannels h
  | .readExtents h => s.takeReadExtents h
  | .readGrants h => s.takeReadGrants h
  | .readCampaign h slot => s.takeReadCampaign h slot
  | .readResults h slot first count => s.takeReadResults h slot first count
  | .readGates h => s.takeReadGates h
  | .readOrders h => s.takeReadOrders h
  | .readBaseline h pair first count view => s.takeReadBaseline h pair first count view
  | .selectSpan h span => s.takeSelectSpan h span
  | .setSourceLevel h source level => s.takeSetSourceLevel h source level
  | .start h r => s.takeStart h r
  | .schedule h r period parity => s.takeSchedule h r period parity
  | .abort h slot => s.takeAbort h slot
  | .release h slot => s.takeRelease h slot
  | .isolate h gate ref pair argument force => s.takeIsolate h gate ref pair argument force
  | .withdrawOrder h order => s.takeWithdrawOrder h order
  | .adopt h slot => s.takeAdopt h slot
  | .dropBaseline h pair first last => s.takeDropBaseline h pair first last
  | .commit h pair first count => s.takeCommit h pair first count
  | .clearCondition h ref pair => s.takeClearCondition h ref pair
  | .defineEntry h ref kind address spare route => s.takeDefineEntry h ref kind address spare route
  | .dropEntry h ref => s.takeDropEntry h ref
  | .pathAppend h restart elements => s.takePathAppend h restart elements
  | .setPath h pair => s.takeSetPath h pair
  | .setCrosspoint h channel pair mark => s.takeSetCrosspoint h channel pair mark
  | .setCeiling h pair ceiling => s.takeSetCeiling h pair ceiling
  | .setOrderSettings h chip sequence limit => s.takeSetOrderSettings h chip sequence limit
  | .setTiming h change interval => s.takeSetTiming h change interval
  | .setThresholds h floor tStep tDrift => s.takeSetThresholds h floor tStep tDrift
  | .defineGate h gate g => s.takeDefineGate h gate g
  | .dropGate h gate => s.takeDropGate h gate
  | .eraseBlock h block => s.takeEraseBlock h block
  | .reset h which => s.takeReset h which
  | .unknownKindRequest h kind => s.takeUnknown h kind
  | .powerOn _ | .characterReceived _ | .framingError | .lineBreak | .breakReset _ | .interCharacterGap
  | .transmissionEnd _ | .coldLoadEnd | .eraseEnd | .slotProgrammed | .boundary | .periodicDue _ | .settleEnd _
  | .primingPeriodEnd _ | .coastingPeriodStart _ | .slicePeriodEnd _ _ _ | .referencePeriodEnd _ _ | .wordPeriodEnd _
  | .listeningPeriodEnd _ _ | .lineReturnsToMark => s

/-- A complete frame taken: a request of its kind, MALFORMED for a wrong length, UNKNOWN_KIND for a kind that is no request
(R179). -/
def State.takeComplete (s : State) (h : Header) (kind : Byte) (body : List Byte) : State :=
  match readRequest h kind body with
  | some i => s.takeRequest i
  | none => if isRequestKind kind then s.takeMisshapen h kind else s.takeUnknown h kind

/-- The counted bytes of a complete frame taken: source field, acting level field, tag, kind, body (R176). -/
def State.takeCounted (s : State) : List Byte → State
  | b :: tag :: kind :: body => s.takeComplete ⟨b.extractLsb' 4 4, b.extractLsb' 0 4, tag⟩ kind body
  | _ => s

end Sys2Proof.Machine
end

