-- ==== Sys2Proof/Machine/LinkEvents.lean ====
section
/-! DEFINITION. What happens on the serial line: characters and the receive assembler (R174, R175), framing errors, breaks and
gaps. -/

namespace Sys2Proof.Machine

/-! ## The receive assembler (R175) -/

/-- A frame whose last CRC byte has arrived, from its length bytes on: taken if the CRC agrees, discarded if not (R175). -/
def State.frameArrived (s : State) (length : Nat) (got : List Byte) : State :=
  match got.drop (length + 2) with
  | [high, low] =>
    if crc16 (got.take (length + 2)) = join16 high low then s.takeCounted ((got.take (length + 2)).drop 2) else s
  | _ => s

/-- The assembler after its two length bytes: CONTENT for a length of 3..515, else HUNTING (R175). -/
def afterLength (high low : Byte) : Assembler :=
  if 3 ≤ (join16 high low).toNat ∧ (join16 high low).toNat ≤ 515 then .content (join16 high low).toNat [high, low]
  else .hunting

/-- One received byte moves the assembler (R175). -/
def State.assemble (s : State) (b : Byte) : State :=
  match s.clk.assembler with
  | .hunting => if b = syncByte then s.setAssembler (.length []) else s
  | .length [] => s.setAssembler (.length [b])
  | .length (high :: _) => s.setAssembler (afterLength high b)
  | .content length got =>
    if got.length + 1 < length + 4 then s.setAssembler (.content length (got ++ [b]))
    else (s.setAssembler .hunting).frameArrived length (got ++ [b])

/-- CHARACTER_RECEIVED: the receiver takes no byte while a break lasts (R174, R175). -/
def execCharacterReceived (b : Byte) (s : State) : Result :=
  if s.clk.lineAtSpace then .next s else .next (s.assemble b)

/-- FRAMING_ERROR: it ends any frame being assembled (R174). -/
def execFramingError (s : State) : Result := .next (s.setAssembler .hunting)

/-- INTER_CHARACTER_GAP: more than 20 ms in LENGTH or CONTENT discards the frame; in HUNTING no gap is measured (R175). -/
def execInterCharacterGap (s : State) : Result :=
  match s.clk.assembler with
  | .hunting => .next s
  | .length _ | .content _ _ => .next (s.setAssembler .hunting)

/-! ## Breaks (R174, R190) -/

/-- The state with the break flags replaced. -/
def State.setBreak (s : State) (lineAtSpace breakSpent : Bool) : State :=
  { s with clk := { s.clk with lineAtSpace := lineAtSpace, breakSpent := breakSpent } }

/-- BREAK: the line has been at space for longer than one character; a partial frame is discarded (R174). A break already in
progress is the same break (R190; log 1). -/
def execLineBreak (s : State) : Result :=
  if s.clk.lineAtSpace then .next s else .next ((s.setAssembler .hunting).setBreak true false)

/-- LINE_RETURNS_TO_MARK: the break is over, and a later one may reset the part again (R174, R190). -/
def execLineReturnsToMark (s : State) : Result := .next (s.setBreak false false)

end Sys2Proof.Machine
end

