-- ==== Sys2Proof/Machine/Periods.lean ====
section
/-! DEFINITION. What happens on a channel (R23, R33 to R37): the end of a settle and of a priming period, the period start of a
coasting probe, and the ends of slice, reference, word and listening periods. -/

namespace Sys2Proof.Machine

/-! ## Lead-in -/

/-- The channel begins PRIMING with its holder's signature (R24, R33). -/
def State.beginPriming (s : State) (c : Chan) (h : Holder) : State :=
  s.setChannel c { s.channel c with state := .priming, probe := s.holderSignature h }

/-- SETTLE_END: the settle of 50 ms is over (R24, R33). A channel that is not SETTLING has no settle to end (log 1). -/
def execSettleEnd (c : Fin 4) (s : State) : Result :=
  match (s.channel c).state, (s.channel c).holder with
  | .settling, some h => .next (s.beginPriming c h).concludeEvent
  | _, _ => .next s

/-- The channel enters PERIODS (R33); the period before the first was upright (R138). -/
def State.beginPeriods (s : State) (c : Chan) : State :=
  (s.setChannel c { s.channel c with state := .periods }).setInverted c false

/-- The must-prime mark of a slice's campaign is cleared at the end of its priming period (R48). -/
def State.clearMustPrime (s : State) : Holder → State
  | .slice n _ _ => s.setCampaign n { s.campaign n with mustPrime := false }
  | .order _ => s

/-- PRIMING_PERIOD_END: the priming period is discarded and the channel enters PERIODS (R33, R48). A channel that is not PRIMING
has none to end (log 1). -/
def execPrimingPeriodEnd (c : Fin 4) (s : State) : Result :=
  match (s.channel c).state, (s.channel c).holder with
  | .priming, some h => .next ((s.beginPeriods c).clearMustPrime h).concludeEvent
  | _, _ => .next s

/-- COASTING_PERIOD_START: a granted holder whose signature the coasting probe already drives begins its periods at the next
period start (R33; log 4). Without such a holder nothing is due (log 1). -/
def execCoastingPeriodStart (c : Fin 4) (s : State) : Result :=
  match (s.channel c).state, (s.channel c).holder with
  | .coasting, some _ => .next (s.beginPeriods c).concludeEvent
  | _, _ => .next s

/-! ## Slice periods (R36, R37, R47) -/

/-- A period of a slice accepted or discarded by its presence (R36). -/
def State.takePeriod (s : State) (n : Slot) (present : Bool) (samples : List Sample) : State :=
  if present then s.acceptPeriod n samples else s

/-- The dark-slice count after a slice that took all its periods (R37). -/
def State.judgeSlice (s : State) (n : Slot) (lit : Bool) : State :=
  s.setCampaign n { s.campaign n with darkCount := if lit then 0 else (s.campaign n).darkCount + 1 }

/-- What follows a slice's last period: the measurement end when the count has reached M (R47, R88), or the failure of the
chain with DARK at the third dark slice in a row (R37, R91). -/
def State.afterSlice (s : State) (n : Slot) : State :=
  let c := s.campaign n
  if c.periods ≤ c.accepted then s.measurementEnd n
  else if 3 ≤ c.darkCount then (s.markDark c.pair).failChain c.pair .dark
  else s

/-- A period of a slice ends (R34 to R37, R47). -/
def State.slicePeriod (s : State) (c : Chan) (n : Slot) (remaining : Nat) (lit present : Bool) (samples : List Sample) :
    State :=
  let s := s.takePeriod n present samples
  if remaining ≤ 1 ∨ (s.campaign n).periods ≤ (s.campaign n).accepted then
    ((s.coast c).judgeSlice n (lit || present)).afterSlice n
  else s.setChannel c { s.channel c with holder := some (.slice n (remaining - 1) (lit || present)) }

/-- SLICE_PERIOD_END: only a channel in PERIODS with a slice as its holder has such a period (log 1), and it is L samples long
(R35; log 22). -/
def execSlicePeriodEnd (c : Fin 4) (present : Bool) (samples : List Sample) (s : State) : Result :=
  match (s.channel c).state, (s.channel c).holder with
  | .periods, some (.slice n remaining lit) =>
    if samples.length = sequenceLength (s.campaign n).requested.sequence then
      .next (s.slicePeriod c n remaining lit present samples).concludeEvent
    else .refused .samplesAreNotOnePeriod
  | _, _ => .next s

/-! ## Burst periods -/

/-- The order whose burst takes periods on a channel (R35). -/
def State.burstOn (s : State) (c : Chan) : Option (OrderNo × Order) :=
  match (s.channel c).state, (s.channel c).holder with
  | .periods, some (.order n) => (s.order n).map (fun o => (n, o))
  | _, _ => none

/-- The reference measured from a channel's working cells after the fourth period (R137). -/
def State.measuredReference (s : State) (c : Chan) (o : Order) : Order :=
  let k := peakOffset (s.workingCell c)
  { o with phase := 4, reference := some (amplitude (s.workingCell c k) 4 (sequenceLength o.sequence)), offset := some k }

/-- After the reference: SENDING, or NO_REFERENCE where it lies below the floor (R137, R145, R147). -/
def State.judgeReference (s : State) (c : Chan) (n : OrderNo) (o : Order) : State :=
  if o.reference.getD 0 < s.ecr.floor then
    ((s.setOrder n (some { o with channel := none })).endBurst c o.pair).failOrder n o .noReference o.conditionIfUnheard
  else s.setOrder n (some o.sending)

/-- A reference period ends (R137, R138). -/
def State.referencePeriod (s : State) (c : Chan) (n : OrderNo) (o : Order) (samples : List Sample) : State :=
  let s := (s.addReference c o samples).setInverted c false
  if o.phase + 1 < 4 then s.setOrder n (some { o with phase := o.phase + 1 })
  else s.judgeReference c n (s.measuredReference c o)

/-- REFERENCE_PERIOD_END (R137). Without a burst in REFERENCING on the channel nothing is due (log 1). -/
def execReferencePeriodEnd (c : Fin 4) (samples : List Sample) (s : State) : Result :=
  match s.burstOn c with
  | some (n, o) =>
    if o.state ≠ .referencing then .next s
    else if samples.length = sequenceLength o.sequence then .next (s.referencePeriod c n o samples).concludeEvent
    else .refused .samplesAreNotOnePeriod
  | none => .next s

/-- The bit the word period now ending has sent (R139, R140). -/
def sentBit (o : Order) : Bool := (wordBits o).getD o.phase false

/-- A word period ends: its polarity was the bit it sent, and after the 32nd the record listens (R138, R140). -/
def State.wordPeriod (s : State) (c : Chan) (n : OrderNo) (o : Order) : State :=
  (s.setInverted c (sentBit o)).setOrder n
    (some (if o.phase + 1 < 32 then { o with phase := o.phase + 1 } else o.listening))

/-- WORD_PERIOD_END (R140). Without a burst in SENDING on the channel nothing is due (log 1). -/
def execWordPeriodEnd (c : Fin 4) (s : State) : Result :=
  match s.burstOn c with
  | some (n, o) => if o.state = .sending then .next (s.wordPeriod c n o).concludeEvent else .next s
  | none => .next s

/-- The bit a listening period reads: 1 when twice its amplitude at the peak offset is at or above the reference (R142). -/
def State.heardBit (s : State) (c : Chan) (o : Order) (samples : List Sample) : Bool :=
  let sum := isuPeriodSum (probeBits o.sequence) samples o.lag (o.offset.getD 0) false (s.lastInverted c)
  decide (o.reference.getD 0 ≤ 2 * amplitude sum 1 (sequenceLength o.sequence))

/-- A listening period ends; after the 12th the window is decoded (R142). -/
def State.listeningPeriod (s : State) (c : Chan) (n : OrderNo) (o : Order) (samples : List Sample) : State :=
  let o := { o with phase := o.phase + 1, window := o.window ++ [s.heardBit c o samples] }
  let s := s.setInverted c false
  if o.window.length < 12 then s.setOrder n (some o) else s.concludeAttempt n o c (decodeWindow o.window)

/-- LISTENING_PERIOD_END (R142). Without a burst in LISTENING on the channel nothing is due (log 1). -/
def execListeningPeriodEnd (c : Fin 4) (samples : List Sample) (s : State) : Result :=
  match s.burstOn c with
  | some (n, o) =>
    if o.state ≠ .listening then .next s
    else if samples.length = sequenceLength o.sequence then .next (s.listeningPeriod c n o samples).concludeEvent
    else .refused .samplesAreNotOnePeriod
  | none => .next s

end Sys2Proof.Machine
end

