-- ==== Sys2Proof/Machine/Dispatch.lean ====
section
/-! DEFINITION. One arm per command: each calls its meaning. -/

namespace Sys2Proof.Machine

def exec (i : Instr) (s : State) : Host.Outcome State Fault Refusal :=
  match i with
  | .powerOn strap => Sys2Proof.Machine.execPowerOn strap s
  | .characterReceived b => Sys2Proof.Machine.execCharacterReceived b s
  | .framingError => Sys2Proof.Machine.execFramingError s
  | .lineBreak => Sys2Proof.Machine.execLineBreak s
  | .breakReset strap => Sys2Proof.Machine.execBreakReset strap s
  | .interCharacterGap => Sys2Proof.Machine.execInterCharacterGap s
  | .unknownKindRequest h kind => Sys2Proof.Machine.execUnknownKindRequest h kind s
  | .transmissionEnd strap => Sys2Proof.Machine.execTransmissionEnd strap s
  | .coldLoadEnd => Sys2Proof.Machine.execColdLoadEnd s
  | .status h => Sys2Proof.Machine.execStatus h s
  | .readEntry h ref => Sys2Proof.Machine.execReadEntry h ref s
  | .readSpan h span pair => Sys2Proof.Machine.execReadSpan h span pair s
  | .readPath h pair view first count => Sys2Proof.Machine.execReadPath h pair view first count s
  | .readChannels h => Sys2Proof.Machine.execReadChannels h s
  | .readExtents h => Sys2Proof.Machine.execReadExtents h s
  | .readGrants h => Sys2Proof.Machine.execReadGrants h s
  | .readCampaign h slot => Sys2Proof.Machine.execReadCampaign h slot s
  | .readResults h slot first count => Sys2Proof.Machine.execReadResults h slot first count s
  | .readGates h => Sys2Proof.Machine.execReadGates h s
  | .readOrders h => Sys2Proof.Machine.execReadOrders h s
  | .readBaseline h pair first count view => Sys2Proof.Machine.execReadBaseline h pair first count view s
  | .selectSpan h span => Sys2Proof.Machine.execSelectSpan h span s
  | .setSourceLevel h source level => Sys2Proof.Machine.execSetSourceLevel h source level s
  | .start h r => Sys2Proof.Machine.execStart h r s
  | .schedule h r period parity => Sys2Proof.Machine.execSchedule h r period parity s
  | .abort h slot => Sys2Proof.Machine.execAbort h slot s
  | .release h slot => Sys2Proof.Machine.execRelease h slot s
  | .isolate h gate ref pair argument force => Sys2Proof.Machine.execIsolate h gate ref pair argument force s
  | .withdrawOrder h order => Sys2Proof.Machine.execWithdrawOrder h order s
  | .adopt h slot => Sys2Proof.Machine.execAdopt h slot s
  | .dropBaseline h pair first last => Sys2Proof.Machine.execDropBaseline h pair first last s
  | .commit h pair first count => Sys2Proof.Machine.execCommit h pair first count s
  | .clearCondition h ref pair => Sys2Proof.Machine.execClearCondition h ref pair s
  | .defineEntry h ref kind address spare route => Sys2Proof.Machine.execDefineEntry h ref kind address spare route s
  | .dropEntry h ref => Sys2Proof.Machine.execDropEntry h ref s
  | .pathAppend h restart elements => Sys2Proof.Machine.execPathAppend h restart elements s
  | .setPath h pair => Sys2Proof.Machine.execSetPath h pair s
  | .setCrosspoint h channel pair mark => Sys2Proof.Machine.execSetCrosspoint h channel pair mark s
  | .setCeiling h pair ceiling => Sys2Proof.Machine.execSetCeiling h pair ceiling s
  | .setOrderSettings h chip sequence limit => Sys2Proof.Machine.execSetOrderSettings h chip sequence limit s
  | .setTiming h change interval => Sys2Proof.Machine.execSetTiming h change interval s
  | .setThresholds h floor tStep tDrift => Sys2Proof.Machine.execSetThresholds h floor tStep tDrift s
  | .defineGate h gate g => Sys2Proof.Machine.execDefineGate h gate g s
  | .dropGate h gate => Sys2Proof.Machine.execDropGate h gate s
  | .eraseBlock h block => Sys2Proof.Machine.execEraseBlock h block s
  | .reset h which => Sys2Proof.Machine.execReset h which s
  | .eraseEnd => Sys2Proof.Machine.execEraseEnd s
  | .slotProgrammed => Sys2Proof.Machine.execSlotProgrammed s
  | .boundary => Sys2Proof.Machine.execBoundary s
  | .periodicDue slot => Sys2Proof.Machine.execPeriodicDue slot s
  | .settleEnd c => Sys2Proof.Machine.execSettleEnd c s
  | .primingPeriodEnd c => Sys2Proof.Machine.execPrimingPeriodEnd c s
  | .coastingPeriodStart c => Sys2Proof.Machine.execCoastingPeriodStart c s
  | .slicePeriodEnd c present samples => Sys2Proof.Machine.execSlicePeriodEnd c present samples s
  | .referencePeriodEnd c samples => Sys2Proof.Machine.execReferencePeriodEnd c samples s
  | .wordPeriodEnd c => Sys2Proof.Machine.execWordPeriodEnd c s
  | .listeningPeriodEnd c samples => Sys2Proof.Machine.execListeningPeriodEnd c samples s
  | .lineReturnsToMark => Sys2Proof.Machine.execLineReturnsToMark s

end Sys2Proof.Machine
end

