-- ==== Sys2Proof/Safety.lean ====
section
/-! DEFINITION. What the spec says holds at all times, in the terms the statements use: the invariants, when the link takes a
request, and the state after a reply. -/

namespace Sys2Proof.Machine

/-! ## Invariants -/

/-- The five sparse memories stand in their canonical form. -/
def State.memoriesCanonical (s : State) : Prop :=
  Table.wf none s.lpt.entries ∧ Table.wf {} s.lpt.records ∧ Table.wf 0 s.ecr.cells ∧ Table.wf none s.bst.image
    ∧ Table.wf (0xFF : Byte) s.bst.store

/-- The reply queue holds at most 8 replies (R181), the report queue each origin at most once (R183), and the receive-ready
line is asserted exactly while fewer than 8 replies are queued and no reset is pending (R182). -/
def State.linkCoherent (s : State) : Prop :=
  s.clk.replies.length ≤ 8 ∧ s.clk.reports.Nodup
    ∧ (s.clk.ready = true ↔ s.clk.replies.length < 8 ∧ s.clk.pendingReset = none)

/-- Every setting lies in its range: frame number (R60), intervals (R61), echo floor (R53), thresholds (R102), ceilings (R30),
attempt limit (R135). -/
def State.settingsInRange (s : State) : Prop :=
  s.fga.frame ≤ 4095 ∧ (250 ≤ s.fga.interval ∧ s.fga.interval ≤ 60000)
    ∧ (∀ x, s.fga.pendingInterval = some x → 250 ≤ x ∧ x ≤ 60000) ∧ (1 ≤ s.ecr.floor ∧ s.ecr.floor ≤ 4096)
    ∧ (50 ≤ s.flo.tStep ∧ s.flo.tStep ≤ 1000) ∧ (100 ≤ s.flo.tDrift ∧ s.flo.tDrift ≤ 3000)
    ∧ (∀ p : Pair, -7612 ≤ s.ceiling p ∧ s.ceiling p ≤ -2194)
    ∧ (1 ≤ s.isu.settings.limit ∧ s.isu.settings.limit ≤ 4)

/-- Does an index admit an entry kind (R2)? -/
def kindFits (i : Index) : EntryKind → Prop
  | .line _ => 16 ≤ i.val
  | .branching _ | .equalizer => i.val < 16

/-- Every defined entry has a kind its index admits (R2) and a line address of 1..254, and no two have the same one (R3). -/
def State.plantCoherent (s : State) : Prop :=
  (∀ i e, s.entry i = some e → kindFits i e.kind ∧ 1 ≤ e.address.toNat ∧ e.address.toNat ≤ 254)
    ∧ ∀ i j e f, s.entry i = some e → s.entry j = some f → e.address = f.address → i = j

/-- Each pair is connected to at most one channel (R24); each channel to at most one pair by the form of its record. -/
def State.pairsApart (s : State) : Prop :=
  ∀ (c d : Chan) (p : Pair), (s.channel c).point = some p → (s.channel d).point = some p → c = d

/-- The demand queue holds at most 8 slots and the periodic list at most 16 (R78, R79). -/
def State.queuesBounded (s : State) : Prop := s.cen.demand.length ≤ 8 ∧ s.cen.periodic.length ≤ 16

/-- An extent list is in start order, no cell stands in two of its extents, and every extent lies within the 8192 cells (R43). -/
def extentsDisjoint (l : List Extent) : Prop :=
  l.Pairwise (fun e f => e.start ≤ f.start
      ∧ ∀ a, e.start ≤ a → a < e.start + e.length → ¬ (f.start ≤ a ∧ a < f.start + f.length))
    ∧ ∀ e ∈ l, e.start + e.length ≤ 8192

/-- The service list holds the 16 pairs, each once (R65). -/
def State.serviceWhole (s : State) : Prop := s.fga.service.Perm allPairs

/-! ## Taking a request -/

/-- The conditions under which the link takes a request and hands it to its block: READY, fewer than 8 replies queued, no reset
pending, a source of 0..7, an acting level of 0..3, and an effective level at or below the required one (R176, R179, R180,
R182). -/
def State.takes (s : State) (h : Header) (src : Source) (effective needed : Level) : Prop :=
  s.clk.part = .ready ∧ s.clk.replies.length < 8 ∧ s.clk.pendingReset = none ∧ h.source.toNat = src.val
    ∧ (∃ acting : Level, h.acting.toNat = acting.val ∧ effective = max (s.level src) acting) ∧ effective ≤ needed

/-- The state after a reply has joined the tail of the reply queue: the receive-ready line follows the queue, and an idle
transmitter begins with the reply at the head (R181, R182, R185). Nothing else changes. -/
def State.withReply (s : State) (f : LinkFrame) : State :=
  { s with clk := { s.clk with
      replies := s.clk.replies ++ [f]
      ready := decide (s.clk.replies.length + 1 < 8) && s.clk.pendingReset.isNone
      transmitter :=
        match s.clk.transmitter with
        | .idle => .reply (s.clk.replies.headD f)
        | .reply g => .reply g
        | .report g => .report g } }

/-- The ACCEPTED reply of a request (R181, R195). -/
def acceptedReply (src : Source) (h : Header) (kind : Byte) (data : List Byte) : LinkFrame :=
  { source := src, tag := h.tag, kind := 0xF0, body := kind :: data }

/-- The REFUSED reply of a request (R181, R195). -/
def refusedReply (src : Source) (h : Header) (kind : Byte) (r : Reason) : LinkFrame :=
  { source := src, tag := h.tag, kind := 0xF1, body := [kind, BitVec.ofNat 8 (reasonCode r)] }

/-- The level each request kind requires (R180). No check of level is made for the other commands, and UNKNOWN_KIND comes before
one (R179). -/
def requiredLevel : Instr → Level
  | .start _ _ | .schedule _ _ _ _ | .abort _ _ | .release _ _ => 2
  | .adopt _ _ | .dropBaseline _ _ _ _ | .commit _ _ _ _ | .clearCondition _ _ _ => 1
  | .defineEntry _ _ _ _ _ _ | .dropEntry _ _ | .pathAppend _ _ _ | .setPath _ _ | .setCrosspoint _ _ _ _
  | .setCeiling _ _ _ | .setOrderSettings _ _ _ _ | .setTiming _ _ _ | .setThresholds _ _ _ _ | .defineGate _ _ _
  | .dropGate _ _ | .eraseBlock _ _ | .reset _ _ => 0
  | .status _ | .readEntry _ _ | .readSpan _ _ _ | .readPath _ _ _ _ _ | .readChannels _ | .readExtents _ | .readGrants _
  | .readCampaign _ _ | .readResults _ _ _ _ | .readGates _ | .readOrders _ | .readBaseline _ _ _ _ _ | .selectSpan _ _
  | .isolate _ _ _ _ _ _ | .withdrawOrder _ _ | .setSourceLevel _ _ _ | .unknownKindRequest _ _ => 3
  | .powerOn _ | .characterReceived _ | .framingError | .lineBreak | .breakReset _ | .interCharacterGap
  | .transmissionEnd _ | .coldLoadEnd | .eraseEnd | .slotProgrammed | .boundary | .periodicDue _ | .settleEnd _
  | .primingPeriodEnd _ | .coastingPeriodStart _ | .slicePeriodEnd _ _ _ | .referencePeriodEnd _ _ | .wordPeriodEnd _
  | .listeningPeriodEnd _ _ | .lineReturnsToMark => 3

/-- Does a request's body have the makeup R193 and R194 call for, beyond its length: flags and marks 0 or 1, views 0 or 1,
reference kinds 0..2, a BRANCHING entry's route 0 or 1, at most 64 path elements with leg tags 0..2, COLD or WARM (R189)? -/
def wellMadeBody : Instr → Prop
  | .readEntry _ ref | .dropEntry _ ref | .clearCondition _ ref _ => ref.kind.toNat ≤ 2
  | .readPath _ _ view _ _ => view.toNat ≤ 1
  | .readBaseline _ _ _ _ view => view.toNat ≤ 1
  | .start _ r => r.autoLocate.toNat ≤ 1
  | .schedule _ r _ _ => r.autoLocate.toNat ≤ 1
  | .isolate _ _ ref _ _ force => ref.kind.toNat ≤ 2 ∧ force.toNat ≤ 1
  | .defineEntry _ ref kind _ _ route => ref.kind.toNat ≤ 2 ∧ (kind = 2 → route.toNat ≤ 1)
  | .pathAppend _ restart elements =>
    restart.toNat ≤ 1 ∧ elements.length ≤ 64 ∧ ∀ e ∈ elements, e.reference.kind.toNat ≤ 2 ∧ e.tag.toNat ≤ 2
  | .setCrosspoint _ _ _ mark => mark.toNat ≤ 1
  | .setTiming _ change _ => change.toNat ≤ 1
  | .reset _ which => which.toNat ≤ 1
  | .status _ | .readSpan _ _ _ | .readChannels _ | .readExtents _ | .readGrants _ | .readCampaign _ _
  | .readResults _ _ _ _ | .readGates _ | .readOrders _ | .selectSpan _ _ | .setSourceLevel _ _ _ | .abort _ _ | .release _ _
  | .withdrawOrder _ _ | .adopt _ _ | .dropBaseline _ _ _ _ | .commit _ _ _ _ | .setPath _ _ | .setCeiling _ _ _
  | .setOrderSettings _ _ _ _ | .setThresholds _ _ _ _ | .defineGate _ _ _ | .dropGate _ _ | .eraseBlock _ _
  | .unknownKindRequest _ _ => True
  | .powerOn _ | .characterReceived _ | .framingError | .lineBreak | .breakReset _ | .interCharacterGap
  | .transmissionEnd _ | .coldLoadEnd | .eraseEnd | .slotProgrammed | .boundary | .periodicDue _ | .settleEnd _
  | .primingPeriodEnd _ | .coastingPeriodStart _ | .slicePeriodEnd _ _ _ | .referencePeriodEnd _ _ | .wordPeriodEnd _
  | .listeningPeriodEnd _ _ | .lineReturnsToMark => True

/-- The link answers: the source field names the source, fewer than 8 replies are queued and no reset is pending (R176, R179,
R182). -/
def State.answers (s : State) (h : Header) (src : Source) : Prop :=
  h.source.toNat = src.val ∧ s.clk.replies.length < 8 ∧ s.clk.pendingReset = none

/-! ## Queues, slots and paths -/

/-- The report queue after origins join it one after another: one that is in the queue keeps its place, any other joins the tail
(R183). -/
def joined (q : List Origin) : List Origin → List Origin
  | [] => q
  | o :: rest => joined (if o ∈ q then q else q ++ [o]) rest

/-- The slot is the lowest-numbered FREE one (R75). -/
def State.lowestFreeSlot (s : State) (n : Slot) : Prop :=
  (s.campaign n).state = .free ∧ ∀ m, m < n → (s.campaign m).state ≠ .free

/-- Does an entry's kind make it a branching unit (R2)? -/
def State.branches (s : State) (i : Index) : Prop := ∃ e route, s.entry i = some e ∧ e.kind = .branching route

/-- The conditions of R13 on a list beyond definition and repetition: no branching unit, no tag and rising delays; or a trunk, one
branching unit and tagged elements, with delays rising along the trunk up to the unit and from the unit along each leg. -/
def State.pathFits (s : State) (l : List PathElement) : Prop :=
  ((∀ x ∈ l, ¬ s.branches x.entry ∧ x.tag = none) ∧ (l.map PathElement.delay).Pairwise (· < ·))
    ∨ ∃ trunk unit legs, l = trunk ++ unit :: legs ∧ s.branches unit.entry ∧ unit.tag = none
        ∧ (∀ x ∈ trunk, ¬ s.branches x.entry ∧ x.tag = none) ∧ (∀ x ∈ legs, ¬ s.branches x.entry ∧ x.tag ≠ none)
        ∧ ((trunk ++ [unit]).map PathElement.delay).Pairwise (· < ·)
        ∧ ∀ leg : Leg, ((unit :: legs.filter (fun x => x.tag == some leg)).map PathElement.delay).Pairwise (· < ·)

/-- A sent path element and what it is resolved into (R4, R14). -/
def State.resolvesTo (s : State) (src : Source) (e : SentElement) (x : PathElement) : Prop :=
  s.resolve src e.reference = some x.entry ∧ x.delay = e.delay.toNat ∧ e.delay.toNat ≤ 250000
    ∧ x.tag = (if e.tag = 1 then some .a else if e.tag = 2 then some .b else none)

/-- The order record is in a DONE state (R134). -/
def Order.done (o : Order) : Prop :=
  o.state = .doneAccepted ∨ o.state = .doneRefused ∨ o.state = .doneFailed ∨ o.state = .doneUnresolved

/-! ## Orders -/

/-- The entry kinds an action may name (R128). -/
def actionNames : Action → EntryKind → Prop
  | .pumpToSpare, .line _ | .pumpRestore, .line _ | .gainHold, .line _ | .gainRelease, .line _ => True
  | .loopMute, _ => True
  | .routeA, .branching _ | .routeB, .branching _ => True
  | _, _ => False

/-- The route a ROUTE action asks for differs from the entry's (R130, check 4). -/
def routeChanges : Action → EntryKind → Prop
  | .routeA, .branching route => route = .b
  | .routeB, .branching route => route = .a
  | _, _ => True

/-- The conditions an action requires of the record (R128). -/
def actionRequires : Action → Condition → Prop
  | .pumpToSpare, c | .gainHold, c => c = .located ∨ c = .unresolved
  | .pumpRestore, c | .gainRelease, c => c = .isolated ∨ c = .unresolved
  | .loopMute, c => c = .loopFault
  | .routeA, _ | .routeB, _ => True

/-- The nominal lag of an entry on a pair at the order settings in force: the nearest integer to its delay in the pair's path list
over the chip period (R41, R131). -/
def State.lagInChips (s : State) (i : Index) (p : Pair) (lag : Nat) : Prop :=
  ∃ x ∈ s.path p, x.entry = i ∧ lag = (2 * x.delay + chipMicros s.isu.settings.chip) / (2 * chipMicros s.isu.settings.chip)

/-- The checks of R130 and R131 on an ISOLATE in their order, each with the reason of its failure; the gate, the pair and the entry
are in range. -/
def State.isolateChecks (s : State) (gate : Fin 32) (i : Index) (p : Pair) (effective : Level) (forced : Prop) (lag : Nat) :
    List (Prop × Reason) :=
  [ ((s.gate gate).isSome = true, .gateAbsent),
    (∀ g, s.gate gate = some g → effective ≤ g.level, .level),
    (∀ g, s.gate gate = some g → g.first ≤ i ∧ i ≤ g.last ∧ g.mask.getLsbD p.val = true, .outsideGate),
    (∃ e, s.entry i = some e ∧ ∀ g, s.gate gate = some g → actionNames g.action e.kind, .wrongKind),
    (∀ g e, s.gate gate = some g → s.entry i = some e → routeChanges g.action e.kind, .wrongState),
    (∃ x ∈ s.effectivePath p, x.entry = i, .notOnPath),
    (∀ e, s.entry i = some e → e.mark = false, .entryBusy),
    ((forced ∧ effective = 0) ∨ ∀ g, s.gate gate = some g → actionRequires g.action (s.record i p).condition, .notLocated),
    (∀ g e n, s.gate gate = some g → g.action = .pumpToSpare → s.entry i = some e → e.kind = .line n → 1 ≤ n.val, .noSpare),
    (s.ecr.floor ≤ (s.record i p).amplitude, .noReference),
    (lag + 2 ≤ sequenceLength s.isu.settings.sequence - 1, .lagAlias),
    (∃ n, s.order n = none, .ordersFull),
    (∃ n, (s.campaign n).state = .free, .noSlot) ]

/-- The order record is the lowest-numbered free one (R132). -/
def State.lowestFreeOrder (s : State) (k : OrderNo) : Prop := s.order k = none ∧ ∀ m, m < k → s.order m ≠ none

/-- The 32 bits of an order's word as a number: line address, action code times 16 plus the pair, argument, check (R139). -/
def orderWordNumber (o : Order) : Nat :=
  let code : Nat :=
    match o.action with
    | .pumpToSpare => 1
    | .pumpRestore => 2
    | .gainHold => 3
    | .gainRelease => 4
    | .loopMute => 5
    | .routeA => 6
    | .routeB => 7
  let b0 := o.address.toNat
  let b1 := code * 16 + o.pair.val
  let b2 := o.argument.toNat
  b0 * 2 ^ 24 + b1 * 2 ^ 16 + b2 * 2 ^ 8 + (255 - (b0 + b1 + b2) % 256)

/-- The campaigns and cells after the accumulations of a pair's chain top are zeroed, if the pair has a chain (R48, R92). -/
def State.topZeroed (s : State) (p : Pair) (slots : Vector Campaign 32) (cells : Table Int) : Prop :=
  (s.chain p = [] → slots = s.cen.slots ∧ cells = s.ecr.cells)
    ∧ ∀ m, (s.chain p).getLast? = some m →
      slots = s.cen.slots.set m { s.campaign m with accepted := 0, mustPrime := true }
      ∧ ∀ a, tableGet 0 cells a = match (s.campaign m).extent with
        | some (start, length) => if start ≤ a ∧ a < start + length then 0 else s.cell a
        | none => s.cell a

/-- The plant table after an order has ended: the entry's order mark is clear, and the ordered record has the condition, marked if
it moved (R11, R153). -/
def State.orderMarks (s t : State) (i : Index) (p : Pair) (c : Condition) : Prop :=
  (∀ j, t.entry j = if j = i then (s.entry j).map (fun e => { e with mark := false }) else s.entry j)
    ∧ ∀ j q, t.record j q = if j = i ∧ q = p then
        { s.record j q with condition := c, changed := (s.record j q).changed || !((s.record j q).condition == c) }
      else s.record j q

/-- The report queue after an order has ended and its reserved slot has become FREE: that slot's origin is withdrawn, the pair's
joins where the condition moved, then the order's (R11, R75, R153; the order in which they join: log 28). -/
def State.orderOrigins (s : State) (k : OrderNo) (o : Order) (c : Condition) : List Origin :=
  joined (s.clk.reports.filter (fun x => !(x == Origin.campaign o.reserved)))
    ((if (s.record o.entry o.pair).condition = c then [] else [.pair o.pair]) ++ [.order k])

/-- The chains, the demand queue, the order records and the campaign records agree with one another. -/
structure Ledger (s : State) : Prop where
  /-- A slot on a pair's chain holds a campaign of that pair, so that no slot is on two chains (R85). -/
  chainPair : ∀ p n, n ∈ s.chain p → (s.campaign n).pair = p
  /-- No slot is twice on a chain (R85). -/
  chainOnce : ∀ p, (s.chain p).Nodup
  /-- A chain's campaigns stand at the depths 1, 2, and so on, at most 8 of them (R85). -/
  chainDepth : ∀ p i n, (s.chain p)[i]? = some n → (s.campaign n).depth = i + 1 ∧ i < 8
  /-- A chain's top is ACTIVE (R74, R85). -/
  chainTop : ∀ p n, (s.chain p).getLast? = some n → (s.campaign n).state = .awaitingRoom ∨ (s.campaign n).state = .measuring
  /-- A chain's root has no parent and is never in AWAITING_ROOM (R74, R84). -/
  chainRoot : ∀ p n, (s.chain p).head? = some n → (s.campaign n).parent = none ∧ (s.campaign n).state ≠ .awaitingRoom
  /-- Every campaign below the top is NESTED and the parent of the one above it, which is a CHILD (R74, R85, R86). -/
  chainLink : ∀ p i m n, (s.chain p)[i]? = some m → (s.chain p)[i + 1]? = some n →
    (s.campaign m).state = .nested ∧ (s.campaign n).parent = some m ∧ (s.campaign n).origin = .child
  /-- An ACTIVE or NESTED campaign is on its pair's chain (R74). -/
  onChain : ∀ n, (s.campaign n).state ∈ [CampaignState.awaitingRoom, .measuring, .nested] → n ∈ s.chain (s.campaign n).pair
  /-- No slot is twice in the demand queue (R78). -/
  demandOnce : s.cen.demand.Nodup
  /-- The slots in the demand queue are the QUEUED ones (R78). -/
  demandQueued : ∀ n, n ∈ s.cen.demand ↔ (s.campaign n).state = .queued
  /-- No order record is twice in the acceptance list (R63, R132). -/
  acceptedOnce : s.isu.acceptance.Nodup
  /-- The order records in the acceptance list are those taken (R132, R134). -/
  acceptedTaken : ∀ k, k ∈ s.isu.acceptance ↔ s.order k ≠ none
  /-- The slot of an order up to its answer is RESERVED and no confirm yet (R134). -/
  burstSlot : ∀ k o, s.order k = some o → o.state ∈ [OrderState.waitingChannel, .referencing, .sending, .listening] →
    (s.campaign o.reserved).state = .reserved ∧ (s.campaign o.reserved).kind = none
  /-- The slot of an order in CONFIRMING is its confirm, RESERVED or at work (R134, R150). -/
  confirmSlot : ∀ k o, s.order k = some o → o.state = .confirming →
    (s.campaign o.reserved).kind = some .confirm ∧ (s.campaign o.reserved).origin = .order
      ∧ ((s.campaign o.reserved).state = .reserved ∨ (s.campaign o.reserved).state = .measuring)
  /-- Two orders that are not DONE hold two slots (R75, R132). -/
  ownSlot : ∀ j k o x, j ≠ k → s.order j = some o → s.order k = some x → ¬ o.done → ¬ x.done → o.reserved ≠ x.reserved
  /-- An order that holds a channel is in its burst and names the channel (R134, R136). -/
  holderNamed : ∀ c k, (s.channel c).holder = some (.order k) → ∃ o, s.order k = some o ∧ o.channel = some c
    ∧ o.state ∈ [OrderState.referencing, .sending, .listening]
  /-- An order whose report waits is DONE (R153). -/
  reportedDone : ∀ k, Origin.order k ∈ s.clk.reports → ∃ o, s.order k = some o ∧ o.done

/-! ## Period sums -/

/-- The chip of a probe bit: +1 for 0 and -1 for 1 (R40). -/
def chipOf (b : Bool) : Int := if b then -1 else 1

/-- The period sum of R42 written out: the sum over n of p[n] times the sample (n + d + o) mod L, offsets taken mod L. -/
def writtenSum (sequence : Code) (samples : List Sample) (d : Nat) (o : Int) : Int :=
  ((List.range (sequenceLength sequence)).map (fun n =>
    chipOf ((probeBits sequence).getD n false)
      * (samples.getD (((n : Int) + d + o) % (sequenceLength sequence : Int)).toNat 0).toInt)).sum

/-- The period sum of an order's burst written out (R138): sample (n + d + o) mod L counts with p[n] as it was driven, upright or
inverted, in this period where n + d + o lies at or below L - 1, and in the previous one where it lies at or above L (a lag below 0
takes this period's polarity: DEDUCED, log 23). -/
def heardSum (sequence : Code) (samples : List Sample) (d : Nat) (o : Int) (inverted previous : Bool) : Int :=
  ((List.range (sequenceLength sequence)).map (fun n : Nat =>
    (if (if (n : Int) + d + o ≤ sequenceLength sequence - 1 then inverted else previous) then -1 else 1)
      * chipOf ((probeBits sequence).getD n false)
      * (samples.getD (((n : Int) + d + o) % (sequenceLength sequence : Int)).toNat 0).toInt)).sum

/-! ## Grants and classification -/

/-- A campaign's record at the start of a slice, with its applied settings fixed (R31, R66): an applied level above the ceiling
is lost with the accumulations, the accepted count 0 and the must-prime mark set (R48); then, and with an accepted count of 0, the
settings are those the ceiling leaves of the requested ones, the clamped mark saying whether they differ; else they stand. -/
def State.settingsFixed (s : State) (x y : Campaign) : Prop :=
  ∀ level, level = fixLevel x.requested.level x.requested.reference (s.ceiling x.pair) →
    (∀ code reference, x.applied = some (code, reference) → s.ceiling x.pair < probeLevel code reference →
      y = { x with accepted := 0, mustPrime := true, applied := some level,
                   clamped := decide (level ≠ (x.requested.level, x.requested.reference)) })
    ∧ ((∀ code reference, x.applied = some (code, reference) → probeLevel code reference ≤ s.ceiling x.pair) →
      (x.accepted = 0 ∨ x.applied = none →
        y = { x with applied := some level, clamped := decide (level ≠ (x.requested.level, x.requested.reference)) })
      ∧ (x.accepted ≠ 0 → x.applied ≠ none → y = x))

/-- The channel is free for a grant: DISCONNECTED, PARKED or COASTING (R62), and no holder waits on it (log 4). -/
def State.channelFree (s : State) (c : Chan) : Prop :=
  (s.channel c).holder = none
    ∧ ((s.channel c).state = .disconnected ∨ (s.channel c).state = .parked ∨ (s.channel c).state = .coasting)

/-- An element that is not LOOP_MUTED stands after position `i` of a list (R106). -/
def standsAfter (l : List Observed) (i : Nat) : Prop := ∃ (j : Nat) (x : Observed), i < j ∧ l[j]? = some x ∧ x.muted = false

/-- An element that is not LOOP_MUTED and has an echo stands after position `i` of a list (R106). -/
def echoesAfter (l : List Observed) (i : Nat) : Prop :=
  ∃ (j : Nat) (x : Observed), i < j ∧ l[j]? = some x ∧ x.muted = false ∧ x.echo = true

/-- The D of the nearest classifiable element before position `i` (R104). -/
def nearestBefore (l : List Observed) (i : Nat) (d : Int) : Prop :=
  ∃ (j : Nat) (x : Observed), j < i ∧ l[j]? = some x ∧ x.classifiable = some d
    ∧ ∀ (m : Nat) (y : Observed), j < m → m < i → l[m]? = some y → y.classifiable = none

/-- The D of the nearest classifiable element after position `i` (R104). -/
def nearestAfter (l : List Observed) (i : Nat) (d : Int) : Prop :=
  ∃ (j : Nat) (x : Observed), i < j ∧ l[j]? = some x ∧ x.classifiable = some d
    ∧ ∀ (m : Nat) (y : Observed), i < m → m < j → l[m]? = some y → y.classifiable = none

/-- The D of the first classifiable element of a list (R105). -/
def firstDeviation (l : List Observed) (d : Int) : Prop :=
  ∃ (j : Nat) (x : Observed), l[j]? = some x ∧ x.classifiable = some d
    ∧ ∀ (m : Nat) (y : Observed), m < j → l[m]? = some y → y.classifiable = none

/-- The D of the nearest element before position `i` whose class is STEP or RISE (R105). -/
def settledReference (l : List Observed) (classes : List ElementClass) (i : Nat) (d : Int) : Prop :=
  ∃ (j : Nat) (x : Observed), j < i ∧ l[j]? = some x ∧ x.deviation = some d
    ∧ (classes[j]? = some .step ∨ classes[j]? = some .rise)
    ∧ ∀ m, j < m → m < i → classes[m]? ≠ some .step ∧ classes[m]? ≠ some .rise

/-! ## Campaigns asked for -/

/-- The fields START and SCHEDULE check under RANGE lie in their ranges (R76). -/
def campaignInRange (r : CampaignRequest) : Prop :=
  r.kind.toNat ≤ 1 ∧ r.pair.toNat < 16 ∧ 1 ≤ r.first.toNat ∧ r.first.toNat ≤ r.last.toNat ∧ r.last.toNat ≤ 128
    ∧ r.chip.toNat < 4 ∧ r.sequence.toNat < 4 ∧ r.reference.toNat < 4

/-- The channels after the slices of some slots have ended: a channel that held one is PARKED if it was SETTLING and COASTING
otherwise, without a holder, and every other one is as it was (R46; a slice that waits for a period start: log 4). -/
def State.slicesEnded (s t : State) (l : List Slot) : Prop :=
  ∀ c, ((∃ m ∈ l, ∃ k lit, (s.channel c).holder = some (.slice m k lit)) →
      t.channel c = { s.channel c with
        state := if (s.channel c).state = .settling then .parked else .coasting, holder := none })
    ∧ ((∀ m ∈ l, ∀ k lit, (s.channel c).holder ≠ some (.slice m k lit)) → t.channel c = s.channel c)

/-- No slot of a list holds two channels. -/
def State.oneChannelEach (s : State) (l : List Slot) : Prop :=
  ∀ c d m k x k' x', m ∈ l → (s.channel c).holder = some (.slice m k x) → (s.channel d).holder = some (.slice m k' x') → c = d

/-- The chains of some pairs have failed with a reason (R91): the pairs have no chain, every campaign above a root is FREE, no
extent is left on the chains, their slices have ended, and each root, none of which is a confirm, is FAILED or back IDLE_PERIODIC
with the reason and its origin queued, the pairs one after another as listed (what a root keeps beside: log 37). -/
def State.chainsFailed (s t : State) (failing : List Pair) (reason : Reason) : Prop :=
  (∀ q, t.chain q = if q ∈ failing then [] else s.chain q)
    ∧ (∀ q ∈ failing, ∀ root above, s.chain q = root :: above →
        t.campaign root = { s.campaign root with
          state := if (s.campaign root).origin = .periodic then .idlePeriodic else .failed
          failure := some reason, cursor := none, extent := none }
        ∧ ∀ m ∈ above, t.campaign m = {})
    ∧ (∀ m, m ∉ failing.flatMap s.chain → t.campaign m = s.campaign m)
    ∧ t.ecr.extents = s.ecr.extents.filter (fun e => !(failing.flatMap s.chain).contains e.slot)
    ∧ s.slicesEnded t (failing.flatMap s.chain)
    ∧ t.clk.reports = joined
        (s.clk.reports.filter (fun x => !((failing.flatMap (fun q => (s.chain q).tail)).map Origin.campaign).contains x))
        ((failing.flatMap (fun q => (s.chain q).take 1)).map Origin.campaign)

/-- The slots on the chains of some pairs are distinct, none of them holds two channels, and no root among them is a confirm. -/
def State.chainsApart (s : State) (failing : List Pair) : Prop :=
  (failing.flatMap s.chain).Nodup ∧ s.oneChannelEach (failing.flatMap s.chain)
    ∧ ∀ q ∈ failing, ∀ m, (s.chain q).head? = some m → (s.campaign m).origin ≠ .order

/-- The order record, and it alone, is the one whose confirm stands in the slot (R150). -/
def State.confirms (s : State) (k : OrderNo) (o : Order) (n : Slot) : Prop :=
  s.order k = some o ∧ o.state = .confirming ∧ o.reserved = n
    ∧ ∀ j x, j ≠ k → s.order j = some x → x.state = .confirming → x.reserved ≠ n

/-- A confirm that was the root of its pair's chain has failed with a reason: its slot is FREE, the pair has no chain, and its order
has ended DONE_UNRESOLVED with the reason, the ordered record UNRESOLVED (R91, R151, R153). -/
def State.confirmFailed (s t : State) (p : Pair) (n : Slot) (k : OrderNo) (o : Order) (reason : Reason) : Prop :=
  s.orderMarks t o.entry o.pair .unresolved ∧ s.slicesEnded t [n]
    ∧ t = { s with
        lpt := { s.lpt with entries := t.lpt.entries, records := t.lpt.records }
        pch := { s.pch with channels := t.pch.channels }
        ecr := { s.ecr with extents := s.ecr.extents.filter (fun e => e.slot != n) }
        cen := { s.cen with slots := s.cen.slots.set n {}, chains := s.cen.chains.set p [] }
        isu := { s.isu with orders := s.isu.orders.set k (some { o with state := .doneUnresolved, reason := some reason }) }
        clk := { s.clk with reports := s.orderOrigins k o .unresolved } }

/-- A pair's chain, if it has one, has failed with a reason, its root treated by its origin (R91). -/
def State.chainFailed (s t : State) (p : Pair) (reason : Reason) : Prop :=
  (s.chain p = [] → t = s)
    ∧ (∀ root above, s.chain p = root :: above → (s.campaign root).origin ≠ .order →
        s.chainsFailed t [p] reason ∧ t = { s with
          pch := { s.pch with channels := t.pch.channels }
          ecr := { s.ecr with extents := t.ecr.extents }
          cen := { s.cen with slots := t.cen.slots, chains := t.cen.chains }
          clk := { s.clk with reports := t.clk.reports } })
    ∧ ∀ root k o, s.chain p = [root] → (s.campaign root).origin = .order → s.confirms k o root →
        s.confirmFailed t p root k o reason

/-- The chains of some pairs have failed with a reason, one after another as listed, be their roots confirms or not. -/
def State.chainsFailedInTurn (reason : Reason) : List Pair → State → State → Prop
  | [], s, t => t = s
  | p :: rest, s, t => ∃ v, s.chainFailed v p reason ∧ State.chainsFailedInTurn reason rest v t

/-! ## Results, summaries and merges -/

/-- The final verdict of an element: its refined class if it has one, and its class otherwise (R111). -/
def finalVerdict (r : ResultElement) : Option ElementClass :=
  match r.refined with
  | some c => some c
  | none => r.verdict

/-- The verdict summary by R111's table. -/
def verdictSummary (l : List ResultElement) : Summary :=
  if ∀ r ∈ l, r.echo = -12000 then .lineDark
  else if ∃ r ∈ l, finalVerdict r = some .breakAfter then .breakSeen
  else if ∃ r ∈ l, finalVerdict r = some .step then .stepSeen
  else if ∃ r ∈ l, finalVerdict r = some .spike ∨ finalVerdict r = some .lost then .loopFaultSeen
  else if ∃ r ∈ l, finalVerdict r = some .ambiguous ∨ finalVerdict r = some .inconclusive ∨ finalVerdict r = some .aborted
      ∨ r.refined = some .noEcho ∨ r.refined = some .noBaseline then .undecided
  else if ∃ r ∈ l, finalVerdict r = some .drift then .driftSeen
  else .clear

/-- The condition the survey merge gives by R114's table. -/
def surveyed (c : Condition) (cls : ElementClass) : Condition :=
  if c ∈ [Condition.located, .loopFault, .isolating, .unresolved] then c
  else if cls ∈ [ElementClass.step, .breakAfter, .spike, .lost, .ambiguous] then .suspect
  else if cls = .drift then .drifting
  else if cls ∈ [ElementClass.normal, .rise] then .normal
  else c

/-- The condition the target merge gives by R115's table, and the application of a refined class by R116. -/
def targeted (c : Condition) (cls : ElementClass) : Condition :=
  if c ∉ [Condition.suspect, .inconclusive] then c
  else if cls ∈ [ElementClass.step, .breakAfter] then .located
  else if cls ∈ [ElementClass.spike, .lost] then .loopFault
  else if cls ∈ [ElementClass.normal, .rise] then .normal
  else if cls = .drift then .drifting
  else if cls ∈ [ElementClass.noEcho, .noBaseline, .inconclusive] then .inconclusive
  else c

/-- The condition a classified element's record takes from one condition, by its campaign's kind and place (R113); `target` is the
position of a child's target. -/
def mergedCondition (c : Campaign) (target : Option Nat) (r : ResultElement) (old : Condition) : Condition :=
  match r.verdict, c.kind, c.origin with
  | some cls, some .survey, _ => surveyed old cls
  | some cls, some .locate, .child => if target = some r.position then targeted old cls else old
  | some cls, some .locate, _ => targeted (surveyed old cls) cls
  | _, _, _ => old

/-- A results list with a refined class, its depth and its reason at one position (R89, R119). -/
def refineAt (l : List ResultElement) (k : Nat) (cls : ElementClass) (depth : Option Nat) (reason : Option Reason) :
    List ResultElement :=
  l.map (fun r => if r.position = k then { r with refined := some cls, refiningDepth := depth, reason := reason } else r)

/-- The position of a child's target: its parent's suspect cursor (R123). -/
def State.targetPosition (s : State) (n : Slot) : Option Nat := ((s.campaign n).parent.bind (fun m => (s.campaign m).cursor))

/-- The elements of a results list that a campaign walks, in list order (R118). -/
def State.walkable (s : State) (n : Slot) (l : List ResultElement) : List ResultElement :=
  match (s.campaign n).kind, (s.campaign n).origin with
  | some .survey, _ =>
    if (s.campaign n).autoLocate then
      l.filter (fun r => [some ElementClass.lost, some .breakAfter, some .spike, some .step, some .ambiguous].contains r.verdict)
    else []
  | some .locate, .child => l.filter (fun r => r.verdict == some .ambiguous && s.targetPosition n == some r.position)
  | some .locate, _ => l.filter (fun r => r.verdict == some .ambiguous)
  | _, _ => []

/-- The results list a campaign's measurement gives when a last period is added to its cells: each element reduced (R49 to R57),
none refined, and the list classified (R103). -/
def State.measuresTo (s : State) (n : Slot) (start : Nat) (samples : List Sample) (l : List ResultElement) : Prop :=
  ∃ u : State, u = { s with ecr := { s.ecr with cells := u.ecr.cells } }
    ∧ (∀ (k : Nat) (e : Element) (o : Int), (s.campaign n).elements[k]? = some e → -2 ≤ o → o ≤ 2 →
        u.cell (start + 5 * k + (o + 2).toNat) = s.cell (start + 5 * k + (o + 2).toNat)
          + writtenSum (s.campaign n).requested.sequence samples e.lag o)
    ∧ l.map (fun r => { r with verdict := none })
        = (s.campaign n).elements.zipIdx.map (fun x => u.reduceElement (s.campaign n) (start + 5 * x.2) x.1)
    ∧ ∀ base : Option Int, base = (if l.head?.map ResultElement.position = some 1 then some 0 else none) →
        l.map ResultElement.verdict
          = (classify s.flo.tStep s.flo.tDrift base base (l.map (s.observe (s.campaign n).pair))).map some

/-- The period now ending on the channel is the one that brings the measuring campaign to M, and its measurement gives the list
(R47, R74, R88). The campaign's elements are distinct and their positions rise (R13, R84), and no other channel is held by its
pair's chain (R62). -/
def State.endsMeasurement (s : State) (c : Chan) (n : Slot) (samples : List Sample) (l : List ResultElement) : Prop :=
  ∃ (remaining : Nat) (lit : Bool) (start : Nat), (s.channel c).state = .periods
    ∧ (s.channel c).holder = some (.slice n remaining lit) ∧ (s.campaign n).state = .measuring
    ∧ samples.length = sequenceLength (s.campaign n).requested.sequence
    ∧ (s.campaign n).accepted + 1 = 2 ^ (s.campaign n).exponent
    ∧ (s.campaign n).extent = some (start, 5 * (s.campaign n).elements.length)
    ∧ ((s.campaign n).elements.map Element.entry).Nodup
    ∧ ((s.campaign n).elements.map Element.position).Pairwise (· < ·)
    ∧ (∀ d m k x, d ≠ c → (s.channel d).holder = some (.slice m k x) → m ∉ s.chain (s.campaign n).pair)
    ∧ s.measuresTo n start samples l

/-- The records after a measurement end: each element's holds the measurement, its class and a condition, and is marked if the
condition moved (R11, R88, R103); every other record is as it was. -/
def State.recordsMeasured (s t : State) (p : Pair) (l : List ResultElement) (condition : ResultElement → Condition)
    (moved : ResultElement → Bool) : Prop :=
  (∀ r ∈ l, t.record r.entry p =
      { condition := condition r, isolation := (s.record r.entry p).isolation, lastClass := r.verdict, amplitude := r.amplitude,
        echo := r.echo, gain := r.gain, deviation := r.deviation, offset := r.offset, frame := some s.fga.frame,
        changed := (s.record r.entry p).changed || moved r })
    ∧ ∀ i q, q ≠ p ∨ (∀ r ∈ l, r.entry ≠ i) → t.record i q = s.record i q

/-- What a measurement end on a channel leaves alone, and how that channel and the LINE_DARK marks stand after it (R34, R88,
R112). -/
def State.measurementFrame (s t : State) (c : Chan) (p : Pair) (l : List ResultElement) : Prop :=
  t = { s with
    lpt := { s.lpt with entries := t.lpt.entries, records := t.lpt.records }
    pch := { s.pch with channels := s.pch.channels.set c { s.channel c with state := .coasting, holder := none } }
    ecr := { s.ecr with cells := t.ecr.cells, extents := t.ecr.extents }
    cen := { s.cen with slots := t.cen.slots, chains := t.cen.chains }
    flo := { s.flo with lineDark := (if verdictSummary l = .lineDark then s.flo.lineDark.set p true else s.flo.lineDark) }
    isu := { s.isu with orders := t.isu.orders }
    clk := { s.clk with reports := t.clk.reports } }

/-- The pair's origin, where a condition moved or the list is LINE_DARK (R11, R112). -/
def pairOrigins (p : Pair) (l : List ResultElement) (moved : ResultElement → Bool) : List Origin :=
  if l.any moved = true ∨ verdictSummary l = .lineDark then [.pair p] else []

/-- A root that has finished its walk: DONE, or IDLE_PERIODIC without a failure reason (R90). -/
def finishedRoot (x : Campaign) : Campaign :=
  if x.origin = .periodic then { x with state := .idlePeriodic, cursor := none, failure := none }
  else { x with state := .done, cursor := none }

/-- A campaign whose measurement has ended, with its results list and summary (R37, R47, R49, R111). -/
def measuredCampaign (x : Campaign) (l : List ResultElement) : Campaign :=
  { x with accepted := x.accepted + 1, darkCount := 0, extent := none, results := l, summary := some (verdictSummary l) }

/-! ## Ranges, children and dispatch -/

/-- The elements of the positions `first .. last` of a pair's effective path, as far as it goes, with their lags at a chip period
(R41, R84). -/
def State.rangeElements (s : State) (p : Pair) (chip : Code) (first last : Nat) (els : List Element) : Prop :=
  els.length = min (last + 1 - first) ((s.effectivePath p).length - (first - 1))
    ∧ ∀ (j : Nat) (e : Element), els[j]? = some e → ∃ x, (s.effectivePath p)[first - 1 + j]? = some x
        ∧ e = { entry := x.entry, lag := (2 * x.delay + chipMicros chip) / (2 * chipMicros chip), position := first + j }

/-- ALIAS passes: every lag plus 2 is at or below L - 1 (R81, check 3). -/
def noAlias (sequence : Code) (els : List Element) : Prop := ∀ e ∈ els, e.lag + 2 ≤ sequenceLength sequence - 1

/-- RESOLUTION passes: the lags of each two consecutive elements differ by 3 or more (R81, check 4). -/
def resolves (els : List Element) : Prop :=
  ∀ (j : Nat) (e f : Element), els[j]? = some e → els[j + 1]? = some f → e.lag + 3 ≤ f.lag ∨ f.lag + 3 ≤ e.lag

/-- The range and elements of the child for a walked element of a campaign (R86, R120). -/
def State.childPlan (s : State) (n : Slot) (r : ResultElement) (first last : Nat) (els : List Element) : Prop :=
  first = (if r.verdict = some .breakAfter then r.position else max 1 (r.position - 1))
    ∧ last = min (s.effectivePath (s.campaign n).pair).length (r.position + 1)
    ∧ s.rangeElements (s.campaign n).pair (s.campaign n).requested.chip first last els

/-- The exponent of a child: the parent's plus 3 for a SURVEY, plus 2 for a LOCATE (R121). -/
def exponentBelow (c : Campaign) : Nat := c.exponent + (if c.kind = some .survey then 3 else 2)

/-- The limits of a child and the checks of its range in their order, each with the reason of its failure (R86, R122). -/
def State.childChecks (s : State) (n : Slot) (els : List Element) : List (Prop × Reason) :=
  [ ((s.campaign n).depth + 1 ≤ 8, .depth), (exponentBelow (s.campaign n) ≤ 15, .exponent),
    (∃ m, (s.campaign m).state = .free, .noSlot), (noAlias (s.campaign n).requested.sequence els, .lagAlias),
    (resolves els, .resolution) ]

/-- No child can be made for the walked element, for the given reason (R119, R122). -/
def State.childBlocked (s : State) (n : Slot) (r : ResultElement) (reason : Reason) : Prop :=
  ∃ first last els passed check failed, s.childPlan n r first last els
    ∧ s.childChecks n els = passed ++ (check, reason) :: failed ∧ (∀ c ∈ passed, c.1) ∧ ¬ check

/-- A results list in which the elements for which no child could be made are refined INCONCLUSIVE (R119). -/
def refineBlocked (l blocked : List ResultElement) (reason : ResultElement → Reason) : List ResultElement :=
  l.map (fun r => if r ∈ blocked then
    { r with refined := some .inconclusive, refiningDepth := none, reason := some (reason r) } else r)

/-- A new child of a parent, with its room: ACTIVE/MEASURING with the extent the first fit gives among the extents there are, or
ACTIVE/AWAITING_ROOM without one (R44, R86). -/
def State.childMade (t : State) (parent : Campaign) (parentSlot child : Slot) (first last : Nat) (els : List Element)
    (extents : List Extent) : Prop :=
  ∃ record : Campaign,
    record = { state := .awaitingRoom, kind := some .locate, origin := .child, requester := parent.requester,
               requesterLevel := parent.requesterLevel, pair := parent.pair, first := first, last := last,
               exponent := exponentBelow parent, accepted := 0, requested := parent.requested, applied := none,
               clamped := false, mustPrime := false, autoLocate := false, depth := parent.depth + 1,
               parent := some parentSlot, elements := els, extent := none, darkCount := 0, cursor := none, results := [],
               summary := none, failure := none, periodic := none }
    ∧ (∀ a, firstFit (5 * els.length) extents 0 = some a →
        t.campaign child = { record with state := .measuring, extent := some (a, 5 * els.length) }
        ∧ t.ecr.extents = insertExtent { start := a, length := 5 * els.length, slot := child } extents
        ∧ ∀ x, a ≤ x → x < a + 5 * els.length → t.cell x = 0)
    ∧ (firstFit (5 * els.length) extents 0 = none → t.campaign child = record ∧ t.ecr.extents = extents)

/-! ## Walks that go on -/

/-- The elements a campaign has still to walk: the walkable ones of its results list beyond its suspect cursor (R118, R119). -/
def State.leftToWalk (s : State) (n : Slot) : List ResultElement :=
  (s.walkable n (s.campaign n).results).filter (fun r =>
    match (s.campaign n).cursor with
    | none => true
    | some k => decide (k < r.position))

/-- A refined class has been applied to the records of some entries on a pair (R115, R116): each takes the condition the table
gives and is marked if it moved, every other record is as it was, and the pair's origin joins a report queue if one moved
(R117). -/
def State.classApplied (s t : State) (p : Pair) (entries : List Index) (cls : ElementClass) (reports : List Origin) : Prop :=
  (∀ i q, t.record i q = if q = p ∧ i ∈ entries then
      { s.record i q with
        condition := targeted (s.record i q).condition cls
        changed := (s.record i q).changed || !(targeted (s.record i q).condition cls == (s.record i q).condition) }
    else s.record i q)
  ∧ t.clk.reports = joined reports
      (if entries.any (fun i => !(targeted (s.record i p).condition cls == (s.record i p).condition)) then [.pair p] else [])

/-- A walk has passed the elements for which no child can be made, each refined INCONCLUSIVE with its reason, applied to its
record, the summary rewritten (R119, step 4). The cursor is left to what ends the walk or nests the campaign. -/
def State.walkedPast (s t : State) (p : Pair) (n : Slot) (blocked : List ResultElement) (reason : ResultElement → Reason) : Prop :=
  s.classApplied t p (blocked.map ResultElement.entry) .inconclusive s.clk.reports
  ∧ t.campaign n = (if blocked = [] then s.campaign n else
      { s.campaign n with
        results := refineBlocked (s.campaign n).results blocked reason
        summary := some (verdictSummary (refineBlocked (s.campaign n).results blocked reason)) })
  ∧ (∀ m, m ≠ n → t.campaign m = s.campaign m)
  ∧ t = { s with
      lpt := { s.lpt with records := t.lpt.records }
      cen := { s.cen with slots := t.cen.slots }
      clk := { s.clk with reports := t.clk.reports } }

/-- A child has been made on a pair's chain top for a walked element: the top is NESTED with its cursor on it, and the child stands
above it with the room there is (R86, R119, steps 1 to 3). -/
def State.childAdded (s t : State) (p : Pair) (n child : Slot) (r : ResultElement) (first last : Nat) (els : List Element) :
    Prop :=
  t.campaign n = { s.campaign n with state := .nested, cursor := some r.position }
  ∧ t.childMade (s.campaign n) n child first last els s.ecr.extents
  ∧ (∀ m, m ≠ n → m ≠ child → t.campaign m = s.campaign m)
  ∧ (∀ q, t.chain q = if q = p then s.chain p ++ [child] else s.chain q)
  ∧ (∀ a, (∀ y, (t.campaign child).extent = some y → a < y.1 ∨ y.1 + y.2 ≤ a) → t.cell a = s.cell a)
  ∧ t = { s with
      ecr := { s.ecr with extents := t.ecr.extents, cells := t.ecr.cells }
      cen := { s.cen with slots := t.cen.slots, chains := t.cen.chains } }

/-- A demand or periodic root has finished and its chain has ended (R85, R90). -/
def State.rootFinished (s t : State) (p : Pair) (n : Slot) : Prop :=
  t.campaign n = finishedRoot { s.campaign n with extent := none }
  ∧ (∀ m, m ≠ n → t.campaign m = s.campaign m) ∧ (∀ q, t.chain q = if q = p then [] else s.chain q)
  ∧ s.slicesEnded t [n]
  ∧ t = { s with
      pch := { s.pch with channels := t.pch.channels }
      ecr := { s.ecr with extents := s.ecr.extents.filter (fun e => e.slot != n) }
      cen := { s.cen with slots := t.cen.slots, chains := t.cen.chains }
      clk := { s.clk with reports := joined s.clk.reports [.campaign n] } }

/-- A finished child has returned to its parent: its target's final verdict is the refined class at the parent's cursor, with the
target's refining depth, or the child's own where it has none, and the reason a refined INCONCLUSIVE carries; it is applied to the
element's record, the parent's summary is rewritten, the child is FREE and the parent ACTIVE (R75, R89, R123). -/
def State.returned (s t : State) (p : Pair) (child parent : Slot) : Prop :=
  ∃ (k : Nat) (target element : ResultElement) (cls : ElementClass) (refined : List ResultElement),
    (s.campaign parent).cursor = some k ∧ target ∈ (s.campaign child).results ∧ target.position = k
    ∧ finalVerdict target = some cls ∧ element ∈ (s.campaign parent).results ∧ element.position = k
    ∧ refined = refineAt (s.campaign parent).results k cls (some (target.refiningDepth.getD (s.campaign child).depth))
        (if target.refined = none then none else target.reason)
    ∧ t.campaign child = {}
    ∧ t.campaign parent = { s.campaign parent with
        state := .measuring, results := refined, summary := some (verdictSummary refined) }
    ∧ (∀ m, m ≠ child → m ≠ parent → t.campaign m = s.campaign m)
    ∧ (∀ q, t.chain q = if q = p then (s.chain p).dropLast else s.chain q) ∧ s.slicesEnded t [child]
    ∧ s.classApplied t p [element.entry] cls (s.clk.reports.filter (fun y => !(y == Origin.campaign child)))
    ∧ t = { s with
        lpt := { s.lpt with records := t.lpt.records }
        pch := { s.pch with channels := t.pch.channels }
        ecr := { s.ecr with extents := s.ecr.extents.filter (fun e => e.slot != child) }
        cen := { s.cen with slots := t.cen.slots, chains := t.cen.chains }
        clk := { s.clk with reports := t.clk.reports } }

/-- A pair's chain, top first, has walked on and unwound, one event (R88, step 4; R89; R119). The top passes the elements for which
no child can be made. For the first other one it makes a child in the lowest FREE slot, and the event ends. With none left a child
returns to the campaign below it, which goes on in the same way, and a root finishes. -/
def State.unwound (p : Pair) : List Slot → State → State → Prop
  | [], s, t => t = s
  | n :: below, s, t =>
    ∃ (blocked rest : List ResultElement) (reason : ResultElement → Reason) (v : State),
      s.leftToWalk n = blocked ++ rest ∧ (∀ r ∈ blocked, s.childBlocked n r (reason r)) ∧ s.walkedPast v p n blocked reason
      ∧ ((∃ r later first last els m, rest = r :: later ∧ s.childPlan n r first last els ∧ (∀ x ∈ s.childChecks n els, x.1)
            ∧ s.lowestFreeSlot m ∧ v.childAdded t p n m r first last els)
        ∨ rest = [] ∧ match below with
          | [] => v.rootFinished t p n
          | parent :: _ => ∃ w, v.returned w p n parent ∧ State.unwound p below w t)

/-- A campaign with a results list stands above the campaigns given, top first, on a pair's chain: positions rise, each is a CHILD of
the one below it, whose cursor stands on an element that both lists hold, and the root is a demand or periodic campaign (R73,
R85, R86). -/
def State.linked (s : State) (p : Pair) : Slot → List ResultElement → List Slot → Prop
  | n, l, [] => (s.campaign n).pair = p ∧ (l.map ResultElement.position).Pairwise (· < ·)
      ∧ ((s.campaign n).origin = .demand ∨ (s.campaign n).origin = .periodic)
  | n, l, q :: below => (s.campaign n).pair = p ∧ (l.map ResultElement.position).Pairwise (· < ·)
      ∧ (s.campaign n).origin = .child ∧ (s.campaign n).parent = some q
      ∧ (∃ k target element, (s.campaign q).cursor = some k ∧ target ∈ l ∧ target.position = k ∧ target.verdict ≠ none
          ∧ element ∈ (s.campaign q).results ∧ element.position = k)
      ∧ s.linked p q (s.campaign q).results below

/-- The stage-one checks on a candidate with its element list, in their order, each with the reason of its failure (R81). -/
def State.dispatchChecks (s : State) (c : Campaign) (els : List Element) : List (Prop × Reason) :=
  [ (s.path c.pair ≠ [], .noPath), (c.last ≤ (s.effectivePath c.pair).length, .range),
    (noAlias c.requested.sequence els, .lagAlias), (resolves els, .resolution),
    (∃ k, s.pointEnabled k c.pair = true, .noRoute),
    (c.kind = some .locate → ∃ e ∈ els, ∃ b x, s.baseline c.pair e.entry = some b ∧ s.entry e.entry = some x
      ∧ b.address = x.address, .noBaseline) ]

/-- A candidate fails the stage-one checks with a reason (R81). -/
def State.dispatchFails (s : State) (c : Campaign) (reason : Reason) : Prop :=
  ∃ els passed check failed, s.rangeElements c.pair c.requested.chip c.first c.last els
    ∧ s.dispatchChecks c els = passed ++ (check, reason) :: failed ∧ (∀ x ∈ passed, x.1) ∧ ¬ check

/-- A candidate passes the stage-one checks with an element list (R81, R84). -/
def State.dispatchPasses (s : State) (c : Campaign) (els : List Element) : Prop :=
  s.rangeElements c.pair c.requested.chip c.first c.last els ∧ ∀ x ∈ s.dispatchChecks c els, x.1

/-- An order of the pair is in one of the states (R83, check 2). -/
def State.orderAmong (s : State) (p : Pair) (states : List OrderState) : Prop :=
  ∃ k o, s.order k = some o ∧ o.pair = p ∧ o.state ∈ states

/-- A candidate is committed as the root of its pair's chain, with the extent the first fit gives (R44, R84): what its record, its
chain, the extents and the cells are after it. -/
def State.rootCommitted (s t : State) (n : Slot) (els : List Element) (a : Nat) : Prop :=
  t.campaign n = { s.campaign n with
      state := .measuring, elements := els, extent := some (a, 5 * els.length), accepted := 0, darkCount := 0,
      mustPrime := false, clamped := false, applied := none, results := [], summary := none, cursor := none, failure := none,
      depth := 1, parent := none,
      periodic := (s.campaign n).periodic.map (fun x : PeriodicPart => { x with countdown := x.period, due := false }) }
    ∧ (∀ m, m ≠ n → t.campaign m = s.campaign m) ∧ t.chain (s.campaign n).pair = [n]
    ∧ (∀ q, q ≠ (s.campaign n).pair → t.chain q = s.chain q)
    ∧ t.ecr.extents = insertExtent { start := a, length := 5 * els.length, slot := n } s.ecr.extents
    ∧ (∀ x, t.cell x = if a ≤ x ∧ x < a + 5 * els.length then 0 else s.cell x)

/-- At the coming boundary nothing is there to grant: no order waits for a channel, and every chain top is MEASURING on a channel
or waits for room (R62). -/
def State.nothingToGrant (s : State) : Prop :=
  s.clk.part = .ready ∧ s.fga.frame ≤ 4095
    ∧ (∀ k ∈ s.isu.acceptance, ∀ o, s.order k = some o → o.state ≠ .waitingChannel)
    ∧ ∀ q m, (s.chain q).getLast? = some m → (s.campaign m).state = .awaitingRoom
        ∨ (s.campaign m).state = .measuring ∧ ∃ c k lit, (s.channel c).holder = some (.slice m k lit)

/-- No chain top waits for room (R80, group 1). -/
def State.noneSeeksRoom (s : State) : Prop := ∀ q m, (s.chain q).getLast? = some m → (s.campaign m).state ≠ .awaitingRoom

/-- No confirm waits for its dispatch (R80, group 2). -/
def State.noneConfirms (s : State) : Prop :=
  ∀ k o, s.order k = some o → o.state = .confirming → (s.campaign o.reserved).state ≠ .reserved

/-- The state after a boundary at which nothing is granted: the clock has moved, and each COASTING channel without a holder has
stopped its probe and is PARKED (R34, R60, R61). -/
def State.boundaryPassed (s : State) : State :=
  { s with
    fga := { s.fga with frame := (if s.fga.frame = 4095 then 0 else s.fga.frame + 1),
                        interval := s.fga.pendingInterval.getD s.fga.interval, pendingInterval := none }
    pch := { s.pch with channels := s.pch.channels.map (fun ch =>
      if ch.state = .coasting ∧ ch.holder = none then { ch with state := .parked, probe := none } else ch) } }

/-! ## Countdowns at a boundary -/

/-- A countdown falls due at a boundary that begins the frame: it stands at 0 after its step, and the frame's parity matches the
tag (R69). -/
def fallsDue (frame : Nat) (x : PeriodicPart) : Bool :=
  decide (x.countdown ≤ 1)
    && match x.parity with
      | .any => true
      | .even => frame % 2 == 0
      | .odd => frame % 2 == 1

/-- A fall due at that boundary is an overrun: on a chain, or with the pending-due mark already set (R69, R70). -/
def overrunsAt (frame : Nat) (c : Campaign) : Bool :=
  match c.periodic with
  | none => false
  | some x => fallsDue frame x && (!(c.state == .idlePeriodic) || x.due)

/-- A periodic slot after its countdown at that boundary: a fall due reloads the countdown to the period and leaves the pending-due
mark set, an overrun counting one more, at most 65,535; otherwise a countdown above 0 goes down by one (R69, R70). -/
def afterCountdown (frame : Nat) (c : Campaign) : Campaign :=
  { c with periodic := c.periodic.map (fun x =>
      if fallsDue frame x = true then
        { x with
          countdown := x.period
          due := true
          overruns := if overrunsAt frame c = true then min 65535 (x.overruns + 1) else x.overruns }
      else { x with countdown := x.countdown - 1 }) }

/-- The state after the countdowns of a boundary that begins the frame: every slot on the periodic list has run its own, the report
origins of those that overran have joined in slot order, and nothing else has changed (R69, R70, R79). -/
def State.countdownsRun (s v : State) (frame : Nat) : Prop :=
  (∀ n, v.campaign n = if n ∈ s.cen.periodic then afterCountdown frame (s.campaign n) else s.campaign n)
    ∧ v = { s with
        cen := { s.cen with slots := v.cen.slots }
        clk := { s.clk with reports := (joined s.clk.reports
          ((s.cen.periodic.filter (fun n => overrunsAt frame (s.campaign n))).map Origin.campaign)) } }

/-- The slot is a candidate of the dispatch pass as a periodic one: IDLE_PERIODIC with the pending-due mark set (R80, group 3). -/
def State.duePeriodic (s : State) (n : Slot) : Prop :=
  (s.campaign n).state = .idlePeriodic ∧ ∃ x, (s.campaign n).periodic = some x ∧ x.due = true

/-! ## The transmitter -/

/-- A frame's transmission ends and leaves the state in which the next frame is chosen (R181, R185): a report's end changes nothing
else, and a sent reply leaves the head of its queue, with the receive-ready line following (R182). The end of a RESET's reply under
a pending reset is not meant, since it brings the reset (R189). -/
def State.frameEnds (s u : State) : Prop :=
  (∃ f, s.clk.transmitter = .report f) ∧ u = s
    ∨ ∃ f g rest, s.clk.transmitter = .reply f ∧ s.clk.replies = g :: rest ∧ s.clk.replies.length ≤ 8
      ∧ (s.clk.pendingReset = none ∨ f.kind ≠ 0xF0 ∨ f.body.head? ≠ some 0x5F)
      ∧ u = { s with clk := { s.clk with replies := rest, ready := s.clk.pendingReset.isNone } }

/-- The body of a campaign report, field by field (R184, R195). -/
def campaignReport (n : Slot) (x : Campaign) : List Byte :=
  [BitVec.ofNat 8 n.val, BitVec.ofNat 8 (campaignStateCode x.state),
   (match x.kind with | some kind => BitVec.ofNat 8 (campaignKindCode kind) | none => 0), BitVec.ofNat 8 x.pair.val,
   (match x.summary with | some summary => BitVec.ofNat 8 (summaryCode summary) | none => 0),
   (match x.failure with | some reason => BitVec.ofNat 8 (reasonCode reason) | none => 0),
   (match x.periodic with | some part => BitVec.ofNat 8 (part.overruns / 256) | none => 0),
   (match x.periodic with | some part => BitVec.ofNat 8 part.overruns | none => 0)]

/-- The body of an order report, field by field (R153, R184, R195). -/
def orderReport (k : OrderNo) (o : Order) : List Byte :=
  [BitVec.ofNat 8 k.val, BitVec.ofNat 8 (orderStateCode o.state),
   (match o.reason with | some reason => BitVec.ofNat 8 (reasonCode reason) | none => 0),
   BitVec.ofNat 8 (o.entry.val / 256), BitVec.ofNat 8 o.entry.val, BitVec.ofNat 8 o.pair.val,
   BitVec.ofNat 8 (actionCode o.action), BitVec.ofNat 8 o.attempts,
   (match o.lastOutcome with | some outcome => BitVec.ofNat 8 (outcomeCode outcome) | none => 0)]
  ++ match o.confirm with
    | none => [0, 0, 0, 0, 0, 0]
    | some r =>
      [1, (match r.summary with | some summary => BitVec.ofNat 8 (summaryCode summary) | none => 0),
       (match r.verdict with | some cls => BitVec.ofNat 8 (classCode cls) | none => 0),
       BitVec.ofNat 8 (r.amplitude.getD 0 / 65536), BitVec.ofNat 8 (r.amplitude.getD 0 / 256),
       BitVec.ofNat 8 (r.amplitude.getD 0)]

/-- The body of a store report after an operation has ended, field by field (R170, R195). -/
def storeReport : LastOp → List Byte
  | .erase block => [1, BitVec.ofNat 8 block.val, 0, 0, 0, 0, 0]
  | .commit pair first staged programmed stop =>
    [2, BitVec.ofNat 8 pair.val, BitVec.ofNat 8 (first.val / 256), BitVec.ofNat 8 first.val, BitVec.ofNat 8 staged,
     BitVec.ofNat 8 programmed, BitVec.ofNat 8 (reasonCode stop)]

/-- What the transmitter begins with as it chooses its next frame, and what that changes (R184, R185): the reply at the head of its
queue; with no reply the report of the origin at the head, which leaves its queue, an order's record freed with it (R153); with
neither it is idle. A pair's report is not said here. -/
def State.beginsNext (u t : State) : Prop :=
  (∀ f rest, u.clk.replies = f :: rest → t = { u with clk := { u.clk with transmitter := .reply f } })
    ∧ (u.clk.replies = [] → u.clk.reports = [] → t = { u with clk := { u.clk with transmitter := .idle } })
    ∧ ∀ origin rest, u.clk.replies = [] → u.clk.reports = origin :: rest →
      (∀ n, origin = .campaign n → t = { u with clk := { u.clk with
          reports := rest
          transmitter := .report
            { source := (u.campaign n).requester, tag := 0, kind := 0xE0, body := campaignReport n (u.campaign n) } } })
      ∧ (∀ k o, origin = .order k → u.order k = some o → t = { u with
          isu := { u.isu with orders := u.isu.orders.set k none, acceptance := u.isu.acceptance.filter (fun m => m != k) }
          clk := { u.clk with
            reports := rest
            transmitter := .report { source := o.requester, tag := 0, kind := 0xE1, body := orderReport k o } } })
      ∧ (∀ last, origin = .store → u.bst.lastOp = some last → t = { u with clk := { u.clk with
          reports := rest, transmitter := .report { source := 0, tag := 0, kind := 0xE3, body := storeReport last } } })
      ∧ (origin = .system → t = { u with clk := { u.clk with
          reports := rest
          transmitter := .report
            { source := 0, tag := 0, kind := 0xE4,
              body := [match u.clk.lastReset.1 with | .cold => 1 | .warm => 2,
                       match u.clk.lastReset.2 with | .powerOn => 1 | .request => 2 | .lineBreak => 3] } } })

/-! ## Bytes on the line -/

/-- The body length of each request kind but PATH_APPEND (R194). -/
def bodyLengths : List (Byte × Nat) :=
  [(0x01, 0), (0x02, 2), (0x03, 2), (0x04, 4), (0x05, 0), (0x06, 0), (0x07, 0), (0x08, 1), (0x09, 3), (0x0A, 0), (0x0B, 0),
   (0x0C, 5), (0x10, 1), (0x11, 2), (0x20, 11), (0x21, 14), (0x22, 1), (0x23, 1), (0x28, 6), (0x29, 1), (0x30, 1), (0x31, 5),
   (0x32, 4), (0x33, 3), (0x40, 6), (0x41, 2), (0x43, 1), (0x48, 3), (0x49, 3), (0x4A, 3), (0x4B, 3), (0x4C, 6), (0x50, 10),
   (0x51, 1), (0x58, 1), (0x5F, 1)]

/-- A body has the length its kind's layout calls for; that of PATH_APPEND is 2 + 6·count (R194). -/
def bodyFits (kind : Byte) (body : List Byte) : Prop :=
  (kind, body.length) ∈ bodyLengths
    ∨ kind = 0x42 ∧ ∃ restart count rest, body = restart :: count :: rest ∧ rest.length = 6 * count.toNat

/-- The states the part goes through as characters arrive one after another. -/
def receiveAll : List Byte → State → Result
  | [], s => .next s
  | b :: rest, s =>
    match exec (.characterReceived b) s with
    | .next t => receiveAll rest t
    | .fault r => .fault r
    | .refused r => .refused r

end Sys2Proof.Machine
end

