-- ==== Sys2Proof/Certificates/Slice0/Obligations.lean ====
section
/-! DEFINITION. The statements for the provers. Each names the rules of spec/ it formalises. -/

open Sys2Proof Sys2Proof.Machine

/-! ## Steps -/

/-- A step carries out the command at the front of the queue, whatever it is, on the state with the queue's rest; on an empty
queue the part idles (the model's choice, log 19 and log 20). -/
def Obligations.StepRunsTheFrontCommand : Prop :=
  (∀ (c : Instr) (rest : List Instr) (s : State),
      step { s with pending := c :: rest } = exec c { s with pending := rest })
    ∧ ∀ s : State, s.pending = [] → step s = .next s

/-! ## Resets -/

/-- POWER_ON is a cold reset: every block stands at the values its reset rule gives (R21, R39, R59, R61, R72, R101, R125, R127,
R135, R158, R177), the part STARTING with the cause recorded and the strap read (R174, R191); the image is cleared and its load begun,
the store's slots kept (R171), but for the block of an erase under way, which is BLANK after it: R172 says so of a reset, and that a
power-on is meant too is the model's reading (log 33). Every campaign record is FREE with its fields absent (R101). The line is
taken to be at mark (log 13). -/
def Obligations.PowerOnIsAColdReset : Prop :=
  ∀ (strap : LineRate) (s : State), ∃ t, exec (.powerOn strap) s = .next t
    ∧ (∀ i, t.entry i = none)
    ∧ (∀ i p, t.record i p =
        { condition := .unmeasured, isolation := .nothing, lastClass := none, amplitude := 0, echo := -12000, gain := none,
          deviation := none, offset := 0, frame := none, changed := false })
    ∧ (∀ p, t.path p = []) ∧ (∀ src, t.span src = 0 ∧ t.assemblyList src = [])
    ∧ (∀ c, t.channel c = { state := .disconnected, point := none, probe := none, holder := none })
    ∧ (∀ c p, t.pointEnabled c p = true) ∧ (∀ p, t.ceiling p = -3000 ∧ t.darkMark p = false)
    ∧ t.ecr.extents = [] ∧ t.ecr.floor = 8
    ∧ t.fga.frame = 0 ∧ t.fga.interval = 5000 ∧ t.fga.pendingInterval = none ∧ t.fga.service = List.finRange 16
    ∧ (∀ p : Pair, t.fga.lastServed[p] = none ∧ t.fga.previous[p] = none)
    ∧ (∀ n, t.campaign n = {}) ∧ t.cen.demand = [] ∧ t.cen.periodic = []
    ∧ (∀ p, t.chain p = []) ∧ t.flo.tStep = 150 ∧ t.flo.tDrift = 300 ∧ (∀ p, t.lineDarkMark p = false)
    ∧ (∀ g, t.gate g = none) ∧ (∀ n, t.order n = none) ∧ t.isu.acceptance = []
    ∧ t.isu.settings = { chip := 1, sequence := 2, limit := 3 }
    ∧ t.clk = { assembler := .hunting, levels := t.clk.levels, replies := [], reports := [], transmitter := .idle,
                ready := true, part := .starting, lastReset := (.cold, .powerOn), pendingReset := none, rate := strap,
                lineAtSpace := false, breakSpent := false }
    ∧ (∀ src : Source, t.level src = if src = 0 then 0 else 3)
    ∧ (∀ p i, t.baseline p i = none) ∧ t.bst.staging = [] ∧ t.bst.op = .loading ∧ t.bst.lastOp = none
    ∧ (∀ slot i : Nat, i < 8 → slotByte t.bst.store slot i
        = (match s.bst.op with
           | .erasing block => if slot / 256 = block.val then 0xFF else slotByte s.bst.store slot i
           | _ => slotByte s.bst.store slot i))
    ∧ t.pending = s.pending

/-- BREAK_RESET while READY is a warm reset with cause BREAK: the plant, the enable marks, the ceilings, the interval last
taken, the floor, the thresholds, the gates, the order settings and the source levels are kept; ISOLATING records are UNRESOLVED
with their changed marks set; channels, extents, campaigns, orders, the acceptance list, the staging buffer and the DARK and
LINE_DARK marks are gone; a store operation under way ends as R172 says (R22, R39, R59, R61, R72, R101, R125, R158, R172, R190,
R191). The system origin and the pairs with changed marks are queued, the pairs ascending and the system origin before or after
them by a free value (the model's choice, log 3), and the first of their reports is being sent at once (the model's choice, log
18). During STARTING it is a cold reset with cause BREAK, and a break that has made its reset makes no second one (R190, R191).
-/
def Obligations.BreakResetIsWarmOrColdByThePart : Prop :=
  (∀ (strap : LineRate) (s : State), s.clk.part = .ready → s.clk.lineAtSpace = true → s.clk.breakSpent = false →
      ∃ t, exec (.breakReset strap) s = .next t
        ∧ (∀ i, t.entry i = (s.entry i).map (fun e => { e with mark := false }))
        ∧ (∀ i p, (t.record i p).condition
            = if (s.record i p).condition = .isolating then .unresolved else (s.record i p).condition)
        ∧ (∀ i p, t.record i p =
            { s.record i p with condition := (t.record i p).condition, changed := (t.record i p).changed })
        ∧ (∀ p, t.path p = s.path p) ∧ (∀ src, t.span src = s.span src ∧ t.assemblyList src = [])
        ∧ (∀ c, t.channel c = { state := .disconnected, point := none, probe := none, holder := none })
        ∧ t.pch.enabled = s.pch.enabled ∧ t.pch.ceilings = s.pch.ceilings ∧ (∀ p, t.darkMark p = false)
        ∧ t.ecr.extents = [] ∧ t.ecr.floor = s.ecr.floor
        ∧ t.fga.frame = 0 ∧ t.fga.interval = s.fga.pendingInterval.getD s.fga.interval ∧ t.fga.pendingInterval = none
        ∧ t.fga.service = List.finRange 16 ∧ (∀ p : Pair, t.fga.lastServed[p] = none ∧ t.fga.previous[p] = none)
        ∧ (∀ n, t.campaign n = {}) ∧ t.cen.demand = [] ∧ t.cen.periodic = [] ∧ (∀ p, t.chain p = [])
        ∧ t.flo.tStep = s.flo.tStep ∧ t.flo.tDrift = s.flo.tDrift ∧ (∀ p, t.lineDarkMark p = false)
        ∧ t.isu.gates = s.isu.gates ∧ t.isu.settings = s.isu.settings ∧ (∀ n, t.order n = none) ∧ t.isu.acceptance = []
        ∧ t.bst.op = .idle ∧ t.bst.lastOp = none ∧ t.bst.staging = []
        ∧ (s.bst.op = .idle → t.bst.store = s.bst.store ∧ t.bst.image = s.bst.image)
        ∧ (∀ block, s.bst.op = .erasing block →
            (∀ slot, slotBytes t.bst.store slot =
              if slot / 256 = block.val then List.replicate 8 0xFF else slotBytes s.bst.store slot)
            ∧ ∀ (q : Pair) (i : Index), t.baseline q i =
              if q.val = block.val / 2 ∧ i.val / 256 = block.val % 2 then
                (s.baseline q i).map (fun b => { b with stored := false })
              else s.baseline q i)
        ∧ (∀ job, s.bst.op = .programming job → t.bst.store = s.bst.store
            ∧ ∀ q i, t.baseline q i = match s.baseline q i with
              | some b => some { b with stored := b.stored || (decide (q = job.pair) && job.written.any (fun x =>
                  x.index == i && x.baseline.any (fun d => d.gain == b.gain && d.address == b.address))) }
              | none => none)
        ∧ t.clk = { assembler := .hunting, levels := s.clk.levels, replies := [], reports := t.clk.reports,
                    transmitter := t.clk.transmitter, ready := true, part := .ready, lastReset := (.warm, .lineBreak),
                    pendingReset := none, rate := strap, lineAtSpace := true, breakSpent := true }
        ∧ (∀ (marked : Index → Pair → Bool) (pairs : List Pair),
            (∀ i p, marked i p = ((s.record i p).changed || (s.record i p).condition == .isolating)) →
            pairs = allPairs.filter (fun p => (List.finRange 272).any (fun i => marked i p)) →
            t.clk.transmitter = .report { source := 0, tag := 0, kind := 0xE4, body := [2, 3] }
              ∧ t.clk.reports = pairs.map Origin.pair ∧ (∀ i p, (t.record i p).changed = marked i p)
            ∨ ∃ (p : Pair) (rest : List Pair) (carried : List Index) (body : List Byte), pairs = p :: rest
              ∧ carried = (List.finRange 272).filter (fun i => marked i p)
              ∧ t.clk.transmitter = .report { source := 0, tag := 0, kind := 0xE2, body := BitVec.ofNat 8 p.val :: body }
              ∧ t.clk.reports = rest.map Origin.pair ++ .system :: (if 128 < carried.length then [.pair p] else [])
              ∧ ∀ i q, (t.record i q).changed = (marked i q && !(decide (q = p) && decide (i ∈ carried.take 128))))
        ∧ t.pending = s.pending)
    ∧ (∀ (strap : LineRate) (s : State), s.clk.part = .starting → s.clk.lineAtSpace = true → s.clk.breakSpent = false →
      ∃ t u, exec (.breakReset strap) s = .next t ∧ exec (.powerOn strap) s = .next u
        ∧ t = { u with clk := { u.clk with lastReset := (.cold, .lineBreak), lineAtSpace := true, breakSpent := true } })
    ∧ ∀ (strap : LineRate) (s : State), s.clk.breakSpent = true → exec (.breakReset strap) s = .next s

/-! ## The serial line -/

/-- FRAMING_ERROR, BREAK and INTER_CHARACTER_GAP discard a partial frame and return the assembler to HUNTING; a break holds the
line at space until LINE_RETURNS_TO_MARK; nothing else changes (R174, R175, R190). -/
def Obligations.LineEventsDiscardThePartialFrame : Prop :=
  ∀ s : State,
    exec .framingError s = .next { s with clk := { s.clk with assembler := .hunting } }
    ∧ exec .interCharacterGap s = .next { s with clk := { s.clk with assembler := .hunting } }
    ∧ (s.clk.lineAtSpace = false → exec .lineBreak s
        = .next { s with clk := { s.clk with assembler := .hunting, lineAtSpace := true, breakSpent := false } })
    ∧ exec .lineReturnsToMark s = .next { s with clk := { s.clk with lineAtSpace := false, breakSpent := false } }

/-- CHARACTER_RECEIVED moves the assembler as R175 says while the line is not in a break; a frame whose CRC is wrong is dropped;
nothing else changes. A complete frame whose kind is no request is refused UNKNOWN_KIND, and one of a known kind whose body has
not the length its layout calls for is refused STARTING or MALFORMED, by the order of the link's checks (R179, R194). During a
break no byte is taken (R174). -/
def Obligations.CharactersMoveTheAssembler : Prop :=
  ∀ (b : Byte) (s : State),
    (s.clk.lineAtSpace = true → exec (.characterReceived b) s = .next s)
    ∧ (s.clk.lineAtSpace = false →
        (s.clk.assembler = .hunting → b ≠ 0xC3 → exec (.characterReceived b) s = .next s)
        ∧ (s.clk.assembler = .hunting → b = 0xC3 →
            exec (.characterReceived b) s = .next { s with clk := { s.clk with assembler := .length [] } })
        ∧ (s.clk.assembler = .length [] →
            exec (.characterReceived b) s = .next { s with clk := { s.clk with assembler := .length [b] } })
        ∧ (∀ high : Byte, s.clk.assembler = .length [high] →
            exec (.characterReceived b) s = .next { s with clk := { s.clk with
              assembler := if 3 ≤ high.toNat * 256 + b.toNat ∧ high.toNat * 256 + b.toNat ≤ 515 then
                .content (high.toNat * 256 + b.toNat) [high, b] else .hunting } })
        ∧ (∀ (n : Nat) (got : List Byte), s.clk.assembler = .content n got → got.length < n + 3 →
            exec (.characterReceived b) s = .next { s with clk := { s.clk with assembler := .content n (got ++ [b]) } })
        ∧ (∀ (n : Nat) (counted : List Byte) (high : Byte), s.clk.assembler = .content n (counted ++ [high]) →
            counted.length = n + 2 → crc16 counted ≠ high ++ b →
            exec (.characterReceived b) s = .next { s with clk := { s.clk with assembler := .hunting } })
        ∧ ∀ (n : Nat) (counted : List Byte) (high : Byte) (h : Header) (src : Source) (kind : Byte) (body : List Byte),
            s.clk.assembler = .content n (counted ++ [high]) → counted.length = n + 2 → crc16 counted = high ++ b →
            counted.drop 2 = (h.source ++ h.acting) :: h.tag :: kind :: body → s.answers h src →
            (isRequestKind kind = false → exec (.characterReceived b) s = .next
              ({ s with clk := { s.clk with assembler := .hunting } }.withReply (refusedReply src h kind .unknownKind)))
            ∧ (isRequestKind kind = true → ¬ bodyFits kind body →
              (s.clk.part = .starting → kind ≠ 0x01 → exec (.characterReceived b) s = .next
                ({ s with clk := { s.clk with assembler := .hunting } }.withReply (refusedReply src h kind .starting)))
              ∧ (s.clk.part = .ready ∨ kind = 0x01 → exec (.characterReceived b) s = .next
                ({ s with clk := { s.clk with assembler := .hunting } }.withReply (refusedReply src h kind .malformed)))))

/-- The bytes of a request's frame, received one after another from HUNTING with the line not in a break, do what the request
itself does: length, CRC, source, level, tag, kind and body are read as they were sent (R175, R176, R192, R194). -/
def Obligations.ReceivedFrameIsTheRequest : Prop :=
  ∀ (i : Instr) (f : SentFrame) (s : State), i.wellFormed = true → requestFrame i = some f → s.clk.assembler = .hunting →
    s.clk.lineAtSpace = false → receiveAll (sentBytes f) s = exec i s

/-- Every request is read back from the body its layout gives it (R194): no field is dropped. -/
def Obligations.RequestReadsBackFromItsFrame : Prop :=
  ∀ (i : Instr) (f : SentFrame), i.wellFormed = true → requestFrame i = some f → isRequestKind f.kind = true →
    readRequest f.header f.kind f.body = some i

/-! ## Taking requests -/

/-- A complete frame is discarded, changing nothing, if its source field is 8..15, or 8 replies are queued, or a reset is
pending (R176, R179, R182). -/
def Obligations.FramesAreDiscardedWithoutReply : Prop :=
  ∀ (i : Instr) (f : SentFrame) (s : State), requestFrame i = some f →
    8 ≤ f.header.source.toNat ∨ 8 ≤ s.clk.replies.length ∨ s.clk.pendingReset ≠ none → exec i s = .next s

/-- A frame of a kind that is no request is refused UNKNOWN_KIND, the reply repeating the kind, before every other check; nothing
else changes (R179, R181, R195). -/
def Obligations.UnknownKindIsRefused : Prop :=
  ∀ (h : Header) (kind : Byte) (src : Source) (s : State), isRequestKind kind = false → s.answers h src →
    exec (.unknownKindRequest h kind) s = .next (s.withReply (refusedReply src h kind .unknownKind))

/-- While the part is STARTING every request but STATUS is refused STARTING; while it is READY, a request with an acting level field
of 4..15, or with a body that is not made as its layout calls for, is refused MALFORMED. Nothing else changes (R176, R179, R186, R191,
R193, R194). -/
def Obligations.StartingAndMalformedRequestsAreRefused : Prop :=
  ∀ (i : Instr) (f : SentFrame) (src : Source) (s : State), requestFrame i = some f → isRequestKind f.kind = true →
    s.answers f.header src →
    (s.clk.part = .starting → f.kind ≠ 0x01 → exec i s = .next (s.withReply (refusedReply src f.header f.kind .starting)))
    ∧ (s.clk.part = .ready → 4 ≤ f.header.acting.toNat ∨ ¬ wellMadeBody i →
      exec i s = .next (s.withReply (refusedReply src f.header f.kind .malformed)))

/-- Each request kind requires a level: with an effective level, the greater of the source's level and the acting level, above
it, the request is refused LEVEL and changes nothing else (R176, R180). -/
def Obligations.LevelIsRequired : Prop :=
  ∀ (i : Instr) (f : SentFrame) (src : Source) (acting : Level) (s : State), requestFrame i = some f →
    isRequestKind f.kind = true → s.answers f.header src → s.clk.part = .ready → wellMadeBody i →
    f.header.acting.toNat = acting.val → requiredLevel i < max (s.level src) acting →
    exec i s = .next (s.withReply (refusedReply src f.header f.kind .level))


/-- A request the link answers has exactly one reply: REFUSED with nothing else changed, or ACCEPTED with what its rule does (R179,
R181). No other reply is queued or lost. -/
def Obligations.EveryRequestHasOneReply : Prop :=
  ∀ (i : Instr) (f : SentFrame) (src : Source) (s : State), requestFrame i = some f → s.answers f.header src →
    (∃ r, exec i s = .next (s.withReply (refusedReply src f.header f.kind r)))
    ∨ ∃ (t : State) (data : List Byte), exec i s = .next (t.withReply (acceptedReply src f.header f.kind data)) ∧ t.clk.replies = s.clk.replies

/-! ## The Line Plant Table -/

/-- References resolve as R4's table says, an S reference by the source's own span selection; SELECT_SPAN sets that selection and
no other, refused RANGE above 15; a cold reset makes every selection 0 and a warm one keeps them (R4, R5). -/
def Obligations.SelectSpanSetsOneSelection : Prop :=
  (∀ (src : Source) (number : Byte) (s : State),
      s.resolve src ⟨0, number⟩ = (if h : number.toNat < 16 then some ⟨number.toNat, by omega⟩ else none)
      ∧ s.resolve src ⟨1, number⟩ = some ⟨16 + number.toNat, by have := number.isLt; omega⟩
      ∧ s.resolve src ⟨2, number⟩ = (if h : number.toNat < 16 then
          some ⟨16 + 16 * (s.span src).val + number.toNat, by have := (s.span src).isLt; omega⟩ else none))
    ∧ (∀ (h : Header) (span : Byte) (src : Source) (effective : Level) (s : State), s.takes h src effective 3 →
        (∀ n : Fin 16, span.toNat = n.val → exec (.selectSpan h span) s = .next
          ({ s with lpt := { s.lpt with spans := s.lpt.spans.set src n } }.withReply (acceptedReply src h 0x10 [span])))
        ∧ (16 ≤ span.toNat → exec (.selectSpan h span) s = .next (s.withReply (refusedReply src h 0x10 .range))))
    ∧ ∀ (strap : LineRate) (s : State), (∃ t, exec (.powerOn strap) s = .next t ∧ ∀ src, t.span src = 0)
        ∧ (s.clk.part = .ready → s.clk.lineAtSpace = true → s.clk.breakSpent = false →
          ∃ t, exec (.breakReset strap) s = .next t ∧ ∀ src, t.span src = s.span src)

/-- An accepted DEFINE_ENTRY writes the entry and puts its 16 records into their starting values; on a redefinition each record
that was not UNMEASURED is marked and its pair queued; nothing else changes (R6, R7, R11). A record that was UNMEASURED keeps
its changed mark (the model's choice, log 25), and the pairs that change join the queue in ascending order (the model's choice,
log 36). Otherwise it is refused by the first check of R6 that fails: RANGE, WRONG_KIND, RANGE, IN_USE, DUPLICATE (R6). -/
def Obligations.DefineEntryWritesTheEntry : Prop :=
  (∀ (h : Header) (ref : Reference) (kind address spare route : Byte) (src : Source) (effective : Level) (i : Index)
      (k : EntryKind) (s : State), s.takes h src effective 0 → ref.kind.toNat ≤ 2 → s.resolve src ref = some i →
      (kind = 1 ∧ 16 ≤ i.val ∧ (∃ n : Fin 3, spare.toNat = n.val ∧ k = .line n)
        ∨ kind = 2 ∧ i.val < 16 ∧ (route = 0 ∧ k = .branching .a ∨ route = 1 ∧ k = .branching .b)
        ∨ kind = 3 ∧ i.val < 16 ∧ k = .equalizer) →
      1 ≤ address.toNat → address.toNat ≤ 254 →
      (∀ e, s.entry i = some e → e.mark = false ∧ ∀ p, ∀ x ∈ s.path p, x.entry ≠ i) →
      (∀ j e, j ≠ i → s.entry j = some e → e.address ≠ address) →
      ∃ t : State, exec (.defineEntry h ref kind address spare route) s = .next (t.withReply (acceptedReply src h 0x40 (u16 i.val)))
        ∧ (∀ j, t.entry j = if j = i then some { kind := k, address := address, mark := false } else s.entry j)
        ∧ (∀ j p, t.record j p = if j = i then
              { condition := .unmeasured, isolation := .nothing, lastClass := none, amplitude := 0, echo := -12000, gain := none,
                deviation := none, offset := 0, frame := none,
                changed := (s.record i p).changed || !((s.record i p).condition == .unmeasured) }
            else s.record j p)
        ∧ t.clk.reports = joined s.clk.reports
            ((allPairs.filter (fun p => !((s.record i p).condition == .unmeasured))).map Origin.pair)
        ∧ t = { s with lpt := { s.lpt with entries := t.lpt.entries, records := t.lpt.records },
                       clk := { s.clk with reports := t.clk.reports } })
    ∧ ∀ (h : Header) (ref : Reference) (kind address spare route : Byte) (src : Source) (effective : Level) (s : State),
      s.takes h src effective 0 → ref.kind.toNat ≤ 2 → (kind = 2 → route.toNat ≤ 1) →
      (s.resolve src ref = none →
        exec (.defineEntry h ref kind address spare route) s = .next (s.withReply (refusedReply src h 0x40 .range)))
      ∧ ∀ i, s.resolve src ref = some i →
        (¬ (kind = 1 ∧ 16 ≤ i.val ∨ kind = 2 ∧ i.val < 16 ∨ kind = 3 ∧ i.val < 16) →
          exec (.defineEntry h ref kind address spare route) s = .next (s.withReply (refusedReply src h 0x40 .wrongKind)))
        ∧ ((kind = 1 ∧ 16 ≤ i.val ∨ kind = 2 ∧ i.val < 16 ∨ kind = 3 ∧ i.val < 16) →
          (address.toNat = 0 ∨ 254 < address.toNat ∨ kind = 1 ∧ 2 < spare.toNat →
            exec (.defineEntry h ref kind address spare route) s = .next (s.withReply (refusedReply src h 0x40 .range)))
          ∧ (1 ≤ address.toNat → address.toNat ≤ 254 → (kind = 1 → spare.toNat ≤ 2) →
            (∀ e, s.entry i = some e → (e.mark = true ∨ ∃ p, ∃ x ∈ s.path p, x.entry = i) →
              exec (.defineEntry h ref kind address spare route) s = .next (s.withReply (refusedReply src h 0x40 .inUse)))
            ∧ ((∀ e, s.entry i = some e → e.mark = false ∧ ∀ p, ∀ x ∈ s.path p, x.entry ≠ i) →
              (∃ j e, j ≠ i ∧ s.entry j = some e ∧ e.address = address) →
              exec (.defineEntry h ref kind address spare route) s = .next (s.withReply (refusedReply src h 0x40 .duplicate)))))

/-- An accepted DROP_ENTRY leaves the entry undefined and its records at their starting values with their marks clear; an
undefined entry's drop changes nothing; an entry in a path list or with an order mark is refused IN_USE (R8). -/
def Obligations.DropEntryUndefinesTheEntry : Prop :=
  ∀ (h : Header) (ref : Reference) (src : Source) (effective : Level) (s : State), s.takes h src effective 0 →
    ref.kind.toNat ≤ 2 →
    (s.resolve src ref = none → exec (.dropEntry h ref) s = .next (s.withReply (refusedReply src h 0x41 .range)))
    ∧ ∀ i, s.resolve src ref = some i →
      ((∃ p, ∃ x ∈ s.path p, x.entry = i) ∨ (∃ e, s.entry i = some e ∧ e.mark = true) →
        exec (.dropEntry h ref) s = .next (s.withReply (refusedReply src h 0x41 .inUse)))
      ∧ ((∀ p, ∀ x ∈ s.path p, x.entry ≠ i) → s.entry i = none →
        exec (.dropEntry h ref) s = .next (s.withReply (acceptedReply src h 0x41 [])))
      ∧ ((∀ p, ∀ x ∈ s.path p, x.entry ≠ i) → (∃ e, s.entry i = some e ∧ e.mark = false) →
        ∃ t : State, exec (.dropEntry h ref) s = .next (t.withReply (acceptedReply src h 0x41 []))
          ∧ (∀ j, t.entry j = if j = i then none else s.entry j)
          ∧ (∀ j p, t.record j p = if j = i then
                { condition := .unmeasured, isolation := .nothing, lastClass := none, amplitude := 0, echo := -12000,
                  gain := none, deviation := none, offset := 0, frame := none, changed := false }
              else s.record j p)
          ∧ t = { s with lpt := { s.lpt with entries := t.lpt.entries, records := t.lpt.records } })

/-- CLEAR_CONDITION sets the named records' conditions to UNMEASURED, marking and queueing those that change, and answers their
number; a reference that does not resolve or a pair above 15 is refused RANGE, an ISOLATING record among them ENTRY_BUSY (R11,
R12). When all pairs are named, the pairs that change join the queue in ascending order (the model's choice, log 36). -/
def Obligations.ClearConditionWithdrawsJudgement : Prop :=
  ∀ (h : Header) (ref : Reference) (pair : Byte) (src : Source) (effective : Level) (s : State),
    s.takes h src effective 1 → ref.kind.toNat ≤ 2 →
    (s.resolve src ref = none ∨ 16 ≤ pair.toNat ∧ pair ≠ 0xFF →
      exec (.clearCondition h ref pair) s = .next (s.withReply (refusedReply src h 0x33 .range)))
    ∧ ∀ (i : Index) (named : List Pair), s.resolve src ref = some i →
      (pair = 0xFF ∧ named = allPairs ∨ ∃ p : Pair, pair.toNat = p.val ∧ named = [p]) →
      ((∃ p ∈ named, (s.record i p).condition = .isolating) →
        exec (.clearCondition h ref pair) s = .next (s.withReply (refusedReply src h 0x33 .entryBusy)))
      ∧ ((∀ p ∈ named, (s.record i p).condition ≠ .isolating) →
        ∃ t : State, exec (.clearCondition h ref pair) s = .next (t.withReply (acceptedReply src h 0x33
              [BitVec.ofNat 8 (named.filter (fun p => !((s.record i p).condition == .unmeasured))).length]))
          ∧ (∀ j p, t.record j p = if j = i ∧ p ∈ named ∧ (s.record i p).condition ≠ .unmeasured then
              { s.record j p with condition := .unmeasured, changed := true } else s.record j p)
          ∧ t.clk.reports = joined s.clk.reports
              ((named.filter (fun p => !((s.record i p).condition == .unmeasured))).map Origin.pair)
          ∧ t = { s with lpt := { s.lpt with records := t.lpt.records }, clk := { s.clk with reports := t.clk.reports } })

/-- An accepted PATH_APPEND appends the resolved elements in their order, to an emptied list with the restart flag set; a reference
that does not resolve, a delay above 250,000 or a list above 128 is refused RANGE (R4, R14). -/
def Obligations.PathAppendExtendsTheAssemblyList : Prop :=
  ∀ (h : Header) (restart : Byte) (elements : List SentElement) (src : Source) (effective : Level) (s : State),
    s.takes h src effective 0 → wellMadeBody (.pathAppend h restart elements) →
    (∀ l : List PathElement, List.Forall₂ (s.resolvesTo src) elements l →
      (((if restart = 1 then [] else s.assemblyList src) ++ l).length ≤ 128 →
        exec (.pathAppend h restart elements) s = .next
          ({ s with lpt := { s.lpt with
              assembly := s.lpt.assembly.set src ((if restart = 1 then [] else s.assemblyList src) ++ l) } }.withReply
            (acceptedReply src h 0x42
              [BitVec.ofNat 8 ((if restart = 1 then [] else s.assemblyList src) ++ l).length])))
      ∧ (128 < ((if restart = 1 then [] else s.assemblyList src) ++ l).length →
        exec (.pathAppend h restart elements) s = .next (s.withReply (refusedReply src h 0x42 .range))))
    ∧ ((∃ e ∈ elements, s.resolve src e.reference = none ∨ 250000 < e.delay.toNat) →
      exec (.pathAppend h restart elements) s = .next (s.withReply (refusedReply src h 0x42 .range)))

/-- An accepted SET_PATH installs the source's assembly list, empties it, and returns the records of every entry of the old and
the new list on the pair to UNMEASURED; nothing else changes (R13, R15, R16). Otherwise it is refused by the first check of R15
that fails: RANGE for the pair, PAIR_BUSY for a chain or an order in flight, RANGE for an undefined entry, DUPLICATE, RANGE for
the remaining conditions of R13; nothing else changes (R15). -/
def Obligations.SetPathInstallsTheAssemblyList : Prop :=
  (∀ (h : Header) (pair : Byte) (src : Source) (effective : Level) (p : Pair) (s : State), s.takes h src effective 0 →
      pair.toNat = p.val → s.chain p = [] → (∀ n o, s.order n = some o → o.pair = p → o.done) →
      (∀ x ∈ s.assemblyList src, (s.entry x.entry).isSome = true) → ((s.assemblyList src).map PathElement.entry).Nodup →
      s.pathFits (s.assemblyList src) →
      ∃ t : State, exec (.setPath h pair) s = .next (t.withReply (acceptedReply src h 0x43
            [BitVec.ofNat 8 (s.assemblyList src).length, BitVec.ofNat 8 (t.effectivePath p).length]))
        ∧ t.path p = s.assemblyList src ∧ t.assemblyList src = []
        ∧ (∀ q, q ≠ p → t.path q = s.path q) ∧ (∀ q, q ≠ src → t.assemblyList q = s.assemblyList q)
        ∧ (∀ i q, t.record i q = if q = p ∧ (∃ x ∈ s.path p ++ s.assemblyList src, x.entry = i)
              ∧ (s.record i p).condition ≠ .unmeasured then
            { s.record i q with condition := .unmeasured, changed := true } else s.record i q)
        ∧ t.clk.reports = joined s.clk.reports
            (if ∃ x ∈ s.path p ++ s.assemblyList src, (s.record x.entry p).condition ≠ .unmeasured then [.pair p] else [])
        ∧ t = { s with lpt := { s.lpt with records := t.lpt.records, paths := t.lpt.paths, assembly := t.lpt.assembly },
                       clk := { s.clk with reports := t.clk.reports } })
    ∧ ∀ (h : Header) (pair : Byte) (src : Source) (effective : Level) (s : State), s.takes h src effective 0 →
      (16 ≤ pair.toNat → exec (.setPath h pair) s = .next (s.withReply (refusedReply src h 0x43 .range)))
      ∧ ∀ p : Pair, pair.toNat = p.val →
        (s.chain p ≠ [] ∨ (∃ n o, s.order n = some o ∧ o.pair = p ∧ ¬ o.done) →
          exec (.setPath h pair) s = .next (s.withReply (refusedReply src h 0x43 .pairBusy)))
        ∧ (s.chain p = [] → (∀ n o, s.order n = some o → o.pair = p → o.done) →
          ((∃ x ∈ s.assemblyList src, s.entry x.entry = none) →
            exec (.setPath h pair) s = .next (s.withReply (refusedReply src h 0x43 .range)))
          ∧ ((∀ x ∈ s.assemblyList src, (s.entry x.entry).isSome = true) →
            (¬ ((s.assemblyList src).map PathElement.entry).Nodup →
              exec (.setPath h pair) s = .next (s.withReply (refusedReply src h 0x43 .duplicate)))
            ∧ (((s.assemblyList src).map PathElement.entry).Nodup → ¬ s.pathFits (s.assemblyList src) →
              exec (.setPath h pair) s = .next (s.withReply (refusedReply src h 0x43 .range)))))

/-! ## Queries -/

/-- A query answers the data its rule lists, laid out as R193 says, and changes nothing but the reply queue; an identifier or a
reference out of its range is refused RANGE; a first place outside a results list shows a total of 0 and no elements (R18,
R19, R20, R38, R58, R99, R100, R157, R173, R193, R196). The model's choices in the layout: the runs without a count (log 5),
the presence bytes (log 6), the longest run among equals (log 12), and the forms of logs 35 and 38. -/
def Obligations.QueriesChangeNothing : Prop :=
  ∀ (h : Header) (src : Source) (effective : Level) (s : State), s.takes h src effective 3 →
    -- READ_ENTRY and READ_SPAN
    (∀ ref : Reference, ref.kind.toNat ≤ 2 →
      (s.resolve src ref = none → exec (.readEntry h ref) s = .next (s.withReply (refusedReply src h 0x02 .range)))
      ∧ ∀ i, s.resolve src ref = some i → exec (.readEntry h ref) s = .next (s.withReply (acceptedReply src h 0x02
        (u16 i.val ++ (match s.entry i with
          | none => [0, 0, 0, 0, 0, 0, 0, 0, 0, 0]
          | some e =>
            [1] ++ (match e.kind with
              | .line n => [1, 1, 1, e.address, 1, BitVec.ofNat 8 n.val, 0, 0]
              | .branching leg => [1, 2, 1, e.address, 0, 0, 1, if leg = .a then 0 else 1]
              | .equalizer => [1, 3, 1, e.address, 0, 0, 0, 0]) ++ flagByte e.mark)
        ++ allPairs.flatMap (fun p =>
          u8 (conditionCode (s.record i p).condition) ++ u8 (isolationCode (s.record i p).isolation)
            ++ optional 1 (fun c => u8 (classCode c)) (s.record i p).lastClass ++ u24 (s.record i p).amplitude
            ++ i16 (s.record i p).echo ++ optional 2 i16 (s.record i p).gain ++ optional 2 i16 (s.record i p).deviation
            ++ i8 (s.record i p).offset ++ optional 2 u16 (s.record i p).frame ++ flagByte (s.record i p).changed)))))
    ∧ (∀ span pair : Byte,
      (16 ≤ span.toNat ∨ 16 ≤ pair.toNat → exec (.readSpan h span pair) s = .next (s.withReply (refusedReply src h 0x03 .range)))
      ∧ ∀ (p : Pair) (indices : List Index), pair.toNat = p.val → span.toNat < 16 →
        indices.map Fin.val = List.range' (16 + 16 * span.toNat) 16 →
        exec (.readSpan h span pair) s = .next (s.withReply (acceptedReply src h 0x03 (indices.flatMap (fun i =>
          (match s.entry i with
            | none => [0, 0, 0, 0, 0, 0]
            | some e => [1, 1, e.address] ++ (match e.kind with
                | .line n => [1, BitVec.ofNat 8 n.val]
                | .branching _ | .equalizer => [0, 0]) ++ flagByte e.mark)
          ++ u8 (conditionCode (s.record i p).condition) ++ u8 (isolationCode (s.record i p).isolation)
          ++ optional 1 (fun c => u8 (classCode c)) (s.record i p).lastClass ++ optional 2 i16 (s.record i p).gain
          ++ optional 2 i16 (s.record i p).deviation ++ optional 2 u16 (s.record i p).frame)))))
    -- READ_PATH
    ∧ (∀ pair view first count : Byte, view.toNat ≤ 1 →
      (16 ≤ pair.toNat → exec (.readPath h pair view first count) s = .next (s.withReply (refusedReply src h 0x04 .range)))
      ∧ ∀ (p : Pair) (l : List PathElement) (branch : Option (Index × Leg)), pair.toNat = p.val →
        l = (if view = 0 then s.path p else s.effectivePath p) →
        (branch = none ∧ (∀ x ∈ s.path p, ¬ s.branches x.entry)
          ∨ ∃ before x later e leg, s.path p = before ++ x :: later ∧ (∀ y ∈ before, ¬ s.branches y.entry)
            ∧ s.entry x.entry = some e ∧ e.kind = .branching leg ∧ branch = some (x.entry, leg)) →
        exec (.readPath h pair view first count) s = .next (s.withReply (acceptedReply src h 0x04
          (u8 l.length ++ optional 3 (fun b : Index × Leg => u16 b.1.val ++ [if b.2 = .a then 0 else 1]) branch
            ++ counted (fun x : PathElement => u16 x.entry.val ++ u24 x.delay
                ++ ([match x.tag with | none => 0 | some .a => 1 | some .b => 2] : List Byte))
              (if first = 0 then [] else (l.drop (first.toNat - 1)).take (max 1 (min 64 count.toNat)))))))
    -- READ_CHANNELS and READ_EXTENTS
    ∧ exec (.readChannels h) s = .next (s.withReply (acceptedReply src h 0x05
        (allChannels.flatMap (fun c =>
          u8 (channelStateCode (s.channel c).state) ++ optional 1 (fun p : Pair => u8 p.val) (s.channel c).point
            ++ (match (s.channel c).holder with
              | none => [0, 0, 0]
              | some (.slice n _ _) => [1, 1, BitVec.ofNat 8 n.val]
              | some (.order k) => [1, 2, BitVec.ofNat 8 k.val])
            ++ optional 8 (fun g : Signature => u8 g.pair.val ++ u8 g.chip.val ++ u8 g.sequence.val ++ u16 g.level
                ++ u8 g.reference.val ++ i16 (probeLevel g.level g.reference)) (s.channel c).probe)
        ++ allPairs.flatMap (fun p => i16 (s.ceiling p) ++ flagByte (s.darkMark p))
        ++ allChannels.flatMap (fun c => allPairs.flatMap (fun p => flagByte (s.pointEnabled c p))))))
    ∧ (∀ longest : Option (Nat × Nat), s.ecr.extents.Pairwise (fun e f => e.start + e.length ≤ f.start) →
        (∀ e ∈ s.ecr.extents, 0 < e.length ∧ e.start + e.length ≤ 8192) →
        (longest = none ∧ (∀ a, a < 8192 → ∃ e ∈ s.ecr.extents, e.start ≤ a ∧ a < e.start + e.length)
          ∨ ∃ start length, longest = some (start, length) ∧ 0 < length ∧ start + length ≤ 8192
            ∧ (∀ e ∈ s.ecr.extents, start + length ≤ e.start ∨ e.start + e.length ≤ start)
            ∧ ∀ b m, 0 < m → b + m ≤ 8192 → (∀ e ∈ s.ecr.extents, b + m ≤ e.start ∨ e.start + e.length ≤ b) →
              m < length ∨ m = length ∧ start ≤ b) →
        exec (.readExtents h) s = .next (s.withReply (acceptedReply src h 0x06
          (counted (fun e : Extent => u16 e.start ++ u16 e.length ++ u8 e.slot.val ++ u16 (s.campaign e.slot).accepted
              ++ u16 (2 ^ (s.campaign e.slot).exponent)) s.ecr.extents
            ++ u16 (8192 - (s.ecr.extents.map Extent.length).sum)
            ++ optional 4 (fun r : Nat × Nat => u16 r.2 ++ u16 r.1) longest ++ u16 s.ecr.floor))))
    -- READ_CAMPAIGN and READ_RESULTS
    ∧ (∀ slot first count : Byte,
      (32 ≤ slot.toNat → exec (.readCampaign h slot) s = .next (s.withReply (refusedReply src h 0x08 .range))
        ∧ exec (.readResults h slot first count) s = .next (s.withReply (refusedReply src h 0x09 .range)))
      ∧ ∀ (n : Slot) (c : Campaign) (place : Option Nat), slot.toNat = n.val → c = s.campaign n →
        (place = none ∧ n ∉ s.cen.demand
          ∨ ∃ before later, s.cen.demand = before ++ n :: later ∧ n ∉ before ∧ place = some (before.length + 1)) →
        exec (.readCampaign h slot) s = .next (s.withReply (acceptedReply src h 0x08
          ([slot] ++ u8 (campaignStateCode c.state)
            ++ ([match c.kind with | none | some .survey => 0 | some .locate => 1 | some .confirm => 2] : List Byte)
            ++ u8 (campaignOriginCode c.origin) ++ u8 c.requester.val ++ u8 c.requesterLevel.val ++ u8 c.pair.val ++ u8 c.first
            ++ u8 c.last ++ u8 c.exponent ++ u16 c.accepted ++ u8 c.requested.chip.val ++ u8 c.requested.sequence.val
            ++ u16 c.requested.level ++ u8 c.requested.reference.val
            ++ optional 3 (fun x : Nat × Code => u16 x.1 ++ u8 x.2.val) c.applied ++ flagByte c.clamped ++ flagByte c.mustPrime
            ++ flagByte c.autoLocate ++ u8 c.depth ++ optional 1 (fun m : Slot => u8 m.val) c.parent ++ u8 c.elements.length
            ++ optional 4 (fun x : Nat × Nat => u16 x.1 ++ u16 x.2) c.extent ++ u8 c.darkCount ++ optional 1 u8 c.cursor
            ++ u8 c.results.length ++ optional 1 (fun x => u8 (summaryCode x)) c.summary
            ++ optional 1 (fun r => u8 (reasonCode r)) c.failure
            ++ optional 8 (fun x : PeriodicPart => u16 x.period ++ u8 (parityCode x.parity) ++ u16 x.countdown
                ++ flagByte x.due ++ u16 x.overruns) c.periodic
            ++ optional 1 u8 place
            ++ counted (fun m : Slot => u8 m.val) (if n ∈ s.chain c.pair then s.chain c.pair else []))))
        ∧ exec (.readResults h slot first count) s = .next (s.withReply (acceptedReply src h 0x09
          ([slot] ++ u8 (if first.toNat = 0 ∨ c.results.length < first.toNat then 0 else c.results.length)
            ++ (match c.summary with | none => [0] | some x => u8 (summaryCode x)) ++ [first]
            ++ counted (fun r : ResultElement =>
                u16 ((r.offset + 2).toNat * 8192 + (if r.offset = 2 ∨ r.offset = -2 then 4096 else 0) + r.entry.val)
                  ++ u8 r.position
                  ++ u8 (r.refiningDepth.getD 0 * 16 + (if r.gain.isSome then 8 else 0) + (if r.deviation.isSome then 4 else 0))
                  ++ u24 r.amplitude ++ i16 r.echo ++ i16 (r.gain.getD 0) ++ i16 (r.deviation.getD 0)
                  ++ u8 ((r.verdict.map classCode).getD 0 * 16 + (r.refined.map classCode).getD 0)
                  ++ u8 ((r.reason.map reasonCode).getD 0))
              (if first = 0 then [] else (c.results.drop (first.toNat - 1)).take (max 1 (min 32 count.toNat)))))))
    -- READ_GATES and READ_ORDERS
    ∧ exec (.readGates h) s = .next (s.withReply (acceptedReply src h 0x0A
        ((List.finRange 32).flatMap (fun n => optional 9 (fun g : Gate => u8 (actionCode g.action) ++ u16 g.first.val
            ++ u16 g.last.val ++ u16 g.mask.toNat ++ u8 g.level.val ++ u8 g.exponent) (s.gate n))
          ++ u8 s.isu.settings.chip.val ++ u8 s.isu.settings.sequence.val ++ u8 s.isu.settings.limit)))
    ∧ exec (.readOrders h) s = .next (s.withReply (acceptedReply src h 0x0B
        (allOrders.flatMap (fun k => optional 40 (fun o : Order =>
            u16 o.entry.val ++ u8 o.pair.val ++ u8 (actionCode o.action) ++ [o.argument] ++ u8 o.gate.val ++ u8 o.exponent
              ++ u8 o.requester.val ++ u8 o.requesterLevel.val ++ u8 o.reserved.val ++ u8 (conditionCode o.prior) ++ [o.address]
              ++ u8 o.chip.val ++ u8 o.sequence.val ++ u8 o.limit ++ u16 o.lag ++ u8 (orderStateCode o.state) ++ u8 o.attempts
              ++ flagByte o.wordSent ++ optional 3 u24 o.reference ++ optional 1 i8 o.offset
              ++ optional 1 (fun x => u8 (outcomeCode x)) o.lastOutcome ++ optional 1 (fun c : Chan => u8 c.val) o.channel
              ++ optional 7 (fun r : ConfirmResult => u8 ((r.summary.map summaryCode).getD 0)
                  ++ optional 1 (fun c => u8 (classCode c)) r.verdict ++ optional 3 u24 r.amplitude) o.confirm
              ++ optional 1 (fun r => u8 (reasonCode r)) o.reason) (s.order k))
          ++ counted (fun k : OrderNo => u8 k.val) s.isu.acceptance)))
    -- READ_BASELINE
    ∧ ∀ (pair : Byte) (first : BitVec 16) (count view : Byte), view.toNat ≤ 1 →
      (16 ≤ pair.toNat ∨ 272 ≤ first.toNat →
        exec (.readBaseline h pair first count view) s = .next (s.withReply (refusedReply src h 0x0C .range)))
      ∧ ∀ (p : Pair) (indices : List Index), pair.toNat = p.val → first.toNat < 272 →
        indices.map Fin.val = List.range' first.toNat (min (max 1 (min 32 count.toNat)) (272 - first.toNat)) →
        exec (.readBaseline h pair first count view) s = .next (s.withReply (acceptedReply src h 0x0C
          ((match s.bst.op with
            | .idle => [0, 0, 0, 0, 0, 0, 0, 0, 0]
            | .loading => [3, 0, 0, 0, 0, 0, 0, 0, 0]
            | .erasing b => [1, 1, BitVec.ofNat 8 b.val, 0, 0, 0, 0, 0, 0]
            | .programming j => [2, 0, 0, 1] ++ u8 j.pair.val ++ u16 j.first.val ++ u8 j.staged ++ u8 j.written.length)
          ++ (match s.bst.lastOp with
            | none => [0, 0, 0, 0, 0, 0, 0, 0]
            | some (.erase b) => [1, 1, BitVec.ofNat 8 b.val, 0, 0, 0, 0, 0]
            | some (.commit q f staged programmed stop) =>
              [1, 2] ++ u8 q.val ++ u16 f.val ++ u8 staged ++ u8 programmed ++ u8 (reasonCode stop))
          ++ counted (fun i => if view = 0 then
              (match s.baseline p i with
                | none => [0, 0, 0, 0, 0, 0]
                | some b => [if b.stored then 1 else 2, 1] ++ i16 b.gain ++ [1, b.address])
              ++ (match s.entry i with | none => [0, 0] | some e => [1, e.address])
              ++ (match s.baseline p i, s.entry i with
                | some b, some e => flagByte (b.address == e.address)
                | _, _ => [0])
            else if (∃ b, s.bst.op = .erasing b ∧ (512 * p.val + i.val) / 256 = b.val) then [3, 0, 0, 0, 0, 0, 0, 0]
            else match slotState s.bst.store (512 * p.val + i.val) with
              | .blank => [0, 0, 0, 0, 0, 0, 0, 0]
              | .holding => [1, 1] ++ ((slotBytes s.bst.store (512 * p.val + i.val)).drop 1).take 6
              | .torn => [2, 0, 0, 0, 0, 0, 0, 0]) indices)))

/-- READ_GRANTS answers the frame number, the intervals, the time to the boundary, the service list with each pair's last-served
frame and previous channel, each pair's bar and candidate, and the waiting orders in their order; it changes nothing (R71).
SET_TIMING answers the timing values, and sets the pending interval, clamped into 250..60000, when its change flag is set (R61,
R187). The time to the boundary is a free value within the interval in force, and the step counts it (the model's choice, log
2); the service list and the pairs' marks stand without a count (log 5), the marks in ascending pair order (the model's
choice, log 38). -/
def Obligations.TimingRequestsTakeEffect : Prop :=
  (∀ (h : Header) (src : Source) (effective : Level) (barred candidate : Pair → Bool) (waiting : List OrderNo) (s : State),
      s.takes h src effective 3 →
      (∀ p, barred p = true ↔ ∃ c, ¬ s.channelFree c ∧ (s.channel c).point = some p) →
      (∀ p, candidate p = true ↔ ∃ n, (s.chain p).getLast? = some n ∧ (s.campaign n).state = .measuring
        ∧ (s.campaign n).extent.isSome = true ∧ ∀ c k lit, (s.channel c).holder ≠ some (.slice n k lit)) →
      waiting.Sublist s.isu.acceptance →
      (∀ k ∈ waiting, ∃ o, s.order k = some o ∧ o.state = .waitingChannel) →
      (∀ k, (∃ o, s.order k = some o ∧ o.state = .waitingChannel) → waiting.count k = s.isu.acceptance.count k) →
      ∃ time : Nat, time ≤ s.fga.interval ∧ exec (.readGrants h) s
        = .next ({ s with freeCount := s.freeCount + 1 }.withReply (acceptedReply src h 0x07
          (u16 s.fga.frame ++ u16 s.fga.interval
            ++ (match s.fga.pendingInterval with | none => [0, 0, 0] | some x => 1 :: u16 x) ++ u16 time
            ++ s.fga.service.flatMap (fun p : Pair => u8 p.val ++ optional 2 u16 s.fga.lastServed[p]
                ++ (match s.fga.previous[p] with | none => [0, 0] | some (c : Chan) => [1, BitVec.ofNat 8 c.val]))
            ++ allPairs.flatMap (fun p => flagByte (barred p) ++ flagByte (candidate p))
            ++ u8 waiting.length ++ waiting.map (fun k : OrderNo => BitVec.ofNat 8 k.val)))))
    ∧ ∀ (h : Header) (change : Byte) (interval : BitVec 16) (src : Source) (effective : Level) (s : State),
        s.takes h src effective 0 →
        (change = 0 → ∃ time : Nat, time ≤ s.fga.interval ∧ exec (.setTiming h change interval) s
          = .next ({ s with freeCount := s.freeCount + 1 }.withReply (acceptedReply src h 0x4B
            ([0, 0, 0] ++ u16 s.fga.interval ++ optional 2 u16 s.fga.pendingInterval ++ u16 s.fga.frame ++ u16 time))))
        ∧ (change = 1 → ∃ time value : Nat, time ≤ s.fga.interval ∧ value = max 250 (min 60000 interval.toNat)
          ∧ exec (.setTiming h change interval) s
            = .next ({ s with fga := { s.fga with pendingInterval := some value },
                              freeCount := s.freeCount + 1 }.withReply (acceptedReply src h 0x4B
              (1 :: u16 value ++ u16 s.fga.interval ++ 1 :: u16 value ++ u16 s.fga.frame ++ u16 time))))

/-- STATUS is answered READY or STARTING with the fields R186 lists, in that order, one presence byte before the head slot of the
demand queue (R186, R193). -/
def Obligations.StatusListsTheState : Prop :=
  ∀ (h : Header) (src : Source) (s : State), s.answers h src → h.acting.toNat < 4 →
    exec (.status h) s = .next (s.withReply (acceptedReply src h 0x01
      ([if s.clk.part = .ready then 1 else 0, if s.clk.lastReset.1 = .cold then 1 else 2,
        match s.clk.lastReset.2 with | .powerOn => 1 | .request => 2 | .lineBreak => 3,
        BitVec.ofNat 8 (s.fga.frame / 256), BitVec.ofNat 8 s.fga.frame, BitVec.ofNat 8 (s.level src).val,
        BitVec.ofNat 8 (s.span src).val, BitVec.ofNat 8 s.cen.demand.length]
      ++ (match s.cen.demand with | [] => [0, 0] | n :: _ => [1, BitVec.ofNat 8 n.val])
      ++ [BitVec.ofNat 8 (allSlots.countP (fun n => (s.campaign n).state == .free)),
          BitVec.ofNat 8 (allOrders.countP (fun n => s.order n == none)),
          match s.bst.op with | .idle => 0 | .erasing _ => 1 | .programming _ => 2 | .loading => 3,
          BitVec.ofNat 8 s.clk.replies.length, BitVec.ofNat 8 s.clk.reports.length])))

/-! ## Levels and settings -/

/-- SET_SOURCE_LEVEL is judged as R178 says: a source may lower its own privilege; any other setting needs effective level 0; some
source stays at level 0 (R178). -/
def Obligations.SetSourceLevelIsJudged : Prop :=
  ∀ (h : Header) (source level : Byte) (src : Source) (effective : Level) (s : State), s.takes h src effective 3 →
    (8 ≤ source.toNat ∨ 4 ≤ level.toNat →
      exec (.setSourceLevel h source level) s = .next (s.withReply (refusedReply src h 0x11 .range)))
    ∧ ∀ (q : Source) (l : Level), source.toNat = q.val → level.toNat = l.val →
      ((q ≠ src ∨ l < s.level src) → effective ≠ 0 →
        exec (.setSourceLevel h source level) s = .next (s.withReply (refusedReply src h 0x11 .level)))
      ∧ ((q = src ∧ s.level src ≤ l ∨ effective = 0) →
        ((∀ p : Source, (if p = q then l else s.level p) ≠ 0) →
          exec (.setSourceLevel h source level) s = .next (s.withReply (refusedReply src h 0x11 .wrongState)))
        ∧ ((∃ p : Source, (if p = q then l else s.level p) = 0) →
          exec (.setSourceLevel h source level) s = .next
            ({ s with clk := { s.clk with levels := s.clk.levels.set q l } }.withReply
              (acceptedReply src h 0x11 [source, level]))))

/-- SET_THRESHOLDS sets the floor and both thresholds, each clamped, and SET_ORDER_SETTINGS the order settings, the attempt limit
clamped; nothing else changes (R135, R188). -/
def Obligations.ThresholdsAndOrderSettingsAreClamped : Prop :=
  ∀ (h : Header) (src : Source) (effective : Level) (s : State), s.takes h src effective 0 →
    (∀ floor tStep tDrift : BitVec 16, exec (.setThresholds h floor tStep tDrift) s = .next
        ({ s with ecr := { s.ecr with floor := max 1 (min 4096 floor.toNat) },
                  flo := { s.flo with tStep := max 50 (min 1000 tStep.toNat),
                                      tDrift := max 100 (min 3000 tDrift.toNat) } }.withReply
          (acceptedReply src h 0x4C (u16 (max 1 (min 4096 floor.toNat)) ++ u16 (max 50 (min 1000 tStep.toNat))
            ++ u16 (max 100 (min 3000 tDrift.toNat))))))
    ∧ ∀ chip sequence limit : Byte,
        (4 ≤ chip.toNat ∨ 4 ≤ sequence.toNat →
          exec (.setOrderSettings h chip sequence limit) s = .next (s.withReply (refusedReply src h 0x4A .range)))
        ∧ ∀ c q : Code, chip.toNat = c.val → sequence.toNat = q.val →
          exec (.setOrderSettings h chip sequence limit) s = .next
            ({ s with isu := { s.isu with settings :=
                { chip := c, sequence := q, limit := max 1 (min 4 limit.toNat) } } }.withReply
              (acceptedReply src h 0x4A [chip, sequence, BitVec.ofNat 8 (max 1 (min 4 limit.toNat))]))


/-! ## Campaign requests -/

/-- An accepted START takes the lowest FREE slot, fills its record QUEUED with exponent and level code clamped, and appends it
to the demand queue; nothing else changes (R75, R76). A field out of its range is refused RANGE, then the want of a FREE slot
NO_SLOT, then a full demand queue QUEUE_FULL (R76). -/
def Obligations.StartQueuesACampaign : Prop :=
  (∀ (h : Header) (r : CampaignRequest) (src : Source) (effective : Level) (pair : Pair) (chip sequence reference : Code)
      (n : Slot) (s : State), s.takes h src effective 2 → r.autoLocate.toNat ≤ 1 → (r.kind = 0 ∨ r.kind = 1) →
      r.pair.toNat = pair.val → 1 ≤ r.first.toNat → r.first.toNat ≤ r.last.toNat → r.last.toNat ≤ 128 →
      r.chip.toNat = chip.val → r.sequence.toNat = sequence.val → r.reference.toNat = reference.val → s.lowestFreeSlot n →
      s.cen.demand.length < 8 →
      exec (.start h r) s = .next
        ({ s with cen := { s.cen with
            slots := s.cen.slots.set n
              { state := .queued, kind := some (if r.kind = 0 then .survey else .locate), origin := .demand, requester := src,
                requesterLevel := effective, pair := pair, first := r.first.toNat, last := r.last.toNat,
                exponent := min 15 r.exponent.toNat, accepted := 0,
                requested := { chip := chip, sequence := sequence, level := max 64 (min 4095 r.level.toNat),
                               reference := reference },
                applied := none, clamped := false, mustPrime := false, autoLocate := r.kind == 0 && r.autoLocate == 1,
                depth := 1, parent := none, elements := [], extent := none, darkCount := 0, cursor := none, results := [],
                summary := none, failure := none, periodic := none }
            demand := s.cen.demand ++ [n] } }.withReply
          (acceptedReply src h 0x20 (BitVec.ofNat 8 n.val :: BitVec.ofNat 8 (min 15 r.exponent.toNat)
            :: (u16 (max 64 (min 4095 r.level.toNat)) ++ [BitVec.ofNat 8 (s.cen.demand.length + 1)])))))
    ∧ ∀ (h : Header) (r : CampaignRequest) (src : Source) (effective : Level) (s : State), s.takes h src effective 2 →
      r.autoLocate.toNat ≤ 1 →
      (¬ campaignInRange r → exec (.start h r) s = .next (s.withReply (refusedReply src h 0x20 .range)))
      ∧ (campaignInRange r → (∀ n, (s.campaign n).state ≠ .free) →
        exec (.start h r) s = .next (s.withReply (refusedReply src h 0x20 .noSlot)))
      ∧ (campaignInRange r → (∃ n, (s.campaign n).state = .free) → 8 ≤ s.cen.demand.length →
        exec (.start h r) s = .next (s.withReply (refusedReply src h 0x20 .queueFull)))

/-- An accepted SCHEDULE takes the lowest FREE slot, fills its record IDLE_PERIODIC with the period clamped and its countdown at
the period, and places it in the periodic list by its slot; nothing else changes (R75, R77, R79; the reply's values: the model's
choice, log 7). A field or a parity tag out of its range is refused RANGE, then the want of a FREE slot NO_SLOT, then a full
periodic list LIST_FULL (R77). -/
def Obligations.ScheduleListsACampaign : Prop :=
  (∀ (h : Header) (r : CampaignRequest) (period : BitVec 16) (parity : Byte) (src : Source) (effective : Level) (pair : Pair)
      (chip sequence reference : Code) (tag : Parity) (n : Slot) (s : State), s.takes h src effective 2 →
      r.autoLocate.toNat ≤ 1 → (r.kind = 0 ∨ r.kind = 1) → r.pair.toNat = pair.val → 1 ≤ r.first.toNat →
      r.first.toNat ≤ r.last.toNat → r.last.toNat ≤ 128 → r.chip.toNat = chip.val → r.sequence.toNat = sequence.val →
      r.reference.toNat = reference.val → (parity = 0 ∧ tag = .any ∨ parity = 1 ∧ tag = .even ∨ parity = 2 ∧ tag = .odd) →
      s.lowestFreeSlot n → s.cen.periodic.length < 16 →
      ∃ below above : List Slot, s.cen.periodic = below ++ above ∧ (∀ m ∈ below, m < n)
        ∧ (∀ m, above.head? = some m → ¬ m < n)
        ∧ exec (.schedule h r period parity) s = .next
          ({ s with cen := { s.cen with
              slots := s.cen.slots.set n
                { state := .idlePeriodic, kind := some (if r.kind = 0 then .survey else .locate), origin := .periodic,
                  requester := src, requesterLevel := effective, pair := pair, first := r.first.toNat, last := r.last.toNat,
                  exponent := min 15 r.exponent.toNat, accepted := 0,
                  requested := { chip := chip, sequence := sequence, level := max 64 (min 4095 r.level.toNat),
                                 reference := reference },
                  applied := none, clamped := false, mustPrime := false, autoLocate := r.kind == 0 && r.autoLocate == 1,
                  depth := 1, parent := none, elements := [], extent := none, darkCount := 0, cursor := none, results := [],
                  summary := none, failure := none,
                  periodic := some { period := max 1 (min 4096 period.toNat), parity := tag,
                                     countdown := max 1 (min 4096 period.toNat), due := false, overruns := 0 } }
              periodic := below ++ n :: above } }.withReply
            (acceptedReply src h 0x21 (BitVec.ofNat 8 n.val :: BitVec.ofNat 8 (min 15 r.exponent.toNat)
              :: (u16 (max 64 (min 4095 r.level.toNat)) ++ u16 (max 1 (min 4096 period.toNat)))))))
    ∧ ∀ (h : Header) (r : CampaignRequest) (period : BitVec 16) (parity : Byte) (src : Source) (effective : Level) (s : State),
      s.takes h src effective 2 → r.autoLocate.toNat ≤ 1 →
      (¬ campaignInRange r ∨ 2 < parity.toNat →
        exec (.schedule h r period parity) s = .next (s.withReply (refusedReply src h 0x21 .range)))
      ∧ (campaignInRange r → parity.toNat ≤ 2 → (∀ n, (s.campaign n).state ≠ .free) →
        exec (.schedule h r period parity) s = .next (s.withReply (refusedReply src h 0x21 .noSlot)))
      ∧ (campaignInRange r → parity.toNat ≤ 2 → (∃ n, (s.campaign n).state = .free) → 16 ≤ s.cen.periodic.length →
        exec (.schedule h r period parity) s = .next (s.withReply (refusedReply src h 0x21 .listFull)))

/-- An accepted ABORT of a QUEUED or IDLE_PERIODIC campaign takes it out of its queue or list, ABORTED, its pending-due mark
clear and its report origin queued; an accepted RELEASE returns every field of the slot to its FREE value and withdraws its
origin; nothing else changes (R75, R93, R94, R97). Otherwise ABORT and RELEASE are refused RANGE for a slot above 31, then
WRONG_STATE for a state they do not take and, for ABORT, for a CONFIRM, then LEVEL for a source that is not the requester's at
an effective level above 0 (R93, R97). -/
def Obligations.AbortAndReleaseTakeEffect : Prop :=
  (∀ (h : Header) (slot : Byte) (src : Source) (effective : Level) (n : Slot) (s : State), s.takes h src effective 2 →
      slot.toNat = n.val → ((s.campaign n).requester = src ∨ effective = 0) →
      ((s.campaign n).kind ≠ some .confirm → (s.campaign n).state = .queued ∨ (s.campaign n).state = .idlePeriodic →
        exec (.abort h slot) s = .next
          ({ s with
              cen := { s.cen with
                slots := s.cen.slots.set n
                  { s.campaign n with
                    state := .aborted, periodic := (s.campaign n).periodic.map (fun x : PeriodicPart => { x with due := false }) }
                demand := s.cen.demand.filter (fun m => m != n), periodic := s.cen.periodic.filter (fun m => m != n) }
              clk := { s.clk with reports := joined s.clk.reports [.campaign n] } }.withReply (acceptedReply src h 0x22 [1])))
      ∧ ((s.campaign n).state = .done ∨ (s.campaign n).state = .failed ∨ (s.campaign n).state = .aborted →
        exec (.release h slot) s = .next
          ({ s with cen := { s.cen with slots := s.cen.slots.set n {} },
                    clk := { s.clk with reports := s.clk.reports.filter (fun o => o != Origin.campaign n) } }.withReply
            (acceptedReply src h 0x23 [slot]))))
    ∧ ∀ (h : Header) (slot : Byte) (src : Source) (effective : Level) (s : State), s.takes h src effective 2 →
      (32 ≤ slot.toNat → exec (.abort h slot) s = .next (s.withReply (refusedReply src h 0x22 .range))
        ∧ exec (.release h slot) s = .next (s.withReply (refusedReply src h 0x23 .range)))
      ∧ ∀ n : Slot, slot.toNat = n.val →
        ((s.campaign n).kind = some .confirm
            ∨ (s.campaign n).state ∈ [CampaignState.free, .reserved, .done, .failed, .aborted] →
          exec (.abort h slot) s = .next (s.withReply (refusedReply src h 0x22 .wrongState)))
        ∧ ((s.campaign n).kind ≠ some .confirm →
            (s.campaign n).state ∈ [CampaignState.queued, .idlePeriodic, .awaitingRoom, .measuring, .nested] →
            (s.campaign n).requester ≠ src → effective ≠ 0 →
          exec (.abort h slot) s = .next (s.withReply (refusedReply src h 0x22 .level)))
        ∧ ((s.campaign n).state ∉ [CampaignState.done, .failed, .aborted] →
          exec (.release h slot) s = .next (s.withReply (refusedReply src h 0x23 .wrongState)))
        ∧ ((s.campaign n).state ∈ [CampaignState.done, .failed, .aborted] → (s.campaign n).requester ≠ src → effective ≠ 0 →
          exec (.release h slot) s = .next (s.withReply (refusedReply src h 0x23 .level)))

/-- An accepted ABORT of a root on its pair's chain ends the chain: the root is ABORTED and keeps its results, every campaign
above it is FREE, no extent is left on the chain, their slices end, the pair has no chain, and a periodic root leaves its list
(R46, R85, R95). The root's cursor is absent (the model's choice, log 16), the count answered is the chain's length from the
campaign up (log 17; a parent that finishes in the same event is not counted, log 40), a periodic part keeps its due mark (log 31), and the root keeps what it had counted, applied and listed
(log 37). An accepted ABORT of a child frees it and the campaigns above it and gives its parent the refined class ABORTED with
the child's depth; the parent, a root or itself a child, then walks on in the same event: it makes its next child, or finishes or returns in
its turn (R86, R89, R96, R111, R119, R123), and with nothing left to walk beyond the target a demand or periodic root finishes
(R90). -/
def Obligations.AbortOfARootEndsItsChain : Prop :=
  ∀ (h : Header) (slot : Byte) (src : Source) (effective : Level) (n : Slot) (above : List Slot) (p : Pair) (s : State),
    s.takes h src effective 2 → slot.toNat = n.val → ((s.campaign n).requester = src ∨ effective = 0) →
    (s.campaign n).kind ≠ some .confirm → (s.campaign n).state ∈ [CampaignState.awaitingRoom, .measuring, .nested] →
    (s.campaign n).pair = p → (s.chain p).Nodup → s.oneChannelEach (s.chain p) →
    (s.chain p = n :: above →
      ∃ t : State, exec (.abort h slot) s = .next (t.withReply (acceptedReply src h 0x22 [BitVec.ofNat 8 (above.length + 1)]))
        ∧ t.campaign n = { s.campaign n with state := .aborted, extent := none, cursor := none }
        ∧ (∀ m ∈ above, t.campaign m = {}) ∧ (∀ m, m ∉ n :: above → t.campaign m = s.campaign m)
        ∧ (∀ q, t.chain q = if q = p then [] else s.chain q) ∧ s.slicesEnded t (n :: above)
        ∧ t.ecr.extents = s.ecr.extents.filter (fun e => !(n :: above).contains e.slot)
        ∧ t.cen.demand = s.cen.demand ∧ t.cen.periodic = s.cen.periodic.filter (fun m => m != n)
        ∧ t.clk.reports = joined (s.clk.reports.filter (fun o => !(above.map Origin.campaign).contains o)) [.campaign n]
        ∧ t = { s with pch := { s.pch with channels := t.pch.channels }, ecr := { s.ecr with extents := t.ecr.extents },
                       cen := t.cen, clk := { s.clk with reports := t.clk.reports } })
    ∧ (∀ (m : Slot) (k : Nat) (element : ResultElement) (refined : List ResultElement), s.chain p = m :: n :: above →
        (s.campaign m).origin = .demand ∨ (s.campaign m).origin = .periodic → (s.campaign m).pair = p →
        (s.campaign m).cursor = some k → element ∈ (s.campaign m).results → element.position = k →
        ((s.campaign m).results.map ResultElement.position).Nodup →
        refined = refineAt (s.campaign m).results k .aborted (some (s.campaign n).depth) none →
        (∀ y ∈ s.walkable m refined, y.position ≤ k) →
      ∃ t : State, exec (.abort h slot) s = .next (t.withReply (acceptedReply src h 0x22 [BitVec.ofNat 8 (above.length + 1)]))
        ∧ (∀ y ∈ n :: above, t.campaign y = {})
        ∧ t.campaign m = finishedRoot { s.campaign m with
            extent := none, results := refined, summary := some (verdictSummary refined) }
        ∧ (∀ y, y ∉ m :: n :: above → t.campaign y = s.campaign y)
        ∧ (∀ q, t.chain q = if q = p then [] else s.chain q) ∧ s.slicesEnded t (m :: n :: above)
        ∧ t.ecr.extents = s.ecr.extents.filter (fun e => !(m :: n :: above).contains e.slot)
        ∧ t.clk.reports = joined (s.clk.reports.filter (fun o => !((n :: above).map Origin.campaign).contains o)) [.campaign m]
        ∧ t = { s with pch := { s.pch with channels := t.pch.channels }, ecr := { s.ecr with extents := t.ecr.extents },
                       cen := { s.cen with slots := t.cen.slots, chains := t.cen.chains },
                       clk := { s.clk with reports := t.clk.reports } })
    ∧ ∀ (m : Slot) (below : List Slot) (k : Nat) (element : ResultElement) (refined : List ResultElement),
        s.chain p = below.reverse ++ m :: n :: above → (s.campaign m).cursor = some k → element ∈ (s.campaign m).results →
        element.position = k → refined = refineAt (s.campaign m).results k .aborted (some (s.campaign n).depth) none →
        s.linked p m (s.campaign m).results below →
      ∃ w t : State, exec (.abort h slot) s = .next (t.withReply (acceptedReply src h 0x22 [BitVec.ofNat 8 (above.length + 1)]))
        ∧ (∀ y ∈ n :: above, w.campaign y = {})
        ∧ w.campaign m = { s.campaign m with
            state := .measuring, results := refined, summary := some (verdictSummary refined) }
        ∧ (∀ y, y ∉ m :: n :: above → w.campaign y = s.campaign y)
        ∧ (∀ q, w.chain q = if q = p then below.reverse ++ [m] else s.chain q) ∧ s.slicesEnded w (n :: above)
        ∧ w = { s with
            pch := { s.pch with channels := w.pch.channels }
            ecr := { s.ecr with extents := s.ecr.extents.filter (fun e => !(n :: above).contains e.slot) }
            cen := { s.cen with slots := w.cen.slots, chains := w.cen.chains }
            clk := { s.clk with
              reports := s.clk.reports.filter (fun o => !((n :: above).map Origin.campaign).contains o) } }
        ∧ w.unwound p (m :: below) t

/-! ## Isolation requests -/

/-- ISOLATE is refused RANGE for a gate, pair or reference out of range, and otherwise for the first of the twelve checks it fails,
with that check's reason (R129, R130, R131). -/
def Obligations.IsolateChecksInOrder : Prop :=
  ∀ (h : Header) (gate : Byte) (ref : Reference) (pair argument force : Byte) (src : Source) (effective : Level) (s : State),
    s.takes h src effective 3 → ref.kind.toNat ≤ 2 → force.toNat ≤ 1 →
    (32 ≤ gate.toNat ∨ 16 ≤ pair.toNat ∨ s.resolve src ref = none →
      exec (.isolate h gate ref pair argument force) s = .next (s.withReply (refusedReply src h 0x28 .range)))
    ∧ ∀ (g : Fin 32) (p : Pair) (i : Index) (lag : Nat) (passed failed : List (Prop × Reason)) (check : Prop)
        (reason : Reason), gate.toNat = g.val → pair.toNat = p.val → s.resolve src ref = some i →
      ((s.path p).map PathElement.entry).Nodup → (s.lagInChips i p lag ∨ ∀ x ∈ s.path p, x.entry ≠ i) →
      s.isolateChecks g i p effective (force = 1) lag = passed ++ (check, reason) :: failed → (∀ c ∈ passed, c.1) → ¬ check →
      exec (.isolate h gate ref pair argument force) s = .next (s.withReply (refusedReply src h 0x28 reason))

/-- An ISOLATE that passes every check takes the lowest free order record and FREE slot, fills and reserves them, sets the entry's
order mark and moves the record to ISOLATING; nothing else changes (R132, R133, R135). -/
def Obligations.IsolateTakesAnOrder : Prop :=
  ∀ (h : Header) (gate : Byte) (ref : Reference) (pair argument force : Byte) (src : Source) (effective : Level) (g : Fin 32)
    (x : Gate) (p : Pair) (i : Index) (e : Entry) (lag : Nat) (k : OrderNo) (n : Slot) (s : State),
    s.takes h src effective 3 → ref.kind.toNat ≤ 2 → force.toNat ≤ 1 → gate.toNat = g.val → pair.toNat = p.val →
    s.resolve src ref = some i → ((s.path p).map PathElement.entry).Nodup → s.lagInChips i p lag →
    (∀ c ∈ s.isolateChecks g i p effective (force = 1) lag, c.1) → s.gate g = some x → s.entry i = some e →
    s.lowestFreeOrder k → s.lowestFreeSlot n →
    ∃ t : State, exec (.isolate h gate ref pair argument force) s = .next (t.withReply (acceptedReply src h 0x28
          (BitVec.ofNat 8 k.val :: BitVec.ofNat 8 n.val :: u16 lag)))
      ∧ t.order k = some
          { entry := i, pair := p, action := x.action, argument := argument, gate := g, exponent := x.exponent,
            requester := src, requesterLevel := effective, reserved := n, prior := (s.record i p).condition,
            address := e.address, chip := s.isu.settings.chip, sequence := s.isu.settings.sequence,
            limit := s.isu.settings.limit, lag := lag, state := .waitingChannel, attempts := 0, wordSent := false,
            reference := none, offset := none, lastOutcome := none, channel := none, confirm := none, reason := none }
      ∧ (∀ m, m ≠ k → t.order m = s.order m) ∧ t.isu.acceptance = s.isu.acceptance ++ [k]
      ∧ t.campaign n = { state := .reserved } ∧ (∀ m, m ≠ n → t.campaign m = s.campaign m)
      ∧ (∀ j, t.entry j = if j = i then some { e with mark := true } else s.entry j)
      ∧ (t.record i p).condition = .isolating
      ∧ t.record i p = { s.record i p with
          condition := .isolating, changed := (s.record i p).changed || !((s.record i p).condition == .isolating) }
      ∧ (∀ j q, (j, q) ≠ (i, p) → t.record j q = s.record j q)
      ∧ t.clk.reports = joined s.clk.reports (if (s.record i p).condition = .isolating then [] else [.pair p])
      ∧ t = { s with lpt := { s.lpt with entries := t.lpt.entries, records := t.lpt.records },
                     cen := { s.cen with slots := t.cen.slots },
                     isu := { s.isu with orders := t.isu.orders, acceptance := t.isu.acceptance },
                     clk := { s.clk with reports := t.clk.reports } }

/-- WITHDRAW_ORDER ends an order in WAITING_CHANNEL DONE_FAILED with reason WITHDRAWN: the ordered record takes the prior condition,
or UNRESOLVED once a word was sent, and is marked if that moves it; the entry's mark is clear, the reserved slot FREE with its origin
withdrawn, and the order's origin is queued; nothing else changes. Any other record, and a requester that may not, is refused (R11,
R75, R147, R153, R156). The pair's origin joins before the order's (the model's choice, log 28). -/
def Obligations.WithdrawOrderEndsAWaitingOrder : Prop :=
  ∀ (h : Header) (order : Byte) (src : Source) (effective : Level) (s : State), s.takes h src effective 3 →
    (8 ≤ order.toNat → exec (.withdrawOrder h order) s = .next (s.withReply (refusedReply src h 0x29 .range)))
    ∧ ∀ k : OrderNo, order.toNat = k.val →
      (s.order k = none ∨ (∃ o, s.order k = some o ∧ o.state ≠ .waitingChannel) →
        exec (.withdrawOrder h order) s = .next (s.withReply (refusedReply src h 0x29 .wrongState)))
      ∧ ∀ o, s.order k = some o → o.state = .waitingChannel →
        (o.requester ≠ src → effective ≠ 0 →
          exec (.withdrawOrder h order) s = .next (s.withReply (refusedReply src h 0x29 .level)))
        ∧ (o.requester = src ∨ effective = 0 → ∀ condition, condition = (if o.wordSent then .unresolved else o.prior) →
          ∃ t : State, exec (.withdrawOrder h order) s = .next (t.withReply (acceptedReply src h 0x29
                [order, BitVec.ofNat 8 (conditionCode condition)]))
            ∧ s.orderMarks t o.entry o.pair condition
            ∧ t = { s with
                lpt := { s.lpt with entries := t.lpt.entries, records := t.lpt.records }
                cen := { s.cen with slots := s.cen.slots.set o.reserved {} }
                isu := { s.isu with orders := s.isu.orders.set k (some
                  { o with state := .doneFailed, channel := none, reason := some .withdrawn }) }
                clk := { s.clk with reports := s.orderOrigins k o condition } })

/-- DEFINE_GATE makes a gate present with the fields given, the confirm exponent clamped, or is refused RANGE; DROP_GATE makes it
absent; nothing else changes. After a cold reset no gate is present; a warm reset keeps every gate (R127). -/
def Obligations.GatesAreDefinedAndDropped : Prop :=
  (∀ (h : Header) (gate : Byte) (src : Source) (effective : Level) (s : State), s.takes h src effective 0 →
      (∀ (g : GateRequest), 32 ≤ gate.toNat ∨ g.action.toNat = 0 ∨ 7 < g.action.toNat ∨ 272 ≤ g.first.toNat
            ∨ 272 ≤ g.last.toNat ∨ g.last.toNat < g.first.toNat ∨ 4 ≤ g.level.toNat →
        exec (.defineGate h gate g) s = .next (s.withReply (refusedReply src h 0x50 .range)))
      ∧ (32 ≤ gate.toNat → exec (.dropGate h gate) s = .next (s.withReply (refusedReply src h 0x51 .range)))
      ∧ ∀ n : Fin 32, gate.toNat = n.val →
        exec (.dropGate h gate) s
            = .next ({ s with isu := { s.isu with gates := s.isu.gates.set n none } }.withReply (acceptedReply src h 0x51 []))
        ∧ ∀ (g : GateRequest) (first last : Index) (level : Level) (action : Action), g.first.toNat = first.val →
            g.last.toNat = last.val → first ≤ last → g.level.toNat = level.val →
            (g.action.toNat, action) ∈ [(1, Action.pumpToSpare), (2, .pumpRestore), (3, .gainHold), (4, .gainRelease),
              (5, .loopMute), (6, .routeA), (7, .routeB)] →
            exec (.defineGate h gate g) s = .next
              ({ s with isu := { s.isu with gates := s.isu.gates.set n (some
                  { action := action, first := first, last := last, mask := g.mask, level := level,
                    exponent := min 15 g.exponent.toNat }) } }.withReply
                (acceptedReply src h 0x50 [gate, BitVec.ofNat 8 (min 15 g.exponent.toNat)])))
    ∧ ∀ (strap : LineRate) (s : State), (∃ t, exec (.powerOn strap) s = .next t ∧ ∀ g, t.gate g = none)
        ∧ (s.clk.part = .ready → s.clk.lineAtSpace = true → s.clk.breakSpent = false →
          ∃ t, exec (.breakReset strap) s = .next t ∧ ∀ g, t.gate g = s.gate g)

/-! ## Switch requests -/

/-- SET_CROSSPOINT sets the enable mark; a channel above 3 or a pair above 15 is refused RANGE. Disabling the point a channel
holds closed leaves the channel DISCONNECTED: a slice ends unjudged with its campaign untouched; a burst counts a CHANNEL_LOST
attempt, the pair's chain top is zeroed, and the order waits again while attempts remain and otherwise ends DONE_FAILED with
reason CHANNEL_LOST, its record UNRESOLVED, its mark clear, its slot FREE and its origin queued (R25, R26, R27, R92, R144, R145,
R147, R153; the order in which origins join: log 28). -/
def Obligations.SetCrosspointSetsTheMark : Prop :=
  ∀ (h : Header) (channel pair mark : Byte) (src : Source) (effective : Level) (s : State),
    s.takes h src effective 0 → mark.toNat ≤ 1 →
    (4 ≤ channel.toNat ∨ 16 ≤ pair.toNat →
      exec (.setCrosspoint h channel pair mark) s = .next (s.withReply (refusedReply src h 0x48 .range)))
    ∧ ∀ (c : Chan) (p : Pair), channel.toNat = c.val → pair.toNat = p.val →
    (mark = 1 ∨ (s.channel c).point ≠ some p →
      exec (.setCrosspoint h channel pair mark) s = .next
        ({ s with pch := { s.pch with enabled := s.pch.enabled.set c (s.pch.enabled[c].set p (mark == 1)) } }.withReply
          (acceptedReply src h 0x48 [mark, BitVec.ofNat 8 (channelStateCode (s.channel c).state)])))
    ∧ (mark = 0 → (s.channel c).point = some p →
      ((s.channel c).holder = none ∨ (∃ n k lit, (s.channel c).holder = some (.slice n k lit)) →
        exec (.setCrosspoint h channel pair mark) s = .next
          ({ s with pch := { s.pch with
              enabled := s.pch.enabled.set c (s.pch.enabled[c].set p false)
              channels := s.pch.channels.set c { state := .disconnected, point := none, probe := none, holder := none } } }.withReply
            (acceptedReply src h 0x48 [0, 0])))
      ∧ ∀ k o, (s.channel c).holder = some (.order k) → s.order k = some o →
        ∃ (slots : Vector Campaign 32) (cells : Table Int), s.topZeroed o.pair slots cells
        ∧ (o.attempts + 1 < o.limit →
          exec (.setCrosspoint h channel pair mark) s = .next
            ({ s with
                pch := { s.pch with
                  enabled := s.pch.enabled.set c (s.pch.enabled[c].set p false)
                  channels := s.pch.channels.set c { state := .disconnected, point := none, probe := none, holder := none } }
                ecr := { s.ecr with cells := cells }
                cen := { s.cen with slots := slots }
                isu := { s.isu with orders := s.isu.orders.set k (some
                  { o with state := .waitingChannel, attempts := o.attempts + 1, lastOutcome := some .channelLost,
                           channel := none, reference := none, offset := none, phase := 0, window := [] }) } }.withReply
              (acceptedReply src h 0x48 [0, 0])))
        ∧ (o.limit ≤ o.attempts + 1 →
          ∃ t : State, exec (.setCrosspoint h channel pair mark) s
              = .next (t.withReply (acceptedReply src h 0x48 [0, 0]))
            ∧ s.orderMarks t o.entry o.pair .unresolved
            ∧ t = { s with
                lpt := { s.lpt with entries := t.lpt.entries, records := t.lpt.records }
                pch := { s.pch with
                  enabled := s.pch.enabled.set c (s.pch.enabled[c].set p false)
                  channels := s.pch.channels.set c { state := .disconnected, point := none, probe := none, holder := none } }
                ecr := { s.ecr with cells := cells }
                cen := { s.cen with slots := slots.set o.reserved {} }
                isu := { s.isu with orders := s.isu.orders.set k (some
                  { o with state := .doneFailed, attempts := o.attempts + 1, lastOutcome := some .channelLost,
                           channel := none, reason := some .channelLost }) }
                clk := { s.clk with reports := s.orderOrigins k o .unresolved } }))

/-- SET_CEILING sets the pair's ceiling, clamped into -7612..-2194; a pair above 15 is refused RANGE. A ceiling that is not
lowered, a pair with no channel, and a probe at or below the new ceiling change nothing else; lowered below the level of a
running slice, it parks the channel and zeroes the campaign; below the level of an order burst, it restarts the burst at
REFERENCING with its working cells at 0, a channel that is SETTLING settling on; below that of a coasting probe, it parks the
channel (R30, R32, R48). The reference and offset of a burst that restarts stay until they are measured anew (the model's
choice, log 15). -/
def Obligations.SetCeilingCutsRunningProbes : Prop :=
  ∀ (h : Header) (pair : Byte) (ceiling : BitVec 16) (src : Source) (effective : Level) (s : State),
    s.takes h src effective 0 →
    (16 ≤ pair.toNat → exec (.setCeiling h pair ceiling) s = .next (s.withReply (refusedReply src h 0x49 .range)))
    ∧ ∀ (p : Pair) (x : Int), pair.toNat = p.val → x = max (-7612) (min (-2194) ceiling.toInt) →
    ((s.ceiling p ≤ x ∨ ∀ c, (s.channel c).point ≠ some p) →
      exec (.setCeiling h pair ceiling) s = .next
        ({ s with pch := { s.pch with ceilings := s.pch.ceilings.set p x } }.withReply (acceptedReply src h 0x49 (i16 x))))
    ∧ ∀ c, x < s.ceiling p → (s.channel c).point = some p → (∀ d, d ≠ c → (s.channel d).point ≠ some p) →
      ((∃ n k lit, (s.channel c).holder = some (.slice n k lit) ∧ (s.campaign n).appliedLevel ≤ x)
          ∨ (∃ k o, (s.channel c).holder = some (.order k) ∧ s.order k = some o ∧ probeLevel o.applied.1 o.applied.2 ≤ x)
          ∨ ((s.channel c).holder = none ∧ ((s.channel c).state ≠ .coasting
            ∨ ∀ sig, (s.channel c).probe = some sig → probeLevel sig.level sig.reference ≤ x)) →
        exec (.setCeiling h pair ceiling) s = .next
          ({ s with pch := { s.pch with ceilings := s.pch.ceilings.set p x } }.withReply (acceptedReply src h 0x49 (i16 x))))
      ∧ (∀ n k lit, (s.channel c).holder = some (.slice n k lit) → x < (s.campaign n).appliedLevel →
        ∃ t : State, exec (.setCeiling h pair ceiling) s = .next (t.withReply (acceptedReply src h 0x49 (i16 x)))
          ∧ t.channel c = { state := .parked, point := some p, probe := none, holder := none }
          ∧ t.campaign n = { s.campaign n with accepted := 0, mustPrime := true }
          ∧ (∀ a, t.cell a = match (s.campaign n).extent with
              | some (start, length) => if start ≤ a ∧ a < start + length then 0 else s.cell a
              | none => s.cell a)
          ∧ t = { s with pch := { s.pch with ceilings := s.pch.ceilings.set p x
                                             channels := s.pch.channels.set c (t.channel c) }
                         ecr := { s.ecr with cells := t.ecr.cells }
                         cen := { s.cen with slots := s.cen.slots.set n (t.campaign n) } })
      ∧ (∀ k o, (s.channel c).holder = some (.order k) → s.order k = some o → o.pair = p →
          x < probeLevel o.applied.1 o.applied.2 →
        ∃ t : State, exec (.setCeiling h pair ceiling) s = .next (t.withReply (acceptedReply src h 0x49 (i16 x)))
          ∧ ((s.channel c).state = .settling → t.channel c = s.channel c)
          ∧ ((s.channel c).state ≠ .settling → t.channel c = { s.channel c with
              state := .priming
              probe := some { pair := p, chip := o.chip, sequence := o.sequence, level := (fixLevel 4095 3 x).1,
                              reference := (fixLevel 4095 3 x).2 } })
          ∧ t.order k = some { o with state := .referencing, applied := fixLevel 4095 3 x, phase := 0, window := [] }
          ∧ t.isu.working[c] = Vector.replicate 5 0
          ∧ t = { s with pch := { s.pch with ceilings := s.pch.ceilings.set p x
                                             channels := s.pch.channels.set c (t.channel c) }
                         isu := { s.isu with orders := s.isu.orders.set k (t.order k)
                                             working := s.isu.working.set c t.isu.working[c] } })
      ∧ (∀ sig, (s.channel c).holder = none → (s.channel c).state = .coasting → (s.channel c).probe = some sig →
          x < probeLevel sig.level sig.reference →
        exec (.setCeiling h pair ceiling) s = .next
          ({ s with pch := { s.pch with
              ceilings := s.pch.ceilings.set p x
              channels := s.pch.channels.set c { state := .parked, point := some p, probe := none, holder := none } } }.withReply
            (acceptedReply src h 0x49 (i16 x))))

/-! ## The Baseline Store -/

/-- An accepted ADOPT writes an ADOPTED image record for every result element with a loop gain and a defined entry, with the entry's
address, and no other, and answers the numbers written and skipped (R162, R163). An accepted DROP_BASELINE sets the image records
of the run to ABSENT, leaves every other record and the store, and answers how many were not ABSENT (R164). -/
def Obligations.AdoptAndDropBaselineWriteTheImage : Prop :=
  (∀ (h : Header) (slot : Byte) (src : Source) (effective : Level) (n : Slot) (s : State), s.takes h src effective 1 →
      slot.toNat = n.val →
      ((s.campaign n).state ≠ .done →
        exec (.adopt h slot) s = .next (s.withReply (refusedReply src h 0x30 .wrongState)))
      ∧ ((s.campaign n).state = .done → ((s.campaign n).results.map ResultElement.entry).Nodup →
        ∃ t : State, exec (.adopt h slot) s = .next (t.withReply (acceptedReply src h 0x30
              (u16 ((s.campaign n).results.countP (fun r => r.gain.isSome && (s.entry r.entry).isSome))
                ++ [BitVec.ofNat 8 ((s.campaign n).results.countP (fun r => r.gain.isSome && (s.entry r.entry).isNone))])))
          ∧ (∀ r ∈ (s.campaign n).results, ∀ gain e, r.gain = some gain → s.entry r.entry = some e →
              t.baseline (s.campaign n).pair r.entry = some { stored := false, gain := gain, address := e.address })
          ∧ (∀ q j, q ≠ (s.campaign n).pair
                ∨ (∀ r ∈ (s.campaign n).results, r.entry = j → r.gain = none ∨ s.entry j = none) →
              t.baseline q j = s.baseline q j)
          ∧ t = { s with bst := { s.bst with image := t.bst.image } }))
    ∧ ∀ (h : Header) (pair : Byte) (first last : BitVec 16) (src : Source) (effective : Level) (s : State),
        s.takes h src effective 1 →
        (16 ≤ pair.toNat ∨ 272 ≤ first.toNat ∨ 272 ≤ last.toNat ∨ last.toNat < first.toNat →
          exec (.dropBaseline h pair first last) s = .next (s.withReply (refusedReply src h 0x31 .range)))
        ∧ ∀ p : Pair, pair.toNat = p.val → first.toNat ≤ last.toNat → last.toNat < 272 →
          ∃ t : State, exec (.dropBaseline h pair first last) s = .next (t.withReply (acceptedReply src h 0x31
                (u16 ((List.finRange 272).countP (fun i =>
                  decide (first.toNat ≤ i.val ∧ i.val ≤ last.toNat) && (s.baseline p i).isSome)))))
            ∧ (∀ q i, t.baseline q i =
                if q = p ∧ first.toNat ≤ i.val ∧ i.val ≤ last.toNat then none else s.baseline q i)
            ∧ t = { s with bst := { s.bst with image := t.bst.image } }

/-- An accepted COMMIT stages the image records of its run, which stops at the usable end of the page. ABSENT records are passed
over; at the first other one a BLANK slot begins to be programmed with its opening mark, and a slot that is not BLANK stops the
commit OCCUPIED; with every record ABSENT it ends with COUNT or PAGE_END (R159, R167, R168, R169, R198). A pair above 15 or a first
index above 271 is refused RANGE though the store be busy (the model's choice, log 39), and otherwise a busy store refuses
STORE_BUSY. The reply gives the number staged one byte (the model's choice, log 35). -/
def Obligations.CommitStagesItsRun : Prop :=
  ∀ (h : Header) (pair : Byte) (first : BitVec 16) (count : Byte) (src : Source) (effective : Level) (s : State),
    s.takes h src effective 1 →
    (16 ≤ pair.toNat ∨ 272 ≤ first.toNat →
      exec (.commit h pair first count) s = .next (s.withReply (refusedReply src h 0x32 .range)))
    ∧ ∀ (p : Pair) (f : Index) (n last : Nat) (staged : List Staged), pair.toNat = p.val → first.toNat = f.val →
      n = max 1 (min 32 count.toNat) → last = min (f.val + n - 1) (if f.val < 256 then 32 * (f.val / 32) + 31 else 271) →
      staged.map (fun x => x.index.val) = List.range' f.val (last + 1 - f.val) →
      (∀ x ∈ staged, x.baseline = s.baseline p x.index) →
      (s.bst.op ≠ .idle → exec (.commit h pair first count) s = .next (s.withReply (refusedReply src h 0x32 .storeBusy)))
      ∧ (s.bst.op = .idle →
        ((∀ x ∈ staged, x.baseline = none) →
          exec (.commit h pair first count) s = .next
            ({ s with bst := { s.bst with
                        staging := [], op := .idle,
                        lastOp := some (.commit p f staged.length 0 (if last < f.val + n - 1 then .pageEnd else .count)) },
                      clk := { s.clk with reports := joined s.clk.reports [.store] } }.withReply
              (acceptedReply src h 0x32 [BitVec.ofNat 8 staged.length, BitVec.ofNat 8 n])))
        ∧ ∀ absent x rest, staged = absent ++ x :: rest → (∀ a ∈ absent, a.baseline = none) → x.baseline ≠ none →
          (slotState s.bst.store (512 * p.val + x.index.val) ≠ .blank →
            exec (.commit h pair first count) s = .next
              ({ s with bst := { s.bst with
                          staging := [], op := .idle, lastOp := some (.commit p f staged.length 0 .occupied) },
                        clk := { s.clk with reports := joined s.clk.reports [.store] } }.withReply
                (acceptedReply src h 0x32 [BitVec.ofNat 8 staged.length, BitVec.ofNat 8 n])))
          ∧ (slotState s.bst.store (512 * p.val + x.index.val) = .blank →
            ∃ t : State, exec (.commit h pair first count) s = .next (t.withReply
                  (acceptedReply src h 0x32 [BitVec.ofNat 8 staged.length, BitVec.ofNat 8 n]))
              ∧ t.bst.op = .programming
                  { pair := p, first := f, staged := staged.length, pageLimited := decide (last < f.val + n - 1), written := [],
                    remaining := x :: rest }
              ∧ t.bst.staging = staged
              ∧ (∀ slot i : Nat, i < 8 → slotByte t.bst.store slot i =
                  if slot = 512 * p.val + x.index.val ∧ i = 0 then 0x3C else slotByte s.bst.store slot i)
              ∧ t = { s with bst := { s.bst with store := t.bst.store, staging := t.bst.staging, op := t.bst.op } }))

/-- SLOT_PROGRAMMED completes the slot's bytes. With only ABSENT records left, or with a next slot that is not BLANK, the commit
ends, with COUNT or PAGE_END or with OCCUPIED: each programmed record whose image still holds the staged value becomes STORED,
the store is IDLE, the last operation recorded and its report queued; otherwise the BLANK next slot begins to be programmed with
its opening mark (R168, R169, R198). -/
def Obligations.SlotProgrammedGoesOn : Prop :=
  ∀ (job : CommitJob) (x : Staged) (b : Baseline) (rest : List Staged) (s : State), s.bst.op = .programming job →
    job.remaining = x :: rest → x.baseline = some b →
    (∀ stop : Reason,
      ((∀ y ∈ rest, y.baseline = none) ∧ stop = (if job.pageLimited then .pageEnd else .count)
        ∨ (∃ absent y later, rest = absent ++ y :: later ∧ (∀ a ∈ absent, a.baseline = none) ∧ y.baseline ≠ none
            ∧ y.index ≠ x.index ∧ slotState s.bst.store (512 * job.pair.val + y.index.val) ≠ .blank) ∧ stop = .occupied) →
      ((job.written ++ [x]).map Staged.index).Nodup →
      ∃ t : State, exec .slotProgrammed s = .next t.concludeEvent
        ∧ slotBytes t.bst.store (512 * job.pair.val + x.index.val)
            = [slotByte s.bst.store (512 * job.pair.val + x.index.val) 0, BitVec.ofNat 8 job.pair.val,
               BitVec.ofNat 8 (x.index.val / 256), BitVec.ofNat 8 x.index.val, b.address,
               BitVec.ofNat 8 ((BitVec.ofInt 16 b.gain).toNat / 256), BitVec.ofNat 8 (BitVec.ofInt 16 b.gain).toNat, 0xA5]
        ∧ (∀ slot, slot ≠ 512 * job.pair.val + x.index.val → slotBytes t.bst.store slot = slotBytes s.bst.store slot)
        ∧ (∀ q i, t.baseline q i = match s.baseline q i with
            | some c => some { c with stored := c.stored || (decide (q = job.pair) && (job.written ++ [x]).any (fun y =>
                y.index == i && y.baseline.any (fun d => d.gain == c.gain && d.address == c.address))) }
            | none => none)
        ∧ t = { s with bst := { store := t.bst.store, image := t.bst.image, staging := [], op := .idle,
                                lastOp := some (.commit job.pair job.first job.staged (job.written.length + 1) stop) },
                       clk := { s.clk with reports := joined s.clk.reports [.store] } })
    ∧ ∀ absent y later, rest = absent ++ y :: later → (∀ a ∈ absent, a.baseline = none) → y.baseline ≠ none →
        y.index ≠ x.index → slotState s.bst.store (512 * job.pair.val + y.index.val) = .blank →
      ∃ t : State, exec .slotProgrammed s = .next t.concludeEvent
        ∧ (∀ i, 1 ≤ i → i < 8 → slotByte t.bst.store (512 * job.pair.val + x.index.val) i
            = [BitVec.ofNat 8 job.pair.val, BitVec.ofNat 8 (x.index.val / 256), BitVec.ofNat 8 x.index.val, b.address,
               BitVec.ofNat 8 ((BitVec.ofInt 16 b.gain).toNat / 256), BitVec.ofNat 8 (BitVec.ofInt 16 b.gain).toNat,
               (0xA5 : Byte)].getD (i - 1) 0)
        ∧ slotByte t.bst.store (512 * job.pair.val + x.index.val) 0 = slotByte s.bst.store (512 * job.pair.val + x.index.val) 0
        ∧ slotByte t.bst.store (512 * job.pair.val + y.index.val) 0 = 0x3C
        ∧ (∀ i, 1 ≤ i → i < 8 → slotByte t.bst.store (512 * job.pair.val + y.index.val) i
            = slotByte s.bst.store (512 * job.pair.val + y.index.val) i)
        ∧ (∀ slot, slot ≠ 512 * job.pair.val + x.index.val → slot ≠ 512 * job.pair.val + y.index.val →
            slotBytes t.bst.store slot = slotBytes s.bst.store slot)
        ∧ t = { s with bst := { s.bst with
                  store := t.bst.store
                  op := .programming { job with written := job.written ++ [x], remaining := y :: later } } }

/-- ERASE_BLOCK puts an IDLE store into ERASING, or is refused; at ERASE_END every slot of the block is BLANK, its STORED records
are ADOPTED, the store is IDLE, the last operation recorded and the report queued (R165, R166). A block out of range is refused RANGE though the
store be busy (the model's choice, log 39). -/
def Obligations.EraseTakesTheBlock : Prop :=
  (∀ (h : Header) (block : Byte) (src : Source) (effective : Level) (s : State), s.takes h src effective 0 →
      (32 ≤ block.toNat → exec (.eraseBlock h block) s = .next (s.withReply (refusedReply src h 0x58 .range)))
      ∧ ∀ b : Fin 32, block.toNat = b.val →
        (s.bst.op ≠ .idle → exec (.eraseBlock h block) s = .next (s.withReply (refusedReply src h 0x58 .storeBusy)))
        ∧ (s.bst.op = .idle → exec (.eraseBlock h block) s
            = .next ({ s with bst := { s.bst with op := .erasing b } }.withReply (acceptedReply src h 0x58 []))))
    ∧ ∀ (b : Fin 32) (s : State), s.bst.op = .erasing b →
      ∃ t : State, exec .eraseEnd s = .next t.concludeEvent
        ∧ (∀ slot, slotBytes t.bst.store slot =
            if slot / 256 = b.val then List.replicate 8 0xFF else slotBytes s.bst.store slot)
        ∧ (∀ (q : Pair) (i : Index), t.baseline q i =
            if q.val = b.val / 2 ∧ i.val / 256 = b.val % 2 then (s.baseline q i).map (fun c => { c with stored := false })
            else s.baseline q i)
        ∧ t = { s with bst := { s.bst with store := t.bst.store, image := t.bst.image, op := .idle,
                                           lastOp := some (.erase b) },
                       clk := { s.clk with reports := joined s.clk.reports [.store] } }

/-- At COLD_LOAD_END every usable slot that is HOLDING, its bytes naming its own pair and index, is in the image as STORED, every
other record of a cleared image is ABSENT, the store is IDLE, the part READY and the system origin queued (R159, R171, R191,
R198). -/
def Obligations.ColdLoadFillsTheImage : Prop :=
  ∀ s : State, s.clk.part = .starting → s.bst.op = .loading → (∀ p i, s.baseline p i = none) →
    (∀ (p : Pair) (i : Index), slotState s.bst.store (512 * p.val + i.val) = .holding →
      (slotByte s.bst.store (512 * p.val + i.val) 1).toNat = p.val
      ∧ (slotByte s.bst.store (512 * p.val + i.val) 2 ++ slotByte s.bst.store (512 * p.val + i.val) 3).toNat = i.val) →
    ∃ t : State, exec .coldLoadEnd s = .next t.concludeEvent
      ∧ (∀ (p : Pair) (i : Index), t.baseline p i =
          if slotState s.bst.store (512 * p.val + i.val) = .holding then
            some { stored := true,
                   gain := (slotByte s.bst.store (512 * p.val + i.val) 5 ++ slotByte s.bst.store (512 * p.val + i.val) 6).toInt,
                   address := slotByte s.bst.store (512 * p.val + i.val) 4 }
          else none)
      ∧ t = { s with bst := { s.bst with image := t.bst.image, op := .idle },
                     clk := { s.clk with part := .ready, reports := joined s.clk.reports [.system] } }


/-! ## The transmitter and resets by request -/

/-- When it is idle, and whenever a transmission ends, the transmitter chooses its next frame: the reply at the head; with no reply the
report of the origin at the head, built from the state as it stands, the origin leaving its queue and an order's report freeing its
record; with neither it is idle. A sent reply leaves its queue at its end (R98, R153, R170, R181, R182, R184, R185, R195; a pair's
report: `PairReportClearsItsMarks`). An event other than a request ends in `State.concludeEvent`: a busy transmitter leaves the
state as it is, and an idle one begins at once, at the event's end (R185; that instant is the model's choice, log 18). -/
def Obligations.TransmissionEndSendsTheNextFrame : Prop :=
  ∀ s : State,
    (∀ (strap : LineRate) (u : State), s.frameEnds u → ∃ t, exec (.transmissionEnd strap) s = .next t ∧ u.beginsNext t)
    ∧ (s.clk.transmitter = .idle → s.beginsNext s.concludeEvent)
    ∧ (s.clk.transmitter ≠ .idle → s.concludeEvent = s)

/-- Building a pair report clears the changed marks of the records it carries, up to 128 with the lowest index first, and the
pair's DARK and LINE_DARK marks, and queues the pair again while records of it are still marked (R11, R184, R195). It is built where the transmitter chooses its next
frame: at a transmission's end, and at the end of an event that finds it idle (R185; log 18). -/
def Obligations.PairReportClearsItsMarks : Prop :=
  ∀ (p : Pair) (rest : List Origin) (marked : List Index) (s : State),
    s.clk.replies = [] → s.clk.reports = .pair p :: rest → .pair p ∉ rest →
    marked = (List.finRange 272).filter (fun i => (s.record i p).changed) →
    ∃ t : State, (∀ (strap : LineRate) (u : State), u.frameEnds s → exec (.transmissionEnd strap) u = .next t)
      ∧ (s.clk.transmitter = .idle → s.concludeEvent = t)
      ∧ t.clk.transmitter = .report {
          source := 0
          tag := 0
          kind := 0xE2
          body := BitVec.ofNat 8 p.val
            :: BitVec.ofNat 8 ((if s.darkMark p then 1 else 0) + (if s.lineDarkMark p then 2 else 0))
            :: BitVec.ofNat 8 (min 128 marked.length)
            :: (marked.take 128).flatMap (fun i =>
                 u16 i.val ++ [BitVec.ofNat 8 (conditionCode (s.record i p).condition)]) }
      ∧ (∀ i q, t.record i q = if q = p ∧ i ∈ marked.take 128 then { s.record i q with changed := false } else s.record i q)
      ∧ (∀ q, t.darkMark q = if q = p then false else s.darkMark q)
      ∧ (∀ q, t.lineDarkMark q = if q = p then false else s.lineDarkMark q)
      ∧ t.clk.reports = (if 128 < marked.length then rest ++ [.pair p] else rest)
      ∧ t = { s with lpt := { s.lpt with records := t.lpt.records }, pch := { s.pch with dark := t.pch.dark },
                     flo := { s.flo with lineDark := t.flo.lineDark },
                     clk := { s.clk with reports := t.clk.reports, transmitter := t.clk.transmitter } }

/-- An accepted RESET makes the named reset pending, the receive-ready line deasserted; the end of its reply brings it, with
cause REQUEST: a cold one acts as a power-on does, and a warm one as the warm reset of a break does, what differs between them
being the recorded cause and the break flags, which a requested reset keeps (the model's choice, log 13) (R182, R189, R191). -/
def Obligations.ResetIsPendingUntilItsReplyIsSent : Prop :=
  (∀ (h : Header) (which : Byte) (src : Source) (effective : Level) (s : State), s.takes h src effective 0 →
      which.toNat ≤ 1 →
      exec (.reset h which) s = .next
        ({ s with clk := { s.clk with pendingReset := some (if which = 0 then .cold else .warm) } }.withReply
          (acceptedReply src h 0x5F []))
      ∧ ({ s with clk := { s.clk with pendingReset := some (if which = 0 then .cold else .warm) } }.withReply
          (acceptedReply src h 0x5F [])).clk.ready = false)
    ∧ ∀ (strap : LineRate) (f : LinkFrame) (rest : List Byte) (s : State), s.clk.transmitter = .reply f → f.kind = 0xF0 →
        f.body = 0x5F :: rest →
        (s.clk.pendingReset = some .cold →
          ∃ u, exec (.powerOn strap) s = .next u ∧ exec (.transmissionEnd strap) s = .next
            { u with clk := { u.clk with
                lastReset := (.cold, .request), lineAtSpace := s.clk.lineAtSpace, breakSpent := s.clk.breakSpent } })
        ∧ (s.clk.pendingReset = some .warm → s.clk.part = .ready →
          ∃ t u : State, exec (.transmissionEnd strap) s = .next t
            ∧ exec (.breakReset strap) { s with clk := { s.clk with lineAtSpace := true, breakSpent := false } } = .next u
            ∧ t.clk.lastReset = (.warm, .request) ∧ t.clk.lineAtSpace = s.clk.lineAtSpace
            ∧ t.clk.breakSpent = s.clk.breakSpent
            ∧ (u.clk.transmitter = .report { source := 0, tag := 0, kind := 0xE4, body := [2, 3] } →
                t.clk.transmitter = .report { source := 0, tag := 0, kind := 0xE4, body := [2, 2] })
            ∧ (u.clk.transmitter ≠ .report { source := 0, tag := 0, kind := 0xE4, body := [2, 3] } →
                t.clk.transmitter = u.clk.transmitter)
            ∧ t = { u with clk := { u.clk with
                      lastReset := t.clk.lastReset, lineAtSpace := t.clk.lineAtSpace, breakSpent := t.clk.breakSpent,
                      transmitter := t.clk.transmitter } })

/-! ## Boundaries and periodic dues -/

/-- BOUNDARY while READY advances the frame number, 4095 by 0, puts a pending interval in force, and leaves the settings, the
paths, the store, the source levels, the reply queue and every channel that is held as they are (R34, R60, R61, R62; a coasting
channel that waits with a holder: log 4); while STARTING no boundary is marked (R60); the order of its parts is log 11. Where
nothing is granted, each COASTING channel stops its probe and is PARKED (R34), each countdown on the periodic list goes down by
one (R69), and the dispatch pass examines its candidates (R80): one that fails a stage-one check ends by where it came from, a
demand campaign FAILED, a periodic slot's pending-due mark cleared, a confirm's order DONE_UNRESOLVED (R81, R82, R151); one that
passes and finds its pair's chain empty, no order in its way and room becomes its chain's root, and otherwise waits unchanged
(R44, R83, R84); a chain top in AWAITING_ROOM asks again for its extent (R87). The groups go in R80's order: a chain top takes room before a confirm,
a confirm before a due periodic slot, and of a due periodic slot and a demand campaign of one pair the periodic slot becomes the root
and the demand campaign waits (R80, R83). Where a confirm fails, the pair's origin joins before the
order's (the model's choice, log 28). -/
def Obligations.BoundaryMovesTheClock : Prop :=
  (∀ s : State, s.clk.part = .ready → s.fga.frame ≤ 4095 →
      ∃ t : State, exec .boundary s = .next t
        ∧ t.fga.frame = (if s.fga.frame = 4095 then 0 else s.fga.frame + 1)
        ∧ t.fga.interval = s.fga.pendingInterval.getD s.fga.interval ∧ t.fga.pendingInterval = none
        ∧ t.pch.enabled = s.pch.enabled ∧ t.pch.ceilings = s.pch.ceilings ∧ t.ecr.floor = s.ecr.floor
        ∧ t.flo.tStep = s.flo.tStep ∧ t.flo.tDrift = s.flo.tDrift ∧ t.lpt.paths = s.lpt.paths ∧ t.lpt.spans = s.lpt.spans
        ∧ t.lpt.assembly = s.lpt.assembly ∧ t.isu.gates = s.isu.gates ∧ t.isu.settings = s.isu.settings ∧ t.bst = s.bst
        ∧ t.clk.levels = s.clk.levels ∧ t.clk.replies = s.clk.replies ∧ t.clk.part = .ready
        ∧ t.clk.lastReset = s.clk.lastReset ∧ t.clk.pendingReset = s.clk.pendingReset
        ∧ ∀ c, (s.channel c).holder ≠ none → t.channel c = s.channel c)
    ∧ (∀ s : State, s.clk.part = .starting → exec .boundary s = .next s)
    ∧ ∀ (s b : State), s.nothingToGrant → b = s.boundaryPassed →
      -- nothing falls due and nothing is dispatched: the countdowns run
      (s.noneSeeksRoom → s.noneConfirms → s.cen.demand = [] → s.cen.periodic.Nodup →
        (∀ n ∈ s.cen.periodic, ∃ x, (s.campaign n).periodic = some x ∧ x.due = false ∧ (2 ≤ x.countdown
          ∨ x.parity = .even ∧ b.fga.frame % 2 = 1 ∨ x.parity = .odd ∧ b.fga.frame % 2 = 0)) →
        ∃ t : State, exec .boundary s = .next t.concludeEvent
          ∧ (∀ n ∈ s.cen.periodic, t.campaign n = { s.campaign n with
              periodic := (s.campaign n).periodic.map (fun x => { x with countdown := x.countdown - 1 }) })
          ∧ (∀ n, n ∉ s.cen.periodic → t.campaign n = s.campaign n)
          ∧ t = { b with cen := { s.cen with slots := t.cen.slots } })
      -- one demand campaign is examined
      ∧ (∀ n, s.noneSeeksRoom → s.noneConfirms → s.cen.periodic = [] → s.cen.demand = [n] → (s.campaign n).state = .queued →
        (s.campaign n).kind ≠ some .confirm →
        (∀ reason, s.dispatchFails (s.campaign n) reason → exec .boundary s = .next
          { b with
              cen := { s.cen with
                demand := [], slots := s.cen.slots.set n { s.campaign n with state := .failed, failure := some reason } }
              clk := { s.clk with reports := joined s.clk.reports [.campaign n] } }.concludeEvent)
        ∧ ∀ els, s.dispatchPasses (s.campaign n) els →
          (∀ a, s.chain (s.campaign n).pair = [] →
            ¬ s.orderAmong (s.campaign n).pair [.waitingChannel, .referencing, .sending, .listening, .confirming] →
            firstFit (5 * els.length) s.ecr.extents 0 = some a →
            ∃ t : State, exec .boundary s = .next t.concludeEvent ∧ s.rootCommitted t n els a
              ∧ t = { b with ecr := { s.ecr with extents := t.ecr.extents, cells := t.ecr.cells }
                             cen := { s.cen with demand := [], slots := t.cen.slots, chains := t.cen.chains } })
          ∧ (s.chain (s.campaign n).pair ≠ []
              ∨ s.orderAmong (s.campaign n).pair [.waitingChannel, .referencing, .sending, .listening, .confirming]
              ∨ firstFit (5 * els.length) s.ecr.extents 0 = none → exec .boundary s = .next b.concludeEvent))
      -- of two demand campaigns of one pair the first becomes the root and the second waits
      ∧ (∀ n m a els later, s.noneSeeksRoom → s.noneConfirms → s.cen.periodic = [] → s.cen.demand = [n, m] → n ≠ m →
        (s.campaign n).kind ≠ some .confirm → (s.campaign m).pair = (s.campaign n).pair →
        s.dispatchPasses (s.campaign n) els → s.dispatchPasses (s.campaign m) later → s.chain (s.campaign n).pair = [] →
        ¬ s.orderAmong (s.campaign n).pair [.waitingChannel, .referencing, .sending, .listening, .confirming] →
        firstFit (5 * els.length) s.ecr.extents 0 = some a →
        ∃ t : State, exec .boundary s = .next t.concludeEvent ∧ s.rootCommitted t n els a
          ∧ t = { b with ecr := { s.ecr with extents := t.ecr.extents, cells := t.ecr.cells }
                         cen := { s.cen with demand := [m], slots := t.cen.slots, chains := t.cen.chains } })
      -- a periodic slot that is due is examined
      ∧ (∀ n x, s.noneSeeksRoom → s.noneConfirms → s.cen.demand = [] → s.cen.periodic = [n] →
        (s.campaign n).state = .idlePeriodic → (s.campaign n).kind ≠ some .confirm → (s.campaign n).periodic = some x →
        x.due = true → 2 ≤ x.countdown →
        (∀ reason, s.dispatchFails (s.campaign n) reason → exec .boundary s = .next
          { b with
              cen := { s.cen with slots := (s.cen.slots.set n { s.campaign n with
                failure := some reason, periodic := some { x with countdown := x.countdown - 1, due := false } }) }
              clk := { s.clk with reports := joined s.clk.reports [.campaign n] } }.concludeEvent)
        ∧ ∀ els a, s.dispatchPasses (s.campaign n) els → s.chain (s.campaign n).pair = [] →
            ¬ s.orderAmong (s.campaign n).pair [.waitingChannel, .referencing, .sending, .listening, .confirming] →
            firstFit (5 * els.length) s.ecr.extents 0 = some a →
          ∃ t : State, exec .boundary s = .next t.concludeEvent ∧ s.rootCommitted t n els a
            ∧ t = { b with ecr := { s.ecr with extents := t.ecr.extents, cells := t.ecr.cells }
                           cen := { s.cen with slots := t.cen.slots, chains := t.cen.chains } })
      -- or waits, its countdown run
      ∧ (∀ n x els, s.noneSeeksRoom → s.noneConfirms → s.cen.demand = [] → s.cen.periodic = [n] →
        (s.campaign n).state = .idlePeriodic → (s.campaign n).kind ≠ some .confirm → (s.campaign n).periodic = some x →
        x.due = true → 2 ≤ x.countdown → s.dispatchPasses (s.campaign n) els →
        s.chain (s.campaign n).pair ≠ []
          ∨ s.orderAmong (s.campaign n).pair [.waitingChannel, .referencing, .sending, .listening, .confirming]
          ∨ firstFit (5 * els.length) s.ecr.extents 0 = none →
        exec .boundary s = .next { b with cen := { s.cen with slots := (s.cen.slots.set n
          { s.campaign n with periodic := some { x with countdown := x.countdown - 1 } }) } }.concludeEvent)
      -- a confirm is examined
      ∧ (∀ k o n, s.noneSeeksRoom → s.cen.demand = [] → s.cen.periodic = [] → s.isu.acceptance = [k] → s.confirms k o n →
        (s.campaign n).state = .reserved → (s.campaign n).kind = some .confirm →
        (∀ reason, s.dispatchFails (s.campaign n) reason →
          ∃ t : State, exec .boundary s = .next t.concludeEvent ∧ s.orderMarks t o.entry o.pair .unresolved
            ∧ t = { b with
                lpt := { s.lpt with entries := t.lpt.entries, records := t.lpt.records }
                cen := { s.cen with slots := s.cen.slots.set n {} }
                isu := { s.isu with orders := s.isu.orders.set k (some
                  { o with state := .doneUnresolved, reason := some reason }) }
                clk := { s.clk with reports := s.orderOrigins k o .unresolved } })
        ∧ (∀ els, s.dispatchPasses (s.campaign n) els →
            s.chain (s.campaign n).pair ≠ []
              ∨ s.orderAmong (s.campaign n).pair [.waitingChannel, .referencing, .sending, .listening]
              ∨ firstFit (5 * els.length) s.ecr.extents 0 = none → exec .boundary s = .next b.concludeEvent)
        ∧ ∀ els a, s.dispatchPasses (s.campaign n) els → s.chain (s.campaign n).pair = [] →
            ¬ s.orderAmong (s.campaign n).pair [.waitingChannel, .referencing, .sending, .listening] →
            firstFit (5 * els.length) s.ecr.extents 0 = some a →
          ∃ t : State, exec .boundary s = .next t.concludeEvent ∧ s.rootCommitted t n els a
            ∧ t = { b with ecr := { s.ecr with extents := t.ecr.extents, cells := t.ecr.cells }
                           cen := { s.cen with slots := t.cen.slots, chains := t.cen.chains } })
      -- a chain top asks again for room
      ∧ (∀ p n, s.noneConfirms → s.cen.demand = [] → s.cen.periodic = [] → (s.chain p).getLast? = some n →
        (s.campaign n).state = .awaitingRoom →
        (∀ q m, q ≠ p → (s.chain q).getLast? = some m → (s.campaign m).state ≠ .awaitingRoom) →
        (∀ a, firstFit (5 * (s.campaign n).elements.length) s.ecr.extents 0 = some a →
          ∃ t : State, exec .boundary s = .next t.concludeEvent
            ∧ (∀ x, t.cell x = if a ≤ x ∧ x < a + 5 * (s.campaign n).elements.length then 0 else s.cell x)
            ∧ t = { b with
                ecr := { s.ecr with
                  cells := t.ecr.cells
                  extents := insertExtent { start := a, length := 5 * (s.campaign n).elements.length, slot := n }
                    s.ecr.extents }
                cen := { s.cen with slots := (s.cen.slots.set n
                  { s.campaign n with
                    state := .measuring, extent := some (a, 5 * (s.campaign n).elements.length) }) } })
        ∧ (firstFit (5 * (s.campaign n).elements.length) s.ecr.extents 0 = none → exec .boundary s = .next b.concludeEvent))
      -- R80's groups in turn: of a due periodic slot and a demand campaign of one pair the first becomes the root, the second waits
      ∧ (∀ n m x els later a, s.noneSeeksRoom → s.noneConfirms → s.cen.periodic = [n] → s.cen.demand = [m] →
        (s.campaign n).state = .idlePeriodic → (s.campaign n).kind ≠ some .confirm → (s.campaign n).periodic = some x →
        x.due = true → 2 ≤ x.countdown → (s.campaign m).state = .queued → (s.campaign m).kind ≠ some .confirm →
        (s.campaign m).pair = (s.campaign n).pair → s.dispatchPasses (s.campaign n) els → s.dispatchPasses (s.campaign m) later →
        s.chain (s.campaign n).pair = [] →
        ¬ s.orderAmong (s.campaign n).pair [.waitingChannel, .referencing, .sending, .listening, .confirming] →
        firstFit (5 * els.length) s.ecr.extents 0 = some a →
        ∃ t : State, exec .boundary s = .next t.concludeEvent ∧ s.rootCommitted t n els a
          ∧ t = { b with ecr := { s.ecr with extents := t.ecr.extents, cells := t.ecr.cells }
                         cen := { s.cen with slots := t.cen.slots, chains := t.cen.chains } })
      -- of a confirm and a due periodic slot the confirm takes the room, and the periodic slot waits with its mark
      ∧ (∀ k o n m x els later a, s.noneSeeksRoom → s.cen.demand = [] → s.cen.periodic = [m] → s.isu.acceptance = [k] →
        s.confirms k o n → (s.campaign n).state = .reserved → (s.campaign n).kind = some .confirm →
        (s.campaign m).state = .idlePeriodic → (s.campaign m).kind ≠ some .confirm → (s.campaign m).periodic = some x →
        x.due = true → 2 ≤ x.countdown → s.dispatchPasses (s.campaign n) els → s.dispatchPasses (s.campaign m) later →
        s.chain (s.campaign n).pair = [] → ¬ s.orderAmong (s.campaign n).pair [.waitingChannel, .referencing, .sending, .listening] →
        firstFit (5 * els.length) s.ecr.extents 0 = some a →
        firstFit (5 * later.length) (insertExtent { start := a, length := 5 * els.length, slot := n } s.ecr.extents) 0 = none →
        ∃ v t : State, v = { s with cen := { s.cen with slots := (s.cen.slots.set m
              { s.campaign m with periodic := some { x with countdown := x.countdown - 1 } }) } }
          ∧ exec .boundary s = .next t.concludeEvent ∧ v.rootCommitted t n els a
          ∧ t = { b with ecr := { s.ecr with extents := t.ecr.extents, cells := t.ecr.cells }
                         cen := { s.cen with slots := t.cen.slots, chains := t.cen.chains } })
      -- of a chain top that seeks room and a confirm the chain top takes it, and the confirm waits
      ∧ ∀ p n k o m els a, s.cen.demand = [] → s.cen.periodic = [] → (s.chain p).getLast? = some n →
        (s.campaign n).state = .awaitingRoom →
        (∀ q j, q ≠ p → (s.chain q).getLast? = some j → (s.campaign j).state ≠ .awaitingRoom) →
        s.isu.acceptance = [k] → s.confirms k o m → (s.campaign m).state = .reserved → (s.campaign m).kind = some .confirm →
        s.dispatchPasses (s.campaign m) els → firstFit (5 * (s.campaign n).elements.length) s.ecr.extents 0 = some a →
        firstFit (5 * els.length)
          (insertExtent { start := a, length := 5 * (s.campaign n).elements.length, slot := n } s.ecr.extents) 0 = none →
        ∃ t : State, exec .boundary s = .next t.concludeEvent
          ∧ (∀ x, t.cell x = if a ≤ x ∧ x < a + 5 * (s.campaign n).elements.length then 0 else s.cell x)
          ∧ t = { b with
              ecr := { s.ecr with
                cells := t.ecr.cells
                extents := insertExtent { start := a, length := 5 * (s.campaign n).elements.length, slot := n } s.ecr.extents }
              cen := { s.cen with slots := (s.cen.slots.set n
                { s.campaign n with state := .measuring, extent := some (a, 5 * (s.campaign n).elements.length) }) } }

/-- A boundary grants the orders first: the oldest one waiting, its pair on no held channel, gets the lowest-numbered free
channel with an enabled point and enters REFERENCING. With none waiting, the chain top of the least recently served pair gets
its pair's previous channel if that is free and enabled, else the lowest-numbered one, its applied settings fixed, and what an applied level above the ceiling
loses is zeroed (R31, R48); its pair goes behind every pair not served. A slice takes max(1, floor((F - s - q) / P)) periods, at
most those it still needs: s is 50 ms where the channel settles, and q is P where it settles or primes. A channel on another point,
or on none, settles; one that holds the pair's point closed primes where its probe is stopped, drives another signature or the
campaign must prime, and otherwise coasts into its periods (R24, R33, R62 to R67, R136; a coasting channel that waits: log 4). A
COASTING channel that gets no grant is PARKED, or DISCONNECTED where its pair was granted to another channel (R24, R34). -/
def Obligations.BoundaryGrantsChannels : Prop :=
  (∀ (c : Chan) (p : Pair) (s : State), s.clk.part = .ready → s.channelFree c → s.pointEnabled c p = true →
    (∀ d, (s.channel d).point = some p → s.channelFree d) →
    (∀ k o earlier later code reference sig, s.isu.acceptance = earlier ++ k :: later →
        (∀ m ∈ earlier, ∀ x, s.order m = some x → x.state ≠ .waitingChannel) → s.order k = some o → o.state = .waitingChannel →
        o.pair = p → (∀ d, d < c → s.channelFree d → s.pointEnabled d p = false) →
        fixLevel 4095 3 (s.ceiling p) = (code, reference) →
        sig = { pair := p, chip := o.chip, sequence := o.sequence, level := code, reference := reference } →
      ∃ t : State, exec .boundary s = .next t.concludeEvent
        ∧ t.channel c = (if (s.channel c).point ≠ some p then
              { state := .settling, point := some p, probe := none, holder := some (.order k) }
            else if (s.channel c).probe = some sig then { s.channel c with holder := some (.order k) }
            else { state := .priming, point := some p, probe := some sig, holder := some (.order k) })
        ∧ t.order k = some { o with
            state := .referencing, channel := some c, applied := (code, reference), phase := 0, window := [] }
        ∧ (∀ x, t.workingCell c x = 0) ∧ t.fga.previous[p] = some c)
    ∧ ∀ n rest y code reference sig, s.fga.service = p :: rest →
        (∀ k ∈ s.isu.acceptance, ∀ x, s.order k = some x → x.state ≠ .waitingChannel) →
        (s.chain p).getLast? = some n → (∀ q, (s.chain q).getLast? = some n → q = p) → (s.campaign n).pair = p →
        (s.campaign n).state = .measuring → (s.campaign n).extent.isSome = true →
        (∀ d k lit, (s.channel d).holder ≠ some (.slice n k lit)) →
        (s.fga.previous[p] = some c
          ∨ (∀ d, s.fga.previous[p] = some d → s.channelFree d → s.pointEnabled d p = false)
            ∧ ∀ d, d < c → s.channelFree d → s.pointEnabled d p = false) →
        s.settingsFixed (s.campaign n) y → y.applied = some (code, reference) →
        sig = { pair := p, chip := (s.campaign n).requested.chip, sequence := (s.campaign n).requested.sequence,
                level := code, reference := reference } →
      ∃ (t : State) (periods micros settle prime : Nat), exec .boundary s = .next t.concludeEvent
        ∧ micros = chipMicros (s.campaign n).requested.chip * sequenceLength (s.campaign n).requested.sequence
        ∧ settle = (if (s.channel c).point = some p then 0 else 50000)
        ∧ prime = (if (s.channel c).point = some p ∧ (s.channel c).probe = some sig ∧ y.mustPrime = false then 0 else micros)
        ∧ periods = min (max 1 (((1000 * t.fga.interval : Nat) - (settle : Int) - (prime : Int)) / micros).toNat)
            (2 ^ (s.campaign n).exponent - y.accepted)
        ∧ t.channel c = (if (s.channel c).point ≠ some p then
              { state := .settling, point := some p, probe := none, holder := some (.slice n periods false) }
            else if prime = 0 then { s.channel c with holder := some (.slice n periods false) }
            else { state := .priming, point := some p, probe := some sig, holder := some (.slice n periods false) })
        ∧ t.campaign n = { y with periodic := (t.campaign n).periodic }
        ∧ (∀ old start length, (s.campaign n).applied = some old → s.ceiling p < probeLevel old.1 old.2 →
            (s.campaign n).extent = some (start, length) → ∀ a, start ≤ a → a < start + length → t.cell a = 0)
        ∧ t.fga.lastServed[p] = some t.fga.frame ∧ t.fga.previous[p] = some c
        ∧ ∃ unserved served : List Pair, t.fga.service = unserved ++ served ∧ unserved.Sublist rest ∧ p ∈ served
            ∧ served.Pairwise (· < ·) ∧ ∀ q ∈ served, t.fga.lastServed[q] = some t.fga.frame)
    ∧ ∀ (c : Chan) (s : State), s.clk.part = .ready → (s.channel c).state = .coasting → (s.channel c).holder = none →
      ∃ t : State, exec .boundary s = .next t.concludeEvent
        ∧ ((t.channel c).holder ≠ none ∨ t.channel c = { s.channel c with state := .parked, probe := none }
          ∨ t.channel c = { state := .disconnected, point := none, probe := none, holder := none }
            ∧ ∃ d p, d ≠ c ∧ (s.channel c).point = some p ∧ (t.channel d).point = some p ∧ (t.channel d).holder ≠ none)

/-- PERIODIC_DUE: a countdown at 0 with a matching parity is reloaded and the pending-due mark set; on a chain or already marked
the slot overruns, its count held at 65,535, and its origin is queued (R69, R70). The same at BOUNDARY, where nothing is granted,
for every slot on the periodic list: a countdown of 1 or 0 falls due at a frame whose parity matches its tag, stays at 0 at another,
and one above 1 goes down (R69, R70). The dispatch pass of that very boundary sees what the countdowns left (R80; the order of the
parts is the model's choice, log 11): with no slot IDLE_PERIODIC and marked, nothing more happens; such a slot is examined, and
fails a stage-one check, its mark cleared, becomes its chain's root, its mark cleared and its countdown reloaded, or waits with
its mark set (R81 to R84). -/
def Obligations.PeriodicSlotFallsDue : Prop :=
  (∀ (n : Slot) (x : PeriodicPart) (s : State), s.clk.part = .ready → n ∈ s.cen.periodic →
      (s.campaign n).periodic = some x → x.countdown = 0 →
      (x.parity = .any ∨ x.parity = .even ∧ s.fga.frame % 2 = 0 ∨ x.parity = .odd ∧ s.fga.frame % 2 = 1) →
      ((s.campaign n).state = .idlePeriodic → x.due = false →
        exec (.periodicDue n) s = .next
          { s with cen := { s.cen with slots := (s.cen.slots.set n
              { s.campaign n with periodic := some { x with countdown := x.period, due := true } }) } }.concludeEvent)
      ∧ ((s.campaign n).state ≠ .idlePeriodic ∨ x.due = true →
        exec (.periodicDue n) s = .next
          { s with
              cen := { s.cen with slots := (s.cen.slots.set n
                { s.campaign n with periodic := (some
                    { x with countdown := x.period, due := true, overruns := min 65535 (x.overruns + 1) }) }) }
              clk := { s.clk with reports := joined s.clk.reports [.campaign n] } }.concludeEvent))
    ∧ ∀ s b v : State, s.nothingToGrant → s.noneSeeksRoom → s.noneConfirms → s.cen.demand = [] → s.cen.periodic.Nodup →
      s.countdownsRun v s.boundaryPassed.fga.frame → b = v.boundaryPassed →
      -- no slot is to be examined: each is on a chain or unmarked
      ((∀ n ∈ s.cen.periodic, ¬ v.duePeriodic n) → exec .boundary s = .next b.concludeEvent)
      -- one slot is to be examined, be it newly due, overrun or marked before
      ∧ ∀ n x, n ∈ s.cen.periodic → v.duePeriodic n → (∀ m ∈ s.cen.periodic, m ≠ n → ¬ v.duePeriodic m) →
        (s.campaign n).kind ≠ some .confirm → (v.campaign n).periodic = some x →
        (∀ reason, s.dispatchFails (s.campaign n) reason → exec .boundary s = .next
          { b with
              cen := { v.cen with slots := (v.cen.slots.set n
                { v.campaign n with failure := some reason, periodic := some { x with due := false } }) }
              clk := { v.clk with reports := joined v.clk.reports [.campaign n] } }.concludeEvent)
        ∧ ∀ els, s.dispatchPasses (s.campaign n) els →
          (∀ a, s.chain (s.campaign n).pair = [] →
            ¬ s.orderAmong (s.campaign n).pair [.waitingChannel, .referencing, .sending, .listening, .confirming] →
            firstFit (5 * els.length) s.ecr.extents 0 = some a →
            ∃ t : State, exec .boundary s = .next t.concludeEvent ∧ v.rootCommitted t n els a
              ∧ t = { b with ecr := { s.ecr with extents := t.ecr.extents, cells := t.ecr.cells }
                             cen := { v.cen with slots := t.cen.slots, chains := t.cen.chains } })
          ∧ (s.chain (s.campaign n).pair ≠ []
              ∨ s.orderAmong (s.campaign n).pair [.waitingChannel, .referencing, .sending, .listening, .confirming]
              ∨ firstFit (5 * els.length) s.ecr.extents 0 = none → exec .boundary s = .next b.concludeEvent)

/-! ## Periods on a channel -/

/-- The settle's end begins priming with the holder's signature; the priming period's end, and the period start of a coasting probe
with the same signature, begin the periods, the former clearing a slice's must-prime mark (R24, R33, R48; log 4). -/
def Obligations.LeadInReachesThePeriods : Prop :=
  ∀ (c : Chan) (s : State),
    (∀ n k lit code reference, (s.channel c).state = .settling → (s.channel c).holder = some (.slice n k lit) →
        (s.campaign n).applied = some (code, reference) →
      exec (.settleEnd c) s = .next
        { s with pch := { s.pch with channels := (s.pch.channels.set c
            { s.channel c with
              state := .priming
              probe := some { pair := (s.campaign n).pair, chip := (s.campaign n).requested.chip,
                              sequence := (s.campaign n).requested.sequence, level := code, reference := reference } }) } }.concludeEvent)
    ∧ (∀ k o, (s.channel c).state = .settling → (s.channel c).holder = some (.order k) → s.order k = some o →
      exec (.settleEnd c) s = .next
        { s with pch := { s.pch with channels := (s.pch.channels.set c
            { s.channel c with
              state := .priming
              probe := some { pair := o.pair, chip := o.chip, sequence := o.sequence, level := o.applied.1,
                              reference := o.applied.2 } }) } }.concludeEvent)
    ∧ (∀ n k lit, (s.channel c).state = .priming → (s.channel c).holder = some (.slice n k lit) →
      exec (.primingPeriodEnd c) s = .next
        { s with
            pch := { s.pch with channels := s.pch.channels.set c { s.channel c with state := .periods } }
            isu := { s.isu with inverted := s.isu.inverted.set c false }
            cen := { s.cen with slots := s.cen.slots.set n { s.campaign n with mustPrime := false } } }.concludeEvent)
    ∧ (∀ k, (s.channel c).state = .priming → (s.channel c).holder = some (.order k) →
      exec (.primingPeriodEnd c) s = .next
        { s with
            pch := { s.pch with channels := s.pch.channels.set c { s.channel c with state := .periods } }
            isu := { s.isu with inverted := s.isu.inverted.set c false } }.concludeEvent)
    ∧ ((s.channel c).state = .coasting → (s.channel c).holder ≠ none →
      exec (.coastingPeriodStart c) s = .next
        { s with
            pch := { s.pch with channels := s.pch.channels.set c { s.channel c with state := .periods } }
            isu := { s.isu with inverted := s.isu.inverted.set c false } }.concludeEvent)

/-- A slice's period with presence adds its period sums to the cells of every element and counts as accepted; one without presence
goes nowhere; both take one of the slice's periods (R36, R42, R43, R47). -/
def Obligations.SlicePeriodsAccumulate : Prop :=
  ∀ (c : Chan) (n : Slot) (remaining : Nat) (lit : Bool) (samples : List Sample) (start : Nat) (s : State),
    (s.channel c).state = .periods → (s.channel c).holder = some (.slice n remaining lit) → 2 ≤ remaining →
    samples.length = sequenceLength (s.campaign n).requested.sequence →
    (s.campaign n).extent = some (start, 5 * (s.campaign n).elements.length) →
    ((s.campaign n).accepted < 2 ^ (s.campaign n).exponent →
      exec (.slicePeriodEnd c false samples) s = .next
        { s with pch := { s.pch with channels := (s.pch.channels.set c
            { s.channel c with holder := some (.slice n (remaining - 1) lit) }) } }.concludeEvent)
    ∧ ((s.campaign n).accepted + 1 < 2 ^ (s.campaign n).exponent →
      ∃ t : State, exec (.slicePeriodEnd c true samples) s = .next t.concludeEvent
        ∧ t.channel c = { s.channel c with holder := some (.slice n (remaining - 1) true) }
        ∧ t.campaign n = { s.campaign n with accepted := (s.campaign n).accepted + 1 }
        ∧ (∀ (k : Nat) (e : Element) (o : Int), (s.campaign n).elements[k]? = some e → -2 ≤ o → o ≤ 2 →
            t.cell (start + 5 * k + (o + 2).toNat) = s.cell (start + 5 * k + (o + 2).toNat)
              + writtenSum (s.campaign n).requested.sequence samples e.lag o)
        ∧ (∀ a, a < start ∨ start + 5 * (s.campaign n).elements.length ≤ a → t.cell a = s.cell a)
        ∧ t = { s with pch := { s.pch with channels := s.pch.channels.set c (t.channel c) },
                       ecr := { s.ecr with cells := t.ecr.cells },
                       cen := { s.cen with slots := s.cen.slots.set n (t.campaign n) } })

/-- A slice that has taken all its periods leaves its channel coasting. With an accepted period, the last one among them, its
campaign's dark count is 0; without one it goes up, and at 3 the pair is marked DARK and its chain fails with reason DARK: every
campaign above the root is FREE, a demand root FAILED, a periodic root IDLE_PERIODIC again, and a confirm's order ends
DONE_UNRESOLVED, its slot FREE and its record UNRESOLVED (R34, R36, R37, R47, R85, R91, R151, R153). The pair's origin joins
before the root's (the model's choice, log 28), the root's cursor is absent (the model's choice, log 16), and what else its
record holds stays (the model's choice, log 37). -/
def Obligations.SliceEndIsJudged : Prop :=
  ∀ (c : Chan) (n : Slot) (lit : Bool) (samples : List Sample) (p : Pair) (s : State),
    (s.channel c).state = .periods → (s.channel c).holder = some (.slice n 1 lit) → p = (s.campaign n).pair →
    samples.length = sequenceLength (s.campaign n).requested.sequence →
    (s.campaign n).accepted < 2 ^ (s.campaign n).exponent →
    (∀ start, (s.campaign n).accepted + 1 < 2 ^ (s.campaign n).exponent →
        (s.campaign n).extent = some (start, 5 * (s.campaign n).elements.length) →
      ∃ t : State, exec (.slicePeriodEnd c true samples) s = .next t.concludeEvent
        ∧ t.campaign n = { s.campaign n with accepted := (s.campaign n).accepted + 1, darkCount := 0 }
        ∧ (∀ (k : Nat) (e : Element) (o : Int), (s.campaign n).elements[k]? = some e → -2 ≤ o → o ≤ 2 →
            t.cell (start + 5 * k + (o + 2).toNat) = s.cell (start + 5 * k + (o + 2).toNat)
              + writtenSum (s.campaign n).requested.sequence samples e.lag o)
        ∧ (∀ a, a < start ∨ start + 5 * (s.campaign n).elements.length ≤ a → t.cell a = s.cell a)
        ∧ t = { s with
            pch := { s.pch with channels := s.pch.channels.set c { s.channel c with state := .coasting, holder := none } }
            ecr := { s.ecr with cells := t.ecr.cells }
            cen := { s.cen with slots := s.cen.slots.set n (t.campaign n) } })
    ∧ (lit = true → exec (.slicePeriodEnd c false samples) s = .next
        { s with
            pch := { s.pch with channels := s.pch.channels.set c { s.channel c with state := .coasting, holder := none } }
            cen := { s.cen with slots := s.cen.slots.set n { s.campaign n with darkCount := 0 } } }.concludeEvent)
    ∧ (lit = false → (s.campaign n).darkCount + 1 < 3 → exec (.slicePeriodEnd c false samples) s = .next
        { s with
            pch := { s.pch with channels := s.pch.channels.set c { s.channel c with state := .coasting, holder := none } }
            cen := { s.cen with slots := (s.cen.slots.set n
              { s.campaign n with darkCount := (s.campaign n).darkCount + 1 }) } }.concludeEvent)
    ∧ ∀ u : State, lit = false → (s.campaign n).darkCount = 2 → n ∈ s.chain p →
        u = { s with
          pch := { s.pch with
            channels := s.pch.channels.set c { s.channel c with state := .coasting, holder := none }
            dark := s.pch.dark.set p true }
          cen := { s.cen with slots := s.cen.slots.set n { s.campaign n with darkCount := 3 } }
          clk := { s.clk with reports := joined s.clk.reports [.pair p] } } →
      (u.chainsApart [p] → ∃ t : State, exec (.slicePeriodEnd c false samples) s = .next t.concludeEvent
        ∧ u.chainsFailed t [p] .dark
        ∧ t = { u with
            pch := { u.pch with channels := t.pch.channels }, ecr := { u.ecr with extents := t.ecr.extents }
            cen := { u.cen with slots := t.cen.slots, chains := t.cen.chains }
            clk := { u.clk with reports := t.clk.reports } })
      ∧ ∀ k o, s.chain p = [n] → (s.campaign n).origin = .order → u.oneChannelEach [n] → s.confirms k o n →
        ∃ t : State, exec (.slicePeriodEnd c false samples) s = .next t.concludeEvent
          ∧ s.orderMarks t o.entry o.pair .unresolved ∧ u.slicesEnded t [n]
          ∧ t = { u with
              lpt := { s.lpt with entries := t.lpt.entries, records := t.lpt.records }
              pch := { u.pch with channels := t.pch.channels }
              ecr := { s.ecr with extents := s.ecr.extents.filter (fun e => e.slot != n) }
              cen := { s.cen with slots := s.cen.slots.set n {}, chains := s.cen.chains.set p [] }
              isu := { s.isu with orders := s.isu.orders.set k (some { o with state := .doneUnresolved, reason := some .dark }) }
              clk := { s.clk with reports := u.orderOrigins k o .unresolved } }

/-- The period that brings a campaign to M ends its measurement: its extent is reduced and released, its list classified and
summed up, each element's record holds the measurement, its class and the condition the merges give (R37, R47, R49, R88, R103,
R111 to R116), and the pair is marked LINE_DARK where no element has an echo (R112). The campaign then walks its suspect
elements in list order (R118, R119): where a child can be made it is made with the range, exponent and room R86, R120, R121 give
and the campaign nests; an element for which none can be made is refined INCONCLUSIVE with the reason (R122). With nothing left
to walk a demand or periodic root finishes (R90), and a confirm settles its order (R152). A child returns the verdict on its target,
its refining depth and the reason of an INCONCLUSIVE one to its parent, which walks on in the same event (R89, R123): its next
suspect gets a child in the lowest FREE slot, the returned child's own slot counted, or is refined INCONCLUSIVE, and with none left
a root finishes and a parent that is a child returns in its turn, down the chain. Pair origins join before the campaign's or the order's (the model's choice, log 28), and a
root's own record keeps what the rules do not name (the model's choice, log 29). -/
def Obligations.MeasurementEndFinishesASurvey : Prop :=
  ∀ (c : Chan) (n : Slot) (samples : List Sample) (l : List ResultElement) (p : Pair) (x : Campaign)
    (merged : ResultElement → Condition) (s : State),
    s.endsMeasurement c n samples l → x = s.campaign n → p = x.pair → x.cursor = none →
    (∀ r, merged r = mergedCondition x (s.targetPosition n) r (s.record r.entry p).condition) →
    -- nothing is left to walk: a root finishes
    (∀ (blocked : List ResultElement) (reason : ResultElement → Reason) (final : ResultElement → Condition)
        (moved : ResultElement → Bool), s.walkable n l = blocked → (∀ r ∈ blocked, s.childBlocked n r (reason r)) →
        (∀ r, final r = if r ∈ blocked then targeted (merged r) .inconclusive else merged r) →
        (∀ r, moved r = (!(merged r == (s.record r.entry p).condition) || !(final r == merged r))) →
        s.chain p = [n] → x.origin = .demand ∨ x.origin = .periodic →
      ∃ t : State, exec (.slicePeriodEnd c true samples) s = .next t.concludeEvent
        ∧ s.measurementFrame t c p l ∧ t.lpt.entries = s.lpt.entries ∧ t.isu = s.isu ∧ s.recordsMeasured t p l final moved
        ∧ t.campaign n = finishedRoot { measuredCampaign x l with
            results := refineBlocked l blocked reason, summary := some (verdictSummary (refineBlocked l blocked reason)) }
        ∧ (∀ m, m ≠ n → t.campaign m = s.campaign m) ∧ (∀ q, t.chain q = if q = p then [] else s.chain q)
        ∧ t.ecr.extents = s.ecr.extents.filter (fun e => e.slot != n)
        ∧ (∀ a, (∀ y, x.extent = some y → a < y.1 ∨ y.1 + y.2 ≤ a) → t.cell a = s.cell a)
        ∧ t.clk.reports = joined s.clk.reports (pairOrigins p l moved ++ [.campaign n]))
    -- an element is walked for which a child can be made
    ∧ (∀ (blocked rest : List ResultElement) (r : ResultElement) (reason : ResultElement → Reason)
        (final : ResultElement → Condition) (moved : ResultElement → Bool) (first last : Nat) (els : List Element) (m : Slot)
        (below : List Slot), s.walkable n l = blocked ++ r :: rest → (∀ y ∈ blocked, s.childBlocked n y (reason y)) →
        (∀ y, final y = if y ∈ blocked then targeted (merged y) .inconclusive else merged y) →
        (∀ y, moved y = (!(merged y == (s.record y.entry p).condition) || !(final y == merged y))) →
        s.childPlan n r first last els → (∀ y ∈ s.childChecks n els, y.1) → s.lowestFreeSlot m → s.chain p = below ++ [n] →
      ∃ t : State, exec (.slicePeriodEnd c true samples) s = .next t.concludeEvent
        ∧ s.measurementFrame t c p l ∧ t.lpt.entries = s.lpt.entries ∧ t.isu = s.isu ∧ s.recordsMeasured t p l final moved
        ∧ t.campaign n = { measuredCampaign x l with
            state := .nested, cursor := some r.position, results := refineBlocked l blocked reason
            summary := some (verdictSummary (refineBlocked l blocked reason)) }
        ∧ t.childMade x n m first last els (s.ecr.extents.filter (fun e => e.slot != n))
        ∧ (∀ y, y ≠ n → y ≠ m → t.campaign y = s.campaign y)
        ∧ (∀ q, t.chain q = if q = p then below ++ [n, m] else s.chain q)
        ∧ (∀ a, (∀ y, x.extent = some y → a < y.1 ∨ y.1 + y.2 ≤ a) →
            (∀ y, (t.campaign m).extent = some y → a < y.1 ∨ y.1 + y.2 ≤ a) → t.cell a = s.cell a)
        ∧ t.clk.reports = joined s.clk.reports (pairOrigins p l moved))
    -- a child returns to a root that has nothing more to walk
    ∧ (∀ (q : Slot) (k : Nat) (target element : ResultElement) (cls : ElementClass) (refined : List ResultElement)
        (moved : ResultElement → Bool), s.walkable n l = [] → x.kind = some .locate → x.origin = .child → x.parent = some q →
        q ≠ n → s.chain p = [q, n] → (s.campaign q).cursor = some k → (s.campaign q).pair = p → target ∈ l →
        target.position = k → target.verdict = some cls → element ∈ (s.campaign q).results → element.position = k →
        element.entry = target.entry → ((s.campaign q).results.map ResultElement.position).Nodup →
        refined = refineAt (s.campaign q).results k cls (some x.depth) none →
        (∀ y ∈ s.walkable q refined, y.position ≤ k) → (s.campaign q).origin = .demand ∨ (s.campaign q).origin = .periodic →
        (∀ y, moved y = !(merged y == (s.record y.entry p).condition)) →
      ∃ t : State, exec (.slicePeriodEnd c true samples) s = .next t.concludeEvent
        ∧ s.measurementFrame t c p l ∧ t.lpt.entries = s.lpt.entries ∧ t.isu = s.isu ∧ s.recordsMeasured t p l merged moved
        ∧ t.campaign n = {}
        ∧ t.campaign q = finishedRoot { s.campaign q with
            extent := none, results := refined, summary := some (verdictSummary refined) }
        ∧ (∀ m, m ≠ n → m ≠ q → t.campaign m = s.campaign m) ∧ (∀ y, t.chain y = if y = p then [] else s.chain y)
        ∧ t.ecr.extents = s.ecr.extents.filter (fun e => e.slot != n && e.slot != q)
        ∧ (∀ a, (∀ y, x.extent = some y → a < y.1 ∨ y.1 + y.2 ≤ a) → t.cell a = s.cell a)
        ∧ t.clk.reports = joined ((joined s.clk.reports (pairOrigins p l moved)).filter (fun y => !(y == Origin.campaign n)))
            [.campaign q])
    -- a chain, its root a demand or periodic campaign, walks on and unwinds, over as many returns as there are
    ∧ (∀ (below : List Slot) (moved : ResultElement → Bool), s.chain p = (n :: below).reverse → (n :: below).Nodup →
        s.linked p n l below → (∀ r, moved r = !(merged r == (s.record r.entry p).condition)) →
      ∃ v t : State, exec (.slicePeriodEnd c true samples) s = .next t.concludeEvent
        ∧ s.measurementFrame v c p l ∧ v.lpt.entries = s.lpt.entries ∧ v.isu = s.isu ∧ s.recordsMeasured v p l merged moved
        ∧ v.campaign n = measuredCampaign x l ∧ (∀ m, m ≠ n → v.campaign m = s.campaign m) ∧ v.cen.chains = s.cen.chains
        ∧ v.ecr.extents = s.ecr.extents.filter (fun e => e.slot != n)
        ∧ (∀ a, (∀ y, x.extent = some y → a < y.1 ∨ y.1 + y.2 ≤ a) → v.cell a = s.cell a)
        ∧ v.clk.reports = joined s.clk.reports (pairOrigins p l moved) ∧ v.unwound p (n :: below) t)
    -- a confirm settles its order
    ∧ ∀ (k : OrderNo) (o ended : Order) (condition : Condition), s.chain p = [n] → x.kind = some .confirm →
        x.origin = .order → s.confirms k o n →
        ((∀ r ∈ l, r.entry ≠ o.entry) ∧ condition = .unresolved ∧ ended = { o with
            state := .doneUnresolved, reason := some .notOnPath
            confirm := some { summary := some (verdictSummary l), verdict := none, amplitude := none } }
          ∨ ∃ r ∈ l, r.entry = o.entry ∧ ∃ passes : Bool,
            (passes = true ↔ match o.action with
              | .pumpToSpare | .gainHold => r.verdict ∈ [some ElementClass.normal, some .rise, some .drift]
              | .pumpRestore | .gainRelease => r.verdict ∈ [some ElementClass.normal, some .rise]
              | .loopMute => r.amplitude < s.ecr.floor
              | .routeA | .routeB => ∀ y ∈ l, y.verdict ∉ [some ElementClass.noEcho, some .lost, some .breakAfter])
            ∧ condition = (if passes then
                (match o.action with
                  | .pumpRestore | .gainRelease => .normal
                  | .pumpToSpare | .gainHold | .loopMute | .routeA | .routeB => .isolated)
              else .unresolved)
            ∧ ended = { o with
                state := if passes then .doneAccepted else .doneUnresolved
                reason := if passes then none else some .confirmFailed
                confirm := some
                  { summary := some (verdictSummary l), verdict := r.verdict, amplitude := some r.amplitude } }) →
      ∃ w t : State, exec (.slicePeriodEnd c true samples) s = .next t.concludeEvent
        ∧ s.measurementFrame t c p l ∧ w.lpt.entries = s.lpt.entries
        ∧ s.recordsMeasured w p l (fun r => (s.record r.entry p).condition) (fun _ => false)
        ∧ w.orderMarks t o.entry o.pair condition
        ∧ t.isu = { s.isu with orders := s.isu.orders.set k (some ended) }
        ∧ t.cen.slots = s.cen.slots.set n {} ∧ (∀ q, t.chain q = if q = p then [] else s.chain q)
        ∧ t.ecr.extents = s.ecr.extents.filter (fun e => e.slot != n)
        ∧ (∀ a, (∀ y, x.extent = some y → a < y.1 ∨ y.1 + y.2 ≤ a) → t.cell a = s.cell a)
        ∧ w.clk.reports = joined s.clk.reports (pairOrigins p l (fun _ => false))
        ∧ t.clk.reports = w.orderOrigins k o condition

/-- A results list is classified in list order by the first of the eleven tests that applies, with D_prev, Next and the drift
reference S as R104 and R105 define them (R103 to R110). -/
def Obligations.ListsAreClassifiedByTheTests : Prop :=
  ∀ (tStep tDrift : Nat) (fromOne : Bool) (l : List Observed) (classes : List ElementClass),
    classes = classify tStep tDrift (if fromOne then some 0 else none) (if fromOne then some 0 else none) l →
    classes.length = l.length
    ∧ ∀ (i : Nat) (o : Observed) (k : ElementClass), l[i]? = some o → classes[i]? = some k →
      (o.muted = true → k = .muted)
      ∧ (o.muted = false → o.echo = false → echoesAfter l i → k = .lost)
      ∧ (o.muted = false → o.echo = false → ¬ echoesAfter l i → k = .noEcho)
      ∧ (o.muted = false → o.echo = true → standsAfter l i → ¬ echoesAfter l i → k = .breakAfter)
      ∧ (o.muted = false → o.echo = true → (¬ standsAfter l i ∨ echoesAfter l i) →
        (o.deviation = none → k = .noBaseline)
        ∧ ∀ d, o.deviation = some d →
          (fromOne = false → (∀ (j : Nat) (x : Observed), j < i → l[j]? = some x → x.classifiable = none) →
            k = if tDrift ≤ d.natAbs then .drift else .normal)
          ∧ ∀ (previous reference : Int) (next : Option Int),
            (nearestBefore l i previous
              ∨ fromOne = true ∧ (∀ (j : Nat) (x : Observed), j < i → l[j]? = some x → x.classifiable = none) ∧ previous = 0) →
            (settledReference l classes i reference
              ∨ (∀ j, j < i → classes[j]? ≠ some .step ∧ classes[j]? ≠ some .rise)
                ∧ (fromOne = true ∧ reference = 0 ∨ fromOne = false ∧ firstDeviation l reference)) →
            ((∃ e, next = some e ∧ nearestAfter l i e)
              ∨ next = none ∧ ∀ (j : Nat) (x : Observed), i < j → l[j]? = some x → x.classifiable = none) →
            k = if tStep ≤ (d - previous).natAbs ∧ next.any (fun e => decide (2 * (e - previous).natAbs < tStep)) then .spike
              else if d - previous ≤ -(tStep : Int) then
                if next.any (fun e => decide (2 * (e - d).natAbs < tStep)) then .step else .ambiguous
              else if (tStep : Int) ≤ d - previous then
                if next.any (fun e => decide (2 * (e - d).natAbs < tStep)) then .rise else .ambiguous
              else if tStep ≤ 2 * (d - previous).natAbs then .ambiguous
              else if tDrift ≤ (d - reference).natAbs then .drift
              else .normal)

/-- Four upright reference periods are summed at the five offsets, the share of the previous period taken with the polarity it was
driven with; after the fourth the largest magnitude, ties to the nearest and then the lower offset, gives the reference; at or above
the floor the word is sent. Below it the order ends DONE_FAILED with reason NO_REFERENCE, no attempt counted: its channel coasts,
the pair's chain top is zeroed, the entry's mark is clear, the ordered record takes the prior condition, or UNRESOLVED once a word
was sent, the reserved slot is FREE and the order's origin queued (R51, R92, R137, R138, R145, R147, R153; the order in which
origins join is the model's choice, log 28, and so is the polarity at a lag below 0, log 23). -/
def Obligations.ReferencePeriodsMeasureTheEcho : Prop :=
  ∀ (c : Chan) (k : OrderNo) (o : Order) (samples : List Sample) (sum : Int → Int) (s : State),
    (s.channel c).state = .periods → (s.channel c).holder = some (.order k) → s.order k = some o → o.state = .referencing →
    samples.length = sequenceLength o.sequence →
    (∀ x, sum x = s.workingCell c x + heardSum o.sequence samples o.lag x false (s.lastInverted c)) →
    (o.phase < 3 →
      ∃ t : State, exec (.referencePeriodEnd c samples) s = .next t.concludeEvent
        ∧ (∀ x, -2 ≤ x → x ≤ 2 → t.workingCell c x = sum x) ∧ t.order k = some { o with phase := o.phase + 1 }
        ∧ t = { s with isu := { s.isu with working := s.isu.working.set c t.isu.working[c],
                                           inverted := s.isu.inverted.set c false,
                                           orders := s.isu.orders.set k (t.order k) } })
    ∧ ∀ (peak : Int) (reference : Nat), o.phase = 3 → -2 ≤ peak → peak ≤ 2 →
      (∀ x, -2 ≤ x → x ≤ 2 → x ≠ peak → (sum x).natAbs < (sum peak).natAbs ∨ (sum x).natAbs = (sum peak).natAbs
        ∧ (peak.natAbs < x.natAbs ∨ peak.natAbs = x.natAbs ∧ peak < x)) →
      reference = nearestDiv ((sum peak).natAbs * 256) (4 * sequenceLength o.sequence) →
      (s.ecr.floor ≤ reference →
        ∃ t : State, exec (.referencePeriodEnd c samples) s = .next t.concludeEvent
          ∧ t.order k = some { o with
              state := .sending, reference := some reference, offset := some peak, wordSent := true, phase := 0, window := [] }
          ∧ t = { s with isu := { s.isu with working := s.isu.working.set c t.isu.working[c],
                                             inverted := s.isu.inverted.set c false,
                                             orders := s.isu.orders.set k (t.order k) } })
      ∧ (reference < s.ecr.floor → ∀ condition, condition = (if o.wordSent then .unresolved else o.prior) →
        ∃ (t : State) (slots : Vector Campaign 32), exec (.referencePeriodEnd c samples) s = .next t.concludeEvent
          ∧ s.topZeroed o.pair slots t.ecr.cells ∧ s.orderMarks t o.entry o.pair condition
          ∧ t = { s with
              lpt := { s.lpt with entries := t.lpt.entries, records := t.lpt.records }
              pch := { s.pch with channels := s.pch.channels.set c { s.channel c with state := .coasting, holder := none } }
              ecr := { s.ecr with cells := t.ecr.cells }
              cen := { s.cen with slots := slots.set o.reserved {} }
              isu := { s.isu with
                working := s.isu.working.set c t.isu.working[c]
                inverted := s.isu.inverted.set c false
                orders := s.isu.orders.set k (some
                  { o with state := .doneFailed, reason := some .noReference, channel := none, phase := 4,
                           reference := some reference, offset := some peak }) }
              clk := { s.clk with reports := s.orderOrigins k o condition } })

/-- The 32 bits of the word are sent most significant bit first, a 1 as an inverted period; then the record listens, and each
listening period reads 1 exactly when twice its amplitude at the peak offset reaches the reference, the share of the previous period
taken as that was driven, upright or inverted (R138, R139, R140, R142). The ISU period sum, written out for every polarity: a
sample at n + d + o of L or more echoes the previous period's chip (R138), one below 0 this period's (the model's choice, log 23).
-/
def Obligations.WordAndListeningPeriods : Prop :=
  (∀ (c : Chan) (k : OrderNo) (o : Order) (s : State), (s.channel c).state = .periods →
      (s.channel c).holder = some (.order k) → s.order k = some o →
      (o.state = .sending → o.phase < 32 →
        exec (.wordPeriodEnd c) s = .next
          { s with isu := { s.isu with
              inverted := s.isu.inverted.set c ((orderWordNumber o).testBit (31 - o.phase))
              orders := s.isu.orders.set k (some (if o.phase < 31 then { o with phase := o.phase + 1 }
                else { o with state := .listening, phase := 0, window := [] })) } }.concludeEvent)
      ∧ ∀ (samples : List Sample) (peak : Int) (reference : Nat), o.state = .listening → o.window.length < 11 →
          samples.length = sequenceLength o.sequence → o.offset = some peak → o.reference = some reference →
        exec (.listeningPeriodEnd c samples) s = .next
          { s with isu := { s.isu with
              inverted := s.isu.inverted.set c false
              orders := s.isu.orders.set k (some
                { o with
                  phase := o.phase + 1
                  window := o.window ++ [decide (reference ≤ 2 * nearestDiv
                    ((heardSum o.sequence samples o.lag peak false (s.lastInverted c)).natAbs * 256)
                    (sequenceLength o.sequence))] }) } }.concludeEvent)
    ∧ ∀ (sequence : Code) (samples : List Sample) (d : Nat) (o : Int) (inverted previous : Bool),
        samples.length = sequenceLength sequence →
      isuPeriodSum (probeBits sequence) samples d o inverted previous = heardSum sequence samples d o inverted previous

/-- A window of 12 bits decodes by its first 0: the eight bits from a first 0 in bits 1 to 5 are ACCEPT, REFUSE or GARBLED, and
without a 0 there the answer is NO_ANSWER (R142). -/
def Obligations.AnswersDecodeByTheTable : Prop :=
  ∀ w : List Bool, w.length = 12 →
    ((∀ i : Nat, i < 5 → w[i]? = some true) → decodeWindow w = .noAnswer)
    ∧ ∀ i : Nat, i < 5 → (∀ j : Nat, j < i → w[j]? = some true) → w[i]? = some false →
      ((w.drop i).take 8 = [false, true, false, false, true, true, false, true] → decodeWindow w = .accept)
      ∧ ((w.drop i).take 8 = [false, true, true, false, false, true, true, false] → decodeWindow w = .refuse)
      ∧ ((w.drop i).take 8 ≠ [false, true, false, false, true, true, false, true] →
          (w.drop i).take 8 ≠ [false, true, true, false, false, true, true, false] → decodeWindow w = .garbled)

/-- The 12th listening period decodes the window and counts the attempt. GARBLED or NO_ANSWER sends the word again while
attempts remain, and with none left the order ends DONE_FAILED with that reason; REFUSE ends it DONE_REFUSED with the prior
condition. ACCEPT has the action's effect: isolation in effect, a LINE entry's spare pumps, or the unit's route, on which every
chain over a path list that holds the unit fails with PATH_CHANGED, one after another in ascending pair order (the model's choice,
log 36): a demand or periodic root's cursor is absent (the model's choice, log 16) and the rest of its record kept (the model's
choice, log 37), and a confirm's own order ends DONE_UNRESOLVED with PATH_CHANGED, its slot FREE, its record UNRESOLVED (R91, R151).
The reserved slot
then becomes a confirm around the entry, or, where the entry is not on the path, the order ends DONE_UNRESOLVED with NOT_ON_PATH.
At a burst's end its channel coasts and the pair's chain top is zeroed (R92, R128, R138, R142, R143, R145 to R150, R153; the order
in which origins join is the model's choice, log 28, and so is the polarity at a lag below 0, log 23). -/
def Obligations.AnswersSettleTheOrder : Prop :=
  ∀ (c : Chan) (k : OrderNo) (o : Order) (samples : List Sample) (peak : Int) (reference : Nat) (window : List Bool)
    (s : State), (s.channel c).state = .periods → (s.channel c).holder = some (.order k) → s.order k = some o →
    o.state = .listening → o.window.length = 11 → samples.length = sequenceLength o.sequence →
    o.offset = some peak → o.reference = some reference →
    window = o.window ++ [decide (reference ≤ 2 * nearestDiv
      ((heardSum o.sequence samples o.lag peak false (s.lastInverted c)).natAbs * 256) (sequenceLength o.sequence))] →
    (∀ outcome, decodeWindow window = outcome → (outcome = .garbled ∨ outcome = .noAnswer) → o.attempts + 1 < o.limit →
      exec (.listeningPeriodEnd c samples) s = .next
        { s with isu := { s.isu with
            inverted := s.isu.inverted.set c false
            orders := s.isu.orders.set k (some
              { o with
                state := .sending, wordSent := true, phase := 0, window := [], attempts := o.attempts + 1,
                lastOutcome := some outcome }) } }.concludeEvent)
    ∧ ∃ u : State, s.topZeroed o.pair u.cen.slots u.ecr.cells
      ∧ u = { s with
          pch := { s.pch with channels := s.pch.channels.set c { s.channel c with state := .coasting, holder := none } }
          ecr := { s.ecr with cells := u.ecr.cells }
          cen := { s.cen with slots := u.cen.slots }
          isu := { s.isu with inverted := s.isu.inverted.set c false } }
      ∧ (∀ outcome state reason condition,
        decodeWindow window = .refuse ∧ outcome = .refuse ∧ state = .doneRefused ∧ reason = .refused ∧ condition = o.prior
          ∨ o.limit ≤ o.attempts + 1 ∧ state = .doneFailed ∧ condition = .unresolved
            ∧ (decodeWindow window = .garbled ∧ outcome = .garbled ∧ reason = .garbled
              ∨ decodeWindow window = .noAnswer ∧ outcome = .noAnswer ∧ reason = .noAnswer) →
        ∃ t : State, exec (.listeningPeriodEnd c samples) s = .next t.concludeEvent
          ∧ s.orderMarks t o.entry o.pair condition
          ∧ t = { u with
              lpt := { s.lpt with entries := t.lpt.entries, records := t.lpt.records }
              cen := { u.cen with slots := u.cen.slots.set o.reserved {} }
              isu := { u.isu with orders := s.isu.orders.set k (some
                { o with state := state, reason := some reason, attempts := o.attempts + 1, lastOutcome := some outcome,
                         channel := none, phase := o.phase + 1, window := window }) }
              clk := { s.clk with reports := s.orderOrigins k o condition } })
      ∧ ∀ failing, failing = allPairs.filter (fun q => (s.path q).any (fun x => x.entry == o.entry)) →
        decodeWindow window = .accept →
        (o.action = .routeA ∨ o.action = .routeB → ∀ q ∈ failing, (u.chain q).Nodup ∧ u.oneChannelEach (u.chain q)) →
        ∃ v w t : State, exec (.listeningPeriodEnd c samples) s = .next t.concludeEvent
          -- the attempt is counted and the action has its effect on the plant
          ∧ v = { u with
              lpt := { u.lpt with entries := v.lpt.entries, records := v.lpt.records }
              isu := { u.isu with orders := s.isu.orders.set k (some
                { o with attempts := o.attempts + 1, lastOutcome := some .accept, channel := none, phase := o.phase + 1,
                         window := window }) } }
          ∧ (∀ j, v.entry j = if j = o.entry then (s.entry j).map (fun e => { e with kind :=
              match o.action, e.kind with
              | .pumpToSpare, .line m => .line ⟨m.val - 1, by omega⟩
              | .pumpRestore, .line m => .line ⟨min 2 (m.val + 1), by omega⟩
              | .routeA, .branching _ => .branching .a
              | .routeB, .branching _ => .branching .b
              | _, kind => kind }) else s.entry j)
          ∧ (∀ j q, v.record j q = if j = o.entry ∧ q = o.pair then { s.record j q with isolation :=
              match o.action with
              | .pumpToSpare => .spare
              | .pumpRestore | .gainRelease => .nothing
              | .gainHold => .gainHold
              | .loopMute => .loopMuted
              | .routeA | .routeB => (s.record j q).isolation } else s.record j q)
          -- a new route fails the chains over the unit, whatever their roots
          ∧ (o.action ≠ .routeA → o.action ≠ .routeB → w = v)
          ∧ (o.action = .routeA ∨ o.action = .routeB → v.chainsFailedInTurn .pathChanged failing w)
          ∧ (o.action = .routeA ∨ o.action = .routeB → u.chainsApart failing → u.chainsFailed w failing .pathChanged
              ∧ w = { v with
                  pch := { u.pch with channels := w.pch.channels }, ecr := { u.ecr with extents := w.ecr.extents }
                  cen := { u.cen with slots := w.cen.slots, chains := w.cen.chains }
                  clk := { u.clk with reports := w.clk.reports } })
          ∧ (∀ place : Nat, (w.effectivePath o.pair)[place]?.map PathElement.entry = some o.entry →
              (∀ j x, j < place → (w.effectivePath o.pair)[j]? = some x → x.entry ≠ o.entry) →
              t = { w with
                isu := { w.isu with orders := w.isu.orders.set k (some
                  { o with state := .confirming, attempts := o.attempts + 1, lastOutcome := some .accept, channel := none,
                           phase := o.phase + 1, window := window }) }
                cen := { w.cen with slots := (w.cen.slots.set o.reserved
                  { state := .reserved, kind := some .confirm, origin := .order, requester := o.requester,
                    requesterLevel := o.requesterLevel, pair := o.pair,
                    first := if o.action = .routeA ∨ o.action = .routeB then place + 1 else max 1 (place + 1 - 2),
                    last := min (w.effectivePath o.pair).length (place + 1 + 2), exponent := o.exponent, accepted := 0,
                    requested := { chip := o.chip, sequence := o.sequence, level := 4095, reference := 3 }, applied := none,
                    clamped := false, mustPrime := false, autoLocate := false, depth := 1, parent := none, elements := [],
                    extent := none, darkCount := 0, cursor := none, results := [], summary := none, failure := none,
                    periodic := none }) } })
          ∧ ((∀ x ∈ w.effectivePath o.pair, x.entry ≠ o.entry) →
              w.orderMarks t o.entry o.pair .unresolved
              ∧ t = { w with
                lpt := { w.lpt with entries := t.lpt.entries, records := t.lpt.records }
                cen := { w.cen with slots := w.cen.slots.set o.reserved {} }
                isu := { w.isu with orders := w.isu.orders.set k (some
                  { o with state := .doneUnresolved, reason := some .notOnPath, attempts := o.attempts + 1,
                           lastOutcome := some .accept, channel := none, phase := o.phase + 1, window := window }) }
                clk := { w.clk with reports := w.orderOrigins k o .unresolved } })

/-! ## Arithmetic -/

/-- A level is the nearest integer to 2000 times the decimal logarithm of its ratio, taken from the exact value, halves away from
zero: a level of -k says that the logarithm of b / a, times 4000, lies from 2k - 1 up to but not at 2k + 1 (R1, R29, R54). -/
def Obligations.LevelsAreNearestFromTheExactLogarithm : Prop :=
  (∀ a b : Nat, 0 < a → a ≤ b → b < a * 10 ^ 8 →
      ∃ k : Nat, levelOf a b = -(k : Int) ∧ (k = 0 ∨ 10 ^ (2 * k - 1) * a ^ 4000 ≤ b ^ 4000)
        ∧ b ^ 4000 < 10 ^ (2 * k + 1) * a ^ 4000)
    ∧ (∀ aq, echoLevel aq = levelOf aq 524288)
    ∧ ∀ code reference, probeLevel code reference = levelOf (code * referencePercent reference) 409500

/-- Applied settings: the requested pair where its level is at or below the ceiling; otherwise the largest reference at or below the
requested one that has a code of 64..4095 at or below the ceiling, with its largest such code (R31). -/
def Obligations.AppliedSettingsObeyTheCeiling : Prop :=
  ∀ (code : Nat) (reference : Code) (ceiling : Int), 64 ≤ code → code ≤ 4095 → -7612 ≤ ceiling →
    (probeLevel code reference ≤ ceiling → fixLevel code reference ceiling = (code, reference))
    ∧ (ceiling < probeLevel code reference →
      ∃ (c : Nat) (r : Code), fixLevel code reference ceiling = (c, r) ∧ 64 ≤ c ∧ c ≤ 4095 ∧ r ≤ reference
        ∧ probeLevel c r ≤ ceiling ∧ (∀ c', c < c' → c' ≤ 4095 → ceiling < probeLevel c' r)
        ∧ ∀ (c' : Nat) (r' : Code), r < r' → r' ≤ reference → 64 ≤ c' → c' ≤ 4095 → ceiling < probeLevel c' r')

/-- Over an extent list in start order without overlaps, first-fit gives the lowest address whose run lies within the memory and
meets no extent, and gives none only where there is none (R44). -/
def Obligations.AllocationIsFirstFit : Prop :=
  ∀ (length : Nat) (extents : List Extent), 0 < length →
    extents.Pairwise (fun e f => e.start + e.length ≤ f.start) →
    (∀ a, firstFit length extents 0 = some a →
      a + length ≤ 8192 ∧ (∀ e ∈ extents, a + length ≤ e.start ∨ e.start + e.length ≤ a)
      ∧ ∀ b, b < a → ∃ e ∈ extents, ¬ (b + length ≤ e.start ∨ e.start + e.length ≤ b))
    ∧ (firstFit length extents 0 = none →
      ∀ b, b + length ≤ 8192 → ∃ e ∈ extents, ¬ (b + length ≤ e.start ∨ e.start + e.length ≤ b))

/-- Reduction of an element: the peak is the largest magnitude, ties to the nearest and then the lower offset; its amplitude is
rounded once; below the floor there is no echo, and otherwise the loop gain is the echo level less the probe level, and the
deviation is the loop gain less an applied baseline (R50 to R57). -/
def Obligations.ReductionFindsThePeak : Prop :=
  ∀ (c : Campaign) (a : Nat) (e : Element) (s : State),
    (s.reduceElement c a e).entry = e.entry ∧ (s.reduceElement c a e).position = e.position
    ∧ -2 ≤ (s.reduceElement c a e).offset ∧ (s.reduceElement c a e).offset ≤ 2
    ∧ (∀ x : Int, -2 ≤ x → x ≤ 2 → x ≠ (s.reduceElement c a e).offset →
        (s.cell (a + (x + 2).toNat)).natAbs < (s.cell (a + ((s.reduceElement c a e).offset + 2).toNat)).natAbs
        ∨ (s.cell (a + (x + 2).toNat)).natAbs = (s.cell (a + ((s.reduceElement c a e).offset + 2).toNat)).natAbs
          ∧ ((s.reduceElement c a e).offset.natAbs < x.natAbs
            ∨ (s.reduceElement c a e).offset.natAbs = x.natAbs ∧ (s.reduceElement c a e).offset < x))
    ∧ (s.reduceElement c a e).amplitude
        = nearestDiv ((s.cell (a + ((s.reduceElement c a e).offset + 2).toNat)).natAbs * 256)
            (2 ^ c.exponent * sequenceLength c.requested.sequence)
    ∧ ((s.reduceElement c a e).amplitude < s.ecr.floor →
        (s.reduceElement c a e).echo = -12000 ∧ (s.reduceElement c a e).gain = none
          ∧ (s.reduceElement c a e).deviation = none)
    ∧ (s.ecr.floor ≤ (s.reduceElement c a e).amplitude →
        (s.reduceElement c a e).echo = echoLevel (s.reduceElement c a e).amplitude
        ∧ (s.reduceElement c a e).gain = some ((s.reduceElement c a e).echo - c.appliedLevel)
        ∧ (s.reduceElement c a e).deviation =
            match s.baseline c.pair e.entry, s.entry e.entry with
            | some b, some x =>
              if b.address = x.address then some ((s.reduceElement c a e).echo - c.appliedLevel - b.gain) else none
            | _, _ => none)

/-! ## Invariants -/

/-- Every step keeps the five memories in canonical form, the plant table coherent, each pair on at most one channel, and the
extents in start order, within the 8192 cells and without a cell in common (R2, R3, R24, R43). -/
def Obligations.StepKeepsPlantAndMemories : Prop :=
  ∀ s t : State, step s = .next t →
    (s.memoriesCanonical → t.memoriesCanonical) ∧ (s.plantCoherent → t.plantCoherent) ∧ (s.pairsApart → t.pairsApart)
    ∧ (extentsDisjoint s.ecr.extents → extentsDisjoint t.ecr.extents)

/-- Every step keeps the link's queues and ready line coherent, every setting in its range, the demand queue and the periodic
list within their bounds, the service list whole, and a source at level 0; with the report queue without repetition it keeps the
chains, the demand queue, the order records and the acceptance list in agreement (R30, R53, R60, R61, R63, R65, R74, R78, R79,
R85, R102, R134, R135, R178, R181, R182, R183). -/
def Obligations.StepKeepsQueuesAndSettings : Prop :=
  ∀ s t : State, step s = .next t →
    (s.linkCoherent → t.linkCoherent) ∧ (s.settingsInRange → t.settingsInRange) ∧ (s.queuesBounded → t.queuesBounded)
    ∧ (s.serviceWhole → t.serviceWhole) ∧ ((∃ src, s.level src = 0) → ∃ src, t.level src = 0)
    ∧ (s.linkCoherent → Ledger s → Ledger t)

/-- The invariants hold at reset. -/
def Obligations.ResetSatisfiesTheInvariants : Prop :=
  State.reset.memoriesCanonical ∧ State.reset.plantCoherent ∧ State.reset.pairsApart ∧ State.reset.linkCoherent
    ∧ State.reset.settingsInRange ∧ State.reset.queuesBounded ∧ State.reset.serviceWhole ∧ (∃ src, State.reset.level src = 0)
    ∧ extentsDisjoint State.reset.ecr.extents ∧ Ledger State.reset
end

