-- ==== Sys2Proof/Laws/State.lean ====
section
/-! SUPPORT. What each named update of the state leaves as it was: one lemma per update and block, and per other field of the
block it writes. All are true by unfolding. -/

namespace Sys2Proof.Machine

/-! ## `State.setEntry` -/

@[simp] theorem State.setEntry_lpt_records (s : State) (i : Index) (e : Option Entry) : (s.setEntry i e).lpt.records = s.lpt.records := rfl
@[simp] theorem State.setEntry_lpt_paths (s : State) (i : Index) (e : Option Entry) : (s.setEntry i e).lpt.paths = s.lpt.paths := rfl
@[simp] theorem State.setEntry_lpt_spans (s : State) (i : Index) (e : Option Entry) : (s.setEntry i e).lpt.spans = s.lpt.spans := rfl
@[simp] theorem State.setEntry_lpt_assembly (s : State) (i : Index) (e : Option Entry) : (s.setEntry i e).lpt.assembly = s.lpt.assembly := rfl
@[simp] theorem State.setEntry_pch (s : State) (i : Index) (e : Option Entry) : (s.setEntry i e).pch = s.pch := rfl
@[simp] theorem State.setEntry_ecr (s : State) (i : Index) (e : Option Entry) : (s.setEntry i e).ecr = s.ecr := rfl
@[simp] theorem State.setEntry_fga (s : State) (i : Index) (e : Option Entry) : (s.setEntry i e).fga = s.fga := rfl
@[simp] theorem State.setEntry_cen (s : State) (i : Index) (e : Option Entry) : (s.setEntry i e).cen = s.cen := rfl
@[simp] theorem State.setEntry_flo (s : State) (i : Index) (e : Option Entry) : (s.setEntry i e).flo = s.flo := rfl
@[simp] theorem State.setEntry_isu (s : State) (i : Index) (e : Option Entry) : (s.setEntry i e).isu = s.isu := rfl
@[simp] theorem State.setEntry_bst (s : State) (i : Index) (e : Option Entry) : (s.setEntry i e).bst = s.bst := rfl
@[simp] theorem State.setEntry_clk (s : State) (i : Index) (e : Option Entry) : (s.setEntry i e).clk = s.clk := rfl
@[simp] theorem State.setEntry_pending (s : State) (i : Index) (e : Option Entry) : (s.setEntry i e).pending = s.pending := rfl
@[simp] theorem State.setEntry_freeCount (s : State) (i : Index) (e : Option Entry) : (s.setEntry i e).freeCount = s.freeCount := rfl

/-! ## `State.setRecord` -/

@[simp] theorem State.setRecord_lpt_entries (s : State) (i : Index) (p : Pair) (r : AmpRecord) : (s.setRecord i p r).lpt.entries = s.lpt.entries := rfl
@[simp] theorem State.setRecord_lpt_paths (s : State) (i : Index) (p : Pair) (r : AmpRecord) : (s.setRecord i p r).lpt.paths = s.lpt.paths := rfl
@[simp] theorem State.setRecord_lpt_spans (s : State) (i : Index) (p : Pair) (r : AmpRecord) : (s.setRecord i p r).lpt.spans = s.lpt.spans := rfl
@[simp] theorem State.setRecord_lpt_assembly (s : State) (i : Index) (p : Pair) (r : AmpRecord) : (s.setRecord i p r).lpt.assembly = s.lpt.assembly := rfl
@[simp] theorem State.setRecord_pch (s : State) (i : Index) (p : Pair) (r : AmpRecord) : (s.setRecord i p r).pch = s.pch := rfl
@[simp] theorem State.setRecord_ecr (s : State) (i : Index) (p : Pair) (r : AmpRecord) : (s.setRecord i p r).ecr = s.ecr := rfl
@[simp] theorem State.setRecord_fga (s : State) (i : Index) (p : Pair) (r : AmpRecord) : (s.setRecord i p r).fga = s.fga := rfl
@[simp] theorem State.setRecord_cen (s : State) (i : Index) (p : Pair) (r : AmpRecord) : (s.setRecord i p r).cen = s.cen := rfl
@[simp] theorem State.setRecord_flo (s : State) (i : Index) (p : Pair) (r : AmpRecord) : (s.setRecord i p r).flo = s.flo := rfl
@[simp] theorem State.setRecord_isu (s : State) (i : Index) (p : Pair) (r : AmpRecord) : (s.setRecord i p r).isu = s.isu := rfl
@[simp] theorem State.setRecord_bst (s : State) (i : Index) (p : Pair) (r : AmpRecord) : (s.setRecord i p r).bst = s.bst := rfl
@[simp] theorem State.setRecord_clk (s : State) (i : Index) (p : Pair) (r : AmpRecord) : (s.setRecord i p r).clk = s.clk := rfl
@[simp] theorem State.setRecord_pending (s : State) (i : Index) (p : Pair) (r : AmpRecord) : (s.setRecord i p r).pending = s.pending := rfl
@[simp] theorem State.setRecord_freeCount (s : State) (i : Index) (p : Pair) (r : AmpRecord) : (s.setRecord i p r).freeCount = s.freeCount := rfl

/-! ## `State.setPath` -/

@[simp] theorem State.setPath_lpt_entries (s : State) (p : Pair) (l : List PathElement) : (s.setPath p l).lpt.entries = s.lpt.entries := rfl
@[simp] theorem State.setPath_lpt_records (s : State) (p : Pair) (l : List PathElement) : (s.setPath p l).lpt.records = s.lpt.records := rfl
@[simp] theorem State.setPath_lpt_spans (s : State) (p : Pair) (l : List PathElement) : (s.setPath p l).lpt.spans = s.lpt.spans := rfl
@[simp] theorem State.setPath_lpt_assembly (s : State) (p : Pair) (l : List PathElement) : (s.setPath p l).lpt.assembly = s.lpt.assembly := rfl
@[simp] theorem State.setPath_pch (s : State) (p : Pair) (l : List PathElement) : (s.setPath p l).pch = s.pch := rfl
@[simp] theorem State.setPath_ecr (s : State) (p : Pair) (l : List PathElement) : (s.setPath p l).ecr = s.ecr := rfl
@[simp] theorem State.setPath_fga (s : State) (p : Pair) (l : List PathElement) : (s.setPath p l).fga = s.fga := rfl
@[simp] theorem State.setPath_cen (s : State) (p : Pair) (l : List PathElement) : (s.setPath p l).cen = s.cen := rfl
@[simp] theorem State.setPath_flo (s : State) (p : Pair) (l : List PathElement) : (s.setPath p l).flo = s.flo := rfl
@[simp] theorem State.setPath_isu (s : State) (p : Pair) (l : List PathElement) : (s.setPath p l).isu = s.isu := rfl
@[simp] theorem State.setPath_bst (s : State) (p : Pair) (l : List PathElement) : (s.setPath p l).bst = s.bst := rfl
@[simp] theorem State.setPath_clk (s : State) (p : Pair) (l : List PathElement) : (s.setPath p l).clk = s.clk := rfl
@[simp] theorem State.setPath_pending (s : State) (p : Pair) (l : List PathElement) : (s.setPath p l).pending = s.pending := rfl
@[simp] theorem State.setPath_freeCount (s : State) (p : Pair) (l : List PathElement) : (s.setPath p l).freeCount = s.freeCount := rfl

/-! ## `State.setSpan` -/

@[simp] theorem State.setSpan_lpt_entries (s : State) (src : Source) (n : Fin 16) : (s.setSpan src n).lpt.entries = s.lpt.entries := rfl
@[simp] theorem State.setSpan_lpt_records (s : State) (src : Source) (n : Fin 16) : (s.setSpan src n).lpt.records = s.lpt.records := rfl
@[simp] theorem State.setSpan_lpt_paths (s : State) (src : Source) (n : Fin 16) : (s.setSpan src n).lpt.paths = s.lpt.paths := rfl
@[simp] theorem State.setSpan_lpt_assembly (s : State) (src : Source) (n : Fin 16) : (s.setSpan src n).lpt.assembly = s.lpt.assembly := rfl
@[simp] theorem State.setSpan_pch (s : State) (src : Source) (n : Fin 16) : (s.setSpan src n).pch = s.pch := rfl
@[simp] theorem State.setSpan_ecr (s : State) (src : Source) (n : Fin 16) : (s.setSpan src n).ecr = s.ecr := rfl
@[simp] theorem State.setSpan_fga (s : State) (src : Source) (n : Fin 16) : (s.setSpan src n).fga = s.fga := rfl
@[simp] theorem State.setSpan_cen (s : State) (src : Source) (n : Fin 16) : (s.setSpan src n).cen = s.cen := rfl
@[simp] theorem State.setSpan_flo (s : State) (src : Source) (n : Fin 16) : (s.setSpan src n).flo = s.flo := rfl
@[simp] theorem State.setSpan_isu (s : State) (src : Source) (n : Fin 16) : (s.setSpan src n).isu = s.isu := rfl
@[simp] theorem State.setSpan_bst (s : State) (src : Source) (n : Fin 16) : (s.setSpan src n).bst = s.bst := rfl
@[simp] theorem State.setSpan_clk (s : State) (src : Source) (n : Fin 16) : (s.setSpan src n).clk = s.clk := rfl
@[simp] theorem State.setSpan_pending (s : State) (src : Source) (n : Fin 16) : (s.setSpan src n).pending = s.pending := rfl
@[simp] theorem State.setSpan_freeCount (s : State) (src : Source) (n : Fin 16) : (s.setSpan src n).freeCount = s.freeCount := rfl

/-! ## `State.setAssemblyList` -/

@[simp] theorem State.setAssemblyList_lpt_entries (s : State) (src : Source) (l : List PathElement) : (s.setAssemblyList src l).lpt.entries = s.lpt.entries := rfl
@[simp] theorem State.setAssemblyList_lpt_records (s : State) (src : Source) (l : List PathElement) : (s.setAssemblyList src l).lpt.records = s.lpt.records := rfl
@[simp] theorem State.setAssemblyList_lpt_paths (s : State) (src : Source) (l : List PathElement) : (s.setAssemblyList src l).lpt.paths = s.lpt.paths := rfl
@[simp] theorem State.setAssemblyList_lpt_spans (s : State) (src : Source) (l : List PathElement) : (s.setAssemblyList src l).lpt.spans = s.lpt.spans := rfl
@[simp] theorem State.setAssemblyList_pch (s : State) (src : Source) (l : List PathElement) : (s.setAssemblyList src l).pch = s.pch := rfl
@[simp] theorem State.setAssemblyList_ecr (s : State) (src : Source) (l : List PathElement) : (s.setAssemblyList src l).ecr = s.ecr := rfl
@[simp] theorem State.setAssemblyList_fga (s : State) (src : Source) (l : List PathElement) : (s.setAssemblyList src l).fga = s.fga := rfl
@[simp] theorem State.setAssemblyList_cen (s : State) (src : Source) (l : List PathElement) : (s.setAssemblyList src l).cen = s.cen := rfl
@[simp] theorem State.setAssemblyList_flo (s : State) (src : Source) (l : List PathElement) : (s.setAssemblyList src l).flo = s.flo := rfl
@[simp] theorem State.setAssemblyList_isu (s : State) (src : Source) (l : List PathElement) : (s.setAssemblyList src l).isu = s.isu := rfl
@[simp] theorem State.setAssemblyList_bst (s : State) (src : Source) (l : List PathElement) : (s.setAssemblyList src l).bst = s.bst := rfl
@[simp] theorem State.setAssemblyList_clk (s : State) (src : Source) (l : List PathElement) : (s.setAssemblyList src l).clk = s.clk := rfl
@[simp] theorem State.setAssemblyList_pending (s : State) (src : Source) (l : List PathElement) : (s.setAssemblyList src l).pending = s.pending := rfl
@[simp] theorem State.setAssemblyList_freeCount (s : State) (src : Source) (l : List PathElement) : (s.setAssemblyList src l).freeCount = s.freeCount := rfl

/-! ## `State.setChannel` -/

@[simp] theorem State.setChannel_lpt (s : State) (c : Chan) (ch : Channel) : (s.setChannel c ch).lpt = s.lpt := rfl
@[simp] theorem State.setChannel_pch_enabled (s : State) (c : Chan) (ch : Channel) : (s.setChannel c ch).pch.enabled = s.pch.enabled := rfl
@[simp] theorem State.setChannel_pch_ceilings (s : State) (c : Chan) (ch : Channel) : (s.setChannel c ch).pch.ceilings = s.pch.ceilings := rfl
@[simp] theorem State.setChannel_pch_dark (s : State) (c : Chan) (ch : Channel) : (s.setChannel c ch).pch.dark = s.pch.dark := rfl
@[simp] theorem State.setChannel_ecr (s : State) (c : Chan) (ch : Channel) : (s.setChannel c ch).ecr = s.ecr := rfl
@[simp] theorem State.setChannel_fga (s : State) (c : Chan) (ch : Channel) : (s.setChannel c ch).fga = s.fga := rfl
@[simp] theorem State.setChannel_cen (s : State) (c : Chan) (ch : Channel) : (s.setChannel c ch).cen = s.cen := rfl
@[simp] theorem State.setChannel_flo (s : State) (c : Chan) (ch : Channel) : (s.setChannel c ch).flo = s.flo := rfl
@[simp] theorem State.setChannel_isu (s : State) (c : Chan) (ch : Channel) : (s.setChannel c ch).isu = s.isu := rfl
@[simp] theorem State.setChannel_bst (s : State) (c : Chan) (ch : Channel) : (s.setChannel c ch).bst = s.bst := rfl
@[simp] theorem State.setChannel_clk (s : State) (c : Chan) (ch : Channel) : (s.setChannel c ch).clk = s.clk := rfl
@[simp] theorem State.setChannel_pending (s : State) (c : Chan) (ch : Channel) : (s.setChannel c ch).pending = s.pending := rfl
@[simp] theorem State.setChannel_freeCount (s : State) (c : Chan) (ch : Channel) : (s.setChannel c ch).freeCount = s.freeCount := rfl

/-! ## `State.setPointEnabled` -/

@[simp] theorem State.setPointEnabled_lpt (s : State) (c : Chan) (p : Pair) (b : Bool) : (s.setPointEnabled c p b).lpt = s.lpt := rfl
@[simp] theorem State.setPointEnabled_pch_channels (s : State) (c : Chan) (p : Pair) (b : Bool) : (s.setPointEnabled c p b).pch.channels = s.pch.channels := rfl
@[simp] theorem State.setPointEnabled_pch_ceilings (s : State) (c : Chan) (p : Pair) (b : Bool) : (s.setPointEnabled c p b).pch.ceilings = s.pch.ceilings := rfl
@[simp] theorem State.setPointEnabled_pch_dark (s : State) (c : Chan) (p : Pair) (b : Bool) : (s.setPointEnabled c p b).pch.dark = s.pch.dark := rfl
@[simp] theorem State.setPointEnabled_ecr (s : State) (c : Chan) (p : Pair) (b : Bool) : (s.setPointEnabled c p b).ecr = s.ecr := rfl
@[simp] theorem State.setPointEnabled_fga (s : State) (c : Chan) (p : Pair) (b : Bool) : (s.setPointEnabled c p b).fga = s.fga := rfl
@[simp] theorem State.setPointEnabled_cen (s : State) (c : Chan) (p : Pair) (b : Bool) : (s.setPointEnabled c p b).cen = s.cen := rfl
@[simp] theorem State.setPointEnabled_flo (s : State) (c : Chan) (p : Pair) (b : Bool) : (s.setPointEnabled c p b).flo = s.flo := rfl
@[simp] theorem State.setPointEnabled_isu (s : State) (c : Chan) (p : Pair) (b : Bool) : (s.setPointEnabled c p b).isu = s.isu := rfl
@[simp] theorem State.setPointEnabled_bst (s : State) (c : Chan) (p : Pair) (b : Bool) : (s.setPointEnabled c p b).bst = s.bst := rfl
@[simp] theorem State.setPointEnabled_clk (s : State) (c : Chan) (p : Pair) (b : Bool) : (s.setPointEnabled c p b).clk = s.clk := rfl
@[simp] theorem State.setPointEnabled_pending (s : State) (c : Chan) (p : Pair) (b : Bool) : (s.setPointEnabled c p b).pending = s.pending := rfl
@[simp] theorem State.setPointEnabled_freeCount (s : State) (c : Chan) (p : Pair) (b : Bool) : (s.setPointEnabled c p b).freeCount = s.freeCount := rfl

/-! ## `State.setCeilingOf` -/

@[simp] theorem State.setCeilingOf_lpt (s : State) (p : Pair) (x : Int) : (s.setCeilingOf p x).lpt = s.lpt := rfl
@[simp] theorem State.setCeilingOf_pch_channels (s : State) (p : Pair) (x : Int) : (s.setCeilingOf p x).pch.channels = s.pch.channels := rfl
@[simp] theorem State.setCeilingOf_pch_enabled (s : State) (p : Pair) (x : Int) : (s.setCeilingOf p x).pch.enabled = s.pch.enabled := rfl
@[simp] theorem State.setCeilingOf_pch_dark (s : State) (p : Pair) (x : Int) : (s.setCeilingOf p x).pch.dark = s.pch.dark := rfl
@[simp] theorem State.setCeilingOf_ecr (s : State) (p : Pair) (x : Int) : (s.setCeilingOf p x).ecr = s.ecr := rfl
@[simp] theorem State.setCeilingOf_fga (s : State) (p : Pair) (x : Int) : (s.setCeilingOf p x).fga = s.fga := rfl
@[simp] theorem State.setCeilingOf_cen (s : State) (p : Pair) (x : Int) : (s.setCeilingOf p x).cen = s.cen := rfl
@[simp] theorem State.setCeilingOf_flo (s : State) (p : Pair) (x : Int) : (s.setCeilingOf p x).flo = s.flo := rfl
@[simp] theorem State.setCeilingOf_isu (s : State) (p : Pair) (x : Int) : (s.setCeilingOf p x).isu = s.isu := rfl
@[simp] theorem State.setCeilingOf_bst (s : State) (p : Pair) (x : Int) : (s.setCeilingOf p x).bst = s.bst := rfl
@[simp] theorem State.setCeilingOf_clk (s : State) (p : Pair) (x : Int) : (s.setCeilingOf p x).clk = s.clk := rfl
@[simp] theorem State.setCeilingOf_pending (s : State) (p : Pair) (x : Int) : (s.setCeilingOf p x).pending = s.pending := rfl
@[simp] theorem State.setCeilingOf_freeCount (s : State) (p : Pair) (x : Int) : (s.setCeilingOf p x).freeCount = s.freeCount := rfl

/-! ## `State.setDarkMark` -/

@[simp] theorem State.setDarkMark_lpt (s : State) (p : Pair) (b : Bool) : (s.setDarkMark p b).lpt = s.lpt := rfl
@[simp] theorem State.setDarkMark_pch_channels (s : State) (p : Pair) (b : Bool) : (s.setDarkMark p b).pch.channels = s.pch.channels := rfl
@[simp] theorem State.setDarkMark_pch_enabled (s : State) (p : Pair) (b : Bool) : (s.setDarkMark p b).pch.enabled = s.pch.enabled := rfl
@[simp] theorem State.setDarkMark_pch_ceilings (s : State) (p : Pair) (b : Bool) : (s.setDarkMark p b).pch.ceilings = s.pch.ceilings := rfl
@[simp] theorem State.setDarkMark_ecr (s : State) (p : Pair) (b : Bool) : (s.setDarkMark p b).ecr = s.ecr := rfl
@[simp] theorem State.setDarkMark_fga (s : State) (p : Pair) (b : Bool) : (s.setDarkMark p b).fga = s.fga := rfl
@[simp] theorem State.setDarkMark_cen (s : State) (p : Pair) (b : Bool) : (s.setDarkMark p b).cen = s.cen := rfl
@[simp] theorem State.setDarkMark_flo (s : State) (p : Pair) (b : Bool) : (s.setDarkMark p b).flo = s.flo := rfl
@[simp] theorem State.setDarkMark_isu (s : State) (p : Pair) (b : Bool) : (s.setDarkMark p b).isu = s.isu := rfl
@[simp] theorem State.setDarkMark_bst (s : State) (p : Pair) (b : Bool) : (s.setDarkMark p b).bst = s.bst := rfl
@[simp] theorem State.setDarkMark_clk (s : State) (p : Pair) (b : Bool) : (s.setDarkMark p b).clk = s.clk := rfl
@[simp] theorem State.setDarkMark_pending (s : State) (p : Pair) (b : Bool) : (s.setDarkMark p b).pending = s.pending := rfl
@[simp] theorem State.setDarkMark_freeCount (s : State) (p : Pair) (b : Bool) : (s.setDarkMark p b).freeCount = s.freeCount := rfl

/-! ## `State.setCells` -/

@[simp] theorem State.setCells_lpt (s : State) (t : Table Int) : (s.setCells t).lpt = s.lpt := rfl
@[simp] theorem State.setCells_pch (s : State) (t : Table Int) : (s.setCells t).pch = s.pch := rfl
@[simp] theorem State.setCells_ecr_extents (s : State) (t : Table Int) : (s.setCells t).ecr.extents = s.ecr.extents := rfl
@[simp] theorem State.setCells_ecr_floor (s : State) (t : Table Int) : (s.setCells t).ecr.floor = s.ecr.floor := rfl
@[simp] theorem State.setCells_fga (s : State) (t : Table Int) : (s.setCells t).fga = s.fga := rfl
@[simp] theorem State.setCells_cen (s : State) (t : Table Int) : (s.setCells t).cen = s.cen := rfl
@[simp] theorem State.setCells_flo (s : State) (t : Table Int) : (s.setCells t).flo = s.flo := rfl
@[simp] theorem State.setCells_isu (s : State) (t : Table Int) : (s.setCells t).isu = s.isu := rfl
@[simp] theorem State.setCells_bst (s : State) (t : Table Int) : (s.setCells t).bst = s.bst := rfl
@[simp] theorem State.setCells_clk (s : State) (t : Table Int) : (s.setCells t).clk = s.clk := rfl
@[simp] theorem State.setCells_pending (s : State) (t : Table Int) : (s.setCells t).pending = s.pending := rfl
@[simp] theorem State.setCells_freeCount (s : State) (t : Table Int) : (s.setCells t).freeCount = s.freeCount := rfl

/-! ## `State.setExtents` -/

@[simp] theorem State.setExtents_lpt (s : State) (l : List Extent) : (s.setExtents l).lpt = s.lpt := rfl
@[simp] theorem State.setExtents_pch (s : State) (l : List Extent) : (s.setExtents l).pch = s.pch := rfl
@[simp] theorem State.setExtents_ecr_cells (s : State) (l : List Extent) : (s.setExtents l).ecr.cells = s.ecr.cells := rfl
@[simp] theorem State.setExtents_ecr_floor (s : State) (l : List Extent) : (s.setExtents l).ecr.floor = s.ecr.floor := rfl
@[simp] theorem State.setExtents_fga (s : State) (l : List Extent) : (s.setExtents l).fga = s.fga := rfl
@[simp] theorem State.setExtents_cen (s : State) (l : List Extent) : (s.setExtents l).cen = s.cen := rfl
@[simp] theorem State.setExtents_flo (s : State) (l : List Extent) : (s.setExtents l).flo = s.flo := rfl
@[simp] theorem State.setExtents_isu (s : State) (l : List Extent) : (s.setExtents l).isu = s.isu := rfl
@[simp] theorem State.setExtents_bst (s : State) (l : List Extent) : (s.setExtents l).bst = s.bst := rfl
@[simp] theorem State.setExtents_clk (s : State) (l : List Extent) : (s.setExtents l).clk = s.clk := rfl
@[simp] theorem State.setExtents_pending (s : State) (l : List Extent) : (s.setExtents l).pending = s.pending := rfl
@[simp] theorem State.setExtents_freeCount (s : State) (l : List Extent) : (s.setExtents l).freeCount = s.freeCount := rfl

/-! ## `State.setPrevious` -/

@[simp] theorem State.setPrevious_lpt (s : State) (p : Pair) (c : Chan) : (s.setPrevious p c).lpt = s.lpt := rfl
@[simp] theorem State.setPrevious_pch (s : State) (p : Pair) (c : Chan) : (s.setPrevious p c).pch = s.pch := rfl
@[simp] theorem State.setPrevious_ecr (s : State) (p : Pair) (c : Chan) : (s.setPrevious p c).ecr = s.ecr := rfl
@[simp] theorem State.setPrevious_fga_frame (s : State) (p : Pair) (c : Chan) : (s.setPrevious p c).fga.frame = s.fga.frame := rfl
@[simp] theorem State.setPrevious_fga_interval (s : State) (p : Pair) (c : Chan) : (s.setPrevious p c).fga.interval = s.fga.interval := rfl
@[simp] theorem State.setPrevious_fga_pendingInterval (s : State) (p : Pair) (c : Chan) : (s.setPrevious p c).fga.pendingInterval = s.fga.pendingInterval := rfl
@[simp] theorem State.setPrevious_fga_service (s : State) (p : Pair) (c : Chan) : (s.setPrevious p c).fga.service = s.fga.service := rfl
@[simp] theorem State.setPrevious_fga_lastServed (s : State) (p : Pair) (c : Chan) : (s.setPrevious p c).fga.lastServed = s.fga.lastServed := rfl
@[simp] theorem State.setPrevious_cen (s : State) (p : Pair) (c : Chan) : (s.setPrevious p c).cen = s.cen := rfl
@[simp] theorem State.setPrevious_flo (s : State) (p : Pair) (c : Chan) : (s.setPrevious p c).flo = s.flo := rfl
@[simp] theorem State.setPrevious_isu (s : State) (p : Pair) (c : Chan) : (s.setPrevious p c).isu = s.isu := rfl
@[simp] theorem State.setPrevious_bst (s : State) (p : Pair) (c : Chan) : (s.setPrevious p c).bst = s.bst := rfl
@[simp] theorem State.setPrevious_clk (s : State) (p : Pair) (c : Chan) : (s.setPrevious p c).clk = s.clk := rfl
@[simp] theorem State.setPrevious_pending (s : State) (p : Pair) (c : Chan) : (s.setPrevious p c).pending = s.pending := rfl
@[simp] theorem State.setPrevious_freeCount (s : State) (p : Pair) (c : Chan) : (s.setPrevious p c).freeCount = s.freeCount := rfl

/-! ## `State.setLastServed` -/

@[simp] theorem State.setLastServed_lpt (s : State) (p : Pair) : (s.setLastServed p).lpt = s.lpt := rfl
@[simp] theorem State.setLastServed_pch (s : State) (p : Pair) : (s.setLastServed p).pch = s.pch := rfl
@[simp] theorem State.setLastServed_ecr (s : State) (p : Pair) : (s.setLastServed p).ecr = s.ecr := rfl
@[simp] theorem State.setLastServed_fga_frame (s : State) (p : Pair) : (s.setLastServed p).fga.frame = s.fga.frame := rfl
@[simp] theorem State.setLastServed_fga_interval (s : State) (p : Pair) : (s.setLastServed p).fga.interval = s.fga.interval := rfl
@[simp] theorem State.setLastServed_fga_pendingInterval (s : State) (p : Pair) : (s.setLastServed p).fga.pendingInterval = s.fga.pendingInterval := rfl
@[simp] theorem State.setLastServed_fga_service (s : State) (p : Pair) : (s.setLastServed p).fga.service = s.fga.service := rfl
@[simp] theorem State.setLastServed_fga_previous (s : State) (p : Pair) : (s.setLastServed p).fga.previous = s.fga.previous := rfl
@[simp] theorem State.setLastServed_cen (s : State) (p : Pair) : (s.setLastServed p).cen = s.cen := rfl
@[simp] theorem State.setLastServed_flo (s : State) (p : Pair) : (s.setLastServed p).flo = s.flo := rfl
@[simp] theorem State.setLastServed_isu (s : State) (p : Pair) : (s.setLastServed p).isu = s.isu := rfl
@[simp] theorem State.setLastServed_bst (s : State) (p : Pair) : (s.setLastServed p).bst = s.bst := rfl
@[simp] theorem State.setLastServed_clk (s : State) (p : Pair) : (s.setLastServed p).clk = s.clk := rfl
@[simp] theorem State.setLastServed_pending (s : State) (p : Pair) : (s.setLastServed p).pending = s.pending := rfl
@[simp] theorem State.setLastServed_freeCount (s : State) (p : Pair) : (s.setLastServed p).freeCount = s.freeCount := rfl

/-! ## `State.setService` -/

@[simp] theorem State.setService_lpt (s : State) (l : List Pair) : (s.setService l).lpt = s.lpt := rfl
@[simp] theorem State.setService_pch (s : State) (l : List Pair) : (s.setService l).pch = s.pch := rfl
@[simp] theorem State.setService_ecr (s : State) (l : List Pair) : (s.setService l).ecr = s.ecr := rfl
@[simp] theorem State.setService_fga_frame (s : State) (l : List Pair) : (s.setService l).fga.frame = s.fga.frame := rfl
@[simp] theorem State.setService_fga_interval (s : State) (l : List Pair) : (s.setService l).fga.interval = s.fga.interval := rfl
@[simp] theorem State.setService_fga_pendingInterval (s : State) (l : List Pair) : (s.setService l).fga.pendingInterval = s.fga.pendingInterval := rfl
@[simp] theorem State.setService_fga_lastServed (s : State) (l : List Pair) : (s.setService l).fga.lastServed = s.fga.lastServed := rfl
@[simp] theorem State.setService_fga_previous (s : State) (l : List Pair) : (s.setService l).fga.previous = s.fga.previous := rfl
@[simp] theorem State.setService_cen (s : State) (l : List Pair) : (s.setService l).cen = s.cen := rfl
@[simp] theorem State.setService_flo (s : State) (l : List Pair) : (s.setService l).flo = s.flo := rfl
@[simp] theorem State.setService_isu (s : State) (l : List Pair) : (s.setService l).isu = s.isu := rfl
@[simp] theorem State.setService_bst (s : State) (l : List Pair) : (s.setService l).bst = s.bst := rfl
@[simp] theorem State.setService_clk (s : State) (l : List Pair) : (s.setService l).clk = s.clk := rfl
@[simp] theorem State.setService_pending (s : State) (l : List Pair) : (s.setService l).pending = s.pending := rfl
@[simp] theorem State.setService_freeCount (s : State) (l : List Pair) : (s.setService l).freeCount = s.freeCount := rfl

/-! ## `State.advanceClock` -/

@[simp] theorem State.advanceClock_lpt (s : State) : (s.advanceClock).lpt = s.lpt := rfl
@[simp] theorem State.advanceClock_pch (s : State) : (s.advanceClock).pch = s.pch := rfl
@[simp] theorem State.advanceClock_ecr (s : State) : (s.advanceClock).ecr = s.ecr := rfl
@[simp] theorem State.advanceClock_fga_service (s : State) : (s.advanceClock).fga.service = s.fga.service := rfl
@[simp] theorem State.advanceClock_fga_lastServed (s : State) : (s.advanceClock).fga.lastServed = s.fga.lastServed := rfl
@[simp] theorem State.advanceClock_fga_previous (s : State) : (s.advanceClock).fga.previous = s.fga.previous := rfl
@[simp] theorem State.advanceClock_cen (s : State) : (s.advanceClock).cen = s.cen := rfl
@[simp] theorem State.advanceClock_flo (s : State) : (s.advanceClock).flo = s.flo := rfl
@[simp] theorem State.advanceClock_isu (s : State) : (s.advanceClock).isu = s.isu := rfl
@[simp] theorem State.advanceClock_bst (s : State) : (s.advanceClock).bst = s.bst := rfl
@[simp] theorem State.advanceClock_clk (s : State) : (s.advanceClock).clk = s.clk := rfl
@[simp] theorem State.advanceClock_pending (s : State) : (s.advanceClock).pending = s.pending := rfl
@[simp] theorem State.advanceClock_freeCount (s : State) : (s.advanceClock).freeCount = s.freeCount := rfl

/-! ## `State.setCampaign` -/

@[simp] theorem State.setCampaign_lpt (s : State) (n : Slot) (c : Campaign) : (s.setCampaign n c).lpt = s.lpt := rfl
@[simp] theorem State.setCampaign_pch (s : State) (n : Slot) (c : Campaign) : (s.setCampaign n c).pch = s.pch := rfl
@[simp] theorem State.setCampaign_ecr (s : State) (n : Slot) (c : Campaign) : (s.setCampaign n c).ecr = s.ecr := rfl
@[simp] theorem State.setCampaign_fga (s : State) (n : Slot) (c : Campaign) : (s.setCampaign n c).fga = s.fga := rfl
@[simp] theorem State.setCampaign_cen_demand (s : State) (n : Slot) (c : Campaign) : (s.setCampaign n c).cen.demand = s.cen.demand := rfl
@[simp] theorem State.setCampaign_cen_periodic (s : State) (n : Slot) (c : Campaign) : (s.setCampaign n c).cen.periodic = s.cen.periodic := rfl
@[simp] theorem State.setCampaign_cen_chains (s : State) (n : Slot) (c : Campaign) : (s.setCampaign n c).cen.chains = s.cen.chains := rfl
@[simp] theorem State.setCampaign_flo (s : State) (n : Slot) (c : Campaign) : (s.setCampaign n c).flo = s.flo := rfl
@[simp] theorem State.setCampaign_isu (s : State) (n : Slot) (c : Campaign) : (s.setCampaign n c).isu = s.isu := rfl
@[simp] theorem State.setCampaign_bst (s : State) (n : Slot) (c : Campaign) : (s.setCampaign n c).bst = s.bst := rfl
@[simp] theorem State.setCampaign_clk (s : State) (n : Slot) (c : Campaign) : (s.setCampaign n c).clk = s.clk := rfl
@[simp] theorem State.setCampaign_pending (s : State) (n : Slot) (c : Campaign) : (s.setCampaign n c).pending = s.pending := rfl
@[simp] theorem State.setCampaign_freeCount (s : State) (n : Slot) (c : Campaign) : (s.setCampaign n c).freeCount = s.freeCount := rfl

/-! ## `State.setChain` -/

@[simp] theorem State.setChain_lpt (s : State) (p : Pair) (l : List Slot) : (s.setChain p l).lpt = s.lpt := rfl
@[simp] theorem State.setChain_pch (s : State) (p : Pair) (l : List Slot) : (s.setChain p l).pch = s.pch := rfl
@[simp] theorem State.setChain_ecr (s : State) (p : Pair) (l : List Slot) : (s.setChain p l).ecr = s.ecr := rfl
@[simp] theorem State.setChain_fga (s : State) (p : Pair) (l : List Slot) : (s.setChain p l).fga = s.fga := rfl
@[simp] theorem State.setChain_cen_slots (s : State) (p : Pair) (l : List Slot) : (s.setChain p l).cen.slots = s.cen.slots := rfl
@[simp] theorem State.setChain_cen_demand (s : State) (p : Pair) (l : List Slot) : (s.setChain p l).cen.demand = s.cen.demand := rfl
@[simp] theorem State.setChain_cen_periodic (s : State) (p : Pair) (l : List Slot) : (s.setChain p l).cen.periodic = s.cen.periodic := rfl
@[simp] theorem State.setChain_flo (s : State) (p : Pair) (l : List Slot) : (s.setChain p l).flo = s.flo := rfl
@[simp] theorem State.setChain_isu (s : State) (p : Pair) (l : List Slot) : (s.setChain p l).isu = s.isu := rfl
@[simp] theorem State.setChain_bst (s : State) (p : Pair) (l : List Slot) : (s.setChain p l).bst = s.bst := rfl
@[simp] theorem State.setChain_clk (s : State) (p : Pair) (l : List Slot) : (s.setChain p l).clk = s.clk := rfl
@[simp] theorem State.setChain_pending (s : State) (p : Pair) (l : List Slot) : (s.setChain p l).pending = s.pending := rfl
@[simp] theorem State.setChain_freeCount (s : State) (p : Pair) (l : List Slot) : (s.setChain p l).freeCount = s.freeCount := rfl

/-! ## `State.setDemand` -/

@[simp] theorem State.setDemand_lpt (s : State) (l : List Slot) : (s.setDemand l).lpt = s.lpt := rfl
@[simp] theorem State.setDemand_pch (s : State) (l : List Slot) : (s.setDemand l).pch = s.pch := rfl
@[simp] theorem State.setDemand_ecr (s : State) (l : List Slot) : (s.setDemand l).ecr = s.ecr := rfl
@[simp] theorem State.setDemand_fga (s : State) (l : List Slot) : (s.setDemand l).fga = s.fga := rfl
@[simp] theorem State.setDemand_cen_slots (s : State) (l : List Slot) : (s.setDemand l).cen.slots = s.cen.slots := rfl
@[simp] theorem State.setDemand_cen_periodic (s : State) (l : List Slot) : (s.setDemand l).cen.periodic = s.cen.periodic := rfl
@[simp] theorem State.setDemand_cen_chains (s : State) (l : List Slot) : (s.setDemand l).cen.chains = s.cen.chains := rfl
@[simp] theorem State.setDemand_flo (s : State) (l : List Slot) : (s.setDemand l).flo = s.flo := rfl
@[simp] theorem State.setDemand_isu (s : State) (l : List Slot) : (s.setDemand l).isu = s.isu := rfl
@[simp] theorem State.setDemand_bst (s : State) (l : List Slot) : (s.setDemand l).bst = s.bst := rfl
@[simp] theorem State.setDemand_clk (s : State) (l : List Slot) : (s.setDemand l).clk = s.clk := rfl
@[simp] theorem State.setDemand_pending (s : State) (l : List Slot) : (s.setDemand l).pending = s.pending := rfl
@[simp] theorem State.setDemand_freeCount (s : State) (l : List Slot) : (s.setDemand l).freeCount = s.freeCount := rfl

/-! ## `State.setPeriodicList` -/

@[simp] theorem State.setPeriodicList_lpt (s : State) (l : List Slot) : (s.setPeriodicList l).lpt = s.lpt := rfl
@[simp] theorem State.setPeriodicList_pch (s : State) (l : List Slot) : (s.setPeriodicList l).pch = s.pch := rfl
@[simp] theorem State.setPeriodicList_ecr (s : State) (l : List Slot) : (s.setPeriodicList l).ecr = s.ecr := rfl
@[simp] theorem State.setPeriodicList_fga (s : State) (l : List Slot) : (s.setPeriodicList l).fga = s.fga := rfl
@[simp] theorem State.setPeriodicList_cen_slots (s : State) (l : List Slot) : (s.setPeriodicList l).cen.slots = s.cen.slots := rfl
@[simp] theorem State.setPeriodicList_cen_demand (s : State) (l : List Slot) : (s.setPeriodicList l).cen.demand = s.cen.demand := rfl
@[simp] theorem State.setPeriodicList_cen_chains (s : State) (l : List Slot) : (s.setPeriodicList l).cen.chains = s.cen.chains := rfl
@[simp] theorem State.setPeriodicList_flo (s : State) (l : List Slot) : (s.setPeriodicList l).flo = s.flo := rfl
@[simp] theorem State.setPeriodicList_isu (s : State) (l : List Slot) : (s.setPeriodicList l).isu = s.isu := rfl
@[simp] theorem State.setPeriodicList_bst (s : State) (l : List Slot) : (s.setPeriodicList l).bst = s.bst := rfl
@[simp] theorem State.setPeriodicList_clk (s : State) (l : List Slot) : (s.setPeriodicList l).clk = s.clk := rfl
@[simp] theorem State.setPeriodicList_pending (s : State) (l : List Slot) : (s.setPeriodicList l).pending = s.pending := rfl
@[simp] theorem State.setPeriodicList_freeCount (s : State) (l : List Slot) : (s.setPeriodicList l).freeCount = s.freeCount := rfl

/-! ## `State.setLineDarkMark` -/

@[simp] theorem State.setLineDarkMark_lpt (s : State) (p : Pair) (b : Bool) : (s.setLineDarkMark p b).lpt = s.lpt := rfl
@[simp] theorem State.setLineDarkMark_pch (s : State) (p : Pair) (b : Bool) : (s.setLineDarkMark p b).pch = s.pch := rfl
@[simp] theorem State.setLineDarkMark_ecr (s : State) (p : Pair) (b : Bool) : (s.setLineDarkMark p b).ecr = s.ecr := rfl
@[simp] theorem State.setLineDarkMark_fga (s : State) (p : Pair) (b : Bool) : (s.setLineDarkMark p b).fga = s.fga := rfl
@[simp] theorem State.setLineDarkMark_cen (s : State) (p : Pair) (b : Bool) : (s.setLineDarkMark p b).cen = s.cen := rfl
@[simp] theorem State.setLineDarkMark_flo_tStep (s : State) (p : Pair) (b : Bool) : (s.setLineDarkMark p b).flo.tStep = s.flo.tStep := rfl
@[simp] theorem State.setLineDarkMark_flo_tDrift (s : State) (p : Pair) (b : Bool) : (s.setLineDarkMark p b).flo.tDrift = s.flo.tDrift := rfl
@[simp] theorem State.setLineDarkMark_isu (s : State) (p : Pair) (b : Bool) : (s.setLineDarkMark p b).isu = s.isu := rfl
@[simp] theorem State.setLineDarkMark_bst (s : State) (p : Pair) (b : Bool) : (s.setLineDarkMark p b).bst = s.bst := rfl
@[simp] theorem State.setLineDarkMark_clk (s : State) (p : Pair) (b : Bool) : (s.setLineDarkMark p b).clk = s.clk := rfl
@[simp] theorem State.setLineDarkMark_pending (s : State) (p : Pair) (b : Bool) : (s.setLineDarkMark p b).pending = s.pending := rfl
@[simp] theorem State.setLineDarkMark_freeCount (s : State) (p : Pair) (b : Bool) : (s.setLineDarkMark p b).freeCount = s.freeCount := rfl

/-! ## `State.setGate` -/

@[simp] theorem State.setGate_lpt (s : State) (g : Fin 32) (x : Option Gate) : (s.setGate g x).lpt = s.lpt := rfl
@[simp] theorem State.setGate_pch (s : State) (g : Fin 32) (x : Option Gate) : (s.setGate g x).pch = s.pch := rfl
@[simp] theorem State.setGate_ecr (s : State) (g : Fin 32) (x : Option Gate) : (s.setGate g x).ecr = s.ecr := rfl
@[simp] theorem State.setGate_fga (s : State) (g : Fin 32) (x : Option Gate) : (s.setGate g x).fga = s.fga := rfl
@[simp] theorem State.setGate_cen (s : State) (g : Fin 32) (x : Option Gate) : (s.setGate g x).cen = s.cen := rfl
@[simp] theorem State.setGate_flo (s : State) (g : Fin 32) (x : Option Gate) : (s.setGate g x).flo = s.flo := rfl
@[simp] theorem State.setGate_isu_orders (s : State) (g : Fin 32) (x : Option Gate) : (s.setGate g x).isu.orders = s.isu.orders := rfl
@[simp] theorem State.setGate_isu_settings (s : State) (g : Fin 32) (x : Option Gate) : (s.setGate g x).isu.settings = s.isu.settings := rfl
@[simp] theorem State.setGate_isu_acceptance (s : State) (g : Fin 32) (x : Option Gate) : (s.setGate g x).isu.acceptance = s.isu.acceptance := rfl
@[simp] theorem State.setGate_isu_working (s : State) (g : Fin 32) (x : Option Gate) : (s.setGate g x).isu.working = s.isu.working := rfl
@[simp] theorem State.setGate_isu_inverted (s : State) (g : Fin 32) (x : Option Gate) : (s.setGate g x).isu.inverted = s.isu.inverted := rfl
@[simp] theorem State.setGate_bst (s : State) (g : Fin 32) (x : Option Gate) : (s.setGate g x).bst = s.bst := rfl
@[simp] theorem State.setGate_clk (s : State) (g : Fin 32) (x : Option Gate) : (s.setGate g x).clk = s.clk := rfl
@[simp] theorem State.setGate_pending (s : State) (g : Fin 32) (x : Option Gate) : (s.setGate g x).pending = s.pending := rfl
@[simp] theorem State.setGate_freeCount (s : State) (g : Fin 32) (x : Option Gate) : (s.setGate g x).freeCount = s.freeCount := rfl

/-! ## `State.setOrder` -/

@[simp] theorem State.setOrder_lpt (s : State) (n : OrderNo) (o : Option Order) : (s.setOrder n o).lpt = s.lpt := rfl
@[simp] theorem State.setOrder_pch (s : State) (n : OrderNo) (o : Option Order) : (s.setOrder n o).pch = s.pch := rfl
@[simp] theorem State.setOrder_ecr (s : State) (n : OrderNo) (o : Option Order) : (s.setOrder n o).ecr = s.ecr := rfl
@[simp] theorem State.setOrder_fga (s : State) (n : OrderNo) (o : Option Order) : (s.setOrder n o).fga = s.fga := rfl
@[simp] theorem State.setOrder_cen (s : State) (n : OrderNo) (o : Option Order) : (s.setOrder n o).cen = s.cen := rfl
@[simp] theorem State.setOrder_flo (s : State) (n : OrderNo) (o : Option Order) : (s.setOrder n o).flo = s.flo := rfl
@[simp] theorem State.setOrder_isu_gates (s : State) (n : OrderNo) (o : Option Order) : (s.setOrder n o).isu.gates = s.isu.gates := rfl
@[simp] theorem State.setOrder_isu_settings (s : State) (n : OrderNo) (o : Option Order) : (s.setOrder n o).isu.settings = s.isu.settings := rfl
@[simp] theorem State.setOrder_isu_acceptance (s : State) (n : OrderNo) (o : Option Order) : (s.setOrder n o).isu.acceptance = s.isu.acceptance := rfl
@[simp] theorem State.setOrder_isu_working (s : State) (n : OrderNo) (o : Option Order) : (s.setOrder n o).isu.working = s.isu.working := rfl
@[simp] theorem State.setOrder_isu_inverted (s : State) (n : OrderNo) (o : Option Order) : (s.setOrder n o).isu.inverted = s.isu.inverted := rfl
@[simp] theorem State.setOrder_bst (s : State) (n : OrderNo) (o : Option Order) : (s.setOrder n o).bst = s.bst := rfl
@[simp] theorem State.setOrder_clk (s : State) (n : OrderNo) (o : Option Order) : (s.setOrder n o).clk = s.clk := rfl
@[simp] theorem State.setOrder_pending (s : State) (n : OrderNo) (o : Option Order) : (s.setOrder n o).pending = s.pending := rfl
@[simp] theorem State.setOrder_freeCount (s : State) (n : OrderNo) (o : Option Order) : (s.setOrder n o).freeCount = s.freeCount := rfl

/-! ## `State.setAcceptance` -/

@[simp] theorem State.setAcceptance_lpt (s : State) (l : List OrderNo) : (s.setAcceptance l).lpt = s.lpt := rfl
@[simp] theorem State.setAcceptance_pch (s : State) (l : List OrderNo) : (s.setAcceptance l).pch = s.pch := rfl
@[simp] theorem State.setAcceptance_ecr (s : State) (l : List OrderNo) : (s.setAcceptance l).ecr = s.ecr := rfl
@[simp] theorem State.setAcceptance_fga (s : State) (l : List OrderNo) : (s.setAcceptance l).fga = s.fga := rfl
@[simp] theorem State.setAcceptance_cen (s : State) (l : List OrderNo) : (s.setAcceptance l).cen = s.cen := rfl
@[simp] theorem State.setAcceptance_flo (s : State) (l : List OrderNo) : (s.setAcceptance l).flo = s.flo := rfl
@[simp] theorem State.setAcceptance_isu_gates (s : State) (l : List OrderNo) : (s.setAcceptance l).isu.gates = s.isu.gates := rfl
@[simp] theorem State.setAcceptance_isu_orders (s : State) (l : List OrderNo) : (s.setAcceptance l).isu.orders = s.isu.orders := rfl
@[simp] theorem State.setAcceptance_isu_settings (s : State) (l : List OrderNo) : (s.setAcceptance l).isu.settings = s.isu.settings := rfl
@[simp] theorem State.setAcceptance_isu_working (s : State) (l : List OrderNo) : (s.setAcceptance l).isu.working = s.isu.working := rfl
@[simp] theorem State.setAcceptance_isu_inverted (s : State) (l : List OrderNo) : (s.setAcceptance l).isu.inverted = s.isu.inverted := rfl
@[simp] theorem State.setAcceptance_bst (s : State) (l : List OrderNo) : (s.setAcceptance l).bst = s.bst := rfl
@[simp] theorem State.setAcceptance_clk (s : State) (l : List OrderNo) : (s.setAcceptance l).clk = s.clk := rfl
@[simp] theorem State.setAcceptance_pending (s : State) (l : List OrderNo) : (s.setAcceptance l).pending = s.pending := rfl
@[simp] theorem State.setAcceptance_freeCount (s : State) (l : List OrderNo) : (s.setAcceptance l).freeCount = s.freeCount := rfl

/-! ## `State.setWorking` -/

@[simp] theorem State.setWorking_lpt (s : State) (c : Chan) (w : Vector Int 5) : (s.setWorking c w).lpt = s.lpt := rfl
@[simp] theorem State.setWorking_pch (s : State) (c : Chan) (w : Vector Int 5) : (s.setWorking c w).pch = s.pch := rfl
@[simp] theorem State.setWorking_ecr (s : State) (c : Chan) (w : Vector Int 5) : (s.setWorking c w).ecr = s.ecr := rfl
@[simp] theorem State.setWorking_fga (s : State) (c : Chan) (w : Vector Int 5) : (s.setWorking c w).fga = s.fga := rfl
@[simp] theorem State.setWorking_cen (s : State) (c : Chan) (w : Vector Int 5) : (s.setWorking c w).cen = s.cen := rfl
@[simp] theorem State.setWorking_flo (s : State) (c : Chan) (w : Vector Int 5) : (s.setWorking c w).flo = s.flo := rfl
@[simp] theorem State.setWorking_isu_gates (s : State) (c : Chan) (w : Vector Int 5) : (s.setWorking c w).isu.gates = s.isu.gates := rfl
@[simp] theorem State.setWorking_isu_orders (s : State) (c : Chan) (w : Vector Int 5) : (s.setWorking c w).isu.orders = s.isu.orders := rfl
@[simp] theorem State.setWorking_isu_settings (s : State) (c : Chan) (w : Vector Int 5) : (s.setWorking c w).isu.settings = s.isu.settings := rfl
@[simp] theorem State.setWorking_isu_acceptance (s : State) (c : Chan) (w : Vector Int 5) : (s.setWorking c w).isu.acceptance = s.isu.acceptance := rfl
@[simp] theorem State.setWorking_isu_inverted (s : State) (c : Chan) (w : Vector Int 5) : (s.setWorking c w).isu.inverted = s.isu.inverted := rfl
@[simp] theorem State.setWorking_bst (s : State) (c : Chan) (w : Vector Int 5) : (s.setWorking c w).bst = s.bst := rfl
@[simp] theorem State.setWorking_clk (s : State) (c : Chan) (w : Vector Int 5) : (s.setWorking c w).clk = s.clk := rfl
@[simp] theorem State.setWorking_pending (s : State) (c : Chan) (w : Vector Int 5) : (s.setWorking c w).pending = s.pending := rfl
@[simp] theorem State.setWorking_freeCount (s : State) (c : Chan) (w : Vector Int 5) : (s.setWorking c w).freeCount = s.freeCount := rfl

/-! ## `State.setInverted` -/

@[simp] theorem State.setInverted_lpt (s : State) (c : Chan) (b : Bool) : (s.setInverted c b).lpt = s.lpt := rfl
@[simp] theorem State.setInverted_pch (s : State) (c : Chan) (b : Bool) : (s.setInverted c b).pch = s.pch := rfl
@[simp] theorem State.setInverted_ecr (s : State) (c : Chan) (b : Bool) : (s.setInverted c b).ecr = s.ecr := rfl
@[simp] theorem State.setInverted_fga (s : State) (c : Chan) (b : Bool) : (s.setInverted c b).fga = s.fga := rfl
@[simp] theorem State.setInverted_cen (s : State) (c : Chan) (b : Bool) : (s.setInverted c b).cen = s.cen := rfl
@[simp] theorem State.setInverted_flo (s : State) (c : Chan) (b : Bool) : (s.setInverted c b).flo = s.flo := rfl
@[simp] theorem State.setInverted_isu_gates (s : State) (c : Chan) (b : Bool) : (s.setInverted c b).isu.gates = s.isu.gates := rfl
@[simp] theorem State.setInverted_isu_orders (s : State) (c : Chan) (b : Bool) : (s.setInverted c b).isu.orders = s.isu.orders := rfl
@[simp] theorem State.setInverted_isu_settings (s : State) (c : Chan) (b : Bool) : (s.setInverted c b).isu.settings = s.isu.settings := rfl
@[simp] theorem State.setInverted_isu_acceptance (s : State) (c : Chan) (b : Bool) : (s.setInverted c b).isu.acceptance = s.isu.acceptance := rfl
@[simp] theorem State.setInverted_isu_working (s : State) (c : Chan) (b : Bool) : (s.setInverted c b).isu.working = s.isu.working := rfl
@[simp] theorem State.setInverted_bst (s : State) (c : Chan) (b : Bool) : (s.setInverted c b).bst = s.bst := rfl
@[simp] theorem State.setInverted_clk (s : State) (c : Chan) (b : Bool) : (s.setInverted c b).clk = s.clk := rfl
@[simp] theorem State.setInverted_pending (s : State) (c : Chan) (b : Bool) : (s.setInverted c b).pending = s.pending := rfl
@[simp] theorem State.setInverted_freeCount (s : State) (c : Chan) (b : Bool) : (s.setInverted c b).freeCount = s.freeCount := rfl

/-! ## `State.setBaseline` -/

@[simp] theorem State.setBaseline_lpt (s : State) (p : Pair) (i : Index) (b : Option Baseline) : (s.setBaseline p i b).lpt = s.lpt := rfl
@[simp] theorem State.setBaseline_pch (s : State) (p : Pair) (i : Index) (b : Option Baseline) : (s.setBaseline p i b).pch = s.pch := rfl
@[simp] theorem State.setBaseline_ecr (s : State) (p : Pair) (i : Index) (b : Option Baseline) : (s.setBaseline p i b).ecr = s.ecr := rfl
@[simp] theorem State.setBaseline_fga (s : State) (p : Pair) (i : Index) (b : Option Baseline) : (s.setBaseline p i b).fga = s.fga := rfl
@[simp] theorem State.setBaseline_cen (s : State) (p : Pair) (i : Index) (b : Option Baseline) : (s.setBaseline p i b).cen = s.cen := rfl
@[simp] theorem State.setBaseline_flo (s : State) (p : Pair) (i : Index) (b : Option Baseline) : (s.setBaseline p i b).flo = s.flo := rfl
@[simp] theorem State.setBaseline_isu (s : State) (p : Pair) (i : Index) (b : Option Baseline) : (s.setBaseline p i b).isu = s.isu := rfl
@[simp] theorem State.setBaseline_bst_store (s : State) (p : Pair) (i : Index) (b : Option Baseline) : (s.setBaseline p i b).bst.store = s.bst.store := rfl
@[simp] theorem State.setBaseline_bst_staging (s : State) (p : Pair) (i : Index) (b : Option Baseline) : (s.setBaseline p i b).bst.staging = s.bst.staging := rfl
@[simp] theorem State.setBaseline_bst_op (s : State) (p : Pair) (i : Index) (b : Option Baseline) : (s.setBaseline p i b).bst.op = s.bst.op := rfl
@[simp] theorem State.setBaseline_bst_lastOp (s : State) (p : Pair) (i : Index) (b : Option Baseline) : (s.setBaseline p i b).bst.lastOp = s.bst.lastOp := rfl
@[simp] theorem State.setBaseline_clk (s : State) (p : Pair) (i : Index) (b : Option Baseline) : (s.setBaseline p i b).clk = s.clk := rfl
@[simp] theorem State.setBaseline_pending (s : State) (p : Pair) (i : Index) (b : Option Baseline) : (s.setBaseline p i b).pending = s.pending := rfl
@[simp] theorem State.setBaseline_freeCount (s : State) (p : Pair) (i : Index) (b : Option Baseline) : (s.setBaseline p i b).freeCount = s.freeCount := rfl

/-! ## `State.setStore` -/

@[simp] theorem State.setStore_lpt (s : State) (t : List Host.Cell) : (s.setStore t).lpt = s.lpt := rfl
@[simp] theorem State.setStore_pch (s : State) (t : List Host.Cell) : (s.setStore t).pch = s.pch := rfl
@[simp] theorem State.setStore_ecr (s : State) (t : List Host.Cell) : (s.setStore t).ecr = s.ecr := rfl
@[simp] theorem State.setStore_fga (s : State) (t : List Host.Cell) : (s.setStore t).fga = s.fga := rfl
@[simp] theorem State.setStore_cen (s : State) (t : List Host.Cell) : (s.setStore t).cen = s.cen := rfl
@[simp] theorem State.setStore_flo (s : State) (t : List Host.Cell) : (s.setStore t).flo = s.flo := rfl
@[simp] theorem State.setStore_isu (s : State) (t : List Host.Cell) : (s.setStore t).isu = s.isu := rfl
@[simp] theorem State.setStore_bst_image (s : State) (t : List Host.Cell) : (s.setStore t).bst.image = s.bst.image := rfl
@[simp] theorem State.setStore_bst_staging (s : State) (t : List Host.Cell) : (s.setStore t).bst.staging = s.bst.staging := rfl
@[simp] theorem State.setStore_bst_op (s : State) (t : List Host.Cell) : (s.setStore t).bst.op = s.bst.op := rfl
@[simp] theorem State.setStore_bst_lastOp (s : State) (t : List Host.Cell) : (s.setStore t).bst.lastOp = s.bst.lastOp := rfl
@[simp] theorem State.setStore_clk (s : State) (t : List Host.Cell) : (s.setStore t).clk = s.clk := rfl
@[simp] theorem State.setStore_pending (s : State) (t : List Host.Cell) : (s.setStore t).pending = s.pending := rfl
@[simp] theorem State.setStore_freeCount (s : State) (t : List Host.Cell) : (s.setStore t).freeCount = s.freeCount := rfl

/-! ## `State.setStoreOp` -/

@[simp] theorem State.setStoreOp_lpt (s : State) (op : StoreOp) : (s.setStoreOp op).lpt = s.lpt := rfl
@[simp] theorem State.setStoreOp_pch (s : State) (op : StoreOp) : (s.setStoreOp op).pch = s.pch := rfl
@[simp] theorem State.setStoreOp_ecr (s : State) (op : StoreOp) : (s.setStoreOp op).ecr = s.ecr := rfl
@[simp] theorem State.setStoreOp_fga (s : State) (op : StoreOp) : (s.setStoreOp op).fga = s.fga := rfl
@[simp] theorem State.setStoreOp_cen (s : State) (op : StoreOp) : (s.setStoreOp op).cen = s.cen := rfl
@[simp] theorem State.setStoreOp_flo (s : State) (op : StoreOp) : (s.setStoreOp op).flo = s.flo := rfl
@[simp] theorem State.setStoreOp_isu (s : State) (op : StoreOp) : (s.setStoreOp op).isu = s.isu := rfl
@[simp] theorem State.setStoreOp_bst_store (s : State) (op : StoreOp) : (s.setStoreOp op).bst.store = s.bst.store := rfl
@[simp] theorem State.setStoreOp_bst_image (s : State) (op : StoreOp) : (s.setStoreOp op).bst.image = s.bst.image := rfl
@[simp] theorem State.setStoreOp_bst_staging (s : State) (op : StoreOp) : (s.setStoreOp op).bst.staging = s.bst.staging := rfl
@[simp] theorem State.setStoreOp_bst_lastOp (s : State) (op : StoreOp) : (s.setStoreOp op).bst.lastOp = s.bst.lastOp := rfl
@[simp] theorem State.setStoreOp_clk (s : State) (op : StoreOp) : (s.setStoreOp op).clk = s.clk := rfl
@[simp] theorem State.setStoreOp_pending (s : State) (op : StoreOp) : (s.setStoreOp op).pending = s.pending := rfl
@[simp] theorem State.setStoreOp_freeCount (s : State) (op : StoreOp) : (s.setStoreOp op).freeCount = s.freeCount := rfl

/-! ## `State.setStaging` -/

@[simp] theorem State.setStaging_lpt (s : State) (l : List Staged) : (s.setStaging l).lpt = s.lpt := rfl
@[simp] theorem State.setStaging_pch (s : State) (l : List Staged) : (s.setStaging l).pch = s.pch := rfl
@[simp] theorem State.setStaging_ecr (s : State) (l : List Staged) : (s.setStaging l).ecr = s.ecr := rfl
@[simp] theorem State.setStaging_fga (s : State) (l : List Staged) : (s.setStaging l).fga = s.fga := rfl
@[simp] theorem State.setStaging_cen (s : State) (l : List Staged) : (s.setStaging l).cen = s.cen := rfl
@[simp] theorem State.setStaging_flo (s : State) (l : List Staged) : (s.setStaging l).flo = s.flo := rfl
@[simp] theorem State.setStaging_isu (s : State) (l : List Staged) : (s.setStaging l).isu = s.isu := rfl
@[simp] theorem State.setStaging_bst_store (s : State) (l : List Staged) : (s.setStaging l).bst.store = s.bst.store := rfl
@[simp] theorem State.setStaging_bst_image (s : State) (l : List Staged) : (s.setStaging l).bst.image = s.bst.image := rfl
@[simp] theorem State.setStaging_bst_op (s : State) (l : List Staged) : (s.setStaging l).bst.op = s.bst.op := rfl
@[simp] theorem State.setStaging_bst_lastOp (s : State) (l : List Staged) : (s.setStaging l).bst.lastOp = s.bst.lastOp := rfl
@[simp] theorem State.setStaging_clk (s : State) (l : List Staged) : (s.setStaging l).clk = s.clk := rfl
@[simp] theorem State.setStaging_pending (s : State) (l : List Staged) : (s.setStaging l).pending = s.pending := rfl
@[simp] theorem State.setStaging_freeCount (s : State) (l : List Staged) : (s.setStaging l).freeCount = s.freeCount := rfl

/-! ## `State.setLastOp` -/

@[simp] theorem State.setLastOp_lpt (s : State) (x : Option LastOp) : (s.setLastOp x).lpt = s.lpt := rfl
@[simp] theorem State.setLastOp_pch (s : State) (x : Option LastOp) : (s.setLastOp x).pch = s.pch := rfl
@[simp] theorem State.setLastOp_ecr (s : State) (x : Option LastOp) : (s.setLastOp x).ecr = s.ecr := rfl
@[simp] theorem State.setLastOp_fga (s : State) (x : Option LastOp) : (s.setLastOp x).fga = s.fga := rfl
@[simp] theorem State.setLastOp_cen (s : State) (x : Option LastOp) : (s.setLastOp x).cen = s.cen := rfl
@[simp] theorem State.setLastOp_flo (s : State) (x : Option LastOp) : (s.setLastOp x).flo = s.flo := rfl
@[simp] theorem State.setLastOp_isu (s : State) (x : Option LastOp) : (s.setLastOp x).isu = s.isu := rfl
@[simp] theorem State.setLastOp_bst_store (s : State) (x : Option LastOp) : (s.setLastOp x).bst.store = s.bst.store := rfl
@[simp] theorem State.setLastOp_bst_image (s : State) (x : Option LastOp) : (s.setLastOp x).bst.image = s.bst.image := rfl
@[simp] theorem State.setLastOp_bst_staging (s : State) (x : Option LastOp) : (s.setLastOp x).bst.staging = s.bst.staging := rfl
@[simp] theorem State.setLastOp_bst_op (s : State) (x : Option LastOp) : (s.setLastOp x).bst.op = s.bst.op := rfl
@[simp] theorem State.setLastOp_clk (s : State) (x : Option LastOp) : (s.setLastOp x).clk = s.clk := rfl
@[simp] theorem State.setLastOp_pending (s : State) (x : Option LastOp) : (s.setLastOp x).pending = s.pending := rfl
@[simp] theorem State.setLastOp_freeCount (s : State) (x : Option LastOp) : (s.setLastOp x).freeCount = s.freeCount := rfl

/-! ## `State.setLevel` -/

@[simp] theorem State.setLevel_lpt (s : State) (src : Source) (l : Level) : (s.setLevel src l).lpt = s.lpt := rfl
@[simp] theorem State.setLevel_pch (s : State) (src : Source) (l : Level) : (s.setLevel src l).pch = s.pch := rfl
@[simp] theorem State.setLevel_ecr (s : State) (src : Source) (l : Level) : (s.setLevel src l).ecr = s.ecr := rfl
@[simp] theorem State.setLevel_fga (s : State) (src : Source) (l : Level) : (s.setLevel src l).fga = s.fga := rfl
@[simp] theorem State.setLevel_cen (s : State) (src : Source) (l : Level) : (s.setLevel src l).cen = s.cen := rfl
@[simp] theorem State.setLevel_flo (s : State) (src : Source) (l : Level) : (s.setLevel src l).flo = s.flo := rfl
@[simp] theorem State.setLevel_isu (s : State) (src : Source) (l : Level) : (s.setLevel src l).isu = s.isu := rfl
@[simp] theorem State.setLevel_bst (s : State) (src : Source) (l : Level) : (s.setLevel src l).bst = s.bst := rfl
@[simp] theorem State.setLevel_clk_assembler (s : State) (src : Source) (l : Level) : (s.setLevel src l).clk.assembler = s.clk.assembler := rfl
@[simp] theorem State.setLevel_clk_replies (s : State) (src : Source) (l : Level) : (s.setLevel src l).clk.replies = s.clk.replies := rfl
@[simp] theorem State.setLevel_clk_reports (s : State) (src : Source) (l : Level) : (s.setLevel src l).clk.reports = s.clk.reports := rfl
@[simp] theorem State.setLevel_clk_transmitter (s : State) (src : Source) (l : Level) : (s.setLevel src l).clk.transmitter = s.clk.transmitter := rfl
@[simp] theorem State.setLevel_clk_ready (s : State) (src : Source) (l : Level) : (s.setLevel src l).clk.ready = s.clk.ready := rfl
@[simp] theorem State.setLevel_clk_part (s : State) (src : Source) (l : Level) : (s.setLevel src l).clk.part = s.clk.part := rfl
@[simp] theorem State.setLevel_clk_lastReset (s : State) (src : Source) (l : Level) : (s.setLevel src l).clk.lastReset = s.clk.lastReset := rfl
@[simp] theorem State.setLevel_clk_pendingReset (s : State) (src : Source) (l : Level) : (s.setLevel src l).clk.pendingReset = s.clk.pendingReset := rfl
@[simp] theorem State.setLevel_clk_rate (s : State) (src : Source) (l : Level) : (s.setLevel src l).clk.rate = s.clk.rate := rfl
@[simp] theorem State.setLevel_clk_lineAtSpace (s : State) (src : Source) (l : Level) : (s.setLevel src l).clk.lineAtSpace = s.clk.lineAtSpace := rfl
@[simp] theorem State.setLevel_clk_breakSpent (s : State) (src : Source) (l : Level) : (s.setLevel src l).clk.breakSpent = s.clk.breakSpent := rfl
@[simp] theorem State.setLevel_pending (s : State) (src : Source) (l : Level) : (s.setLevel src l).pending = s.pending := rfl
@[simp] theorem State.setLevel_freeCount (s : State) (src : Source) (l : Level) : (s.setLevel src l).freeCount = s.freeCount := rfl

/-! ## `State.setReports` -/

@[simp] theorem State.setReports_lpt (s : State) (l : List Origin) : (s.setReports l).lpt = s.lpt := rfl
@[simp] theorem State.setReports_pch (s : State) (l : List Origin) : (s.setReports l).pch = s.pch := rfl
@[simp] theorem State.setReports_ecr (s : State) (l : List Origin) : (s.setReports l).ecr = s.ecr := rfl
@[simp] theorem State.setReports_fga (s : State) (l : List Origin) : (s.setReports l).fga = s.fga := rfl
@[simp] theorem State.setReports_cen (s : State) (l : List Origin) : (s.setReports l).cen = s.cen := rfl
@[simp] theorem State.setReports_flo (s : State) (l : List Origin) : (s.setReports l).flo = s.flo := rfl
@[simp] theorem State.setReports_isu (s : State) (l : List Origin) : (s.setReports l).isu = s.isu := rfl
@[simp] theorem State.setReports_bst (s : State) (l : List Origin) : (s.setReports l).bst = s.bst := rfl
@[simp] theorem State.setReports_clk_assembler (s : State) (l : List Origin) : (s.setReports l).clk.assembler = s.clk.assembler := rfl
@[simp] theorem State.setReports_clk_levels (s : State) (l : List Origin) : (s.setReports l).clk.levels = s.clk.levels := rfl
@[simp] theorem State.setReports_clk_replies (s : State) (l : List Origin) : (s.setReports l).clk.replies = s.clk.replies := rfl
@[simp] theorem State.setReports_clk_transmitter (s : State) (l : List Origin) : (s.setReports l).clk.transmitter = s.clk.transmitter := rfl
@[simp] theorem State.setReports_clk_ready (s : State) (l : List Origin) : (s.setReports l).clk.ready = s.clk.ready := rfl
@[simp] theorem State.setReports_clk_part (s : State) (l : List Origin) : (s.setReports l).clk.part = s.clk.part := rfl
@[simp] theorem State.setReports_clk_lastReset (s : State) (l : List Origin) : (s.setReports l).clk.lastReset = s.clk.lastReset := rfl
@[simp] theorem State.setReports_clk_pendingReset (s : State) (l : List Origin) : (s.setReports l).clk.pendingReset = s.clk.pendingReset := rfl
@[simp] theorem State.setReports_clk_rate (s : State) (l : List Origin) : (s.setReports l).clk.rate = s.clk.rate := rfl
@[simp] theorem State.setReports_clk_lineAtSpace (s : State) (l : List Origin) : (s.setReports l).clk.lineAtSpace = s.clk.lineAtSpace := rfl
@[simp] theorem State.setReports_clk_breakSpent (s : State) (l : List Origin) : (s.setReports l).clk.breakSpent = s.clk.breakSpent := rfl
@[simp] theorem State.setReports_pending (s : State) (l : List Origin) : (s.setReports l).pending = s.pending := rfl
@[simp] theorem State.setReports_freeCount (s : State) (l : List Origin) : (s.setReports l).freeCount = s.freeCount := rfl

/-! ## `State.setAssembler` -/

@[simp] theorem State.setAssembler_lpt (s : State) (a : Assembler) : (s.setAssembler a).lpt = s.lpt := rfl
@[simp] theorem State.setAssembler_pch (s : State) (a : Assembler) : (s.setAssembler a).pch = s.pch := rfl
@[simp] theorem State.setAssembler_ecr (s : State) (a : Assembler) : (s.setAssembler a).ecr = s.ecr := rfl
@[simp] theorem State.setAssembler_fga (s : State) (a : Assembler) : (s.setAssembler a).fga = s.fga := rfl
@[simp] theorem State.setAssembler_cen (s : State) (a : Assembler) : (s.setAssembler a).cen = s.cen := rfl
@[simp] theorem State.setAssembler_flo (s : State) (a : Assembler) : (s.setAssembler a).flo = s.flo := rfl
@[simp] theorem State.setAssembler_isu (s : State) (a : Assembler) : (s.setAssembler a).isu = s.isu := rfl
@[simp] theorem State.setAssembler_bst (s : State) (a : Assembler) : (s.setAssembler a).bst = s.bst := rfl
@[simp] theorem State.setAssembler_clk_levels (s : State) (a : Assembler) : (s.setAssembler a).clk.levels = s.clk.levels := rfl
@[simp] theorem State.setAssembler_clk_replies (s : State) (a : Assembler) : (s.setAssembler a).clk.replies = s.clk.replies := rfl
@[simp] theorem State.setAssembler_clk_reports (s : State) (a : Assembler) : (s.setAssembler a).clk.reports = s.clk.reports := rfl
@[simp] theorem State.setAssembler_clk_transmitter (s : State) (a : Assembler) : (s.setAssembler a).clk.transmitter = s.clk.transmitter := rfl
@[simp] theorem State.setAssembler_clk_ready (s : State) (a : Assembler) : (s.setAssembler a).clk.ready = s.clk.ready := rfl
@[simp] theorem State.setAssembler_clk_part (s : State) (a : Assembler) : (s.setAssembler a).clk.part = s.clk.part := rfl
@[simp] theorem State.setAssembler_clk_lastReset (s : State) (a : Assembler) : (s.setAssembler a).clk.lastReset = s.clk.lastReset := rfl
@[simp] theorem State.setAssembler_clk_pendingReset (s : State) (a : Assembler) : (s.setAssembler a).clk.pendingReset = s.clk.pendingReset := rfl
@[simp] theorem State.setAssembler_clk_rate (s : State) (a : Assembler) : (s.setAssembler a).clk.rate = s.clk.rate := rfl
@[simp] theorem State.setAssembler_clk_lineAtSpace (s : State) (a : Assembler) : (s.setAssembler a).clk.lineAtSpace = s.clk.lineAtSpace := rfl
@[simp] theorem State.setAssembler_clk_breakSpent (s : State) (a : Assembler) : (s.setAssembler a).clk.breakSpent = s.clk.breakSpent := rfl
@[simp] theorem State.setAssembler_pending (s : State) (a : Assembler) : (s.setAssembler a).pending = s.pending := rfl
@[simp] theorem State.setAssembler_freeCount (s : State) (a : Assembler) : (s.setAssembler a).freeCount = s.freeCount := rfl

/-! ## `State.setTransmitter` -/

@[simp] theorem State.setTransmitter_lpt (s : State) (t : Transmitter) : (s.setTransmitter t).lpt = s.lpt := rfl
@[simp] theorem State.setTransmitter_pch (s : State) (t : Transmitter) : (s.setTransmitter t).pch = s.pch := rfl
@[simp] theorem State.setTransmitter_ecr (s : State) (t : Transmitter) : (s.setTransmitter t).ecr = s.ecr := rfl
@[simp] theorem State.setTransmitter_fga (s : State) (t : Transmitter) : (s.setTransmitter t).fga = s.fga := rfl
@[simp] theorem State.setTransmitter_cen (s : State) (t : Transmitter) : (s.setTransmitter t).cen = s.cen := rfl
@[simp] theorem State.setTransmitter_flo (s : State) (t : Transmitter) : (s.setTransmitter t).flo = s.flo := rfl
@[simp] theorem State.setTransmitter_isu (s : State) (t : Transmitter) : (s.setTransmitter t).isu = s.isu := rfl
@[simp] theorem State.setTransmitter_bst (s : State) (t : Transmitter) : (s.setTransmitter t).bst = s.bst := rfl
@[simp] theorem State.setTransmitter_clk_assembler (s : State) (t : Transmitter) : (s.setTransmitter t).clk.assembler = s.clk.assembler := rfl
@[simp] theorem State.setTransmitter_clk_levels (s : State) (t : Transmitter) : (s.setTransmitter t).clk.levels = s.clk.levels := rfl
@[simp] theorem State.setTransmitter_clk_replies (s : State) (t : Transmitter) : (s.setTransmitter t).clk.replies = s.clk.replies := rfl
@[simp] theorem State.setTransmitter_clk_reports (s : State) (t : Transmitter) : (s.setTransmitter t).clk.reports = s.clk.reports := rfl
@[simp] theorem State.setTransmitter_clk_ready (s : State) (t : Transmitter) : (s.setTransmitter t).clk.ready = s.clk.ready := rfl
@[simp] theorem State.setTransmitter_clk_part (s : State) (t : Transmitter) : (s.setTransmitter t).clk.part = s.clk.part := rfl
@[simp] theorem State.setTransmitter_clk_lastReset (s : State) (t : Transmitter) : (s.setTransmitter t).clk.lastReset = s.clk.lastReset := rfl
@[simp] theorem State.setTransmitter_clk_pendingReset (s : State) (t : Transmitter) : (s.setTransmitter t).clk.pendingReset = s.clk.pendingReset := rfl
@[simp] theorem State.setTransmitter_clk_rate (s : State) (t : Transmitter) : (s.setTransmitter t).clk.rate = s.clk.rate := rfl
@[simp] theorem State.setTransmitter_clk_lineAtSpace (s : State) (t : Transmitter) : (s.setTransmitter t).clk.lineAtSpace = s.clk.lineAtSpace := rfl
@[simp] theorem State.setTransmitter_clk_breakSpent (s : State) (t : Transmitter) : (s.setTransmitter t).clk.breakSpent = s.clk.breakSpent := rfl
@[simp] theorem State.setTransmitter_pending (s : State) (t : Transmitter) : (s.setTransmitter t).pending = s.pending := rfl
@[simp] theorem State.setTransmitter_freeCount (s : State) (t : Transmitter) : (s.setTransmitter t).freeCount = s.freeCount := rfl

/-! ## `State.setReplies` -/

@[simp] theorem State.setReplies_lpt (s : State) (l : List LinkFrame) : (s.setReplies l).lpt = s.lpt := rfl
@[simp] theorem State.setReplies_pch (s : State) (l : List LinkFrame) : (s.setReplies l).pch = s.pch := rfl
@[simp] theorem State.setReplies_ecr (s : State) (l : List LinkFrame) : (s.setReplies l).ecr = s.ecr := rfl
@[simp] theorem State.setReplies_fga (s : State) (l : List LinkFrame) : (s.setReplies l).fga = s.fga := rfl
@[simp] theorem State.setReplies_cen (s : State) (l : List LinkFrame) : (s.setReplies l).cen = s.cen := rfl
@[simp] theorem State.setReplies_flo (s : State) (l : List LinkFrame) : (s.setReplies l).flo = s.flo := rfl
@[simp] theorem State.setReplies_isu (s : State) (l : List LinkFrame) : (s.setReplies l).isu = s.isu := rfl
@[simp] theorem State.setReplies_bst (s : State) (l : List LinkFrame) : (s.setReplies l).bst = s.bst := rfl
@[simp] theorem State.setReplies_clk_assembler (s : State) (l : List LinkFrame) : (s.setReplies l).clk.assembler = s.clk.assembler := rfl
@[simp] theorem State.setReplies_clk_levels (s : State) (l : List LinkFrame) : (s.setReplies l).clk.levels = s.clk.levels := rfl
@[simp] theorem State.setReplies_clk_reports (s : State) (l : List LinkFrame) : (s.setReplies l).clk.reports = s.clk.reports := rfl
@[simp] theorem State.setReplies_clk_transmitter (s : State) (l : List LinkFrame) : (s.setReplies l).clk.transmitter = s.clk.transmitter := rfl
@[simp] theorem State.setReplies_clk_part (s : State) (l : List LinkFrame) : (s.setReplies l).clk.part = s.clk.part := rfl
@[simp] theorem State.setReplies_clk_lastReset (s : State) (l : List LinkFrame) : (s.setReplies l).clk.lastReset = s.clk.lastReset := rfl
@[simp] theorem State.setReplies_clk_pendingReset (s : State) (l : List LinkFrame) : (s.setReplies l).clk.pendingReset = s.clk.pendingReset := rfl
@[simp] theorem State.setReplies_clk_rate (s : State) (l : List LinkFrame) : (s.setReplies l).clk.rate = s.clk.rate := rfl
@[simp] theorem State.setReplies_clk_lineAtSpace (s : State) (l : List LinkFrame) : (s.setReplies l).clk.lineAtSpace = s.clk.lineAtSpace := rfl
@[simp] theorem State.setReplies_clk_breakSpent (s : State) (l : List LinkFrame) : (s.setReplies l).clk.breakSpent = s.clk.breakSpent := rfl
@[simp] theorem State.setReplies_pending (s : State) (l : List LinkFrame) : (s.setReplies l).pending = s.pending := rfl
@[simp] theorem State.setReplies_freeCount (s : State) (l : List LinkFrame) : (s.setReplies l).freeCount = s.freeCount := rfl

/-! ## `State.setPendingReset` -/

@[simp] theorem State.setPendingReset_lpt (s : State) (k : ResetKind) : (s.setPendingReset k).lpt = s.lpt := rfl
@[simp] theorem State.setPendingReset_pch (s : State) (k : ResetKind) : (s.setPendingReset k).pch = s.pch := rfl
@[simp] theorem State.setPendingReset_ecr (s : State) (k : ResetKind) : (s.setPendingReset k).ecr = s.ecr := rfl
@[simp] theorem State.setPendingReset_fga (s : State) (k : ResetKind) : (s.setPendingReset k).fga = s.fga := rfl
@[simp] theorem State.setPendingReset_cen (s : State) (k : ResetKind) : (s.setPendingReset k).cen = s.cen := rfl
@[simp] theorem State.setPendingReset_flo (s : State) (k : ResetKind) : (s.setPendingReset k).flo = s.flo := rfl
@[simp] theorem State.setPendingReset_isu (s : State) (k : ResetKind) : (s.setPendingReset k).isu = s.isu := rfl
@[simp] theorem State.setPendingReset_bst (s : State) (k : ResetKind) : (s.setPendingReset k).bst = s.bst := rfl
@[simp] theorem State.setPendingReset_clk_assembler (s : State) (k : ResetKind) : (s.setPendingReset k).clk.assembler = s.clk.assembler := rfl
@[simp] theorem State.setPendingReset_clk_levels (s : State) (k : ResetKind) : (s.setPendingReset k).clk.levels = s.clk.levels := rfl
@[simp] theorem State.setPendingReset_clk_replies (s : State) (k : ResetKind) : (s.setPendingReset k).clk.replies = s.clk.replies := rfl
@[simp] theorem State.setPendingReset_clk_reports (s : State) (k : ResetKind) : (s.setPendingReset k).clk.reports = s.clk.reports := rfl
@[simp] theorem State.setPendingReset_clk_transmitter (s : State) (k : ResetKind) : (s.setPendingReset k).clk.transmitter = s.clk.transmitter := rfl
@[simp] theorem State.setPendingReset_clk_part (s : State) (k : ResetKind) : (s.setPendingReset k).clk.part = s.clk.part := rfl
@[simp] theorem State.setPendingReset_clk_lastReset (s : State) (k : ResetKind) : (s.setPendingReset k).clk.lastReset = s.clk.lastReset := rfl
@[simp] theorem State.setPendingReset_clk_rate (s : State) (k : ResetKind) : (s.setPendingReset k).clk.rate = s.clk.rate := rfl
@[simp] theorem State.setPendingReset_clk_lineAtSpace (s : State) (k : ResetKind) : (s.setPendingReset k).clk.lineAtSpace = s.clk.lineAtSpace := rfl
@[simp] theorem State.setPendingReset_clk_breakSpent (s : State) (k : ResetKind) : (s.setPendingReset k).clk.breakSpent = s.clk.breakSpent := rfl
@[simp] theorem State.setPendingReset_pending (s : State) (k : ResetKind) : (s.setPendingReset k).pending = s.pending := rfl
@[simp] theorem State.setPendingReset_freeCount (s : State) (k : ResetKind) : (s.setPendingReset k).freeCount = s.freeCount := rfl

/-! ## `State.setBreak` -/

@[simp] theorem State.setBreak_lpt (s : State) (x y : Bool) : (s.setBreak x y).lpt = s.lpt := rfl
@[simp] theorem State.setBreak_pch (s : State) (x y : Bool) : (s.setBreak x y).pch = s.pch := rfl
@[simp] theorem State.setBreak_ecr (s : State) (x y : Bool) : (s.setBreak x y).ecr = s.ecr := rfl
@[simp] theorem State.setBreak_fga (s : State) (x y : Bool) : (s.setBreak x y).fga = s.fga := rfl
@[simp] theorem State.setBreak_cen (s : State) (x y : Bool) : (s.setBreak x y).cen = s.cen := rfl
@[simp] theorem State.setBreak_flo (s : State) (x y : Bool) : (s.setBreak x y).flo = s.flo := rfl
@[simp] theorem State.setBreak_isu (s : State) (x y : Bool) : (s.setBreak x y).isu = s.isu := rfl
@[simp] theorem State.setBreak_bst (s : State) (x y : Bool) : (s.setBreak x y).bst = s.bst := rfl
@[simp] theorem State.setBreak_clk_assembler (s : State) (x y : Bool) : (s.setBreak x y).clk.assembler = s.clk.assembler := rfl
@[simp] theorem State.setBreak_clk_levels (s : State) (x y : Bool) : (s.setBreak x y).clk.levels = s.clk.levels := rfl
@[simp] theorem State.setBreak_clk_replies (s : State) (x y : Bool) : (s.setBreak x y).clk.replies = s.clk.replies := rfl
@[simp] theorem State.setBreak_clk_reports (s : State) (x y : Bool) : (s.setBreak x y).clk.reports = s.clk.reports := rfl
@[simp] theorem State.setBreak_clk_transmitter (s : State) (x y : Bool) : (s.setBreak x y).clk.transmitter = s.clk.transmitter := rfl
@[simp] theorem State.setBreak_clk_ready (s : State) (x y : Bool) : (s.setBreak x y).clk.ready = s.clk.ready := rfl
@[simp] theorem State.setBreak_clk_part (s : State) (x y : Bool) : (s.setBreak x y).clk.part = s.clk.part := rfl
@[simp] theorem State.setBreak_clk_lastReset (s : State) (x y : Bool) : (s.setBreak x y).clk.lastReset = s.clk.lastReset := rfl
@[simp] theorem State.setBreak_clk_pendingReset (s : State) (x y : Bool) : (s.setBreak x y).clk.pendingReset = s.clk.pendingReset := rfl
@[simp] theorem State.setBreak_clk_rate (s : State) (x y : Bool) : (s.setBreak x y).clk.rate = s.clk.rate := rfl
@[simp] theorem State.setBreak_pending (s : State) (x y : Bool) : (s.setBreak x y).pending = s.pending := rfl
@[simp] theorem State.setBreak_freeCount (s : State) (x y : Bool) : (s.setBreak x y).freeCount = s.freeCount := rfl

/-! ## `State.enterReady` -/

@[simp] theorem State.enterReady_lpt (s : State) : (s.enterReady).lpt = s.lpt := rfl
@[simp] theorem State.enterReady_pch (s : State) : (s.enterReady).pch = s.pch := rfl
@[simp] theorem State.enterReady_ecr (s : State) : (s.enterReady).ecr = s.ecr := rfl
@[simp] theorem State.enterReady_fga (s : State) : (s.enterReady).fga = s.fga := rfl
@[simp] theorem State.enterReady_cen (s : State) : (s.enterReady).cen = s.cen := rfl
@[simp] theorem State.enterReady_flo (s : State) : (s.enterReady).flo = s.flo := rfl
@[simp] theorem State.enterReady_isu (s : State) : (s.enterReady).isu = s.isu := rfl
@[simp] theorem State.enterReady_bst (s : State) : (s.enterReady).bst = s.bst := rfl
@[simp] theorem State.enterReady_clk_assembler (s : State) : (s.enterReady).clk.assembler = s.clk.assembler := rfl
@[simp] theorem State.enterReady_clk_levels (s : State) : (s.enterReady).clk.levels = s.clk.levels := rfl
@[simp] theorem State.enterReady_clk_replies (s : State) : (s.enterReady).clk.replies = s.clk.replies := rfl
@[simp] theorem State.enterReady_clk_reports (s : State) : (s.enterReady).clk.reports = s.clk.reports := rfl
@[simp] theorem State.enterReady_clk_transmitter (s : State) : (s.enterReady).clk.transmitter = s.clk.transmitter := rfl
@[simp] theorem State.enterReady_clk_ready (s : State) : (s.enterReady).clk.ready = s.clk.ready := rfl
@[simp] theorem State.enterReady_clk_lastReset (s : State) : (s.enterReady).clk.lastReset = s.clk.lastReset := rfl
@[simp] theorem State.enterReady_clk_pendingReset (s : State) : (s.enterReady).clk.pendingReset = s.clk.pendingReset := rfl
@[simp] theorem State.enterReady_clk_rate (s : State) : (s.enterReady).clk.rate = s.clk.rate := rfl
@[simp] theorem State.enterReady_clk_lineAtSpace (s : State) : (s.enterReady).clk.lineAtSpace = s.clk.lineAtSpace := rfl
@[simp] theorem State.enterReady_clk_breakSpent (s : State) : (s.enterReady).clk.breakSpent = s.clk.breakSpent := rfl
@[simp] theorem State.enterReady_pending (s : State) : (s.enterReady).pending = s.pending := rfl
@[simp] theorem State.enterReady_freeCount (s : State) : (s.enterReady).freeCount = s.freeCount := rfl

/-! ## `State.takeFree` -/

@[simp] theorem State.takeFree_lpt (s : State) : (s.takeFree).lpt = s.lpt := rfl
@[simp] theorem State.takeFree_pch (s : State) : (s.takeFree).pch = s.pch := rfl
@[simp] theorem State.takeFree_ecr (s : State) : (s.takeFree).ecr = s.ecr := rfl
@[simp] theorem State.takeFree_fga (s : State) : (s.takeFree).fga = s.fga := rfl
@[simp] theorem State.takeFree_cen (s : State) : (s.takeFree).cen = s.cen := rfl
@[simp] theorem State.takeFree_flo (s : State) : (s.takeFree).flo = s.flo := rfl
@[simp] theorem State.takeFree_isu (s : State) : (s.takeFree).isu = s.isu := rfl
@[simp] theorem State.takeFree_bst (s : State) : (s.takeFree).bst = s.bst := rfl
@[simp] theorem State.takeFree_clk (s : State) : (s.takeFree).clk = s.clk := rfl
@[simp] theorem State.takeFree_pending (s : State) : (s.takeFree).pending = s.pending := rfl

end Sys2Proof.Machine
end

