-- ==== Sys2Proof/Laws/Requests.lean ====
section
/-! SUPPORT. Everything taking a request can do: the reply that ends the event, and which of discard, refusal and acceptance
the link comes to (R176, R179 to R182). -/

namespace Sys2Proof.Machine

variable {s t : State} {h : Header} {src : Source} {effective needed : Level} {kind : Byte} {wellMade : Bool}
  {act : Asker → State → Answer} {data : List Byte} {r : Reason}

/-- An identifier in range is that identifier. -/
theorem inRange_of_eq {n x : Nat} {k : Fin n} (hx : x = k.val) : inRange n x = some k := by
  subst hx; simp [inRange]

/-- An identifier out of range is none. -/
theorem inRange_none {n x : Nat} (hx : n ≤ x) : inRange n x = none := by
  simp [inRange, Nat.not_lt.mpr hx]

/-- An identifier read in range has the number it was read from. -/
theorem inRange_some {n x : Nat} {k : Fin n} (hx : inRange n x = some k) : x = k.val := by
  unfold inRange at hx; split at hx <;> cases hx; rfl

/-- A queued reply followed by the end of the event is `withReply`. -/
theorem queueReply_concludeEvent (t : State) (f : LinkFrame) : (t.queueReply f).concludeEvent = t.withReply f := by
  obtain ⟨_, _, _, _, _, _, _, _, ⟨a, l, replies, reports, tr, rdy, part, lr, pr, rate, ls, bs⟩, _, _⟩ := t
  cases tr <;> cases replies <;>
    simp [State.queueReply, State.setReplies, State.concludeEvent, State.chooseNext, State.withReply, readyOf,
      State.setTransmitter]

theorem discards_of_room (h1 : s.clk.replies.length < 8) (h2 : s.clk.pendingReset = none) : s.discards = false := by
  simp [State.discards, readyOf, h1, h2]

/-- No source of that number: nothing happens (R176). -/
theorem takeFrame_noSource (hs : 8 ≤ h.source.toNat) : s.takeFrame h kind wellMade needed act = s := by
  simp [State.takeFrame, inRange_none hs]

/-- No room for a reply, or a reset pending: nothing happens (R182). -/
theorem takeFrame_discarded (hd : 8 ≤ s.clk.replies.length ∨ s.clk.pendingReset ≠ none) :
    s.takeFrame h kind wellMade needed act = s := by
  have : s.discards = true := by
    unfold State.discards readyOf
    rcases hd with hd | hd
    · simp [Nat.not_lt.mpr hd]
    · cases hp : s.clk.pendingReset <;> simp_all
  unfold State.takeFrame
  split
  · rfl
  · simp [this]

/-- The request is judged once a reply has room. -/
theorem takeFrame_judged (hs : h.source.toNat = src.val) (h1 : s.clk.replies.length < 8) (h2 : s.clk.pendingReset = none) :
    s.takeFrame h kind wellMade needed act
      = (s.answerRequest src h.tag kind (s.judgeRequest src h kind wellMade needed act)).concludeEvent := by
  simp [State.takeFrame, inRange_of_eq hs, discards_of_room h1 h2]

/-- An accepted request: the state the block made, with the ACCEPTED reply queued. -/
theorem answered_ok (ha : s.judgeRequest src h kind wellMade needed act = .ok (t, data)) :
    (s.answerRequest src h.tag kind (s.judgeRequest src h kind wellMade needed act)).concludeEvent
      = t.withReply (acceptedReply src h kind data) := by
  rw [ha]; exact queueReply_concludeEvent _ _

/-- A refused request: the state as it was, with the REFUSED reply queued. -/
theorem answered_error (ha : s.judgeRequest src h kind wellMade needed act = .error r) :
    (s.answerRequest src h.tag kind (s.judgeRequest src h kind wellMade needed act)).concludeEvent
      = s.withReply (refusedReply src h kind r) := by
  rw [ha]; exact queueReply_concludeEvent _ _

/-- A request the link takes goes to its block. -/
theorem judgeRequest_takes (ht : s.takes h src effective needed) (hw : wellMade = true) :
    s.judgeRequest src h kind wellMade needed act = act { source := src, effective := effective } s := by
  obtain ⟨h1, -, -, -, ⟨acting, h5, h6⟩, h7⟩ := ht
  subst hw
  simp only [State.judgeRequest, h1, inRange_of_eq h5, State.effectiveLevel, ← h6]
  simp [Fin.not_lt.mpr h7]

/-- A request the link takes and its block accepts. -/
theorem takeFrame_accepts (ht : s.takes h src effective needed) (hw : wellMade = true)
    (ha : act { source := src, effective := effective } s = .ok (t, data)) :
    s.takeFrame h kind wellMade needed act = t.withReply (acceptedReply src h kind data) := by
  rw [takeFrame_judged ht.2.2.2.1 ht.2.1 ht.2.2.1]
  exact answered_ok ((judgeRequest_takes ht hw).trans ha)

/-- A request the link takes and its block refuses. -/
theorem takeFrame_refuses (ht : s.takes h src effective needed) (hw : wellMade = true)
    (ha : act { source := src, effective := effective } s = .error r) :
    s.takeFrame h kind wellMade needed act = s.withReply (refusedReply src h kind r) := by
  rw [takeFrame_judged ht.2.2.2.1 ht.2.1 ht.2.2.1]
  exact answered_error ((judgeRequest_takes ht hw).trans ha)

end Sys2Proof.Machine
end

