-- ==== Sys2Proof/Laws/Table.lean ====
section
/-! SUPPORT. Sparse memories: reading after writing, and the canonical form kept by every operation. -/

namespace Sys2Proof.Machine

variable {α : Type}

theorem tableGet_drop_same (d : α) (t : Table α) (k : Nat) : tableGet d (tableDrop t k) k = d := by
  induction t with
  | nil => rfl
  | cons c t ih =>
    obtain ⟨j, v⟩ := c
    by_cases h : j = k
    · simpa [tableDrop, h] using ih
    · simpa [tableDrop, tableGet, h] using ih

theorem tableGet_drop_ne (d : α) (t : Table α) {k j : Nat} (h : j ≠ k) : tableGet d (tableDrop t k) j = tableGet d t j := by
  induction t with
  | nil => rfl
  | cons c t ih =>
    obtain ⟨i, v⟩ := c
    by_cases hi : i = k
    · have : i ≠ j := fun e => h (e.symm.trans hi)
      simpa [tableDrop, tableGet, hi, Ne.symm h] using ih
    · by_cases hj : i = j
      · simp [tableDrop, tableGet, hj, h]
      · simpa [tableDrop, tableGet, hi, hj] using ih

theorem tableGet_insert_same (d : α) (t : Table α) (k : Nat) (v : α) : tableGet d (tableInsert k v t) k = v := by
  induction t with
  | nil => simp [tableInsert, tableGet]
  | cons c t ih =>
    obtain ⟨j, w⟩ := c
    by_cases h : j < k
    · simp [tableInsert, tableGet, h, Nat.ne_of_lt h, ih]
    · simp [tableInsert, tableGet, h]

theorem tableGet_insert_ne (d : α) (t : Table α) {k j : Nat} (v : α) (h : j ≠ k) :
    tableGet d (tableInsert k v t) j = tableGet d t j := by
  induction t with
  | nil => simp [tableInsert, tableGet, Ne.symm h]
  | cons c t ih =>
    obtain ⟨i, w⟩ := c
    by_cases hi : i < k
    · simp [tableInsert, tableGet, hi, ih]
    · simp [tableInsert, tableGet, hi, Ne.symm h]

/-- A read after a write to the same address gives the content written. -/
@[simp] theorem tableGet_tableSet_same [DecidableEq α] (d : α) (t : Table α) (k : Nat) (v : α) :
    tableGet d (tableSet d t k v) k = v := by
  unfold tableSet
  split
  · rename_i h; rw [tableGet_drop_same, h]
  · rw [tableGet_insert_same]

/-- A write leaves every other address alone. -/
theorem tableGet_tableSet_ne [DecidableEq α] (d : α) (t : Table α) {k j : Nat} (v : α) (h : j ≠ k) :
    tableGet d (tableSet d t k v) j = tableGet d t j := by
  unfold tableSet
  split
  · rw [tableGet_drop_ne _ _ h]
  · rw [tableGet_insert_ne _ _ _ h, tableGet_drop_ne _ _ h]

/-- A cleared run reads as unlisted. -/
theorem tableGet_tableClear_in (d : α) (t : Table α) {start length j : Nat} (h : start ≤ j ∧ j < start + length) :
    tableGet d (tableClear t start length) j = d := by
  induction t with
  | nil => rfl
  | cons c t ih =>
    obtain ⟨i, w⟩ := c
    by_cases hi : start ≤ i ∧ i < start + length
    · simpa [tableClear, hi.1, hi.2] using ih
    · have : i ≠ j := fun e => hi (e ▸ h)
      by_cases h1 : start ≤ i
      · have h2 : ¬ i < start + length := fun x => hi ⟨h1, x⟩
        simpa [tableClear, tableGet, h1, h2, this] using ih
      · simpa [tableClear, tableGet, h1, this] using ih

/-- Clearing a run leaves every other address alone. -/
theorem tableGet_tableClear_out (d : α) (t : Table α) {start length j : Nat} (h : ¬ (start ≤ j ∧ j < start + length)) :
    tableGet d (tableClear t start length) j = tableGet d t j := by
  induction t with
  | nil => rfl
  | cons c t ih =>
    obtain ⟨i, w⟩ := c
    by_cases hi : start ≤ i ∧ i < start + length
    · have : i ≠ j := fun e => h (e ▸ hi)
      simpa [tableClear, tableGet, hi.1, hi.2, this] using ih
    · have hk : (!(decide (start ≤ i) && decide (i < start + length))) = true := by
        by_cases h1 : start ≤ i
        · have h2 : ¬ i < start + length := fun x => hi ⟨h1, x⟩
          simp [h2]
        · simp [h1]
      have hc : tableClear ((i, w) :: t) start length = (i, w) :: tableClear t start length := by
        unfold tableClear; exact List.filter_cons_of_pos hk
      rw [hc]
      by_cases hj : i = j
      · simp [tableGet, hj]
      · simpa [tableGet, hj] using ih

/-! ## The canonical form -/

theorem Table.wf_nil (d : α) : Table.wf d [] := ⟨List.Pairwise.nil, fun _ h => nomatch h⟩

theorem Table.wf_filter {d : α} {t : Table α} (p : Nat × α → Bool) (h : Table.wf d t) : Table.wf d (t.filter p) :=
  ⟨h.1.filter p, fun c hc => h.2 c (List.mem_filter.1 hc).1⟩

theorem mem_tableInsert {k : Nat} {v : α} {t : Table α} {c : Nat × α} (h : c ∈ tableInsert k v t) :
    c = (k, v) ∨ c ∈ t := by
  induction t with
  | nil => exact .inl (List.mem_singleton.1 h)
  | cons e t ih =>
    obtain ⟨j, w⟩ := e
    unfold tableInsert at h
    split at h
    · rcases List.mem_cons.1 h with h | h
      · exact .inr (h ▸ List.mem_cons_self)
      · exact (ih h).imp id (List.mem_cons_of_mem _)
    · rcases List.mem_cons.1 h with h | h
      · exact .inl h
      · exact .inr h

theorem Table.wf_insert {d v : α} {t : Table α} {k : Nat} (h : Table.wf d t) (hk : ∀ c ∈ t, c.1 ≠ k) (hv : v ≠ d) :
    Table.wf d (tableInsert k v t) := by
  induction t with
  | nil => exact ⟨List.pairwise_singleton _ _, fun c hc => by rw [List.mem_singleton.1 hc]; exact hv⟩
  | cons e t ih =>
    obtain ⟨j, w⟩ := e
    have ht : Table.wf d t := ⟨(List.pairwise_cons.1 h.1).2, fun c hc => h.2 c (List.mem_cons_of_mem _ hc)⟩
    have hi := ih ht (fun c hc => hk c (List.mem_cons_of_mem _ hc))
    unfold tableInsert
    split
    · rename_i hj
      refine ⟨List.pairwise_cons.2 ⟨fun c hc => ?_, hi.1⟩, fun c hc => ?_⟩
      · rcases mem_tableInsert hc with rfl | hc
        · exact hj
        · exact (List.pairwise_cons.1 h.1).1 c hc
      · rcases List.mem_cons.1 hc with rfl | hc
        · exact h.2 _ List.mem_cons_self
        · exact hi.2 c hc
    · rename_i hj
      have hlt : k < j := by
        have := hk (j, w) List.mem_cons_self
        simp only at this; omega
      refine ⟨List.pairwise_cons.2 ⟨fun c hc => ?_, h.1⟩, fun c hc => ?_⟩
      · rcases List.mem_cons.1 hc with rfl | hc
        · exact hlt
        · exact Nat.lt_trans hlt ((List.pairwise_cons.1 h.1).1 c hc)
      · rcases List.mem_cons.1 hc with rfl | hc
        · exact hv
        · exact h.2 c hc

/-- A write keeps the canonical form. -/
theorem Table.wf_set [DecidableEq α] {d : α} {t : Table α} (k : Nat) (v : α) (h : Table.wf d t) :
    Table.wf d (tableSet d t k v) := by
  unfold tableSet
  split
  · exact Table.wf_filter _ h
  · rename_i hv
    refine Table.wf_insert (Table.wf_filter _ h) (fun c hc => ?_) hv
    have := (List.mem_filter.1 hc).2
    simpa using this

/-- Clearing a run keeps the canonical form. -/
theorem Table.wf_clear {d : α} {t : Table α} (start length : Nat) (h : Table.wf d t) : Table.wf d (tableClear t start length) :=
  Table.wf_filter _ h

/-- Mapping contents, no listed one to the unlisted content, keeps the canonical form. -/
theorem Table.wf_map {d : α} {t : Table α} (f : α → α) (hf : ∀ v, v ≠ d → f v ≠ d) (h : Table.wf d t) :
    Table.wf d (t.map (fun c => (c.1, f c.2))) := by
  refine ⟨List.pairwise_map.2 (h.1.imp id), fun c hc => ?_⟩
  obtain ⟨e, he, rfl⟩ := List.mem_map.1 hc
  exact hf _ (h.2 e he)

/-- Writing a run of store bytes keeps the canonical form. -/
theorem Table.wf_writeBytes {t : List Host.Cell} (l : List Byte) (h : Table.wf (0xFF : Byte) t) (a : Nat) :
    Table.wf (0xFF : Byte) (writeBytes t a l) := by
  induction l generalizing t a with
  | nil => exact h
  | cons b l ih => exact ih (Table.wf_set _ _ h) _

end Sys2Proof.Machine
end

