-- ==== Sys2Proof/Laws/Effects.lean ====
section
/-! SUPPORT. What the shared operations do, one lemma each: reads after writes, the queueing of origins, a condition's change, the
zeroing of a chain top, the end of an order, the end of slices, the dropping of slots, the failure of chains. -/

namespace Sys2Proof.Machine

/-! ## Reads after writes -/

variable {s : State}

/-- A field read after one of its places was written. -/
theorem vector_get_set {α : Type} {n : Nat} (v : Vector α n) (i j : Fin n) (x : α) :
    (v.set i x)[j] = if j = i then x else v[j] := by
  by_cases h : j = i
  · subst h; simp
  · have : i.val ≠ j.val := fun e => h (Fin.ext e.symm)
    simp [this, h]

theorem State.entry_setEntry {i j : Index} {e : Option Entry} :
    (s.setEntry i e).entry j = if j = i then e else s.entry j := by
  unfold State.entry State.setEntry
  by_cases h : j = i
  · subst h; simp [tableGet_tableSet_same]
  · simp [h, tableGet_tableSet_ne _ _ _ (fun e => h (Fin.ext e))]

theorem recordPlace_inj {i j : Index} {p q : Pair} : 16 * i.val + p.val = 16 * j.val + q.val ↔ i = j ∧ p = q := by
  constructor
  · intro h
    have := p.isLt
    have := q.isLt
    exact ⟨Fin.ext (by omega), Fin.ext (by omega)⟩
  · rintro ⟨rfl, rfl⟩; rfl

theorem State.record_setRecord {i j : Index} {p q : Pair} {r : AmpRecord} :
    (s.setRecord i p r).record j q = if j = i ∧ q = p then r else s.record j q := by
  unfold State.record State.setRecord
  by_cases h : j = i ∧ q = p
  · obtain ⟨rfl, rfl⟩ := h; simp [tableGet_tableSet_same]
  · rw [if_neg h]; exact tableGet_tableSet_ne _ _ _ (fun e => h (recordPlace_inj.1 e))

theorem State.channel_setChannel {c d : Chan} {ch : Channel} :
    (s.setChannel c ch).channel d = if d = c then ch else s.channel d := vector_get_set _ _ _ _

theorem State.campaign_setCampaign {n m : Slot} {c : Campaign} :
    (s.setCampaign n c).campaign m = if m = n then c else s.campaign m := vector_get_set _ _ _ _

theorem State.chain_setChain {p q : Pair} {l : List Slot} :
    (s.setChain p l).chain q = if q = p then l else s.chain q := vector_get_set _ _ _ _

theorem State.order_setOrder {k m : OrderNo} {o : Option Order} :
    (s.setOrder k o).order m = if m = k then o else s.order m := vector_get_set _ _ _ _

/-! ## Origins (R183) -/

theorem State.queueOrigin_eq (s : State) (o : Origin) : s.queueOrigin o = s.setReports (joined s.clk.reports [o]) := by
  unfold State.queueOrigin joined joined
  split <;> rfl

theorem joined_append (q : List Origin) (l m : List Origin) : joined q (l ++ m) = joined (joined q l) m := by
  induction l generalizing q with
  | nil => rfl
  | cons o l ih => exact ih _

/-! ## Conditions (R11) -/

/-- A condition's change writes its record and queues its pair, where it differs. -/
theorem State.setCondition_eq (s : State) (i : Index) (p : Pair) (c : Condition) :
    ∃ records : Table AmpRecord,
      s.setCondition i p c = { s with
        lpt := { s.lpt with records := records }
        clk := { s.clk with reports := joined s.clk.reports (if (s.record i p).condition = c then [] else [.pair p]) } }
      ∧ ∀ j q, (s.setCondition i p c).record j q = if j = i ∧ q = p then
          { s.record j q with condition := c, changed := (s.record j q).changed || !((s.record j q).condition == c) }
        else s.record j q := by
  unfold State.setCondition
  split
  · rename_i h
    refine ⟨s.lpt.records, by simp [joined], fun j q => ?_⟩
    split
    · rename_i hj; obtain ⟨rfl, rfl⟩ := hj; simp [h]; rw [← h]
    · rfl
  · rename_i h
    rw [State.queueOrigin_eq]
    refine ⟨_, rfl, fun j q => ?_⟩
    show (s.setRecord i p _).record j q = _
    rw [State.record_setRecord]
    split
    · rename_i hj; obtain ⟨rfl, rfl⟩ := hj; simp [h]
    · rfl

/-! ## The chain top (R92) -/

/-- Zeroing a chain top writes its campaign and its cells alone. -/
theorem State.zeroChainTop_eq (s : State) (p : Pair) : ∃ slots cells, s.topZeroed p slots cells
    ∧ s.zeroChainTop p = { s with ecr := { s.ecr with cells := cells }, cen := { s.cen with slots := slots } } := by
  unfold State.zeroChainTop State.chainTop
  cases h : (s.chain p).getLast? with
  | none =>
    have hn := List.getLast?_eq_none_iff.1 h
    exact ⟨s.cen.slots, s.ecr.cells, ⟨fun _ => ⟨rfl, rfl⟩, fun m hm => (by rw [h] at hm; cases hm)⟩, rfl⟩
  | some n =>
    refine ⟨_, _, ⟨fun hn => (by rw [hn] at h; cases h), fun m hm => ?_⟩, rfl⟩
    rw [h] at hm
    cases hm
    refine ⟨rfl, fun a => ?_⟩
    show tableGet 0 (zeroedCells s.ecr.cells (s.campaign n).extent) a = _
    unfold zeroedCells
    split
    · rename_i he; simp only [he]; rfl
    · rename_i start length he
      simp only [he]
      split
      · rename_i hi; exact tableGet_tableClear_in _ _ hi
      · rename_i hi; exact tableGet_tableClear_out _ _ hi

/-! ## The end of an order (R153) -/

/-- An order's end writes its record, the entry's mark, the ordered record and the report queue alone. -/
theorem State.endOrder_eq (s : State) (k : OrderNo) (o : Order) (x : OrderState) (r : Option Reason) (c : Condition) :
    ∃ entries records,
      s.endOrder k o x r c = { s with
        lpt := { s.lpt with entries := entries, records := records }
        isu := { s.isu with orders := s.isu.orders.set k (some { o with state := x, reason := r }) }
        clk := { s.clk with
          reports := joined s.clk.reports
            ((if (s.record o.entry o.pair).condition = c then [] else [.pair o.pair]) ++ [.order k]) } }
      ∧ s.orderMarks (s.endOrder k o x r c) o.entry o.pair c := by
  unfold State.endOrder
  dsimp only
  generalize hu : s.setOrder k (some { o with state := x, reason := r }) = u
  have hm : ∃ entries, u.setOrderMark o.entry false = { u with lpt := { u.lpt with entries := entries } }
      ∧ ∀ j, (u.setOrderMark o.entry false).entry j
          = if j = o.entry then (u.entry j).map (fun e => { e with mark := false }) else u.entry j := by
    unfold State.setOrderMark
    split
    · rename_i h
      refine ⟨u.lpt.entries, rfl, fun j => ?_⟩
      split
      · rename_i hj; subst hj; rw [h]; rfl
      · rfl
    · rename_i e h
      refine ⟨_, rfl, fun j => ?_⟩
      rw [State.entry_setEntry]
      split
      · rename_i hj; subst hj; rw [h]; rfl
      · rfl
  obtain ⟨entries, h1, h2⟩ := hm
  generalize hv : u.setOrderMark o.entry false = v at h1 h2
  obtain ⟨records, h3, h4⟩ := State.setCondition_eq v o.entry o.pair c
  have hr : ∀ j q, v.record j q = s.record j q := by rw [h1, ← hu]; intro j q; rfl
  rw [State.queueOrigin_eq, h3]
  refine ⟨entries, records, ?_, ?_, ?_⟩
  · rw [joined_append, hr]
    show (_ : State) = _
    rw [h1, ← hu]
    rfl
  · intro j
    have := h2 j
    rw [h1, ← hu] at this
    rw [h1, ← hu]
    exact this
  · intro j q
    have := h4 j q
    rw [h3] at this
    simp only [hr] at this
    exact this

/-! ## Slices and slots -/

theorem mem_allChannels (c : Chan) : c ∈ allChannels := by revert c; decide

/-- The release of a slot's slice ends it on the one channel it holds (R46). -/
theorem State.endSlice_eq {s : State} {n : Slot} (h : s.oneChannelEach [n]) :
    s.slicesEnded (s.endSlice n) [n]
      ∧ s.endSlice n = { s with pch := { s.pch with channels := (s.endSlice n).pch.channels } } := by
  unfold State.endSlice
  cases hc : s.sliceChannel n with
  | none =>
    refine ⟨fun c => ⟨?_, fun _ => rfl⟩, rfl⟩
    rintro ⟨m, hm, k, lit, hh⟩
    rw [List.mem_singleton.1 hm] at hh
    have := List.find?_eq_none.1 hc c (mem_allChannels c)
    simp [hh] at this
  | some d =>
    have hd : ∃ k lit, (s.channel d).holder = some (.slice n k lit) := by
      have := List.find?_some hc
      split at this
      · rename_i m k lit he
        exact ⟨k, lit, by rw [he, show m = n by simpa using this]⟩
      · cases this
    obtain ⟨k, lit, hd⟩ := hd
    refine ⟨fun c => ⟨?_, fun hn => ?_⟩, rfl⟩
    · rintro ⟨m, hm, k', lit', hh⟩
      rw [List.mem_singleton.1 hm] at hh
      have : c = d := h c d n k' lit' k lit (List.mem_singleton.2 rfl) hh hd
      subst this
      simp only [State.channel_setChannel, if_true]
    · have : c ≠ d := fun e => hn n (List.mem_singleton.2 rfl) k lit (e ▸ hd)
      simp only [State.channel_setChannel, this, if_false]

theorem State.slicesEnded_holder {s t : State} {l : List Slot} (h : s.slicesEnded t l) (c : Chan) :
    (t.channel c).holder = none ∨ t.channel c = s.channel c := by
  by_cases hc : ∃ m ∈ l, ∃ k lit, (s.channel c).holder = some (.slice m k lit)
  · exact .inl (by rw [(h c).1 hc])
  · exact .inr ((h c).2 (fun m hm k lit e => hc ⟨m, hm, k, lit, e⟩))

theorem State.oneChannelEach_after {s t : State} {l m : List Slot} (h : s.slicesEnded t l) (hm : s.oneChannelEach m) :
    t.oneChannelEach m := by
  intro c d n k x k' x' hn hc hd
  rcases State.slicesEnded_holder h c with e | e
  · rw [e] at hc; cases hc
  · rcases State.slicesEnded_holder h d with e' | e'
    · rw [e'] at hd; cases hd
    · exact hm c d n k x k' x' hn (e ▸ hc) (e' ▸ hd)

/-- Slices ended one list after another. -/
theorem State.slicesEnded_append {s t u : State} {l m : List Slot} (h1 : s.slicesEnded t l) (h2 : t.slicesEnded u m) :
    s.slicesEnded u (l ++ m) := by
  refine fun c => ⟨?_, fun hn => ?_⟩
  · rintro ⟨n, hn, k, lit, hh⟩
    by_cases hc : ∃ m ∈ l, ∃ k lit, (s.channel c).holder = some (.slice m k lit)
    · have e := (h1 c).1 hc
      have hu : u.channel c = t.channel c := (h2 c).2 (fun _ _ _ _ x => by rw [e] at x; cases x)
      rw [hu, e]
    · have e : t.channel c = s.channel c := (h1 c).2 (fun m hm k lit e => hc ⟨m, hm, k, lit, e⟩)
      have hm : n ∈ m := by
        rcases List.mem_append.1 hn with h | h
        · exact absurd ⟨n, h, k, lit, hh⟩ hc
        · exact h
      have := (h2 c).1 ⟨n, hm, k, lit, by rw [e]; exact hh⟩
      rw [this, e]
  · have e : t.channel c = s.channel c := (h1 c).2 (fun m hm => hn m (List.mem_append_left _ hm))
    rw [(h2 c).2 (fun m hm k lit => by rw [e]; exact hn m (List.mem_append_right _ hm) k lit), e]

theorem State.slicesEnded_nil (s : State) : s.slicesEnded s [] := fun _ => ⟨fun h => (by obtain ⟨_, h, _⟩ := h; cases h), fun _ => rfl⟩

theorem State.slicesEnded_of_channels {s t u : State} {l : List Slot} (h : s.slicesEnded t l) (e : u.pch.channels = t.pch.channels) :
    s.slicesEnded u l := by
  intro c
  have : u.channel c = t.channel c := by unfold State.channel; rw [e]
  rw [this]; exact h c

theorem State.slicesEnded_of_channels' {s t u : State} {l : List Slot} (h : s.slicesEnded t l) (e : u.pch.channels = s.pch.channels) :
    u.slicesEnded t l := by
  intro c
  have : u.channel c = s.channel c := by unfold State.channel; rw [e]
  rw [this]; exact h c

/-- Slots that left their chain: FREE, their extents released, their slices ended, their origins withdrawn (R45, R46, R75). -/
def State.slotsDropped (s t : State) (l : List Slot) : Prop :=
  s.slicesEnded t l ∧ (∀ m ∈ l, t.campaign m = {}) ∧ (∀ m, m ∉ l → t.campaign m = s.campaign m)
    ∧ t = { s with
        pch := { s.pch with channels := t.pch.channels }
        ecr := { s.ecr with extents := s.ecr.extents.filter (fun e => !l.contains e.slot) }
        cen := { s.cen with slots := t.cen.slots }
        clk := { s.clk with reports := s.clk.reports.filter (fun x => !(l.map Origin.campaign).contains x) } }

theorem State.dropSlot_eq {s : State} {n : Slot} (h : s.oneChannelEach [n]) : s.slotsDropped (s.dropSlot n) [n] := by
  obtain ⟨h1, h2⟩ := State.endSlice_eq h
  unfold State.dropSlot State.releaseExtent State.dropExtent State.freeUp
  generalize hv : s.endSlice n = v at h1 h2
  refine ⟨State.slicesEnded_of_channels h1 rfl, ?_, ?_, ?_⟩
  · intro m hm
    show ((v.setExtents _ |>.setCampaign n _).setCampaign n {}).campaign m = _
    rw [State.campaign_setCampaign, if_pos (List.mem_singleton.1 hm)]
  · intro m hm
    have hm : m ≠ n := fun e => hm (List.mem_singleton.2 e)
    show ((v.setExtents _ |>.setCampaign n _).setCampaign n {}).campaign m = _
    rw [State.campaign_setCampaign, if_neg hm, State.campaign_setCampaign, if_neg hm, h2]; rfl
  · rw [h2]
    simp only [State.withdrawOrigin, State.setReports, State.setCampaign, State.setExtents]
    congr 1
    · congr 1
      refine List.filter_congr (fun x _ => ?_)
      simp [List.contains_eq_mem]
      rfl
    · congr 1
      refine List.filter_congr (fun x _ => ?_)
      simp [List.contains_eq_mem]
      rfl

theorem State.oneChannelEach_mono {s : State} {l m : List Slot} (h : s.oneChannelEach l) (hs : ∀ x ∈ m, x ∈ l) : s.oneChannelEach m :=
  fun c d n k x k' x' hn => h c d n k x k' x' (hs n hn)

theorem State.slotsDropped_append {s t u : State} {l m : List Slot} (h1 : s.slotsDropped t l) (h2 : t.slotsDropped u m) :
    s.slotsDropped u (l ++ m) := by
  obtain ⟨a1, a2, a3, a4⟩ := h1
  obtain ⟨b1, b2, b3, b4⟩ := h2
  refine ⟨State.slicesEnded_append a1 b1, ?_, ?_, ?_⟩
  · intro x hx
    by_cases hm : x ∈ m
    · exact b2 x hm
    · rw [b3 x hm]; exact a2 x ((List.mem_append.1 hx).resolve_right hm)
  · intro x hx
    rw [b3 x (fun h => hx (List.mem_append_right _ h)), a3 x (fun h => hx (List.mem_append_left _ h))]
  · rw [b4, a4]
    simp only [List.filter_filter]
    congr 1
    · congr 1
      refine List.filter_congr (fun x _ => ?_)
      simp [List.contains_eq_mem, Bool.and_comm]
    · congr 1
      refine List.filter_congr (fun x _ => ?_)
      simp [List.contains_eq_mem, Bool.and_comm]

/-- Slots dropped one after another. -/
theorem State.dropSlots_eq {s : State} {l : List Slot} (h : s.oneChannelEach l) : s.slotsDropped (s.dropSlots l) l := by
  induction l generalizing s with
  | nil =>
    refine ⟨State.slicesEnded_nil s, fun m hm => (nomatch hm), fun _ _ => rfl, ?_⟩
    rw [show s.dropSlots [] = s from rfl]
    simp
  | cons n l ih =>
    have h1 := State.dropSlot_eq (State.oneChannelEach_mono h (m := [n]) (by simp))
    have h2 := ih (s := s.dropSlot n) (State.oneChannelEach_after h1.1 (State.oneChannelEach_mono h (m := l) (by simp +contextual)))
    exact State.slotsDropped_append h1 h2

theorem joined_filter {q : List Origin} {o : Origin} {P : Origin → Bool} (h : P o = true) :
    joined (q.filter P) [o] = (joined q [o]).filter P := by
  unfold joined joined
  by_cases ho : o ∈ q
  · rw [if_pos ho, if_pos (List.mem_filter.2 ⟨ho, h⟩)]
  · rw [if_neg ho, if_neg (fun x => ho (List.mem_filter.1 x).1), List.filter_append]
    simp [h]

theorem joined_filter_list {q l : List Origin} {P : Origin → Bool} (h : ∀ o ∈ l, P o = true) :
    joined (q.filter P) l = (joined q l).filter P := by
  induction l generalizing q with
  | nil => rfl
  | cons o l ih =>
    have e1 : ∀ q', joined q' (o :: l) = joined (joined q' [o]) l := fun q' => joined_append q' [o] l
    rw [e1, e1, joined_filter (h o List.mem_cons_self), ih (fun x hx => h x (List.mem_cons_of_mem _ hx))]

/-- What a chain failure can do (R91). -/
theorem State.failChain_eq {s : State} {p : Pair} {reason : Reason} (h : s.chainsApart [p]) :
    s.chainsFailed (s.failChain p reason) [p] reason
      ∧ s.failChain p reason = { s with
          pch := { s.pch with channels := (s.failChain p reason).pch.channels }
          ecr := { s.ecr with extents := (s.failChain p reason).ecr.extents }
          cen := { s.cen with slots := (s.failChain p reason).cen.slots, chains := (s.failChain p reason).cen.chains }
          clk := { s.clk with reports := (s.failChain p reason).clk.reports } } := by
  obtain ⟨h1, h2, h3⟩ := h
  simp only [List.flatMap_cons, List.flatMap_nil, List.append_nil] at h1 h2
  cases hc : s.chain p with
  | nil =>
    rw [show s.failChain p reason = s by unfold State.failChain; rw [hc]]
    refine ⟨⟨?_, ?_, fun _ _ => rfl, ?_, ?_, ?_⟩, rfl⟩
    · intro q; split
      · rename_i hq; rw [List.mem_singleton.1 hq, hc]
      · rfl
    · intro q hq root above e
      rw [List.mem_singleton.1 hq, hc] at e; cases e
    · simp [hc]
    · simpa [hc] using State.slicesEnded_nil s
    · simp [hc, joined]
  | cons root above =>
    rw [show s.failChain p reason = (((s.dropSlots above).releaseExtent root).setChain p []).failRoot root reason by
      unfold State.failChain; rw [hc]]
    rw [hc] at h1 h2
    have hr := h3 p (List.mem_singleton.2 rfl) root (by rw [hc]; rfl)
    have hnot := (List.nodup_cons.1 h1).1
    have d := State.dropSlots_eq (State.oneChannelEach_mono h2 (m := above) (by simp +contextual))
    generalize hv : s.dropSlots above = v at d
    have e := State.endSlice_eq (State.oneChannelEach_after d.1 (State.oneChannelEach_mono h2 (m := [root]) (by simp)))
    have hcr : (v.releaseExtent root).campaign root = { s.campaign root with extent := none } := by
      unfold State.releaseExtent State.dropExtent
      show ((v.endSlice root).setExtents _ |>.setCampaign root _).campaign root = _
      rw [State.campaign_setCampaign, if_pos rfl]
      have : ((v.endSlice root).setExtents ((v.endSlice root).ecr.extents.filter (fun e => !(e.slot == root)))).campaign root = s.campaign root := by
        show (v.endSlice root).campaign root = _
        rw [e.2]
        exact d.2.2.1 root hnot
      rw [this]
    generalize hw : (v.releaseExtent root).setChain p [] = w
    have hwc : w.campaign root = { s.campaign root with extent := none } := by rw [← hw]; exact hcr
    have hf : w.failRoot root reason = (w.setCampaign root { s.campaign root with
          state := if (s.campaign root).origin = .periodic then .idlePeriodic else .failed
          failure := some reason, cursor := none, extent := none }).setReports (joined w.clk.reports [.campaign root]) := by
      unfold State.failRoot
      rw [hwc]
      simp only
      cases ho : (s.campaign root).origin with
      | order => exact absurd ho hr
      | demand => simp only [State.queueOrigin_eq]; rfl
      | child => simp only [State.queueOrigin_eq]; rfl
      | periodic => simp only [State.queueOrigin_eq]; rfl
    rw [hf]
    have hs : s.slicesEnded (v.endSlice root) (above ++ [root]) := State.slicesEnded_append d.1 e.1
    refine ⟨⟨?_, ?_, ?_, ?_, ?_, ?_⟩, ?_⟩
    · intro q
      show w.chain q = _
      rw [← hw, State.chain_setChain]
      split
      · rename_i hq; rw [if_pos (List.mem_singleton.2 hq)]
      · rename_i hq; rw [if_neg (fun x => hq (List.mem_singleton.1 x))]
        show (v.endSlice root).chain q = _
        rw [e.2, d.2.2.2]; rfl
    · intro q hq root' above' hcq
      rw [List.mem_singleton.1 hq, hc] at hcq
      cases hcq
      refine ⟨?_, fun m hm => ?_⟩
      · show (w.setCampaign root _).campaign root = _
        rw [State.campaign_setCampaign, if_pos rfl]
      · have hmr : m ≠ root := fun e => hnot (e ▸ hm)
        show (w.setCampaign root _).campaign m = _
        rw [State.campaign_setCampaign, if_neg hmr, ← hw]
        show ((v.endSlice root).setCampaign root _).campaign m = _
        rw [State.campaign_setCampaign, if_neg hmr, e.2]
        exact d.2.1 m hm
    · intro m hm
      simp only [List.flatMap_cons, List.flatMap_nil, List.append_nil, hc, List.mem_cons, not_or] at hm
      show (w.setCampaign root _).campaign m = _
      rw [State.campaign_setCampaign, if_neg hm.1, ← hw]
      show ((v.endSlice root).setCampaign root _).campaign m = _
      rw [State.campaign_setCampaign, if_neg hm.1, e.2]
      exact d.2.2.1 m hm.2
    · show w.ecr.extents = _
      rw [← hw]
      show (v.endSlice root).ecr.extents.filter _ = _
      rw [e.2, d.2.2.2]
      simp only [List.filter_filter]
      refine List.filter_congr (fun x _ => ?_)
      by_cases h1 : x.slot = root <;> by_cases h2 : x.slot ∈ above <;> simp [hc, h1, h2, List.contains_eq_mem]
    · simp only [List.flatMap_cons, List.flatMap_nil, List.append_nil, hc]
      have : s.slicesEnded (v.endSlice root) (root :: above) := by
        intro c
        have := hs c
        simp only [List.mem_append, List.mem_cons, List.not_mem_nil, or_false] at this ⊢
        refine ⟨fun ⟨m, hm, x⟩ => this.1 ⟨m, hm.symm, x⟩, fun hn => this.2 (fun m hm => hn m hm.symm)⟩
      exact State.slicesEnded_of_channels this (by rw [← hw]; rfl)
    · show joined w.clk.reports [.campaign root] = _
      have : w.clk.reports = s.clk.reports.filter (fun x => !(above.map Origin.campaign).contains x) := by
        rw [← hw]
        show (v.endSlice root).clk.reports = _
        rw [e.2, d.2.2.2]
      rw [this]
      simp [hc]
    · rw [← hw]
      have e2 : v.endSlice root = { v with pch := { v.pch with channels := (v.endSlice root).pch.channels } } := e.2
      simp only [State.setReports, State.setCampaign, State.setChain, State.releaseExtent, State.dropExtent, State.setExtents]
      rw [e2, d.2.2.2]

/-- Chains failed one after another: a pair with its chain joins those that have failed. -/
theorem State.chainsFailed_snoc {s t u : State} {l : List Pair} {p : Pair} {reason : Reason} (hp : p ∉ l)
    (hd : ((l ++ [p]).flatMap s.chain).Nodup) (h1 : s.chainsFailed t l reason) (h2 : t.chainsFailed u [p] reason) :
    s.chainsFailed u (l ++ [p]) reason := by
  obtain ⟨a1, a2, a3, a4, a5, a6⟩ := h1
  obtain ⟨b1, b2, b3, b4, b5, b6⟩ := h2
  have hcp : t.chain p = s.chain p := by rw [a1, if_neg hp]
  simp only [List.flatMap_append, List.flatMap_cons, List.flatMap_nil, List.append_nil] at hd
  have hdis : ∀ m ∈ s.chain p, m ∉ l.flatMap s.chain := fun m hm hl => (List.nodup_append.1 hd).2.2 m hl m hm rfl
  have hnp : [p].flatMap t.chain = s.chain p := by simp [hcp]
  rw [hnp] at b3 b4 b5
  refine ⟨?_, ?_, ?_, ?_, ?_, ?_⟩
  · intro q
    rw [b1, a1]
    by_cases hq : q = p
    · subst hq; simp
    · by_cases hl : q ∈ l <;> simp [hq, hl]
  · intro q hq root above hc
    rcases List.mem_append.1 hq with hl | hl
    · have hroot : ∀ m ∈ root :: above, m ∉ s.chain p := fun m hm hcm => hdis m hcm (List.mem_flatMap.2 ⟨q, hl, hc ▸ hm⟩)
      obtain ⟨x1, x2⟩ := a2 q hl root above hc
      refine ⟨by rw [b3 root (hroot root List.mem_cons_self), x1], fun m hm => ?_⟩
      rw [b3 m (hroot m (List.mem_cons_of_mem _ hm)), x2 m hm]
    · have hqp : q = p := List.mem_singleton.1 hl
      subst hqp
      obtain ⟨x1, x2⟩ := b2 q (List.mem_singleton.2 rfl) root above (by rw [hcp, hc])
      have : t.campaign root = s.campaign root := a3 root (hdis root (by rw [hc]; exact List.mem_cons_self))
      refine ⟨by rw [x1, this], x2⟩
  · intro m hm
    simp only [List.flatMap_append, List.flatMap_cons, List.flatMap_nil, List.append_nil, List.mem_append, not_or] at hm
    rw [b3 m hm.2, a3 m hm.1]
  · rw [b4, a4, List.filter_filter]
    refine List.filter_congr (fun x _ => ?_)
    simp [List.contains_eq_mem, Bool.and_comm]
  · have := State.slicesEnded_append a5 b5
    simpa using this
  · rw [b6, a6]
    have e1 : [p].flatMap (fun q => (t.chain q).tail) = (s.chain p).tail := by simp [hcp]
    have e2 : [p].flatMap (fun q => (t.chain q).take 1) = (s.chain p).take 1 := by simp [hcp]
    rw [e1, e2]
    simp only [List.flatMap_append, List.flatMap_cons, List.flatMap_nil, List.append_nil, List.map_append]
    rw [joined_append, ← joined_filter_list, List.filter_filter]
    · congr 2
      refine List.filter_congr (fun x _ => ?_)
      simp [List.contains_eq_mem, Bool.and_comm]
    · intro o ho
      obtain ⟨m, hm, rfl⟩ := List.mem_map.1 ho
      obtain ⟨q, hq, hmq⟩ := List.mem_flatMap.1 hm
      have hmq : m ∈ s.chain q := List.mem_of_mem_take hmq
      simp only [List.contains_eq_mem, Bool.not_eq_true', decide_eq_false_iff_not, List.mem_map, not_exists, not_and]
      intro x hx e
      have : x = m := by injection e
      subst this
      exact hdis x (List.mem_of_mem_tail hx) (List.mem_flatMap.2 ⟨q, hq, hmq⟩)

/-- The state beside what a chain failure may write. -/
def State.sameButChains (s t : State) : Prop :=
  t = { s with
    pch := { s.pch with channels := t.pch.channels }
    ecr := { s.ecr with extents := t.ecr.extents }
    cen := { s.cen with slots := t.cen.slots, chains := t.cen.chains }
    clk := { s.clk with reports := t.clk.reports } }

/-- The chains that an accepted ROUTE order fails: those of the pairs whose path list holds the unit, in ascending order (R149;
log 36). -/
theorem State.failRoutedChains_eq {s : State} {i : Index} {failing : List Pair}
    (hf : failing = allPairs.filter (fun q => (s.path q).any (fun x => x.entry == i))) (h : s.chainsApart failing) :
    s.chainsFailed (s.failRoutedChains i) failing .pathChanged ∧ s.sameButChains (s.failRoutedChains i) := by
  subst hf
  suffices H : ∀ (rest done : List Pair) (t : State), (done ++ rest.filter (fun q => s.pathHolds q i)).Nodup →
      s.chainsApart (done ++ rest.filter (fun q => s.pathHolds q i)) → s.chainsFailed t done .pathChanged → s.sameButChains t →
      s.chainsFailed (rest.foldl (fun s p => if s.pathHolds p i then s.failChain p .pathChanged else s) t)
          (done ++ rest.filter (fun q => s.pathHolds q i)) .pathChanged
        ∧ s.sameButChains (rest.foldl (fun s p => if s.pathHolds p i then s.failChain p .pathChanged else s) t) by
    exact H allPairs [] s (List.Nodup.filter _ (by decide)) h
      ⟨fun q => by simp, fun q hq => (nomatch hq), fun _ _ => rfl, by simp, State.slicesEnded_nil s, by simp [joined]⟩ rfl
  intro rest
  induction rest with
  | nil => intro done t _ _ h1 h2; simpa using ⟨h1, h2⟩
  | cons p rest ih =>
    intro done t hn ha h1 h2
    have hb : t.pathHolds p i = s.pathHolds p i := by unfold State.pathHolds State.path; rw [h2]
    rw [List.foldl_cons, hb]
    cases hh : s.pathHolds p i with
    | false =>
      simp only [List.filter_cons, hh, Bool.false_eq_true, if_false] at hn ha ⊢
      exact ih done t hn ha h1 h2
    | true =>
    simp only [List.filter_cons, hh, if_true] at hn ha ⊢
    have hp : p ∉ done := fun hp => (List.nodup_append.1 hn).2.2 p hp p List.mem_cons_self rfl
    have hd : ((done ++ [p]).flatMap s.chain).Nodup := by
      have := ha.1
      rw [← List.singleton_append, ← List.append_assoc, List.flatMap_append] at this
      exact (List.nodup_append.1 this).1
    have hcp : t.chain p = s.chain p := by rw [h1.1, if_neg hp]
    have hdis : ∀ m ∈ s.chain p, m ∉ done.flatMap s.chain := by
      simp only [List.flatMap_append, List.flatMap_cons, List.flatMap_nil, List.append_nil] at hd
      exact fun m hm hl => (List.nodup_append.1 hd).2.2 m hl m hm rfl
    have hap : t.chainsApart [p] := by
      refine ⟨?_, ?_, ?_⟩
      · simp only [List.flatMap_cons, List.flatMap_nil, List.append_nil, hcp]
        simp only [List.flatMap_append, List.flatMap_cons, List.flatMap_nil, List.append_nil] at hd
        exact (List.nodup_append.1 hd).2.1
      · simp only [List.flatMap_cons, List.flatMap_nil, List.append_nil, hcp]
        refine State.oneChannelEach_after h1.2.2.2.2.1 (State.oneChannelEach_mono ha.2.1 ?_)
        intro x hx
        exact List.mem_flatMap.2 ⟨p, by simp, hx⟩
      · intro q hq m hm
        rw [List.mem_singleton.1 hq, hcp] at hm
        have hmem : m ∈ s.chain p := List.mem_of_head? hm
        rw [h1.2.2.1 m (hdis m hmem)]
        exact ha.2.2 p (by simp) m hm
    obtain ⟨f1, f2⟩ := State.failChain_eq (reason := .pathChanged) hap
    have := ih (done ++ [p]) (t.failChain p .pathChanged) (by simpa using hn) (by simpa using ha)
      (State.chainsFailed_snoc hp hd h1 f1) (by unfold State.sameButChains at h2 ⊢; rw [f2]; rw [h2])
    simpa using this

theorem mem_allOrders (k : OrderNo) : k ∈ allOrders := by revert k; decide

/-- The order whose confirm stands in a slot is found (R150). -/
theorem State.confirmOrder_eq {s : State} {k : OrderNo} {o : Order} {n : Slot} (h : s.confirms k o n) : s.confirmOrder n = some (k, o) := by
  obtain ⟨h1, h2, h3, h4⟩ := h
  unfold State.confirmOrder
  cases hf : allOrders.findSome? (fun k => match s.order k with
      | some o => if o.state = .confirming ∧ o.reserved = n then some (k, o) else none
      | none => none) with
  | none =>
    have := List.findSome?_eq_none_iff.1 hf k (mem_allOrders k)
    rw [h1] at this
    simp [h2, h3] at this
  | some x =>
    obtain ⟨j, hj, hx⟩ := List.exists_of_findSome?_eq_some hf
    cases ho : s.order j with
    | none => rw [ho] at hx; cases hx
    | some y =>
      rw [ho] at hx
      simp only at hx
      split at hx
      · rename_i hy
        cases hx
        by_cases e : j = k
        · subst e; rw [h1] at ho; cases ho; rfl
        · exact absurd hy.2 (h4 j y e ho hy.1)
      · cases hx

/-! ## Chains failed whatever their roots (R91) -/

/-- A failed confirm leaves the chains, the channels and the paths as they were. -/
theorem State.failRoot_keeps (s : State) (n : Slot) (reason : Reason) :
    (s.failRoot n reason).cen.chains = s.cen.chains ∧ (s.failRoot n reason).pch = s.pch
      ∧ (s.failRoot n reason).lpt.paths = s.lpt.paths := by
  unfold State.failRoot
  simp only
  cases (s.campaign n).origin with
  | order =>
    simp only [State.failConfirm]
    cases s.confirmOrder n with
    | none => exact ⟨rfl, rfl, rfl⟩
    | some x =>
      obtain ⟨k, o⟩ := x
      obtain ⟨en, re, e, -⟩ := (s.freeUp n).endOrder_eq k o .doneUnresolved (some reason) .unresolved
      simp only
      rw [e]
      exact ⟨rfl, rfl, rfl⟩
  | _ => simp only [State.queueOrigin_eq]; exact ⟨rfl, rfl, rfl⟩

/-- What the failure of a pair's chain can do, be its root a confirm or not (R91, R151). -/
theorem State.failChain_failed {s : State} {p : Pair} {reason : Reason} (hn : (s.chain p).Nodup) (h1 : s.oneChannelEach (s.chain p)) :
    s.chainFailed (s.failChain p reason) p reason
      ∧ (∀ q, q ≠ p → (s.failChain p reason).chain q = s.chain q) ∧ (s.failChain p reason).lpt.paths = s.lpt.paths
      ∧ ∀ l, s.oneChannelEach l → (s.failChain p reason).oneChannelEach l := by
  cases hc : s.chain p with
  | nil =>
    have e : s.failChain p reason = s := by unfold State.failChain; rw [hc]
    rw [e]
    exact ⟨⟨fun _ => rfl, fun _ _ h => (by rw [hc] at h; cases h), fun _ _ _ h => (by rw [hc] at h; cases h)⟩, fun _ _ => rfl, rfl,
      fun _ h => h⟩
  | cons root above =>
    rw [hc] at hn h1
    have d := State.dropSlots_eq (State.oneChannelEach_mono h1 (m := above) (by simp +contextual))
    have hf : s.failChain p reason = (((s.dropSlots above).releaseExtent root).setChain p []).failRoot root reason := by
      unfold State.failChain; rw [hc]
    generalize hv : s.dropSlots above = v at d hf
    have e := State.endSlice_eq (State.oneChannelEach_after d.1 (State.oneChannelEach_mono h1 (m := [root]) (by simp)))
    have hr : v.releaseExtent root = { s with
        pch := { s.pch with channels := (v.endSlice root).pch.channels }
        ecr := { s.ecr with extents := (v.releaseExtent root).ecr.extents }
        cen := { s.cen with slots := (v.releaseExtent root).cen.slots }
        clk := { s.clk with reports := v.clk.reports } } := by
      unfold State.releaseExtent State.dropExtent
      rw [e.2, d.2.2.2]
      rfl
    obtain ⟨k1, k2, k3⟩ := (((v.releaseExtent root).setChain p []).failRoot_keeps root reason)
    refine ⟨⟨fun h => (by rw [hc] at h; cases h), fun r a hra ho => ?_, fun r k o hra ho hko => ?_⟩, fun q hq => ?_, ?_, fun l hl => ?_⟩
    · refine State.failChain_eq ⟨by simpa [hc] using hn, by simpa [hc] using h1, fun q hq m hm => ?_⟩
      rw [List.mem_singleton.1 hq, hra] at hm
      cases hm; exact ho
    · rw [hc] at hra
      cases hra
      have hv0 : v = s := hv.symm
      rw [hf, hv0]
      rw [hv0] at hr e
      generalize hw : (s.releaseExtent root).setChain p [] = w
      have wo : ∀ j, w.order j = s.order j := by intro j; rw [← hw, hr]; rfl
      have wr : ∀ i q, w.record i q = s.record i q := by intro i q; rw [← hw, hr]; rfl
      have we : ∀ i, w.entry i = s.entry i := by intro i; rw [← hw, hr]; rfl
      have worigin : (w.campaign root).origin = .order := by
        rw [← hw]
        show ((s.releaseExtent root).campaign root).origin = _
        unfold State.releaseExtent State.dropExtent
        simp only [State.campaign_setCampaign, if_true]
        show ((s.endSlice root).campaign root).origin = _
        rw [e.2]; exact ho
      have wconf : w.confirmOrder root = some (k, o) := State.confirmOrder_eq
        ⟨by rw [wo]; exact hko.1, hko.2.1, hko.2.2.1, fun j x hj hx => hko.2.2.2 j x hj (by rw [← wo]; exact hx)⟩
      unfold State.failRoot
      simp only [worigin]
      unfold State.failConfirm
      simp only [wconf]
      obtain ⟨en, re, x1, x2⟩ := (w.freeUp root).endOrder_eq k o .doneUnresolved (some reason) .unresolved
      have fr : ∀ i q, (w.freeUp root).record i q = s.record i q := fun i q => wr i q
      have fe : ∀ i, (w.freeUp root).entry i = s.entry i := fun i => we i
      refine ⟨⟨fun j => ?_, fun j q => ?_⟩, ?_, ?_⟩
      · rw [x2.1, fe]
      · rw [x2.2, fr]
      · refine State.slicesEnded_of_channels e.1 ?_
        rw [x1, ← hw, hr]
        rfl
      · have hext : (s.releaseExtent root).ecr.extents = s.ecr.extents.filter (fun e => e.slot != root) := by
          show (s.endSlice root).ecr.extents.filter _ = _
          rw [e.2]; rfl
        have hslots : (w.freeUp root).cen.slots = s.cen.slots.set root {} := by
          rw [← hw]
          show (((s.endSlice root).cen.slots).set root _).set root _ = _
          rw [e.2]
          simp
        have hrep : joined (w.freeUp root).clk.reports ((if ((w.freeUp root).record o.entry o.pair).condition = .unresolved then [] else [.pair o.pair]) ++ [.order k])
            = s.orderOrigins k o .unresolved := by
          unfold State.orderOrigins
          rw [fr, hko.2.2.1]
          have : (w.freeUp root).clk.reports = s.clk.reports.filter (fun x => !(x == Origin.campaign root)) := by
            rw [← hw, hr]; rfl
          rw [this]
        rw [x1, hrep]
        rw [show (w.freeUp root) = { w.freeUp root with cen := { (w.freeUp root).cen with slots := (w.freeUp root).cen.slots } } from rfl, hslots, ← hw, hr, hext]
        rfl
    · rw [hf]
      show (State.cen _).chains[q] = _
      rw [k1]
      show (State.setChain _ _ _).chain q = _
      rw [State.chain_setChain, if_neg hq, hr]; rfl
    · rw [hf, k3]
      show (v.releaseExtent root).lpt.paths = _
      rw [hr]
    · have hs : s.slicesEnded (v.endSlice root) (above ++ [root]) := State.slicesEnded_append d.1 e.1
      have := State.oneChannelEach_after hs hl
      rw [hf]
      intro c c' m x y x' y' hm hx hy
      have ch : ∀ c, ((((v.releaseExtent root).setChain p []).failRoot root reason)).channel c = (v.endSlice root).channel c := by
        intro c; unfold State.channel; rw [k2]; rfl
      rw [ch] at hx hy
      exact this c c' m x y x' y' hm hx hy

/-- The chains that an accepted ROUTE order fails, one after another, be their roots confirms or not (R149; log 36). -/
theorem State.failRoutedChains_inTurn {s : State} {i : Index} {failing : List Pair}
    (hf : failing = allPairs.filter (fun q => (s.path q).any (fun x => x.entry == i)))
    (h : ∀ q ∈ failing, (s.chain q).Nodup ∧ s.oneChannelEach (s.chain q)) :
    s.chainsFailedInTurn .pathChanged failing (s.failRoutedChains i) := by
  subst hf
  suffices H : ∀ (rest : List Pair) (t : State), rest.Nodup → t.lpt.paths = s.lpt.paths →
      (∀ q ∈ rest.filter (fun q => s.pathHolds q i), (t.chain q).Nodup ∧ t.oneChannelEach (t.chain q)) →
      t.chainsFailedInTurn .pathChanged (rest.filter (fun q => s.pathHolds q i))
        (rest.foldl (fun s p => if s.pathHolds p i then s.failChain p .pathChanged else s) t) by
    exact H allPairs s (by decide) rfl h
  intro rest
  induction rest with
  | nil => intro t _ _ _; rfl
  | cons p rest ih =>
    intro t hn hp h1
    have hb : t.pathHolds p i = s.pathHolds p i := by unfold State.pathHolds State.path; rw [hp]
    rw [List.foldl_cons, hb]
    cases hh : s.pathHolds p i with
    | false =>
      simp only [List.filter_cons, hh, Bool.false_eq_true, if_false] at h1 ⊢
      exact ih t (List.nodup_cons.1 hn).2 hp h1
    | true =>
      simp only [List.filter_cons, hh, if_true] at h1 ⊢
      obtain ⟨a1, a2⟩ := h1 p (by simp)
      obtain ⟨b1, b2, b3, b4⟩ := State.failChain_failed (reason := .pathChanged) a1 a2
      refine ⟨_, b1, ih _ (List.nodup_cons.1 hn).2 (b3.trans hp) (fun q hq => ?_)⟩
      have hqp : q ≠ p := fun e => (List.nodup_cons.1 hn).1 (e ▸ List.mem_of_mem_filter hq)
      obtain ⟨c1, c2⟩ := h1 q (List.mem_cons_of_mem _ hq)
      rw [b2 q hqp]
      exact ⟨c1, b4 _ c2⟩

end Sys2Proof.Machine
end

