-- ==== Sys2Proof/Laws/Kept.lean ====
section
/-! SUPPORT. What every operation keeps. A predicate that is closed under the named updates of the state (`Quiet`) is kept by
every operation built from them; closed also under replies and resets (`Kept`), it is kept by every command. One lemma per
operation, so that an invariant is proved by its closure alone. -/

namespace Sys2Proof.Machine

/-! ## The extent list -/

/-- An extent placed in the list by its start is one more member. -/
theorem mem_insertExtent {x y : Extent} {l : List Extent} : y ∈ insertExtent x l ↔ y = x ∨ y ∈ l := by
  induction l with
  | nil => simp [insertExtent]
  | cons e l ih =>
    unfold insertExtent
    split
    · simp only [List.mem_cons, ih]; tauto
    · exact List.mem_cons

/-- What a first fit finds lies within the memory, with every extent wholly before or behind it (R44). -/
theorem firstFit_some {length : Nat} {l : List Extent} {b a : Nat} (hs : l.Pairwise (fun e f => e.start ≤ f.start))
    (hl : ∀ e ∈ l, e.start + e.length ≤ 8192) (ha : firstFit length l b = some a) :
    b ≤ a ∧ a + length ≤ 8192 ∧ ∀ e ∈ l, e.start + e.length ≤ a ∨ a + length ≤ e.start := by
  induction l generalizing b with
  | nil =>
    unfold firstFit at ha
    split at ha <;> cases ha
    exact ⟨le_refl _, by assumption, fun _ h => nomatch h⟩
  | cons e l ih =>
    obtain ⟨he, hs⟩ := List.pairwise_cons.1 hs
    have hel := hl e List.mem_cons_self
    unfold firstFit at ha
    split at ha
    · cases ha
      refine ⟨le_refl _, by omega, fun f hf => .inr ?_⟩
      rcases List.mem_cons.1 hf with rfl | hf
      · assumption
      · have := he f hf; omega
    · obtain ⟨h1, h2, h3⟩ := ih hs (fun f hf => hl f (List.mem_cons_of_mem _ hf)) ha
      refine ⟨by omega, h2, fun f hf => ?_⟩
      rcases List.mem_cons.1 hf with rfl | hf
      · left; omega
      · exact h3 f hf

/-- An allocated extent keeps the list disjoint (R43, R44). -/
theorem disjoint_insert {l : List Extent} {length a : Nat} {n : Slot} (hd : extentsDisjoint l)
    (ha : firstFit length l 0 = some a) : extentsDisjoint (insertExtent { start := a, length := length, slot := n } l) := by
  obtain ⟨hp, hl⟩ := hd
  obtain ⟨-, hb, hf⟩ := firstFit_some (hp.imp (fun h => h.1)) hl ha
  refine ⟨?_, fun e he => ?_⟩
  · clear ha hl
    induction l with
    | nil => exact List.pairwise_singleton _ _
    | cons e l ih =>
      obtain ⟨he, hp⟩ := List.pairwise_cons.1 hp
      have h1 := hf e List.mem_cons_self
      unfold insertExtent
      split
      · refine List.pairwise_cons.2 ⟨fun f hm => ?_, ih hp (fun f hm => hf f (List.mem_cons_of_mem _ hm))⟩
        rcases mem_insertExtent.1 hm with rfl | hm
        · exact ⟨by simp only at *; omega, fun x _ _ => by simp only at *; omega⟩
        · exact he f hm
      · refine List.pairwise_cons.2 ⟨fun f hm => ?_, List.pairwise_cons.2 ⟨he, hp⟩⟩
        have h2 := hf f hm
        have h3 : a ≤ f.start := by
          rcases List.mem_cons.1 hm with rfl | hm
          · simp only at *; omega
          · have := (he f hm).1; simp only at *; omega
        exact ⟨h3, fun x _ _ => by simp only at *; omega⟩
  · rcases mem_insertExtent.1 he with rfl | he
    · exact hb
    · exact hl e he

/-- A released extent keeps the list disjoint (R43, R45). -/
theorem disjoint_filter {l : List Extent} {f : Extent → Bool} (hd : extentsDisjoint l) : extentsDisjoint (l.filter f) :=
  ⟨hd.1.filter f, fun e he => hd.2 e (List.mem_of_mem_filter he)⟩

/-! ## What an operation keeps -/

/-- Two kinds differ in their spare pumps or their route alone. -/
def sameKind : EntryKind → EntryKind → Prop
  | .line _, .line _ => True
  | .branching _, .branching _ => True
  | .equalizer, .equalizer => True
  | _, _ => False

/-- Closed under every named update but those of replies and resets, each with what is known where it is made. -/
structure Quiet (P : State → Prop) : Prop where
  setRecord {s i p r} : P s → P (State.setRecord s i p r)
  remark {s i e b} : State.entry s i = some e → P s → P (s.setEntry i (some { e with mark := b }))
  rekind {s i e k} : State.entry s i = some e → sameKind e.kind k → P s → P (s.setEntry i (some { e with kind := k }))
  define {s : State} {i e} : kindFits i e.kind → 1 ≤ e.address.toNat → e.address.toNat ≤ 254 →
    s.addressTaken i e.address = false → P s → P (s.setEntry i (some e))
  undefine {s : State} {i} : P s → P (s.setEntry i none)
  setPath {s p l} : P s → P (State.setPath s p l)
  setSpan {s src n} : P s → P (State.setSpan s src n)
  setAssemblyList {s src l} : P s → P (State.setAssemblyList s src l)
  setChannel {s : State} {c ch} : ch.point = (s.channel c).point ∨ ch.point = none → P s → P (s.setChannel c ch)
  closePoint {s : State} {c ch p} : ch.point = some p → (∀ d, d ≠ c → (s.channel d).point ≠ some p) → P s → P (s.setChannel c ch)
  setPointEnabled {s c p b} : P s → P (State.setPointEnabled s c p b)
  setDarkMark {s p b} : P s → P (State.setDarkMark s p b)
  setCeilingOf {s p x} : -7612 ≤ x → x ≤ -2194 → P s → P (State.setCeilingOf s p x)
  setCells {s : State} {t} : (Table.wf 0 s.ecr.cells → Table.wf 0 t) → P s → P (s.setCells t)
  setExtents {s : State} {l} : (extentsDisjoint s.ecr.extents → extentsDisjoint l) → P s → P (s.setExtents l)
  setThresholdValues {s f t d} : 1 ≤ f → f ≤ 4096 → 50 ≤ t → t ≤ 1000 → 100 ≤ d → d ≤ 3000 → P s →
    P (State.setThresholdValues s f t d)
  setPrevious {s p c} : P s → P (State.setPrevious s p c)
  setLastServed {s p} : P s → P (State.setLastServed s p)
  setService {s : State} {l} : (s.fga.service.Perm allPairs → l.Perm allPairs) → P s → P (s.setService l)
  setCampaign {s n c} : P s → P (State.setCampaign s n c)
  setChain {s p l} : P s → P (State.setChain s p l)
  setDemand {s : State} {l} : l.length ≤ 8 ∨ l.length ≤ s.cen.demand.length → P s → P (s.setDemand l)
  setPeriodicList {s : State} {l} : l.length ≤ 16 ∨ l.length ≤ s.cen.periodic.length → P s → P (s.setPeriodicList l)
  setLineDarkMark {s p b} : P s → P (State.setLineDarkMark s p b)
  setGate {s g x} : P s → P (State.setGate s g x)
  setOrder {s n o} : P s → P (State.setOrder s n o)
  setAcceptance {s l} : P s → P (State.setAcceptance s l)
  setWorking {s c w} : P s → P (State.setWorking s c w)
  setInverted {s c b} : P s → P (State.setInverted s c b)
  setSettings {s : State} {x : OrderSettings} : 1 ≤ x.limit → x.limit ≤ 4 → P s → P { s with isu := { s.isu with settings := x } }
  setBaseline {s p i b} : P s → P (State.setBaseline s p i b)
  setStore {s : State} {t} : (Table.wf (0xFF : Byte) s.bst.store → Table.wf (0xFF : Byte) t) → P s → P (s.setStore t)
  setStoreOp {s op} : P s → P (State.setStoreOp s op)
  setStaging {s l} : P s → P (State.setStaging s l)
  setLastOp {s x} : P s → P (State.setLastOp s x)
  setLevel {s : State} {src l} : (s.setLevel src l).someLevelZero = true → P s → P (s.setLevel src l)
  setReports {s : State} {l} : (s.clk.reports.Nodup → l.Nodup) → P s → P (s.setReports l)
  setAssembler {s a} : P s → P (State.setAssembler s a)
  setTransmitter {s t} : P s → P (State.setTransmitter s t)
  setPendingReset {s k} : P s → P (State.setPendingReset s k)
  setBreak {s x y} : P s → P (State.setBreak s x y)
  enterReady {s} : P s → P (State.enterReady s)
  takeFree {s} : P s → P (State.takeFree s)

/-- Closed under what any request's block may do. -/
structure Asked (P : State → Prop) : Prop extends Quiet P where
  setTimingValue {s change interval} : P s → P (State.setTimingValue s change interval)

/-- Closed under the clock, replies and resets too. -/
structure Kept (P : State → Prop) : Prop extends Asked P where
  advanceClock {s} : P s → P (State.advanceClock s)
  queueReply {s : State} {f} : s.clk.replies.length < 8 → P s → P (s.queueReply f)
  replySent {s} : P s → P (State.replySent s)
  coldReset {s cause strap x y} : P s → P (State.coldReset s cause strap x y)
  warmBlocks {s cause strap x y} : P s → P (State.warmBlocks s cause strap x y)

variable {P : State → Prop}

/-- A fold keeps what each of its steps keeps. -/
theorem foldl_keeps {α : Type} {f : State → α → State} (hf : ∀ s x, P s → P (f s x)) (l : List α) {s : State} (h : P s) :
    P (l.foldl f s) := by
  induction l generalizing s with
  | nil => exact h
  | cons x l ih => exact ih (hf s x h)

namespace Quiet

variable (K : Quiet P) {s : State} (h : P s)
include K h

/-! ## Marks and queues -/

theorem queueOrigin {o : Origin} : P (s.queueOrigin o) := by
  unfold State.queueOrigin
  split
  · exact h
  · rename_i hn
    refine K.setReports (fun hd => ?_) h
    exact List.nodup_append.2 ⟨hd, List.nodup_singleton _, fun a ha b hb => by
      rw [List.mem_singleton.1 hb]; exact fun e => hn (e ▸ ha)⟩

theorem withdrawOrigin {o : Origin} : P (s.withdrawOrigin o) := K.setReports (fun hd => hd.filter _) h

theorem setCondition {i : Index} {p : Pair} {c : Condition} : P (s.setCondition i p c) := by
  unfold State.setCondition
  split
  · exact h
  · exact K.queueOrigin (K.setRecord h)

theorem markDark {p : Pair} : P (s.markDark p) := K.queueOrigin (K.setDarkMark h)

theorem markLineDark {p : Pair} : P (s.markLineDark p) := K.queueOrigin (K.setLineDarkMark h)

theorem setOrderMark {i : Index} {b : Bool} : P (s.setOrderMark i b) := by
  unfold State.setOrderMark
  split
  · exact h
  · rename_i e he; exact K.remark he h

/-! ## Correlator -/

theorem allocate {n : Slot} {length : Nat} {t : State} (ht : s.allocate n length = some t) : P t := by
  unfold State.allocate at ht
  split at ht
  · cases ht
  · cases ht
    rename_i ha
    exact K.setCampaign (K.setCells (fun hw => Table.wf_clear _ _ hw) (K.setExtents (fun hd => disjoint_insert hd ha) h))

theorem endSlice {n : Slot} : P (s.endSlice n) := by
  unfold State.endSlice
  split
  · exact h
  · exact K.setChannel (.inl rfl) h

theorem dropExtent {n : Slot} : P (s.dropExtent n) := K.setCampaign (K.setExtents disjoint_filter h)

theorem releaseExtent {n : Slot} : P (s.releaseExtent n) := K.dropExtent (K.endSlice h)

theorem zeroCampaign {n : Slot} : P (s.zeroCampaign n) := by
  refine K.setCampaign (K.setCells (fun hw => ?_) h)
  unfold zeroedCells
  split
  · exact hw
  · exact Table.wf_clear _ _ hw

omit K h in
theorem wf_addPeriod {bits : List Bool} {samples : List Sample} {d a : Nat} {t : Table Int} (hw : Table.wf 0 t) :
    Table.wf 0 (addPeriod bits samples d a t) := by
  unfold addPeriod
  exact Table.wf_set _ _ (Table.wf_set _ _ (Table.wf_set _ _ (Table.wf_set _ _ (Table.wf_set _ _ hw))))

omit K h in
theorem wf_addPeriods {bits : List Bool} {samples : List Sample} (l : List Element) {a : Nat} {t : Table Int}
    (hw : Table.wf 0 t) : Table.wf 0 (addPeriods bits samples a l t) := by
  induction l generalizing a t with
  | nil => exact hw
  | cons e l ih => exact ih (wf_addPeriod hw)

theorem acceptPeriod {n : Slot} {samples : List Sample} : P (s.acceptPeriod n samples) := by
  unfold State.acceptPeriod
  refine K.setCampaign ?_
  split
  · exact h
  · exact K.setCells (fun hw => wf_addPeriods _ hw) h

theorem reduceCampaign {n : Slot} : P (s.reduceCampaign n) := by
  unfold State.reduceCampaign
  split
  · exact h
  · exact K.dropExtent (K.setCampaign h)

/-! ## Channels -/

theorem dropExcessLevel {n : Slot} : P (s.dropExcessLevel n) := by
  unfold State.dropExcessLevel
  split
  · exact h
  · split
    · exact K.setCampaign (K.zeroCampaign h)
    · exact h

theorem fixCampaignLevel {n : Slot} : P (s.fixCampaignLevel n) := by
  unfold State.fixCampaignLevel
  dsimp only
  split
  · exact K.setCampaign (K.dropExcessLevel h)
  · exact K.dropExcessLevel h

theorem openElsewhere {c : Chan} {p : Pair} : P (s.openElsewhere c p) := by
  refine foldl_keeps (P := P) (fun s d hs => ?_) _ h
  split
  · exact K.setChannel (.inr rfl) hs
  · exact hs

omit K h in
theorem channel_setChannel_same {c : Chan} {ch : Channel} : (s.setChannel c ch).channel c = ch := by
  simp [State.channel, State.setChannel]

omit K h in
theorem channel_setChannel_ne {c d : Chan} {ch : Channel} (hd : d ≠ c) : (s.setChannel c ch).channel d = s.channel d := by
  have : c.val ≠ d.val := fun e => hd (Fin.ext e.symm)
  simp [State.channel, State.setChannel, this]

omit K h in
theorem openElsewhere_points {c : Chan} {p : Pair} : ∀ d, d ≠ c → ((s.openElsewhere c p).channel d).point ≠ some p := by
  have key : ∀ (l : List Chan) (s : State) (d : Chan), d ≠ c → (d ∈ l ∨ (s.channel d).point ≠ some p) →
      ((l.foldl (fun s d => if d ≠ c ∧ (s.channel d).point = some p then s.setChannel d {} else s) s).channel d).point
        ≠ some p := by
    intro l
    induction l with
    | nil => intro s d _ hd; simpa using hd
    | cons e l ih =>
      intro s d hdc hd
      refine ih _ d hdc ?_
      by_cases hl : d ∈ l
      · exact .inl hl
      · refine .inr ?_
        by_cases he : d = e
        · subst he
          by_cases hp : (s.channel d).point = some p
          · simp [hdc, hp, channel_setChannel_same]
          · simp [hdc, hp]
        · have hs : (s.channel d).point ≠ some p := by
            rcases hd with hd | hd
            · rcases List.mem_cons.1 hd with hd | hd
              · exact absurd hd he
              · exact absurd hd hl
            · exact hd
          show ((if e ≠ c ∧ (s.channel e).point = some p then s.setChannel e {} else s).channel d).point ≠ some p
          split
          · rw [channel_setChannel_ne he]; exact hs
          · exact hs
  intro d hd
  refine key _ s d hd (.inl ?_)
  clear hd
  revert d; decide

theorem carryGrant {c : Chan} {p : Pair} {o : Holder} {sig : Signature} {m : Bool} : P (s.carryGrant c p o sig m) := by
  unfold State.carryGrant
  split
  · exact K.closePoint rfl openElsewhere_points (K.openElsewhere h)
  · rename_i hset
    have hp : (s.channel c).point = some p := by
      simpa [State.settles] using hset
    split
    · exact K.setChannel (.inl hp.symm) h
    · exact K.setChannel (.inl rfl) h

theorem coast {c : Chan} : P (s.coast c) := K.setChannel (.inl rfl) h

theorem parkIfCoasting {c : Chan} : P (s.parkIfCoasting c) := by
  unfold State.parkIfCoasting
  split
  · exact K.setChannel (.inl rfl) h
  · exact h

/-! ## Slots, chains and the end of an order -/

theorem freeUp {n : Slot} : P (s.freeUp n) := K.withdrawOrigin (K.setCampaign h)

theorem dropSlot {n : Slot} : P (s.dropSlot n) := K.freeUp (K.releaseExtent h)

theorem dropSlots {l : List Slot} : P (s.dropSlots l) := by
  unfold State.dropSlots
  exact foldl_keeps (P := P) (fun _ _ hs => K.dropSlot hs) l h

theorem zeroChainTop {p : Pair} : P (s.zeroChainTop p) := by
  unfold State.zeroChainTop
  split
  · exact h
  · exact K.zeroCampaign h

theorem endOrder {n : OrderNo} {o : Order} {st : OrderState} {r : Option Reason} {c : Condition} :
    P (s.endOrder n o st r c) := K.queueOrigin (K.setCondition (K.setOrderMark (K.setOrder h)))

theorem failConfirm {n : Slot} {r : Reason} : P (s.failConfirm n r) := by
  unfold State.failConfirm
  dsimp only
  split
  · exact K.freeUp h
  · exact K.endOrder (K.freeUp h)

theorem failRoot {n : Slot} {r : Reason} : P (s.failRoot n r) := by
  unfold State.failRoot
  dsimp only
  split
  · exact K.queueOrigin (K.setCampaign h)
  · exact K.queueOrigin (K.setCampaign h)
  · exact K.queueOrigin (K.setCampaign h)
  · exact K.failConfirm h

theorem failChain {p : Pair} {r : Reason} : P (s.failChain p r) := by
  unfold State.failChain
  split
  · exact h
  · exact K.failRoot (K.setChain (K.releaseExtent (K.dropSlots h)))

/-! ## Fault location -/

theorem applyTarget {i : Index} {p : Pair} {c : ElementClass} : P (s.applyTarget i p c) := K.setCondition h

theorem applySurvey {i : Index} {p : Pair} {c : ElementClass} : P (s.applySurvey i p c) := K.setCondition h

theorem mergeElement {c : Campaign} {target : Option Nat} {r : ResultElement} : P (s.mergeElement c target r) := by
  unfold State.mergeElement
  split
  · exact K.applySurvey h
  · split
    · exact K.applyTarget h
    · exact h
  · exact K.applyTarget (K.applySurvey h)
  · exact h

theorem recordMeasurement {p : Pair} {r : ResultElement} : P (s.recordMeasurement p r) := K.setRecord h

theorem recordClass {p : Pair} {r : ResultElement} : P (s.recordClass p r) := K.setRecord h

theorem classifyCampaign {n : Slot} : P (s.classifyCampaign n) := by
  unfold State.classifyCampaign
  dsimp only
  split
  · refine K.markLineDark (foldl_keeps (P := P) (fun s r hs => K.mergeElement hs) _ ?_)
    refine foldl_keeps (P := P) (fun s r hs => K.recordClass hs) _ (K.setCampaign h)
  · refine foldl_keeps (P := P) (fun s r hs => K.mergeElement hs) _ ?_
    refine foldl_keeps (P := P) (fun s r hs => K.recordClass hs) _ (K.setCampaign h)

theorem writeRefined {n : Slot} {k : Nat} {c : ElementClass} {d : Option Nat} {r : Option Reason} :
    P (s.writeRefined n k c d r) := by
  unfold State.writeRefined
  dsimp only
  split
  · exact K.setCampaign h
  · exact K.applyTarget (K.setCampaign h)

theorem seekRoom {n : Slot} : P (s.seekRoom n) := by
  unfold State.seekRoom
  split
  · exact h
  · rename_i t ht; exact K.setCampaign (K.allocate h ht)

theorem makeChild {n : Slot} {k : Nat} {t : State} (ht : s.makeChild n k = .ok t) : P t := by
  unfold State.makeChild at ht
  dsimp only at ht
  split at ht
  · cases ht
  · split at ht
    · cases ht
    · split at ht
      · cases ht
      · split at ht
        · cases ht
        · split at ht
          · cases ht
          · cases ht
            exact K.seekRoom (K.setChain (K.setCampaign (K.setCampaign h)))

theorem walkFrom {n : Slot} (l : List Nat) : P (State.walkFrom n l s).1 := by
  induction l generalizing s with
  | nil => exact K.setCampaign h
  | cons k l ih =>
    unfold State.walkFrom
    dsimp only
    split
    · rename_i t ht; exact K.makeChild (K.setCampaign h) ht
    · exact ih (K.writeRefined (K.setCampaign h))

theorem walk {n : Slot} : P (s.walk n).1 := K.walkFrom h _

theorem resumeParent {p : Pair} {child parent : Slot} : P (s.resumeParent p child parent) :=
  K.setCampaign (K.setChain (K.dropSlot h))

theorem returnChild {p : Pair} {child parent : Slot} : P (s.returnChild p child parent) := by
  unfold State.returnChild
  dsimp only
  split
  · exact K.writeRefined (K.resumeParent h)
  · exact K.resumeParent h

theorem settleOrder {k : OrderNo} {o : Order} {c : Campaign} : P (s.settleOrder k o c) := by
  unfold State.settleOrder
  split
  · exact K.endOrder h
  · dsimp only
    split
    · exact K.endOrder h
    · exact K.endOrder h

theorem confirmVerdict {n : Slot} : P (s.confirmVerdict n) := by
  unfold State.confirmVerdict
  dsimp only
  split
  · exact K.freeUp h
  · exact K.settleOrder (K.freeUp h)

theorem finishRoot {p : Pair} {n : Slot} : P (s.finishRoot p n) := by
  unfold State.finishRoot
  dsimp only
  split
  · exact K.queueOrigin (K.setCampaign (K.setChain (K.releaseExtent h)))
  · exact K.queueOrigin (K.setCampaign (K.setChain (K.releaseExtent h)))
  · exact K.queueOrigin (K.setCampaign (K.setChain (K.releaseExtent h)))
  · exact K.confirmVerdict (K.setChain (K.releaseExtent h))

theorem unwind {p : Pair} (l : List Slot) : P (State.unwind p l s) := by
  induction l generalizing s with
  | nil => exact h
  | cons top l ih =>
    cases l with
    | nil =>
      unfold State.unwind
      have hw := K.walk h (n := top)
      split
      · rename_i t he; rw [he] at hw; exact hw
      · rename_i t he; rw [he] at hw; exact K.finishRoot hw
    | cons parent below =>
      unfold State.unwind
      have hw := K.walk h (n := top)
      split
      · rename_i t he; rw [he] at hw; exact hw
      · rename_i t he; rw [he] at hw; exact ih (K.returnChild hw)

theorem measurementEnd {n : Slot} : P (s.measurementEnd n) := by
  unfold State.measurementEnd
  dsimp only
  exact K.unwind (K.classifyCampaign (foldl_keeps (P := P) (fun s r hs => K.recordMeasurement hs) _ (K.reduceCampaign h))) _

/-! ## Orders -/

theorem clearWorking {c : Chan} : P (s.clearWorking c) := K.setWorking h

theorem endBurst {c : Chan} {p : Pair} : P (s.endBurst c p) := K.zeroChainTop (K.coast h)

theorem failOrder {n : OrderNo} {o : Order} {r : Reason} {c : Condition} : P (s.failOrder n o r c) := K.endOrder (K.freeUp h)

theorem refuseOrder {n : OrderNo} {o : Order} : P (s.refuseOrder n o) := K.endOrder (K.freeUp h)

theorem setIsolation {i : Index} {p : Pair} {x : Isolation} : P (s.setIsolation i p x) := K.setRecord h

theorem changeSpare {i : Index} {f : Fin 3 → Fin 3} : P (s.changeSpare i f) := by
  unfold State.changeSpare
  split
  · rename_i n a m he; exact K.rekind (e := { kind := .line n, address := a, mark := m }) he trivial h
  · exact h

theorem setRoute {i : Index} {leg : Leg} : P (s.setRoute i leg) := by
  unfold State.setRoute
  split
  · rename_i r a m he; exact K.rekind (e := { kind := .branching r, address := a, mark := m }) he trivial h
  · exact h

theorem failRoutedChains {i : Index} : P (s.failRoutedChains i) := by
  refine foldl_keeps (P := P) (fun s p hs => ?_) _ h
  split
  · exact K.failChain hs
  · exact hs

theorem applyEffect {o : Order} : P (s.applyEffect o) := by
  unfold State.applyEffect
  split
  · exact K.setIsolation (K.changeSpare h)
  · exact K.setIsolation (K.changeSpare h)
  · exact K.setIsolation h
  · exact K.setIsolation h
  · exact K.setIsolation h
  · exact K.failRoutedChains (K.setRoute h)
  · exact K.failRoutedChains (K.setRoute h)

theorem makeConfirm {n : OrderNo} {o : Order} : P (s.makeConfirm n o) := by
  unfold State.makeConfirm
  split
  · exact K.endOrder (K.freeUp h)
  · exact K.setCampaign (K.setOrder h)

theorem concludeAttempt {n : OrderNo} {o : Order} {c : Chan} {x : AttemptOutcome} : P (s.concludeAttempt n o c x) := by
  unfold State.concludeAttempt
  dsimp only
  split
  · exact K.makeConfirm (K.applyEffect (K.endBurst (K.setOrder h)))
  · exact K.refuseOrder (K.endBurst (K.setOrder h))
  all_goals
    split
    · exact K.setOrder h
    · exact K.failOrder (K.endBurst (K.setOrder h))

theorem loseChannel {n : OrderNo} {o : Order} : P (s.loseChannel n o) := by
  unfold State.loseChannel
  dsimp only
  split
  · exact K.setOrder (K.zeroChainTop h)
  · exact K.failOrder (K.zeroChainTop h)

theorem addReference {c : Chan} {o : Order} {samples : List Sample} : P (s.addReference c o samples) := K.setWorking h

/-! ## Transmitter -/

theorem clearMarks {p : Pair} {l : List Index} : P (s.clearMarks p l) := by
  unfold State.clearMarks
  exact foldl_keeps (P := P) (fun _ _ hs => K.setRecord hs) l h

theorem pairReported {p : Pair} : P (s.pairReported p) := by
  unfold State.pairReported
  dsimp only
  split
  · exact K.queueOrigin (K.setLineDarkMark (K.setDarkMark (K.clearMarks h)))
  · exact K.setLineDarkMark (K.setDarkMark (K.clearMarks h))

theorem orderReported {n : OrderNo} : P (s.orderReported n) := K.setAcceptance (K.setOrder h)

theorem buildReport {o : Origin} : P (s.buildReport o).2 := by
  unfold State.buildReport
  split
  · exact h
  · split
    · exact h
    · exact K.orderReported h
  · exact K.pairReported h
  · exact h
  · exact h

theorem chooseNext : P s.chooseNext := by
  unfold State.chooseNext
  split
  · exact K.setTransmitter h
  · split
    · exact K.setTransmitter h
    · rename_i o rest he
      refine K.setTransmitter (K.buildReport (K.setReports (fun hd => ?_) h))
      rw [he] at hd
      exact (List.nodup_cons.1 hd).2

theorem concludeEvent : P s.concludeEvent := by
  unfold State.concludeEvent
  split
  · exact K.chooseNext h
  · exact h
  · exact h

end Quiet

end Sys2Proof.Machine
end

