-- ==== Sys2Proof/Laws/KeptAnswers.lean ====
section
/-! SUPPORT. What the owning blocks' answers keep: one lemma per request that changes state. -/

namespace Sys2Proof.Machine.Quiet

variable {P : State → Prop} (K : Quiet P) {s : State} (h : P s) {a : Asker} {t : State} {d : List Byte}
include K h

theorem answerSelectSpan {span : Byte} (ha : Machine.answerSelectSpan span a s = .ok (t, d)) : P t := by
  unfold Machine.answerSelectSpan at ha
  split at ha
  · cases ha
  · cases ha; exact K.setSpan h

theorem restartRecord {i : Index} {p : Pair} : P (s.restartRecord i p) := by
  unfold State.restartRecord
  split
  · exact K.setRecord h
  · exact K.queueOrigin (K.setRecord h)

theorem restartRecords {i : Index} : P (s.restartRecords i) := foldl_keeps (P := P) (fun _ _ hs => K.restartRecord hs) _ h

omit K h in
theorem kindFits_of_entryKindAt {i : Index} {k sp r : Nat} {x : EntryKind} (hx : entryKindAt i k sp r = some x) :
    kindFits i x := by
  unfold entryKindAt at hx
  split at hx
  · split at hx
    · cases hx; assumption
    · cases hx
  · split at hx
    · cases hx; assumption
    · cases hx
  · split at hx
    · cases hx; assumption
    · cases hx
  · cases hx

theorem answerDefineEntry {ref : Reference} {k ad sp r : Byte}
    (ha : Machine.answerDefineEntry ref k ad sp r a s = .ok (t, d)) : P t := by
  unfold Machine.answerDefineEntry at ha
  split at ha
  · cases ha
  · split at ha
    · cases ha
    · rename_i i _ x hx
      split at ha
      · cases ha
      · rename_i hr
        split at ha
        · cases ha
        · split at ha
          · cases ha
          · rename_i hd
            obtain ⟨rfl, -⟩ := Prod.mk.inj (Except.ok.inj ha)
            have h1 : 1 ≤ ad.toNat := by
              rcases Nat.eq_zero_or_pos ad.toNat with h0 | h0
              · exact absurd (.inl h0) hr
              · exact h0
            have h2 : ad.toNat ≤ 254 := Nat.le_of_not_lt fun x => hr (.inr (.inl x))
            exact K.restartRecords (K.define (kindFits_of_entryKindAt hx) h1 h2 (Bool.eq_false_iff.2 hd) h)

theorem undefineEntry {i : Index} : P (s.undefineEntry i) :=
  foldl_keeps (P := P) (fun _ _ hs => K.setRecord hs) _ (K.undefine h)

theorem answerDropEntry {ref : Reference} (ha : Machine.answerDropEntry ref a s = .ok (t, d)) : P t := by
  unfold Machine.answerDropEntry at ha
  split at ha
  · cases ha
  · split at ha
    · cases ha
    · split at ha
      · cases ha; exact h
      · cases ha; exact K.undefineEntry h

theorem clearConditions {i : Index} {l : List Pair} : P (s.clearConditions i l) := by
  unfold State.clearConditions
  exact foldl_keeps (P := P) (fun _ _ hs => K.setCondition hs) _ h

theorem answerClearCondition {ref : Reference} {p : Byte} (ha : Machine.answerClearCondition ref p a s = .ok (t, d)) : P t := by
  unfold Machine.answerClearCondition at ha
  split at ha
  · split at ha
    · cases ha
    · cases ha; exact K.clearConditions h
  · cases ha

theorem answerPathAppend {r : Byte} {l : List SentElement} (ha : Machine.answerPathAppend r l a s = .ok (t, d)) : P t := by
  unfold Machine.answerPathAppend at ha
  split at ha
  · cases ha
  · dsimp only at ha
    rename_i l' _
    by_cases hl : 128 < ((if r = 1 then [] else s.assemblyList a.source) ++ l').length
    · rw [if_pos hl] at ha; cases ha
    · rw [if_neg hl] at ha; cases ha; exact K.setAssemblyList h

theorem installPath {src : Source} {p : Pair} : P (s.installPath src p) := by
  unfold State.installPath
  exact foldl_keeps (P := P) (fun _ _ hs => K.setCondition hs) _ (K.setAssemblyList (K.setPath h))

theorem answerSetPath {p : Byte} (ha : Machine.answerSetPath p a s = .ok (t, d)) : P t := by
  unfold Machine.answerSetPath at ha
  split at ha
  · cases ha
  · dsimp only at ha
    split at ha
    · cases ha
    · split at ha
      · cases ha
      · split at ha
        · cases ha
        · split at ha
          · cases ha
          · cases ha; exact K.installPath h

theorem answerStart {r : CampaignRequest} (ha : Machine.answerStart r a s = .ok (t, d)) : P t := by
  unfold Machine.answerStart at ha
  split at ha
  · cases ha
  · split at ha
    · cases ha
    · split at ha
      · cases ha
      · cases ha
        refine K.setDemand (.inl ?_) (K.setCampaign h)
        simp; omega

omit K h in
theorem length_insertSlot (n : Slot) (l : List Slot) : (insertSlot n l).length = l.length + 1 := by
  induction l with
  | nil => rfl
  | cons m l ih => unfold insertSlot; split <;> simp [ih]

theorem answerSchedule {r : CampaignRequest} {x : BitVec 16} {y : Byte}
    (ha : Machine.answerSchedule r x y a s = .ok (t, d)) : P t := by
  unfold Machine.answerSchedule at ha
  split at ha
  · split at ha
    · cases ha
    · split at ha
      · cases ha
      · cases ha
        refine K.setPeriodicList (.inl ?_) (K.setCampaign h)
        rw [length_insertSlot]; omega
  · cases ha

omit K h in
theorem length_withoutSlot (l : List Slot) (n : Slot) : (withoutSlot l n).length ≤ l.length := List.length_filter_le _ _

theorem abortWaiting {n : Slot} : P (s.abortWaiting n) := by
  unfold State.abortWaiting
  exact K.queueOrigin (K.setCampaign (K.setPeriodicList (.inr (length_withoutSlot _ _))
    (K.setDemand (.inr (length_withoutSlot _ _)) h)))

theorem abortRoot {p : Pair} {n : Slot} {above : List Slot} : P (s.abortRoot p n above) := by
  unfold State.abortRoot
  exact K.queueOrigin (K.setCampaign (K.setPeriodicList (.inr (length_withoutSlot _ _))
    (K.setChain (K.releaseExtent (K.dropSlots h)))))

theorem abortChild {p : Pair} {n : Slot} {below above : List Slot} : P (s.abortChild p n below above) := by
  unfold State.abortChild
  split
  · exact h
  · dsimp only
    refine K.unwind ?_ _
    split
    · exact K.writeRefined (K.setCampaign (K.setChain (K.dropSlot (K.dropSlots h))))
    · exact K.setCampaign (K.setChain (K.dropSlot (K.dropSlots h)))

theorem abortOnChain {n : Slot} (ha : s.abortOnChain n = .ok (t, d)) : P t := by
  unfold State.abortOnChain at ha
  dsimp only at ha
  split at ha
  · cases ha
  · cases ha; exact K.abortRoot h
  · cases ha; exact K.abortChild h

theorem answerAbort {slot : Byte} (ha : Machine.answerAbort slot a s = .ok (t, d)) : P t := by
  unfold Machine.answerAbort at ha
  split at ha
  · cases ha
  · split at ha
    · cases ha
    · split at ha
      any_goals cases ha
      all_goals
        split at ha
        · first
            | (cases ha; exact K.abortWaiting h)
            | exact K.abortOnChain h ha
        · cases ha

theorem answerRelease {slot : Byte} (ha : Machine.answerRelease slot a s = .ok (t, d)) : P t := by
  unfold Machine.answerRelease at ha
  split at ha
  · cases ha
  · split at ha
    any_goals cases ha
    all_goals
      split at ha
      · cases ha; exact K.freeUp h
      · cases ha

theorem acceptOrder {k : OrderNo} {o : Order} : P (s.acceptOrder k o) := by
  unfold State.acceptOrder
  exact K.setCondition (K.setOrderMark (K.setCampaign (K.setAcceptance (K.setOrder h))))

theorem answerIsolate {g : Byte} {ref : Reference} {p x f : Byte} (ha : Machine.answerIsolate g ref p x f a s = .ok (t, d)) :
    P t := by
  unfold Machine.answerIsolate at ha
  split at ha
  · split at ha
    · cases ha
    · split at ha
      · cases ha
      · split at ha
        · cases ha
        · cases ha
        · cases ha; exact K.acceptOrder h
  · cases ha

theorem answerWithdrawOrder {o : Byte} (ha : Machine.answerWithdrawOrder o a s = .ok (t, d)) : P t := by
  unfold Machine.answerWithdrawOrder at ha
  split at ha
  · cases ha
  · split at ha
    · cases ha
    · split at ha
      · cases ha
      · split at ha
        · cases ha; exact K.failOrder h
        · cases ha

omit K h in
theorem clampNat_range {lo hi : Nat} (hh : lo ≤ hi) (x : Nat) : lo ≤ clampNat lo hi x ∧ clampNat lo hi x ≤ hi := by
  unfold clampNat; split
  · omega
  · split <;> omega

omit K h in
theorem clampInt_range {lo hi : Int} (hh : lo ≤ hi) (x : Int) : lo ≤ clampInt lo hi x ∧ clampInt lo hi x ≤ hi := by
  unfold clampInt; split
  · omega
  · split <;> omega

theorem answerSetOrderSettings {c q l : Byte} (ha : Machine.answerSetOrderSettings c q l a s = .ok (t, d)) : P t := by
  unfold Machine.answerSetOrderSettings at ha
  split at ha
  · cases ha
    exact K.setSettings (clampNat_range (by decide) _).1 (clampNat_range (by decide) _).2 h
  · cases ha

theorem answerDefineGate {n : Byte} {g : GateRequest} (ha : Machine.answerDefineGate n g a s = .ok (t, d)) : P t := by
  unfold Machine.answerDefineGate at ha
  split at ha
  · cases ha; exact K.setGate h
  · cases ha

theorem answerDropGate {n : Byte} (ha : Machine.answerDropGate n a s = .ok (t, d)) : P t := by
  unfold Machine.answerDropGate at ha
  split at ha
  · cases ha
  · cases ha; exact K.setGate h

omit h in
theorem adopted {p : Pair} (l : List ResultElement) {acc : State × Nat × Nat} (h : P acc.1) :
    P (l.foldl (adoptElement p) acc).1 := by
  induction l generalizing acc with
  | nil => exact h
  | cons r l ih =>
    refine ih ?_
    unfold adoptElement
    split
    · exact h
    · split
      · exact h
      · exact K.setBaseline h

theorem answerAdopt {slot : Byte} (ha : Machine.answerAdopt slot a s = .ok (t, d)) : P t := by
  unfold Machine.answerAdopt at ha
  split at ha
  · cases ha
  · split at ha
    · cases ha
    · cases ha; exact K.adopted _ h

theorem answerDropBaseline {p : Byte} {f l : BitVec 16} (ha : Machine.answerDropBaseline p f l a s = .ok (t, d)) : P t := by
  unfold Machine.answerDropBaseline at ha
  split at ha
  · split at ha
    · cases ha
    · cases ha; exact foldl_keeps (P := P) (fun _ _ hs => K.setBaseline hs) _ h
  · cases ha

theorem settleProgrammed {p : Pair} {x : Staged} : P (s.settleProgrammed p x) := by
  unfold State.settleProgrammed
  split
  · split
    · exact K.setBaseline h
    · exact h
  · exact h

theorem endCommit {job : CommitJob} {stop : Reason} : P (s.endCommit job stop) := by
  unfold State.endCommit
  exact K.queueOrigin (K.setLastOp (K.setStoreOp (K.setStaging
    (foldl_keeps (P := P) (fun _ _ hs => K.settleProgrammed hs) _ h))))

theorem advanceCommit (l : List Staged) {job : CommitJob} : P (s.advanceCommit job l) := by
  induction l with
  | nil => exact K.endCommit h
  | cons x l ih =>
    unfold State.advanceCommit
    split
    · exact ih
    · split
      · exact K.setStoreOp (K.setStore (fun hw => Table.wf_set _ _ hw) h)
      · exact K.endCommit h

theorem answerCommit {p : Byte} {f : BitVec 16} {c : Byte} (ha : Machine.answerCommit p f c a s = .ok (t, d)) : P t := by
  unfold Machine.answerCommit at ha
  split at ha
  · split at ha
    · cases ha
    · cases ha; exact K.advanceCommit (K.setStaging h) _
  · cases ha

theorem slotDone {job : CommitJob} : P (s.slotDone job) := by
  unfold State.slotDone
  split
  · exact h
  · split
    · exact h
    · exact K.advanceCommit (K.setStore (fun hw => Table.wf_writeBytes _ hw _) h) _

theorem unstoreBlock {b : Fin 32} : P (s.unstoreBlock b) := by
  unfold State.unstoreBlock
  exact foldl_keeps (P := P) (fun _ _ hs => K.setBaseline hs) _ h

theorem answerEraseBlock {b : Byte} (ha : Machine.answerEraseBlock b a s = .ok (t, d)) : P t := by
  unfold Machine.answerEraseBlock at ha
  split at ha
  · cases ha
  · split at ha
    · cases ha
    · cases ha; exact K.setStoreOp h

theorem endErase {b : Fin 32} : P (s.endErase b) := by
  unfold State.endErase
  exact K.queueOrigin (K.setLastOp (K.setStoreOp (K.unstoreBlock (K.setStore (fun hw => Table.wf_clear _ _ hw) h))))

theorem loadSlot {n : Nat} : P (s.loadSlot n) := by
  unfold State.loadSlot
  split
  · exact K.setBaseline h
  · exact h

theorem loadImage : P s.loadImage := by
  unfold State.loadImage
  exact foldl_keeps (P := P) (fun _ _ hs => K.loadSlot hs) _ h

theorem answerSetSourceLevel {x l : Byte} (ha : Machine.answerSetSourceLevel x l a s = .ok (t, d)) : P t := by
  unfold Machine.answerSetSourceLevel at ha
  split at ha
  · split at ha
    · cases ha
    · split at ha
      · cases ha
      · rename_i hz
        cases ha
        exact K.setLevel (by simpa using hz) h
  · cases ha

theorem disconnect {c : Chan} : P (s.disconnect c) := by
  unfold State.disconnect
  split
  · split
    · exact K.loseChannel (K.setChannel (.inr rfl) h)
    · exact K.setChannel (.inr rfl) h
  · exact K.setChannel (.inr rfl) h
  · exact K.setChannel (.inr rfl) h

theorem answerSetCrosspoint {c p m : Byte} (ha : Machine.answerSetCrosspoint c p m a s = .ok (t, d)) : P t := by
  unfold Machine.answerSetCrosspoint at ha
  split at ha
  · cases ha
    split
    · exact K.disconnect (K.setPointEnabled h)
    · exact K.setPointEnabled h
  · cases ha

theorem restartBurst {c : Chan} {n : OrderNo} {o : Order} : P (s.restartBurst c n o) := by
  unfold State.restartBurst
  dsimp only
  split
  · exact K.clearWorking (K.setOrder h)
  · exact K.setChannel (.inl rfl) (K.clearWorking (K.setOrder h))

theorem cutByCeiling {c : Chan} {p : Pair} : P (s.cutByCeiling c p) := by
  unfold State.cutByCeiling
  split
  · split
    · exact K.zeroCampaign (K.setChannel (ch := parked (s.channel c)) (.inl rfl) h)
    · exact h
  · split
    · split
      · exact K.restartBurst h
      · exact h
    · exact h
  · split
    · split
      · exact K.setChannel (.inl rfl) h
      · exact h
    · exact h

theorem applyCeiling {p : Pair} {x : Int} (h1 : -7612 ≤ x) (h2 : x ≤ -2194) : P (s.applyCeiling p x) := by
  unfold State.applyCeiling
  split
  · split
    · exact K.cutByCeiling (K.setCeilingOf h1 h2 h)
    · exact K.setCeilingOf h1 h2 h
  · exact K.setCeilingOf h1 h2 h

theorem answerSetCeiling {p : Byte} {x : BitVec 16} (ha : Machine.answerSetCeiling p x a s = .ok (t, d)) : P t := by
  unfold Machine.answerSetCeiling at ha
  split at ha
  · cases ha
  · cases ha
    exact K.applyCeiling h (clampInt_range (by decide) _).1 (clampInt_range (by decide) _).2

theorem answerSetThresholds {f x y : BitVec 16} (ha : Machine.answerSetThresholds f x y a s = .ok (t, d)) : P t := by
  unfold Machine.answerSetThresholds at ha
  cases ha
  exact K.setThresholdValues (clampNat_range (by decide) _).1 (clampNat_range (by decide) _).2
    (clampNat_range (by decide) _).1 (clampNat_range (by decide) _).2 (clampNat_range (by decide) _).1
    (clampNat_range (by decide) _).2 h

theorem answerReset {w : Byte} (ha : Machine.answerReset w a s = .ok (t, d)) : P t := by
  unfold Machine.answerReset at ha
  cases ha
  exact K.setPendingReset h

/-! ## Queries: the state is the same -/

omit K in
theorem answerReadEntry {ref : Reference} (ha : Machine.answerReadEntry ref a s = .ok (t, d)) : P t := by
  unfold Machine.answerReadEntry at ha
  split at ha
  · cases ha
  · cases ha; exact h

omit K in
theorem answerReadSpan {x y : Byte} (ha : Machine.answerReadSpan x y a s = .ok (t, d)) : P t := by
  unfold Machine.answerReadSpan at ha
  split at ha
  · cases ha; exact h
  · cases ha

omit K in
theorem answerReadPath {x y z w : Byte} (ha : Machine.answerReadPath x y z w a s = .ok (t, d)) : P t := by
  unfold Machine.answerReadPath at ha
  split at ha
  · cases ha
  · cases ha; exact h

omit K in
theorem answerReadCampaign {x : Byte} (ha : Machine.answerReadCampaign x a s = .ok (t, d)) : P t := by
  unfold Machine.answerReadCampaign at ha
  split at ha
  · cases ha
  · cases ha; exact h

omit K in
theorem answerReadResults {x y z : Byte} (ha : Machine.answerReadResults x y z a s = .ok (t, d)) : P t := by
  unfold Machine.answerReadResults at ha
  split at ha
  · cases ha
  · cases ha; exact h

omit K in
theorem answerReadBaseline {x z w : Byte} {y : BitVec 16} (ha : Machine.answerReadBaseline x y z w a s = .ok (t, d)) : P t := by
  unfold Machine.answerReadBaseline at ha
  split at ha
  · cases ha; exact h
  · cases ha

end Sys2Proof.Machine.Quiet
end

