-- ==== Sys2Proof/Laws/KeptCommands.lean ====
section
/-! SUPPORT. What every command keeps: a predicate closed under the named updates, replies and resets holds after a command if
it holds before it. -/

namespace Sys2Proof.Machine

variable {P : State → Prop}

/-! ## Events between grant and dispatch -/

namespace Quiet

variable (K : Quiet P) {s : State} (h : P s)
include K h

theorem grantOrder {n : OrderNo} {o : Order} {c : Chan} : P (s.grantOrder n o c) := by
  unfold State.grantOrder
  exact K.setPrevious (K.carryGrant (K.clearWorking (K.setOrder h)))

theorem considerOrder {n : OrderNo} : P (s.considerOrder n) := by
  unfold State.considerOrder
  split
  · exact h
  · split
    · exact h
    · split
      · exact K.grantOrder h
      · exact h

theorem grantSlice {p : Pair} {n : Slot} {c : Chan} : P (s.grantSlice p n c) := by
  unfold State.grantSlice
  exact K.setLastServed (K.setPrevious (K.carryGrant (K.fixCampaignLevel h)))

omit h in
theorem considerTop {before : State} {acc : State × List Pair} {p : Pair} (h : P acc.1) :
    P (Machine.considerTop before acc p).1 := by
  unfold Machine.considerTop
  split
  · exact h
  · split
    · exact h
    · split
      · exact K.grantSlice h
      · exact h

omit h in
theorem considerTops {before : State} (l : List Pair) {acc : State × List Pair} (h : P acc.1) :
    P (l.foldl (Machine.considerTop before) acc).1 := by
  induction l generalizing acc with
  | nil => exact h
  | cons p l ih => exact ih (K.considerTop h)

omit K h in
theorem perm_serviceAfter {l served : List Pair} (hl : l.Perm allPairs) : (serviceAfter l served).Perm allPairs := by
  unfold serviceAfter
  have h1 : (l.filter (fun p => served.contains p)).Perm (allPairs.filter (fun p => served.contains p)) := hl.filter _
  have h2 := List.filter_append_perm (fun p => !served.contains p) l
  simp only [Bool.not_not] at h2
  exact ((List.Perm.append_left _ h1.symm).trans h2).trans hl

theorem parkUngranted : P s.parkUngranted := by
  unfold State.parkUngranted
  exact foldl_keeps (P := P) (fun _ _ hs => K.parkIfCoasting hs) _ h

theorem grantPass {before : State} : P (s.grantPass before) := by
  unfold State.grantPass
  exact K.parkUngranted (K.setService perm_serviceAfter
    (K.considerTops _ (foldl_keeps (P := P) (fun _ _ hs => K.considerOrder hs) _ h)))

theorem setPeriodic {n : Slot} {x : PeriodicPart} : P (s.setPeriodic n x) := K.setCampaign h

theorem fallDue {n : Slot} {x : PeriodicPart} : P (s.fallDue n x) := by
  unfold State.fallDue
  split
  · exact K.setPeriodic h
  · exact K.queueOrigin (K.setPeriodic h)

theorem dueIfZero {n : Slot} : P (s.dueIfZero n) := by
  unfold State.dueIfZero
  split
  · exact h
  · split
    · exact K.fallDue h
    · exact h

theorem runCountdown {n : Slot} : P (s.runCountdown n) := by
  unfold State.runCountdown
  split
  · exact h
  · exact K.dueIfZero (K.setPeriodic h)

theorem runCountdowns : P s.runCountdowns := by
  unfold State.runCountdowns
  exact foldl_keeps (P := P) (fun _ _ hs => K.runCountdown hs) _ h

theorem commitRoot {n : Slot} {els : List Element} : P (s.commitRoot n els) := by
  unfold State.commitRoot
  exact K.setDemand (.inr (List.length_filter_le _ _)) (K.setChain (K.setCampaign h))

theorem stageTwo {n : Slot} {els : List Element} : P (s.stageTwo n els) := by
  unfold State.stageTwo
  dsimp only
  split
  · exact h
  · split
    · exact h
    · rename_i t ht; exact K.commitRoot (K.allocate h ht)

theorem failDispatch {n : Slot} {r : Reason} : P (s.failDispatch n r) := by
  unfold State.failDispatch
  dsimp only
  split
  · exact K.queueOrigin (K.setCampaign (K.setDemand (.inr (List.length_filter_le _ _)) h))
  · exact K.queueOrigin (K.setCampaign h)
  · exact K.failConfirm h
  all_goals exact h

theorem examine {n : Slot} : P (s.examine n) := by
  unfold State.examine
  split
  · exact K.failDispatch h
  · exact K.stageTwo h

theorem retryRoom {p : Pair} : P (s.retryRoom p) := by
  unfold State.retryRoom
  split
  · exact h
  · split
    · exact K.seekRoom h
    · exact h

theorem dispatchPass : P s.dispatchPass := by
  unfold State.dispatchPass
  exact foldl_keeps (P := P) (fun _ _ hs => K.examine hs) _ (foldl_keeps (P := P) (fun _ _ hs => K.examine hs) _
    (foldl_keeps (P := P) (fun _ _ hs => K.examine hs) _ (foldl_keeps (P := P) (fun _ _ hs => K.retryRoom hs) _ h)))

/-! ## Channels -/

theorem beginPriming {c : Chan} {x : Holder} : P (s.beginPriming c x) := K.setChannel (.inl rfl) h

theorem beginPeriods {c : Chan} : P (s.beginPeriods c) := K.setInverted (K.setChannel (.inl rfl) h)

theorem clearMustPrime {x : Holder} : P (s.clearMustPrime x) := by
  unfold State.clearMustPrime
  split
  · exact K.setCampaign h
  · exact h

theorem takePeriod {n : Slot} {b : Bool} {l : List Sample} : P (s.takePeriod n b l) := by
  unfold State.takePeriod
  split
  · exact K.acceptPeriod h
  · exact h

theorem judgeSlice {n : Slot} {b : Bool} : P (s.judgeSlice n b) := K.setCampaign h

theorem afterSlice {n : Slot} : P (s.afterSlice n) := by
  unfold State.afterSlice
  dsimp only
  split
  · exact K.measurementEnd h
  · split
    · exact K.failChain (K.markDark h)
    · exact h

theorem slicePeriod {c : Chan} {n : Slot} {k : Nat} {x y : Bool} {l : List Sample} : P (s.slicePeriod c n k x y l) := by
  unfold State.slicePeriod
  dsimp only
  split
  · exact K.afterSlice (K.judgeSlice (K.coast (K.takePeriod h)))
  · exact K.setChannel (.inl rfl) (K.takePeriod h)

theorem judgeReference {c : Chan} {n : OrderNo} {o : Order} : P (s.judgeReference c n o) := by
  unfold State.judgeReference
  split
  · exact K.failOrder (K.endBurst (K.setOrder h))
  · exact K.setOrder h

theorem referencePeriod {c : Chan} {n : OrderNo} {o : Order} {l : List Sample} : P (s.referencePeriod c n o l) := by
  unfold State.referencePeriod
  dsimp only
  split
  · exact K.setOrder (K.setInverted (K.addReference h))
  · exact K.judgeReference (K.setInverted (K.addReference h))

theorem wordPeriod {c : Chan} {n : OrderNo} {o : Order} : P (s.wordPeriod c n o) := K.setOrder (K.setInverted h)

theorem listeningPeriod {c : Chan} {n : OrderNo} {o : Order} {l : List Sample} : P (s.listeningPeriod c n o l) := by
  unfold State.listeningPeriod
  dsimp only
  split
  · exact K.setOrder (K.setInverted h)
  · exact K.concludeAttempt (K.setInverted h)

/-! ## Resets -/

theorem recoverStatuses : P s.recoverStatuses := by
  unfold State.recoverStatuses
  split
  · exact K.unstoreBlock h
  · exact foldl_keeps (P := P) (fun _ _ hs => K.settleProgrammed hs) _ h
  · exact h
  · exact h

omit K h in
theorem nodup_markedPairs : s.markedPairs.Nodup := by
  unfold State.markedPairs
  exact List.Nodup.map (fun a b e => by cases e; rfl) (List.Nodup.filter _ (by decide))

omit K h in
theorem system_notMem_markedPairs : Origin.system ∉ s.markedPairs := by
  unfold State.markedPairs
  intro hm
  obtain ⟨p, _, hp⟩ := List.mem_map.1 hm
  cases hp

theorem queueAfterWarm : P s.queueAfterWarm := by
  unfold State.queueAfterWarm
  split
  · exact K.setReports (fun _ => List.nodup_singleton _) h
  · split
    · refine K.setReports (fun _ => ?_) (K.takeFree h)
      exact List.nodup_append.2 ⟨nodup_markedPairs, List.nodup_singleton _, fun a ha b hb => by
        rw [List.mem_singleton.1 hb]; exact fun e => system_notMem_markedPairs (e ▸ ha)⟩
    · exact K.setReports (fun _ => List.nodup_cons.2 ⟨system_notMem_markedPairs, nodup_markedPairs⟩) (K.takeFree h)

end Quiet

/-! ## Requests -/

/-- SET_TIMING keeps what its two updates keep. -/
theorem Asked.answerSetTiming (K : Asked P) {s t : State} (h : P s) {a : Asker} {d : List Byte} {c : Byte} {x : BitVec 16}
    (ha : Machine.answerSetTiming c x a s = .ok (t, d)) : P t := by
  unfold Machine.answerSetTiming at ha
  cases ha
  exact K.takeFree (K.setTimingValue h)

/-- The reply queue is as it was: closed under every update but those of replies and resets. -/
theorem quiet_replies (l : List LinkFrame) : Asked (fun s => s.clk.replies = l) where
  setTimingValue h := by unfold State.setTimingValue; split <;> exact h
  setRecord h := h
  remark _ h := h
  rekind _ _ h := h
  define _ _ _ _ h := h
  undefine h := h
  setPath h := h
  setSpan h := h
  setAssemblyList h := h
  setChannel _ h := h
  closePoint _ _ h := h
  setPointEnabled h := h
  setDarkMark h := h
  setCeilingOf _ _ h := h
  setCells _ h := h
  setExtents _ h := h
  setThresholdValues _ _ _ _ _ _ h := h
  setPrevious h := h
  setLastServed h := h
  setService _ h := h
  setCampaign h := h
  setChain h := h
  setDemand _ h := h
  setPeriodicList _ h := h
  setLineDarkMark h := h
  setGate h := h
  setOrder h := h
  setAcceptance h := h
  setWorking h := h
  setInverted h := h
  setSettings _ _ h := h
  setBaseline h := h
  setStore _ h := h
  setStoreOp h := h
  setStaging h := h
  setLastOp h := h
  setLevel _ h := h
  setReports _ h := h
  setAssembler h := h
  setTransmitter h := h
  setPendingReset h := h
  setBreak h := h
  enterReady h := h
  takeFree h := h

namespace Kept

variable (K : Kept P) {s : State} (h : P s)
include K h

/-- A boundary keeps what the clock and its three passes keep. -/
theorem boundary : P s.boundary := by
  unfold State.boundary
  exact K.toQuiet.concludeEvent (K.toQuiet.dispatchPass (K.toQuiet.runCountdowns (K.toQuiet.grantPass (K.advanceClock h))))

omit K h in
theorem room_of_not_discards (hd : ¬ s.discards = true) : s.clk.replies.length < 8 := by
  unfold State.discards readyOf at hd
  by_contra hn
  simp [hn] at hd

/-- A frame taken keeps what its answer keeps, and the reply queue's room is known at the answer. -/
theorem takeFrame {x : Header} {kind : Byte} {wm : Bool} {needed : Level} {act : Asker → State → Answer}
    (hact : ∀ {Q : State → Prop}, Asked Q → ∀ {a t d}, act a s = .ok (t, d) → Q s → Q t) :
    P (s.takeFrame x kind wm needed act) := by
  unfold State.takeFrame
  split
  · exact h
  · rename_i src _
    split
    · exact h
    · rename_i hd
      refine K.toQuiet.concludeEvent ?_
      have hroom := room_of_not_discards hd
      unfold State.answerRequest
      split
      · rename_i t d ht
        unfold State.judgeRequest at ht
        split at ht
        · cases ht
        · split at ht
          · split at ht
            · cases ht
            · have h1 : t.clk.replies = s.clk.replies := hact (quiet_replies _) ht rfl
              exact K.queueReply (by rw [h1]; exact hroom) (hact K.toAsked ht h)
          · cases ht
      · exact K.queueReply hroom h

theorem takeUnknown {x : Header} {kind : Byte} : P (s.takeUnknown x kind) := by
  unfold State.takeUnknown
  split
  · exact h
  · split
    · exact h
    · rename_i hd
      exact K.toQuiet.concludeEvent (K.queueReply (room_of_not_discards hd) h)

theorem takeMisshapen {x : Header} {kind : Byte} : P (s.takeMisshapen x kind) :=
  K.takeFrame h (fun _ _ _ _ ha _ => nomatch ha)

/-- A request taken keeps what its answer keeps. -/
theorem takeRequest (i : Instr) : P (s.takeRequest i) := by
  cases i
  case powerOn => exact h
  case characterReceived => exact h
  case framingError => exact h
  case lineBreak => exact h
  case breakReset => exact h
  case interCharacterGap => exact h
  case unknownKindRequest => exact K.takeUnknown h
  case transmissionEnd => exact h
  case coldLoadEnd => exact h
  case status => exact K.takeFrame h (fun _ _ _ _ ha hs => by cases ha; exact hs)
  case readEntry => exact K.takeFrame h (fun _ _ _ _ ha hs => Quiet.answerReadEntry hs ha)
  case readSpan => exact K.takeFrame h (fun _ _ _ _ ha hs => Quiet.answerReadSpan hs ha)
  case readPath => exact K.takeFrame h (fun _ _ _ _ ha hs => Quiet.answerReadPath hs ha)
  case readChannels => exact K.takeFrame h (fun _ _ _ _ ha hs => by cases ha; exact hs)
  case readExtents => exact K.takeFrame h (fun _ _ _ _ ha hs => by cases ha; exact hs)
  case readGrants => exact K.takeFrame h (fun Q _ _ _ ha hs => by cases ha; exact Q.takeFree hs)
  case readCampaign => exact K.takeFrame h (fun _ _ _ _ ha hs => Quiet.answerReadCampaign hs ha)
  case readResults => exact K.takeFrame h (fun _ _ _ _ ha hs => Quiet.answerReadResults hs ha)
  case readGates => exact K.takeFrame h (fun _ _ _ _ ha hs => by cases ha; exact hs)
  case readOrders => exact K.takeFrame h (fun _ _ _ _ ha hs => by cases ha; exact hs)
  case readBaseline => exact K.takeFrame h (fun _ _ _ _ ha hs => Quiet.answerReadBaseline hs ha)
  case selectSpan => exact K.takeFrame h (fun Q _ _ _ ha hs => Q.toQuiet.answerSelectSpan hs ha)
  case setSourceLevel => exact K.takeFrame h (fun Q _ _ _ ha hs => Q.toQuiet.answerSetSourceLevel hs ha)
  case start => exact K.takeFrame h (fun Q _ _ _ ha hs => Q.toQuiet.answerStart hs ha)
  case schedule => exact K.takeFrame h (fun Q _ _ _ ha hs => Q.toQuiet.answerSchedule hs ha)
  case abort => exact K.takeFrame h (fun Q _ _ _ ha hs => Q.toQuiet.answerAbort hs ha)
  case release => exact K.takeFrame h (fun Q _ _ _ ha hs => Q.toQuiet.answerRelease hs ha)
  case isolate => exact K.takeFrame h (fun Q _ _ _ ha hs => Q.toQuiet.answerIsolate hs ha)
  case withdrawOrder => exact K.takeFrame h (fun Q _ _ _ ha hs => Q.toQuiet.answerWithdrawOrder hs ha)
  case adopt => exact K.takeFrame h (fun Q _ _ _ ha hs => Q.toQuiet.answerAdopt hs ha)
  case dropBaseline => exact K.takeFrame h (fun Q _ _ _ ha hs => Q.toQuiet.answerDropBaseline hs ha)
  case commit => exact K.takeFrame h (fun Q _ _ _ ha hs => Q.toQuiet.answerCommit hs ha)
  case clearCondition => exact K.takeFrame h (fun Q _ _ _ ha hs => Q.toQuiet.answerClearCondition hs ha)
  case defineEntry => exact K.takeFrame h (fun Q _ _ _ ha hs => Q.toQuiet.answerDefineEntry hs ha)
  case dropEntry => exact K.takeFrame h (fun Q _ _ _ ha hs => Q.toQuiet.answerDropEntry hs ha)
  case pathAppend => exact K.takeFrame h (fun Q _ _ _ ha hs => Q.toQuiet.answerPathAppend hs ha)
  case setPath => exact K.takeFrame h (fun Q _ _ _ ha hs => Q.toQuiet.answerSetPath hs ha)
  case setCrosspoint => exact K.takeFrame h (fun Q _ _ _ ha hs => Q.toQuiet.answerSetCrosspoint hs ha)
  case setCeiling => exact K.takeFrame h (fun Q _ _ _ ha hs => Q.toQuiet.answerSetCeiling hs ha)
  case setOrderSettings => exact K.takeFrame h (fun Q _ _ _ ha hs => Q.toQuiet.answerSetOrderSettings hs ha)
  case setTiming => exact K.takeFrame h (fun Q _ _ _ ha hs => Q.answerSetTiming hs ha)
  case setThresholds => exact K.takeFrame h (fun Q _ _ _ ha hs => Q.toQuiet.answerSetThresholds hs ha)
  case defineGate => exact K.takeFrame h (fun Q _ _ _ ha hs => Q.toQuiet.answerDefineGate hs ha)
  case dropGate => exact K.takeFrame h (fun Q _ _ _ ha hs => Q.toQuiet.answerDropGate hs ha)
  case eraseBlock => exact K.takeFrame h (fun Q _ _ _ ha hs => Q.toQuiet.answerEraseBlock hs ha)
  case reset => exact K.takeFrame h (fun Q _ _ _ ha hs => Q.toQuiet.answerReset hs ha)
  case eraseEnd => exact h
  case slotProgrammed => exact h
  case boundary => exact h
  case periodicDue => exact h
  case settleEnd => exact h
  case primingPeriodEnd => exact h
  case coastingPeriodStart => exact h
  case slicePeriodEnd => exact h
  case referencePeriodEnd => exact h
  case wordPeriodEnd => exact h
  case listeningPeriodEnd => exact h
  case lineReturnsToMark => exact h

theorem takeComplete {x : Header} {kind : Byte} {body : List Byte} : P (s.takeComplete x kind body) := by
  unfold State.takeComplete
  split
  · exact K.takeRequest h _
  · split
    · exact K.takeMisshapen h
    · exact K.takeUnknown h

theorem takeCounted {l : List Byte} : P (s.takeCounted l) := by
  unfold State.takeCounted
  split
  · exact K.takeComplete h
  · exact h

theorem assemble {b : Byte} : P (s.assemble b) := by
  unfold State.assemble
  split
  · split
    · exact K.setAssembler h
    · exact h
  · exact K.setAssembler h
  · exact K.setAssembler h
  · split
    · exact K.setAssembler h
    · unfold State.frameArrived
      split
      · split
        · exact K.takeCounted (K.setAssembler h)
        · exact K.setAssembler h
      · exact K.setAssembler h

theorem warmReset {cause : ResetCause} {strap : LineRate} {x y : Bool} : P (s.warmReset cause strap x y) := by
  unfold State.warmReset
  split
  · exact K.coldReset h
  · exact K.toQuiet.concludeEvent (K.toQuiet.queueAfterWarm (K.warmBlocks (K.toQuiet.recoverStatuses h)))

theorem requestedReset {k : ResetKind} {strap : LineRate} : P (s.requestedReset k strap) := by
  unfold State.requestedReset
  split
  · exact K.coldReset h
  · exact K.warmReset h

/-! ## Commands -/

/-- Every command keeps a closed predicate. -/
theorem exec {i : Instr} {t : State} (ht : Machine.exec i s = .next t) : P t := by
  cases i
  case powerOn => cases ht; exact K.coldReset h
  case characterReceived =>
    unfold Machine.exec execCharacterReceived at ht
    dsimp only at ht
    split at ht
    · cases ht; exact h
    · cases ht; exact K.assemble h
  case framingError => cases ht; exact K.setAssembler h
  case lineBreak =>
    unfold Machine.exec execLineBreak at ht
    dsimp only at ht
    split at ht
    · cases ht; exact h
    · cases ht; exact K.setBreak (K.setAssembler h)
  case breakReset =>
    unfold Machine.exec execBreakReset at ht
    dsimp only at ht
    split at ht
    · cases ht; exact K.warmReset h
    · cases ht; exact h
  case interCharacterGap =>
    unfold Machine.exec execInterCharacterGap at ht
    dsimp only at ht
    split at ht
    · cases ht; exact h
    · cases ht; exact K.setAssembler h
    · cases ht; exact K.setAssembler h
  case unknownKindRequest =>
    unfold Machine.exec execUnknownKindRequest at ht
    dsimp only at ht
    split at ht
    · cases ht
    · cases ht; exact K.takeUnknown h
  case transmissionEnd =>
    unfold Machine.exec execTransmissionEnd at ht
    dsimp only at ht
    split at ht
    · cases ht; exact h
    · cases ht; exact K.toQuiet.chooseNext h
    · split at ht
      · cases ht; exact K.requestedReset (K.replySent h)
      · cases ht; exact K.toQuiet.chooseNext (K.replySent h)
  case coldLoadEnd =>
    unfold Machine.exec execColdLoadEnd at ht
    dsimp only at ht
    split at ht
    · rw [← Host.Outcome.next.inj ht]
      exact K.toQuiet.concludeEvent (K.toQuiet.queueOrigin (K.enterReady (K.setStoreOp (K.toQuiet.loadImage h))))
    · cases ht; exact h
  case status x => cases ht; exact K.takeRequest h (.status x)
  case readEntry x ref => cases ht; exact K.takeRequest h (.readEntry x ref)
  case readSpan x span pair => cases ht; exact K.takeRequest h (.readSpan x span pair)
  case readPath x pair view first count => cases ht; exact K.takeRequest h (.readPath x pair view first count)
  case readChannels x => cases ht; exact K.takeRequest h (.readChannels x)
  case readExtents x => cases ht; exact K.takeRequest h (.readExtents x)
  case readGrants x => cases ht; exact K.takeRequest h (.readGrants x)
  case readCampaign x slot => cases ht; exact K.takeRequest h (.readCampaign x slot)
  case readResults x slot first count => cases ht; exact K.takeRequest h (.readResults x slot first count)
  case readGates x => cases ht; exact K.takeRequest h (.readGates x)
  case readOrders x => cases ht; exact K.takeRequest h (.readOrders x)
  case readBaseline x pair first count view => cases ht; exact K.takeRequest h (.readBaseline x pair first count view)
  case selectSpan x span => cases ht; exact K.takeRequest h (.selectSpan x span)
  case setSourceLevel x source level => cases ht; exact K.takeRequest h (.setSourceLevel x source level)
  case start x r => cases ht; exact K.takeRequest h (.start x r)
  case schedule x r period parity => cases ht; exact K.takeRequest h (.schedule x r period parity)
  case abort x slot => cases ht; exact K.takeRequest h (.abort x slot)
  case release x slot => cases ht; exact K.takeRequest h (.release x slot)
  case isolate x gate ref pair argument force => cases ht; exact K.takeRequest h (.isolate x gate ref pair argument force)
  case withdrawOrder x order => cases ht; exact K.takeRequest h (.withdrawOrder x order)
  case adopt x slot => cases ht; exact K.takeRequest h (.adopt x slot)
  case dropBaseline x pair first last => cases ht; exact K.takeRequest h (.dropBaseline x pair first last)
  case commit x pair first count => cases ht; exact K.takeRequest h (.commit x pair first count)
  case clearCondition x ref pair => cases ht; exact K.takeRequest h (.clearCondition x ref pair)
  case defineEntry x ref kind address spare route => cases ht; exact K.takeRequest h (.defineEntry x ref kind address spare route)
  case dropEntry x ref => cases ht; exact K.takeRequest h (.dropEntry x ref)
  case pathAppend x restart elements => cases ht; exact K.takeRequest h (.pathAppend x restart elements)
  case setPath x pair => cases ht; exact K.takeRequest h (.setPath x pair)
  case setCrosspoint x channel pair mark => cases ht; exact K.takeRequest h (.setCrosspoint x channel pair mark)
  case setCeiling x pair ceiling => cases ht; exact K.takeRequest h (.setCeiling x pair ceiling)
  case setOrderSettings x chip sequence limit => cases ht; exact K.takeRequest h (.setOrderSettings x chip sequence limit)
  case setTiming x change interval => cases ht; exact K.takeRequest h (.setTiming x change interval)
  case setThresholds x floor tStep tDrift => cases ht; exact K.takeRequest h (.setThresholds x floor tStep tDrift)
  case defineGate x gate g => cases ht; exact K.takeRequest h (.defineGate x gate g)
  case dropGate x gate => cases ht; exact K.takeRequest h (.dropGate x gate)
  case eraseBlock x block => cases ht; exact K.takeRequest h (.eraseBlock x block)
  case reset x which => cases ht; exact K.takeRequest h (.reset x which)
  case eraseEnd =>
    unfold Machine.exec execEraseEnd at ht
    dsimp only at ht
    split at ht
    · cases ht; exact K.toQuiet.concludeEvent (K.toQuiet.endErase h)
    all_goals cases ht; exact h
  case slotProgrammed =>
    unfold Machine.exec execSlotProgrammed at ht
    dsimp only at ht
    split at ht
    · cases ht; exact K.toQuiet.concludeEvent (K.toQuiet.slotDone h)
    all_goals cases ht; exact h
  case boundary =>
    unfold Machine.exec execBoundary at ht
    dsimp only at ht
    split at ht
    · cases ht; exact h
    · rw [← Host.Outcome.next.inj ht]; exact K.boundary h
  case periodicDue =>
    unfold Machine.exec execPeriodicDue at ht
    dsimp only at ht
    split at ht
    · cases ht; exact K.toQuiet.concludeEvent (K.toQuiet.dueIfZero h)
    · cases ht; exact h
  case settleEnd =>
    unfold Machine.exec execSettleEnd at ht
    dsimp only at ht
    split at ht
    · cases ht; exact K.toQuiet.concludeEvent (K.toQuiet.beginPriming h)
    · cases ht; exact h
  case primingPeriodEnd =>
    unfold Machine.exec execPrimingPeriodEnd at ht
    dsimp only at ht
    split at ht
    · cases ht; exact K.toQuiet.concludeEvent (K.toQuiet.clearMustPrime (K.toQuiet.beginPeriods h))
    · cases ht; exact h
  case coastingPeriodStart =>
    unfold Machine.exec execCoastingPeriodStart at ht
    dsimp only at ht
    split at ht
    · cases ht; exact K.toQuiet.concludeEvent (K.toQuiet.beginPeriods h)
    · cases ht; exact h
  case slicePeriodEnd =>
    unfold Machine.exec execSlicePeriodEnd at ht
    dsimp only at ht
    split at ht
    · split at ht
      · cases ht; exact K.toQuiet.concludeEvent (K.toQuiet.slicePeriod h)
      · cases ht
    · cases ht; exact h
  case referencePeriodEnd =>
    unfold Machine.exec execReferencePeriodEnd at ht
    dsimp only at ht
    split at ht
    · split at ht
      · cases ht; exact h
      · split at ht
        · cases ht; exact K.toQuiet.concludeEvent (K.toQuiet.referencePeriod h)
        · cases ht
    · cases ht; exact h
  case wordPeriodEnd =>
    unfold Machine.exec execWordPeriodEnd at ht
    dsimp only at ht
    split at ht
    · split at ht
      · cases ht; exact K.toQuiet.concludeEvent (K.toQuiet.wordPeriod h)
      · cases ht; exact h
    · cases ht; exact h
  case listeningPeriodEnd =>
    unfold Machine.exec execListeningPeriodEnd at ht
    dsimp only at ht
    split at ht
    · split at ht
      · cases ht; exact h
      · split at ht
        · cases ht; exact K.toQuiet.concludeEvent (K.toQuiet.listeningPeriod h)
        · cases ht
    · cases ht; exact h
  case lineReturnsToMark => cases ht; exact K.setBreak h

/-- Every step keeps a closed predicate that does not depend on the queue of waiting commands. -/
theorem step {t : State} (hq : ∀ (s : State) (l : List Instr), P s → P { s with pending := l })
    (ht : Machine.step s = .next t) : P t := by
  unfold Machine.step at ht
  split at ht
  · cases ht; exact h
  · exact K.exec (hq _ _ h) ht

end Kept

end Sys2Proof.Machine
end

