-- ==== Sys2Proof/Laws/PerInstr.lean ====
section
/-! SUPPORT. The per-command family `FrameFits`: the body of a well-formed request fits in one link frame (R192). -/

namespace Sys2Proof.Laws.FrameFits

open Sys2Proof Sys2Proof.Machine

/-- The frame of a well-formed request, if the command is one, carries at most the 512 body bytes of a link frame (R192). -/
def Statement (i : Instr) : Prop :=
  i.wellFormed = true → ∀ f, requestFrame i = some f → f.body.length ≤ 512

theorem elements_length (l : List SentElement) : (l.flatMap elementBytes).length = 6 * l.length := by
  induction l with
  | nil => rfl
  | cons e rest ih => rw [List.flatMap_cons, List.length_append, ih, List.length_cons]; show 6 + _ = _; omega

theorem powerOn (strap : LineRate) : Statement (.powerOn strap) := fun _ _ hf => (nomatch hf)
theorem characterReceived (b : Byte) : Statement (.characterReceived b) := fun _ _ hf => (nomatch hf)
theorem framingError : Statement (.framingError) := fun _ _ hf => (nomatch hf)
theorem lineBreak : Statement (.lineBreak) := fun _ _ hf => (nomatch hf)
theorem breakReset (strap : LineRate) : Statement (.breakReset strap) := fun _ _ hf => (nomatch hf)
theorem interCharacterGap : Statement (.interCharacterGap) := fun _ _ hf => (nomatch hf)
theorem unknownKindRequest (h : Header) (kind : Byte) : Statement (.unknownKindRequest h kind) := by
  intro _ f hf
  simp only [requestFrame] at hf
  split at hf
  · cases hf
  · cases hf; exact Nat.zero_le _
theorem transmissionEnd (strap : LineRate) : Statement (.transmissionEnd strap) := fun _ _ hf => (nomatch hf)
theorem coldLoadEnd : Statement (.coldLoadEnd) := fun _ _ hf => (nomatch hf)
theorem status (h : Header) : Statement (.status h) := fun _ _ hf => by cases hf; exact Nat.le_of_ble_eq_true rfl
theorem readEntry (h : Header) (ref : Reference) : Statement (.readEntry h ref) :=
  fun _ _ hf => by cases hf; exact Nat.le_of_ble_eq_true rfl
theorem readSpan (h : Header) (span pair : Byte) : Statement (.readSpan h span pair) :=
  fun _ _ hf => by cases hf; exact Nat.le_of_ble_eq_true rfl
theorem readPath (h : Header) (pair view first count : Byte) : Statement (.readPath h pair view first count) :=
  fun _ _ hf => by cases hf; exact Nat.le_of_ble_eq_true rfl
theorem readChannels (h : Header) : Statement (.readChannels h) := fun _ _ hf => by cases hf; exact Nat.le_of_ble_eq_true rfl
theorem readExtents (h : Header) : Statement (.readExtents h) := fun _ _ hf => by cases hf; exact Nat.le_of_ble_eq_true rfl
theorem readGrants (h : Header) : Statement (.readGrants h) := fun _ _ hf => by cases hf; exact Nat.le_of_ble_eq_true rfl
theorem readCampaign (h : Header) (slot : Byte) : Statement (.readCampaign h slot) :=
  fun _ _ hf => by cases hf; exact Nat.le_of_ble_eq_true rfl
theorem readResults (h : Header) (slot first count : Byte) : Statement (.readResults h slot first count) :=
  fun _ _ hf => by cases hf; exact Nat.le_of_ble_eq_true rfl
theorem readGates (h : Header) : Statement (.readGates h) := fun _ _ hf => by cases hf; exact Nat.le_of_ble_eq_true rfl
theorem readOrders (h : Header) : Statement (.readOrders h) := fun _ _ hf => by cases hf; exact Nat.le_of_ble_eq_true rfl
theorem readBaseline (h : Header) (pair : Byte) (first : BitVec 16) (count view : Byte) :
    Statement (.readBaseline h pair first count view) :=
  fun _ _ hf => by cases hf; exact Nat.le_of_ble_eq_true rfl
theorem selectSpan (h : Header) (span : Byte) : Statement (.selectSpan h span) :=
  fun _ _ hf => by cases hf; exact Nat.le_of_ble_eq_true rfl
theorem setSourceLevel (h : Header) (source level : Byte) : Statement (.setSourceLevel h source level) :=
  fun _ _ hf => by cases hf; exact Nat.le_of_ble_eq_true rfl
theorem start (h : Header) (r : CampaignRequest) : Statement (.start h r) :=
  fun _ _ hf => by cases hf; exact Nat.le_of_ble_eq_true rfl
theorem schedule (h : Header) (r : CampaignRequest) (period : BitVec 16) (parity : Byte) :
    Statement (.schedule h r period parity) :=
  fun _ _ hf => by cases hf; exact Nat.le_of_ble_eq_true rfl
theorem abort (h : Header) (slot : Byte) : Statement (.abort h slot) := fun _ _ hf => by cases hf; exact Nat.le_of_ble_eq_true rfl
theorem release (h : Header) (slot : Byte) : Statement (.release h slot) :=
  fun _ _ hf => by cases hf; exact Nat.le_of_ble_eq_true rfl
theorem isolate (h : Header) (gate : Byte) (ref : Reference) (pair argument force : Byte) :
    Statement (.isolate h gate ref pair argument force) :=
  fun _ _ hf => by cases hf; exact Nat.le_of_ble_eq_true rfl
theorem withdrawOrder (h : Header) (order : Byte) : Statement (.withdrawOrder h order) :=
  fun _ _ hf => by cases hf; exact Nat.le_of_ble_eq_true rfl
theorem adopt (h : Header) (slot : Byte) : Statement (.adopt h slot) := fun _ _ hf => by cases hf; exact Nat.le_of_ble_eq_true rfl
theorem dropBaseline (h : Header) (pair : Byte) (first last : BitVec 16) : Statement (.dropBaseline h pair first last) :=
  fun _ _ hf => by cases hf; exact Nat.le_of_ble_eq_true rfl
theorem commit (h : Header) (pair : Byte) (first : BitVec 16) (count : Byte) : Statement (.commit h pair first count) :=
  fun _ _ hf => by cases hf; exact Nat.le_of_ble_eq_true rfl
theorem clearCondition (h : Header) (ref : Reference) (pair : Byte) : Statement (.clearCondition h ref pair) :=
  fun _ _ hf => by cases hf; exact Nat.le_of_ble_eq_true rfl
theorem defineEntry (h : Header) (ref : Reference) (kind address spare route : Byte) :
    Statement (.defineEntry h ref kind address spare route) :=
  fun _ _ hf => by cases hf; exact Nat.le_of_ble_eq_true rfl
theorem dropEntry (h : Header) (ref : Reference) : Statement (.dropEntry h ref) :=
  fun _ _ hf => by cases hf; exact Nat.le_of_ble_eq_true rfl
theorem pathAppend (h : Header) (restart : Byte) (elements : List SentElement) : Statement (.pathAppend h restart elements) := by
  intro w f hf
  cases hf
  have hw := of_decide_eq_true w
  simp only [List.length_append, elements_length, List.length_cons, List.length_nil]
  omega
theorem setPath (h : Header) (pair : Byte) : Statement (.setPath h pair) :=
  fun _ _ hf => by cases hf; exact Nat.le_of_ble_eq_true rfl
theorem setCrosspoint (h : Header) (channel pair mark : Byte) : Statement (.setCrosspoint h channel pair mark) :=
  fun _ _ hf => by cases hf; exact Nat.le_of_ble_eq_true rfl
theorem setCeiling (h : Header) (pair : Byte) (ceiling : BitVec 16) : Statement (.setCeiling h pair ceiling) :=
  fun _ _ hf => by cases hf; exact Nat.le_of_ble_eq_true rfl
theorem setOrderSettings (h : Header) (chip sequence limit : Byte) : Statement (.setOrderSettings h chip sequence limit) :=
  fun _ _ hf => by cases hf; exact Nat.le_of_ble_eq_true rfl
theorem setTiming (h : Header) (change : Byte) (interval : BitVec 16) : Statement (.setTiming h change interval) :=
  fun _ _ hf => by cases hf; exact Nat.le_of_ble_eq_true rfl
theorem setThresholds (h : Header) (floor tStep tDrift : BitVec 16) : Statement (.setThresholds h floor tStep tDrift) :=
  fun _ _ hf => by cases hf; exact Nat.le_of_ble_eq_true rfl
theorem defineGate (h : Header) (gate : Byte) (g : GateRequest) : Statement (.defineGate h gate g) :=
  fun _ _ hf => by cases hf; exact Nat.le_of_ble_eq_true rfl
theorem dropGate (h : Header) (gate : Byte) : Statement (.dropGate h gate) :=
  fun _ _ hf => by cases hf; exact Nat.le_of_ble_eq_true rfl
theorem eraseBlock (h : Header) (block : Byte) : Statement (.eraseBlock h block) :=
  fun _ _ hf => by cases hf; exact Nat.le_of_ble_eq_true rfl
theorem reset (h : Header) (which : Byte) : Statement (.reset h which) :=
  fun _ _ hf => by cases hf; exact Nat.le_of_ble_eq_true rfl
theorem eraseEnd : Statement (.eraseEnd) := fun _ _ hf => (nomatch hf)
theorem slotProgrammed : Statement (.slotProgrammed) := fun _ _ hf => (nomatch hf)
theorem boundary : Statement (.boundary) := fun _ _ hf => (nomatch hf)
theorem periodicDue (slot : Fin 32) : Statement (.periodicDue slot) := fun _ _ hf => (nomatch hf)
theorem settleEnd (c : Fin 4) : Statement (.settleEnd c) := fun _ _ hf => (nomatch hf)
theorem primingPeriodEnd (c : Fin 4) : Statement (.primingPeriodEnd c) := fun _ _ hf => (nomatch hf)
theorem coastingPeriodStart (c : Fin 4) : Statement (.coastingPeriodStart c) := fun _ _ hf => (nomatch hf)
theorem slicePeriodEnd (c : Fin 4) (present : Bool) (samples : List Sample) : Statement (.slicePeriodEnd c present samples) :=
  fun _ _ hf => (nomatch hf)
theorem referencePeriodEnd (c : Fin 4) (samples : List Sample) : Statement (.referencePeriodEnd c samples) :=
  fun _ _ hf => (nomatch hf)
theorem wordPeriodEnd (c : Fin 4) : Statement (.wordPeriodEnd c) := fun _ _ hf => (nomatch hf)
theorem listeningPeriodEnd (c : Fin 4) (samples : List Sample) : Statement (.listeningPeriodEnd c samples) :=
  fun _ _ hf => (nomatch hf)
theorem lineReturnsToMark : Statement (.lineReturnsToMark) := fun _ _ hf => (nomatch hf)

end Sys2Proof.Laws.FrameFits
end

