-- ==== Sys2Proof/Laws/Walk.lean ====
section
/-! SUPPORT. What a suspect walk and the returns it leads to do: the making of a child, the elements passed, a child's return, a root's
finish, and the chain's unwinding as one event (R86, R88, R89, R119, R123). -/

namespace Sys2Proof.Machine

/-! ## Tables and checks in the two spellings -/

theorem targetMerge_eq (c : Condition) (cls : ElementClass) : targetMerge c cls = targeted c cls := by
  cases c <;> cases cls <;> rfl

theorem targeted_inconclusive (c : Condition) : targeted (targeted c .inconclusive) .inconclusive = targeted c .inconclusive := by
  cases c <;> rfl

theorem targeted_aborted (c : Condition) : targeted c .aborted = c := by cases c <;> rfl

theorem ResultElement.final_eq (r : ResultElement) : r.final = finalVerdict r := by
  unfold ResultElement.final finalVerdict; cases r.refined <;> rfl

theorem summarize_eq (l : List ResultElement) : summarize l = verdictSummary l := by
  unfold summarize verdictSummary seen
  have h1 : (!l.any ResultElement.hasEcho) = true ↔ ∀ r ∈ l, r.echo = -12000 := by
    simp [ResultElement.hasEcho]
  have h2 : ∀ c, (l.any fun r => r.final == some c) = true ↔ ∃ r ∈ l, finalVerdict r = some c := by
    intro c; simp [List.any_eq_true, ResultElement.final_eq]
  have h3 : ((l.any fun r => r.final == some .spike) || l.any fun r => r.final == some .lost) = true
      ↔ ∃ r ∈ l, finalVerdict r = some .spike ∨ finalVerdict r = some .lost := by
    rw [Bool.or_eq_true, h2, h2]
    constructor
    · rintro (⟨r, a, b⟩ | ⟨r, a, b⟩)
      · exact ⟨r, a, .inl b⟩
      · exact ⟨r, a, .inr b⟩
    · rintro ⟨r, a, b | b⟩
      · exact .inl ⟨r, a, b⟩
      · exact .inr ⟨r, a, b⟩
  have h4 : ((((l.any fun r => r.final == some .ambiguous) || l.any fun r => r.final == some .inconclusive)
        || l.any fun r => r.final == some .aborted)
      || l.any fun r => r.refined == some .noEcho || r.refined == some .noBaseline) = true
      ↔ ∃ r ∈ l, finalVerdict r = some .ambiguous ∨ finalVerdict r = some .inconclusive ∨ finalVerdict r = some .aborted
          ∨ r.refined = some .noEcho ∨ r.refined = some .noBaseline := by
    rw [Bool.or_eq_true, Bool.or_eq_true, Bool.or_eq_true, h2, h2, h2]
    simp only [List.any_eq_true, Bool.or_eq_true, beq_iff_eq]
    constructor
    · rintro (((⟨r, a, b⟩ | ⟨r, a, b⟩) | ⟨r, a, b⟩) | ⟨r, a, b⟩)
      · exact ⟨r, a, .inl b⟩
      · exact ⟨r, a, .inr (.inl b)⟩
      · exact ⟨r, a, .inr (.inr (.inl b))⟩
      · exact ⟨r, a, .inr (.inr (.inr b))⟩
    · rintro ⟨r, a, b | b | b | b⟩
      · exact .inl (.inl (.inl ⟨r, a, b⟩))
      · exact .inl (.inl (.inr ⟨r, a, b⟩))
      · exact .inl (.inr ⟨r, a, b⟩)
      · exact .inr ⟨r, a, b⟩
  simp only [h1, h2, h3, h4]

theorem elementsFrom_length (chip : Code) : ∀ (k : Nat) (l : List PathElement), (elementsFrom chip k l).length = l.length
  | _, [] => rfl
  | k, _ :: l => by simp [elementsFrom, elementsFrom_length chip (k + 1) l]

theorem elementsFrom_get (chip : Code) : ∀ (k : Nat) (l : List PathElement) (j : Nat),
    (elementsFrom chip k l)[j]? = l[j]?.map (fun x => { entry := x.entry, lag := nominalLag x.delay chip, position := k + j })
  | _, [], j => by simp [elementsFrom]
  | k, x :: l, 0 => by simp [elementsFrom]
  | k, x :: l, j + 1 => by
    simp only [elementsFrom, List.getElem?_cons_succ]
    rw [elementsFrom_get chip (k + 1) l j]
    congr 1; funext x; congr 1; omega

/-- The element list of a run of positions is the one its rules give (R41, R84). -/
theorem State.rangeElements_elementList (s : State) (p : Pair) (chip : Code) (first last : Nat) :
    s.rangeElements p chip first last (elementList (s.effectivePath p) chip first last) := by
  refine ⟨by simp [elementList, elementsFrom_length], fun j e h => ?_⟩
  unfold elementList at h
  rw [elementsFrom_get] at h
  obtain ⟨x, hx, rfl⟩ := Option.map_eq_some_iff.1 h
  rw [List.getElem?_take] at hx
  split at hx
  · rw [List.getElem?_drop] at hx
    exact ⟨x, hx, rfl⟩
  · cases hx

theorem lagsFit_eq (sequence : Code) (els : List Element) : lagsFit sequence els = true ↔ noAlias sequence els := by
  unfold lagsFit noAlias
  simp

theorem lagsApart_eq : ∀ els : List Element, lagsApart els = true ↔ resolves els
  | [] => ⟨fun _ j e f h => by simp at h, fun _ => rfl⟩
  | [x] => ⟨fun _ j e f _ h => by simp at h, fun _ => rfl⟩
  | x :: y :: l => by
    have ih := lagsApart_eq (y :: l)
    unfold lagsApart
    rw [Bool.and_eq_true, ih]
    simp only [Bool.or_eq_true, decide_eq_true_eq]
    constructor
    · rintro ⟨h1, h2⟩ j e f he hf
      cases j with
      | zero => simp at he hf; subst he; subst hf; exact h1
      | succ j => exact h2 j e f (by simpa using he) (by simpa using hf)
    · intro h
      exact ⟨h 0 x y rfl rfl, fun j e f he hf => h (j + 1) e f (by simpa using he) (by simpa using hf)⟩

theorem mem_allSlots (n : Slot) : n ∈ allSlots := by revert n; decide

theorem allSlots_rising : allSlots.Pairwise (· < ·) := by decide

theorem State.freeSlot_eq {s : State} {m : Slot} (h : s.freeSlot = some m) : s.lowestFreeSlot m := by
  unfold State.freeSlot at h
  obtain ⟨h1, as, bs, h2, h3⟩ := List.find?_eq_some_iff_append.1 h
  refine ⟨by simpa using h1, fun k hk => ?_⟩
  have hm := mem_allSlots k
  have hp := allSlots_rising
  rw [h2] at hm hp
  rw [List.pairwise_append] at hp
  rcases List.mem_append.1 hm with hm | hm
  · simpa using h3 k hm
  · rcases List.mem_cons.1 hm with rfl | hm
    · exact absurd hk (lt_irrefl _)
    · have := (List.pairwise_cons.1 hp.2.1).1 k hm
      exact absurd hk (not_lt.2 (le_of_lt this))

theorem State.freeSlot_none {s : State} (h : s.freeSlot = none) : ¬ ∃ m, (s.campaign m).state = .free := by
  rintro ⟨m, hm⟩
  have := List.find?_eq_none.1 h m (mem_allSlots m)
  simp [hm] at this


theorem childRange_eq (r : ResultElement) (len : Nat) : childRange r.verdict r.position len
    = (if r.verdict = some .breakAfter then r.position else max 1 (r.position - 1), min len (r.position + 1)) := by
  unfold childRange; split <;> rfl

/-- Asking for room for a child just made (R44, R86, step 5). -/
theorem State.seekRoom_eq {s : State} {m : Slot} {record : Campaign} (h : s.campaign m = record) :
    (∀ a, firstFit (5 * record.elements.length) s.ecr.extents 0 = some a →
      (s.seekRoom m).campaign m = { record with state := .measuring, extent := some (a, 5 * record.elements.length) }
      ∧ (s.seekRoom m).ecr.extents
          = insertExtent { start := a, length := 5 * record.elements.length, slot := m } s.ecr.extents
      ∧ ∀ x, (s.seekRoom m).cell x = if a ≤ x ∧ x < a + 5 * record.elements.length then 0 else s.cell x)
    ∧ (firstFit (5 * record.elements.length) s.ecr.extents 0 = none → s.seekRoom m = s)
    ∧ (∀ j, j ≠ m → (s.seekRoom m).campaign j = s.campaign j)
    ∧ s.seekRoom m = { s with
        ecr := { s.ecr with extents := (s.seekRoom m).ecr.extents, cells := (s.seekRoom m).ecr.cells }
        cen := { s.cen with slots := (s.seekRoom m).cen.slots } } := by
  subst h
  unfold State.seekRoom State.allocate
  cases hf : firstFit (5 * (s.campaign m).elements.length) s.ecr.extents 0 with
  | none =>
    refine ⟨fun a h => (by cases h), fun _ => rfl, fun _ _ => rfl, rfl⟩
  | some a =>
    refine ⟨fun b h => ?_, fun h => (by cases h), fun j hj => ?_, rfl⟩
    · cases h
      refine ⟨?_, rfl, fun x => ?_⟩
      · simp only [State.campaign_setCampaign, if_true]
        rfl
      · show tableGet 0 (tableClear s.ecr.cells a _) x = _
        split
        · rename_i hi; exact tableGet_tableClear_in _ _ hi
        · rename_i hi; exact tableGet_tableClear_out _ _ hi
    · simp only [State.campaign_setCampaign, if_neg hj]
      rfl

theorem childExponent_eq (c : Campaign) : childExponent c = exponentBelow c := by
  unfold childExponent exponentBelow; split <;> rfl

/-- A child that has been asked for and passes every check is made (R86, steps 3 to 5). -/
theorem State.addChild_eq {s : State} {n m : Slot} (r : ResultElement) (first last : Nat) (els : List Element) (hm : m ≠ n) :
    s.childAdded (State.seekRoom
      (((s.setCampaign m (childOf (s.campaign n) n (first, last) els)).setCampaign n
          { s.campaign n with state := .nested, cursor := some r.position }).setChain (s.campaign n).pair
            (s.chain (s.campaign n).pair ++ [m])) m) (s.campaign n).pair n m r first last els := by
  generalize hw : ((s.setCampaign m (childOf (s.campaign n) n (first, last) els)).setCampaign n
    { s.campaign n with state := .nested, cursor := some r.position }).setChain (s.campaign n).pair
      (s.chain (s.campaign n).pair ++ [m]) = w
  have wc : w.campaign m = childOf (s.campaign n) n (first, last) els := by
    rw [← hw]
    show (State.setCampaign _ _ _).campaign m = _
    rw [State.campaign_setCampaign, if_neg hm, State.campaign_setCampaign, if_pos rfl]
  obtain ⟨h1, h2, h3, h4⟩ := State.seekRoom_eq wc
  have we : w.ecr = s.ecr := by rw [← hw]; rfl
  rw [we] at h1 h2
  refine ⟨?_, ⟨_, rfl, fun a ha => ?_, fun hn => ?_⟩, ?_, ?_, ?_, ?_⟩
  · rw [h3 n hm.symm, ← hw]
    show (State.setCampaign _ _ _).campaign n = _
    rw [State.campaign_setCampaign, if_pos rfl]
  · obtain ⟨a1, a2, a3⟩ := h1 a ha
    refine ⟨?_, a2, fun x hx hy => ?_⟩
    · rw [a1]; simp only [childOf, childExponent_eq]
    · rw [a3, if_pos ⟨hx, hy⟩]
  · rw [h2 hn]
    exact ⟨by rw [wc]; simp only [childOf, childExponent_eq], by rw [we]⟩
  · intro j hj hjm
    rw [h3 j hjm, ← hw]
    show (State.setCampaign _ _ _).campaign j = _
    rw [State.campaign_setCampaign, if_neg hj, State.campaign_setCampaign, if_neg hjm]
  · intro q
    have : (w.seekRoom m).chain q = w.chain q := by rw [h4]; rfl
    rw [this, ← hw, State.chain_setChain]
    rfl
  · intro a ha
    cases hf : firstFit (5 * els.length) s.ecr.extents 0 with
    | none => rw [h2 hf, ← hw]; rfl
    | some b =>
      obtain ⟨a1, a2, a3⟩ := h1 b hf
      rw [a3]
      have := ha (b, 5 * els.length) (by rw [a1]; rfl)
      have hn : ¬ (b ≤ a ∧ a < b + 5 * (childOf (s.campaign n) n (first, last) els).elements.length) := by
        show ¬ (b ≤ a ∧ a < b + 5 * els.length)
        omega
      rw [if_neg hn, ← hw]; rfl
  · rw [h4, ← hw]
    rfl

/-- A child asked for: made, or stopped by the first limit or check that fails (R86, R122). -/
theorem State.makeChild_eq {s : State} {n : Slot} {r : ResultElement} (hr : (s.campaign n).resultAt r.position = some r)
    (hs : (s.campaign n).state ≠ .free) (hc : (s.campaign n).cursor = some r.position) :
    (∀ t, s.makeChild n r.position = .ok t → ∃ first last els m, s.childPlan n r first last els
        ∧ (∀ x ∈ s.childChecks n els, x.1) ∧ s.lowestFreeSlot m ∧ m ≠ n
        ∧ s.childAdded t (s.campaign n).pair n m r first last els)
    ∧ ∀ reason, s.makeChild n r.position = .error reason → s.childBlocked n r reason := by
  unfold State.makeChild
  simp only [hr, Option.bind_some, childRange_eq]
  generalize hf : (if r.verdict = some .breakAfter then r.position else max 1 (r.position - 1)) = first
  generalize hl : min (s.effectivePath (s.campaign n).pair).length (r.position + 1) = last
  generalize he : elementList (s.effectivePath (s.campaign n).pair) (s.campaign n).requested.chip first last = els
  have plan : s.childPlan n r first last els := ⟨hf.symm, hl.symm, he ▸ State.rangeElements_elementList _ _ _ _ _⟩
  have blocked : ∀ passed check reason failed, s.childChecks n els = passed ++ (check, reason) :: failed → (∀ c ∈ passed, c.1) →
      ¬ check → s.childBlocked n r reason := fun passed check reason failed h1 h2 h3 => ⟨first, last, els, passed, check, failed, plan, h1, h2, h3⟩
  rw [childExponent_eq]
  split
  · rename_i h1
    refine ⟨fun t h => (by cases h), fun reason h => ?_⟩
    cases h
    exact blocked [] _ _ _ rfl (fun _ h => (nomatch h)) (by omega)
  · rename_i h1
    have c1 : (s.campaign n).depth + 1 ≤ 8 := by omega
    split
    · rename_i h2
      refine ⟨fun t h => (by cases h), fun reason h => ?_⟩
      cases h
      exact blocked [_] _ _ _ rfl (by simpa using c1) (by omega)
    · rename_i h2
      have c2 : exponentBelow (s.campaign n) ≤ 15 := by omega
      cases hm : s.freeSlot with
      | none =>
        refine ⟨fun t h => (by cases h), fun reason h => ?_⟩
        cases h
        exact blocked [_, _] _ _ _ rfl (by simpa using ⟨c1, c2⟩) (State.freeSlot_none hm)
      | some m =>
        have low := State.freeSlot_eq hm
        have c3 : ∃ m, (s.campaign m).state = .free := ⟨m, low.1⟩
        have hmn : m ≠ n := fun e => hs (e ▸ low.1)
        simp only
        split
        · rename_i h3
          refine ⟨fun t h => (by cases h), fun reason h => ?_⟩
          cases h
          refine blocked [_, _, _] _ _ _ rfl ?_ (fun hx => ?_)
          · simp only [List.mem_cons, List.not_mem_nil, or_false, forall_eq_or_imp, forall_eq]; exact ⟨c1, c2, c3⟩
          · rw [(lagsFit_eq _ _).2 hx] at h3; cases h3
        · rename_i h3
          have c4 : noAlias (s.campaign n).requested.sequence els := (lagsFit_eq _ _).1 (by simpa using h3)
          split
          · rename_i h4
            refine ⟨fun t h => (by cases h), fun reason h => ?_⟩
            cases h
            refine blocked [_, _, _, _] _ _ _ rfl ?_ (fun hx => ?_)
            · simp only [List.mem_cons, List.not_mem_nil, or_false, forall_eq_or_imp, forall_eq]; exact ⟨c1, c2, c3, c4⟩
            · rw [(lagsApart_eq _).2 hx] at h4; cases h4
          · rename_i h4
            have c5 : resolves els := (lagsApart_eq _).1 (by simpa using h4)
            refine ⟨fun t h => ?_, fun reason h => (by cases h)⟩
            refine ⟨first, last, els, m, plan, ?_, low, hmn, ?_⟩
            · unfold State.childChecks
              simp only [List.mem_cons, List.not_mem_nil, or_false, forall_eq_or_imp, forall_eq]
              exact ⟨c1, c2, c3, c4, c5⟩
            · cases h
              have := State.addChild_eq (s := s) (m := m) r first last els hmn
              have e1 : (s.setCampaign m (childOf (s.campaign n) n (first, last) els)).campaign n = s.campaign n := by
                rw [State.campaign_setCampaign, if_neg (fun e => hmn e.symm)]
              rw [e1]
              have e2 : ({ s.campaign n with state := .nested, cursor := some r.position } : Campaign)
                  = { s.campaign n with state := .nested } := by rw [← hc]
              rw [e2] at this
              exact this

/-! ## What the plan of a child depends on -/

theorem State.effectivePath_congr {s u : State} (h1 : u.lpt.entries = s.lpt.entries) (h2 : u.lpt.paths = s.lpt.paths) (p : Pair) :
    u.effectivePath p = s.effectivePath p := by
  have hk : ∀ i, u.kindOf i = s.kindOf i := by intro i; unfold State.kindOf State.entry; rw [h1]
  have hp : u.path p = s.path p := by unfold State.path; rw [h2]
  have hb : ∀ l, u.branchOf l = s.branchOf l := by
    intro l
    induction l with
    | nil => rfl
    | cons e r ih => unfold State.branchOf; rw [hk, ih]
  unfold State.effectivePath
  rw [hp, hb]

/-- Two states agree in what the plan and the checks of a child of a campaign read. -/
structure State.SamePlan (s u : State) (n : Slot) : Prop where
  entries : u.lpt.entries = s.lpt.entries
  paths : u.lpt.paths = s.lpt.paths
  pair : (u.campaign n).pair = (s.campaign n).pair
  requested : (u.campaign n).requested = (s.campaign n).requested
  depth : (u.campaign n).depth = (s.campaign n).depth
  exponent : (u.campaign n).exponent = (s.campaign n).exponent
  kind : (u.campaign n).kind = (s.campaign n).kind
  states : ∀ m, (u.campaign m).state = (s.campaign m).state

variable {s u : State} {n : Slot}

theorem State.SamePlan.childPlan (h : s.SamePlan u n) {r : ResultElement} {first last : Nat} {els : List Element} :
    u.childPlan n r first last els ↔ s.childPlan n r first last els := by
  have e := State.effectivePath_congr h.entries h.paths
  unfold State.childPlan State.rangeElements
  rw [h.pair, h.requested]
  simp only [e]

theorem State.SamePlan.childChecks (h : s.SamePlan u n) (els : List Element) : u.childChecks n els = s.childChecks n els := by
  have e : exponentBelow (u.campaign n) = exponentBelow (s.campaign n) := by unfold exponentBelow; rw [h.exponent, h.kind]
  unfold State.childChecks
  rw [h.depth, e, h.requested]
  simp only [h.states]

theorem State.SamePlan.childBlocked (h : s.SamePlan u n) {r : ResultElement} {reason : Reason} :
    u.childBlocked n r reason ↔ s.childBlocked n r reason := by
  unfold State.childBlocked
  simp only [h.childPlan, h.childChecks]

theorem State.SamePlan.lowestFreeSlot (h : s.SamePlan u n) {m : Slot} : u.lowestFreeSlot m ↔ s.lowestFreeSlot m := by
  unfold State.lowestFreeSlot
  simp only [h.states]

/-! ## The walk -/

/-- A campaign with its cursor moved. -/
def State.withCursor (s : State) (n : Slot) (k : Option Nat) : State := s.setCampaign n { s.campaign n with cursor := k }

theorem State.campaign_withCursor (s : State) (n m : Slot) (k : Option Nat) :
    (s.withCursor n k).campaign m = if m = n then { s.campaign n with cursor := k } else s.campaign m := State.campaign_setCampaign

theorem State.withCursor_withCursor (s : State) (n : Slot) (j k : Option Nat) : (s.withCursor n j).withCursor n k = s.withCursor n k := by
  unfold State.withCursor
  rw [State.campaign_setCampaign, if_pos rfl]
  simp [State.setCampaign]

theorem find_position {l : List ResultElement} (h : (l.map ResultElement.position).Pairwise (· < ·)) {r : ResultElement} (hr : r ∈ l) :
    l.find? (fun y => y.position == r.position) = some r := by
  induction l with
  | nil => cases hr
  | cons x l ih =>
    rw [List.map_cons, List.pairwise_cons] at h
    rcases List.mem_cons.1 hr with rfl | hr
    · simp
    · have : x.position < r.position := h.1 _ (List.mem_map_of_mem hr)
      rw [List.find?_cons_of_neg (by simp; omega)]
      exact ih h.2 hr

theorem eq_of_position {l : List ResultElement} (h : (l.map ResultElement.position).Pairwise (· < ·)) {r y : ResultElement} (hr : r ∈ l)
    (hy : y ∈ l) (e : y.position = r.position) : y = r := by
  have h1 := find_position h hr
  have h2 := find_position h hy
  rw [e] at h2
  rw [h1] at h2
  cases h2; rfl

/-- One more record refined with the same class. -/
theorem State.classApplied_snoc {s u : State} {p : Pair} {l : List Index} {R : List Origin} {i : Index}
    (h : s.classApplied u p l .inconclusive R) : s.classApplied (u.applyTarget i p .inconclusive) p (l ++ [i]) .inconclusive R := by
  unfold State.applyTarget
  rw [targetMerge_eq]
  obtain ⟨records, e, hr⟩ := u.setCondition_eq i p (targeted (u.record i p).condition .inconclusive)
  obtain ⟨h1, h2⟩ := h
  refine ⟨fun j q => ?_, ?_⟩
  · rw [hr, h1, h1 i p]
    simp only [List.mem_append, List.mem_singleton]
    by_cases hq : q = p
    · subst hq
      by_cases hj : j = i
      · subst hj
        by_cases hl : j ∈ l
        · simp [hl, targeted_inconclusive]
        · simp [hl]
          cases targeted (s.record j q).condition .inconclusive <;> cases (s.record j q).condition <;> rfl
      · by_cases hl : j ∈ l <;> simp [hj, hl]
    · simp [hq]
  · rw [e]
    show joined u.clk.reports _ = _
    rw [h2, h1 i p, ← joined_append]
    simp only [List.any_append, List.any_cons, List.any_nil, Bool.or_false]
    by_cases hl : i ∈ l
    · simp only [hl, and_self, if_true, targeted_inconclusive, List.append_nil]
      cases hx : (!(targeted (s.record i p).condition .inconclusive == (s.record i p).condition))
      · simp
      · have : (l.any fun i => !(targeted (s.record i p).condition .inconclusive == (s.record i p).condition)) = true := by
          rw [List.any_eq_true]; exact ⟨i, hl, hx⟩
        rw [this]; simp
    · simp only [hl, and_false, if_false]
      by_cases hx : (s.record i p).condition = targeted (s.record i p).condition .inconclusive
      · rw [if_pos hx, ← hx]; simp
      · rw [if_neg hx]
        have : (!(targeted (s.record i p).condition .inconclusive == (s.record i p).condition)) = true := by
          simp; exact fun e => hx e.symm
        rw [this]
        cases (l.any fun i => !(targeted (s.record i p).condition .inconclusive == (s.record i p).condition))
        · simp
        · simp only [joined, Bool.or_true, if_true, List.cons_append, List.nil_append]
          split <;> rename_i h <;> simp_all

/-- One more walked element refined INCONCLUSIVE (R119, step 4). -/
theorem State.walkedPast_snoc {s u : State} {p : Pair} {n : Slot} {blocked : List ResultElement}
    {reason : ResultElement → Reason} {r : ResultElement} {x : Reason} (hp : (s.campaign n).pair = p)
    (hpos : ((s.campaign n).results.map ResultElement.position).Pairwise (· < ·)) (hr : r ∈ (s.campaign n).results)
    (hn : r ∉ blocked)
    (h : s.walkedPast (u.withCursor n (s.campaign n).cursor) p n blocked reason) :
    s.walkedPast (((u.withCursor n (some r.position)).writeRefined n r.position .inconclusive none (some x)).withCursor n
      (s.campaign n).cursor) p n (blocked ++ [r]) (fun y => if y = r then x else reason y) := by
  obtain ⟨h1, h2, h3, h4⟩ := h
  rw [State.campaign_withCursor, if_pos rfl] at h2
  have hres : (u.campaign n).results = refineBlocked (s.campaign n).results blocked reason := by
    by_cases hb0 : blocked = []
    · rw [if_pos hb0] at h2
      have := congrArg Campaign.results h2
      rw [hb0]; simpa [refineBlocked] using this
    · rw [if_neg hb0] at h2
      exact congrArg Campaign.results h2
  have hpair : (u.campaign n).pair = p := by
    rw [← hp]
    have := congrArg Campaign.pair h2
    rw [show ({ u.campaign n with cursor := (s.campaign n).cursor } : Campaign).pair = (u.campaign n).pair from rfl] at this
    rw [this]; split <;> rfl
  -- the refined list
  have href : ((u.campaign n).results.map (fun y => if y.position = r.position then
      { y with refined := some .inconclusive, refiningDepth := none, reason := some x } else y))
      = refineBlocked (s.campaign n).results (blocked ++ [r]) (fun y => if y = r then x else reason y) := by
    rw [hres]
    unfold refineBlocked
    rw [List.map_map]
    refine List.map_congr_left (fun y hy => ?_)
    simp only [Function.comp]
    by_cases hyr : y = r
    · subst hyr; simp [hn]
    · have hpy : y.position ≠ r.position := fun e => hyr (eq_of_position hpos hr hy e)
      by_cases hyb : y ∈ blocked
      · simp [hyb, hyr, hpy]
      · simp [hyb, hyr, hpy]
  have hat : ({ u.campaign n with cursor := some r.position } : Campaign).resultAt r.position = some r := by
    show (u.campaign n).results.find? _ = _
    rw [hres]
    have hm : r ∈ refineBlocked (s.campaign n).results blocked reason := by
      unfold refineBlocked
      exact List.mem_map.2 ⟨r, hr, if_neg hn⟩
    refine find_position ?_ hm
    have : (refineBlocked (s.campaign n).results blocked reason).map ResultElement.position
        = (s.campaign n).results.map ResultElement.position := by
      unfold refineBlocked
      rw [List.map_map]
      refine List.map_congr_left (fun y _ => ?_)
      simp only [Function.comp]; split <;> rfl
    rw [this]; exact hpos
  unfold State.writeRefined
  rw [State.campaign_withCursor, if_pos rfl]
  simp only [hat]
  generalize hw : ((u.withCursor n (some r.position)).setCampaign n _) = w
  rw [hpair]
  have hwc : w.campaign n = { u.campaign n with
      cursor := some r.position
      results := refineBlocked (s.campaign n).results (blocked ++ [r]) (fun y => if y = r then x else reason y)
      summary := some (verdictSummary (refineBlocked (s.campaign n).results (blocked ++ [r]) (fun y => if y = r then x else reason y))) } := by
    rw [← hw, State.campaign_setCampaign, if_pos rfl, summarize_eq, href]
  have hwo : ∀ m, m ≠ n → w.campaign m = u.campaign m := by
    intro m hm
    rw [← hw, State.campaign_setCampaign, if_neg hm, State.campaign_withCursor, if_neg hm]
  have hwl : ∀ i q, w.record i q = u.record i q := by intro i q; rw [← hw]; rfl
  have h1' : s.classApplied w p (blocked.map ResultElement.entry) .inconclusive s.clk.reports := by
    refine ⟨fun i q => ?_, ?_⟩
    · rw [hwl]; exact h1.1 i q
    · rw [← hw]; exact h1.2
  have happ := State.classApplied_snoc (i := r.entry) h1'
  have hcen : (w.applyTarget r.entry p .inconclusive).cen = w.cen := by
    unfold State.applyTarget
    obtain ⟨_, e, _⟩ := w.setCondition_eq r.entry p (targetMerge (w.record r.entry p).condition .inconclusive)
    rw [e]
  have hcam : ∀ m, (w.applyTarget r.entry p .inconclusive).campaign m = w.campaign m := by
    intro m; unfold State.campaign; rw [hcen]
  refine ⟨?_, ?_, ?_, ?_⟩
  · rw [List.map_append]
    exact ⟨happ.1, happ.2⟩
  · rw [State.campaign_withCursor, if_pos rfl, hcam, hwc, if_neg (by simp)]
    have := congrArg (fun c : Campaign => { c with
      results := refineBlocked (s.campaign n).results (blocked ++ [r]) (fun y => if y = r then x else reason y)
      summary := some (verdictSummary (refineBlocked (s.campaign n).results (blocked ++ [r])
        (fun y => if y = r then x else reason y))) }) h2
    by_cases hb0 : blocked = []
    · simp only [if_pos hb0] at this; exact this
    · simp only [if_neg hb0] at this; exact this
  · intro m hm
    rw [State.campaign_withCursor, if_neg hm, hcam, hwo m hm]
    have := h3 m hm
    rwa [State.campaign_withCursor, if_neg hm] at this
  · unfold State.applyTarget
    obtain ⟨_, e, _⟩ := w.setCondition_eq r.entry p (targetMerge (w.record r.entry p).condition .inconclusive)
    rw [e]
    have hu : u = { s with lpt := { s.lpt with records := u.lpt.records }, cen := { s.cen with slots := u.cen.slots },
                           clk := { s.clk with reports := u.clk.reports } } := by
      have e : u = { u.withCursor n (s.campaign n).cursor with
          cen := { (u.withCursor n (s.campaign n).cursor).cen with slots := u.cen.slots } } := rfl
      rw [h4] at e
      exact e
    rw [← hw, hu]
    rfl

theorem State.walkedPast.samePlan {s u : State} {p : Pair} {n : Slot} {blocked : List ResultElement} {reason : ResultElement → Reason}
    (h : s.walkedPast u p n blocked reason) : s.SamePlan u n := by
  obtain ⟨-, h2, h3, h4⟩ := h
  refine ⟨by rw [h4], by rw [h4], ?_, ?_, ?_, ?_, ?_, fun m => ?_⟩
  iterate 5 (rw [h2]; split <;> rfl)
  by_cases hm : m = n
  · subst hm; rw [h2]; split <;> rfl
  · rw [h3 m hm]

theorem State.SamePlan.withCursor {s u : State} {n : Slot} {j : Option Nat} (k : Option Nat) (h : s.SamePlan (u.withCursor n j) n) :
    s.SamePlan (u.withCursor n k) n := by
  obtain ⟨h1, h2, h3, h4, h5, h6, h7, h8⟩ := h
  rw [State.campaign_withCursor, if_pos rfl] at h3 h4 h5 h6 h7
  refine ⟨h1, h2, ?_, ?_, ?_, ?_, ?_, fun m => ?_⟩
  iterate 5 (rw [State.campaign_withCursor, if_pos rfl]; assumption)
  have := h8 m
  rw [State.campaign_withCursor] at this ⊢
  split at this <;> rename_i hm
  · rw [if_pos hm]; exact this
  · rw [if_neg hm]; exact this

theorem State.childAdded.withCursor {u t : State} {p : Pair} {n m : Slot} {r : ResultElement} {first last : Nat} {els : List Element}
    {j : Option Nat} (k : Option Nat) (h : (u.withCursor n j).childAdded t p n m r first last els) :
    (u.withCursor n k).childAdded t p n m r first last els := by
  obtain ⟨h1, h2, h3, h4, h5, h6⟩ := h
  refine ⟨?_, ?_, ?_, h4, h5, h6⟩
  · rw [State.campaign_withCursor, if_pos rfl] at h1 ⊢; exact h1
  · rw [State.campaign_withCursor, if_pos rfl] at h2 ⊢; exact h2
  · intro i hi hm
    rw [h3 i hi hm, State.campaign_withCursor, State.campaign_withCursor, if_neg hi, if_neg hi]

/-- What a walk over some elements can do: it passes those for which no child can be made, and makes a child for the first other one
or ends with the cursor absent (R119). -/
theorem State.walkFrom_eq {s : State} {p : Pair} {n : Slot} (hp : (s.campaign n).pair = p) (hs : (s.campaign n).state ≠ .free)
    (hpos : ((s.campaign n).results.map ResultElement.position).Pairwise (· < ·)) :
    ∀ (l blocked : List ResultElement) (reason : ResultElement → Reason) (u : State),
      (∀ r ∈ blocked, s.childBlocked n r (reason r)) → (∀ r ∈ blocked ++ l, r ∈ (s.campaign n).results) → (blocked ++ l).Nodup →
      s.walkedPast (u.withCursor n (s.campaign n).cursor) p n blocked reason →
      ∃ (more rest : List ResultElement) (reason : ResultElement → Reason) (v : State), l = more ++ rest
        ∧ (∀ r ∈ blocked ++ more, s.childBlocked n r (reason r)) ∧ s.walkedPast v p n (blocked ++ more) reason
        ∧ ((∃ r later first last els m t, rest = r :: later ∧ s.childPlan n r first last els ∧ (∀ x ∈ s.childChecks n els, x.1)
              ∧ s.lowestFreeSlot m ∧ v.childAdded t p n m r first last els
              ∧ State.walkFrom n (l.map ResultElement.position) u = (t, true))
          ∨ rest = [] ∧ State.walkFrom n (l.map ResultElement.position) u = (v.withCursor n none, false))
  | [], blocked, reason, u, h1, _, _, h4 =>
    ⟨[], [], reason, _, rfl, by simpa using h1, by simpa using h4, .inr ⟨rfl, by
      rw [State.withCursor_withCursor]; rfl⟩⟩
  | r :: l, blocked, reason, u, h1, h2, h3, h4 => by
    have hr : r ∈ (s.campaign n).results := h2 r (by simp)
    have hn : r ∉ blocked := fun hrb => (List.nodup_append.1 h3).2.2 r hrb r (by simp) rfl
    have same := h4.samePlan.withCursor (some r.position)
    generalize hu : u.withCursor n (some r.position) = u' at same
    have hcur : (u'.campaign n).cursor = some r.position := by rw [← hu, State.campaign_withCursor, if_pos rfl]
    have hst : (u'.campaign n).state ≠ .free := by rw [same.states]; exact hs
    have hat : (u'.campaign n).resultAt r.position = some r := by
      have e := h4.2.1
      rw [State.campaign_withCursor, if_pos rfl] at e
      have hres : (u'.campaign n).results = refineBlocked (s.campaign n).results blocked reason := by
        rw [← hu, State.campaign_withCursor, if_pos rfl]
        by_cases hb0 : blocked = []
        · rw [if_pos hb0] at e
          have := congrArg Campaign.results e
          rw [hb0]; simpa [refineBlocked] using this
        · rw [if_neg hb0] at e
          exact congrArg Campaign.results e
      unfold Campaign.resultAt
      rw [hres]
      refine find_position ?_ ?_
      · have : (refineBlocked (s.campaign n).results blocked reason).map ResultElement.position
            = (s.campaign n).results.map ResultElement.position := by
          unfold refineBlocked
          rw [List.map_map]
          refine List.map_congr_left (fun y _ => ?_)
          simp only [Function.comp]; split <;> rfl
        rw [this]; exact hpos
      · unfold refineBlocked
        exact List.mem_map.2 ⟨r, hr, if_neg hn⟩
    obtain ⟨m1, m2⟩ := State.makeChild_eq hat hst hcur
    have step : State.walkFrom n ((r :: l).map ResultElement.position) u = match u'.makeChild n r.position with
        | .ok s => (s, true)
        | .error reason => State.walkFrom n (l.map ResultElement.position) (u'.writeRefined n r.position .inconclusive none (some reason)) := by
      rw [← hu]; rfl
    rw [step]
    cases hmk : u'.makeChild n r.position with
    | ok t =>
      obtain ⟨first, last, els, m, a1, a2, a3, -, a4⟩ := m1 t hmk
      refine ⟨[], r :: l, reason, _, rfl, by simpa using h1, by simpa using h4, .inl ⟨r, l, first, last, els, m, t, rfl,
        same.childPlan.1 a1, ?_, same.lowestFreeSlot.1 a3, ?_, rfl⟩⟩
      · rw [← same.childChecks]; exact a2
      · rw [same.pair, hp, ← hu] at a4
        exact a4.withCursor _
    | error x =>
      have hx := same.childBlocked.1 (m2 x hmk)
      have h4' := State.walkedPast_snoc (x := x) hp hpos hr hn h4
      rw [hu] at h4'
      obtain ⟨more, rest, reason2, v, e1, e2, e3, e4⟩ := State.walkFrom_eq hp hs hpos l (blocked ++ [r])
        (fun y => if y = r then x else reason y) _ (by
          intro y hy
          by_cases hyr : y = r
          · subst hyr; simp only [if_true]; exact hx
          · simp only [if_neg hyr]
            exact h1 y ((List.mem_append.1 hy).resolve_right (by simpa using hyr))) (by simpa using h2) (by simpa using h3) h4'
      exact ⟨r :: more, rest, reason2, v, by rw [e1]; rfl, by simpa using e2, by simpa using e3, e4⟩

theorem State.withCursor_self (s : State) (n : Slot) : s.withCursor n (s.campaign n).cursor = s := by
  have : s.cen.slots.set n (s.cen.slots[n]) = s.cen.slots := by simp
  show { s with cen := { s.cen with slots := s.cen.slots.set n (s.cen.slots[n]) } } = s
  rw [this]

theorem State.targetOf_eq (s : State) (n : Slot) : s.targetOf (s.campaign n) = s.targetPosition n := by
  unfold State.targetOf State.targetPosition
  cases (s.campaign n).parent <;> rfl

theorem State.toWalk_eq (s : State) (n : Slot) : s.toWalk n = (s.leftToWalk n).map ResultElement.position := by
  unfold State.toWalk State.leftToWalk
  simp only
  congr 1
  have hw : s.walkable n (s.campaign n).results = (s.campaign n).results.filter (walks (s.campaign n) (s.targetOf (s.campaign n))) := by
    rw [State.targetOf_eq]
    unfold State.walkable
    have none_of : ∀ f : ResultElement → Bool, (∀ r, f r = false) → (s.campaign n).results.filter f = [] :=
      fun f h => List.filter_eq_nil_iff.2 (fun r _ => by rw [h r]; simp)
    cases hk : (s.campaign n).kind with
    | none => exact (none_of _ (fun r => by unfold walks; rw [hk]; cases r.verdict <;> rfl)).symm
    | some kind =>
      cases kind with
      | survey =>
        simp only
        split
        · rename_i ha
          refine List.filter_congr (fun r _ => ?_)
          unfold walks; rw [hk]
          cases r.verdict with
          | none => rfl
          | some c => simp only [ha]; cases c <;> rfl
        · rename_i ha
          refine (none_of _ (fun r => ?_)).symm
          unfold walks; rw [hk]
          cases r.verdict with
          | none => rfl
          | some c => simp only [Bool.not_eq_true] at ha; simp [ha]
      | locate =>
        cases ho : (s.campaign n).origin <;>
          (refine List.filter_congr (fun r _ => ?_)
           unfold walks; rw [hk, ho]
           cases r.verdict with
           | none => rfl
           | some c => cases c <;> simp)
      | confirm =>
        refine (none_of _ (fun r => ?_)).symm
        unfold walks; rw [hk]; cases r.verdict <;> rfl
  rw [hw, List.filter_filter]
  refine List.filter_congr (fun r _ => ?_)
  cases (s.campaign n).cursor <;> exact Bool.and_comm _ _

/-- What a walk can do. -/
theorem State.walk_eq {s : State} {p : Pair} {n : Slot} (hp : (s.campaign n).pair = p) (hs : (s.campaign n).state ≠ .free)
    (hpos : ((s.campaign n).results.map ResultElement.position).Pairwise (· < ·)) :
    ∃ (blocked rest : List ResultElement) (reason : ResultElement → Reason) (v : State), s.leftToWalk n = blocked ++ rest
        ∧ (∀ r ∈ blocked, s.childBlocked n r (reason r)) ∧ s.walkedPast v p n blocked reason
        ∧ ((∃ r later first last els m t, rest = r :: later ∧ s.childPlan n r first last els ∧ (∀ x ∈ s.childChecks n els, x.1)
              ∧ s.lowestFreeSlot m ∧ v.childAdded t p n m r first last els ∧ s.walk n = (t, true))
          ∨ rest = [] ∧ s.walk n = (v.withCursor n none, false)) := by
  have hsub : (s.leftToWalk n).Sublist (s.campaign n).results := List.filter_sublist.trans (by
    unfold State.walkable
    split
    · split
      · exact List.filter_sublist
      · exact List.nil_sublist _
    · exact List.filter_sublist
    · exact List.filter_sublist
    · exact List.nil_sublist _)
  have hnd : (s.campaign n).results.Nodup := by
    exact (List.pairwise_map.1 hpos).imp (fun h e => by subst e; exact absurd h (lt_irrefl _))
  have h0 : s.walkedPast (s.withCursor n (s.campaign n).cursor) p n [] (fun _ => .depth) := by
    rw [State.withCursor_self]
    exact ⟨⟨fun i q => by simp, by simp [joined]⟩, by simp, fun _ _ => rfl, rfl⟩
  obtain ⟨more, rest, reason, v, e1, e2, e3, e4⟩ := State.walkFrom_eq hp hs hpos (s.leftToWalk n) [] _ s (fun _ h => (nomatch h))
    (fun r hr => hsub.subset (by simpa using hr)) (by simpa using hsub.nodup hnd) h0
  refine ⟨more, rest, reason, v, e1, by simpa using e2, by simpa using e3, ?_⟩
  have : s.walk n = State.walkFrom n ((s.leftToWalk n).map ResultElement.position) s := by
    unfold State.walk; rw [State.toWalk_eq]
  rw [this]
  exact e4

/-! ## Finishing and returning -/

/-- The release of an extent: the slot's slice has ended, its extent is gone (R45, R46). -/
theorem State.releaseExtent_eq {s : State} {n : Slot} (h : s.oneChannelEach [n]) :
    s.slicesEnded (s.releaseExtent n) [n]
      ∧ (∀ m, (s.releaseExtent n).campaign m = if m = n then { s.campaign n with extent := none } else s.campaign m)
      ∧ s.releaseExtent n = { s with
          pch := { s.pch with channels := (s.releaseExtent n).pch.channels }
          ecr := { s.ecr with extents := s.ecr.extents.filter (fun e => e.slot != n) }
          cen := { s.cen with slots := (s.releaseExtent n).cen.slots } } := by
  obtain ⟨h1, h2⟩ := State.endSlice_eq h
  unfold State.releaseExtent State.dropExtent
  generalize hv : s.endSlice n = v at h1 h2
  have hc : ∀ m, v.campaign m = s.campaign m := by intro m; rw [h2]; rfl
  refine ⟨State.slicesEnded_of_channels h1 rfl, fun m => ?_, ?_⟩
  · rw [State.campaign_setCampaign]
    show (if m = n then { v.campaign n with extent := none } else v.campaign m) = _
    rw [hc, hc]
  · rw [h2]; rfl

/-- A demand or periodic root that has walked finishes (R90). -/
theorem State.finishRoot_eq {v : State} {p : Pair} {n : Slot} (h : v.oneChannelEach [n])
    (ho : (v.campaign n).origin = .demand ∨ (v.campaign n).origin = .periodic) :
    v.rootFinished ((v.withCursor n none).finishRoot p n) p n := by
  have hc : (v.withCursor n none).oneChannelEach [n] := h
  obtain ⟨h1, h2, h3⟩ := State.releaseExtent_eq hc
  generalize hw : ((v.withCursor n none).releaseExtent n).setChain p [] = w
  have wn : w.campaign n = { v.campaign n with cursor := none, extent := none } := by
    rw [← hw]
    show ((v.withCursor n none).releaseExtent n).campaign n = _
    rw [h2, if_pos rfl, State.campaign_withCursor, if_pos rfl]
  have wm : ∀ m, m ≠ n → w.campaign m = v.campaign m := by
    intro m hm
    rw [← hw]
    show ((v.withCursor n none).releaseExtent n).campaign m = _
    rw [h2, if_neg hm, State.campaign_withCursor, if_neg hm]
  have wr : w = { v with
      pch := { v.pch with channels := w.pch.channels }
      ecr := { v.ecr with extents := v.ecr.extents.filter (fun e => e.slot != n) }
      cen := { v.cen with slots := w.cen.slots, chains := w.cen.chains } } := by
    rw [← hw]
    show State.setChain _ _ _ = _
    rw [h3]
    rfl
  have wch : ∀ q, w.chain q = if q = p then [] else v.chain q := by
    intro q
    rw [← hw, State.chain_setChain, h3]; rfl
  have wsl : v.slicesEnded w [n] := State.slicesEnded_of_channels' (s := v.withCursor n none)
    (State.slicesEnded_of_channels h1 (by rw [← hw]; rfl)) rfl
  have key : (v.withCursor n none).finishRoot p n = (w.setCampaign n (finishedRoot { v.campaign n with extent := none })).setReports
      (joined w.clk.reports [.campaign n]) := by
    unfold State.finishRoot
    simp only [hw]
    rw [wn]
    simp only
    rcases ho with ho | ho <;> (rw [ho]; simp only [State.queueOrigin_eq, finishedRoot]; rfl)
  rw [key]
  refine ⟨?_, ?_, ?_, ?_, ?_⟩
  · show (State.setCampaign _ _ _).campaign n = _
    rw [State.campaign_setCampaign, if_pos rfl]
  · intro m hm
    show (State.setCampaign _ _ _).campaign m = _
    rw [State.campaign_setCampaign, if_neg hm, wm m hm]
  · exact wch
  · exact State.slicesEnded_of_channels wsl rfl
  · have : w.clk.reports = v.clk.reports := by rw [wr]
    rw [this]
    rw [wr]
    rfl

/-- A refined class written at an element of a campaign's list (R111, R116). -/
theorem State.writeRefined_eq {s : State} {n : Slot} {k : Nat} {cls : ElementClass} {depth : Option Nat} {reason : Option Reason}
    {element : ResultElement} {p : Pair} (hp : (s.campaign n).pair = p)
    (hpos : ((s.campaign n).results.map ResultElement.position).Pairwise (· < ·)) (he : element ∈ (s.campaign n).results)
    (hk : element.position = k) :
    (s.writeRefined n k cls depth reason).campaign n = { s.campaign n with
        results := refineAt (s.campaign n).results k cls depth reason
        summary := some (verdictSummary (refineAt (s.campaign n).results k cls depth reason)) }
    ∧ (∀ m, m ≠ n → (s.writeRefined n k cls depth reason).campaign m = s.campaign m)
    ∧ s.classApplied (s.writeRefined n k cls depth reason) p [element.entry] cls s.clk.reports
    ∧ s.writeRefined n k cls depth reason = { s with
        lpt := { s.lpt with records := (s.writeRefined n k cls depth reason).lpt.records }
        cen := { s.cen with slots := (s.writeRefined n k cls depth reason).cen.slots }
        clk := { s.clk with reports := (s.writeRefined n k cls depth reason).clk.reports } } := by
  have hat : (s.campaign n).resultAt k = some element := by
    unfold Campaign.resultAt; rw [← hk]; exact find_position hpos he
  obtain ⟨w, hw⟩ : ∃ w, s.setCampaign n { s.campaign n with
      results := (s.campaign n).results.map (fun r =>
        if r.position = k then { r with refined := some cls, refiningDepth := depth, reason := reason } else r)
      summary := some (summarize ((s.campaign n).results.map (fun r =>
        if r.position = k then { r with refined := some cls, refiningDepth := depth, reason := reason } else r))) } = w := ⟨_, rfl⟩
  have key : s.writeRefined n k cls depth reason = w.applyTarget element.entry p cls := by
    unfold State.writeRefined
    simp only [hat]
    rw [← hp, hw]
  rw [key]
  have hwn : w.campaign n = { s.campaign n with
        results := refineAt (s.campaign n).results k cls depth reason
        summary := some (verdictSummary (refineAt (s.campaign n).results k cls depth reason)) } := by
    rw [← hw, State.campaign_setCampaign, if_pos rfl, summarize_eq]; rfl
  have hwm : ∀ m, m ≠ n → w.campaign m = s.campaign m := by
    intro m hm; rw [← hw, State.campaign_setCampaign, if_neg hm]
  have hwl : ∀ i q, w.record i q = s.record i q := by intro i q; rw [← hw]; rfl
  have hwr : w.clk = s.clk := by rw [← hw]; rfl
  unfold State.applyTarget
  rw [targetMerge_eq]
  obtain ⟨records, e, hr⟩ := w.setCondition_eq element.entry p (targeted (w.record element.entry p).condition cls)
  refine ⟨?_, ?_, ⟨fun i q => ?_, ?_⟩, ?_⟩
  · rw [e]; exact hwn
  · intro m hm; rw [e]; exact hwm m hm
  · rw [hr, hwl, hwl]
    by_cases hq : q = p
    · subst hq
      by_cases hi : i = element.entry
      · subst hi; simp
        cases (s.record element.entry q).changed <;> cases targeted (s.record element.entry q).condition cls <;> cases (s.record element.entry q).condition <;> rfl
      · simp [hi]
    · simp [hq]
  · rw [e]
    show joined w.clk.reports _ = _
    rw [hwl, hwr]
    by_cases hx : (s.record element.entry p).condition = targeted (s.record element.entry p).condition cls
    · rw [if_pos hx]; simp [← hx]
    · rw [if_neg hx]
      have : (!(targeted (s.record element.entry p).condition cls == (s.record element.entry p).condition)) = true := by
        simp; exact fun e => hx e.symm
      simp only [List.any_cons, List.any_nil, Bool.or_false, this, if_true]
  · rw [e, ← hw]; rfl

/-- A child that has walked returns to its parent (R89, R123). -/
theorem State.returnChild_eq {v : State} {p : Pair} {n q : Slot} {k : Nat} {target element : ResultElement} (h : v.oneChannelEach [n])
    (hnq : q ≠ n) (hpar : (v.campaign n).parent = some q) (hcur : (v.campaign q).cursor = some k)
    (hn : ((v.campaign n).results.map ResultElement.position).Pairwise (· < ·)) (ht : target ∈ (v.campaign n).results)
    (htk : target.position = k) (htv : target.verdict ≠ none) (hqp : (v.campaign q).pair = p)
    (hq : ((v.campaign q).results.map ResultElement.position).Pairwise (· < ·)) (he : element ∈ (v.campaign q).results)
    (hek : element.position = k) :
    v.returned ((v.withCursor n none).returnChild p n q) p n q := by
  obtain ⟨cls, hcls⟩ : ∃ cls, finalVerdict target = some cls := by
    unfold finalVerdict
    cases target.refined with
    | some c => exact ⟨c, rfl⟩
    | none => exact Option.ne_none_iff_exists'.1 htv
  have hv : (v.withCursor n none).targetVerdict n = some (cls, target.refiningDepth.getD (v.campaign n).depth,
      if target.refined = none then none else target.reason) := by
    unfold State.targetVerdict State.targetOf Campaign.resultAt
    simp only [State.campaign_withCursor, if_true, hpar, hnq, if_false, hcur, Option.bind_some]
    rw [← htk, find_position hn ht]
    simp only [ResultElement.final_eq, hcls, Option.map_some]
    cases target.refined <;> rfl
  unfold State.returnChild
  simp only [hv]
  have hd := State.dropSlot_eq (s := v.withCursor n none) (n := n) h
  have hr : ∃ w, (v.withCursor n none).resumeParent p n q = w ∧ w.campaign n = {}
      ∧ w.campaign q = { v.campaign q with state := .measuring } ∧ (∀ m, m ≠ n → m ≠ q → w.campaign m = v.campaign m)
      ∧ (∀ y, w.chain y = if y = p then (v.chain p).dropLast else v.chain y) ∧ v.slicesEnded w [n]
      ∧ w = { v with
          pch := { v.pch with channels := w.pch.channels }
          ecr := { v.ecr with extents := v.ecr.extents.filter (fun e => e.slot != n) }
          cen := { v.cen with slots := w.cen.slots, chains := w.cen.chains }
          clk := { v.clk with reports := v.clk.reports.filter (fun y => !(y == Origin.campaign n)) } } := by
    refine ⟨_, rfl, ?_⟩
    unfold State.resumeParent
    generalize hx : (v.withCursor n none).dropSlot n = x at hd
    obtain ⟨d1, d2, d3, d4⟩ := hd
    have xq : x.campaign q = v.campaign q := by
      rw [d3 q (by simpa using hnq), State.campaign_withCursor, if_neg hnq]
    have yq : (x.setChain p ((v.withCursor n none).chain p).dropLast).campaign q = v.campaign q := xq
    simp only
    rw [yq]
    refine ⟨?_, ?_, fun m h1 h2 => ?_, fun y => ?_, ?_, ?_⟩
    · rw [State.campaign_setCampaign, if_neg (fun e => hnq e.symm)]
      exact d2 n (by simp)
    · rw [State.campaign_setCampaign, if_pos rfl]
    · rw [State.campaign_setCampaign, if_neg h2]
      show x.campaign m = _
      rw [d3 m (by simpa using h1), State.campaign_withCursor, if_neg h1]
    · show (x.setChain p _).chain y = _
      rw [State.chain_setChain, d4]; rfl
    · exact State.slicesEnded_of_channels' (s := v.withCursor n none) (State.slicesEnded_of_channels d1 rfl) rfl
    · rw [d4]
      simp only [State.setCampaign, State.setChain]
      congr 1
      · congr 1
        refine List.filter_congr (fun e _ => ?_)
        by_cases e1 : e.slot = n <;> simp [List.contains_eq_mem, e1]
      · congr 1
        refine List.filter_congr (fun e _ => ?_)
        by_cases e1 : e = Origin.campaign n <;> simp [List.contains_eq_mem, e1]
  obtain ⟨w, hw, w1, w2, w3, w4, w5, w6⟩ := hr
  rw [hw]
  have wcur : (w.campaign q).cursor = some k := by rw [w2]; exact hcur
  simp only [wcur]
  obtain ⟨r1, r2, r3, r4⟩ := State.writeRefined_eq (s := w) (n := q) (k := k) (cls := cls)
    (depth := some (target.refiningDepth.getD (v.campaign n).depth)) (reason := if target.refined = none then none else target.reason)
    (element := element) (p := p) (by rw [w2]; exact hqp) (by rw [w2]; exact hq) (by rw [w2]; exact he) hek
  generalize hy : w.writeRefined q k cls _ _ = y at r1 r2 r3 r4
  refine ⟨k, target, element, cls, _, hcur, ht, htk, hcls, he, hek, rfl, ?_, ?_, ?_, ?_, ?_, ?_, ?_⟩
  · rw [r2 n (fun e => hnq e.symm)]; exact w1
  · rw [r1, w2]
  · intro m h1 h2; rw [r2 m h2, w3 m h1 h2]
  · intro z
    rw [← w4, r4]; rfl
  · exact State.slicesEnded_of_channels w5 (by rw [r4])
  · have hrec : ∀ i z, w.record i z = v.record i z := by intro i z; rw [w6]; rfl
    have hrep : w.clk.reports = v.clk.reports.filter (fun y => !(y == Origin.campaign n)) := by rw [w6]
    refine ⟨fun i z => ?_, ?_⟩
    · rw [r3.1]; simp only [hrec]
    · rw [r3.2]; simp only [hrec, hrep]
  · rw [r4, w6]

/-! ## The chain unwinds -/

theorem refineAt_keeps (l : List ResultElement) (k : Nat) (cls : ElementClass) (depth : Option Nat) (reason : Option Reason) :
    (refineAt l k cls depth reason).map (fun r => (r.position, r.verdict)) = l.map (fun r => (r.position, r.verdict)) := by
  unfold refineAt
  rw [List.map_map]
  refine List.map_congr_left (fun r _ => ?_)
  simp only [Function.comp]; split <;> rfl

theorem refineBlocked_keeps (l blocked : List ResultElement) (reason : ResultElement → Reason) :
    (refineBlocked l blocked reason).map (fun r => (r.position, r.verdict)) = l.map (fun r => (r.position, r.verdict)) := by
  unfold refineBlocked
  rw [List.map_map]
  refine List.map_congr_left (fun r _ => ?_)
  simp only [Function.comp]; split <;> rfl

theorem positions_of {l m : List ResultElement} (h : m.map (fun r => (r.position, r.verdict)) = l.map (fun r => (r.position, r.verdict))) :
    m.map ResultElement.position = l.map ResultElement.position := by
  have := congrArg (List.map Prod.fst) h
  simpa [List.map_map, Function.comp_def] using this

theorem member_of {l m : List ResultElement} (h : m.map (fun r => (r.position, r.verdict)) = l.map (fun r => (r.position, r.verdict)))
    {r : ResultElement} (hr : r ∈ l) : ∃ y ∈ m, y.position = r.position ∧ y.verdict = r.verdict := by
  have : (r.position, r.verdict) ∈ m.map (fun r => (r.position, r.verdict)) := by rw [h]; exact List.mem_map_of_mem hr
  obtain ⟨y, hy, e⟩ := List.mem_map.1 this
  exact ⟨y, hy, congrArg Prod.fst e, congrArg Prod.snd e⟩

/-- Links carry over to a state and a list that agree in what they read. -/
theorem State.linked_congr {s t : State} {p : Pair} : ∀ {n : Slot} {l m : List ResultElement} {below : List Slot},
    m.map (fun r => (r.position, r.verdict)) = l.map (fun r => (r.position, r.verdict)) →
    (t.campaign n).pair = (s.campaign n).pair → (t.campaign n).origin = (s.campaign n).origin →
    (t.campaign n).parent = (s.campaign n).parent → (∀ j ∈ below, t.campaign j = s.campaign j) →
    s.linked p n l below → t.linked p n m below
  | n, l, m, [], hl, h1, h2, h3, _, h => by
    unfold State.linked at h ⊢
    rw [h1, h2, positions_of hl]; exact h
  | n, l, m, q :: below, hl, h1, h2, h3, h4, h => by
    unfold State.linked at h ⊢
    obtain ⟨a1, a2, a3, a4, ⟨k, target, element, b1, b2, b3, b4, b5, b6⟩, a6⟩ := h
    have hq := h4 q List.mem_cons_self
    obtain ⟨y, y1, y2, y3⟩ := member_of hl b2
    rw [h1, h2, h3, positions_of hl, hq]
    exact ⟨a1, a2, a3, a4, ⟨k, y, element, b1, y1, y2.trans b3, by rw [y3]; exact b4, b5, b6⟩,
      State.linked_congr rfl (by rw [hq]) (by rw [hq]) (by rw [hq]) (fun j hj => h4 j (List.mem_cons_of_mem _ hj)) a6⟩

theorem State.linked_head {s : State} {p : Pair} {n : Slot} {l : List ResultElement} {below : List Slot} (h : s.linked p n l below) :
    (s.campaign n).pair = p ∧ (l.map ResultElement.position).Pairwise (· < ·) := by
  cases below <;> (unfold State.linked at h; exact ⟨h.1, h.2.1⟩)

/-- What the walk and the returns of a chain do, one event (R88, R89, R119). -/
theorem State.unwind_eq {p : Pair} : ∀ (below : List Slot) (n : Slot) (s : State), (n :: below).Nodup →
    s.oneChannelEach (n :: below) → (s.campaign n).state ≠ .free → s.linked p n (s.campaign n).results below →
    s.unwound p (n :: below) (State.unwind p (n :: below) s)
  | [], n, s, _, h1, hs, hl => by
    obtain ⟨hp, hpos⟩ := State.linked_head hl
    obtain ⟨blocked, rest, reason, v, e1, e2, e3, e4⟩ := State.walk_eq hp hs hpos
    refine ⟨blocked, rest, reason, v, e1, e2, e3, ?_⟩
    unfold State.unwind
    rcases e4 with ⟨r, later, first, last, els, m, t, a1, a2, a3, a4, a5, a6⟩ | ⟨a1, a2⟩
    · rw [a6]; exact .inl ⟨r, later, first, last, els, m, a1, a2, a3, a4, a5⟩
    · rw [a2]
      refine .inr ⟨a1, ?_⟩
      unfold State.linked at hl
      have hv : v.oneChannelEach [n] := by
        rw [e3.2.2.2]; exact h1
      refine State.finishRoot_eq hv ?_
      have : (v.campaign n).origin = (s.campaign n).origin := by rw [e3.2.1]; split <;> rfl
      rw [this]; exact hl.2.2
  | q :: below, n, s, hnd, h1, hs, hl => by
    obtain ⟨hp, hpos⟩ := State.linked_head hl
    obtain ⟨blocked, rest, reason, v, e1, e2, e3, e4⟩ := State.walk_eq hp hs hpos
    refine ⟨blocked, rest, reason, v, e1, e2, e3, ?_⟩
    unfold State.unwind
    rcases e4 with ⟨r, later, first, last, els, m, t, a1, a2, a3, a4, a5, a6⟩ | ⟨a1, a2⟩
    · rw [a6]; exact .inl ⟨r, later, first, last, els, m, a1, a2, a3, a4, a5⟩
    · rw [a2]
      refine .inr ⟨a1, ?_⟩
      have hv : v.oneChannelEach (n :: q :: below) := by rw [e3.2.2.2]; exact h1
      have hnq : q ≠ n := fun e => by simp [e] at hnd
      have hkeep : ((v.campaign n).results).map (fun r => (r.position, r.verdict))
          = ((s.campaign n).results).map (fun r => (r.position, r.verdict)) := by
        rw [e3.2.1]; split
        · rfl
        · exact refineBlocked_keeps _ _ _
      have hlv : v.linked p n (v.campaign n).results (q :: below) := by
        refine State.linked_congr hkeep ?_ ?_ ?_ (fun j hj => e3.2.2.1 j (fun e => ?_)) hl
        iterate 3 (rw [e3.2.1]; split <;> rfl)
        subst e; exact (List.nodup_cons.1 hnd).1 hj
      have hlv' := hlv
      unfold State.linked at hlv
      obtain ⟨b1, b2, b3, b4, ⟨k, target, element, c1, c2, c3, c4, c5, c6⟩, b6⟩ := hlv
      obtain ⟨d1, d2⟩ := State.linked_head b6
      have ret := State.returnChild_eq (State.oneChannelEach_mono hv (by simp)) hnq b4 c1 b2 c2 c3 c4 d1 d2 c5 c6
      generalize hw : (v.withCursor n none).returnChild p n q = w at ret
      obtain ⟨k', t', el', cls, refined, f1, f2, f3, f4, f5, f6, f7, f8, f9, f10, f11, f12, f13, f14⟩ := ret
      refine ⟨w, ⟨k', t', el', cls, refined, f1, f2, f3, f4, f5, f6, f7, f8, f9, f10, f11, f12, f13, f14⟩, ?_⟩
      show w.unwound p (q :: below) (State.unwind p (q :: below) ((v.withCursor n none).returnChild p n q))
      rw [hw]
      refine State.unwind_eq below q w (List.nodup_cons.1 hnd).2 ?_ (by rw [f9]; simp) ?_
      · exact State.oneChannelEach_after f12 (State.oneChannelEach_mono hv (fun x hx => List.mem_cons_of_mem _ hx))
      · refine State.linked_congr ?_ (by rw [f9]) (by rw [f9]) (by rw [f9]) (fun j hj => ?_) b6
        · rw [f9, f7]; exact refineAt_keeps _ _ _ _ _
        · refine f10 j (fun e => ?_) (fun e => ?_)
          · subst e; exact (List.nodup_cons.1 hnd).1 (List.mem_cons_of_mem _ hj)
          · subst e; exact (List.nodup_cons.1 (List.nodup_cons.1 hnd).2).1 hj

end Sys2Proof.Machine
end

