-- ==== Sys2Proof/Tests/Slice0.lean ====
section
/-! SUPPORT. Tests: terms that WellFormed refuses, worked cases of the manual, and for each statement that has hypotheses a
state and operands that meet them. -/

namespace Sys2Proof.Tests

open Sys2Proof Sys2Proof.Machine

/-! ## WellFormed refuses ill-formed commands -/

/-- The header of source 0 at acting level 0, tag 7. -/
def hdr : Header := { source := 0, acting := 0, tag := 7 }

/-- A sent path element: L0 at 1000 us. -/
def oneElement : SentElement := { reference := { kind := 1, number := 0 }, delay := 1000, tag := 0 }

theorem test_unknown_kind_may_not_be_a_request : (Instr.unknownKindRequest hdr 0x20).wellFormed = false := by decide
theorem test_path_append_must_fit_a_frame : (Instr.pathAppend hdr 0 (List.replicate 86 oneElement)).wellFormed = false := by
  decide
theorem test_slice_period_has_whole_length : (Instr.slicePeriodEnd 0 true [1, 2, 3]).wellFormed = false := by decide
theorem test_reference_period_has_whole_length : (Instr.referencePeriodEnd 0 []).wellFormed = false := by decide
theorem test_listening_period_has_whole_length : (Instr.listeningPeriodEnd 0 [0]).wellFormed = false := by decide

/-! ## Worked cases of the manual -/

/-- R192: the CRC over the characters "123456789". -/
theorem test_crc_of_nine_digits : crc16 [0x31, 0x32, 0x33, 0x34, 0x35, 0x36, 0x37, 0x38, 0x39] = 0x29B1 := by decide +kernel

/-- The START of the worked frame in Message and Record Formats. -/
def workedStart : Instr :=
  .start { source := 2, acting := 0, tag := 0x15 }
    { kind := 0, pair := 7, first := 1, last := 10, exponent := 10, chip := 1, sequence := 2, level := 2048, reference := 3,
      autoLocate := 1 }

/-- The worked frame of Message and Record Formats. -/
theorem test_worked_start_frame : (requestFrame workedStart).map sentBytes
    = some [195, 0, 14, 32, 21, 32, 0, 7, 1, 10, 10, 1, 2, 8, 0, 3, 1, 106, 72] := by decide +kernel

/-- R29: the ends of the level range. -/
theorem test_probe_levels : (probeLevel 64 0, probeLevel 4095 0, probeLevel 64 3, probeLevel 4095 3)
    = (-7612, -4000, -5806, -2194) := by decide +kernel

/-- R54: the table of echo levels. -/
theorem test_echo_levels : [1, 8, 102, 5243, 524288].map echoLevel = [-11439, -9633, -7422, -4000, 0] := by decide +kernel

/-- R31: code 4095 at 8% under two ceilings. -/
theorem test_clamped_settings : (fixLevel 4095 3 (-3000), fixLevel 4095 3 (-6000)) = ((1619, 3), (102, 2)) := by decide +kernel

/-- R106 to R110: the worked survey on pair 5. -/
theorem test_worked_classification :
    classify 150 300 (some 0) (some 0) ([-12, -20, -18, -25, -240, -251, -247, -260].map
      (fun d => { echo := true, deviation := some d, muted := false }))
    = [.normal, .normal, .normal, .normal, .step, .normal, .normal, .normal] := by decide

/-- R142: an answer that begins at the fifth bit, and one a bit too late. -/
theorem test_answer_windows :
    (decodeWindow [true, true, true, true, false, true, false, false, true, true, false, true],
      decodeWindow [true, true, true, true, true, false, true, false, false, true, true, false]) = (.accept, .noAnswer) := by
  decide

/-- The result element of position 4 in the Echo Correlation worked case, as Message and Record Formats sends it. -/
theorem test_worked_result_element :
    resultBytes ⟨19, 4, 2, 71, -7737, some (-4941), none, some .breakAfter, none, none, none⟩
    = [0x90, 0x13, 4, 0x08, 0x00, 0x00, 0x47, 0xE1, 0xC7, 0xEC, 0xB3, 0, 0, 0x40, 0] := by decide

/-- The worked order word of Message and Record Formats: PUMP_TO_SPARE at line address 57 on pair 12, argument 1. -/
theorem test_worked_order_word :
    orderWord {
      entry := 16, pair := 12, action := .pumpToSpare, argument := 1, gate := 0, exponent := 0, requester := 0,
      requesterLevel := 0, reserved := 0, prior := .located, address := 57, chip := 1, sequence := 2, limit := 3, lag := 0 }
    = [0x39, 0x1C, 0x01, 0xA9] := by decide

/-- R61, R53, R102, R135, R30: settings after a cold reset. -/
theorem test_reset_settings : (State.reset.fga.interval, State.reset.ecr.floor, State.reset.flo.tStep, State.reset.flo.tDrift,
    State.reset.isu.settings, State.reset.ceiling 15) = (5000, 8, 150, 300, { chip := 1, sequence := 2, limit := 3 }, -3000) := by
  decide

/-! ## States for the witnesses -/

/-- The part READY with nothing defined. -/
def ready : State :=
  { State.reset with bst := { State.reset.bst with op := .idle }, clk := { State.reset.clk with part := .ready } }

theorem ready_takes (s : State) (needed : Level) (h : s.clk = ready.clk) : s.takes hdr 0 0 needed := by
  refine ⟨by rw [h]; rfl, by rw [h]; decide, by rw [h]; rfl, rfl, ⟨0, rfl, ?_⟩, Fin.zero_le _⟩
  unfold State.level; rw [h]; rfl

/-- The link answers the header of `hdr`. -/
theorem ready_answers (s : State) (h : s.clk = ready.clk) : s.answers hdr 0 :=
  ⟨rfl, by rw [h]; decide, by rw [h]; rfl⟩

/-- A LINE entry at line address 57 with one spare pump. -/
def lineEntry : Entry := { kind := .line 1, address := 57, mark := false }

/-- L0 and L1 defined; both on the path of pair 3; the record of L0 on pair 3 LOCATED with amplitude 100. -/
def plant : State :=
  { ready with lpt := { ready.lpt with
      entries := [(16, some lineEntry), (17, some { lineEntry with address := 58 })]
      records := [(259, { condition := .located, amplitude := 100 })]
      paths := ready.lpt.paths.set 3 [⟨16, 1000, none⟩, ⟨17, 2000, none⟩] } }

/-- The state while a break of the line lasts. -/
def inBreak (s : State) : State := { s with clk := { s.clk with lineAtSpace := true } }

/-- The assembler in a given state. -/
def assembling (a : Assembler) : State := { ready with clk := { ready.clk with assembler := a } }

/-- One reply of the link. -/
def oneReply : LinkFrame := { source := 0, tag := 7, kind := 0xF0, body := [1] }

/-! ## Witnesses: steps, resets, the line -/

theorem test_meets_idle_step : State.reset.pending = [] := rfl

theorem test_meets_break_reset_warm :
    (inBreak ready).clk.part = .ready ∧ (inBreak ready).clk.lineAtSpace = true ∧ (inBreak ready).clk.breakSpent = false := by
  decide

theorem test_meets_break_reset_cold : (inBreak State.reset).clk.part = .starting
    ∧ (inBreak State.reset).clk.lineAtSpace = true ∧ (inBreak State.reset).clk.breakSpent = false := by decide

theorem test_meets_break_spent : ({ ready.clk with breakSpent := true } : Link).breakSpent = true := rfl

theorem test_meets_line_break : ready.clk.lineAtSpace = false := rfl

theorem test_meets_characters : (inBreak ready).clk.lineAtSpace = true ∧ ready.clk.lineAtSpace = false
    ∧ ready.clk.assembler = .hunting ∧ (0xC2 : Byte) ≠ 0xC3
    ∧ (assembling (.length [])).clk.assembler = .length [] ∧ (assembling (.length [2])).clk.assembler = .length [2]
    ∧ (assembling (.content 3 [0, 3])).clk.assembler = .content 3 [0, 3] ∧ [(0 : Byte), 3].length < 3 + 3
    ∧ (assembling (.content 3 ([0, 3, 0, 7, 1] ++ [9]))).clk.assembler = .content 3 ([0, 3, 0, 7, 1] ++ [9])
    ∧ ([0, 3, 0, 7, 1] : List Byte).length = 3 + 2
    ∧ crc16 [0, 3, 0, 7, 1] ≠ (9 : Byte) ++ (9 : Byte) := by decide +kernel

/-- The frame of the worked START. -/
def workedFrame : SentFrame :=
  { header := { source := 2, acting := 0, tag := 0x15 }, kind := 0x20, body := [0, 7, 1, 10, 10, 1, 2, 8, 0, 3, 1] }

theorem test_meets_received_frame : workedStart.wellFormed = true ∧ requestFrame workedStart = some workedFrame
    ∧ ready.clk.assembler = .hunting ∧ ready.clk.lineAtSpace = false ∧ isRequestKind workedFrame.kind = true := by decide

/-! ## Witnesses: requests at the link -/

theorem test_meets_discarded_frames :
    requestFrame (.status { hdr with source := 8 }) = some ⟨{ hdr with source := 8 }, 0x01, []⟩
    ∧ 8 ≤ ({ hdr with source := 8 } : Header).source.toNat ∧ requestFrame (.status hdr) = some ⟨hdr, 0x01, []⟩
    ∧ 8 ≤ ({ ready.clk with replies := List.replicate 8 oneReply } : Link).replies.length
    ∧ ({ ready.clk with pendingReset := some .warm } : Link).pendingReset ≠ none := by decide

theorem test_meets_unknown_kind : isRequestKind 0xEE = false ∧ ready.answers hdr 0 := ⟨by decide, ready_answers _ rfl⟩

theorem test_meets_starting : requestFrame (.readGates hdr) = some ⟨hdr, 0x0A, []⟩ ∧ isRequestKind 0x0A = true
    ∧ State.reset.answers hdr 0 ∧ State.reset.clk.part = .starting ∧ (0x0A : Byte) ≠ 0x01 :=
  ⟨rfl, by decide, ⟨rfl, by decide, rfl⟩, rfl, by decide⟩

theorem test_meets_malformed : requestFrame (.reset hdr 2) = some ⟨hdr, 0x5F, [2]⟩ ∧ isRequestKind 0x5F = true
    ∧ ready.answers hdr 0 ∧ ready.clk.part = .ready ∧ ¬ wellMadeBody (.reset hdr 2) :=
  ⟨rfl, by decide, ready_answers _ rfl, rfl, by show ¬ (2 ≤ 1); decide⟩

theorem test_meets_level : requestFrame (.dropGate { hdr with acting := 1 } 31) = some ⟨{ hdr with acting := 1 }, 0x51, [31]⟩
    ∧ isRequestKind 0x51 = true ∧ ready.answers { hdr with acting := 1 } 0 ∧ ready.clk.part = .ready
    ∧ wellMadeBody (.dropGate { hdr with acting := 1 } 31) ∧ ({ hdr with acting := 1 } : Header).acting.toNat = (1 : Level).val
    ∧ requiredLevel (.dropGate { hdr with acting := 1 } 31) < max (ready.level 0) 1 :=
  ⟨rfl, by decide, ⟨rfl, by decide, rfl⟩, rfl, trivial, rfl, by decide⟩

theorem test_meets_one_reply : requestFrame (.readGates hdr) = some ⟨hdr, 0x0A, []⟩ ∧ ready.answers hdr 0 :=
  ⟨rfl, ready_answers _ rfl⟩

/-! ## Witnesses: the Line Plant Table -/

theorem test_meets_select_span : ready.takes hdr 0 0 3 ∧ (15 : Byte).toNat = (15 : Fin 16).val ∧ 16 ≤ (16 : Byte).toNat :=
  ⟨ready_takes _ _ rfl, rfl, by decide⟩

theorem test_meets_define_entry_kinds : ready.takes hdr 0 0 0 ∧ ready.resolve 0 ⟨1, 255⟩ = some 271
    ∧ ready.resolve 0 ⟨0, 15⟩ = some 15 ∧ (2 : Byte).toNat = (2 : Fin 3).val ∧ 1 ≤ (254 : Byte).toNat ∧ (254 : Byte).toNat ≤ 254
    ∧ ready.entry 271 = none ∧ ready.entry 15 = none ∧ ∀ j, ready.entry j = none :=
  ⟨ready_takes _ _ rfl, rfl, rfl, rfl, by decide, by decide, rfl, rfl, fun _ => rfl⟩

/-- A state where L0 is defined and stands in no path. -/
def offPath : State := { plant with lpt := { plant.lpt with paths := ready.lpt.paths } }

theorem test_meets_redefine_entry : offPath.takes hdr 0 0 0 ∧ offPath.resolve 0 ⟨1, 0⟩ = some 16
    ∧ (∀ e, offPath.entry 16 = some e → e.mark = false ∧ ∀ p, ∀ x ∈ offPath.path p, x.entry ≠ 16)
    ∧ ∀ j e, j ≠ 16 → offPath.entry j = some e → e.address ≠ 1 := by
  refine ⟨ready_takes _ _ rfl, rfl, ?_, ?_⟩
  · intro e he
    cases he
    exact ⟨rfl, by decide⟩
  · have h : ∀ j : Index, (offPath.entry j).all (fun e => !(e.address == 1)) = true := by decide +kernel
    intro j e _ he hx
    have := h j
    rw [he] at this
    simp [hx] at this

theorem test_meets_drop_entry : plant.takes hdr 0 0 0 ∧ plant.resolve 0 ⟨0, 16⟩ = none ∧ plant.resolve 0 ⟨1, 0⟩ = some 16
    ∧ (∃ p, ∃ x ∈ plant.path p, x.entry = 16) ∧ (∀ p, ∀ x ∈ offPath.path p, x.entry ≠ 16)
    ∧ (∃ e, offPath.entry 16 = some e ∧ e.mark = false) ∧ ready.entry 16 = none ∧ (∀ p, ∀ x ∈ ready.path p, x.entry ≠ 16) :=
  ⟨ready_takes _ _ rfl, rfl, rfl, ⟨3, ⟨16, 1000, none⟩, by decide, rfl⟩, by decide, ⟨lineEntry, rfl, rfl⟩, rfl, by decide⟩

/-- The plant with L0's record on pair 3 ISOLATING. -/
def isolating : State :=
  { plant with lpt := { plant.lpt with records := [(259, { condition := .isolating, amplitude := 100 })] } }

theorem test_meets_clear_condition : plant.takes hdr 0 0 1 ∧ plant.resolve 0 ⟨1, 0⟩ = some 16 ∧ 16 ≤ (16 : Byte).toNat
    ∧ (16 : Byte) ≠ 0xFF ∧ (3 : Byte).toNat = (3 : Pair).val ∧ (∃ p ∈ allPairs, (isolating.record 16 p).condition = .isolating)
    ∧ (∀ p ∈ allPairs, (plant.record 16 p).condition ≠ .isolating)
    ∧ ∀ p ∈ [(3 : Pair)], (plant.record 16 p).condition ≠ .isolating :=
  ⟨ready_takes _ _ rfl, rfl, by decide, by decide, rfl, ⟨3, by decide, rfl⟩, by decide +kernel, by decide⟩

/-- A sent element at the largest delay. -/
def farElement : SentElement := { oneElement with delay := 250000 }

theorem test_meets_path_append : ready.takes hdr 0 0 0 ∧ wellMadeBody (.pathAppend hdr 1 [farElement])
    ∧ List.Forall₂ (ready.resolvesTo 0) [farElement] [⟨16, 250000, none⟩]
    ∧ ((if (1 : Byte) = 1 then [] else ready.assemblyList 0) ++ [(⟨16, 250000, none⟩ : PathElement)]).length ≤ 128
    ∧ 128 < (List.replicate 128 (⟨16, 1000, none⟩ : PathElement) ++ [(⟨16, 250000, none⟩ : PathElement)]).length
    ∧ 250000 < ({ farElement with delay := 250001 } : SentElement).delay.toNat := by
  refine ⟨ready_takes _ _ rfl, ⟨by decide, by decide, by decide⟩, ?_, by decide, ?_, by decide⟩
  · exact .cons ⟨rfl, rfl, by decide, rfl⟩ .nil
  · rw [List.length_append, List.length_replicate]; decide

/-- The plant with the path of pair 3 in source 0's assembly list and a branching unit G0. -/
def assembled : State :=
  { plant with lpt := { plant.lpt with
      entries := (0, some { kind := .branching .a, address := 9, mark := false }) :: plant.lpt.entries
      assembly := plant.lpt.assembly.set 0 [⟨0, 500, none⟩, ⟨16, 1000, some .a⟩, ⟨17, 1000, some .b⟩] } }

theorem line_does_not_branch (i : Index) (h : (assembled.entry i).all (fun e => e.kind == .line 1) = true) :
    ¬ assembled.branches i := by
  rintro ⟨e, route, he, hk⟩
  rw [he] at h
  simp [hk] at h

theorem test_meets_set_path : assembled.takes hdr 0 0 0 ∧ (15 : Byte).toNat = (15 : Pair).val ∧ assembled.chain 15 = []
    ∧ (∀ (n : OrderNo) (o : Order), assembled.order n = some o → o.pair = 15 → o.done)
    ∧ (∀ x ∈ assembled.assemblyList 0, (assembled.entry x.entry).isSome = true)
    ∧ ((assembled.assemblyList 0).map PathElement.entry).Nodup ∧ assembled.pathFits (assembled.assemblyList 0)
    ∧ plant.assemblyList 0 = [] ∧ plant.pathFits [] := by
  have none_yet : ∀ n, assembled.order n = none := by decide
  refine ⟨ready_takes _ _ rfl, rfl, rfl, ?_, by decide, by decide, .inr ?_, rfl,
    .inl ⟨fun x hx => (nomatch hx), List.Pairwise.nil⟩⟩
  · intro n o h
    rw [none_yet] at h
    cases h
  refine ⟨[], ⟨0, 500, none⟩, [⟨16, 1000, some .a⟩, ⟨17, 1000, some .b⟩], rfl, ⟨_, .a, rfl, rfl⟩, rfl, by simp, ?_, by decide,
    by intro leg; cases leg <;> decide⟩
  intro x hx
  simp only [List.mem_cons, List.not_mem_nil, or_false] at hx
  rcases hx with rfl | rfl
  · exact ⟨line_does_not_branch _ rfl, by decide⟩
  · exact ⟨line_does_not_branch _ rfl, by decide⟩

/-! ## Witnesses: queries, levels, settings -/

theorem test_meets_queries : ready.takes hdr 0 0 3 ∧ (ready.resolve 0 ⟨1, 255⟩).isSome = true ∧ (15 : Byte).toNat < 16
    ∧ (31 : Byte).toNat < 32 ∧ (271 : BitVec 16).toNat < 272 ∧ wellMadeBody (.readBaseline hdr 15 271 1 0)
    ∧ requestFrame (.readBaseline hdr 15 271 1 0) = some ⟨hdr, 0x0C, [15, 1, 15, 1, 0]⟩ :=
  ⟨ready_takes _ _ rfl, rfl, by decide, by decide, by decide, by show 0 ≤ 1; decide, rfl⟩

theorem test_meets_timing : ready.takes hdr 0 0 3 ∧ ready.takes hdr 0 0 0 := ⟨ready_takes _ _ rfl, ready_takes _ _ rfl⟩

theorem test_meets_status : ready.answers hdr 0 ∧ State.reset.answers hdr 0 ∧ hdr.acting.toNat < 4 :=
  ⟨ready_answers _ rfl, ⟨rfl, by decide, rfl⟩, by decide⟩

/-- Source 1 at level 2 and source 0 the only one at level 0. -/
def levelled : State := { ready with clk := { ready.clk with levels := ready.clk.levels.set 1 2 } }

theorem test_meets_set_source_level : levelled.takes { hdr with source := 1 } 1 2 3 ∧ 8 ≤ (8 : Byte).toNat ∧ 4 ≤ (4 : Byte).toNat
    ∧ ((1 : Level) < levelled.level 1 ∧ (2 : Level) ≠ 0) ∧ (levelled.level 1 ≤ 3)
    ∧ (∃ p : Source, (if p = 1 then (3 : Level) else levelled.level p) = 0) ∧ ready.takes hdr 0 0 3
    ∧ ∀ p : Source, (if p = 0 then (1 : Level) else ready.level p) ≠ 0 :=
  ⟨⟨rfl, by decide, rfl, rfl, ⟨0, rfl, by decide⟩, by decide⟩, by decide, by decide, by decide, by decide, ⟨0, by decide⟩,
    ready_takes _ _ rfl, by decide⟩

theorem test_meets_thresholds : ready.takes hdr 0 0 0 ∧ 4 ≤ (4 : Byte).toNat ∧ (3 : Byte).toNat = (3 : Code).val :=
  ⟨ready_takes _ _ rfl, by decide, rfl⟩

/-! ## Witnesses: campaign requests -/

/-- A survey of pair 3 over both its elements. -/
def surveyRequest : CampaignRequest :=
  { kind := 0, pair := 3, first := 1, last := 128, exponent := 16, chip := 3, sequence := 3, level := 5000, reference := 3,
    autoLocate := 1 }

theorem test_meets_start : ready.takes hdr 0 0 2 ∧ surveyRequest.autoLocate.toNat ≤ 1 ∧ surveyRequest.kind = 0
    ∧ surveyRequest.pair.toNat = (3 : Pair).val ∧ 1 ≤ surveyRequest.first.toNat
    ∧ surveyRequest.first.toNat ≤ surveyRequest.last.toNat ∧ surveyRequest.last.toNat ≤ 128
    ∧ surveyRequest.chip.toNat = (3 : Code).val ∧ ready.lowestFreeSlot 0 ∧ ready.cen.demand.length < 8
    ∧ ready.cen.periodic.length < 16 ∧ ((2 : Byte) = 2 ∧ Parity.odd = .odd) :=
  ⟨ready_takes _ _ rfl, by decide, rfl, rfl, by decide, by decide, by decide, rfl,
    ⟨rfl, fun m h => absurd h (Fin.not_lt_zero m)⟩, by decide, by decide, rfl, rfl⟩

/-- A campaign of pair 3 in a given state, in slot 4. -/
def inSlot (c : Campaign) : State := { ready with cen := { ready.cen with slots := ready.cen.slots.set 4 c } }

/-- A survey on pair 3 over one element of lag 5, with one period to take at sequence code 0. -/
def survey : Campaign :=
  { state := .measuring, kind := some .survey, pair := 3, first := 1, last := 1, exponent := 0,
    requested := { chip := 0, sequence := 0, level := 64, reference := 0 }, applied := some (64, 0), depth := 1,
    elements := [⟨16, 5, 1⟩], extent := some (0, 5) }

theorem test_meets_abort_and_release : ready.takes hdr 0 0 2 ∧ (4 : Byte).toNat = (4 : Slot).val
    ∧ ((inSlot { survey with state := .queued }).campaign 4).requester = 0
    ∧ ((inSlot { survey with state := .queued }).campaign 4).kind ≠ some .confirm
    ∧ ((inSlot { survey with state := .queued }).campaign 4).state = .queued
    ∧ ((inSlot { survey with state := .idlePeriodic }).campaign 4).state = .idlePeriodic
    ∧ ((inSlot { survey with state := .aborted }).campaign 4).state = .aborted :=
  ⟨ready_takes _ _ rfl, rfl, by decide, by decide, rfl, rfl, rfl⟩

/-- The survey in slot 4 on the chain of pair 3, with a channel in a given condition. -/
def chained (c : Campaign) (ch : Channel) : State :=
  { plant with
      cen := { plant.cen with slots := plant.cen.slots.set 4 c, chains := plant.cen.chains.set 3 [4] }
      pch := { plant.pch with channels := plant.pch.channels.set 1 ch } }

theorem test_meets_abort_of_a_root : (chained survey {}).takes hdr 0 0 2 ∧ ((chained survey {}).campaign 4).requester = 0
    ∧ ((chained survey {}).campaign 4).kind ≠ some .confirm
    ∧ ((chained survey {}).campaign 4).state ∈ [CampaignState.awaitingRoom, .measuring, .nested]
    ∧ (chained survey {}).chain ((chained survey {}).campaign 4).pair = [4] ∧ [(4 : Slot)].Nodup :=
  ⟨ready_takes _ _ rfl, by decide, by decide, by decide, rfl, by decide⟩

/-! ## Witnesses: isolation requests -/

/-- The plant with gate 31 a GAIN_HOLD gate over L0 on every pair. -/
def gated : State :=
  { plant with isu := { plant.isu with
      gates := plant.isu.gates.set 31
        (some { action := .gainHold, first := 16, last := 16, mask := 0xFFFF, level := 0, exponent := 3 }) } }

/-- L0's lag on pair 3 is 50 chips of 20 us. -/
theorem gated_lag : gated.lagInChips 16 3 50 := ⟨⟨16, 1000, none⟩, by decide, rfl, by decide⟩

theorem gated_passes : ∀ c ∈ gated.isolateChecks 31 16 3 0 False 50, c.1 := by
  intro c hc
  simp only [State.isolateChecks, List.mem_cons, List.not_mem_nil, or_false] at hc
  have hg : ∀ g, gated.gate 31 = some g →
      g = { action := .gainHold, first := 16, last := 16, mask := 0xFFFF, level := 0, exponent := 3 } :=
    fun g h => (Option.some.inj h).symm
  have he : ∀ e, gated.entry 16 = some e → e = lineEntry := fun e h => (Option.some.inj h).symm
  rcases hc with rfl | rfl | rfl | rfl | rfl | rfl | rfl | rfl | rfl | rfl | rfl | rfl | rfl
  · rfl
  · intro g h; rw [hg g h]
  · intro g h; rw [hg g h]; decide
  · exact ⟨lineEntry, rfl, fun g h => by rw [hg g h]; trivial⟩
  · intro g e h _; rw [hg g h]; trivial
  · exact ⟨⟨16, 1000, none⟩, by decide, rfl⟩
  · intro e h; rw [he e h]; rfl
  · exact .inr fun g h => by rw [hg g h]; exact .inl (by decide)
  · intro g e n h ha; rw [hg g h] at ha; cases ha
  · decide
  · decide
  · exact ⟨0, rfl⟩
  · exact ⟨0, rfl⟩

theorem test_meets_isolate : gated.takes hdr 0 0 3 ∧ (31 : Byte).toNat = (31 : Fin 32).val ∧ gated.resolve 0 ⟨1, 0⟩ = some 16
    ∧ ((gated.path 3).map PathElement.entry).Nodup ∧ gated.lagInChips 16 3 50
    ∧ (∀ c ∈ gated.isolateChecks 31 16 3 0 ((0 : Byte) = 1) 50, c.1) ∧ (gated.gate 31).isSome = true
    ∧ gated.entry 16 = some lineEntry ∧ gated.lowestFreeOrder 0 ∧ gated.lowestFreeSlot 0 :=
  ⟨ready_takes _ _ rfl, rfl, rfl, by decide, gated_lag,
    by rw [show ((0 : Byte) = 1) = False from eq_false (by decide)]; exact gated_passes, rfl, rfl,
    ⟨rfl, fun m h => absurd h (Fin.not_lt_zero m)⟩, rfl, fun m h => absurd h (Fin.not_lt_zero m)⟩

theorem test_meets_isolate_refusal : 32 ≤ (32 : Byte).toNat ∧ ((gated.path 3).map PathElement.entry).Nodup
    ∧ (∃ failed, gated.isolateChecks 30 16 3 0 ((0 : Byte) = 1) 50
        = [] ++ ((gated.gate 30).isSome = true, .gateAbsent) :: failed) ∧ ¬ (gated.gate 30).isSome = true :=
  ⟨by decide, by decide, ⟨_, rfl⟩, by decide⟩

/-- An order of GAIN_HOLD for L0 on pair 3, its reserved slot 4, sequence code 0. -/
def order : Order :=
  { entry := 16, pair := 3, action := .gainHold, argument := 0xA1, gate := 31, exponent := 3, requester := 0,
    requesterLevel := 0, reserved := 4, prior := .located, address := 57, chip := 1, sequence := 0, limit := 3, lag := 50 }

/-- The gated plant with an order in record 7 and a channel 1 in a given condition. -/
def ordered (o : Order) (ch : Channel) : State :=
  { gated with
      isu := { gated.isu with orders := gated.isu.orders.set 7 (some o), acceptance := [7] }
      pch := { gated.pch with channels := gated.pch.channels.set 1 ch } }

theorem test_meets_withdraw : (ordered order {}).takes hdr 0 0 3 ∧ 8 ≤ (8 : Byte).toNat ∧ (7 : Byte).toNat = (7 : OrderNo).val
    ∧ (ordered order {}).order 0 = none ∧ (ordered order {}).order 7 = some order ∧ order.state = .waitingChannel
    ∧ order.requester = 0 ∧ order.prior = (if order.wordSent then .unresolved else order.prior)
    ∧ ((ordered { order with requester := 1 } {}).takes { hdr with acting := 1 } 0 1 3 ∧ (1 : Level) ≠ 0
      ∧ ({ order with requester := 1 } : Order).requester ≠ 0) :=
  ⟨ready_takes _ _ rfl, by decide, rfl, rfl, rfl, rfl, rfl, rfl,
    ⟨rfl, by decide, rfl, rfl, ⟨1, rfl, by decide⟩, by decide⟩, by decide, by decide⟩

/-- The fields of a gate over all entries. -/
def gateRequest : GateRequest := { action := 7, first := 0, last := 271, mask := 0xFFFF, level := 3, exponent := 255 }

theorem test_meets_gates : ready.takes hdr 0 0 0 ∧ 32 ≤ (32 : Byte).toNat ∧ (31 : Byte).toNat = (31 : Fin 32).val
    ∧ gateRequest.last.toNat = (271 : Index).val ∧ (0 : Index) ≤ 271 ∧ gateRequest.level.toNat = (3 : Level).val
    ∧ (gateRequest.action.toNat, Action.routeB) ∈ [(1, Action.pumpToSpare), (2, .pumpRestore), (3, .gainHold),
        (4, .gainRelease), (5, .loopMute), (6, .routeA), (7, .routeB)]
    ∧ 7 < ({ gateRequest with action := 8 } : GateRequest).action.toNat :=
  ⟨ready_takes _ _ rfl, by decide, rfl, rfl, by decide, rfl, by decide, by decide⟩

/-! ## Witnesses: the switch -/

/-- A slice of slot 4 that runs on pair 3, `k` periods left. -/
def slicing (k : Nat) (lit : Bool) : Channel :=
  { state := .periods, point := some 3, probe := some ⟨3, 0, 0, 64, 0⟩, holder := some (.slice 4 k lit) }

/-- The burst of order record 7 that runs on pair 3. -/
def bursting : Channel :=
  { state := .periods, point := some 3, probe := some ⟨3, 1, 0, 64, 0⟩, holder := some (.order 7) }

theorem test_meets_set_crosspoint : (chained survey (slicing 2 false)).takes hdr 0 0 0 ∧ (1 : Byte).toNat = (1 : Chan).val
    ∧ (3 : Byte).toNat = (3 : Pair).val ∧ (ready.channel 1).point ≠ some 3
    ∧ ((chained survey (slicing 2 false)).channel 1).point = some 3
    ∧ ((chained survey (slicing 2 false)).channel 1).holder = some (.slice 4 2 false)
    ∧ ((ordered { order with state := .referencing } bursting).channel 1).holder = some (.order 7)
    ∧ ((ordered { order with state := .referencing } bursting).channel 1).point = some 3
    ∧ ({ order with state := .referencing } : Order).attempts + 1 < order.limit
    ∧ (ordered { order with state := .referencing } bursting).chain 3 = [] :=
  ⟨ready_takes _ _ rfl, rfl, rfl, by decide, rfl, rfl, rfl, rfl, by decide, rfl⟩

/-- A coasting channel whose probe runs on at a level of -2194. -/
def coasting : Channel := { state := .coasting, point := some 3, probe := some ⟨3, 0, 0, 4095, 3⟩, holder := none }

theorem test_meets_set_ceiling : (chained { survey with applied := some (4095, 3) } (slicing 2 false)).takes hdr 0 0 0
    ∧ (3 : Byte).toNat = (3 : Pair).val ∧ (-7612 : Int) = max (-7612) (min (-2194) (BitVec.ofInt 16 (-8000)).toInt)
    ∧ (-7612 : Int) < (chained { survey with applied := some (4095, 3) } (slicing 2 false)).ceiling 3
    ∧ ((chained { survey with applied := some (4095, 3) } (slicing 2 false)).channel 1).point = some 3
    ∧ (∀ d : Chan, d ≠ 1 → ((chained { survey with applied := some (4095, 3) } (slicing 2 false)).channel d).point ≠ some 3)
    ∧ ((chained { survey with applied := some (4095, 3) } (slicing 2 false)).channel 1).holder = some (.slice 4 2 false)
    ∧ -7612 < ((chained { survey with applied := some (4095, 3) } (slicing 2 false)).campaign 4).appliedLevel
    ∧ (ready.ceiling 3 ≤ -3000 ∧ ∀ c, (ready.channel c).point ≠ some 3) :=
  ⟨ready_takes _ _ rfl, rfl, by decide, by decide, rfl, by decide, rfl, by decide +kernel, by decide, by decide⟩

theorem test_meets_set_ceiling_burst : (ordered { order with state := .sending, applied := (4095, 3) } bursting).takes hdr 0 0 0
    ∧ ((ordered { order with state := .sending, applied := (4095, 3) } bursting).channel 1).point = some 3
    ∧ (∀ d : Chan, d ≠ 1 → ((ordered { order with state := .sending, applied := (4095, 3) } bursting).channel d).point ≠ some 3)
    ∧ ((ordered { order with state := .sending, applied := (4095, 3) } bursting).channel 1).holder = some (.order 7)
    ∧ (ordered { order with state := .sending, applied := (4095, 3) } bursting).order 7
        = some { order with state := .sending, applied := (4095, 3) }
    ∧ order.pair = 3 ∧ (-7612 : Int) < probeLevel 4095 3
    ∧ ((ordered { order with state := .sending, applied := (4095, 3) } bursting).channel 1).state ≠ .settling
    ∧ (-7612 : Int) < (ordered { order with state := .sending, applied := (4095, 3) } bursting).ceiling 3 :=
  ⟨ready_takes _ _ rfl, rfl, by decide, rfl, rfl, rfl, by decide +kernel, by decide, by decide⟩

theorem test_meets_set_ceiling_coasting : (chained survey coasting).takes hdr 0 0 0
    ∧ ((chained survey coasting).channel 1).point = some 3
    ∧ (∀ d : Chan, d ≠ 1 → ((chained survey coasting).channel d).point ≠ some 3)
    ∧ ((chained survey coasting).channel 1).holder = none ∧ ((chained survey coasting).channel 1).state = .coasting
    ∧ ((chained survey coasting).channel 1).probe = some ⟨3, 0, 0, 4095, 3⟩ ∧ (-7612 : Int) < probeLevel 4095 3
    ∧ (-7612 : Int) < (chained survey coasting).ceiling 3 :=
  ⟨ready_takes _ _ rfl, rfl, by decide, rfl, rfl, rfl, by decide +kernel, by decide⟩

/-! ## Witnesses: the Baseline Store -/

/-- A DONE survey of pair 3 whose result for L0 has a loop gain and whose result for L200 has none. -/
def finished : Campaign :=
  { survey with
    state := .done, extent := none,
    results := [⟨16, 1, 0, 100, -7440, some 172, none, some .noBaseline, none, none, none⟩,
      ⟨216, 2, 0, 1, -12000, none, none, some .noEcho, none, none, none⟩] }

/-- Of a list of two, the places 1 and 2 show a total of 2, and the places 0 and 3 a total of 0 (R100). -/
theorem test_shown_totals : [0, 1, 2, 3].map (shownTotal finished.results) = [0, 2, 2, 0] := by decide

theorem test_meets_adopt_and_drop : (chained finished {}).takes hdr 0 0 1 ∧ (4 : Byte).toNat = (4 : Slot).val
    ∧ ((chained finished {}).campaign 4).state = .done ∧ ((chained survey {}).campaign 4).state ≠ .done
    ∧ (((chained finished {}).campaign 4).results.map ResultElement.entry).Nodup
    ∧ 272 ≤ (272 : BitVec 16).toNat ∧ (15 : Byte).toNat = (15 : Pair).val ∧ (0 : BitVec 16).toNat ≤ (271 : BitVec 16).toNat
    ∧ (271 : BitVec 16).toNat < 272 :=
  ⟨ready_takes _ _ rfl, rfl, rfl, by decide, by decide, by decide, rfl, by decide, by decide⟩

/-- An image record. -/
def baselineOf : Baseline := { stored := false, gain := 172, address := 57 }

/-- The image with a record at index 31 of pair 15. -/
def imaged : State := { ready with bst := { ready.bst with image := [(512 * 15 + 31, some baselineOf)] } }

/-- What a COMMIT of pair 15 from index 30 on stages: the page ends at 31. -/
def stagedRun : List Staged := [⟨30, none⟩, ⟨31, some baselineOf⟩]

theorem test_meets_commit : imaged.takes hdr 0 0 1 ∧ 16 ≤ (16 : Byte).toNat ∧ 272 ≤ (272 : BitVec 16).toNat
    ∧ (15 : Byte).toNat = (15 : Pair).val ∧ (30 : BitVec 16).toNat = (30 : Index).val
    ∧ 32 = max 1 (min 32 (255 : Byte).toNat) ∧ 31 = min ((30 : Index).val + 32 - 1) (if 30 < 256 then 32 * (30 / 32) + 31 else 271)
    ∧ stagedRun.map (fun x => x.index.val) = List.range' 30 (31 + 1 - 30)
    ∧ (∀ x ∈ stagedRun, x.baseline = imaged.baseline 15 x.index) ∧ imaged.bst.op = .idle ∧ State.reset.bst.op ≠ .idle
    ∧ stagedRun = [⟨30, none⟩] ++ ⟨31, some baselineOf⟩ :: [] ∧ some baselineOf ≠ none
    ∧ slotState imaged.bst.store (512 * 15 + 31) = .blank
    ∧ slotState [(8 * (512 * 15 + 31), 0x3C)] (512 * 15 + 31) ≠ .blank
    ∧ 271 = min ((271 : Index).val + 1 - 1) (if 271 < 256 then 32 * (271 / 32) + 31 else 271)
    ∧ [(⟨271, none⟩ : Staged)].map (fun x => x.index.val) = List.range' 271 (271 + 1 - 271) ∧ ready.baseline 15 271 = none :=
  ⟨ready_takes _ _ rfl, by decide, by decide, rfl, rfl, by decide, by decide, by decide, by decide, rfl, by decide, rfl, by decide,
    by decide, by decide, by decide, by decide, rfl⟩

/-- A commit whose slot of index 30 is being programmed. -/
def job : CommitJob :=
  { pair := 15, first := 30, staged := 2, pageLimited := true, written := [], remaining := [⟨30, some baselineOf⟩, ⟨31, none⟩] }

theorem test_meets_slot_programmed : StoreOp.programming job = .programming job
    ∧ job.remaining = ⟨30, some baselineOf⟩ :: [⟨31, none⟩] ∧ (∀ y ∈ [(⟨31, none⟩ : Staged)], y.baseline = none)
    ∧ ((job.written ++ [(⟨30, some baselineOf⟩ : Staged)]).map Staged.index).Nodup
    ∧ [(⟨31, some baselineOf⟩ : Staged)] = [] ++ ⟨31, some baselineOf⟩ :: [] ∧ (31 : Index) ≠ 30
    ∧ slotState ready.bst.store (512 * job.pair.val + 31) = .blank := by decide

theorem test_meets_erase : ready.takes hdr 0 0 0 ∧ 32 ≤ (32 : Byte).toNat ∧ (31 : Byte).toNat = (31 : Fin 32).val
    ∧ ready.bst.op = .idle ∧ State.reset.bst.op ≠ .idle ∧ StoreOp.erasing 31 = .erasing 31 :=
  ⟨ready_takes _ _ rfl, by decide, rfl, rfl, by decide, rfl⟩

theorem test_meets_cold_load : State.reset.clk.part = .starting ∧ State.reset.bst.op = .loading
    ∧ (∀ p i, State.reset.baseline p i = none)
    ∧ ∀ (p : Pair) (i : Index), slotState State.reset.bst.store (512 * p.val + i.val) = .holding →
      (slotByte State.reset.bst.store (512 * p.val + i.val) 1).toNat = p.val
      ∧ (slotByte State.reset.bst.store (512 * p.val + i.val) 2
          ++ slotByte State.reset.bst.store (512 * p.val + i.val) 3).toNat = i.val :=
  ⟨rfl, rfl, fun _ _ => rfl, fun _ _ h => (nomatch (show SlotState.blank = SlotState.holding from h))⟩

/-! ## Witnesses: the transmitter and boundaries -/

/-- The link with a given transmitter and given queues. -/
def sending (x : Transmitter) (replies : List LinkFrame) (reports : List Origin) : State :=
  { plant with clk := { plant.clk with transmitter := x, replies := replies, reports := reports } }

/-- The reply that accepts a RESET. -/
def resetReply : LinkFrame := { source := 0, tag := 7, kind := 0xF0, body := [0x5F] }

/-- A report's end leaves the state as it is, and a reply's end takes it from its queue (R185). -/
theorem test_meets_transmission_end :
    (sending (.report oneReply) [] [.system]).frameEnds (sending (.report oneReply) [] [.system])
    ∧ (sending (.reply oneReply) [oneReply, resetReply] []).frameEnds (sending (.reply oneReply) [resetReply] [])
    ∧ (sending (.reply oneReply) [oneReply] [.pair 3]).frameEnds (sending (.reply oneReply) [] [.pair 3]) :=
  ⟨.inl ⟨⟨_, rfl⟩, rfl⟩, .inr ⟨_, _, _, rfl, rfl, by decide, .inl rfl, rfl⟩,
    .inr ⟨_, _, _, rfl, rfl, by decide, .inl rfl, rfl⟩⟩

/-- Each case of the next frame is met: a reply, nothing, and a report of each origin (R184, R185). -/
theorem test_meets_next_frame : (sending .idle [oneReply] [.system]).clk.replies = oneReply :: []
    ∧ (sending .idle [] []).clk.reports = [] ∧ (sending .idle [] [.campaign 4, .order 7]).clk.reports = .campaign 4 :: [.order 7]
    ∧ (ordered order {}).order 7 = some order ∧ (sending .idle [] [.store, .system]).clk.reports = .store :: [.system]
    ∧ (sending .idle [] [.system]).clk.reports = .system :: [] ∧ (sending .idle [] [.system]).clk.replies = []
    ∧ (sending .idle [] [.system]).clk.transmitter = .idle ∧ (sending (.report oneReply) [] []).clk.transmitter ≠ .idle := by
  decide

/-- A store report after an erase of block 31 is 01 1F and five zeros (R195). -/
theorem test_store_report : storeReportBody (some (.erase 31)) = [1, 31, 0, 0, 0, 0, 0] := by decide

theorem test_meets_pair_report : (sending .idle [] [.pair 3]).clk.transmitter = .idle
    ∧ (sending .idle [] [.pair 3]).clk.replies = []
    ∧ (sending .idle [] [.pair 3]).clk.reports = .pair 3 :: [] ∧ Origin.pair 3 ∉ ([] : List Origin)
    ∧ (sending (.report oneReply) [] [.pair 3]).frameEnds (sending (.report oneReply) [] [.pair 3]) :=
  ⟨rfl, rfl, rfl, by decide, .inl ⟨⟨_, rfl⟩, rfl⟩⟩

theorem test_meets_reset_request : ready.takes hdr 0 0 0 ∧ (1 : Byte).toNat ≤ 1 ∧ resetReply.kind = 0xF0
    ∧ resetReply.body = 0x5F :: [] ∧ (sending (.reply resetReply) [resetReply] []).clk.transmitter = .reply resetReply
    ∧ ({ ready.clk with pendingReset := some .cold } : Link).pendingReset = some .cold :=
  ⟨ready_takes _ _ rfl, by decide, rfl, rfl, rfl, rfl⟩

theorem test_meets_boundary : ready.clk.part = .ready ∧ ready.fga.frame ≤ 4095 ∧ State.reset.clk.part = .starting
    ∧ ((chained survey (slicing 2 false)).channel 1).holder ≠ none := by decide

theorem test_meets_grants : (ordered order {}).clk.part = .ready ∧ (ordered order {}).channelFree 0
    ∧ (ordered order {}).pointEnabled 0 3 = true ∧ (ordered order {}).isu.acceptance = [] ++ 7 :: []
    ∧ (ordered order {}).order 7 = some order ∧ order.state = .waitingChannel ∧ order.pair = 3
    ∧ (∀ d, ((ordered order {}).channel d).point ≠ some 3)
    ∧ (∀ d, d < (0 : Chan) → (ordered order {}).channelFree d → (ordered order {}).pointEnabled d 3 = false) :=
  ⟨rfl, ⟨rfl, .inl rfl⟩, rfl, rfl, rfl, rfl, rfl, by decide, fun d h => absurd h (Fin.not_lt_zero d)⟩

/-- An order is granted on channel 0, which holds its pair's point closed already, PARKED or COASTING. -/
theorem test_meets_order_grant_without_settle : ∀ st ∈ [ChannelState.parked, .coasting],
    ∀ s : State, s = { ordered order {} with pch := { (ordered order {}).pch with
        channels := (ordered order {}).pch.channels.set 0 { state := st, point := some 3 } } } →
    s.clk.part = .ready ∧ (s.channel 0).holder = none
    ∧ (s.channel 0).state ∈ [ChannelState.disconnected, .parked, .coasting] ∧ s.pointEnabled 0 3 = true
    ∧ (∀ d, d ≠ 0 → (s.channel d).point ≠ some 3) ∧ (s.channel 0).point = some 3
    ∧ s.isu.acceptance = [] ++ 7 :: [] ∧ s.order 7 = some order := by
  intro st hst s hs
  subst hs
  revert st
  decide

/-- The chained survey with pair 3 the least recently served. -/
def served : State :=
  { chained survey {} with fga := { ready.fga with service := 3 :: allPairs.filter (fun p => p != 3) } }

theorem test_meets_slice_grant : served.clk.part = .ready ∧ served.channelFree 0 ∧ served.pointEnabled 0 3 = true
    ∧ served.fga.service = 3 :: allPairs.filter (fun p => p != 3) ∧ served.isu.acceptance = []
    ∧ (served.chain 3).getLast? = some 4 ∧ (served.campaign 4).pair = 3 ∧ (served.campaign 4).state = .measuring
    ∧ (served.campaign 4).extent.isSome = true ∧ (∀ d, (served.channel d).holder = none)
    ∧ (∀ d, (served.channel d).point ≠ some 3) ∧ served.fga.previous[(3 : Pair)] = none
    ∧ (∀ d, d < (0 : Chan) → served.channelFree d → served.pointEnabled d 3 = false)
    ∧ ∀ q, q ≠ 3 → served.chain q = [] :=
  ⟨rfl, ⟨rfl, .inl rfl⟩, rfl, rfl, rfl, rfl, rfl, rfl, rfl, by decide, by decide, rfl, fun d h => absurd h (Fin.not_lt_zero d),
    by decide⟩

/-- A survey whose settings are fixed to given ones. -/
def fixedSurvey (level : Nat × Code) (mustPrime : Bool) : Campaign :=
  { survey with mustPrime := mustPrime, applied := some level, clamped := decide (level ≠ (64, 0)) }

/-- The settings of a survey are fixed with no period accepted, above the ceiling, and with a period accepted (R31). -/
theorem test_meets_settings_fixed : ready.settingsFixed survey (fixedSurvey (fixLevel 64 0 (ready.ceiling 3)) false)
    ∧ ready.settingsFixed { survey with accepted := 1, applied := some (4095, 3) }
        (fixedSurvey (fixLevel 64 0 (ready.ceiling 3)) true)
    ∧ ready.settingsFixed { survey with accepted := 1 } { survey with accepted := 1 } := by
  have low : probeLevel 64 0 ≤ ready.ceiling 3 := by decide +kernel
  have high : ready.ceiling 3 < probeLevel 4095 3 := by decide +kernel
  refine ⟨fun level hl => ?_, fun level hl => ?_, fun level _ => ?_⟩
  · change level = fixLevel 64 0 (ready.ceiling 3) at hl
    rw [← hl]
    exact ⟨fun code reference h hlt => by cases h; exact absurd low (Int.not_le.2 hlt),
      fun _ => ⟨fun _ => rfl, fun h => absurd rfl h⟩⟩
  · change level = fixLevel 64 0 (ready.ceiling 3) at hl
    rw [← hl]
    exact ⟨fun _ _ _ _ => rfl, fun h => absurd (h _ _ rfl) (Int.not_le.2 high)⟩
  · exact ⟨fun code reference h hlt => by cases h; exact absurd low (Int.not_le.2 hlt),
      fun _ => ⟨fun h => (by rcases h with h | h <;> cases h), fun _ _ => rfl⟩⟩

/-- A periodic part whose countdown stands at 0, with a given mark. -/
def atZero (due : Bool) : PeriodicPart := { period := 4, parity := .even, countdown := 0, due := due, overruns := 65535 }

/-- A periodic campaign in slot 4, on the periodic list. -/
def listed (due : Bool) : State :=
  { inSlot { survey with state := .idlePeriodic, origin := .periodic, periodic := some (atZero due) } with
    cen := { (inSlot { survey with state := .idlePeriodic, origin := .periodic, periodic := some (atZero due) }).cen with
      periodic := [4] } }

theorem test_meets_periodic_due : (listed false).clk.part = .ready ∧ (4 : Slot) ∈ (listed false).cen.periodic
    ∧ ((listed false).campaign 4).periodic = some (atZero false) ∧ (atZero false).countdown = 0
    ∧ ((atZero false).parity = .even ∧ (listed false).fga.frame % 2 = 0) ∧ ((listed false).campaign 4).state = .idlePeriodic
    ∧ (atZero false).due = false ∧ ((listed true).campaign 4).periodic = some (atZero true) ∧ (atZero true).due = true := by
  decide

/-! ## Witnesses: periods on a channel -/

theorem test_meets_lead_in :
    ((chained survey { slicing 2 false with state := .settling }).channel 1).state = .settling
    ∧ ((chained survey { slicing 2 false with state := .settling }).channel 1).holder = some (.slice 4 2 false)
    ∧ ((chained survey (slicing 2 false)).campaign 4).applied = some (64, 0)
    ∧ ((ordered order { bursting with state := .settling }).channel 1).state = .settling
    ∧ ((ordered order { bursting with state := .settling }).channel 1).holder = some (.order 7)
    ∧ ((chained survey { slicing 2 false with state := .priming }).channel 1).state = .priming
    ∧ ((ordered order { bursting with state := .priming }).channel 1).state = .priming
    ∧ ((chained survey { slicing 2 false with state := .coasting }).channel 1).state = .coasting
    ∧ ((chained survey { slicing 2 false with state := .coasting }).channel 1).holder ≠ none := by decide

/-- A period of sequence code 0 in silence. -/
def silence : List Sample := List.replicate 1023 0

theorem silence_length : silence.length = sequenceLength 0 := List.length_replicate

/-- In silence every period sum is 0 (R42). -/
theorem test_sum_of_silence (d : Nat) (o : Int) : writtenSum 0 silence d o = 0 := by
  have h : ∀ k, (silence.getD k 0).toInt = 0 := by
    intro k
    rw [silence, List.getD_eq_getElem?_getD, List.getElem?_replicate]
    split <;> rfl
  simp only [writtenSum, h, Int.mul_zero]
  rw [List.map_const', List.sum_replicate]
  simp

/-- The same of the ISU period sum, whatever the polarities (R138). -/
theorem test_heard_sum_of_silence (d : Nat) (o : Int) (inverted previous : Bool) :
    heardSum 0 silence d o inverted previous = 0 := by
  have h : ∀ k, (silence.getD k 0).toInt = 0 := by
    intro k
    rw [silence, List.getD_eq_getElem?_getD, List.getElem?_replicate]
    split <;> rfl
  simp only [heardSum, h, Int.mul_zero]
  rw [List.map_const', List.sum_replicate]
  simp

/-- Of three chips at lag 1 the last one's echo is the previous period's, driven inverted (R138). -/
theorem test_driven_bits : drivenBits [false, true, false] 1 false true = [false, true, true] := by decide

theorem test_meets_slice_periods :
    ((chained { survey with exponent := 15 } (slicing 2 false)).channel 1).state = .periods
    ∧ ((chained { survey with exponent := 15 } (slicing 2 false)).channel 1).holder = some (.slice 4 2 false)
    ∧ silence.length = sequenceLength ({ survey with exponent := 15 } : Campaign).requested.sequence
    ∧ ({ survey with exponent := 15 } : Campaign).extent
        = some (0, 5 * ({ survey with exponent := 15 } : Campaign).elements.length)
    ∧ ({ survey with exponent := 15 } : Campaign).accepted + 1 < 2 ^ ({ survey with exponent := 15 } : Campaign).exponent :=
  ⟨rfl, rfl, silence_length, rfl, by decide⟩

theorem test_meets_slice_end :
    ((chained { survey with darkCount := 2 } (slicing 1 false)).channel 1).holder = some (.slice 4 1 false)
    ∧ survey.accepted < 2 ^ survey.exponent ∧ ({ survey with darkCount := 1 } : Campaign).darkCount + 1 < 3
    ∧ (chained { survey with darkCount := 2 } (slicing 1 false)).chain survey.pair = [4] ∧ survey.origin = .demand
    ∧ ∀ (d : Chan) (k : Nat) (l : Bool), d ≠ 1 →
        ((chained { survey with darkCount := 2 } (slicing 1 false)).channel d).holder ≠ some (.slice 4 k l) := by
  refine ⟨rfl, by decide, by decide, rfl, rfl, fun d k l h => ?_⟩
  have : ∀ d : Chan, d ≠ 1 → ((chained { survey with darkCount := 2 } (slicing 1 false)).channel d).holder = none := by decide
  rw [this d h]
  exact nofun

theorem test_meets_measurement_end : survey.accepted + 1 = 2 ^ survey.exponent ∧ survey.extent = some (0, 5 * survey.elements.length)
    ∧ survey.kind = some .survey ∧ survey.autoLocate = false ∧ (survey.elements.map Element.entry).Nodup
    ∧ ((chained survey (slicing 1 false)).channel 1).state = .periods
    ∧ (chained survey (slicing 1 false)).chain ((chained survey (slicing 1 false)).campaign 4).pair = [4] := by decide

/-- A list with an echo and a D, a silent element, a muted one and an echo without a D. -/
def observedList : List Observed := [⟨true, some (-200), false⟩, ⟨false, none, false⟩, ⟨false, none, true⟩, ⟨true, none, false⟩]

theorem test_meets_classification :
    classify 150 300 none none observedList = [.normal, .lost, .muted, .noBaseline] ∧ echoesAfter observedList 0
    ∧ ¬ standsAfter observedList 3 ∧ standsAfter [⟨true, none, false⟩, ⟨false, none, false⟩] 0
    ∧ ¬ echoesAfter [⟨true, none, false⟩, ⟨false, none, false⟩] 0 ∧ firstDeviation observedList (-200)
    ∧ nearestBefore observedList 3 (-200) := by
  refine ⟨by decide, ⟨3, _, by decide, rfl, rfl, rfl⟩, ?_, ⟨1, _, by decide, rfl, rfl⟩, ?_, ⟨0, _, rfl, rfl, nofun⟩,
    ⟨0, _, by decide, rfl, rfl, ?_⟩⟩
  · rintro ⟨j, x, hj, hx, -⟩
    have := (List.getElem?_eq_some_iff.mp hx).1
    simp only [observedList, List.length_cons, List.length_nil] at this
    omega
  · rintro ⟨j, x, hj, hx, -, he⟩
    have hlt := (List.getElem?_eq_some_iff.mp hx).1
    simp only [List.length_cons, List.length_nil] at hlt
    have : j = 1 := by omega
    subst this
    cases hx
    cases he
  · intro m y h1 h2 hy
    have : m = 1 ∨ m = 2 := by omega
    rcases this with rfl | rfl <;> cases hy <;> rfl

/-- An order in REFERENCING after three periods, with 9 in the middle working cell of its channel and a given floor. -/
def measured (floor : Nat) : State :=
  { ordered { order with state := .referencing, phase := 3 } bursting with
    isu := { (ordered { order with state := .referencing, phase := 3 } bursting).isu with
      working := ready.isu.working.set 1 ⟨#[0, 0, 9, 0, 0], rfl⟩ }
    ecr := { ready.ecr with floor := floor } }

theorem test_meets_reference_period : ((measured 1).channel 1).state = .periods ∧ ((measured 1).channel 1).holder = some (.order 7)
    ∧ (measured 1).order 7 = some { order with state := .referencing, phase := 3 } ∧ silence.length = sequenceLength order.sequence
    ∧ (∀ x : Int, -2 ≤ x → x ≤ 2 → x ≠ 0 →
        ((measured 1).workingCell 1 x + heardSum 0 silence order.lag x false ((measured 1).lastInverted 1)).natAbs
          < ((measured 1).workingCell 1 0 + heardSum 0 silence order.lag 0 false ((measured 1).lastInverted 1)).natAbs)
    ∧ 1 = nearestDiv (9 * 256) (4 * sequenceLength order.sequence) ∧ (measured 1).ecr.floor ≤ 1 ∧ 1 < (measured 2).ecr.floor := by
  refine ⟨rfl, rfl, rfl, silence_length, ?_, by decide, by decide, by decide⟩
  intro x h1 h2 h3
  rw [test_heard_sum_of_silence, test_heard_sum_of_silence]
  have : x = -2 ∨ x = -1 ∨ x = 1 ∨ x = 2 := by omega
  rcases this with rfl | rfl | rfl | rfl <;> decide

/-- An order in LISTENING with a given window so far and reference 0, so that its next bit reads 1. -/
def listeningOrder (window : List Bool) : Order :=
  { order with state := .listening, offset := some 0, reference := some 0, window := window, wordSent := true }

theorem test_meets_burst_periods : ({ order with state := .sending, phase := 31 } : Order).phase < 32
    ∧ ((ordered (listeningOrder []) bursting).channel 1).holder = some (.order 7)
    ∧ (ordered (listeningOrder []) bursting).order 7 = some (listeningOrder []) ∧ (listeningOrder []).window.length < 11
    ∧ silence.length = sequenceLength (listeningOrder []).sequence
    ∧ (listeningOrder []).offset = some 0 ∧ (listeningOrder []).reference = some 0
    ∧ (ordered (listeningOrder []) bursting).lastInverted 1 = false
    ∧ State.lastInverted { ordered (listeningOrder []) bursting with
        isu := { (ordered (listeningOrder []) bursting).isu with inverted := ready.isu.inverted.set 1 true } } 1 = true :=
  ⟨by decide, rfl, rfl, by decide, silence_length, rfl, rfl, rfl, rfl⟩

/-- The bit that a listening period of silence gives against a reference of 0. -/
def lastBit : Bool :=
  decide (0 ≤ 2 * nearestDiv ((heardSum 0 silence order.lag 0 false false).natAbs * 256) (sequenceLength 0))

theorem lastBit_reads_one : lastBit = true := decide_eq_true (Nat.zero_le _)

theorem test_meets_answers :
    decodeWindow ([true, true, true, false, true, false, false, true, true, false, true] ++ [lastBit]) = .accept
    ∧ decodeWindow ([false, true, true, false, false, true, true, false, true, true, true] ++ [lastBit]) = .refuse
    ∧ decodeWindow ([true, true, true, true, false, true, false, false, true, true, false] ++ [!lastBit]) = .garbled
    ∧ decodeWindow (List.replicate 11 true ++ [lastBit]) = .noAnswer ∧ order.attempts + 1 < order.limit
    ∧ (listeningOrder (List.replicate 11 true)).window.length = 11
    ∧ (ordered (listeningOrder (List.replicate 11 true)) bursting).chain 3 = [] ∧ order.action = .gainHold
    ∧ (∃ x, ((ordered order bursting).effectivePath 3)[0]? = some x ∧ x.entry = order.entry) := by
  rw [lastBit_reads_one]
  exact ⟨by decide, by decide, by decide, by decide, by decide, by decide, rfl, rfl, ⟨16, 1000, none⟩, rfl, rfl⟩

/-! ## Witnesses: arithmetic and invariants -/

theorem test_meets_levels : 0 < 1 ∧ 1 ≤ 524288 ∧ 524288 < 1 * 10 ^ 8 := by decide

theorem test_meets_applied_settings : (64 : Nat) ≤ 4095 ∧ (-7612 : Int) ≤ -3000 ∧ probeLevel 64 0 ≤ -7612
    ∧ (-3000 : Int) < probeLevel 4095 3 := by decide +kernel

theorem test_meets_first_fit : 0 < 5
    ∧ [(⟨0, 8187, 0⟩ : Extent)].Pairwise (fun e f => e.start + e.length ≤ f.start)
    ∧ firstFit 5 [⟨0, 8187, 0⟩] 0 = some 8187 ∧ firstFit 6 [⟨0, 8187, 0⟩] 0 = none := by decide

theorem test_meets_reduction : (plant.reduceElement survey 0 ⟨16, 5, 1⟩).amplitude < plant.ecr.floor
    ∧ ({ plant with ecr := { plant.ecr with cells := [(2, 1023)], floor := 8 } } : State).ecr.floor
      ≤ (({ plant with ecr := { plant.ecr with cells := [(2, 1023)], floor := 8 } } : State).reduceElement survey 0 ⟨16, 5, 1⟩).amplitude := by
  decide +kernel

theorem test_meets_step_keeps : ∃ t : State, step { ready with pending := [.framingError] } = .next t := ⟨_, rfl⟩

/-! ## Witnesses: clauses of the resets and of the line -/

/-- The part in a break with a store operation under way. -/
def storing (op : StoreOp) : State := { inBreak ready with bst := { ready.bst with op := op } }

theorem test_meets_break_reset_store : (storing .idle).clk.part = .ready ∧ (storing .idle).clk.lineAtSpace = true
    ∧ (storing .idle).clk.breakSpent = false ∧ (storing .idle).bst.op = .idle ∧ (storing (.erasing 31)).clk.part = .ready
    ∧ (storing (.erasing 31)).bst.op = .erasing 31 ∧ (storing (.programming job)).clk.part = .ready
    ∧ (storing (.programming job)).bst.op = .programming job := by decide

theorem test_meets_break_reset_marks : (inBreak isolating).clk.part = .ready ∧ (inBreak isolating).clk.lineAtSpace = true
    ∧ (inBreak isolating).clk.breakSpent = false ∧ ∃ (marked : Index → Pair → Bool) (pairs : List Pair),
      (∀ i p, marked i p = (((inBreak isolating).record i p).changed || ((inBreak isolating).record i p).condition == .isolating))
      ∧ pairs = allPairs.filter (fun p => (List.finRange 272).any (fun i => marked i p)) ∧ marked 16 3 = true :=
  ⟨rfl, rfl, rfl, _, _, fun _ _ => rfl, rfl, rfl⟩

theorem test_meets_refused_characters : ready.clk.lineAtSpace = false ∧ ready.answers hdr 0 ∧ isRequestKind 0xEE = false
    ∧ (assembling (.content 3 ([0, 3, 0, 7, 0xEE] ++ [0x0F]))).clk.assembler = .content 3 ([0, 3, 0, 7, 0xEE] ++ [0x0F])
    ∧ ([0, 3, 0, 7, 0xEE] : List Byte).length = 3 + 2 ∧ crc16 [0, 3, 0, 7, 0xEE] = (0x0F : Byte) ++ (0xA7 : Byte)
    ∧ ([0, 3, 0, 7, 0xEE] : List Byte).drop 2 = (hdr.source ++ hdr.acting) :: hdr.tag :: 0xEE :: [] := by
  refine ⟨rfl, ready_answers _ rfl, by decide, rfl, rfl, by decide +kernel, by decide⟩

/-- A kind that takes no body, sent with one byte. -/
theorem bodyless (b : Byte) : ¬ bodyFits 0x0A [b] := by
  rintro (h | ⟨h, -⟩)
  · revert h; simp [bodyLengths]
  · exact absurd h (by decide)

theorem test_meets_malformed_characters : isRequestKind 0x0A = true ∧ ¬ bodyFits 0x0A [1] ∧ State.reset.clk.part = .starting
    ∧ State.reset.clk.lineAtSpace = false ∧ State.reset.answers hdr 0 ∧ ready.clk.part = .ready ∧ ready.answers hdr 0
    ∧ ([0, 4, 0, 7, 0x0A, 1] : List Byte).length = 4 + 2 ∧ crc16 [0, 4, 0, 7, 0x0A, 1] = (0xFD : Byte) ++ (0x6C : Byte)
    ∧ ([0, 4, 0, 7, 0x0A, 1] : List Byte).drop 2 = (hdr.source ++ hdr.acting) :: hdr.tag :: 0x0A :: [1] :=
  ⟨rfl, bodyless 1, rfl, rfl, ⟨rfl, by decide, rfl⟩, rfl, ready_answers _ rfl, rfl, by decide +kernel, by decide⟩

/-! ## Witnesses: refusals of requests -/

/-- The plant with the order mark of L0 set. -/
def marked : State :=
  { offPath with lpt := { offPath.lpt with
      entries := [(16, some { lineEntry with mark := true }), (17, some { lineEntry with address := 58 })] } }

theorem test_meets_define_entry_refusals : plant.takes hdr 0 0 0 ∧ ((⟨1, 0⟩ : Reference).kind.toNat ≤ 2 ∧ ((1 : Byte) = 2 → False))
    ∧ plant.resolve 0 ⟨0, 16⟩ = none ∧ plant.resolve 0 ⟨1, 0⟩ = some 16
    ∧ ¬ ((1 : Byte) = 1 ∧ 16 ≤ (15 : Index).val ∨ (1 : Byte) = 2 ∧ (15 : Index).val < 16 ∨ (1 : Byte) = 3 ∧ (15 : Index).val < 16)
    ∧ plant.resolve 0 ⟨0, 15⟩ = some 15 ∧ 254 < (255 : Byte).toNat ∧ 2 < (3 : Byte).toNat
    ∧ (∃ e, plant.entry 16 = some e ∧ ∃ p, ∃ x ∈ plant.path p, x.entry = 16)
    ∧ (marked.takes hdr 0 0 0 ∧ ∃ e, marked.entry 16 = some e ∧ e.mark = true)
    ∧ (offPath.takes hdr 0 0 0 ∧ (∀ e, offPath.entry 16 = some e → e.mark = false ∧ ∀ p, ∀ x ∈ offPath.path p, x.entry ≠ 16)
      ∧ ∃ j e, j ≠ 16 ∧ offPath.entry j = some e ∧ e.address = 58) :=
  ⟨ready_takes _ _ rfl, ⟨by decide, by decide⟩, rfl, rfl, by decide, rfl, by decide, by decide,
    ⟨lineEntry, rfl, 3, ⟨16, 1000, none⟩, by decide, rfl⟩, ⟨ready_takes _ _ rfl, ⟨_, rfl, rfl⟩⟩,
    ready_takes _ _ rfl, fun e he => by cases he; exact ⟨rfl, by decide⟩, 17, _, by decide, rfl, rfl⟩

theorem test_meets_clear_condition_refusals : plant.takes hdr 0 0 1 ∧ plant.resolve 0 ⟨0, 16⟩ = none
    ∧ (16 ≤ (16 : Byte).toNat ∧ (16 : Byte) ≠ 0xFF) ∧ ((0xFF : Byte) = 0xFF ∧ allPairs = allPairs) :=
  ⟨ready_takes _ _ rfl, rfl, by decide, rfl, rfl⟩

/-- A given assembly list of source 0 on the plant. -/
def withList (l : List PathElement) : State := { plant with lpt := { plant.lpt with assembly := plant.lpt.assembly.set 0 l } }

theorem test_meets_set_path_refusals : 16 ≤ (16 : Byte).toNat ∧ (3 : Byte).toNat = (3 : Pair).val
    ∧ ((chained survey {}).takes hdr 0 0 0 ∧ (chained survey {}).chain 3 ≠ [])
    ∧ ((ordered order {}).takes hdr 0 0 0 ∧ ∃ n o, (ordered order {}).order n = some o ∧ o.pair = 3 ∧ ¬ o.done)
    ∧ ((withList [⟨18, 1000, none⟩]).takes hdr 0 0 0 ∧ ∃ x ∈ (withList [⟨18, 1000, none⟩]).assemblyList 0,
        (withList [⟨18, 1000, none⟩]).entry x.entry = none) :=
  ⟨by decide, rfl, ⟨ready_takes _ _ rfl, by decide⟩,
    ⟨ready_takes _ _ rfl, 7, order, rfl, rfl, by rintro (h | h | h | h) <;> cases h⟩,
    ready_takes _ _ rfl, ⟨18, 1000, none⟩, by decide, rfl⟩

theorem test_meets_set_path_lists : (withList [⟨16, 1000, none⟩, ⟨16, 2000, none⟩]).chain 3 = []
    ∧ (∀ n, (withList [⟨16, 1000, none⟩, ⟨16, 2000, none⟩]).order n = none)
    ∧ (∀ x ∈ (withList [⟨16, 1000, none⟩, ⟨16, 2000, none⟩]).assemblyList 0,
        ((withList [⟨16, 1000, none⟩, ⟨16, 2000, none⟩]).entry x.entry).isSome = true)
    ∧ ¬ (((withList [⟨16, 1000, none⟩, ⟨16, 2000, none⟩]).assemblyList 0).map PathElement.entry).Nodup
    ∧ (∀ x ∈ (withList [⟨16, 2000, none⟩, ⟨17, 1000, none⟩]).assemblyList 0,
        ((withList [⟨16, 2000, none⟩, ⟨17, 1000, none⟩]).entry x.entry).isSome = true)
    ∧ (((withList [⟨16, 2000, none⟩, ⟨17, 1000, none⟩]).assemblyList 0).map PathElement.entry).Nodup := by decide

/-- Two line elements whose delays fall do not make a path. -/
theorem test_meets_set_path_falling :
    ¬ (withList [⟨16, 2000, none⟩, ⟨17, 1000, none⟩]).pathFits
      ((withList [⟨16, 2000, none⟩, ⟨17, 1000, none⟩]).assemblyList 0) := by
  rintro (⟨-, h⟩ | ⟨trunk, unit, legs, h, ⟨e, route, he, hk⟩, -⟩)
  · exact absurd h (by decide)
  · have hu : unit ∈ [(⟨16, 2000, none⟩ : PathElement), ⟨17, 1000, none⟩] := by
      rw [show [(⟨16, 2000, none⟩ : PathElement), ⟨17, 1000, none⟩] = trunk ++ unit :: legs from h]; simp
    simp only [List.mem_cons, List.not_mem_nil, or_false] at hu
    rcases hu with rfl | rfl <;> cases he <;> cases hk

/-- Every slot of the Campaign Engine taken. -/
def slotless : State := { ready with cen := { ready.cen with slots := Vector.replicate 32 { survey with state := .done } } }

/-- The demand queue and the periodic list full. -/
def listful : State := { ready with cen := { ready.cen with demand := List.replicate 8 0, periodic := List.replicate 16 0 } }

theorem test_meets_campaign_refusals : ready.takes hdr 0 0 2 ∧ campaignInRange surveyRequest
    ∧ ¬ campaignInRange { surveyRequest with kind := 2 } ∧ 2 < (3 : Byte).toNat ∧ (2 : Byte).toNat ≤ 2
    ∧ (slotless.takes hdr 0 0 2 ∧ ∀ n, (slotless.campaign n).state ≠ .free)
    ∧ (listful.takes hdr 0 0 2 ∧ (∃ n, (listful.campaign n).state = .free) ∧ 8 ≤ listful.cen.demand.length
      ∧ 16 ≤ listful.cen.periodic.length) :=
  ⟨ready_takes _ _ rfl, ⟨by decide, by decide, by decide, by decide, by decide, by decide, by decide, by decide⟩,
    fun h => absurd h.1 (by decide), by decide, by decide, ⟨ready_takes _ _ rfl, by decide⟩,
    ready_takes _ _ rfl, ⟨0, rfl⟩, by decide, by decide⟩

theorem test_meets_abort_and_release_refusals : 32 ≤ (32 : Byte).toNat
    ∧ ((inSlot survey).takes { hdr with acting := 1 } 0 1 2 ∧ (1 : Level) ≠ 0)
    ∧ ((inSlot { survey with kind := some .confirm }).campaign 4).kind = some .confirm
    ∧ ((inSlot finished).campaign 4).state ∈ [CampaignState.free, .reserved, .done, .failed, .aborted]
    ∧ ((inSlot { survey with requester := 1 }).campaign 4).kind ≠ some .confirm
    ∧ ((inSlot { survey with requester := 1 }).campaign 4).state
        ∈ [CampaignState.queued, .idlePeriodic, .awaitingRoom, .measuring, .nested]
    ∧ ((inSlot { survey with requester := 1 }).campaign 4).requester ≠ 0
    ∧ ((inSlot survey).campaign 4).state ∉ [CampaignState.done, .failed, .aborted]
    ∧ ((inSlot { finished with requester := 1 }).campaign 4).state ∈ [CampaignState.done, .failed, .aborted]
    ∧ ((inSlot { finished with requester := 1 }).campaign 4).requester ≠ 0 :=
  ⟨by decide, ⟨⟨rfl, by decide, rfl, rfl, ⟨1, rfl, by decide⟩, by decide⟩, by decide⟩, rfl, by decide, by decide, by decide,
    by decide, by decide, by decide, by decide⟩

/-! ## Witnesses: queries -/

theorem test_meets_read_entry_and_span : plant.takes hdr 0 0 3 ∧ (⟨1, 255⟩ : Reference).kind.toNat ≤ 2
    ∧ plant.resolve 0 ⟨0, 16⟩ = none ∧ plant.resolve 0 ⟨1, 0⟩ = some 16 ∧ 16 ≤ (16 : Byte).toNat ∧ (15 : Byte).toNat < 16
    ∧ (15 : Byte).toNat = (15 : Pair).val
    ∧ (indexRun 256 271).map Fin.val = List.range' (16 + 16 * (15 : Byte).toNat) 16 :=
  ⟨ready_takes _ _ rfl, by decide, rfl, rfl, by decide, by decide, rfl, by decide +kernel⟩

/-- The path of pair 3 through a branching unit. -/
def branched : State := { assembled with lpt := { assembled.lpt with paths := assembled.lpt.paths.set 3 (assembled.assemblyList 0) } }

theorem test_meets_read_path : plant.takes hdr 0 0 3 ∧ branched.takes hdr 0 0 3 ∧ (1 : Byte).toNat ≤ 1 ∧ 16 ≤ (16 : Byte).toNat
    ∧ (3 : Byte).toNat = (3 : Pair).val ∧ (∀ x ∈ plant.path 3, ¬ plant.branches x.entry)
    ∧ ∃ before x later e leg, branched.path 3 = before ++ x :: later ∧ (∀ y ∈ before, ¬ branched.branches y.entry)
      ∧ branched.entry x.entry = some e ∧ e.kind = .branching leg := by
  refine ⟨ready_takes _ _ rfl, ready_takes _ _ rfl, by decide, by decide, rfl, ?_,
    [], ⟨0, 500, none⟩, _, _, .a, rfl, fun y hy => (nomatch hy), rfl, rfl⟩
  rintro x hx ⟨e, route, he, hk⟩
  have h : ∀ x ∈ plant.path 3, (plant.entry x.entry).all (fun e => e.kind == .line 1) = true := by decide
  have := h x hx
  rw [he] at this
  simp [hk] at this

/-- A given list of extents. -/
def allotted (l : List Extent) : State := { ready with ecr := { ready.ecr with extents := l } }

theorem test_meets_read_extents :
    ((allotted [⟨0, 8192, 0⟩]).takes hdr 0 0 3 ∧ (allotted [⟨0, 8192, 0⟩]).ecr.extents.Pairwise (fun e f => e.start + e.length ≤ f.start)
      ∧ (∀ e ∈ (allotted [⟨0, 8192, 0⟩]).ecr.extents, 0 < e.length ∧ e.start + e.length ≤ 8192)
      ∧ ∀ a, a < 8192 → ∃ e ∈ (allotted [⟨0, 8192, 0⟩]).ecr.extents, e.start ≤ a ∧ a < e.start + e.length)
    ∧ (∀ e ∈ (allotted [⟨0, 8191, 0⟩]).ecr.extents, 0 < e.length ∧ e.start + e.length ≤ 8192)
    ∧ (0 < 1 ∧ 8191 + 1 ≤ 8192)
    ∧ (∀ e ∈ (allotted [⟨0, 8191, 0⟩]).ecr.extents, 8191 + 1 ≤ e.start ∨ e.start + e.length ≤ 8191)
    ∧ ∀ b m, 0 < m → b + m ≤ 8192 →
        (∀ e ∈ (allotted [⟨0, 8191, 0⟩]).ecr.extents, b + m ≤ e.start ∨ e.start + e.length ≤ b) →
        m < 1 ∨ m = 1 ∧ 8191 ≤ b := by
  refine ⟨⟨ready_takes _ _ rfl, by decide, by decide, fun a ha => ⟨⟨0, 8192, 0⟩, by decide, Nat.zero_le _, by simpa using ha⟩⟩,
    by decide, by decide, by decide, fun b m hm hb h => ?_⟩
  have : b + m ≤ 0 ∨ 0 + 8191 ≤ b := h ⟨0, 8191, 0⟩ (by decide)
  omega

theorem test_meets_read_campaign : (listful.takes hdr 0 0 3 ∧ 32 ≤ (32 : Byte).toNat ∧ (31 : Byte).toNat = (31 : Slot).val)
    ∧ (31 : Slot) ∉ listful.cen.demand
    ∧ ∃ before later, listful.cen.demand = before ++ 0 :: later ∧ (0 : Slot) ∉ before :=
  ⟨⟨ready_takes _ _ rfl, by decide, rfl⟩, by decide, [], _, rfl, by decide⟩

theorem test_meets_read_baseline : imaged.takes hdr 0 0 3 ∧ (1 : Byte).toNat ≤ 1 ∧ 272 ≤ (272 : BitVec 16).toNat
    ∧ (15 : Byte).toNat = (15 : Pair).val ∧ (271 : BitVec 16).toNat < 272
    ∧ [(271 : Index)].map Fin.val = List.range' (271 : BitVec 16).toNat (min (max 1 (min 32 (0 : Byte).toNat)) (272 - (271 : BitVec 16).toNat)) := by
  refine ⟨ready_takes _ _ rfl, by decide, by decide, rfl, by decide, by decide⟩

theorem test_meets_read_grants : (ordered order bursting).takes hdr 0 0 3
    ∧ (∃ barred candidate : Pair → Bool,
      (∀ p, barred p = true ↔ ∃ c, ¬ (ordered order bursting).channelFree c ∧ ((ordered order bursting).channel c).point = some p)
      ∧ ∀ p, candidate p = true ↔ ∃ n, ((ordered order bursting).chain p).getLast? = some n
        ∧ ((ordered order bursting).campaign n).state = .measuring ∧ ((ordered order bursting).campaign n).extent.isSome = true
        ∧ ∀ c k lit, ((ordered order bursting).channel c).holder ≠ some (.slice n k lit))
    ∧ [(7 : OrderNo)].Sublist (ordered order bursting).isu.acceptance
    ∧ (∀ k ∈ [(7 : OrderNo)], ∃ o, (ordered order bursting).order k = some o ∧ o.state = .waitingChannel)
    ∧ ∀ k, (∃ o, (ordered order bursting).order k = some o ∧ o.state = .waitingChannel) →
        [(7 : OrderNo)].count k = (ordered order bursting).isu.acceptance.count k := by
  classical
  refine ⟨ready_takes _ _ rfl, ⟨fun p => decide _, fun p => decide _, fun p => decide_eq_true_iff, fun p => decide_eq_true_iff⟩,
    List.Sublist.refl _, ?_, fun _ _ => rfl⟩
  intro k hk
  rw [List.mem_singleton.1 hk]
  exact ⟨order, rfl, rfl⟩

/-! ## Witnesses: chains -/

/-- A survey in slot 4 and a child of its in slot 5 on the chain of pair 3, with a channel in a given condition. -/
def parented (parent child : Campaign) (ch : Channel) : State :=
  { plant with
      cen := { plant.cen with slots := (plant.cen.slots.set 4 parent).set 5 child, chains := plant.cen.chains.set 3 [4, 5] }
      pch := { plant.pch with channels := plant.pch.channels.set 1 ch } }

/-- L0 as the survey found it. -/
def foundResult : ResultElement := ⟨16, 1, 0, 100, -7440, some 172, some (-160), some .ambiguous, none, none, none⟩

/-- The survey nested on L0. -/
def nested : Campaign :=
  { survey with state := .nested, accepted := 1, extent := none, cursor := some 1, results := [foundResult] }

/-- A LOCATE child of slot 4 on L0. -/
def childCampaign : Campaign := { survey with kind := some .locate, origin := .child, parent := some 4, depth := 2 }

/-- Without a slice on any channel, no slot holds two. -/
theorem apart_of_free {s : State} {l : List Slot} (h : ∀ c, (s.channel c).holder = none) : s.oneChannelEach l := by
  intro c d m k x k' x' _ hc
  rw [h c] at hc
  cases hc

/-- With slices on channel 1 alone, no slot holds two. -/
theorem apart_of_one {s : State} {l : List Slot} (h : ∀ c, c ≠ 1 → (s.channel c).holder = none) : s.oneChannelEach l := by
  intro c d m k x k' x' _ hc hd
  by_cases h1 : c = 1
  · by_cases h2 : d = 1
    · rw [h1, h2]
    · rw [h d h2] at hd; cases hd
  · rw [h c h1] at hc; cases hc

theorem test_meets_abort_of_a_root_apart : ((chained survey {}).chain 3).Nodup
    ∧ (chained survey {}).oneChannelEach ((chained survey {}).chain 3) :=
  ⟨by decide, apart_of_free (by decide)⟩

theorem test_meets_abort_of_a_child : (parented nested childCampaign {}).takes hdr 0 0 2 ∧ (5 : Byte).toNat = (5 : Slot).val
    ∧ ((parented nested childCampaign {}).campaign 5).requester = 0
    ∧ ((parented nested childCampaign {}).campaign 5).kind ≠ some .confirm
    ∧ ((parented nested childCampaign {}).campaign 5).state ∈ [CampaignState.awaitingRoom, .measuring, .nested]
    ∧ ((parented nested childCampaign {}).campaign 5).pair = 3 ∧ ((parented nested childCampaign {}).chain 3).Nodup
    ∧ (parented nested childCampaign {}).oneChannelEach ((parented nested childCampaign {}).chain 3)
    ∧ (parented nested childCampaign {}).chain 3 = 4 :: 5 :: []
    ∧ ((parented nested childCampaign {}).campaign 4).origin = .demand
    ∧ ((parented nested childCampaign {}).campaign 4).pair = 3 ∧ ((parented nested childCampaign {}).campaign 4).cursor = some 1
    ∧ foundResult ∈ ((parented nested childCampaign {}).campaign 4).results ∧ foundResult.position = 1
    ∧ (((parented nested childCampaign {}).campaign 4).results.map ResultElement.position).Nodup
    ∧ ∀ y ∈ (parented nested childCampaign {}).walkable 4
        (refineAt ((parented nested childCampaign {}).campaign 4).results 1 .aborted (some 2) none), y.position ≤ 1 :=
  ⟨ready_takes _ _ rfl, rfl, by decide, by decide, by decide, rfl, by decide, apart_of_free (by decide), rfl, rfl, rfl, rfl,
    by decide, rfl, by decide, by decide⟩

/-! ## Witnesses: the switch -/

/-- The plant with an order in record 7 that holds channel 1 and the survey in slot 5 on the chain of the order's pair. -/
def topped (o : Order) : State :=
  { ordered o bursting with
      cen := { plant.cen with slots := plant.cen.slots.set 5 survey, chains := plant.cen.chains.set 3 [5] } }

theorem test_meets_set_crosspoint_range : ready.takes hdr 0 0 0 ∧ (0 : Byte).toNat ≤ 1 ∧ 4 ≤ (4 : Byte).toNat
    ∧ 16 ≤ (16 : Byte).toNat := ⟨ready_takes _ _ rfl, by decide, by decide, by decide⟩

theorem test_meets_set_crosspoint_last_attempt :
    (topped { order with state := .listening, attempts := 2 }).takes hdr 0 0 0
    ∧ ((topped { order with state := .listening, attempts := 2 }).channel 1).point = some 3
    ∧ ((topped { order with state := .listening, attempts := 2 }).channel 1).holder = some (.order 7)
    ∧ (topped { order with state := .listening, attempts := 2 }).order 7 = some { order with state := .listening, attempts := 2 }
    ∧ order.limit ≤ ({ order with attempts := 2 } : Order).attempts + 1
    ∧ ((topped { order with state := .listening, attempts := 2 }).chain order.pair).getLast? = some 5
    ∧ ((topped { order with state := .listening, attempts := 2 }).campaign 5).extent = some (0, 5) :=
  ⟨ready_takes _ _ rfl, rfl, rfl, rfl, by decide, rfl, rfl⟩

theorem test_meets_set_ceiling_below : 16 ≤ (16 : Byte).toNat
    ∧ (-3001 : Int) = max (-7612) (min (-2194) (BitVec.ofInt 16 (-3001)).toInt)
    ∧ -3001 < (chained survey (slicing 2 false)).ceiling 3
    ∧ ((chained survey (slicing 2 false)).channel 1).holder = some (.slice 4 2 false)
    ∧ ((chained survey (slicing 2 false)).campaign 4).appliedLevel ≤ -3001
    ∧ (ordered { order with state := .sending, applied := (64, 0) } bursting).order 7
        = some { order with state := .sending, applied := (64, 0) }
    ∧ probeLevel 64 0 ≤ -3001
    ∧ ((chained survey { slicing 2 false with state := .parked, holder := none }).channel 1).state ≠ .coasting
    ∧ ((chained survey { coasting with probe := some ⟨3, 0, 0, 64, 0⟩ }).channel 1).probe = some ⟨3, 0, 0, 64, 0⟩
    ∧ ((ordered { order with state := .referencing, applied := (4095, 3) } { bursting with state := .settling }).channel 1).state
        = .settling := by decide +kernel

/-! ## Witnesses: the store, resets and boundaries -/

/-- A commit of two records whose second slot holds a byte already. -/
def occupied : State :=
  { ready with bst := { ready.bst with
      op := .programming { job with remaining := [⟨30, some baselineOf⟩, ⟨31, some baselineOf⟩] }
      store := [(8 * (512 * 15 + 31), 0x3C)] } }

theorem test_meets_slot_programmed_occupied :
    occupied.bst.op = .programming { job with remaining := [⟨30, some baselineOf⟩, ⟨31, some baselineOf⟩] }
    ∧ [(⟨31, some baselineOf⟩ : Staged)] = [] ++ ⟨31, some baselineOf⟩ :: [] ∧ some baselineOf ≠ none ∧ (31 : Index) ≠ 30
    ∧ slotState occupied.bst.store (512 * job.pair.val + (31 : Index).val) ≠ .blank
    ∧ ((job.written ++ [(⟨30, some baselineOf⟩ : Staged)]).map Staged.index).Nodup := by decide

/-- A pending reset whose reply is being sent. -/
def resetting (kind : ResetKind) : State :=
  { plant with clk := { plant.clk with transmitter := .reply resetReply, replies := [resetReply], pendingReset := some kind } }

theorem test_meets_requested_reset : (resetting .cold).clk.transmitter = .reply resetReply ∧ resetReply.kind = 0xF0
    ∧ resetReply.body = 0x5F :: [] ∧ (resetting .cold).clk.pendingReset = some .cold
    ∧ (resetting .warm).clk.transmitter = .reply resetReply ∧ (resetting .warm).clk.pendingReset = some .warm
    ∧ (resetting .warm).clk.part = .ready := by decide

/-- A periodic part with a given countdown and mark. -/
def part (countdown : Nat) (due : Bool) : PeriodicPart :=
  { period := 4, parity := .any, countdown := countdown, due := due, overruns := 0 }

/-- A campaign in slot 4 and one in slot 5 of pair 3, given chain, demand queue and periodic list, a channel in a given condition. -/
def engine (c d : Campaign) (chain demand periodic : List Slot) (ch : Channel) (plain : State) : State :=
  { plain with
      cen := { plain.cen with
        slots := (plain.cen.slots.set 4 c).set 5 d, chains := plain.cen.chains.set 3 chain, demand := demand, periodic := periodic }
      pch := { plain.pch with channels := plain.pch.channels.set 1 ch } }

/-- A survey that waits in the demand queue. -/
def waiting : Campaign := { survey with state := .queued, extent := none, elements := [], applied := none }

/-- Without a chain, and without an order in the list, nothing is there to grant. -/
theorem idle_of {s : State} (hr : s.clk.part = .ready) (hf : s.fga.frame ≤ 4095) (ha : s.isu.acceptance = [])
    (hc : ∀ q, s.chain q = []) : s.nothingToGrant :=
  ⟨hr, hf, fun k hk => by rw [ha] at hk; exact (nomatch hk), fun q m h => by rw [hc q] at h; cases h⟩

theorem none_seeks_of {s : State} (hc : ∀ q, s.chain q = []) : s.noneSeeksRoom := fun q m h => by rw [hc q] at h; cases h

theorem none_confirms_of {s : State} (h : ∀ k, s.order k = none) : s.noneConfirms := fun k o ho => by rw [h k] at ho; cases ho

theorem none_among_of {s : State} {p : Pair} {l : List OrderState} (h : ∀ k, s.order k = none) : ¬ s.orderAmong p l := by
  rintro ⟨k, o, ho, -⟩
  rw [h k] at ho
  cases ho

theorem test_meets_countdown : (engine { survey with state := .idlePeriodic, origin := .periodic, periodic := some (part 2 false) }
      {} [] [] [4] {} plant).nothingToGrant
    ∧ (engine { survey with state := .idlePeriodic, origin := .periodic, periodic := some (part 2 false) }
      {} [] [] [4] {} plant).noneSeeksRoom
    ∧ (engine { survey with state := .idlePeriodic, origin := .periodic, periodic := some (part 2 false) }
      {} [] [] [4] {} plant).noneConfirms
    ∧ [(4 : Slot)].Nodup ∧ (part 2 false).due = false ∧ 2 ≤ (part 2 false).countdown :=
  ⟨idle_of rfl (by decide) rfl (by decide), none_seeks_of (by decide), none_confirms_of (by decide), by decide, rfl, by decide⟩

/-- On a pair without a path no range has elements, and NO_PATH is the reason. -/
theorem fails_without_path {s : State} {c : Campaign} (hp : s.path c.pair = []) (he : s.effectivePath c.pair = []) :
    s.dispatchFails c .noPath :=
  ⟨[], [], _, _, ⟨by rw [he]; simp, fun j e h => by cases h⟩, rfl, fun x hx => (nomatch hx), fun h => h hp⟩

/-- The path of pair 3 in the plant. -/
def twoLines : List PathElement := [⟨16, 1000, none⟩, ⟨17, 2000, none⟩]

/-- A survey or a confirm of the first element of pair 3 passes the checks on the plant. -/
theorem passes_on_plant {s : State} {c : Campaign} (hp : s.path 3 = twoLines) (he : s.effectivePath 3 = twoLines)
    (hn : s.pointEnabled 0 3 = true) (h3 : c.pair = 3) (hf : c.first = 1) (hl : c.last = 1) (hc : c.requested.chip = 0)
    (hq : c.requested.sequence = 0) (hk : c.kind ≠ some .locate) : s.dispatchPasses c [⟨16, 100, 1⟩] := by
  refine ⟨⟨by rw [h3, he, hf, hl]; rfl, fun j e h => ?_⟩, fun x hx => ?_⟩
  · have hj : j = 0 := by
      have := (List.getElem?_eq_some_iff.mp h).1
      simpa using this
    subst hj
    cases h
    exact ⟨⟨16, 1000, none⟩, by rw [h3, he, hf]; rfl, by rw [hf, hc]; rfl⟩
  · simp only [State.dispatchChecks, List.mem_cons, List.not_mem_nil, or_false] at hx
    rcases hx with rfl | rfl | rfl | rfl | rfl | rfl
    · show s.path c.pair ≠ []
      rw [h3, hp]; decide
    · show c.last ≤ (s.effectivePath c.pair).length
      rw [h3, he, hl]; decide
    · intro e he'
      rw [List.mem_singleton.1 he', hq]
      decide
    · intro j e f h1 h2
      have := (List.getElem?_eq_some_iff.mp h2).1
      simp only [List.length_cons, List.length_nil] at this
      omega
    · exact ⟨0, by rw [h3]; exact hn⟩
    · exact fun h => absurd h hk

theorem test_meets_demand_dispatch : (engine waiting {} [] [4] [] {} ready).nothingToGrant
    ∧ (engine waiting {} [] [4] [] {} ready).dispatchFails ((engine waiting {} [] [4] [] {} ready).campaign 4) .noPath
    ∧ ((engine waiting {} [] [4] [] {} plant).nothingToGrant ∧ (engine waiting {} [] [4] [] {} plant).noneSeeksRoom
      ∧ (engine waiting {} [] [4] [] {} plant).noneConfirms)
    ∧ ((engine waiting {} [] [4] [] {} plant).campaign 4).state = .queued
    ∧ ((engine waiting {} [] [4] [] {} plant).campaign 4).kind ≠ some .confirm
    ∧ (engine waiting {} [] [4] [] {} plant).dispatchPasses ((engine waiting {} [] [4] [] {} plant).campaign 4) [⟨16, 100, 1⟩]
    ∧ (engine waiting {} [] [4] [] {} plant).chain 3 = []
    ∧ ¬ (engine waiting {} [] [4] [] {} plant).orderAmong 3 [.waitingChannel, .referencing, .sending, .listening, .confirming]
    ∧ firstFit (5 * [(⟨16, 100, 1⟩ : Element)].length) (engine waiting {} [] [4] [] {} plant).ecr.extents 0 = some 0 :=
  ⟨idle_of rfl (by decide) rfl (by decide), fails_without_path rfl rfl,
    ⟨idle_of rfl (by decide) rfl (by decide), none_seeks_of (by decide), none_confirms_of (by decide)⟩, rfl, by decide,
    passes_on_plant rfl rfl rfl rfl rfl rfl rfl rfl (by decide), rfl, none_among_of (by decide), rfl⟩

/-- A pair's only chain top on a channel leaves nothing to grant, and seeks no room. -/
theorem busy_of {s : State} (hr : s.clk.part = .ready) (hf : s.fga.frame ≤ 4095) (ha : s.isu.acceptance = [])
    (h3 : s.chain 3 = [5]) (hc : ∀ q, q ≠ 3 → s.chain q = []) (hm : (s.campaign 5).state = .measuring)
    (hh : ∃ c k lit, (s.channel c).holder = some (.slice 5 k lit)) : s.nothingToGrant ∧ s.noneSeeksRoom := by
  have top : ∀ q m, (s.chain q).getLast? = some m → m = 5 := by
    intro q m h
    by_cases hq : q = 3
    · rw [hq, h3] at h
      cases h; rfl
    · rw [hc q hq] at h; cases h
  refine ⟨⟨hr, hf, fun k hk => by rw [ha] at hk; exact (nomatch hk), fun q m h => .inr ?_⟩, fun q m h => ?_⟩
  · rw [top q m h]
    exact ⟨hm, hh⟩
  · rw [top q m h, hm]; decide

theorem test_meets_demand_that_waits :
    (engine waiting survey [5] [4] [] { slicing 2 false with holder := some (.slice 5 2 false) } plant).nothingToGrant
    ∧ (engine waiting survey [5] [4] [] { slicing 2 false with holder := some (.slice 5 2 false) } plant).noneSeeksRoom
    ∧ (engine waiting survey [5] [4] [] { slicing 2 false with holder := some (.slice 5 2 false) } plant).chain 3 ≠ [] :=
  ⟨(busy_of rfl (by decide) rfl rfl (by decide) rfl ⟨1, 2, false, rfl⟩).1,
    (busy_of rfl (by decide) rfl rfl (by decide) rfl ⟨1, 2, false, rfl⟩).2, by decide⟩

theorem test_meets_two_demands : (engine waiting waiting [] [4, 5] [] {} plant).nothingToGrant
    ∧ (engine waiting waiting [] [4, 5] [] {} plant).noneSeeksRoom ∧ (engine waiting waiting [] [4, 5] [] {} plant).noneConfirms
    ∧ (engine waiting waiting [] [4, 5] [] {} plant).cen.demand = [4, 5] ∧ (4 : Slot) ≠ 5
    ∧ ((engine waiting waiting [] [4, 5] [] {} plant).campaign 5).pair
        = ((engine waiting waiting [] [4, 5] [] {} plant).campaign 4).pair
    ∧ (engine waiting waiting [] [4, 5] [] {} plant).dispatchPasses
        ((engine waiting waiting [] [4, 5] [] {} plant).campaign 4) [⟨16, 100, 1⟩]
    ∧ (engine waiting waiting [] [4, 5] [] {} plant).dispatchPasses
        ((engine waiting waiting [] [4, 5] [] {} plant).campaign 5) [⟨16, 100, 1⟩]
    ∧ (engine waiting waiting [] [4, 5] [] {} plant).chain 3 = [] ∧ ¬ (engine waiting waiting [] [4, 5] [] {} plant).orderAmong 3
        [.waitingChannel, .referencing, .sending, .listening, .confirming] :=
  ⟨idle_of rfl (by decide) rfl (by decide), none_seeks_of (by decide), none_confirms_of (by decide), rfl, by decide, rfl,
    passes_on_plant rfl rfl rfl rfl rfl rfl rfl rfl (by decide), passes_on_plant rfl rfl rfl rfl rfl rfl rfl rfl (by decide), rfl,
    none_among_of (by decide)⟩

/-- A survey that is due in the periodic list. -/
def dueSurvey : Campaign := { waiting with state := .idlePeriodic, origin := .periodic, periodic := some (part 2 true) }

theorem test_meets_periodic_dispatch : (engine dueSurvey {} [] [] [4] {} ready).nothingToGrant
    ∧ (engine dueSurvey {} [] [] [4] {} ready).dispatchFails ((engine dueSurvey {} [] [] [4] {} ready).campaign 4) .noPath
    ∧ (engine dueSurvey {} [] [] [4] {} plant).nothingToGrant ∧ dueSurvey.state = .idlePeriodic ∧ dueSurvey.kind ≠ some .confirm
    ∧ dueSurvey.periodic = some (part 2 true) ∧ (part 2 true).due = true ∧ 2 ≤ (part 2 true).countdown
    ∧ (engine dueSurvey {} [] [] [4] {} plant).dispatchPasses ((engine dueSurvey {} [] [] [4] {} plant).campaign 4) [⟨16, 100, 1⟩] :=
  ⟨idle_of rfl (by decide) rfl (by decide), fails_without_path rfl rfl, idle_of rfl (by decide) rfl (by decide), rfl, by decide,
    rfl, rfl, by decide, passes_on_plant rfl rfl rfl rfl rfl rfl rfl rfl (by decide)⟩

/-- A state whose 8192 cells one extent takes. -/
def State.crowded (s : State) : State := { s with ecr := { s.ecr with extents := [⟨0, 8192, 9⟩] } }

theorem test_meets_periodic_that_waits : (State.crowded (engine dueSurvey {} [] [] [4] {} plant)).nothingToGrant
    ∧ (State.crowded (engine dueSurvey {} [] [] [4] {} plant)).noneSeeksRoom
    ∧ (State.crowded (engine dueSurvey {} [] [] [4] {} plant)).noneConfirms
    ∧ (State.crowded (engine dueSurvey {} [] [] [4] {} plant)).dispatchPasses
        ((State.crowded (engine dueSurvey {} [] [] [4] {} plant)).campaign 4) [⟨16, 100, 1⟩]
    ∧ firstFit (5 * [(⟨16, 100, 1⟩ : Element)].length) (State.crowded (engine dueSurvey {} [] [] [4] {} plant)).ecr.extents 0
        = none :=
  ⟨idle_of rfl (by decide) rfl (by decide), none_seeks_of (by decide), none_confirms_of (by decide),
    passes_on_plant rfl rfl rfl rfl rfl rfl rfl rfl (by decide), rfl⟩

/-- A state after the countdowns of a boundary that begins the frame. -/
def counted (s : State) (frame : Nat) : State :=
  { s with
      cen := { s.cen with slots := Vector.ofFn (fun n =>
        if n ∈ s.cen.periodic then afterCountdown frame (s.campaign n) else s.campaign n) }
      clk := { s.clk with reports := (joined s.clk.reports
        ((s.cen.periodic.filter (fun n => overrunsAt frame (s.campaign n))).map Origin.campaign)) } }

theorem counted_run (s : State) (frame : Nat) : s.countdownsRun (counted s frame) frame :=
  ⟨fun n => by simp [counted, State.campaign], rfl⟩

/-- A periodic survey, IDLE_PERIODIC in slot 4 with a given part. -/
def counting (x : PeriodicPart) (plain : State) : State :=
  engine { dueSurvey with periodic := some x } {} [] [] [4] {} plain

/-- It alone is due after a countdown of 1 at a matching frame, marked before (an overrun) or not. -/
theorem test_meets_due_at_boundary : ∀ s ∈ [counting (part 1 false) ready, counting (part 1 false) plant,
      State.crowded (counting (part 1 false) plant), counting (part 1 true) plant],
    s.nothingToGrant ∧ s.noneSeeksRoom ∧ s.noneConfirms ∧ s.cen.demand = [] ∧ s.cen.periodic = [4] ∧ s.cen.periodic.Nodup
    ∧ s.countdownsRun (counted s s.boundaryPassed.fga.frame) s.boundaryPassed.fga.frame
    ∧ (counted s s.boundaryPassed.fga.frame).duePeriodic 4
    ∧ (∀ m ∈ s.cen.periodic, m ≠ 4 → ¬ (counted s s.boundaryPassed.fga.frame).duePeriodic m)
    ∧ (s.campaign 4).kind ≠ some .confirm := by
  intro s hs
  simp only [List.mem_cons, List.not_mem_nil, or_false] at hs
  rcases hs with rfl | rfl | rfl | rfl <;>
    exact ⟨idle_of rfl (by decide) rfl (by decide), none_seeks_of (by decide), none_confirms_of (by decide), rfl, rfl, by decide,
      counted_run _ _, ⟨rfl, _, rfl, rfl⟩, fun m h hm => absurd (List.mem_singleton.1 h) hm, by decide⟩

theorem test_meets_due_examined :
    (counting (part 1 false) ready).dispatchFails ((counting (part 1 false) ready).campaign 4) .noPath
    ∧ (counting (part 1 false) plant).dispatchPasses ((counting (part 1 false) plant).campaign 4) [⟨16, 100, 1⟩]
    ∧ (counting (part 1 false) plant).chain 3 = []
    ∧ ¬ (counting (part 1 false) plant).orderAmong 3 [.waitingChannel, .referencing, .sending, .listening, .confirming]
    ∧ firstFit 5 (counting (part 1 false) plant).ecr.extents 0 = some 0
    ∧ (State.crowded (counting (part 1 false) plant)).dispatchPasses
        ((State.crowded (counting (part 1 false) plant)).campaign 4) [⟨16, 100, 1⟩]
    ∧ firstFit 5 (State.crowded (counting (part 1 false) plant)).ecr.extents 0 = none :=
  ⟨fails_without_path rfl rfl, passes_on_plant rfl rfl rfl rfl rfl rfl rfl rfl (by decide), rfl, none_among_of (by decide), rfl,
    passes_on_plant rfl rfl rfl rfl rfl rfl rfl rfl (by decide), rfl⟩

/-- A periodic survey on a chain that falls due is not examined. -/
theorem test_meets_overrun_on_chain (s : State) (hs : s = engine {} { survey with periodic := some (part 1 false) } [5] [] [5]
      { slicing 2 false with holder := some (.slice 5 2 false) } plant) : s.nothingToGrant ∧ s.noneSeeksRoom ∧ s.noneConfirms
    ∧ s.cen.demand = [] ∧ s.cen.periodic.Nodup
    ∧ s.countdownsRun (counted s s.boundaryPassed.fga.frame) s.boundaryPassed.fga.frame
    ∧ (∀ n ∈ s.cen.periodic, ¬ (counted s s.boundaryPassed.fga.frame).duePeriodic n)
    ∧ overrunsAt s.boundaryPassed.fga.frame (s.campaign 5) = true := by
  subst hs
  have b := busy_of (s := engine {} { survey with periodic := some (part 1 false) } [5] [] [5]
    { slicing 2 false with holder := some (.slice 5 2 false) } plant) rfl (by decide) rfl rfl (by decide) rfl ⟨1, 2, false, rfl⟩
  refine ⟨b.1, b.2, none_confirms_of (by decide), rfl, by decide, counted_run _ _, fun n h hd => ?_, rfl⟩
  rw [List.mem_singleton.1 h] at hd
  exact absurd hd.1 (by decide)

/-- R69 and R70 on single slots: a tag holds a countdown at 0, an overrun's count stops at 65,535. -/
theorem test_countdown_at_boundary : fallsDue 900 { part 1 false with parity := .even } = true
    ∧ fallsDue 901 { part 0 false with parity := .even } = false ∧ fallsDue 900 (part 2 false) = false
    ∧ (afterCountdown 901 { dueSurvey with periodic := some { part 0 false with parity := .even } }).periodic
        = some { part 0 false with parity := .even }
    ∧ (afterCountdown 900 { dueSurvey with periodic := some { part 1 true with overruns := 65535 } }).periodic
        = some { part 4 true with overruns := 65535 }
    ∧ (afterCountdown 900 { dueSurvey with periodic := some (part 1 false) }).periodic = some (part 4 true) := by decide

/-- A confirm of the first element of pair 3, still RESERVED. -/
def confirmCampaign : Campaign := { waiting with state := .reserved, kind := some .confirm, origin := .order }

/-- A confirm in slot 4 and its order in record 7, on a given plant. -/
def confirmed (plain : State) : State :=
  { engine confirmCampaign {} [] [] [] {} plain with
      isu := { plain.isu with orders := plain.isu.orders.set 7 (some { order with state := .confirming }), acceptance := [7] } }

theorem confirmed_orders (plain : State) (h : ∀ k, plain.order k = none) : ∀ j x, (confirmed plain).order j = some x →
    j = 7 ∧ x = { order with state := .confirming } := by
  intro j x hx
  by_cases hj : j = 7
  · subst hj
    refine ⟨rfl, ?_⟩
    simpa [confirmed, State.order] using hx.symm
  · exfalso
    have : (confirmed plain).order j = plain.order j := by
      have h7 : ¬ 7 = j.val := fun e => hj (Fin.ext e.symm)
      simp [confirmed, State.order, h7]
    rw [this, h j] at hx
    cases hx

theorem test_meets_confirm_dispatch : ((confirmed ready).clk.part = .ready ∧ (confirmed ready).confirms 7 { order with state := .confirming } 4)
    ∧ (confirmed ready).dispatchFails ((confirmed ready).campaign 4) .noPath
    ∧ (confirmed plant).nothingToGrant ∧ (confirmed plant).noneSeeksRoom ∧ (confirmed plant).isu.acceptance = [7]
    ∧ (confirmed plant).confirms 7 { order with state := .confirming } 4 ∧ ((confirmed plant).campaign 4).state = .reserved
    ∧ ((confirmed plant).campaign 4).kind = some .confirm
    ∧ (confirmed plant).dispatchPasses ((confirmed plant).campaign 4) [⟨16, 100, 1⟩] ∧ (confirmed plant).chain 3 = []
    ∧ ¬ (confirmed plant).orderAmong 3 [.waitingChannel, .referencing, .sending, .listening] := by
  have conf : ∀ plain, (∀ k, State.order plain k = none) → (confirmed plain).confirms 7 { order with state := .confirming } 4 :=
    fun plain h => ⟨by simp [confirmed, State.order], rfl, rfl, fun j x hj hx => absurd (confirmed_orders plain h j x hx).1 hj⟩
  refine ⟨⟨rfl, conf ready (by decide)⟩, fails_without_path rfl rfl, ⟨rfl, by decide, ?_, ?_⟩, none_seeks_of (by decide), rfl,
    conf plant (by decide), rfl, rfl, passes_on_plant rfl rfl rfl rfl rfl rfl rfl rfl (by decide), rfl, ?_⟩
  · intro k _ o ho
    rw [(confirmed_orders plant (by decide) k o ho).2]
    decide
  · intro q m h
    rw [show (confirmed plant).chain q = [] from (by decide : ∀ q, (confirmed plant).chain q = []) q] at h
    cases h
  · rintro ⟨k, o, ho, -, hs⟩
    rw [(confirmed_orders plant (by decide) k o ho).2] at hs
    exact absurd hs (by decide)

theorem test_meets_confirm_that_waits : (State.crowded (confirmed plant)).dispatchPasses
      ((State.crowded (confirmed plant)).campaign 4) [⟨16, 100, 1⟩]
    ∧ firstFit (5 * [(⟨16, 100, 1⟩ : Element)].length) (State.crowded (confirmed plant)).ecr.extents 0 = none :=
  ⟨passes_on_plant rfl rfl rfl rfl rfl rfl rfl rfl (by decide), rfl⟩

/-- A child on pair 3 that waits for room, with given extents. -/
def roomless (l : List Extent) : State :=
  { engine {} { survey with state := .awaitingRoom, extent := none } [5] [] [] {} plant with ecr := { ready.ecr with extents := l } }

theorem test_meets_room_sought : (∀ l, (roomless l).nothingToGrant) ∧ (∀ l, (roomless l).noneConfirms)
    ∧ ((roomless []).chain 3).getLast? = some 5 ∧ ((roomless []).campaign 5).state = .awaitingRoom
    ∧ (∀ q m, q ≠ 3 → ((roomless []).chain q).getLast? = some m → ((roomless []).campaign m).state ≠ .awaitingRoom)
    ∧ firstFit (5 * ((roomless []).campaign 5).elements.length) (roomless []).ecr.extents 0 = some 0
    ∧ firstFit (5 * ((roomless [⟨0, 8192, 9⟩]).campaign 5).elements.length) (roomless [⟨0, 8192, 9⟩]).ecr.extents 0 = none := by
  have others : ∀ l q, q ≠ 3 → (roomless l).chain q = [] := by
    intro l
    exact (by decide : ∀ q, q ≠ 3 → (roomless []).chain q = [])
  refine ⟨fun l => ⟨rfl, (by decide : (0 : Nat) ≤ 4095), fun k hk => (nomatch hk), fun q m h => .inl ?_⟩,
    fun l => none_confirms_of ((by decide : ∀ k, (roomless []).order k = none)), rfl, rfl, fun q m hq h => ?_, rfl, rfl⟩
  · by_cases hq : q = 3
    · subst hq
      cases h
      rfl
    · rw [others l q hq] at h; cases h
  · rw [others [] q hq] at h; cases h

/-! ## Witnesses: the order of the dispatch groups -/

/-- A due periodic slot 4 and a demand campaign in slot 5, both of pair 3. -/
theorem test_meets_periodic_before_demand (s : State) (hs : s = engine dueSurvey waiting [] [5] [4] {} plant) : s.nothingToGrant
    ∧ s.noneSeeksRoom ∧ s.noneConfirms ∧ s.cen.periodic = [4] ∧ s.cen.demand = [5] ∧ (s.campaign 4).state = .idlePeriodic
    ∧ (s.campaign 4).kind ≠ some .confirm ∧ (s.campaign 4).periodic = some (part 2 true) ∧ (s.campaign 5).state = .queued
    ∧ (s.campaign 5).kind ≠ some .confirm ∧ (s.campaign 5).pair = (s.campaign 4).pair
    ∧ s.dispatchPasses (s.campaign 4) [⟨16, 100, 1⟩] ∧ s.dispatchPasses (s.campaign 5) [⟨16, 100, 1⟩] ∧ s.chain 3 = []
    ∧ ¬ s.orderAmong 3 [.waitingChannel, .referencing, .sending, .listening, .confirming]
    ∧ firstFit (5 * [(⟨16, 100, 1⟩ : Element)].length) s.ecr.extents 0 = some 0 := by
  subst hs
  exact ⟨idle_of rfl (by decide) rfl (by decide), none_seeks_of (by decide), none_confirms_of (by decide), rfl, rfl, rfl, by decide,
    rfl, rfl, by decide, rfl, passes_on_plant rfl rfl rfl rfl rfl rfl rfl rfl (by decide),
    passes_on_plant rfl rfl rfl rfl rfl rfl rfl rfl (by decide), rfl, none_among_of (by decide), rfl⟩

/-- The confirm of `confirmed` with a due periodic slot 5, and room for one of them. -/
def contended : State :=
  { confirmed plant with
      cen := { (confirmed plant).cen with slots := (confirmed plant).cen.slots.set 5 dueSurvey, periodic := [5] }
      ecr := { (confirmed plant).ecr with extents := [⟨5, 8187, 9⟩] } }

theorem test_meets_confirm_before_periodic : contended.nothingToGrant ∧ contended.noneSeeksRoom ∧ contended.cen.demand = []
    ∧ contended.cen.periodic = [5] ∧ contended.isu.acceptance = [7] ∧ contended.confirms 7 { order with state := .confirming } 4
    ∧ (contended.campaign 4).state = .reserved ∧ (contended.campaign 4).kind = some .confirm
    ∧ (contended.campaign 5).state = .idlePeriodic ∧ (contended.campaign 5).kind ≠ some .confirm
    ∧ (contended.campaign 5).periodic = some (part 2 true) ∧ contended.dispatchPasses (contended.campaign 4) [⟨16, 100, 1⟩]
    ∧ contended.dispatchPasses (contended.campaign 5) [⟨16, 100, 1⟩] ∧ contended.chain 3 = []
    ∧ ¬ contended.orderAmong 3 [.waitingChannel, .referencing, .sending, .listening]
    ∧ firstFit 5 contended.ecr.extents 0 = some 0
    ∧ firstFit 5 (insertExtent { start := 0, length := 5, slot := 4 } contended.ecr.extents) 0 = none := by
  have only := confirmed_orders plant (by decide)
  refine ⟨⟨rfl, by decide, fun k _ o ho => ?_, fun q m h => ?_⟩, none_seeks_of (by decide), rfl, rfl, rfl,
    ⟨by simp [contended, confirmed, State.order], rfl, rfl, fun j x hj hx => absurd (only j x hx).1 hj⟩, rfl, rfl, rfl, by decide,
    rfl, passes_on_plant rfl rfl rfl rfl rfl rfl rfl rfl (by decide), passes_on_plant rfl rfl rfl rfl rfl rfl rfl rfl (by decide), rfl,
    ?_, rfl, rfl⟩
  · rw [(only k o ho).2]; decide
  · rw [(by decide : ∀ q, contended.chain q = []) q] at h; cases h
  · rintro ⟨k, o, ho, -, hs⟩
    rw [(only k o ho).2] at hs
    exact absurd hs (by decide)

/-- That confirm with a child in slot 5 that waits for room, and room for one of them. -/
def crowding : State :=
  { confirmed plant with
      cen := { (confirmed plant).cen with
        slots := (confirmed plant).cen.slots.set 5 { survey with state := .awaitingRoom, extent := none }
        chains := (confirmed plant).cen.chains.set 3 [5] }
      ecr := { (confirmed plant).ecr with extents := [⟨5, 8187, 9⟩] } }

theorem test_meets_room_before_confirm : crowding.nothingToGrant ∧ crowding.cen.demand = [] ∧ crowding.cen.periodic = []
    ∧ (crowding.chain 3).getLast? = some 5 ∧ (crowding.campaign 5).state = .awaitingRoom
    ∧ (∀ q j, q ≠ 3 → (crowding.chain q).getLast? = some j → (crowding.campaign j).state ≠ .awaitingRoom)
    ∧ crowding.isu.acceptance = [7] ∧ crowding.confirms 7 { order with state := .confirming } 4
    ∧ (crowding.campaign 4).state = .reserved ∧ (crowding.campaign 4).kind = some .confirm
    ∧ crowding.dispatchPasses (crowding.campaign 4) [⟨16, 100, 1⟩]
    ∧ firstFit (5 * (crowding.campaign 5).elements.length) crowding.ecr.extents 0 = some 0
    ∧ firstFit 5 (insertExtent { start := 0, length := 5, slot := 5 } crowding.ecr.extents) 0 = none := by
  have only := confirmed_orders plant (by decide)
  have others : ∀ q, q ≠ 3 → crowding.chain q = [] := by decide
  refine ⟨⟨rfl, by decide, fun k _ o ho => ?_, fun q m h => .inl ?_⟩, rfl, rfl, rfl, rfl, fun q j hq h => ?_, rfl,
    ⟨by simp [crowding, confirmed, State.order], rfl, rfl, fun j x hj hx => absurd (only j x hx).1 hj⟩, rfl, rfl,
    passes_on_plant rfl rfl rfl rfl rfl rfl rfl rfl (by decide), rfl, rfl⟩
  · rw [(only k o ho).2]; decide
  · by_cases hq : q = 3
    · subst hq; cases h; rfl
    · rw [others q hq] at h; cases h
  · rw [others q hq] at h; cases h

/-! ## Witnesses: grants without a settle, ends of slices and of measurements -/

/-- The survey after its first period on pair 3, which channel 1 served last and still holds. -/
def continued (ch : Channel) : State :=
  { chained { survey with exponent := 3, accepted := 1 } ch with
      fga := { ready.fga with service := 3 :: allPairs.filter (fun p => p != 3), previous := ready.fga.previous.set 3 (some 1) } }

/-- The probe of the survey. -/
def probing : Signature := ⟨3, 0, 0, 64, 0⟩

theorem test_meets_grant_without_settle : ∀ ch ∈ [({ state := .parked, point := some 3 } : Channel),
      { state := .coasting, point := some 3, probe := some probing },
      { state := .coasting, point := some 3, probe := some { probing with pair := 2 } }],
    (continued ch).clk.part = .ready ∧ ((continued ch).channel 1).holder = none
    ∧ ((continued ch).channel 1).state ∈ [ChannelState.disconnected, .parked, .coasting]
    ∧ (continued ch).pointEnabled 1 3 = true ∧ (continued ch).fga.previous[(3 : Pair)] = some 1 ∧ (continued ch).chain 3 = [4]
    ∧ ((continued ch).channel 1).point = some 3 ∧ (∀ d, d ≠ 1 → ((continued ch).channel d).point ≠ some 3)
    ∧ (∀ d, ((continued ch).channel d).holder = none) ∧ 1 ≤ ((continued ch).campaign 4).accepted
    ∧ ((continued ch).campaign 4).applied = some (64, 0) ∧ probeLevel 64 0 ≤ (continued ch).ceiling 3 := by decide +kernel

theorem test_meets_coasting_at_boundary : (chained survey coasting).clk.part = .ready
    ∧ ((chained survey coasting).channel 1).state = .coasting ∧ ((chained survey coasting).channel 1).holder = none := by decide

/-- A slice of slot 4 with one period left and two dark slices before it, in a given campaign. -/
def darkening (c : Campaign) : State := chained { c with darkCount := 2 } (slicing 1 false)

theorem test_meets_dark_end : ((darkening survey).channel 1).holder = some (.slice 4 1 false)
    ∧ ((darkening survey).campaign 4).darkCount = 2 ∧ (4 : Slot) ∈ (darkening survey).chain 3
    ∧ ∃ u : State, u = { darkening survey with
        pch := { (darkening survey).pch with
          channels := (darkening survey).pch.channels.set 1 { (darkening survey).channel 1 with state := .coasting, holder := none }
          dark := (darkening survey).pch.dark.set 3 true }
        cen := { (darkening survey).cen with slots := ((darkening survey).cen.slots.set 4
          { (darkening survey).campaign 4 with darkCount := 3 }) }
        clk := { (darkening survey).clk with reports := joined (darkening survey).clk.reports [.pair 3] } } ∧ u.chainsApart [3] :=
  ⟨rfl, rfl, by decide, _, rfl, by decide, apart_of_free (by decide), fun q hq m hm => by
    rw [List.mem_singleton.1 hq] at hm
    cases hm
    decide⟩

theorem test_meets_lit_end : ((chained { survey with exponent := 15 } (slicing 1 true)).channel 1).holder = some (.slice 4 1 true)
    ∧ ((chained { survey with exponent := 15 } (slicing 1 true)).channel 1).state = .periods
    ∧ ({ survey with exponent := 15 } : Campaign).accepted + 1 < 2 ^ ({ survey with exponent := 15 } : Campaign).exponent
    ∧ ({ survey with exponent := 15 } : Campaign).extent = some (0, 5 * ({ survey with exponent := 15 } : Campaign).elements.length) :=
  ⟨rfl, rfl, by decide, rfl⟩

/-- The confirm of an order at work in slot 4, its order in record 7, and channel 1 in a given condition. -/
def confirming (o : Order) (ch : Channel) : State :=
  { chained { survey with kind := some .confirm, origin := .order, darkCount := 2 } ch with
      isu := { plant.isu with orders := plant.isu.orders.set 7 (some o), acceptance := [7] } }

theorem confirming_confirms (a : Action) (i : Index) (ch : Channel) :
    (confirming { order with state := .confirming, action := a, entry := i } ch).confirms 7
      { order with state := .confirming, action := a, entry := i } 4 := by
  refine ⟨by simp [confirming, State.order], rfl, rfl, fun j x hj hx => ?_⟩
  exfalso
  have h7 : ¬ 7 = j.val := fun e => hj (Fin.ext e.symm)
  have : (confirming { order with state := .confirming, action := a, entry := i } ch).order j = plant.order j := by
    simp [confirming, State.order, h7]
  rw [this, (by decide : ∀ j, plant.order j = none) j] at hx
  cases hx

theorem test_meets_dark_confirm : (confirming { order with state := .confirming } (slicing 1 false)).chain 3 = [4]
    ∧ ((confirming { order with state := .confirming } (slicing 1 false)).campaign 4).origin = .order
    ∧ ((confirming { order with state := .confirming } (slicing 1 false)).campaign 4).darkCount = 2
    ∧ (confirming { order with state := .confirming } (slicing 1 false)).confirms 7 { order with state := .confirming } 4 :=
  ⟨rfl, rfl, rfl, confirming_confirms .gainHold 16 _⟩

/-- The result of the only element in silence. -/
def silent : ResultElement := ⟨16, 1, 0, 0, -12000, none, none, some .noEcho, none, none, none⟩

/-- In silence the sum of a period adds nothing to a cell. -/
theorem measures_silence {s : State} {n : Slot} {start : Nat} {l : List ResultElement} (hq : (s.campaign n).requested.sequence = 0)
    (hl : l.map (fun r => { r with verdict := none })
      = (s.campaign n).elements.zipIdx.map (fun x => s.reduceElement (s.campaign n) (start + 5 * x.2) x.1))
    (hp : l.head?.map ResultElement.position = some 1)
    (hc : l.map ResultElement.verdict
      = (classify s.flo.tStep s.flo.tDrift (some 0) (some 0) (l.map (s.observe (s.campaign n).pair))).map some) :
    s.measuresTo n start silence l :=
  ⟨s, rfl, fun k e o _ _ _ => by rw [hq, test_sum_of_silence, Int.add_zero], hl, fun base hb => by rw [hb, hp]; exact hc⟩

theorem test_meets_measurement_of_a_survey : (chained survey (slicing 1 false)).endsMeasurement 1 4 silence [silent] := by
  refine ⟨1, false, 0, rfl, rfl, rfl, silence_length, by decide, rfl, by decide, by decide, fun d m k x hd h => ?_,
    measures_silence rfl (by decide) rfl (by decide)⟩
  rw [(by decide : ∀ d : Chan, d ≠ 1 → ((chained survey (slicing 1 false)).channel d).holder = none) d hd] at h
  cases h

theorem test_meets_finish : survey.cursor = none ∧ (chained survey (slicing 1 false)).walkable 4 [silent] = []
    ∧ (chained survey (slicing 1 false)).chain survey.pair = [4] ∧ survey.origin = .demand := by decide

/-- A survey over both elements with auto-locate, whose second period is its last. -/
def locating (depth : Nat) : Campaign :=
  { survey with
    elements := [⟨16, 5, 1⟩, ⟨17, 105, 2⟩], extent := some (0, 10), exponent := 1, accepted := 1, autoLocate := true, last := 2,
    depth := depth }

/-- That survey at work, with an echo in the cells of L1 and none in those of L0. -/
def echoing (depth : Nat) : State :=
  { chained (locating depth) (slicing 1 false) with ecr := { ready.ecr with cells := [(7, 81840)] } }

/-- L0 is LOST before L1's echo. -/
def lostResult : ResultElement := ⟨16, 1, 0, 0, -12000, none, none, some .lost, none, none, none⟩

/-- What it finds. -/
def lostResults : List ResultElement :=
  [lostResult, ⟨17, 2, 0, 10240, -3419, some 4193, none, some .noBaseline, none, none, none⟩]

theorem test_meets_measurement_with_suspects :
    (echoing 1).endsMeasurement 1 4 silence lostResults ∧ (echoing 8).endsMeasurement 1 4 silence lostResults := by
  refine ⟨⟨1, false, 0, rfl, rfl, rfl, silence_length, by decide, rfl, by decide, by decide, fun d m k x hd h => ?_,
    measures_silence rfl (by decide +kernel) rfl (by decide +kernel)⟩,
    ⟨1, false, 0, rfl, rfl, rfl, silence_length, by decide, rfl, by decide, by decide, fun d m k x hd h => ?_,
    measures_silence rfl (by decide +kernel) rfl (by decide +kernel)⟩⟩
  · rw [(by decide : ∀ d : Chan, d ≠ 1 → ((echoing 1).channel d).holder = none) d hd] at h
    cases h
  · rw [(by decide : ∀ d : Chan, d ≠ 1 → ((echoing 8).channel d).holder = none) d hd] at h
    cases h

/-- The elements of the child for L0. -/
def childElements : List Element := [⟨16, 100, 1⟩, ⟨17, 200, 2⟩]

theorem child_plan (depth : Nat) (h : (echoing depth).campaign 4 = locating depth) :
    (echoing depth).childPlan 4 lostResult 1 2 childElements := by
  unfold State.childPlan
  rw [h]
  refine ⟨rfl, rfl, rfl, fun j e h => ?_⟩
  have hj := (List.getElem?_eq_some_iff.mp h).1
  simp only [childElements, List.length_cons, List.length_nil] at hj
  have : j = 0 ∨ j = 1 := by omega
  rcases this with rfl | rfl <;> cases h
  · exact ⟨⟨16, 1000, none⟩, rfl,
      (by decide : (⟨16, 100, 1⟩ : Element) = ⟨16, (2 * 1000 + chipMicros 0) / (2 * chipMicros 0), 1⟩)⟩
  · exact ⟨⟨17, 2000, none⟩, rfl,
      (by decide : (⟨17, 200, 2⟩ : Element) = ⟨17, (2 * 2000 + chipMicros 0) / (2 * chipMicros 0), 2⟩)⟩

theorem test_meets_child_made : (echoing 1).walkable 4 lostResults = [] ++ lostResult :: []
    ∧ (echoing 1).childPlan 4 lostResult 1 2 childElements ∧ (∀ y ∈ (echoing 1).childChecks 4 childElements, y.1)
    ∧ (echoing 1).lowestFreeSlot 0 ∧ (echoing 1).chain (locating 1).pair = [] ++ [4] := by
  refine ⟨by decide, child_plan 1 rfl, fun y hy => ?_, ⟨rfl, fun m h => absurd h (Fin.not_lt_zero m)⟩, rfl⟩
  simp only [State.childChecks, List.mem_cons, List.not_mem_nil, or_false] at hy
  rcases hy with rfl | rfl | rfl | rfl | rfl
  · show 2 ≤ 8; decide
  · show 4 ≤ 15; decide
  · exact ⟨0, rfl⟩
  · exact (by decide : ∀ e ∈ childElements, e.lag + 2 ≤ sequenceLength 0 - 1)
  · intro j e f h1 h2
    have hj := (List.getElem?_eq_some_iff.mp h2).1
    simp only [childElements, List.length_cons, List.length_nil] at hj
    have : j = 0 := by omega
    subst this
    cases h1; cases h2
    exact .inl (by decide)

theorem test_meets_child_blocked : (echoing 8).walkable 4 lostResults = [lostResult]
    ∧ ∀ r ∈ [lostResult], (echoing 8).childBlocked 4 r .depth := by
  refine ⟨by decide, fun r hr => ?_⟩
  rw [List.mem_singleton.1 hr]
  exact ⟨1, 2, childElements, [], _, _, child_plan 8 rfl, rfl, fun c hc => (nomatch hc), (by decide : ¬ 8 + 1 ≤ 8)⟩

/-- The child in slot 5 with a slice of one period left on channel 1. -/
def returning : State := parented nested childCampaign { slicing 1 false with holder := some (.slice 5 1 false) }

theorem test_meets_measurement_of_a_child : returning.endsMeasurement 1 5 silence [silent] := by
  refine ⟨1, false, 0, rfl, rfl, rfl, silence_length, by decide, rfl, by decide, by decide, fun d m k x hd h => ?_,
    measures_silence rfl (by decide) rfl (by decide)⟩
  rw [(by decide : ∀ d : Chan, d ≠ 1 → (returning.channel d).holder = none) d hd] at h
  cases h

theorem test_meets_child_return : returning.walkable 5 [silent] = [] ∧ (returning.campaign 5).kind = some .locate
    ∧ (returning.campaign 5).origin = .child ∧ (returning.campaign 5).parent = some 4 ∧ returning.chain 3 = [4, 5]
    ∧ (returning.campaign 4).cursor = some 1 ∧ (returning.campaign 4).pair = 3 ∧ silent.position = 1
    ∧ silent.verdict = some .noEcho ∧ foundResult ∈ (returning.campaign 4).results ∧ foundResult.position = 1
    ∧ foundResult.entry = silent.entry ∧ ((returning.campaign 4).results.map ResultElement.position).Nodup
    ∧ (∀ y ∈ returning.walkable 4 (refineAt (returning.campaign 4).results 1 .noEcho (some 2) none), y.position ≤ 1)
    ∧ (returning.campaign 4).origin = .demand ∧ (returning.campaign 5).cursor = none := by decide

/-- A chain of three on pair 3: the root in slot 4 and a child in slot 5, both NESTED with their cursors at 1, and a child in slot 6. -/
def deep : State :=
  { parented nested { nested with kind := some .locate, origin := .child, parent := some 4, depth := 2 }
      { slicing 1 false with holder := some (.slice 6 1 false) } with
      cen := { plant.cen with
        slots := ((plant.cen.slots.set 4 nested).set 5
          { nested with kind := some .locate, origin := .child, parent := some 4, depth := 2 }).set 6
          { childCampaign with parent := some 5, depth := 3 }
        chains := plant.cen.chains.set 3 [4, 5, 6] } }

/-- The link of a child of which target, parent and element are known. -/
theorem linked_child {s : State} {p : Pair} {n q : Slot} {l : List ResultElement} {below : List Slot} (k : Nat)
    (target element : ResultElement) (hp : (s.campaign n).pair = p) (hl : (l.map ResultElement.position).Pairwise (· < ·))
    (ho : (s.campaign n).origin = .child) (hq : (s.campaign n).parent = some q) (hc : (s.campaign q).cursor = some k) (ht : target ∈ l)
    (hk : target.position = k) (hv : target.verdict ≠ none) (he : element ∈ (s.campaign q).results) (hek : element.position = k)
    (h : s.linked p q (s.campaign q).results below) : s.linked p n l (q :: below) := by
  unfold State.linked
  exact ⟨hp, hl, ho, hq, ⟨k, target, element, hc, ht, hk, hv, he, hek⟩, h⟩

theorem root_linked (s : State) (h : (s.campaign 4).pair = 3) (ho : (s.campaign 4).origin = .demand)
    (hr : (s.campaign 4).results = nested.results) : s.linked 3 4 (s.campaign 4).results [] := by
  unfold State.linked
  exact ⟨h, by rw [hr]; decide, .inl ho⟩

theorem deep_linked : deep.linked 3 5 (deep.campaign 5).results [4] :=
  linked_child 1 foundResult foundResult rfl (by decide) rfl rfl rfl (by decide) rfl (by decide) (by decide) rfl
    (root_linked deep rfl rfl rfl)

theorem test_meets_unwinding : returning.chain 3 = ([5, 4] : List Slot).reverse ∧ ([5, 4] : List Slot).Nodup
    ∧ returning.linked 3 5 [silent] [4] ∧ (deep.campaign 6).cursor = none ∧ deep.chain 3 = ([6, 5, 4] : List Slot).reverse
    ∧ ([6, 5, 4] : List Slot).Nodup ∧ deep.linked 3 6 [silent] [5, 4] ∧ deep.endsMeasurement 1 6 silence [silent] := by
  refine ⟨rfl, by decide, linked_child 1 silent foundResult rfl (by decide) rfl rfl rfl (by decide) rfl (by decide) (by decide) rfl
      (root_linked returning rfl rfl rfl), rfl, rfl, by decide,
    linked_child 1 silent foundResult rfl (by decide) rfl rfl rfl (by decide) rfl (by decide) (by decide) rfl deep_linked,
    ⟨1, false, 0, rfl, rfl, rfl, silence_length, by decide, rfl, by decide, by decide, fun d m k x hd h => ?_,
      measures_silence rfl (by decide) rfl (by decide)⟩⟩
  rw [(by decide : ∀ d : Chan, d ≠ 1 → (deep.channel d).holder = none) d hd] at h
  cases h

theorem test_meets_abort_above_a_child : deep.takes hdr 0 0 2 ∧ (6 : Byte).toNat = (6 : Slot).val ∧ (deep.campaign 6).requester = 0
    ∧ (deep.campaign 6).kind ≠ some .confirm ∧ (deep.campaign 6).state = .measuring ∧ (deep.chain 3).Nodup
    ∧ deep.oneChannelEach (deep.chain 3) ∧ deep.chain 3 = ([4] : List Slot).reverse ++ 5 :: 6 :: [] ∧ (deep.campaign 5).cursor = some 1
    ∧ foundResult ∈ (deep.campaign 5).results ∧ deep.linked 3 5 (deep.campaign 5).results [4] :=
  ⟨ready_takes _ _ rfl, rfl, rfl, by decide, rfl, by decide, apart_of_one (by decide), rfl, rfl, by decide, deep_linked⟩

/-- A root with a second suspect: the ABORT of its child makes the next one in the same event, in the lowest FREE slot (R96, R119). -/
def twoSuspects : State :=
  parented { nested with autoLocate := true, results := [lostResult, { lostResult with entry := 17, position := 2 }] } childCampaign {}

theorem test_meets_abort_that_walks_on : twoSuspects.linked 3 4 (twoSuspects.campaign 4).results []
    ∧ (twoSuspects.campaign 4).cursor = some 1 ∧ lostResult ∈ (twoSuspects.campaign 4).results ∧ lostResult.position = 1 := by
  refine ⟨?_, rfl, by decide, rfl⟩
  unfold State.linked
  exact ⟨rfl, by decide, .inl rfl⟩

/-- What the ABORT leaves. -/
def walkedOn : State :=
  match twoSuspects.abortOnChain 5 with
  | .ok (t, _) => t
  | .error _ => twoSuspects

theorem test_abort_walks_on : walkedOn.chain 3 = [4, 0] ∧ (walkedOn.campaign 4).cursor = some 2
    ∧ (walkedOn.campaign 4).results.map ResultElement.refined = [some .aborted, none] ∧ (walkedOn.campaign 0).parent = some 4
    ∧ (walkedOn.campaign 5).state = .free := by decide

theorem test_meets_measurement_of_a_confirm (o : Order) :
    (confirming o (slicing 1 false)).endsMeasurement 1 4 silence [silent] := by
  have h1 : [silent].map (fun r => { r with verdict := none }) = ((confirming order (slicing 1 false)).campaign 4).elements.zipIdx.map
      (fun x => (confirming order (slicing 1 false)).reduceElement ((confirming order (slicing 1 false)).campaign 4) (0 + 5 * x.2) x.1) := by
    decide
  have h2 : [silent].map ResultElement.verdict = (classify 150 300 (some 0) (some 0)
      ([silent].map ((confirming order (slicing 1 false)).observe 3))).map some := by decide
  have h3 : ∀ d : Chan, d ≠ 1 → ((confirming order (slicing 1 false)).channel d).holder = none := by decide
  refine ⟨1, false, 0, rfl, rfl, rfl, silence_length, (by decide : 0 + 1 = 2 ^ 0), rfl, (by decide : [(16 : Index)].Nodup),
    (by decide : [1].Pairwise (fun a b : Nat => a < b)), fun d m k x hd h => ?_, measures_silence rfl h1 rfl h2⟩
  rw [show ((confirming o (slicing 1 false)).channel d).holder = none from h3 d hd] at h
  cases h

/-- A loop mute whose element is silent passes, a gain hold fails, and an order for another element is not on the path. -/
theorem test_meets_confirm_verdict : silent ∈ [silent] ∧ silent.entry = order.entry
    ∧ silent.amplitude < (confirming order (slicing 1 false)).ecr.floor
    ∧ silent.verdict ∉ [some ElementClass.normal, some .rise, some .drift]
    ∧ (∀ r ∈ [silent], r.entry ≠ 17) ∧ (∃ passes : Bool, passes = true ↔ silent.amplitude < ready.ecr.floor) :=
  ⟨by decide, rfl, by decide, by decide, by decide, true, by decide⟩

/-! ## Witnesses: answers -/

/-- The first 11 bits of a window that decodes as ACCEPT with a last bit of 1. -/
def accepting : List Bool := [true, true, true, false, true, false, false, true, true, false, true]

/-- An order in LISTENING with one period to go, for an action on an entry. -/
def answered (a : Action) (i : Index) (window : List Bool) (attempts : Nat) : Order :=
  { listeningOrder window with action := a, entry := i, attempts := attempts }

theorem test_meets_answer_to_a_burst (a : Action) (i : Index) (attempts : Nat) :
    ((topped (answered a i accepting attempts)).channel 1).state = .periods
    ∧ ((topped (answered a i accepting attempts)).channel 1).holder = some (.order 7)
    ∧ (topped (answered a i accepting attempts)).order 7 = some (answered a i accepting attempts)
    ∧ (answered a i accepting attempts).state = .listening ∧ (answered a i accepting attempts).window.length = 11
    ∧ silence.length = sequenceLength (answered a i accepting attempts).sequence
    ∧ (topped (answered a i accepting attempts)).lastInverted 1 = false ∧ (answered a i accepting attempts).offset = some 0
    ∧ (answered a i accepting attempts).reference = some 0
    ∧ decodeWindow ((answered a i accepting attempts).window ++ [lastBit]) = .accept
    ∧ ((topped (answered a i accepting attempts)).chain 3).getLast? = some 5 := by
  refine ⟨rfl, rfl, rfl, rfl, rfl, silence_length, rfl, rfl, rfl, ?_, rfl⟩
  rw [lastBit_reads_one]
  exact (by decide : decodeWindow (accepting ++ [true]) = .accept)

theorem test_meets_last_answer : (answered .gainHold 16 (List.replicate 11 true) 2).limit
      ≤ (answered .gainHold 16 (List.replicate 11 true) 2).attempts + 1
    ∧ decodeWindow ((answered .gainHold 16 (List.replicate 11 true) 2).window ++ [lastBit]) = .noAnswer
    ∧ decodeWindow ([true, true, true, true, false, true, false, false, true, true, false] ++ [!lastBit]) = .garbled
    ∧ decodeWindow ([false, true, true, false, false, true, true, false, true, true, true] ++ [lastBit]) = .refuse := by
  rw [lastBit_reads_one]
  decide

theorem test_meets_accept_on_path : ((topped (answered .pumpToSpare 17 accepting 0)).effectivePath 3)[1]?.map PathElement.entry = some 17
    ∧ (∀ j x, j < 1 → ((topped (answered .pumpToSpare 17 accepting 0)).effectivePath 3)[j]? = some x → x.entry ≠ 17)
    ∧ ∀ x ∈ (topped (answered .gainHold 20 accepting 0)).effectivePath 3, x.entry ≠ 20 := by
  refine ⟨rfl, fun j x hj hx => ?_, by decide⟩
  have : j = 0 := by omega
  subst this
  cases hx
  decide

/-- A ROUTE order for the unit of pair 3's path, the survey in slot 5 on the pair's chain. -/
def routed : State :=
  { topped (answered .routeB 0 accepting 0) with lpt := branched.lpt }

theorem test_meets_route : [(3 : Pair)] = allPairs.filter (fun q => (routed.path q).any (fun x => x.entry == 0))
    ∧ (answered .routeB 0 accepting 0).action = .routeB
    ∧ ∃ u : State, routed.topZeroed 3 u.cen.slots u.ecr.cells ∧ u = { routed with
        pch := { routed.pch with channels := routed.pch.channels.set 1 { routed.channel 1 with state := .coasting, holder := none } }
        ecr := { routed.ecr with cells := u.ecr.cells }
        cen := { routed.cen with slots := u.cen.slots }
        isu := { routed.isu with inverted := routed.isu.inverted.set 1 false } } ∧ u.chainsApart [3] := by
  refine ⟨by decide, rfl, { routed with
        pch := { routed.pch with channels := routed.pch.channels.set 1 { routed.channel 1 with state := .coasting, holder := none } }
        cen := { routed.cen with slots := routed.cen.slots.set 5 { survey with accepted := 0, mustPrime := true } }
        isu := { routed.isu with inverted := routed.isu.inverted.set 1 false } }, ⟨fun h => ?_, fun m h => ?_⟩, rfl,
    by decide, apart_of_free (by decide), fun q hq m hm => ?_⟩
  · exact absurd h (by decide)
  · cases h
    refine ⟨rfl, fun a => ?_⟩
    show (0 : Int) = if 0 ≤ a ∧ a < 0 + 5 then 0 else 0
    split <;> rfl
  · rw [List.mem_singleton.1 hq] at hm
    cases hm
    decide

/-- That ROUTE order with the confirm of another order, record 6, as the root of the pair's chain. -/
def routedConfirm : State :=
  { routed with
      cen := { routed.cen with slots := routed.cen.slots.set 5 { survey with kind := some .confirm, origin := .order } }
      isu := { routed.isu with orders := routed.isu.orders.set 6 (some { order with state := .confirming, reserved := 5 }) } }

theorem test_meets_route_over_a_confirm : [(3 : Pair)] = allPairs.filter (fun q => (routedConfirm.path q).any (fun x => x.entry == 0))
    ∧ routedConfirm.order 7 = some (answered .routeB 0 accepting 0) ∧ (routedConfirm.chain 3).Nodup
    ∧ (∀ u : State, u.pch.channels = routedConfirm.pch.channels.set 1 { routedConfirm.channel 1 with state := .coasting, holder := none } →
        u.oneChannelEach (routedConfirm.chain 3))
    ∧ routedConfirm.chain 3 = [5] ∧ (routedConfirm.campaign 5).origin = .order
    ∧ routedConfirm.confirms 6 { order with state := .confirming, reserved := 5 } 5 := by
  refine ⟨by decide, rfl, by decide, fun u hu => apart_of_free (fun c => ?_), rfl, rfl, rfl, rfl, rfl, fun j x hj hx hs => ?_⟩
  · unfold State.channel
    rw [hu]
    revert c; decide
  · by_cases h7 : j = 7
    · subst h7; cases hx; exact absurd hs (by decide)
    · rw [(by decide : ∀ j, j ≠ 6 → j ≠ 7 → routedConfirm.order j = none) j hj h7] at hx; cases hx

/-! ## Witnesses: what every step keeps -/

/-- The premises of the step invariants hold of the part READY with a command waiting. -/
theorem test_meets_ledger : ({ ready with pending := [.framingError] } : State).linkCoherent
    ∧ Ledger { ready with pending := [.framingError] } ∧ extentsDisjoint ({ ready with pending := [.framingError] } : State).ecr.extents := by
  refine ⟨⟨by decide, by decide, by decide⟩, ?_, ⟨List.Pairwise.nil, fun e he => (nomatch he)⟩⟩
  have hc : ∀ p, State.chain { ready with pending := [.framingError] } p = [] := by decide
  have ho : ∀ k, State.order { ready with pending := [.framingError] } k = none := by decide
  have hs : ∀ n, (State.campaign { ready with pending := [.framingError] } n).state = .free := by decide
  have hh : ∀ c, (State.channel { ready with pending := [.framingError] } c).holder = none := by decide
  refine ⟨fun p n h => ?_, fun p => by rw [hc p]; exact List.nodup_nil, fun p i n h => ?_, fun p n h => ?_, fun p n h => ?_,
    fun p i m n h => ?_, fun n h => ?_, List.nodup_nil, fun n => ?_, List.nodup_nil, fun k => ?_, fun k o h => ?_,
    fun k o h => ?_, fun j k o x _ h => ?_, fun c k h => ?_, fun k h => (nomatch h)⟩
  · rw [hc p] at h; cases h
  · rw [hc p] at h; cases h
  · rw [hc p] at h; cases h
  · rw [hc p] at h; cases h
  · rw [hc p] at h; cases h
  · rw [hs n] at h; exact absurd h (by decide)
  · rw [hs n]; exact ⟨fun h => (nomatch h), fun h => (nomatch h)⟩
  · rw [ho k]; exact ⟨fun h => (nomatch h), fun h => absurd rfl h⟩
  · rw [ho k] at h; cases h
  · rw [ho k] at h; cases h
  · rw [ho j] at h; cases h
  · rw [hh c] at h; cases h

end Sys2Proof.Tests
end

section
/-! The Line Plant Table: references, span selections over a request and over the resets, and the dropping of an entry (R4, R5,
R8, R21, R22). -/

namespace Sys2Proof.Machine

variable {s : State}

/-! ## SELECT_SPAN (R5) and references (R4) -/

theorem exec_selectSpan (h : Header) (span : Byte) (s : State) :
    exec (.selectSpan h span) s = .next (s.takeFrame h 0x10 true 3 (answerSelectSpan span)) := rfl

theorem inRange_of_lt {n x : Nat} (hx : x < n) : inRange n x = some ⟨x, hx⟩ := dif_pos hx

/-- A B reference names one of the first 16 indices (R4). -/
theorem State.resolve_b (s : State) (src : Source) (number : Byte) :
    s.resolve src ⟨0, number⟩ = if h : number.toNat < 16 then some ⟨number.toNat, by omega⟩ else none := by
  show (if number.toNat < 16 then inRange 272 number.toNat else none) = _
  split
  · exact inRange_of_lt _
  · rfl

/-- An A reference names an index from 16 on, whatever its number (R4). -/
theorem State.resolve_a (s : State) (src : Source) (number : Byte) :
    s.resolve src ⟨1, number⟩ = some ⟨16 + number.toNat, by have := number.isLt; omega⟩ := inRange_of_lt _

/-- An S reference names an index of the source's selected span (R4). -/
theorem State.resolve_s (s : State) (src : Source) (number : Byte) :
    s.resolve src ⟨2, number⟩ = if h : number.toNat < 16 then
      some ⟨16 + 16 * (s.span src).val + number.toNat, by have := (s.span src).isLt; omega⟩ else none := by
  show (if number.toNat < 16 then inRange 272 (16 + 16 * (s.span src).val + number.toNat) else none) = _
  split
  · exact inRange_of_lt _
  · rfl

theorem answerSelectSpan_selects {span : Byte} {n : Fin 16} (a : Asker) (hn : span.toNat = n.val) :
    answerSelectSpan span a s = .ok (s.setSpan a.source n, [span]) := by
  have hspan : u8 n.val = [span] := by rw [← hn, u8, BitVec.ofNat_toNat, BitVec.setWidth_eq]
  rw [answerSelectSpan, inRange_of_eq hn, ← hspan]

theorem answerSelectSpan_above {span : Byte} (a : Asker) (hs : 16 ≤ span.toNat) :
    answerSelectSpan span a s = .error .range := by
  rw [answerSelectSpan, inRange_none hs]

/-! ## Span selections over the resets (R5, R21, R22) -/

theorem exec_powerOn (strap : LineRate) (s : State) :
    exec (.powerOn strap) s = .next (s.coldReset .powerOn strap false false) := rfl

theorem exec_breakReset_due {strap : LineRate} (hl : s.clk.lineAtSpace = true) (hb : s.clk.breakSpent = false) :
    exec (.breakReset strap) s = .next (s.warmReset .lineBreak strap true true) := if_pos ⟨hl, hb⟩

theorem State.coldReset_span (s : State) (cause : ResetCause) (strap : LineRate) (x y : Bool) (src : Source) :
    (s.coldReset cause strap x y).span src = 0 := by
  simp [State.span, State.coldReset, Plant.cold]

theorem State.span_congr {t : State} (h : t.lpt.spans = s.lpt.spans) (src : Source) : t.span src = s.span src := by
  rw [State.span, State.span, h]

@[simp] theorem State.queueOrigin_lpt (s : State) (o : Origin) : (s.queueOrigin o).lpt = s.lpt := by
  rw [State.queueOrigin_eq, State.setReports_lpt]

@[simp] theorem State.settleProgrammed_lpt (s : State) (p : Pair) (x : Staged) : (s.settleProgrammed p x).lpt = s.lpt := by
  unfold State.settleProgrammed
  split
  · split
    · exact State.setBaseline_lpt ..
    · rfl
  · rfl

/-- A fold leaves the table alone where each of its steps does. -/
theorem foldl_lpt {α : Type} {f : State → α → State} (hf : ∀ t x, (f t x).lpt = t.lpt) (l : List α) :
    (l.foldl f s).lpt = s.lpt :=
  foldl_keeps (P := fun t => t.lpt = s.lpt) (fun t x ht => (hf t x).trans ht) l rfl

/-- The store's recovery leaves the table alone (R172). -/
@[simp] theorem State.recoverStatuses_lpt (s : State) : s.recoverStatuses.lpt = s.lpt := by
  unfold State.recoverStatuses
  split
  · exact foldl_lpt (fun t i => State.setBaseline_lpt ..) _
  · exact foldl_lpt (fun t x => State.settleProgrammed_lpt ..) _
  · rfl
  · rfl

@[simp] theorem State.queueAfterWarm_lpt (s : State) : s.queueAfterWarm.lpt = s.lpt := by
  unfold State.queueAfterWarm
  split
  · rfl
  · split <;> rfl

@[simp] theorem State.clearMarks_lpt_spans (s : State) (p : Pair) (l : List Index) :
    (s.clearMarks p l).lpt.spans = s.lpt.spans := by
  unfold State.clearMarks
  exact foldl_keeps (P := fun t => t.lpt.spans = s.lpt.spans) (fun _ _ ht => (State.setRecord_lpt_spans ..).trans ht) l rfl

@[simp] theorem State.pairReported_lpt_spans (s : State) (p : Pair) : (s.pairReported p).lpt.spans = s.lpt.spans := by
  unfold State.pairReported
  dsimp only
  split <;> simp

/-- A report's building leaves the span selections alone, though a pair report clears marks of the table's records (R11). -/
@[simp] theorem State.buildReport_lpt_spans (s : State) (o : Origin) : (s.buildReport o).2.lpt.spans = s.lpt.spans := by
  cases o with
  | order n => unfold State.buildReport; dsimp only; split <;> rfl
  | pair p => exact s.pairReported_lpt_spans p
  | campaign n => rfl
  | store => rfl
  | system => rfl

@[simp] theorem State.chooseNext_lpt_spans (s : State) : s.chooseNext.lpt.spans = s.lpt.spans := by
  unfold State.chooseNext
  split
  · rfl
  · split <;> simp

@[simp] theorem State.concludeEvent_lpt_spans (s : State) : s.concludeEvent.lpt.spans = s.lpt.spans := by
  unfold State.concludeEvent
  split
  · exact s.chooseNext_lpt_spans
  · rfl
  · rfl

/-- A warm reset of a part READY keeps the span selections (R5, R22). -/
theorem State.warmReset_lpt_spans (cause : ResetCause) (strap : LineRate) (x y : Bool) (hr : s.clk.part = .ready) :
    (s.warmReset cause strap x y).lpt.spans = s.lpt.spans := by
  have hblocks (t : State) : (t.warmBlocks cause strap x y).lpt.spans = t.lpt.spans := rfl
  simp [State.warmReset, hr, hblocks]

/-- Settles O13: the resolutions, the block's two answers, and the selections after either reset. -/
theorem selectSpanSetsOneSelection : Obligations.SelectSpanSetsOneSelection := by
  refine ⟨fun src number s => ⟨s.resolve_b src number, s.resolve_a src number, s.resolve_s src number⟩,
    fun h span src effective s ht => ⟨fun n hn => ?_, fun hs => ?_⟩, fun strap s => ⟨?_, fun hr hl hb => ?_⟩⟩
  · rw [exec_selectSpan, takeFrame_accepts ht rfl (answerSelectSpan_selects _ hn)]
    rfl
  · rw [exec_selectSpan, takeFrame_refuses ht rfl (answerSelectSpan_above _ hs)]
  · exact ⟨_, exec_powerOn strap s, s.coldReset_span _ _ _ _⟩
  · exact ⟨_, exec_breakReset_due hl hb, State.span_congr (State.warmReset_lpt_spans _ _ _ _ hr)⟩

/-! ## DROP_ENTRY (R8) -/

theorem exec_dropEntry (h : Header) (ref : Reference) (s : State) :
    exec (.dropEntry h ref) s = .next (s.takeFrame h 0x41 (wellMadeRef ref) 0 (answerDropEntry ref)) := rfl

theorem mem_allPairs (p : Pair) : p ∈ allPairs := by revert p; decide

theorem State.onSomePath_iff {i : Index} : s.onSomePath i = true ↔ ∃ p, ∃ x ∈ s.path p, x.entry = i := by
  simp [State.onSomePath, State.pathHolds, mem_allPairs]

theorem State.orderMarked_iff {i : Index} : s.orderMarked i = true ↔ ∃ e, s.entry i = some e ∧ e.mark = true := by
  unfold State.orderMarked
  cases s.entry i <;> simp

/-- One record value written on several pairs of an entry: those records and no others hold it. -/
theorem State.record_foldl_setRecord {i j : Index} {q : Pair} {r : AmpRecord} (l : List Pair) :
    (l.foldl (fun s p => s.setRecord i p r) s).record j q = if j = i ∧ q ∈ l then r else s.record j q := by
  induction l generalizing s with
  | nil => simp
  | cons p l ih =>
    rw [List.foldl_cons, ih, State.record_setRecord]
    by_cases hj : j = i <;> by_cases hq : q ∈ l <;> simp [hj, hq]

/-- Writing records leaves everything else alone. -/
theorem State.foldl_setRecord_frame {i : Index} {r : AmpRecord} (l : List Pair) :
    l.foldl (fun s p => s.setRecord i p r) s
      = { s with lpt := { s.lpt with records := (l.foldl (fun s p => s.setRecord i p r) s).lpt.records } } := by
  induction l generalizing s with
  | nil => rfl
  | cons p l ih => exact ih (s := s.setRecord i p r)

@[simp] theorem State.undefineEntry_lpt_entries (s : State) (i : Index) :
    (s.undefineEntry i).lpt.entries = (s.setEntry i none).lpt.entries := by
  unfold State.undefineEntry; rw [State.foldl_setRecord_frame]

/-- Undefining an entry writes entries and records, and nothing else (R8). -/
theorem State.undefineEntry_frame (s : State) (i : Index) :
    s.undefineEntry i = { s with lpt := { s.lpt with
      entries := (s.undefineEntry i).lpt.entries, records := (s.undefineEntry i).lpt.records } } := by
  rw [State.undefineEntry_lpt_entries]
  exact State.foldl_setRecord_frame (s := s.setEntry i none) allPairs

theorem State.entry_undefineEntry {i j : Index} : (s.undefineEntry i).entry j = if j = i then none else s.entry j := by
  rw [State.entry, State.undefineEntry_lpt_entries]
  exact State.entry_setEntry

theorem State.record_undefineEntry {i j : Index} {p : Pair} :
    (s.undefineEntry i).record j p = if j = i then {} else s.record j p := by
  have hkeep : (s.setEntry i none).record j p = s.record j p := rfl
  simp [State.undefineEntry, State.record_foldl_setRecord, mem_allPairs, hkeep]

section
variable {ref : Reference} {a : Asker} {i : Index}

theorem answerDropEntry_unresolved (hr : s.resolve a.source ref = none) : answerDropEntry ref a s = .error .range := by
  simp only [answerDropEntry, hr]

theorem answerDropEntry_inUse (hr : s.resolve a.source ref = some i)
    (hu : (∃ p, ∃ x ∈ s.path p, x.entry = i) ∨ ∃ e, s.entry i = some e ∧ e.mark = true) :
    answerDropEntry ref a s = .error .inUse := by
  simp only [answerDropEntry, hr]
  exact if_pos (hu.imp State.onSomePath_iff.2 State.orderMarked_iff.2)

/-- An entry in no path list and without an order mark is dropped; where it is not defined, nothing changes (R8). -/
theorem answerDropEntry_unused (hr : s.resolve a.source ref = some i) (hp : ∀ p, ∀ x ∈ s.path p, x.entry ≠ i)
    (hm : ∀ e, s.entry i = some e → e.mark = false) :
    answerDropEntry ref a s = .ok (if s.entry i = none then s else s.undefineEntry i, []) := by
  have hu : ¬ (s.onSomePath i = true ∨ s.orderMarked i = true) := by
    rw [State.onSomePath_iff, State.orderMarked_iff]
    rintro (⟨p, x, hx, rfl⟩ | ⟨e, he, hmark⟩)
    · exact hp p x hx rfl
    · rw [hm e he] at hmark; cases hmark
  simp only [answerDropEntry, hr, if_neg hu]
  cases s.entry i <;> rfl

end

/-- Settles O15: the block's answers, and what the undefining of an entry writes. -/
theorem dropEntryUndefinesTheEntry : Obligations.DropEntryUndefinesTheEntry := by
  intro h ref src effective s ht href
  have hw : wellMadeRef ref = true := decide_eq_true href
  rw [exec_dropEntry]
  refine ⟨fun hr => ?_, fun i hr => ⟨fun hu => ?_, fun hp he => ?_, fun hp ⟨e, he, hmark⟩ => ?_⟩⟩
  · rw [takeFrame_refuses ht hw (answerDropEntry_unresolved hr)]
  · rw [takeFrame_refuses ht hw (answerDropEntry_inUse hr hu)]
  · rw [takeFrame_accepts ht hw (answerDropEntry_unused hr hp (by simp [he])), if_pos he]
  · have hdefined : s.entry i ≠ none := by simp [he]
    refine ⟨s.undefineEntry i, ?_, fun j => State.entry_undefineEntry, fun j p => State.record_undefineEntry,
      s.undefineEntry_frame i⟩
    rw [takeFrame_accepts ht hw (answerDropEntry_unused hr hp (by simp [he, hmark])), if_neg hdefined]

end Sys2Proof.Machine
end

section
/-! The Isolation Unit's gates: their definition and dropping, and the gates over the two resets (R126 to R128). -/

namespace Sys2Proof.Machine

variable {s : State}

/-! ## Action codes (R128) -/

theorem actionCode_range (a : Action) : 1 ≤ actionCode a ∧ actionCode a ≤ 7 := by cases a <;> decide

/-- The code of an action, and no other number, is read as that action. -/
theorem actionOf_eq_some_iff {n : Nat} {a : Action} : actionOf n = some a ↔ n = actionCode a := by
  constructor
  · intro h
    unfold actionOf at h
    split at h <;> cases h <;> rfl
  · rintro rfl
    cases a <;> rfl

/-! ## The gate of a request (R127) -/

theorem clampNat_zero (hi x : Nat) : clampNat 0 hi x = min hi x := by
  unfold clampNat
  split_ifs <;> omega

/-- The byte a number was read from is the field that holds the number (R193). -/
theorem u8_of_toNat {x : Byte} {n : Nat} (hx : x.toNat = n) : u8 n = [x] := by
  rw [← hx, u8, BitVec.ofNat_toNat, BitVec.setWidth_eq]

/-- A gate is read from a request with every field in range only. -/
theorem requestedGate_inRange {g : GateRequest} {x : Gate} (hx : requestedGate g = some x) :
    1 ≤ g.action.toNat ∧ g.action.toNat ≤ 7 ∧ g.first.toNat ≤ g.last.toNat ∧ g.last.toNat < 272 ∧ g.level.toNat < 4 := by
  unfold requestedGate at hx
  split at hx
  case h_1 action first last level haction hfirst hlast hlevel =>
    have horder : ¬ last < first := fun h => by rw [if_pos h] at hx; cases hx
    rw [actionOf_eq_some_iff.1 haction, inRange_some hfirst, inRange_some hlast, inRange_some hlevel]
    have hcode := actionCode_range action
    exact ⟨hcode.1, hcode.2, Fin.not_lt.1 horder, last.isLt, level.isLt⟩
  case h_2 => cases hx

/-- The gate of a request whose fields are in range: the fields given, the confirm exponent clamped. -/
theorem requestedGate_eq {g : GateRequest} {action : Action} {first last : Index} {level : Level}
    (haction : g.action.toNat = actionCode action) (hfirst : g.first.toNat = first.val) (hlast : g.last.toNat = last.val)
    (horder : first ≤ last) (hlevel : g.level.toNat = level.val) :
    requestedGate g = some { action := action, first := first, last := last, mask := g.mask, level := level,
                             exponent := min 15 g.exponent.toNat } := by
  simp only [requestedGate, actionOf_eq_some_iff.2 haction, inRange_of_eq hfirst, inRange_of_eq hlast, inRange_of_eq hlevel,
    if_neg (Fin.not_lt.2 horder), clampNat_zero]

/-! ## DEFINE_GATE and DROP_GATE (R127) -/

theorem exec_defineGate (h : Header) (gate : Byte) (g : GateRequest) (s : State) :
    exec (.defineGate h gate g) s = .next (s.takeFrame h 0x50 true 0 (answerDefineGate gate g)) := rfl

theorem exec_dropGate (h : Header) (gate : Byte) (s : State) :
    exec (.dropGate h gate) s = .next (s.takeFrame h 0x51 true 0 (answerDropGate gate)) := rfl

section
variable {gate : Byte} {g : GateRequest} {n : Fin 32} (a : Asker)

theorem answerDefineGate_defines {x : Gate} (hn : gate.toNat = n.val) (hx : requestedGate g = some x) :
    answerDefineGate gate g a s = .ok (s.setGate n (some x), [gate, BitVec.ofNat 8 x.exponent]) := by
  simp only [answerDefineGate, inRange_of_eq hn, hx, u8_of_toNat hn]
  rfl

theorem answerDefineGate_outOfRange (hr : 32 ≤ gate.toNat ∨ requestedGate g = none) :
    answerDefineGate gate g a s = .error .range := by
  rcases hr with hgate | hx
  · simp only [answerDefineGate, inRange_none hgate]
  · rw [answerDefineGate, hx]
    cases inRange 32 gate.toNat <;> rfl

theorem answerDropGate_drops (hn : gate.toNat = n.val) : answerDropGate gate a s = .ok (s.setGate n none, []) := by
  rw [answerDropGate, inRange_of_eq hn]

theorem answerDropGate_outOfRange (hgate : 32 ≤ gate.toNat) : answerDropGate gate a s = .error .range := by
  rw [answerDropGate, inRange_none hgate]

end

/-! ## Gates over the resets (R127) -/

theorem State.coldReset_gate (s : State) (cause : ResetCause) (strap : LineRate) (x y : Bool) (g : Fin 32) :
    (s.coldReset cause strap x y).gate g = none := by
  simp [State.gate, State.coldReset, IsolationUnit.cold]

theorem State.gate_congr {t : State} (h : t.isu.gates = s.isu.gates) (g : Fin 32) : t.gate g = s.gate g := by
  rw [State.gate, State.gate, h]

@[simp] theorem State.queueOrigin_isu (s : State) (o : Origin) : (s.queueOrigin o).isu = s.isu := by
  rw [State.queueOrigin_eq, State.setReports_isu]

@[simp] theorem State.settleProgrammed_isu (s : State) (p : Pair) (x : Staged) : (s.settleProgrammed p x).isu = s.isu := by
  unfold State.settleProgrammed
  split
  · split <;> rfl
  · rfl

/-- The store's recovery leaves the Isolation Unit alone (R172). -/
@[simp] theorem State.recoverStatuses_isu (s : State) : s.recoverStatuses.isu = s.isu := by
  unfold State.recoverStatuses
  split
  · exact foldl_keeps (P := fun t => t.isu = s.isu) (fun _ _ ht => (State.setBaseline_isu ..).trans ht) _ rfl
  · exact foldl_keeps (P := fun t => t.isu = s.isu) (fun _ _ ht => (State.settleProgrammed_isu ..).trans ht) _ rfl
  · rfl
  · rfl

@[simp] theorem State.queueAfterWarm_isu (s : State) : s.queueAfterWarm.isu = s.isu := by
  unfold State.queueAfterWarm
  split
  · rfl
  · split <;> rfl

@[simp] theorem State.clearMarks_isu (s : State) (p : Pair) (l : List Index) : (s.clearMarks p l).isu = s.isu := by
  unfold State.clearMarks
  exact foldl_keeps (P := fun t => t.isu = s.isu) (fun _ _ ht => (State.setRecord_isu ..).trans ht) l rfl

@[simp] theorem State.pairReported_isu (s : State) (p : Pair) : (s.pairReported p).isu = s.isu := by
  unfold State.pairReported
  dsimp only
  split <;> simp

/-- A report's building leaves the gates alone, though an order report frees a record of the unit (R153). -/
@[simp] theorem State.buildReport_isu_gates (s : State) (o : Origin) : (s.buildReport o).2.isu.gates = s.isu.gates := by
  cases o with
  | order n => unfold State.buildReport; dsimp only; split <;> rfl
  | pair p => exact congrArg IsolationUnit.gates (s.pairReported_isu p)
  | campaign n => rfl
  | store => rfl
  | system => rfl

@[simp] theorem State.concludeEvent_isu_gates (s : State) : s.concludeEvent.isu.gates = s.isu.gates := by
  unfold State.concludeEvent
  split
  · unfold State.chooseNext
    split
    · rfl
    · split <;> simp
  · rfl
  · rfl

/-- A warm reset of a part READY keeps the gates, though it frees the order records (R127, R158). -/
theorem State.warmReset_isu_gates (cause : ResetCause) (strap : LineRate) (x y : Bool) (hr : s.clk.part = .ready) :
    (s.warmReset cause strap x y).isu.gates = s.isu.gates := by
  have hblocks (t : State) : (t.warmBlocks cause strap x y).isu.gates = t.isu.gates := rfl
  simp [State.warmReset, hr, hblocks]

/-- Settles O31: the unit's answers to the two requests, and the gates after either reset. -/
theorem gatesAreDefinedAndDropped : Obligations.GatesAreDefinedAndDropped := by
  refine ⟨fun h gate src effective s ht => ⟨fun g hrange => ?_, fun hgate => ?_, fun n hn => ⟨?_, ?_⟩⟩,
    fun strap s => ⟨?_, fun hr hl hb => ?_⟩⟩
  · have hout : 32 ≤ gate.toNat ∨ requestedGate g = none := by
      refine hrange.imp_right fun hfield => Option.eq_none_iff_forall_ne_some.2 fun x hx => ?_
      have hin := requestedGate_inRange hx
      omega
    rw [exec_defineGate, takeFrame_refuses ht rfl (answerDefineGate_outOfRange _ hout)]
  · rw [exec_dropGate, takeFrame_refuses ht rfl (answerDropGate_outOfRange _ hgate)]
  · rw [exec_dropGate, takeFrame_accepts ht rfl (answerDropGate_drops _ hn)]
    rfl
  · intro g first last level action hfirst hlast horder hlevel hmem
    have haction : g.action.toNat = actionCode action := by
      simp only [List.mem_cons, List.not_mem_nil, or_false, Prod.mk.injEq] at hmem
      obtain h | h | h | h | h | h | h := hmem <;> rw [h.1, h.2] <;> rfl
    have hx := requestedGate_eq haction hfirst hlast horder hlevel
    rw [exec_defineGate, takeFrame_accepts ht rfl (answerDefineGate_defines _ hn hx)]
    rfl
  · exact ⟨_, exec_powerOn strap s, s.coldReset_gate _ _ _ _⟩
  · exact ⟨_, exec_breakReset_due hl hb, State.gate_congr (State.warmReset_isu_gates _ _ _ _ hr)⟩

end Sys2Proof.Machine
end

section
/-! The Baseline Store: what ADOPT and DROP_BASELINE write to the image, and what they answer (R162 to R164). -/

namespace Sys2Proof.Machine

variable {s : State}

/-! ## Image records (R161) -/

theorem imagePlace_inj {p q : Pair} {i j : Index} : 512 * p.val + i.val = 512 * q.val + j.val ↔ p = q ∧ i = j := by
  rw [Fin.ext_iff, Fin.ext_iff]
  omega

theorem State.baseline_setBaseline {p q : Pair} {i j : Index} {b : Option Baseline} :
    (s.setBaseline p i b).baseline q j = if q = p ∧ j = i then b else s.baseline q j := by
  unfold State.baseline State.setBaseline
  by_cases h : q = p ∧ j = i
  · obtain ⟨rfl, rfl⟩ := h; simp
  · rw [if_neg h]; exact tableGet_tableSet_ne _ _ _ fun e => h (imagePlace_inj.1 e)

/-- The second state is the first but for the image. -/
def State.imageOnly (s t : State) : Prop := t = { s with bst := { s.bst with image := t.bst.image } }

theorem State.imageOnly_setBaseline {t : State} (p : Pair) (i : Index) (b : Option Baseline) (h : s.imageOnly t) :
    s.imageOnly (t.setBaseline p i b) := by
  rw [State.imageOnly] at h
  rw [h]
  rfl

/-! ## What an adopted element writes (R162, R163) -/

/-- The image record a result element gives: that of its loop gain at the entry's address, where both are there. -/
def State.adoptionOf (s : State) (r : ResultElement) : Option Baseline :=
  r.gain.bind fun gain => (s.entry r.entry).map fun e => { stored := false, gain := gain, address := e.address }

theorem State.adoptionOf_eq_some {r : ResultElement} {gain : Int} {e : Entry} (hg : r.gain = some gain)
    (he : s.entry r.entry = some e) : s.adoptionOf r = some { stored := false, gain := gain, address := e.address } := by
  rw [State.adoptionOf, hg, he]
  rfl

theorem State.adoptionOf_eq_none {r : ResultElement} (h : r.gain = none ∨ s.entry r.entry = none) :
    s.adoptionOf r = none := by
  rcases h with h | h <;> simp [State.adoptionOf, h]

section
variable {p q : Pair} {j : Index} (acc : State × Nat × Nat) (r : ResultElement)

theorem adoptElement_lpt : (adoptElement p acc r).1.lpt = acc.1.lpt := by
  unfold adoptElement
  split
  · rfl
  · split <;> rfl

theorem adoptElement_entry (i : Index) : (adoptElement p acc r).1.entry i = acc.1.entry i := by
  rw [State.entry, adoptElement_lpt, State.entry]

theorem adoptElement_adoptionOf (x : ResultElement) : (adoptElement p acc r).1.adoptionOf x = acc.1.adoptionOf x := by
  rw [State.adoptionOf, adoptElement_entry, State.adoptionOf]

/-- The one record an element can write is that of its entry on the campaign's pair. -/
theorem adoptElement_baseline : (adoptElement p acc r).1.baseline q j
    = if q = p ∧ j = r.entry then (acc.1.adoptionOf r).or (acc.1.baseline q j) else acc.1.baseline q j := by
  unfold adoptElement State.adoptionOf
  cases r.gain with
  | none => simp
  | some gain =>
    cases acc.1.entry r.entry with
    | none => simp
    | some e => exact State.baseline_setBaseline

theorem adoptElement_counts : (adoptElement p acc r).2
    = (acc.2.1 + (if r.gain.isSome && (acc.1.entry r.entry).isSome then 1 else 0),
       acc.2.2 + (if r.gain.isSome && (acc.1.entry r.entry).isNone then 1 else 0)) := by
  unfold adoptElement
  cases r.gain with
  | none => rfl
  | some gain => cases acc.1.entry r.entry <;> rfl

theorem adoptElement_imageOnly (h : s.imageOnly acc.1) : s.imageOnly (adoptElement p acc r).1 := by
  unfold adoptElement
  split
  · exact h
  · split
    · exact h
    · exact State.imageOnly_setBaseline _ _ _ h

end

/-! ## What a results list writes (R162) -/

section
variable {p q : Pair} {j : Index} {acc : State × Nat × Nat}

theorem foldl_adoptElement_imageOnly (l : List ResultElement) (h : s.imageOnly acc.1) :
    s.imageOnly (l.foldl (adoptElement p) acc).1 := by
  induction l generalizing acc with
  | nil => exact h
  | cons r l ih => exact ih (adoptElement_imageOnly acc r h)

/-- The numbers written and skipped are those of the elements with a loop gain whose entry is, and is not, defined. -/
theorem foldl_adoptElement_counts (l : List ResultElement) : (l.foldl (adoptElement p) acc).2
    = (acc.2.1 + l.countP (fun r => r.gain.isSome && (acc.1.entry r.entry).isSome),
       acc.2.2 + l.countP (fun r => r.gain.isSome && (acc.1.entry r.entry).isNone)) := by
  induction l generalizing acc with
  | nil => rfl
  | cons r l ih =>
    simp only [List.foldl_cons, ih, adoptElement_counts, adoptElement_entry, List.countP_cons, Prod.mk.injEq]
    omega

/-- A record of another pair, or of an index at which no element gives one, stays as it stood. -/
theorem foldl_adoptElement_baseline_kept (l : List ResultElement)
    (h : q ≠ p ∨ ∀ r ∈ l, r.entry = j → acc.1.adoptionOf r = none) :
    (l.foldl (adoptElement p) acc).1.baseline q j = acc.1.baseline q j := by
  induction l generalizing acc with
  | nil => rfl
  | cons r l ih =>
    have hhead : (adoptElement p acc r).1.baseline q j = acc.1.baseline q j := by
      rw [adoptElement_baseline]
      split
      case isTrue hj =>
        have hnone := (h.resolve_left (not_not_intro hj.1)) r List.mem_cons_self hj.2.symm
        rw [hnone, Option.none_or]
      case isFalse => rfl
    rw [List.foldl_cons, ih ?_, hhead]
    refine h.imp_right fun hl x hx hj => ?_
    rw [adoptElement_adoptionOf]
    exact hl x (List.mem_cons_of_mem _ hx) hj

/-- Where no entry is twice in the list, no later element overwrites the record an element gives. -/
theorem foldl_adoptElement_baseline_written {l : List ResultElement} (hl : (l.map ResultElement.entry).Nodup)
    {r : ResultElement} (hr : r ∈ l) {b : Baseline} (hb : acc.1.adoptionOf r = some b) :
    (l.foldl (adoptElement p) acc).1.baseline p r.entry = some b := by
  induction l generalizing acc with
  | nil => cases hr
  | cons x l ih =>
    rw [List.map_cons, List.nodup_cons] at hl
    obtain ⟨hx, hl⟩ := hl
    rw [List.foldl_cons]
    rcases List.mem_cons.1 hr with rfl | hr
    · have hlater : ∀ y ∈ l, y.entry = r.entry → (adoptElement p acc r).1.adoptionOf y = none :=
        fun y hy he => absurd (List.mem_map.2 ⟨y, hy, he⟩) hx
      rw [foldl_adoptElement_baseline_kept l (.inr hlater), adoptElement_baseline, if_pos ⟨rfl, rfl⟩, hb, Option.some_or]
    · exact ih hl hr (by rw [adoptElement_adoptionOf, hb])

end

/-! ## ADOPT (R162) -/

/-- The state in which a campaign's results have been adopted. -/
def State.adoptResults (s : State) (n : Slot) : State :=
  ((s.campaign n).results.foldl (adoptElement (s.campaign n).pair) (s, 0, 0)).1

theorem exec_adopt (h : Header) (slot : Byte) (s : State) :
    exec (.adopt h slot) s = .next (s.takeFrame h 0x30 true 1 (answerAdopt slot)) := rfl

section
variable {slot : Byte} {n : Slot} (a : Asker)

theorem answerAdopt_notDone (hn : slot.toNat = n.val) (hd : (s.campaign n).state ≠ .done) :
    answerAdopt slot a s = .error .wrongState := by
  simp only [answerAdopt, inRange_of_eq hn, if_pos hd]

theorem answerAdopt_done (hn : slot.toNat = n.val) (hd : (s.campaign n).state = .done) :
    answerAdopt slot a s = .ok (s.adoptResults n,
      u16 ((s.campaign n).results.countP (fun r => r.gain.isSome && (s.entry r.entry).isSome))
        ++ u8 ((s.campaign n).results.countP (fun r => r.gain.isSome && (s.entry r.entry).isNone))) := by
  simp only [answerAdopt, inRange_of_eq hn, if_neg (not_not_intro hd), foldl_adoptElement_counts, Nat.zero_add,
    State.adoptResults]

end

/-! ## DROP_BASELINE (R164) -/

theorem mem_indexRun {first last : Nat} {i : Index} : i ∈ indexRun first last ↔ first ≤ i.val ∧ i.val ≤ last := by
  simp [indexRun, allIndices]

/-- The indices of a run that meet a test, counted over all the table indices. -/
theorem length_filter_indexRun (first last : Nat) (f : Index → Bool) : ((indexRun first last).filter f).length
    = (List.finRange 272).countP (fun i => decide (first ≤ i.val ∧ i.val ≤ last) && f i) := by
  rw [indexRun, ← List.countP_eq_length_filter, List.countP_filter, allIndices]
  exact List.countP_congr fun i _ => by simp [and_comm]

/-- The state in which image records of a pair have become ABSENT. -/
def State.dropBaselines (s : State) (p : Pair) (l : List Index) : State := l.foldl (fun s i => s.setBaseline p i none) s

theorem State.baseline_dropBaselines {p q : Pair} {j : Index} (l : List Index) :
    (s.dropBaselines p l).baseline q j = if q = p ∧ j ∈ l then none else s.baseline q j := by
  induction l generalizing s with
  | nil => simp [State.dropBaselines]
  | cons i l ih =>
    have hstep : s.dropBaselines p (i :: l) = (s.setBaseline p i none).dropBaselines p l := rfl
    rw [hstep, ih, State.baseline_setBaseline]
    by_cases hq : q = p <;> by_cases hj : j = i <;> simp [hq, hj]

theorem State.dropBaselines_imageOnly (p : Pair) (l : List Index) : s.imageOnly (s.dropBaselines p l) :=
  foldl_keeps (P := s.imageOnly) (fun _ i h => State.imageOnly_setBaseline p i none h) l rfl

theorem exec_dropBaseline (h : Header) (pair : Byte) (first last : BitVec 16) (s : State) :
    exec (.dropBaseline h pair first last) s = .next (s.takeFrame h 0x31 true 1 (answerDropBaseline pair first last)) := rfl

section
variable {pair : Byte} {first last : BitVec 16} {p : Pair} (a : Asker)

theorem answerDropBaseline_outOfRange
    (hr : 16 ≤ pair.toNat ∨ 272 ≤ first.toNat ∨ 272 ≤ last.toNat ∨ last.toNat < first.toNat) :
    answerDropBaseline pair first last a s = .error .range := by
  unfold answerDropBaseline
  split
  case h_1 p f l hp hf hl =>
    rw [inRange_some hp, inRange_some hf, inRange_some hl] at hr
    have horder : l < f := by have := p.isLt; have := f.isLt; have := l.isLt; omega
    exact if_pos horder
  case h_2 => rfl

theorem answerDropBaseline_drops (hp : pair.toNat = p.val) (horder : first.toNat ≤ last.toNat) (hl : last.toNat < 272) :
    answerDropBaseline pair first last a s = .ok (s.dropBaselines p (indexRun first.toNat last.toNat),
      u16 ((indexRun first.toNat last.toNat).filter fun i => (s.baseline p i).isSome).length) := by
  have hf : first.toNat < 272 := Nat.lt_of_le_of_lt horder hl
  simp only [answerDropBaseline, inRange_of_eq hp, inRange_of_lt hf, inRange_of_lt hl]
  exact if_neg (Nat.not_lt.2 horder)

end

/-- Settles O34: the store's answers to the two requests, and what each leaves in the image. -/
theorem adoptAndDropBaselineWriteTheImage : Obligations.AdoptAndDropBaselineWriteTheImage := by
  refine ⟨fun h slot src effective n s ht hn => ⟨fun hd => ?_, fun hd hnodup => ?_⟩,
    fun h pair first last src effective s ht => ⟨fun hr => ?_, fun p hp horder hl => ?_⟩⟩
  · rw [exec_adopt, takeFrame_refuses ht rfl (answerAdopt_notDone _ hn hd)]
  · refine ⟨s.adoptResults n, ?_, fun r hr gain e hg he => ?_, fun q j hkept => ?_,
      foldl_adoptElement_imageOnly _ rfl⟩
    · rw [exec_adopt, takeFrame_accepts ht rfl (answerAdopt_done _ hn hd), u8]
    · exact foldl_adoptElement_baseline_written hnodup hr (State.adoptionOf_eq_some hg he)
    · refine foldl_adoptElement_baseline_kept _ (hkept.imp_right fun hj r hr he => ?_)
      subst he
      exact State.adoptionOf_eq_none (hj r hr rfl)
  · rw [exec_dropBaseline, takeFrame_refuses ht rfl (answerDropBaseline_outOfRange _ hr)]
  · refine ⟨s.dropBaselines p (indexRun first.toNat last.toNat), ?_, fun q i => ?_, State.dropBaselines_imageOnly p _⟩
    · rw [exec_dropBaseline, takeFrame_accepts ht rfl (answerDropBaseline_drops _ hp horder hl), length_filter_indexRun]
    · simp only [State.baseline_dropBaselines, mem_indexRun]

end Sys2Proof.Machine
end

section
/-! The Command Link: every request is one frame taken with its kind and its required level, the level check, and the requests
that set a source's level, the thresholds and the order settings (R135, R176 to R180, R188). -/

namespace Sys2Proof.Machine

variable {s : State} {src : Source} {h : Header}

/-! ## The makeup of a body (R193) -/

theorem isFlag_iff {b : Byte} : isFlag b = true ↔ b.toNat ≤ 1 := by
  have hbyte (n : Byte) : b = n ↔ b.toNat = n.toNat := BitVec.toNat_inj.symm
  simp only [isFlag, Bool.or_eq_true, beq_iff_eq, hbyte]
  change b.toNat = 0 ∨ b.toNat = 1 ↔ b.toNat ≤ 1
  omega

theorem wellMadeRef_iff {ref : Reference} : wellMadeRef ref = true ↔ ref.kind.toNat ≤ 2 := decide_eq_true_iff

/-- A route need only be a flag for a kind of entry that has one, BRANCHING (R194). -/
theorem wellMadeRoute_iff {kind route : Byte} :
    (!(kind == 2) || isFlag route) = true ↔ (kind = 2 → route.toNat ≤ 1) := by
  rw [Bool.or_eq_true, isFlag_iff, Bool.not_eq_true', beq_eq_false_iff_ne, ← imp_iff_not_or]

theorem wellMadeAppend_iff {restart : Byte} {elements : List SentElement} : wellMadeAppend restart elements = true ↔
    restart.toNat ≤ 1 ∧ elements.length ≤ 64 ∧ ∀ e ∈ elements, e.reference.kind.toNat ≤ 2 ∧ e.tag.toNat ≤ 2 := by
  simp only [wellMadeAppend, Bool.and_eq_true, isFlag_iff, wellMadeRef_iff, decide_eq_true_iff, List.all_eq_true, and_assoc]

/-! ## The frame of a request (R179, R180, R194) -/

/-- A command is carried out as one complete frame: taken with the frame's header and kind, with the body's makeup, and with
the level the command's kind requires. -/
def takenAsFrame (i : Instr) (f : SentFrame) : Prop :=
  ∃ (wellMade : Bool) (act : Asker → State → Answer), (wellMade = true ↔ wellMadeBody i)
    ∧ ∀ s, exec i s = .next (s.takeFrame f.header f.kind wellMade (requiredLevel i) act)

/-- Every request of a known kind is taken as its frame: the commands by the fields whose makeup they check. -/
theorem takenAsFrame_of_requestFrame {i : Instr} {f : SentFrame} (hf : requestFrame i = some f)
    (hk : isRequestKind f.kind = true) : takenAsFrame i f := by
  cases i
  case powerOn | characterReceived | framingError | lineBreak | breakReset | interCharacterGap | transmissionEnd
      | coldLoadEnd | eraseEnd | slotProgrammed | boundary | periodicDue | settleEnd | primingPeriodEnd
      | coastingPeriodStart | slicePeriodEnd | referencePeriodEnd | wordPeriodEnd | listeningPeriodEnd
      | lineReturnsToMark => cases hf
  case unknownKindRequest h kind =>
    simp only [requestFrame] at hf
    split at hf
    case isTrue => cases hf
    case isFalse hunknown => cases hf; exact absurd hk hunknown
  case status | readSpan | readChannels | readExtents | readGrants | readCampaign | readResults | readGates | readOrders
      | selectSpan | setSourceLevel | abort | release | withdrawOrder | adopt | dropBaseline | commit | setPath
      | setCeiling | setOrderSettings | setThresholds | defineGate | dropGate | eraseBlock =>
    cases hf; exact ⟨true, _, iff_of_true rfl trivial, fun _ => rfl⟩
  case readEntry | dropEntry | clearCondition => cases hf; exact ⟨_, _, wellMadeRef_iff, fun _ => rfl⟩
  case readPath | readBaseline | start | schedule | setCrosspoint | setTiming | reset =>
    cases hf; exact ⟨_, _, isFlag_iff, fun _ => rfl⟩
  case isolate =>
    cases hf; exact ⟨_, _, (Bool.and_eq_true ..).to_iff.trans (and_congr wellMadeRef_iff isFlag_iff), fun _ => rfl⟩
  case defineEntry =>
    cases hf; exact ⟨_, _, (Bool.and_eq_true ..).to_iff.trans (and_congr wellMadeRef_iff wellMadeRoute_iff), fun _ => rfl⟩
  case pathAppend => cases hf; exact ⟨_, _, wellMadeAppend_iff, fun _ => rfl⟩

/-! ## The level check (R179, check 4; R180) -/

/-- A well-made request above its required level comes to no block. -/
theorem judgeRequest_level {kind : Byte} {needed acting : Level} {act : Asker → State → Answer}
    (hready : s.clk.part = .ready) (ha : h.acting.toNat = acting.val) (hlevel : needed < max (s.level src) acting) :
    s.judgeRequest src h kind true needed act = .error .level := by
  have hpart : ¬ (s.clk.part = .starting ∧ kind ≠ statusKind) := by simp [hready]
  simp only [State.judgeRequest, if_neg hpart, inRange_of_eq ha]
  exact if_pos hlevel

/-- Settles O11: the request is its frame taken, the frame is judged, and the judgement is the level check's. -/
theorem levelIsRequired : Obligations.LevelIsRequired := by
  intro i f src acting s hf hk ⟨hsource, hroom, hreset⟩ hready hmade hacting hlevel
  obtain ⟨wellMade, act, hw, hexec⟩ := takenAsFrame_of_requestFrame hf hk
  obtain rfl : wellMade = true := hw.2 hmade
  rw [hexec, takeFrame_judged hsource hroom hreset, answered_error (judgeRequest_level hready hacting hlevel)]

/-! ## SET_SOURCE_LEVEL (R178) -/

theorem State.level_setLevel {p q : Source} {l : Level} : (s.setLevel q l).level p = if p = q then l else s.level p := by
  simp only [State.level, State.setLevel, Fin.getElem_fin, Vector.getElem_set, Fin.val_inj, eq_comm]

theorem State.someLevelZero_iff : s.someLevelZero = true ↔ ∃ p, s.level p = 0 := by
  simp only [State.someLevelZero, List.contains_iff_mem, Vector.mem_toList_iff, Vector.mem_iff_getElem, State.level,
    Fin.getElem_fin, Fin.exists_iff]

theorem State.maySetLevel_iff {a : Asker} {q : Source} {l : Level} :
    s.maySetLevel a q l = true ↔ (q = a.source ∧ s.level a.source ≤ l) ∨ a.effective = 0 := by
  simp only [State.maySetLevel, Bool.or_eq_true, Bool.and_eq_true, beq_iff_eq, decide_eq_true_iff]
  exact or_congr_left (and_congr_right fun hq => by rw [hq])

theorem exec_setSourceLevel (h : Header) (source level : Byte) (s : State) :
    exec (.setSourceLevel h source level) s = .next (s.takeFrame h 0x11 true 3 (answerSetSourceLevel source level)) := rfl

section
variable {source level : Byte} {a : Asker} {q : Source} {l : Level}

theorem answerSetSourceLevel_outOfRange (a : Asker) (hr : 8 ≤ source.toNat ∨ 4 ≤ level.toNat) :
    answerSetSourceLevel source level a s = .error .range := by
  unfold answerSetSourceLevel
  rcases hr with hsource | hlevel
  · rw [inRange_none hsource]
  · rw [inRange_none hlevel]
    cases inRange 8 source.toNat <;> rfl

theorem answerSetSourceLevel_notAllowed (hq : source.toNat = q.val) (hl : level.toNat = l.val)
    (hmay : ¬ ((q = a.source ∧ s.level a.source ≤ l) ∨ a.effective = 0)) :
    answerSetSourceLevel source level a s = .error .level := by
  have hno : s.maySetLevel a q l = false := Bool.eq_false_iff.2 (mt State.maySetLevel_iff.1 hmay)
  simp only [answerSetSourceLevel, inRange_of_eq hq, inRange_of_eq hl, hno]
  rfl

theorem answerSetSourceLevel_noLevelZero (hq : source.toNat = q.val) (hl : level.toNat = l.val)
    (hmay : (q = a.source ∧ s.level a.source ≤ l) ∨ a.effective = 0) (hzero : ¬ ∃ p, (s.setLevel q l).level p = 0) :
    answerSetSourceLevel source level a s = .error .wrongState := by
  have hno : (s.setLevel q l).someLevelZero = false := Bool.eq_false_iff.2 (mt State.someLevelZero_iff.1 hzero)
  simp only [answerSetSourceLevel, inRange_of_eq hq, inRange_of_eq hl, State.maySetLevel_iff.2 hmay, hno]
  rfl

theorem answerSetSourceLevel_sets (hq : source.toNat = q.val) (hl : level.toNat = l.val)
    (hmay : (q = a.source ∧ s.level a.source ≤ l) ∨ a.effective = 0) (hzero : ∃ p, (s.setLevel q l).level p = 0) :
    answerSetSourceLevel source level a s = .ok (s.setLevel q l, [source, level]) := by
  simp only [answerSetSourceLevel, inRange_of_eq hq, inRange_of_eq hl, State.maySetLevel_iff.2 hmay,
    State.someLevelZero_iff.2 hzero, u8_of_toNat hq, u8_of_toNat hl]
  rfl

end

/-- Settles O22: the link's answers by the two checks, and the levels as they would stand after the setting. -/
theorem setSourceLevelIsJudged : Obligations.SetSourceLevelIsJudged := by
  intro h source level src effective s ht
  simp only [exec_setSourceLevel]
  refine ⟨fun hr => ?_, fun q l hq hl => ⟨fun hother heff => ?_, fun hmay => ?_⟩⟩
  · rw [takeFrame_refuses ht rfl (answerSetSourceLevel_outOfRange _ hr)]
  · have hmay : ¬ ((q = src ∧ s.level src ≤ l) ∨ effective = 0) :=
      not_or.2 ⟨fun ⟨hq, hle⟩ => hother.elim (· hq) (Fin.not_lt.2 hle), heff⟩
    rw [takeFrame_refuses ht rfl (answerSetSourceLevel_notAllowed hq hl hmay)]
  · simp only [← State.level_setLevel]
    refine ⟨fun hnone => ?_, fun hzero => ?_⟩
    · rw [takeFrame_refuses ht rfl (answerSetSourceLevel_noLevelZero hq hl hmay (not_exists.2 hnone))]
    · rw [takeFrame_accepts ht rfl (answerSetSourceLevel_sets hq hl hmay hzero)]
      rfl

/-! ## SET_THRESHOLDS (R188) and SET_ORDER_SETTINGS (R135) -/

theorem clampNat_eq {lo hi : Nat} (hh : lo ≤ hi) (x : Nat) : clampNat lo hi x = max lo (min hi x) := by
  unfold clampNat
  split_ifs <;> omega

theorem exec_setThresholds (h : Header) (floor tStep tDrift : BitVec 16) (s : State) :
    exec (.setThresholds h floor tStep tDrift) s
      = .next (s.takeFrame h 0x4C true 0 (answerSetThresholds floor tStep tDrift)) := rfl

theorem exec_setOrderSettings (h : Header) (chip sequence limit : Byte) (s : State) :
    exec (.setOrderSettings h chip sequence limit) s
      = .next (s.takeFrame h 0x4A true 0 (answerSetOrderSettings chip sequence limit)) := rfl

theorem answerSetThresholds_sets (floor tStep tDrift : BitVec 16) (a : Asker) :
    answerSetThresholds floor tStep tDrift a s
      = .ok (s.setThresholdValues (max 1 (min 4096 floor.toNat)) (max 50 (min 1000 tStep.toNat))
            (max 100 (min 3000 tDrift.toNat)),
          u16 (max 1 (min 4096 floor.toNat)) ++ u16 (max 50 (min 1000 tStep.toNat))
            ++ u16 (max 100 (min 3000 tDrift.toNat))) := by
  have hfloor := clampNat_eq (by decide : 1 ≤ 4096) floor.toNat
  have hstep := clampNat_eq (by decide : 50 ≤ 1000) tStep.toNat
  have hdrift := clampNat_eq (by decide : 100 ≤ 3000) tDrift.toNat
  simp only [answerSetThresholds, hfloor, hstep, hdrift]

section
variable {chip sequence : Byte} {c q : Code} (limit : Byte) (a : Asker)

theorem answerSetOrderSettings_outOfRange (hr : 4 ≤ chip.toNat ∨ 4 ≤ sequence.toNat) :
    answerSetOrderSettings chip sequence limit a s = .error .range := by
  unfold answerSetOrderSettings
  rcases hr with hchip | hsequence
  · rw [inRange_none hchip]
  · rw [inRange_none hsequence]
    cases inRange 4 chip.toNat <;> rfl

theorem answerSetOrderSettings_sets (hc : chip.toNat = c.val) (hq : sequence.toNat = q.val) :
    answerSetOrderSettings chip sequence limit a s
      = .ok ({ s with isu := { s.isu with settings :=
                { chip := c, sequence := q, limit := max 1 (min 4 limit.toNat) } } },
          [chip, sequence, BitVec.ofNat 8 (max 1 (min 4 limit.toNat))]) := by
  have hlimit := clampNat_eq (by decide : 1 ≤ 4) limit.toNat
  simp only [answerSetOrderSettings, inRange_of_eq hc, inRange_of_eq hq, hlimit, u8_of_toNat hc, u8_of_toNat hq]
  rfl

end

/-- Settles O23: the link's and the unit's answers to the two requests. -/
theorem thresholdsAndOrderSettingsAreClamped : Obligations.ThresholdsAndOrderSettingsAreClamped := by
  intro h src effective s ht
  refine ⟨fun floor tStep tDrift => ?_, fun chip sequence limit => ⟨fun hr => ?_, fun c q hc hq => ?_⟩⟩
  · rw [exec_setThresholds, takeFrame_accepts ht rfl (answerSetThresholds_sets floor tStep tDrift _)]
    rfl
  · rw [exec_setOrderSettings, takeFrame_refuses ht rfl (answerSetOrderSettings_outOfRange limit _ hr)]
  · rw [exec_setOrderSettings, takeFrame_accepts ht rfl (answerSetOrderSettings_sets limit _ hc hq)]

end Sys2Proof.Machine
end

section
/-! What every step keeps of the memories, the plant table, the channels and the extents (R2, R3, R24, R43). -/

namespace Sys2Proof.Machine

variable {s t : State}

/-! ## Memories -/

theorem tableGet_tableMap {α : Type} {f : α → α} {d : α} (hf : f d = d) (t : Table α) (k : Nat) :
    tableGet d (tableMap f t) k = f (tableGet d t k) := by
  induction t with
  | nil => exact hf.symm
  | cons c t ih =>
    show (if c.1 = k then f c.2 else tableGet d (tableMap f t) k) = f (if c.1 = k then c.2 else tableGet d t k)
    rw [ih]
    split <;> rfl

theorem warmRecord_ne_default {r : AmpRecord} (hr : r ≠ {}) : warmRecord r ≠ {} := by
  unfold warmRecord
  split
  · exact fun e => nomatch congrArg AmpRecord.condition e
  · exact hr

theorem BaselineStore.wf_cellsAfterReset {b : BaselineStore} (hb : Table.wf (0xFF : Byte) b.store) :
    Table.wf (0xFF : Byte) b.cellsAfterReset := by
  unfold BaselineStore.cellsAfterReset
  split
  · exact Table.wf_clear _ _ hb
  · exact hb
  · exact hb
  · exact hb

theorem memoriesCanonical_setEntry (i : Index) (e : Option Entry) (h : s.memoriesCanonical) :
    (s.setEntry i e).memoriesCanonical := by
  unfold State.setEntry
  exact ⟨Table.wf_set _ _ h.1, h.2⟩

theorem memoriesCanonical_coldReset (cause : ResetCause) (strap : LineRate) (x y : Bool) (h : s.memoriesCanonical) :
    (s.coldReset cause strap x y).memoriesCanonical := by
  obtain ⟨-, -, -, -, hstore⟩ := h
  exact ⟨Table.wf_nil _, Table.wf_nil _, Table.wf_nil _, Table.wf_nil _, BaselineStore.wf_cellsAfterReset hstore⟩

theorem memoriesCanonical_warmBlocks (cause : ResetCause) (strap : LineRate) (x y : Bool) (h : s.memoriesCanonical) :
    (s.warmBlocks cause strap x y).memoriesCanonical := by
  obtain ⟨hentries, hrecords, -, himage, hstore⟩ := h
  refine ⟨Table.wf_map _ (fun v hv => ?_) hentries, Table.wf_map _ (fun _ => warmRecord_ne_default) hrecords,
    Table.wf_nil _, himage, BaselineStore.wf_cellsAfterReset hstore⟩
  cases v with
  | none => exact absurd rfl hv
  | some e => exact nofun

/-! ## The plant table -/

theorem kindFits_of_sameKind {i : Index} {k l : EntryKind} (hkl : sameKind k l) (hk : kindFits i k) : kindFits i l :=
  match k, l, hkl, hk with
  | .line _, .line _, _, hk => hk
  | .branching _, .branching _, _, hk => hk
  | .equalizer, .equalizer, _, hk => hk

/-- Entries that keep their addresses and their kinds' places keep the table coherent. -/
theorem plantCoherent_of_entries (h : s.plantCoherent)
    (ht : ∀ i f, t.entry i = some f → ∃ e, s.entry i = some e ∧ sameKind e.kind f.kind ∧ f.address = e.address) :
    t.plantCoherent := by
  obtain ⟨hone, htwo⟩ := h
  refine ⟨fun i f hf => ?_, fun i j f g hf hg hfg => ?_⟩
  · obtain ⟨e, he, hk, ha⟩ := ht i f hf
    obtain ⟨hfit, hlow, hhigh⟩ := hone i e he
    rw [ha]
    exact ⟨kindFits_of_sameKind hk hfit, hlow, hhigh⟩
  · obtain ⟨e, he, -, ha⟩ := ht i f hf
    obtain ⟨e', he', -, ha'⟩ := ht j g hg
    exact htwo i j e e' he he' (by rw [← ha, ← ha', hfg])

theorem sameKind_refl (k : EntryKind) : sameKind k k := by cases k <;> trivial

theorem plantCoherent_setEntry_of_same {i : Index} {e f : Entry} (he : s.entry i = some e) (hk : sameKind e.kind f.kind)
    (ha : f.address = e.address) (h : s.plantCoherent) : (s.setEntry i (some f)).plantCoherent := by
  refine plantCoherent_of_entries h (fun j g hg => ?_)
  rw [State.entry_setEntry] at hg
  split at hg
  · rename_i hj
    cases hg
    exact ⟨e, hj ▸ he, hk, ha⟩
  · exact ⟨g, hg, sameKind_refl _, rfl⟩

theorem plantCoherent_setEntry_none {i : Index} (h : s.plantCoherent) : (s.setEntry i none).plantCoherent := by
  refine plantCoherent_of_entries h (fun j g hg => ?_)
  rw [State.entry_setEntry] at hg
  split at hg
  · cases hg
  · exact ⟨g, hg, sameKind_refl _, rfl⟩

theorem State.addressTaken_eq_false {i : Index} {a : Byte} (h : s.addressTaken i a = false) {j : Index} {e : Entry}
    (hj : j ≠ i) (he : s.entry j = some e) : e.address ≠ a := by
  intro ha
  have hno := List.any_eq_false.1 h j (List.mem_finRange j)
  simp [he, hj, ha] at hno

/-- A definition under a fitting kind and a free address keeps the table coherent (R6). -/
theorem plantCoherent_setEntry_new {i : Index} {e : Entry} (hk : kindFits i e.kind) (hlow : 1 ≤ e.address.toNat)
    (hhigh : e.address.toNat ≤ 254) (hfree : s.addressTaken i e.address = false) (h : s.plantCoherent) :
    (s.setEntry i (some e)).plantCoherent := by
  obtain ⟨hone, htwo⟩ := h
  refine ⟨fun j f hf => ?_, fun j l f g hf hg hfg => ?_⟩
  · rw [State.entry_setEntry] at hf
    split at hf
    · rename_i hj
      cases hf
      exact ⟨hj ▸ hk, hlow, hhigh⟩
    · exact hone j f hf
  · rw [State.entry_setEntry] at hf hg
    split at hf <;> split at hg
    · rename_i hj hl; exact hj.trans hl.symm
    · rename_i hj hl; cases hf; exact absurd hfg.symm (State.addressTaken_eq_false hfree hl hg)
    · rename_i hj hl; cases hg; exact absurd hfg (State.addressTaken_eq_false hfree hj hf)
    · exact htwo j l f g hf hg hfg

theorem plantCoherent_of_none (h : ∀ i, t.entry i = none) : t.plantCoherent :=
  ⟨fun i e he => (by rw [h] at he; cases he), fun i j e f he => (by rw [h] at he; cases he)⟩

theorem entry_warmBlocks (cause : ResetCause) (strap : LineRate) (x y : Bool) (i : Index) :
    (s.warmBlocks cause strap x y).entry i = (s.entry i).map (fun e => { e with mark := false }) := tableGet_tableMap rfl _ _

theorem plantCoherent_warmBlocks (cause : ResetCause) (strap : LineRate) (x y : Bool) (h : s.plantCoherent) :
    (s.warmBlocks cause strap x y).plantCoherent := by
  refine plantCoherent_of_entries h (fun i f hf => ?_)
  rw [entry_warmBlocks] at hf
  obtain ⟨e, he, rfl⟩ := Option.map_eq_some_iff.1 hf
  exact ⟨e, he, sameKind_refl _, rfl⟩

/-! ## The channels -/

theorem pairsApart_of_points (h : s.pairsApart)
    (ht : ∀ c, (t.channel c).point = (s.channel c).point ∨ (t.channel c).point = none) : t.pairsApart := by
  have hpoint : ∀ c p, (t.channel c).point = some p → (s.channel c).point = some p := fun c p hp => by
    rcases ht c with e | e
    · rw [← e, hp]
    · rw [e] at hp; cases hp
  exact fun c d p hc hd => h c d p (hpoint c p hc) (hpoint d p hd)

theorem pairsApart_setChannel {c : Chan} {ch : Channel} (hp : ch.point = (s.channel c).point ∨ ch.point = none)
    (h : s.pairsApart) : (s.setChannel c ch).pairsApart := by
  refine pairsApart_of_points h (fun d => ?_)
  rw [State.channel_setChannel]
  split
  · rename_i hd; rw [hd]; exact hp
  · exact .inl rfl

/-- A point closed while no other channel holds it keeps the pairs apart (R24). -/
theorem pairsApart_closePoint {c : Chan} {ch : Channel} {p : Pair} (hp : ch.point = some p)
    (ho : ∀ d, d ≠ c → (s.channel d).point ≠ some p) (h : s.pairsApart) : (s.setChannel c ch).pairsApart := by
  intro d d' q hd hd'
  rw [State.channel_setChannel] at hd hd'
  split at hd <;> split at hd'
  · rename_i e e'; rw [e, e']
  · rename_i e e'; rw [hp] at hd; cases hd; exact absurd hd' (ho d' e')
  · rename_i e e'; rw [hp] at hd'; cases hd'; exact absurd hd (ho d e)
  · exact h d d' q hd hd'

theorem channel_of_replicate (h : t.pch.channels = Vector.replicate 4 {}) (c : Chan) : t.channel c = {} := by
  rw [State.channel, h]; simp

theorem pairsApart_of_replicate (h : t.pch.channels = Vector.replicate 4 {}) : t.pairsApart :=
  fun c d p hc => by rw [channel_of_replicate h] at hc; cases hc

/-! ## Every step -/

/-- What one state has of the four invariants another keeps. -/
def State.keepsPlant (s t : State) : Prop :=
  (s.memoriesCanonical → t.memoriesCanonical) ∧ (s.plantCoherent → t.plantCoherent) ∧ (s.pairsApart → t.pairsApart)
    ∧ (extentsDisjoint s.ecr.extents → extentsDisjoint t.ecr.extents)

theorem extentsDisjoint_nil : extentsDisjoint [] := ⟨List.Pairwise.nil, nofun⟩

/-- Each named update keeps the invariants: the memories' writes keep the canonical form, the rest carries what the update's
premise says. -/
theorem kept_keepsPlant (s : State) : Kept s.keepsPlant where
  setRecord := fun ⟨hm, h⟩ => ⟨fun x => let ⟨he, hr, hc⟩ := hm x; ⟨he, Table.wf_set _ _ hr, hc⟩, h⟩
  remark he := fun ⟨hm, hp, h⟩ =>
    ⟨fun x => memoriesCanonical_setEntry _ _ (hm x), fun x => plantCoherent_setEntry_of_same he (sameKind_refl _) rfl (hp x), h⟩
  rekind he hk := fun ⟨hm, hp, h⟩ =>
    ⟨fun x => memoriesCanonical_setEntry _ _ (hm x), fun x => plantCoherent_setEntry_of_same he hk rfl (hp x), h⟩
  define hk hlow hhigh hfree := fun ⟨hm, hp, h⟩ =>
    ⟨fun x => memoriesCanonical_setEntry _ _ (hm x), fun x => plantCoherent_setEntry_new hk hlow hhigh hfree (hp x), h⟩
  undefine := fun ⟨hm, hp, h⟩ =>
    ⟨fun x => memoriesCanonical_setEntry _ _ (hm x), fun x => plantCoherent_setEntry_none (hp x), h⟩
  setPath h := h
  setSpan h := h
  setAssemblyList h := h
  setChannel hc := fun ⟨hm, hp, ha, h⟩ => ⟨hm, hp, fun x => pairsApart_setChannel hc (ha x), h⟩
  closePoint hc ho := fun ⟨hm, hp, ha, h⟩ => ⟨hm, hp, fun x => pairsApart_closePoint hc ho (ha x), h⟩
  setPointEnabled h := h
  setDarkMark h := h
  setCeilingOf _ _ h := h
  setCells hw := fun ⟨hm, h⟩ => ⟨fun x => let ⟨he, hr, hc, hi⟩ := hm x; ⟨he, hr, hw hc, hi⟩, h⟩
  setExtents hl := fun ⟨hm, hp, ha, h⟩ => ⟨hm, hp, ha, fun x => hl (h x)⟩
  setThresholdValues _ _ _ _ _ _ h := h
  setPrevious h := h
  setLastServed h := h
  setService _ h := h
  setCampaign h := h
  setChain h := h
  setDemand _ h := h
  setPeriodicList _ h := h
  setLineDarkMark h := h
  setGate h := h
  setOrder h := h
  setAcceptance h := h
  setWorking h := h
  setInverted h := h
  setSettings _ _ h := h
  setBaseline := fun ⟨hm, h⟩ =>
    ⟨fun x => let ⟨he, hr, hc, hi, hb⟩ := hm x; ⟨he, hr, hc, Table.wf_set _ _ hi, hb⟩, h⟩
  setStore hw := fun ⟨hm, h⟩ =>
    ⟨fun x => let ⟨he, hr, hc, hi, hb⟩ := hm x; ⟨he, hr, hc, hi, hw hb⟩, h⟩
  setStoreOp h := h
  setStaging h := h
  setLastOp h := h
  setLevel _ h := h
  setReports _ h := h
  setAssembler h := h
  setTransmitter h := h
  setPendingReset h := h
  setBreak h := h
  enterReady h := h
  takeFree h := h
  setTimingValue h := by unfold State.setTimingValue; split <;> exact h
  advanceClock h := h
  queueReply _ h := h
  replySent h := h
  coldReset := fun ⟨hm, _⟩ =>
    ⟨fun x => memoriesCanonical_coldReset _ _ _ _ (hm x), fun _ => plantCoherent_of_none fun _ => rfl,
      fun _ => pairsApart_of_replicate rfl, fun _ => extentsDisjoint_nil⟩
  warmBlocks := fun ⟨hm, hp, _⟩ =>
    ⟨fun x => memoriesCanonical_warmBlocks _ _ _ _ (hm x), fun x => plantCoherent_warmBlocks _ _ _ _ (hp x),
      fun _ => pairsApart_of_replicate rfl, fun _ => extentsDisjoint_nil⟩

/-- Settles O58: each named update keeps the invariants, and every step is built from such updates. -/
theorem stepKeepsPlantAndMemories : Obligations.StepKeepsPlantAndMemories := by
  intro s t ht
  exact (kept_keepsPlant s).step (s := s) ⟨id, id, id, id⟩ (fun _ _ h => h) ht

end Sys2Proof.Machine
end

section
/-! What every step keeps of the link's queues, the settings, the campaign queues, the service list and the source levels (R30,
R53, R60, R61, R65, R78, R79, R102, R135, R178, R181 to R183). -/

namespace Sys2Proof.Machine

variable {s t : State}

theorem readyOf_iff {l : List LinkFrame} {k : Option ResetKind} : readyOf l k = true ↔ l.length < 8 ∧ k = none := by
  rw [readyOf, Bool.and_eq_true, decide_eq_true_iff, Option.isNone_iff_eq_none]

theorem linkCoherent_queueReply {f : LinkFrame} (hroom : s.clk.replies.length < 8) (h : s.linkCoherent) :
    (s.queueReply f).linkCoherent := by
  obtain ⟨-, hreports, -⟩ := h
  refine ⟨?_, hreports, readyOf_iff⟩
  show (s.clk.replies ++ [f]).length ≤ 8
  rw [List.length_append]
  exact hroom

theorem linkCoherent_replySent (h : s.linkCoherent) : s.replySent.linkCoherent := by
  obtain ⟨hlength, hreports, -⟩ := h
  refine ⟨?_, hreports, readyOf_iff⟩
  show (s.clk.replies.drop 1).length ≤ 8
  rw [List.length_drop]
  omega

theorem linkCoherent_setPendingReset {k : ResetKind} (h : s.linkCoherent) : (s.setPendingReset k).linkCoherent :=
  ⟨h.1, h.2.1, readyOf_iff⟩

theorem linkCoherent_of_reset (hreplies : t.clk.replies = []) (hreports : t.clk.reports = []) (hready : t.clk.ready = true)
    (hpending : t.clk.pendingReset = none) : t.linkCoherent := by
  refine ⟨by simp [hreplies], by simp [hreports], ?_⟩
  simp [hreplies, hready, hpending]

theorem clampNat_range {lo hi : Nat} (hh : lo ≤ hi) (x : Nat) : lo ≤ clampNat lo hi x ∧ clampNat lo hi x ≤ hi := by
  rw [clampNat_eq hh]; omega

theorem settingsInRange_setCeilingOf {p : Pair} {x : Int} (hlow : -7612 ≤ x) (hhigh : x ≤ -2194) (h : s.settingsInRange) :
    (s.setCeilingOf p x).settingsInRange := by
  obtain ⟨hf, hi, hp, hfl, ht, hd, hc, hl⟩ := h
  refine ⟨hf, hi, hp, hfl, ht, hd, fun q => ?_, hl⟩
  rw [show (s.setCeilingOf p x).ceiling q = if q = p then x else s.ceiling q from vector_get_set _ _ _ _]
  split
  · exact ⟨hlow, hhigh⟩
  · exact hc q

theorem settingsInRange_setTimingValue {change : Byte} {interval : BitVec 16} (h : s.settingsInRange) :
    (s.setTimingValue change interval).settingsInRange := by
  unfold State.setTimingValue
  split
  · obtain ⟨hf, hi, -, h⟩ := h
    refine ⟨hf, hi, fun x hx => ?_, h⟩
    cases hx
    exact clampNat_range (by decide) _
  · exact h

theorem pendingInterval_getD_range (h : s.settingsInRange) :
    250 ≤ s.fga.pendingInterval.getD s.fga.interval ∧ s.fga.pendingInterval.getD s.fga.interval ≤ 60000 := by
  obtain ⟨-, hi, hp, -⟩ := h
  cases hx : s.fga.pendingInterval with
  | none => exact hi
  | some x => exact hp x hx

theorem settingsInRange_advanceClock (h : s.settingsInRange) : s.advanceClock.settingsInRange := by
  have hinterval := pendingInterval_getD_range h
  obtain ⟨hf, -, -, h⟩ := h
  refine ⟨?_, hinterval, nofun, h⟩
  show nextFrame s.fga.frame ≤ 4095
  unfold nextFrame
  split <;> omega

theorem settingsInRange_reset : State.reset.settingsInRange := by
  refine ⟨by decide, by decide, nofun, by decide, by decide, by decide, fun p => ?_, by decide⟩
  show -7612 ≤ (Vector.replicate 16 (-3000))[p] ∧ (Vector.replicate 16 (-3000))[p] ≤ -2194
  simp

theorem settingsInRange_coldReset (cause : ResetCause) (strap : LineRate) (x y : Bool) :
    (s.coldReset cause strap x y).settingsInRange := settingsInRange_reset

theorem settingsInRange_warmBlocks (cause : ResetCause) (strap : LineRate) (x y : Bool) (h : s.settingsInRange) :
    (s.warmBlocks cause strap x y).settingsInRange :=
  ⟨Nat.zero_le _, pendingInterval_getD_range h, nofun, h.2.2.2⟩

theorem serviceWhole_afterReset (interval : Nat) (h : t.fga = .afterReset interval) : t.serviceWhole := by
  rw [State.serviceWhole, h]; exact .refl _

theorem exists_level_zero_coldReset (cause : ResetCause) (strap : LineRate) (x y : Bool) :
    ∃ src, (s.coldReset cause strap x y).level src = 0 := ⟨0, rfl⟩

/-- What one state has of the five invariants of queues and settings another keeps. -/
def State.keepsQueues (s t : State) : Prop :=
  (s.linkCoherent → t.linkCoherent) ∧ (s.settingsInRange → t.settingsInRange) ∧ (s.queuesBounded → t.queuesBounded)
    ∧ (s.serviceWhole → t.serviceWhole) ∧ ((∃ src, s.level src = 0) → ∃ src, t.level src = 0)

/-- Each named update keeps the invariants: most touch none of them, the rest carries what the update's premise says. -/
theorem kept_keepsQueues (s : State) : Kept s.keepsQueues where
  setRecord h := h
  remark _ h := h
  rekind _ _ h := h
  define _ _ _ _ h := h
  undefine h := h
  setPath h := h
  setSpan h := h
  setAssemblyList h := h
  setChannel _ h := h
  closePoint _ _ h := h
  setPointEnabled h := h
  setDarkMark h := h
  setCeilingOf hlow hhigh := fun ⟨hl, hs, h⟩ => ⟨hl, fun x => settingsInRange_setCeilingOf hlow hhigh (hs x), h⟩
  setCells _ h := h
  setExtents _ h := h
  setThresholdValues f1 f2 t1 t2 d1 d2 := fun ⟨hl, hs, h⟩ =>
    ⟨hl, fun x => let ⟨hf, hi, hp, _, _, _, hc⟩ := hs x; ⟨hf, hi, hp, ⟨f1, f2⟩, ⟨t1, t2⟩, ⟨d1, d2⟩, hc⟩, h⟩
  setPrevious h := h
  setLastServed h := h
  setService hp := fun ⟨hl, hs, hq, hv, h⟩ => ⟨hl, hs, hq, fun x => hp (hv x), h⟩
  setCampaign h := h
  setChain h := h
  setDemand hb := fun ⟨hl, hs, hq, h⟩ => ⟨hl, hs, fun x => ⟨hb.elim id (fun y => y.trans (hq x).1), (hq x).2⟩, h⟩
  setPeriodicList hb := fun ⟨hl, hs, hq, h⟩ => ⟨hl, hs, fun x => ⟨(hq x).1, hb.elim id (fun y => y.trans (hq x).2)⟩, h⟩
  setLineDarkMark h := h
  setGate h := h
  setOrder h := h
  setAcceptance h := h
  setWorking h := h
  setInverted h := h
  setSettings h1 h2 := fun ⟨hl, hs, h⟩ =>
    ⟨hl, fun x => let ⟨hf, hi, hp, hfl, ht, hd, hc, _⟩ := hs x; ⟨hf, hi, hp, hfl, ht, hd, hc, h1, h2⟩, h⟩
  setBaseline h := h
  setStore _ h := h
  setStoreOp h := h
  setStaging h := h
  setLastOp h := h
  setLevel hz := fun ⟨hl, hs, hq, hv, _⟩ => ⟨hl, hs, hq, hv, fun _ => State.someLevelZero_iff.1 hz⟩
  setReports hd := fun ⟨hl, h⟩ => ⟨fun x => let ⟨hr, hn, hy⟩ := hl x; ⟨hr, hd hn, hy⟩, h⟩
  setAssembler h := h
  setTransmitter h := h
  setPendingReset := fun ⟨hl, h⟩ => ⟨fun x => linkCoherent_setPendingReset (hl x), h⟩
  setBreak h := h
  enterReady h := h
  takeFree h := h
  setTimingValue := fun ⟨hl, hs, h⟩ =>
    ⟨fun x => by unfold State.setTimingValue; split <;> exact hl x, fun x => settingsInRange_setTimingValue (hs x),
      by unfold State.setTimingValue; split <;> exact h⟩
  advanceClock := fun ⟨hl, hs, h⟩ => ⟨hl, fun x => settingsInRange_advanceClock (hs x), h⟩
  queueReply hroom := fun ⟨hl, h⟩ => ⟨fun x => linkCoherent_queueReply hroom (hl x), h⟩
  replySent := fun ⟨hl, h⟩ => ⟨fun x => linkCoherent_replySent (hl x), h⟩
  coldReset := fun _ =>
    ⟨fun _ => linkCoherent_of_reset rfl rfl rfl rfl, fun _ => settingsInRange_coldReset _ _ _ _,
      fun _ => ⟨Nat.zero_le _, Nat.zero_le _⟩, fun _ => serviceWhole_afterReset _ rfl,
      fun _ => exists_level_zero_coldReset _ _ _ _⟩
  warmBlocks := fun ⟨_, hs, _, _, hz⟩ =>
    ⟨fun _ => linkCoherent_of_reset rfl rfl rfl rfl, fun x => settingsInRange_warmBlocks _ _ _ _ (hs x),
      fun _ => ⟨Nat.zero_le _, Nat.zero_le _⟩, fun _ => serviceWhole_afterReset _ rfl, hz⟩

end Sys2Proof.Machine
end

section
/-! What the ledger of chains, demand queue, order records and acceptance list speaks of, and the updates that leave all of it as
it was. -/

namespace Sys2Proof.Machine

variable {s t u : State}

/-! ## What the ledger speaks of -/

/-- The fields of a campaign record that the ledger speaks of (R73). -/
structure Standing where
  pair : Pair
  depth : Nat
  state : CampaignState
  parent : Option Slot
  origin : CampaignOrigin
  kind : Option CampaignKind

/-- A campaign's standing. -/
def Campaign.standing (c : Campaign) : Standing :=
  { pair := c.pair, depth := c.depth, state := c.state, parent := c.parent, origin := c.origin, kind := c.kind }

/-- The fields of an order record that the ledger speaks of (R133). -/
structure OrderStanding where
  state : OrderState
  reserved : Slot
  channel : Option Chan

/-- An order's standing. -/
def Order.standing (o : Order) : OrderStanding := { state := o.state, reserved := o.reserved, channel := o.channel }

/-- The parts of the state that the ledger reads. -/
structure LedgerView where
  slots : Vector Campaign 32
  chains : Vector (List Slot) 16
  demand : List Slot
  acceptance : List OrderNo
  orders : Vector (Option Order) 8
  channels : Vector Channel 4
  reports : List Origin

/-- What the ledger reads of a state. -/
def State.ledgerView (s : State) : LedgerView :=
  { slots := s.cen.slots, chains := s.cen.chains, demand := s.cen.demand, acceptance := s.isu.acceptance,
    orders := s.isu.orders, channels := s.pch.channels, reports := s.clk.reports }

/-- Nothing the ledger speaks of has moved; an order may have lost its channel, and its report its place in the queue. -/
structure LedgerView.Same (u v : LedgerView) : Prop where
  campaign : ∀ n : Slot, v.slots[n].standing = u.slots[n].standing
  chains : v.chains = u.chains
  demand : v.demand = u.demand
  acceptance : v.acceptance = u.acceptance
  order : ∀ k : OrderNo, v.orders[k].map Order.standing = u.orders[k].map Order.standing
  holder : ∀ (c : Chan) k, v.channels[c].holder = some (.order k) → u.channels[c].holder = some (.order k)
  reports : ∀ k, Origin.order k ∈ v.reports → Origin.order k ∈ u.reports

/-- Two states of one ledger. Updates the ledger does not read keep it by definition. -/
def State.sameLedger (s t : State) : Prop := s.ledgerView.Same t.ledgerView

namespace State.sameLedger

theorem refl (s : State) : s.sameLedger s := ⟨fun _ => rfl, rfl, rfl, rfl, fun _ => rfl, fun _ _ => id, fun _ => id⟩

theorem trans (h : s.sameLedger t) (h' : t.sameLedger u) : s.sameLedger u where
  campaign n := (h'.campaign n).trans (h.campaign n)
  chains := h'.chains.trans h.chains
  demand := h'.demand.trans h.demand
  acceptance := h'.acceptance.trans h.acceptance
  order k := (h'.order k).trans (h.order k)
  holder c k hk := h.holder c k (h'.holder c k hk)
  reports k hk := h.reports k (h'.reports k hk)

theorem standing (h : s.sameLedger t) (n : Slot) : (t.campaign n).standing = (s.campaign n).standing := h.campaign n

theorem chain (h : s.sameLedger t) (p : Pair) : t.chain p = s.chain p := congrArg (fun v : Vector (List Slot) 16 => v[p]) h.chains

theorem order_eq_none_iff (h : s.sameLedger t) (k : OrderNo) : t.order k = none ↔ s.order k = none := by
  have := h.order k
  change (t.order k).map Order.standing = (s.order k).map Order.standing at this
  rw [← Option.map_eq_none_iff (f := Order.standing), this, Option.map_eq_none_iff]

theorem exists_order (h : s.sameLedger t) {k : OrderNo} {o : Order} (ho : t.order k = some o) :
    ∃ x, s.order k = some x ∧ x.standing = o.standing := by
  have := h.order k
  change (t.order k).map Order.standing = (s.order k).map Order.standing at this
  rw [ho] at this
  obtain ⟨x, hx, e⟩ := Option.map_eq_some_iff.1 this.symm
  exact ⟨x, hx, e⟩

/-! ## Updates that the ledger does not see -/

theorem foldl {α : Type} {f : State → α → State} {v : State} (hf : ∀ v x, s.sameLedger v → s.sameLedger (f v x)) (l : List α)
    (h : s.sameLedger v) : s.sameLedger (l.foldl f v) := by
  induction l generalizing v with
  | nil => exact h
  | cons x l ih => exact ih (hf _ x h)

/-- An update the ledger does not read. -/
theorem unseen (h : u.sameLedger s) (ht : t.ledgerView = s.ledgerView) : u.sameLedger t := by unfold State.sameLedger; rw [ht]; exact h

theorem setCampaign {n : Slot} {c : Campaign} (h : u.sameLedger s) (hc : c.standing = (s.campaign n).standing) : u.sameLedger (s.setCampaign n c) :=
  { h with
    campaign := fun m => by
      show ((s.setCampaign n c).campaign m).standing = _
      rw [State.campaign_setCampaign]
      split
      · rename_i hm; rw [hc, ← hm]; exact h.campaign m
      · exact h.campaign m }

theorem setChannel {c : Chan} {ch : Channel} (h : u.sameLedger s)
    (hc : ∀ k, ch.holder = some (.order k) → (s.channel c).holder = some (.order k)) : u.sameLedger (s.setChannel c ch) :=
  { h with
    holder := fun d k hk => by
      change ((s.setChannel c ch).channel d).holder = _ at hk
      rw [State.channel_setChannel] at hk
      split at hk
      · rename_i hd; rw [hd]; exact h.holder c k (hc k hk)
      · exact h.holder d k hk }

theorem setOrder {k : OrderNo} {o x : Order} (h : u.sameLedger s) (hx : s.order k = some x) (ho : o.standing = x.standing) :
    u.sameLedger (s.setOrder k (some o)) :=
  { h with
    order := fun j => by
      show ((s.setOrder k (some o)).order j).map Order.standing = _
      rw [State.order_setOrder]
      split
      · rename_i hj
        rw [← h.order j, hj]
        show _ = (s.order k).map Order.standing
        rw [hx, Option.map_some, Option.map_some, ho]
      · exact h.order j }

theorem setReports {l : List Origin} (h : u.sameLedger s) (hl : ∀ k, Origin.order k ∈ l → Origin.order k ∈ s.clk.reports) :
    u.sameLedger (s.setReports l) :=
  { h with reports := fun k hk => h.reports k (hl k hk) }

theorem queueOrigin {o : Origin} (h : u.sameLedger s) (ho : ∀ k, o ≠ .order k) : u.sameLedger (s.queueOrigin o) := by
  unfold State.queueOrigin
  split
  · exact h
  · refine setReports h (fun k hk => ?_)
    rcases List.mem_append.1 hk with hk | hk
    · exact hk
    · exact absurd (List.mem_singleton.1 hk).symm (ho k)

theorem withdrawOrigin {o : Origin} (h : u.sameLedger s) : u.sameLedger (s.withdrawOrigin o) := setReports h (fun _ hk => List.mem_of_mem_filter hk)

theorem setCondition {i : Index} {p : Pair} {c : Condition} (h : u.sameLedger s) : u.sameLedger (s.setCondition i p c) := by
  unfold State.setCondition
  split
  · exact h
  · exact queueOrigin (s := s.setRecord i p _) h nofun

theorem setOrderMark {i : Index} {b : Bool} (h : u.sameLedger s) : u.sameLedger (s.setOrderMark i b) := by
  unfold State.setOrderMark; split <;> exact h

theorem markDark {p : Pair} (h : u.sameLedger s) : u.sameLedger (s.markDark p) := queueOrigin (s := s.setDarkMark p true) h nofun

theorem markLineDark {p : Pair} (h : u.sameLedger s) : u.sameLedger (s.markLineDark p) :=
  queueOrigin (s := s.setLineDarkMark p true) h nofun

/-! ## The correlator and the channels -/

theorem allocate {n : Slot} {length : Nat} (h : u.sameLedger s) (ht : s.allocate n length = some t) : u.sameLedger t := by
  unfold State.allocate at ht
  split at ht
  · cases ht
  · cases ht; exact setCampaign (s := (s.setExtents _).setCells _) h rfl

theorem endSlice {n : Slot} (h : u.sameLedger s) : u.sameLedger (s.endSlice n) := by
  unfold State.endSlice
  split
  · exact h
  · exact setChannel h nofun

theorem dropExtent {n : Slot} (h : u.sameLedger s) : u.sameLedger (s.dropExtent n) := setCampaign (s := s.setExtents _) h rfl

theorem releaseExtent {n : Slot} (h : u.sameLedger s) : u.sameLedger (s.releaseExtent n) := dropExtent (endSlice h)

theorem zeroCampaign {n : Slot} (h : u.sameLedger s) : u.sameLedger (s.zeroCampaign n) := setCampaign (s := s.setCells _) h rfl

theorem zeroChainTop {p : Pair} (h : u.sameLedger s) : u.sameLedger (s.zeroChainTop p) := by
  unfold State.zeroChainTop
  split
  · exact h
  · exact zeroCampaign h

theorem acceptPeriod {n : Slot} {samples : List Sample} (h : u.sameLedger s) : u.sameLedger (s.acceptPeriod n samples) := by
  unfold State.acceptPeriod
  dsimp only
  split
  · exact setCampaign h rfl
  · exact setCampaign (s := s.setCells _) h rfl

theorem reduceCampaign {n : Slot} (h : u.sameLedger s) : u.sameLedger (s.reduceCampaign n) := by
  unfold State.reduceCampaign
  split
  · exact h
  · dsimp only; exact dropExtent (setCampaign h rfl)

theorem fixCampaignLevel {n : Slot} (h : u.sameLedger s) : u.sameLedger (s.fixCampaignLevel n) := by
  have hdrop : u.sameLedger (s.dropExcessLevel n) := by
    unfold State.dropExcessLevel
    split
    · exact h
    · split
      · exact setCampaign (zeroCampaign h) rfl
      · exact h
  unfold State.fixCampaignLevel
  dsimp only
  split
  · exact setCampaign hdrop rfl
  · exact hdrop

theorem openElsewhere {c : Chan} {p : Pair} (h : u.sameLedger s) : u.sameLedger (s.openElsewhere c p) := by
  refine foldl (fun v d hv => ?_) _ h
  split
  · exact setChannel hv nofun
  · exact hv

theorem coast {c : Chan} (h : u.sameLedger s) : u.sameLedger (s.coast c) := setChannel h nofun

theorem endBurst {c : Chan} {p : Pair} (h : u.sameLedger s) : u.sameLedger (s.endBurst c p) := zeroChainTop (coast h)

theorem parkUngranted (h : u.sameLedger s) : u.sameLedger s.parkUngranted := by
  refine foldl (fun v c hv => ?_) _ h
  unfold State.parkIfCoasting
  split
  · exact setChannel hv (fun _ => id)
  · exact hv

/-- A grant to a slice gives no order a channel. -/
theorem carryGrant_slice {c : Chan} {p : Pair} {n : Slot} {k : Nat} {lit m : Bool} {sig : Signature} (h : u.sameLedger s) :
    u.sameLedger (s.carryGrant c p (.slice n k lit) sig m) := by
  unfold State.carryGrant
  split
  · exact setChannel (openElsewhere h) nofun
  · split
    · exact setChannel h nofun
    · exact setChannel h nofun

theorem served {p : Pair} {c : Chan} (h : u.sameLedger s) : u.sameLedger ((s.setPrevious p c).setLastServed p) := unseen h rfl

theorem grantSlice {p : Pair} {n : Slot} {c : Chan} (h : u.sameLedger s) : u.sameLedger (s.grantSlice p n c) := by
  unfold State.grantSlice
  dsimp only
  exact served (carryGrant_slice (fixCampaignLevel h))

/-! ## Classification and walks -/

theorem mergeElement {c : Campaign} {target : Option Nat} {r : ResultElement} (h : u.sameLedger s) : u.sameLedger (s.mergeElement c target r) := by
  unfold State.mergeElement
  split
  · exact setCondition h
  · split
    · exact setCondition h
    · exact h
  · exact setCondition (setCondition h)
  · exact h

theorem recordClass {p : Pair} {r : ResultElement} (h : u.sameLedger s) : u.sameLedger (s.recordClass p r) := unseen h rfl

theorem classifyCampaign {n : Slot} (h : u.sameLedger s) : u.sameLedger (s.classifyCampaign n) := by
  unfold State.classifyCampaign
  dsimp only
  have hmerged : ∀ (l l' : List ResultElement) (c : Campaign) (target : Option Nat) (y : Campaign),
      y.standing = (s.campaign n).standing →
      u.sameLedger (l'.foldl (fun s r => s.mergeElement c target r)
        (l.foldl (fun s r => s.recordClass c.pair r) (s.setCampaign n y))) := fun l l' c target y hy =>
    foldl (fun v r hv => mergeElement hv) _ (foldl (fun v r hv => recordClass hv) _ (setCampaign h hy))
  split
  · exact markLineDark (hmerged _ _ _ _ _ rfl)
  · exact hmerged _ _ _ _ _ rfl

theorem writeRefined {n : Slot} {k : Nat} {c : ElementClass} {d : Option Nat} {r : Option Reason} (h : u.sameLedger s) :
    u.sameLedger (s.writeRefined n k c d r) := by
  unfold State.writeRefined
  dsimp only
  split
  · exact setCampaign h rfl
  · unfold State.applyTarget; exact setCondition (setCampaign h rfl)

/-! ## Orders, countdowns and the transmitter -/

theorem changeSpare {i : Index} {f : Fin 3 → Fin 3} (h : u.sameLedger s) : u.sameLedger (s.changeSpare i f) := by
  unfold State.changeSpare; split <;> exact h

theorem setRoute {i : Index} {leg : Leg} (h : u.sameLedger s) : u.sameLedger (s.setRoute i leg) := by
  unfold State.setRoute; split <;> exact h

theorem setPeriodic {n : Slot} {x : PeriodicPart} (h : u.sameLedger s) : u.sameLedger (s.setPeriodic n x) := setCampaign h rfl

theorem dueIfZero {n : Slot} (h : u.sameLedger s) : u.sameLedger (s.dueIfZero n) := by
  unfold State.dueIfZero
  split
  · exact h
  · split
    · unfold State.fallDue
      split
      · exact setPeriodic h
      · exact queueOrigin (setPeriodic h) nofun
    · exact h

theorem runCountdowns (h : u.sameLedger s) : u.sameLedger s.runCountdowns := by
  refine foldl (fun v n hv => ?_) _ h
  unfold State.runCountdown
  split
  · exact hv
  · exact dueIfZero (setPeriodic hv)

theorem clearMarks {p : Pair} {l : List Index} (h : u.sameLedger s) : u.sameLedger (s.clearMarks p l) := by
  refine foldl (fun v i hv => ?_) _ h
  exact unseen hv rfl

theorem pairReported {p : Pair} (h : u.sameLedger s) : u.sameLedger (s.pairReported p) := by
  unfold State.pairReported
  dsimp only
  split
  · exact queueOrigin (unseen (unseen (clearMarks h) rfl) rfl) nofun
  · exact unseen (unseen (clearMarks h) rfl) rfl

/-! ## The store -/

theorem settleProgrammed {p : Pair} {x : Staged} (h : u.sameLedger s) : u.sameLedger (s.settleProgrammed p x) := by
  unfold State.settleProgrammed
  split
  · split <;> exact h
  · exact h

theorem endCommit {job : CommitJob} {stop : Reason} (h : u.sameLedger s) : u.sameLedger (s.endCommit job stop) := by
  have hset : u.sameLedger (job.written.foldl (fun s x => s.settleProgrammed job.pair x) s) :=
    foldl (fun v x hv => settleProgrammed hv) _ h
  unfold State.endCommit
  exact queueOrigin (unseen (unseen (unseen hset rfl) rfl) rfl) nofun

theorem advanceCommit {job : CommitJob} (l : List Staged) (h : u.sameLedger s) : u.sameLedger (s.advanceCommit job l) := by
  induction l with
  | nil => exact endCommit h
  | cons x rest ih =>
    unfold State.advanceCommit
    split
    · exact ih
    · split
      · exact h
      · exact endCommit h

theorem slotDone {job : CommitJob} (h : u.sameLedger s) : u.sameLedger (s.slotDone job) := by
  unfold State.slotDone
  split
  · exact h
  · split
    · exact h
    · dsimp only; exact advanceCommit _ (unseen h rfl)

theorem endErase {block : Fin 32} (h : u.sameLedger s) : u.sameLedger (s.endErase block) := by
  have hblock : u.sameLedger ((s.setStore (erasedStore s.bst.store block)).unstoreBlock block) := by
    refine foldl (fun v i hv => ?_) _ (unseen h rfl)
    exact unseen hv rfl
  unfold State.endErase
  exact queueOrigin (unseen (unseen hblock rfl) rfl) nofun

theorem loadImage (h : u.sameLedger s) : u.sameLedger s.loadImage := by
  refine foldl (fun v slot hv => ?_) _ h
  unfold State.loadSlot
  split <;> exact hv

end State.sameLedger

end Sys2Proof.Machine
end

section
/-! The ledger in three parts, chains, demand queue and orders, and when each survives a change of the state. -/

namespace Sys2Proof.Machine

variable {s t : State}

/-! ## The three parts -/

/-- The campaign is ACTIVE or NESTED (R74). -/
def Campaign.working (c : Campaign) : Prop := c.state ∈ [CampaignState.awaitingRoom, .measuring, .nested]

theorem Campaign.working_iff {c : Campaign} :
    c.working ↔ c.state = .awaitingRoom ∨ c.state = .measuring ∨ c.state = .nested := by
  simp [Campaign.working]

/-- A list of slots is as a pair's chain has to be (R85). -/
structure ChainOk (s : State) (p : Pair) (l : List Slot) : Prop where
  pair : ∀ n ∈ l, (s.campaign n).pair = p
  once : l.Nodup
  depth : ∀ i n, l[i]? = some n → (s.campaign n).depth = i + 1 ∧ i < 8
  top : ∀ n, l.getLast? = some n → (s.campaign n).state = .awaitingRoom ∨ (s.campaign n).state = .measuring
  root : ∀ n, l.head? = some n → (s.campaign n).parent = none ∧ (s.campaign n).state ≠ .awaitingRoom
  link : ∀ i m n, l[i]? = some m → l[i + 1]? = some n →
    (s.campaign m).state = .nested ∧ (s.campaign n).parent = some m ∧ (s.campaign n).origin = .child

/-- The part of the ledger about chains. -/
structure ChainsOk (s : State) : Prop where
  chain : ∀ p, ChainOk s p (s.chain p)
  onChain : ∀ n, (s.campaign n).working → n ∈ s.chain (s.campaign n).pair

/-- The part of the ledger about the demand queue. -/
structure DemandOk (s : State) : Prop where
  once : s.cen.demand.Nodup
  queued : ∀ n, n ∈ s.cen.demand ↔ (s.campaign n).state = .queued

/-- The order is in its burst: before its answer and not DONE (R134). -/
def Order.inBurst (o : Order) : Prop := o.state ∈ [OrderState.waitingChannel, .referencing, .sending, .listening]

/-- The order is in a state in which it holds a channel (R134, R136). -/
def Order.onAir (o : Order) : Prop := o.state ∈ [OrderState.referencing, .sending, .listening]

/-- The slot is as that of an order up to its answer: RESERVED and no confirm yet (R134). -/
def State.slotAwaits (s : State) (n : Slot) : Prop := (s.campaign n).state = .reserved ∧ (s.campaign n).kind = none

/-- The slot is a confirm, RESERVED or at work (R134, R150). -/
def State.slotConfirms (s : State) (n : Slot) : Prop :=
  (s.campaign n).kind = some .confirm ∧ (s.campaign n).origin = .order
    ∧ ((s.campaign n).state = .reserved ∨ (s.campaign n).state = .measuring)

/-- The part of the ledger about orders. -/
structure OrdersOk (s : State) : Prop where
  acceptedOnce : s.isu.acceptance.Nodup
  acceptedTaken : ∀ k, k ∈ s.isu.acceptance ↔ s.order k ≠ none
  burstSlot : ∀ k o, s.order k = some o → o.inBurst → s.slotAwaits o.reserved
  confirmSlot : ∀ k o, s.order k = some o → o.state = .confirming → s.slotConfirms o.reserved
  ownSlot : ∀ j k o x, j ≠ k → s.order j = some o → s.order k = some x → ¬ o.done → ¬ x.done → o.reserved ≠ x.reserved
  holderNamed : ∀ c k, (s.channel c).holder = some (.order k) → ∃ o, s.order k = some o ∧ o.channel = some c ∧ o.onAir
  reportedDone : ∀ k, Origin.order k ∈ s.clk.reports → ∃ o, s.order k = some o ∧ o.done

theorem ledger_iff : Ledger s ↔ ChainsOk s ∧ DemandOk s ∧ OrdersOk s := by
  constructor
  · intro h
    exact ⟨⟨fun p => ⟨h.chainPair p, h.chainOnce p, h.chainDepth p, h.chainTop p, h.chainRoot p, h.chainLink p⟩, h.onChain⟩,
      ⟨h.demandOnce, h.demandQueued⟩,
      ⟨h.acceptedOnce, h.acceptedTaken, h.burstSlot, h.confirmSlot, h.ownSlot, h.holderNamed, h.reportedDone⟩⟩
  · rintro ⟨hc, hd, ho⟩
    exact ⟨fun p => (hc.chain p).pair, fun p => (hc.chain p).once, fun p => (hc.chain p).depth, fun p => (hc.chain p).top,
      fun p => (hc.chain p).root, fun p => (hc.chain p).link, hc.onChain, hd.once, hd.queued, ho.acceptedOnce,
      ho.acceptedTaken, ho.burstSlot, ho.confirmSlot, ho.ownSlot, ho.holderNamed, ho.reportedDone⟩

/-! ## Orders that are not DONE -/

theorem Order.done_iff {o : Order} : ¬ o.done ↔ o.inBurst ∨ o.state = .confirming := by
  unfold Order.done Order.inBurst
  cases o.state <;> simp

theorem Order.inBurst_of_onAir {o : Order} (h : o.onAir) : o.inBurst := List.mem_cons_of_mem _ h

theorem Order.not_done_of_inBurst {o : Order} (h : o.inBurst) : ¬ o.done := Order.done_iff.2 (.inl h)

/-- An order that is not DONE reserves the slot (R132). -/
def State.claimed (s : State) (n : Slot) : Prop := ∃ k o, s.order k = some o ∧ ¬ o.done ∧ o.reserved = n

theorem OrdersOk.slot_of_claimed (h : OrdersOk s) {n : Slot} (hn : s.claimed n) : s.slotAwaits n ∨ s.slotConfirms n := by
  obtain ⟨k, o, ho, hd, rfl⟩ := hn
  rcases Order.done_iff.1 hd with hb | hc
  · exact .inl (h.burstSlot k o ho hb)
  · exact .inr (h.confirmSlot k o ho hc)

theorem OrdersOk.state_of_claimed (h : OrdersOk s) {n : Slot} (hn : s.claimed n) :
    (s.campaign n).state = .reserved ∨ (s.campaign n).state = .measuring := by
  rcases h.slot_of_claimed hn with ha | hc
  · exact .inl ha.1
  · exact hc.2.2

/-- A slot of another kind than a confirm's, at work, is no order's. -/
theorem OrdersOk.not_claimed (h : OrdersOk s) {n : Slot} (hr : (s.campaign n).state ≠ .reserved)
    (hc : (s.campaign n).state ≠ .measuring ∨ (s.campaign n).kind ≠ some .confirm ∨ (s.campaign n).origin ≠ .order) :
    ¬ s.claimed n := by
  intro hn
  rcases h.slot_of_claimed hn with ha | ⟨hk, ho, hs⟩
  · exact hr ha.1
  · have hm := hs.resolve_left hr
    exact hc.elim (fun x => x hm) (fun x => x.elim (fun y => y hk) (fun y => y ho))

/-! ## Slots on a chain -/

theorem ChainOk.working {p : Pair} {l : List Slot} (h : ChainOk s p l) {n : Slot} (hn : n ∈ l) : (s.campaign n).working := by
  obtain ⟨i, hi⟩ := List.mem_iff_getElem?.1 hn
  rw [Campaign.working_iff]
  cases hm : l[i + 1]? with
  | some m => exact .inr (.inr (h.link i n m hi hm).1)
  | none =>
    have hlast : l.getLast? = some n := by
      rw [List.getLast?_eq_getElem?]
      obtain ⟨hlt, -⟩ := List.getElem?_eq_some_iff.1 hi
      rw [List.getElem?_eq_none_iff] at hm
      rw [show l.length - 1 = i by omega, hi]
    exact (h.top n hlast).imp_right .inl

theorem ChainsOk.mem_iff (h : ChainsOk s) {p : Pair} {n : Slot} :
    n ∈ s.chain p ↔ (s.campaign n).working ∧ (s.campaign n).pair = p :=
  ⟨fun hn => ⟨(h.chain p).working hn, (h.chain p).pair n hn⟩, fun ⟨hw, hp⟩ => hp ▸ h.onChain n hw⟩

/-- A slot above a chain's root is a child. -/
theorem ChainOk.child_of_mem_tail {p : Pair} {root : Slot} {above : List Slot} (h : ChainOk s p (root :: above)) {n : Slot}
    (hn : n ∈ above) : (s.campaign n).origin = .child := by
  obtain ⟨i, hi⟩ := List.mem_iff_getElem?.1 hn
  have hi' : (root :: above)[i + 1]? = some n := hi
  obtain ⟨hlt, -⟩ := List.getElem?_eq_some_iff.1 hi'
  exact (h.link i ((root :: above)[i]'(by omega)) n (List.getElem?_eq_getElem _) hi').2.2

/-- A slot above a chain's root is no order's. -/
theorem ChainOk.tail_not_claimed {p : Pair} {root : Slot} {above : List Slot} (h : ChainOk s p (root :: above)) (ho : OrdersOk s)
    {n : Slot} (hn : n ∈ above) : ¬ s.claimed n := by
  refine ho.not_claimed (fun e => ?_) (.inr (.inr ?_))
  · have := Campaign.working_iff.1 (h.working (List.mem_cons_of_mem _ hn))
    rw [e] at this
    simp at this
  · rw [h.child_of_mem_tail hn]; nofun

/-! ## The parts under a change of the state -/

theorem Campaign.standing_inj {c d : Campaign} (h : c.standing = d.standing) :
    c.pair = d.pair ∧ c.depth = d.depth ∧ c.state = d.state ∧ c.parent = d.parent ∧ c.origin = d.origin ∧ c.kind = d.kind := by
  obtain ⟨h1, h2, h3, h4, h5, h6⟩ := Standing.mk.inj h
  exact ⟨h1, h2, h3, h4, h5, h6⟩

theorem Campaign.working_congr {c d : Campaign} (h : c.standing = d.standing) : c.working ↔ d.working := by
  obtain ⟨-, -, hs, -⟩ := Campaign.standing_inj h
  rw [Campaign.working, Campaign.working, hs]

theorem ChainOk.congr {p : Pair} {l : List Slot} (h : ChainOk s p l)
    (ht : ∀ n ∈ l, (t.campaign n).standing = (s.campaign n).standing) : ChainOk t p l := by
  have mem : ∀ {i : Nat} {n}, l[i]? = some n → n ∈ l := fun hi => List.mem_iff_getElem?.2 ⟨_, hi⟩
  refine ⟨fun n hn => ?_, h.once, fun i n hi => ?_, fun n hn => ?_, fun n hn => ?_, fun i m n hm hn => ?_⟩
  · obtain ⟨hp, -⟩ := Campaign.standing_inj (ht n hn)
    rw [hp, h.pair n hn]
  · obtain ⟨-, hd, -⟩ := Campaign.standing_inj (ht n (mem hi))
    rw [hd]
    exact h.depth i n hi
  · obtain ⟨-, -, hs, -⟩ := Campaign.standing_inj (ht n (List.mem_of_getLast? hn))
    rw [hs]
    exact h.top n hn
  · obtain ⟨-, -, hs, hp, -⟩ := Campaign.standing_inj (ht n (List.mem_of_head? hn))
    rw [hs, hp]
    exact h.root n hn
  · obtain ⟨-, -, hs, -⟩ := Campaign.standing_inj (ht m (mem hm))
    obtain ⟨-, -, -, hp, ho, -⟩ := Campaign.standing_inj (ht n (mem hn))
    rw [hs, hp, ho]
    exact h.link i m n hm hn

/-- The chain of one pair is replaced: it is as it has to be, working slots off it stand as they did, and no other slot works. -/
theorem ChainsOk.replace (h : ChainsOk s) {p : Pair} (hchain : ∀ q, q ≠ p → t.chain q = s.chain q) (hp : ChainOk t p (t.chain p))
    (hkept : ∀ n, (s.campaign n).working → n ∉ s.chain p → (t.campaign n).standing = (s.campaign n).standing)
    (hidle : ∀ n, n ∉ t.chain p → (n ∈ s.chain p ∨ ¬ (s.campaign n).working) → ¬ (t.campaign n).working) : ChainsOk t := by
  have off : ∀ {q n}, q ≠ p → n ∈ s.chain q → n ∉ s.chain p := fun hq hn hp =>
    hq ((h.mem_iff.1 hn).2.symm.trans (h.mem_iff.1 hp).2)
  refine ⟨fun q => ?_, fun n hw => ?_⟩
  · by_cases hq : q = p
    · rw [hq]; exact hp
    · rw [hchain q hq]
      exact (h.chain q).congr (fun n hn => hkept n (h.mem_iff.1 hn).1 (off hq hn))
  · by_cases hn : n ∈ t.chain p
    · rw [hp.pair n hn]; exact hn
    · have hidle := fun x => hidle n hn x hw
      have hs : (s.campaign n).working := by_contra (fun x => hidle (.inr x))
      have hnp : n ∉ s.chain p := fun x => hidle (.inl x)
      obtain ⟨hpair, -⟩ := Campaign.standing_inj (hkept n hs hnp)
      have hmem := h.onChain n hs
      have hq : (s.campaign n).pair ≠ p := fun e => hnp (e ▸ hmem)
      rw [hpair, hchain _ hq]
      exact hmem

/-- The chains stay while working slots stand as they did and no other slot works. -/
theorem ChainsOk.frame (h : ChainsOk s) (hchain : ∀ p, t.chain p = s.chain p)
    (hkept : ∀ n, (s.campaign n).working → (t.campaign n).standing = (s.campaign n).standing)
    (hidle : ∀ n, ¬ (s.campaign n).working → ¬ (t.campaign n).working) : ChainsOk t := by
  refine h.replace (p := 0) (fun q _ => hchain q) ?_ (fun n hw _ => hkept n hw) (fun n hn hx => ?_)
  · rw [hchain]
    exact (h.chain 0).congr (fun n hn => hkept n (h.mem_iff.1 hn).1)
  · rw [hchain] at hn
    exact hidle n (hx.resolve_left hn)

theorem DemandOk.frame (h : DemandOk s) (hdemand : t.cen.demand = s.cen.demand)
    (hqueued : ∀ n, (t.campaign n).state = .queued ↔ (s.campaign n).state = .queued) : DemandOk t := by
  refine ⟨hdemand ▸ h.once, fun n => ?_⟩
  rw [hdemand, hqueued]
  exact h.queued n

/-- A slot leaves the demand queue. -/
theorem DemandOk.drop (h : DemandOk s) {n : Slot} (hdemand : t.cen.demand = s.cen.demand.filter (fun m => !(m == n)))
    (hqueued : ∀ m, m ≠ n → ((t.campaign m).state = .queued ↔ (s.campaign m).state = .queued))
    (hn : (t.campaign n).state ≠ .queued) : DemandOk t := by
  refine ⟨hdemand ▸ h.once.filter _, fun m => ?_⟩
  rw [hdemand, List.mem_filter]
  by_cases hm : m = n
  · subst hm; simp [hn]
  · rw [hqueued m hm, h.queued m]; simp [hm]

/-- The orders stay while reserved slots stand as they did, or go on as confirms. -/
theorem OrdersOk.frame (h : OrdersOk s) (hacceptance : t.isu.acceptance = s.isu.acceptance)
    (horder : ∀ k, (t.order k).map Order.standing = (s.order k).map Order.standing)
    (hholder : ∀ c k, (t.channel c).holder = some (.order k) → (s.channel c).holder = some (.order k))
    (hreports : ∀ k, Origin.order k ∈ t.clk.reports → Origin.order k ∈ s.clk.reports)
    (hslot : ∀ n, s.claimed n → (t.campaign n).standing = (s.campaign n).standing ∨ s.slotConfirms n ∧ t.slotConfirms n) :
    OrdersOk t := by
  have hback : ∀ {k o}, t.order k = some o →
      ∃ x, s.order k = some x ∧ x.state = o.state ∧ x.reserved = o.reserved ∧ x.channel = o.channel := fun {k o} ho => by
    have hk := horder k
    rw [ho] at hk
    obtain ⟨x, hx, e⟩ := Option.map_eq_some_iff.1 hk.symm
    obtain ⟨h1, h2, h3⟩ := OrderStanding.mk.inj e
    exact ⟨x, hx, h1, h2, h3⟩
  have hforth : ∀ {k x}, s.order k = some x →
      ∃ o, t.order k = some o ∧ o.state = x.state ∧ o.channel = x.channel := fun {k x} hx => by
    have hk := horder k
    rw [hx] at hk
    obtain ⟨o, ho, e⟩ := Option.map_eq_some_iff.1 hk
    obtain ⟨h1, -, h3⟩ := OrderStanding.mk.inj e
    exact ⟨o, ho, h1, h3⟩
  have hdone : ∀ {x o : Order}, x.state = o.state → (x.done ↔ o.done) := fun e => by rw [Order.done, Order.done, e]
  refine ⟨hacceptance ▸ h.acceptedOnce, fun k => ?_, fun k o ho hb => ?_, fun k o ho hc => ?_, fun j k o x hjk ho hx hod hxd => ?_,
    fun c k hk => ?_, fun k hk => ?_⟩
  · rw [hacceptance, h.acceptedTaken k, ne_eq, ne_eq, ← Option.map_eq_none_iff (f := Order.standing), ← horder k,
      Option.map_eq_none_iff]
  · obtain ⟨x, hx, hs, hr, -⟩ := hback ho
    have hxb : x.inBurst := by rw [Order.inBurst, hs]; exact hb
    have hawaits := h.burstSlot k x hx hxb
    rcases hslot o.reserved ⟨k, x, hx, Order.not_done_of_inBurst hxb, hr⟩ with e | ⟨hcs, -⟩
    · obtain ⟨-, -, hst, -, -, hki⟩ := Campaign.standing_inj e
      rw [State.slotAwaits, hst, hki, ← hr]
      exact hawaits
    · rw [hr] at hawaits; rw [State.slotConfirms, hawaits.2] at hcs; cases hcs.1
  · obtain ⟨x, hx, hs, hr, -⟩ := hback ho
    have hxc : x.state = .confirming := hs.trans hc
    have hconfirms := h.confirmSlot k x hx hxc
    rcases hslot o.reserved ⟨k, x, hx, Order.done_iff.2 (.inr hxc), hr⟩ with e | ⟨-, hct⟩
    · obtain ⟨-, -, hst, -, hor, hki⟩ := Campaign.standing_inj e
      rw [State.slotConfirms, hst, hor, hki, ← hr]
      exact hconfirms
    · exact hct
  · obtain ⟨o', ho', hs, hr, -⟩ := hback ho
    obtain ⟨x', hx', hs', hr', -⟩ := hback hx
    rw [← hr, ← hr']
    exact h.ownSlot j k o' x' hjk ho' hx' (fun d => hod ((hdone hs).1 d)) (fun d => hxd ((hdone hs').1 d))
  · obtain ⟨x, hx, hch, hair⟩ := h.holderNamed c k (hholder c k hk)
    obtain ⟨o, ho, hs, he⟩ := hforth hx
    exact ⟨o, ho, he.trans hch, by rw [Order.onAir, hs]; exact hair⟩
  · obtain ⟨x, hx, hd⟩ := h.reportedDone k (hreports k hk)
    obtain ⟨o, ho, hs, -⟩ := hforth hx
    exact ⟨o, ho, (hdone hs).2 hd⟩

/-- One order's record changes: it stays with its slot while it is not DONE, and the other orders' slots stand as they did. -/
theorem OrdersOk.update (h : OrdersOk s) {k : OrderNo} {x o : Order} (hx : s.order k = some x)
    (hacceptance : t.isu.acceptance = s.isu.acceptance)
    (hk : t.order k = some o) (horder : ∀ j, j ≠ k → t.order j = s.order j)
    (hlive : ¬ o.done → ¬ x.done ∧ o.reserved = x.reserved)
    (hburst : o.inBurst → t.slotAwaits o.reserved) (hconfirm : o.state = .confirming → t.slotConfirms o.reserved)
    (hslot : ∀ j y, j ≠ k → s.order j = some y → ¬ y.done → (t.campaign y.reserved).standing = (s.campaign y.reserved).standing)
    (hholder : ∀ c j, j ≠ k → (t.channel c).holder = some (.order j) → (s.channel c).holder = some (.order j))
    (hheld : ∀ c, (t.channel c).holder = some (.order k) → o.channel = some c ∧ o.onAir)
    (hreports : ∀ j, j ≠ k → Origin.order j ∈ t.clk.reports → Origin.order j ∈ s.clk.reports)
    (hreported : Origin.order k ∈ t.clk.reports → Origin.order k ∈ s.clk.reports ∨ o.done) : OrdersOk t := by
  have hother : ∀ {j y}, j ≠ k → t.order j = some y → s.order j = some y := fun hj hy => by rw [← horder _ hj]; exact hy
  refine ⟨hacceptance ▸ h.acceptedOnce, fun j => ?_, fun j y hy hb => ?_, fun j y hy hc => ?_,
    fun i j y z hij hy hz hyd hzd => ?_, fun c j hj => ?_, fun j hj => ?_⟩
  · rw [hacceptance, h.acceptedTaken j]
    by_cases hjk : j = k
    · subst hjk; simp [hx, hk]
    · rw [horder j hjk]
  · by_cases hjk : j = k
    · subst hjk; rw [hk] at hy; cases hy; exact hburst hb
    · have hy' := hother hjk hy
      obtain ⟨-, -, hst, -, -, hki⟩ := Campaign.standing_inj (hslot j y hjk hy' (Order.not_done_of_inBurst hb))
      rw [State.slotAwaits, hst, hki]
      exact h.burstSlot j y hy' hb
  · by_cases hjk : j = k
    · subst hjk; rw [hk] at hy; cases hy; exact hconfirm hc
    · have hy' := hother hjk hy
      obtain ⟨-, -, hst, -, hor, hki⟩ := Campaign.standing_inj (hslot j y hjk hy' (Order.done_iff.2 (.inr hc)))
      rw [State.slotConfirms, hst, hor, hki]
      exact h.confirmSlot j y hy' hc
  · by_cases hik : i = k
    · subst hik
      rw [hk] at hy; cases hy
      obtain ⟨hxd, e⟩ := hlive hyd
      rw [e]
      exact h.ownSlot i j x z hij hx (hother (Ne.symm hij) hz) hxd hzd
    · by_cases hjk : j = k
      · subst hjk
        rw [hk] at hz; cases hz
        obtain ⟨hxd, e⟩ := hlive hzd
        rw [e]
        exact h.ownSlot i j y x hij (hother hik hy) hx hyd hxd
      · exact h.ownSlot i j y z hij (hother hik hy) (hother hjk hz) hyd hzd
  · by_cases hjk : j = k
    · subst hjk
      exact ⟨o, hk, hheld c hj⟩
    · obtain ⟨y, hy, hy'⟩ := h.holderNamed c j (hholder c j hjk hj)
      exact ⟨y, (horder j hjk).trans hy, hy'⟩
  · by_cases hjk : j = k
    · subst hjk
      refine ⟨o, hk, by_contra (fun hd => ?_)⟩
      obtain ⟨y, hy, hyd⟩ := h.reportedDone j ((hreported hj).resolve_right hd)
      rw [hx] at hy; cases hy
      exact (hlive hd).1 hyd
    · obtain ⟨y, hy, hyd⟩ := h.reportedDone j (hreports j hjk hj)
      exact ⟨y, (horder j hjk).trans hy, hyd⟩

/-- The ledger holds of every state of one ledger. -/
theorem State.sameLedger.ledger (h : s.sameLedger t) (hs : Ledger s) : Ledger t := by
  obtain ⟨hc, hd, ho⟩ := ledger_iff.1 hs
  refine ledger_iff.2 ⟨hc.frame h.chain (fun n _ => h.standing n) (fun n hn hw => hn ((Campaign.working_congr (h.standing n)).1 hw)),
    hd.frame h.demand (fun n => ?_), ho.frame h.acceptance h.order h.holder h.reports (fun n _ => .inl (h.standing n))⟩
  obtain ⟨-, -, e, -⟩ := Campaign.standing_inj (h.standing n)
  rw [e]

/-- Nothing is on a chain, in a queue or ordered: the ledger holds. -/
theorem ledger_of_empty (hchain : ∀ p, s.chain p = []) (hslot : ∀ n, s.campaign n = {}) (hdemand : s.cen.demand = [])
    (hacceptance : s.isu.acceptance = []) (horder : ∀ k, s.order k = none) (hholder : ∀ c, (s.channel c).holder = none)
    (hreports : ∀ k, Origin.order k ∉ s.clk.reports) : Ledger s := by
  refine ledger_iff.2 ⟨⟨fun p => ?_, fun n hw => ?_⟩, ⟨by simp [hdemand], fun n => by simp [hdemand, hslot]⟩,
    ⟨by simp [hacceptance], fun k => by simp [hacceptance, horder], fun k o ho => ?_, fun k o ho => ?_, fun j k o x _ ho => ?_,
      fun c k hk => ?_, fun k hk => absurd hk (hreports k)⟩⟩
  · rw [hchain]
    exact ⟨nofun, List.nodup_nil, nofun, nofun, nofun, nofun⟩
  · rw [hslot] at hw
    exact absurd hw (by simp [Campaign.working])
  · rw [horder] at ho; cases ho
  · rw [horder] at ho; cases ho
  · rw [horder] at ho; cases ho
  · rw [hholder] at hk; cases hk

end Sys2Proof.Machine
end

section
/-! The step's shape, the line events, the answer table, and the invariants at reset. -/

namespace Sys2Proof.Machine

variable {s t : State}

/-- Settles O1. -/
theorem stepRunsTheFrontCommand : Obligations.StepRunsTheFrontCommand := by
  refine ⟨fun _ _ _ => rfl, fun s hs => ?_⟩
  unfold step
  rw [hs]

/-- Writing the assembler's own value back changes nothing. -/
theorem State.setAssembler_self {a : Assembler} (h : s.clk.assembler = a) : s.setAssembler a = s := by
  subst h; rfl

/-- Settles O4: the gap in HUNTING finds nothing to discard. -/
theorem lineEventsDiscardThePartialFrame : Obligations.LineEventsDiscardThePartialFrame := by
  refine fun s => ⟨rfl, ?_, fun hmark => ?_, rfl⟩
  · show execInterCharacterGap s = .next (s.setAssembler .hunting)
    unfold execInterCharacterGap
    split
    · rename_i h; rw [State.setAssembler_self h]
    · rfl
    · rfl
  · show execLineBreak s = _
    unfold execLineBreak
    rw [hmark]
    rfl

/-! ## The answer window (R142) -/

/-- The bits before a list's first 0, given where it stands. -/
theorem takeWhile_dropWhile_of_first_zero {w : List Bool} {i : Nat} (hones : ∀ j, j < i → w[j]? = some true)
    (hzero : w[i]? = some false) : (w.takeWhile id).length = i ∧ w.dropWhile id = w.drop i := by
  induction i generalizing w with
  | zero =>
    cases w with
    | nil => cases hzero
    | cons b w => cases hzero; exact ⟨rfl, rfl⟩
  | succ i ih =>
    cases w with
    | nil => cases hzero
    | cons b w =>
      cases hones 0 (Nat.succ_pos i)
      obtain ⟨htake, hdrop⟩ := ih (w := w) (fun j hj => hones (j + 1) (Nat.succ_lt_succ hj)) hzero
      exact ⟨congrArg (· + 1) htake, hdrop⟩

/-- Ones at the first places stand before any 0. -/
theorem le_length_takeWhile_of_ones {w : List Bool} {i : Nat} (hones : ∀ j, j < i → w[j]? = some true) :
    i ≤ (w.takeWhile id).length := by
  induction i generalizing w with
  | zero => exact Nat.zero_le _
  | succ i ih =>
    cases w with
    | nil => cases hones 0 (Nat.succ_pos i)
    | cons b w =>
      cases hones 0 (Nat.succ_pos i)
      exact Nat.succ_le_succ (ih (w := w) (fun j hj => hones (j + 1) (Nat.succ_lt_succ hj)))

/-- Settles O52: the window's first 0 decides which eight bits are read. -/
theorem answersDecodeByTheTable : Obligations.AnswersDecodeByTheTable := by
  refine fun w _ => ⟨fun hones => if_pos (le_length_takeWhile_of_ones hones), fun i hi hones hzero => ?_⟩
  obtain ⟨hlen, hdrop⟩ := takeWhile_dropWhile_of_first_zero hones hzero
  have hdecode : decodeWindow w
      = if (w.drop i).take 8 = [false, true, false, false, true, true, false, true] then .accept
        else if (w.drop i).take 8 = [false, true, true, false, false, true, true, false] then .refuse else .garbled := by
    unfold decodeWindow answerBits
    rw [if_neg (by omega), hdrop]
  rw [hdecode]
  refine ⟨fun h => if_pos h, fun h => ?_, fun ha hr => by rw [if_neg ha, if_neg hr]⟩
  rw [if_neg (by rw [h]; decide), if_pos h]

/-! ## Reset -/

/-- Settles O60: at reset the tables and queues are empty and every record is free. -/
theorem resetSatisfiesTheInvariants : Obligations.ResetSatisfiesTheInvariants :=
  ⟨⟨Table.wf_nil _, Table.wf_nil _, Table.wf_nil _, Table.wf_nil _, Table.wf_nil _⟩, plantCoherent_of_none (fun _ => rfl),
    pairsApart_of_replicate rfl, linkCoherent_of_reset rfl rfl rfl rfl, settingsInRange_reset, ⟨Nat.zero_le _, Nat.zero_le _⟩,
    serviceWhole_afterReset 5000 rfl, ⟨0, rfl⟩, extentsDisjoint_nil,
    ledger_of_empty (fun p => by revert p; decide) (fun n => by revert n; decide) rfl rfl (fun k => by revert k; decide)
      (fun c => by revert c; decide) (fun _ => by simp [State.reset, Link.cold])⟩

end Sys2Proof.Machine
end

section
/-! The ledger under the operations on orders: a burst's steps, its end, the end of an order, its confirm, its acceptance and its
report. -/

namespace Sys2Proof.Machine

variable {s t : State}

theorem ChainsOk.of_cen (h : ChainsOk s) (e : t.cen = s.cen) : ChainsOk t := by
  have hcampaign : ∀ n, t.campaign n = s.campaign n := fun n => by rw [State.campaign, State.campaign, e]
  exact h.frame (fun p => by rw [State.chain, State.chain, e]) (fun n _ => by rw [hcampaign]) (fun n hn => by rw [hcampaign]; exact hn)

theorem DemandOk.of_cen (h : DemandOk s) (e : t.cen = s.cen) : DemandOk t :=
  h.frame (by rw [e]) (fun n => by rw [State.campaign, State.campaign, e])

/-- A slot that is neither working nor queued takes another such record: chains and demand queue stay. -/
theorem ChainsOk.setCampaign (h : ChainsOk s) {n : Slot} {c : Campaign} (hn : ¬ (s.campaign n).working) (hc : ¬ c.working) :
    ChainsOk (s.setCampaign n c) := by
  refine h.frame (fun _ => rfl) (fun m hm => ?_) (fun m hm => ?_)
  · rw [State.campaign_setCampaign, if_neg (fun e : m = n => hn (e ▸ hm))]
  · rw [State.campaign_setCampaign]
    split
    · exact hc
    · exact hm

theorem DemandOk.setCampaign (h : DemandOk s) {n : Slot} {c : Campaign} (hn : (s.campaign n).state ≠ .queued)
    (hc : c.state ≠ .queued) : DemandOk (s.setCampaign n c) := by
  refine h.frame rfl (fun m => ?_)
  rw [State.campaign_setCampaign]
  split
  · rename_i hm; rw [hm]; exact iff_of_false hc hn
  · exact Iff.rfl

theorem State.not_working_of_reserved {n : Slot} (h : (s.campaign n).state = .reserved) : ¬ (s.campaign n).working := by
  rw [Campaign.working_iff, h]; simp

theorem not_working_default : ¬ ({} : Campaign).working := by simp [Campaign.working]

/-! ## Steps of a burst -/

/-- An order in its burst takes another record of the burst with its slot (R134). -/
theorem Ledger.setOrder (h : Ledger s) {k : OrderNo} {x o : Order} (hx : s.order k = some x) (hxb : x.inBurst) (ho : o.inBurst)
    (hr : o.reserved = x.reserved) (hheld : ∀ c, (s.channel c).holder = some (.order k) → o.channel = some c ∧ o.onAir) :
    Ledger (s.setOrder k (some o)) := by
  obtain ⟨hc, hd, hord⟩ := ledger_iff.1 h
  refine ledger_iff.2 ⟨hc.of_cen rfl, hd.of_cen rfl, hord.update hx rfl (State.order_setOrder.trans (if_pos rfl))
    (fun j hj => State.order_setOrder.trans (if_neg hj)) (fun _ => ⟨Order.not_done_of_inBurst hxb, hr⟩) (fun _ => ?_)
    (fun e => ?_) (fun _ _ _ _ _ => rfl) (fun _ _ _ => id) hheld (fun _ _ => id) .inl⟩
  · rw [hr]; exact hord.burstSlot k x hx hxb
  · rw [Order.inBurst, e] at ho; simp at ho

/-- A channel is given to an order that names it (R136). -/
theorem Ledger.setChannel (h : Ledger s) {k : OrderNo} {o : Order} {c : Chan} {ch : Channel} (ho : s.order k = some o)
    (hchannel : o.channel = some c) (hair : o.onAir) (hholder : ch.holder = some (.order k)) : Ledger (s.setChannel c ch) := by
  obtain ⟨hc, hd, hord⟩ := ledger_iff.1 h
  refine ledger_iff.2 ⟨hc.of_cen rfl, hd.of_cen rfl, { hord with holderNamed := fun d j hj => ?_ }⟩
  rw [State.channel_setChannel] at hj
  split at hj
  · rename_i hdc
    rw [hholder] at hj
    cases hj
    exact ⟨o, ho, hdc ▸ hchannel, hair⟩
  · exact hord.holderNamed d j hj

/-- A channel's order, and that no other channel is its (R134). -/
theorem Ledger.heldOrder (h : Ledger s) {c : Chan} {k : OrderNo} (hk : (s.channel c).holder = some (.order k)) :
    ∃ o, s.order k = some o ∧ o.channel = some c ∧ o.onAir ∧ ∀ d, (s.channel d).holder = some (.order k) → d = c := by
  obtain ⟨o, ho, hc, hair⟩ := h.holderNamed c k hk
  refine ⟨o, ho, hc, hair, fun d hd => ?_⟩
  obtain ⟨o', ho', hd', -⟩ := h.holderNamed d k hd
  rw [ho] at ho'
  cases ho'
  rw [hc] at hd'
  cases hd'
  rfl

theorem State.coast_holder (s : State) (c d : Chan) :
    ((s.coast c).channel d).holder = if d = c then none else (s.channel d).holder := by
  unfold State.coast
  rw [State.channel_setChannel]
  split <;> rfl

theorem State.zeroChainTop_frame (s : State) (p : Pair) :
    (s.zeroChainTop p).pch = s.pch ∧ (s.zeroChainTop p).isu = s.isu ∧ (s.zeroChainTop p).clk = s.clk
      ∧ (s.zeroChainTop p).lpt = s.lpt := by
  unfold State.zeroChainTop
  split <;> exact ⟨rfl, rfl, rfl, rfl⟩

theorem State.endBurst_channel (s : State) (c : Chan) (p : Pair) (d : Chan) : (s.endBurst c p).channel d = (s.coast c).channel d := by
  unfold State.endBurst State.channel
  rw [((s.coast c).zeroChainTop_frame p).1]

theorem State.endBurst_order (s : State) (c : Chan) (p : Pair) (k : OrderNo) : (s.endBurst c p).order k = s.order k := by
  unfold State.endBurst State.order
  rw [((s.coast c).zeroChainTop_frame p).2.1]
  rfl

/-- A burst's channel is given back, the record naming none: the order is in its burst still, and no channel is its (R145). -/
theorem Ledger.endBurst (h : Ledger s) {k : OrderNo} {x o : Order} {c : Chan} {p : Pair} (hx : s.order k = some x)
    (hk : (s.channel c).holder = some (.order k)) (ho : o.inBurst) (hr : o.reserved = x.reserved) :
    Ledger ((s.setOrder k (some o)).endBurst c p) ∧ ((s.setOrder k (some o)).endBurst c p).order k = some o
      ∧ ∀ d, (((s.setOrder k (some o)).endBurst c p).channel d).holder ≠ some (.order k) := by
  obtain ⟨y, hy, -, hair, hone⟩ := h.heldOrder hk
  rw [hx] at hy
  cases hy
  have hfree : ∀ d, ((s.endBurst c p).channel d).holder ≠ some (.order k) := fun d hd => by
    rw [State.endBurst_channel, State.coast_holder] at hd
    split at hd
    · cases hd
    · rename_i hdc; exact hdc (hone d hd)
  have hburst : Ledger (s.endBurst c p) := (State.sameLedger.refl s).endBurst.ledger h
  have hset : Ledger ((s.endBurst c p).setOrder k (some o)) :=
    hburst.setOrder (by rw [State.endBurst_order, hx]) (Order.inBurst_of_onAir hair) ho hr (fun d hd => absurd hd (hfree d))
  have hchannel : ∀ d, ((s.setOrder k (some o)).endBurst c p).channel d = (s.endBurst c p).channel d := fun d => by
    rw [State.endBurst_channel, State.endBurst_channel]; rfl
  refine ⟨?_, ?_, fun d => by rw [hchannel]; exact hfree d⟩
  · refine State.sameLedger.ledger ?_ hset
    have hswap : (s.setOrder k (some o)).endBurst c p = (s.endBurst c p).setOrder k (some o) := by
      unfold State.endBurst State.zeroChainTop State.chainTop
      show (match (s.chain p).getLast? with | none => _ | some n => _)
        = (match (s.chain p).getLast? with | none => _ | some n => _ : State).setOrder k (some o)
      cases (s.chain p).getLast? <;> rfl
    rw [hswap]
    exact .refl _
  · rw [State.endBurst_order, State.order_setOrder, if_pos rfl]

/-! ## The end of an order (R153) -/

theorem mem_joined {o : Origin} {q l : List Origin} : o ∈ joined q l ↔ o ∈ q ∨ o ∈ l := by
  induction l generalizing q with
  | nil => simp [joined]
  | cons x l ih =>
    rw [joined, ih, List.mem_cons]
    split
    · rename_i hx
      exact ⟨fun h => h.imp_right .inr, fun h => h.elim .inl (fun y => y.elim (fun e => .inl (e ▸ hx)) .inr)⟩
    · rw [List.mem_append, List.mem_singleton, or_assoc]

section
variable (k : OrderNo) (o : Order) (x : OrderState) (r : Option Reason) (c : Condition)

theorem State.endOrder_cen (s : State) : (s.endOrder k o x r c).cen = s.cen := by
  obtain ⟨_, _, e, -⟩ := s.endOrder_eq k o x r c
  rw [e]

theorem State.endOrder_pch (s : State) : (s.endOrder k o x r c).pch = s.pch := by
  obtain ⟨_, _, e, -⟩ := s.endOrder_eq k o x r c
  rw [e]

theorem State.endOrder_acceptance (s : State) : (s.endOrder k o x r c).isu.acceptance = s.isu.acceptance := by
  obtain ⟨_, _, e, -⟩ := s.endOrder_eq k o x r c
  rw [e]

theorem State.endOrder_order (s : State) (j : OrderNo) :
    (s.endOrder k o x r c).order j = if j = k then some { o with state := x, reason := r } else s.order j := by
  obtain ⟨_, _, e, -⟩ := s.endOrder_eq k o x r c
  rw [e]
  exact vector_get_set _ _ _ _

theorem State.endOrder_reports (s : State) {j : OrderNo} (hj : j ≠ k) (h : Origin.order j ∈ (s.endOrder k o x r c).clk.reports) :
    Origin.order j ∈ s.clk.reports := by
  obtain ⟨_, _, e, -⟩ := s.endOrder_eq k o x r c
  rw [e] at h
  rcases mem_joined.1 h with h | h
  · exact h
  · rcases List.mem_append.1 h with h | h
    · split at h
      · cases h
      · cases List.mem_singleton.1 h
    · cases List.mem_singleton.1 h
      exact absurd rfl hj

end

/-- An order ends with its slot FREE, in a state that keeps the order part of the ledger but for that order (R146, R147, R151). -/
theorem OrdersOk.endOrder {v : State} (h : OrdersOk s) {k : OrderNo} {x o : Order} {st : OrderState} {r : Option Reason}
    {c : Condition} {n : Slot} (hx : s.order k = some x) (hxd : ¬ x.done) (hn : n = x.reserved)
    (hst : ({ o with state := st, reason := r } : Order).done) (hacceptance : v.isu.acceptance = s.isu.acceptance)
    (horder : ∀ j, j ≠ k → v.order j = s.order j)
    (hslot : ∀ j y, j ≠ k → s.order j = some y → ¬ y.done → (v.campaign y.reserved).standing = (s.campaign y.reserved).standing)
    (hholder : ∀ d j, (v.channel d).holder = some (.order j) → j ≠ k ∧ (s.channel d).holder = some (.order j))
    (hreports : ∀ j, Origin.order j ∈ v.clk.reports → Origin.order j ∈ s.clk.reports) :
    OrdersOk ((v.freeUp n).endOrder k o st r c) := by
  have hchannel : ∀ d, ((v.freeUp n).endOrder k o st r c).channel d = v.channel d := fun d => by
    unfold State.channel; rw [State.endOrder_pch]; rfl
  refine h.update hx (o := { o with state := st, reason := r }) ?_ ?_ (fun j hj => ?_) (fun hd => absurd hst hd)
    (fun hb => absurd hst (Order.not_done_of_inBurst hb)) (fun hc => absurd hst (Order.done_iff.2 (.inr hc)))
    (fun j y hj hy hyd => ?_) (fun d j _ hd => ?_) (fun d hd => ?_) (fun j hj hm => ?_) (fun _ => .inr hst)
  · rw [State.endOrder_acceptance]; exact hacceptance
  · rw [State.endOrder_order, if_pos rfl]
  · rw [State.endOrder_order, if_neg hj]; exact horder j hj
  · have hne : y.reserved ≠ n := hn ▸ h.ownSlot j k y x hj hy hx hyd hxd
    rw [State.campaign, State.endOrder_cen]
    show ((v.setCampaign n {}).campaign y.reserved).standing = _
    rw [State.campaign_setCampaign, if_neg hne]
    exact hslot j y hj hy hyd
  · rw [hchannel] at hd
    exact (hholder d j hd).2
  · rw [hchannel] at hd
    exact absurd rfl (hholder d k hd).1
  · exact hreports j (List.mem_of_mem_filter (State.endOrder_reports k o st r c (v.freeUp n) hj hm))

/-- An order in its burst that holds no channel ends, its slot FREE (R146, R147, R150). -/
theorem Ledger.endOrder (h : Ledger s) {k : OrderNo} {x o : Order} {st : OrderState} {r : Option Reason} {c : Condition}
    {n : Slot} (hx : s.order k = some x) (hb : x.inBurst) (hn : n = x.reserved)
    (hfree : ∀ d, (s.channel d).holder ≠ some (.order k)) (hst : ({ o with state := st, reason := r } : Order).done) :
    Ledger ((s.freeUp n).endOrder k o st r c) := by
  obtain ⟨hc, hd, hord⟩ := ledger_iff.1 h
  have hslot : (s.campaign n).state = .reserved := hn ▸ (hord.burstSlot k x hx hb).1
  refine ledger_iff.2 ⟨ChainsOk.of_cen (s := s.setCampaign n {}) (hc.setCampaign (State.not_working_of_reserved hslot)
      not_working_default) (by rw [State.endOrder_cen]; rfl),
    DemandOk.of_cen (s := s.setCampaign n {}) (hd.setCampaign (by rw [hslot]; nofun) nofun) (by rw [State.endOrder_cen]; rfl),
    hord.endOrder hx (Order.not_done_of_inBurst hb) hn hst rfl (fun _ _ => rfl) (fun _ _ _ _ _ => rfl)
      (fun d j hj => ⟨fun e => hfree d (e ▸ hj), hj⟩) (fun _ => id)⟩

/-! ## The confirm (R150) -/

/-- The reserved slot becomes the confirm, and the order CONFIRMING (R150). -/
theorem Ledger.confirm (h : Ledger s) {k : OrderNo} {x o : Order} {c : Campaign} (hx : s.order k = some x) (hb : x.inBurst)
    (hfree : ∀ d, (s.channel d).holder ≠ some (.order k)) (ho : o.state = .confirming) (hr : o.reserved = x.reserved)
    (hc : c.kind = some .confirm ∧ c.origin = .order ∧ c.state = .reserved) :
    Ledger ((s.setOrder k (some o)).setCampaign o.reserved c) := by
  obtain ⟨hchains, hd, hord⟩ := ledger_iff.1 h
  obtain ⟨hkind, horigin, hstate⟩ := hc
  have hslot : (s.campaign o.reserved).state = .reserved := hr ▸ (hord.burstSlot k x hx hb).1
  have hxd := Order.not_done_of_inBurst hb
  have hcw : ¬ c.working := by rw [Campaign.working_iff, hstate]; simp
  refine ledger_iff.2 ⟨ChainsOk.of_cen (s := s.setCampaign o.reserved c)
      (hchains.setCampaign (State.not_working_of_reserved hslot) hcw) rfl,
    DemandOk.of_cen (s := s.setCampaign o.reserved c) (hd.setCampaign (by rw [hslot]; nofun) (by rw [hstate]; nofun)) rfl,
    hord.update hx rfl (State.order_setOrder.trans (if_pos rfl)) (fun j hj => State.order_setOrder.trans (if_neg hj))
      (fun _ => ⟨hxd, hr⟩) (fun e => ?_) (fun _ => ?_) (fun j y hj hy hyd => ?_) (fun _ _ _ => id) (fun d hd => absurd hd (hfree d))
      (fun _ _ => id) .inl⟩
  · rw [Order.inBurst, ho] at e; simp at e
  · have e : ((s.setOrder k (some o)).setCampaign o.reserved c).campaign o.reserved = c := by
      rw [State.campaign_setCampaign, if_pos rfl]
    rw [State.slotConfirms, e]
    exact ⟨hkind, horigin, .inl hstate⟩
  · have hne : y.reserved ≠ o.reserved := hr ▸ hord.ownSlot j k y x hj hy hx hyd hxd
    rw [State.campaign_setCampaign, if_neg hne]
    rfl

/-! ## Orders taken and reported -/

/-- A new order takes a free record and reserves a FREE slot (R132). -/
theorem Ledger.accept (h : Ledger s) {k : OrderNo} {o : Order} (hk : s.order k = none)
    (hn : (s.campaign o.reserved).state = .free) (hs : o.state = .waitingChannel) :
    Ledger (((s.setOrder k (some o)).setAcceptance (s.isu.acceptance ++ [k])).setCampaign o.reserved { state := .reserved }) := by
  obtain ⟨hc, hd, hord⟩ := ledger_iff.1 h
  have hnw : ¬ (s.campaign o.reserved).working := by rw [Campaign.working_iff, hn]; simp
  have hunclaimed : ∀ j y, s.order j = some y → ¬ y.done → y.reserved ≠ o.reserved := fun j y hy hyd e => by
    have := hord.state_of_claimed ⟨j, y, hy, hyd, rfl⟩
    rw [e, hn] at this
    simp at this
  generalize hv : ((s.setOrder k (some o)).setAcceptance (s.isu.acceptance ++ [k])).setCampaign o.reserved { state := .reserved } = v
  have horder : ∀ j, v.order j = if j = k then some o else s.order j := fun j => by
    rw [← hv]; exact State.order_setOrder
  have hcampaign : ∀ m, v.campaign m = if m = o.reserved then { state := .reserved } else s.campaign m := fun m => by
    rw [← hv]; exact State.campaign_setCampaign
  have hold : ∀ {j y}, j ≠ k → v.order j = some y → s.order j = some y := fun hj hy => by rw [horder, if_neg hj] at hy; exact hy
  have hsame : ∀ {j y}, s.order j = some y → ¬ y.done → v.campaign y.reserved = s.campaign y.reserved := fun hy hyd => by
    rw [hcampaign, if_neg (hunclaimed _ _ hy hyd)]
  have hk' : v.order k = some o := by rw [horder, if_pos rfl]
  refine ledger_iff.2 ⟨ChainsOk.of_cen (s := s.setCampaign o.reserved { state := .reserved })
      (hc.setCampaign hnw (by simp [Campaign.working])) (by rw [← hv]; rfl),
    DemandOk.of_cen (s := s.setCampaign o.reserved { state := .reserved }) (hd.setCampaign (by rw [hn]; nofun) nofun)
      (by rw [← hv]; rfl), ?_, fun j => ?_, fun j y hy hb => ?_, fun j y hy hb => ?_, fun i j y z hij hy hz hyd hzd => ?_,
    fun d j hj => ?_, fun j hj => ?_⟩
  · rw [← hv]
    refine List.nodup_append.2 ⟨hord.acceptedOnce, List.nodup_singleton _, fun a ha b hb => ?_⟩
    rw [List.mem_singleton.1 hb]
    exact fun e => (hord.acceptedTaken a).1 ha (e ▸ hk)
  · have hmem : j ∈ v.isu.acceptance ↔ j ∈ s.isu.acceptance ∨ j = k := by
      rw [← hv, ← List.mem_singleton]; exact List.mem_append
    rw [hmem, hord.acceptedTaken, horder]
    by_cases hj : j = k
    · simp [hj]
    · simp [hj]
  · by_cases hj : j = k
    · subst hj
      rw [hk'] at hy; cases hy
      rw [State.slotAwaits, hcampaign, if_pos rfl]
      exact ⟨rfl, rfl⟩
    · have hy' := hold hj hy
      rw [State.slotAwaits, hsame hy' (Order.not_done_of_inBurst hb)]
      exact hord.burstSlot j y hy' hb
  · by_cases hj : j = k
    · subst hj
      rw [hk'] at hy; cases hy
      rw [hs] at hb; cases hb
    · have hy' := hold hj hy
      rw [State.slotConfirms, hsame hy' (Order.done_iff.2 (.inr hb))]
      exact hord.confirmSlot j y hy' hb
  · by_cases hi : i = k
    · subst hi
      rw [hk'] at hy; cases hy
      exact (hunclaimed j z (hold (Ne.symm hij) hz) hzd).symm
    · by_cases hj : j = k
      · subst hj
        rw [hk'] at hz; cases hz
        exact hunclaimed i y (hold hi hy) hyd
      · exact hord.ownSlot i j y z hij (hold hi hy) (hold hj hz) hyd hzd
  · obtain ⟨y, hy, hy'⟩ := hord.holderNamed d j (by rw [← hv] at hj; exact hj)
    have hjk : j ≠ k := fun e => by rw [e, hk] at hy; cases hy
    exact ⟨y, by rw [horder, if_neg hjk, hy], hy'⟩
  · obtain ⟨y, hy, hyd⟩ := hord.reportedDone j (by rw [← hv] at hj; exact hj)
    have hjk : j ≠ k := fun e => by rw [e, hk] at hy; cases hy
    exact ⟨y, by rw [horder, if_neg hjk, hy], hyd⟩

/-- A DONE order whose report is built leaves its record and the acceptance list (R153). -/
theorem Ledger.orderReported (h : Ledger s) {k : OrderNo} {o : Order} (hk : s.order k = some o) (hdone : o.done)
    (hrep : Origin.order k ∉ s.clk.reports) : Ledger (s.orderReported k) := by
  obtain ⟨hc, hd, hord⟩ := ledger_iff.1 h
  have horder : ∀ j, (s.orderReported k).order j = if j = k then none else s.order j := fun j => State.order_setOrder
  have hold : ∀ {j y}, (s.orderReported k).order j = some y → j ≠ k ∧ s.order j = some y := fun {j y} hy => by
    rw [horder] at hy
    split at hy
    · cases hy
    · rename_i hj; exact ⟨hj, hy⟩
  refine ledger_iff.2 ⟨hc.of_cen rfl, hd.of_cen rfl, hord.acceptedOnce.filter _, fun j => ?_,
    fun j y hy hb => hord.burstSlot j y (hold hy).2 hb, fun j y hy hb => hord.confirmSlot j y (hold hy).2 hb,
    fun i j y z hij hy hz => hord.ownSlot i j y z hij (hold hy).2 (hold hz).2, fun d j hj => ?_, fun j hj => ?_⟩
  · show j ∈ s.isu.acceptance.filter (fun m => !(m == k)) ↔ _
    rw [List.mem_filter, hord.acceptedTaken, horder]
    by_cases hj : j = k
    · simp [hj]
    · simp [hj]
  · obtain ⟨y, hy, hy'⟩ := hord.holderNamed d j hj
    have hjk : j ≠ k := fun e => by
      rw [e, hk] at hy; cases hy
      exact Order.not_done_of_inBurst (Order.inBurst_of_onAir hy'.2) hdone
    exact ⟨y, by rw [horder, if_neg hjk, hy], hy'⟩
  · obtain ⟨y, hy, hyd⟩ := hord.reportedDone j hj
    have hjk : j ≠ k := fun e => hrep (e ▸ hj)
    exact ⟨y, by rw [horder, if_neg hjk, hy], hyd⟩

end Sys2Proof.Machine
end

section
/-! The ledger while one chain changes: it ends, is cut back to a parent, gains a child, or begins (R84 to R96). -/

namespace Sys2Proof.Machine

variable {s t u v : State} {p : Pair} {n root parent child : Slot} {front above l : List Slot}

/-! ## One chain and its slots -/

/-- Orders and acceptance list are the same; a channel may have lost its order, and an order's report its place in the queue. -/
structure State.sameOrders (s t : State) : Prop where
  isu : t.isu = s.isu
  holder : ∀ c k, (t.channel c).holder = some (.order k) → (s.channel c).holder = some (.order k)
  reports : ∀ k, Origin.order k ∈ t.clk.reports → Origin.order k ∈ s.clk.reports

theorem State.sameOrders.refl (s : State) : s.sameOrders s := ⟨rfl, fun _ _ => id, fun _ => id⟩

theorem State.sameOrders.trans (h : s.sameOrders t) (h' : t.sameOrders u) : s.sameOrders u :=
  ⟨h'.isu.trans h.isu, fun c k hk => h.holder c k (h'.holder c k hk), fun k hk => h.reports k (h'.reports k hk)⟩

theorem State.sameLedger.sameOrders (h : s.sameLedger t) (e : t.isu = s.isu) : s.sameOrders t := ⟨e, h.holder, h.reports⟩

theorem State.sameOrders.order (h : s.sameOrders t) (k : OrderNo) : t.order k = s.order k := by
  rw [State.order, h.isu]; rfl

/-- The slot stands as it did, and is on the pair's chain if it was. -/
def State.stays (s t : State) (p : Pair) (n : Slot) : Prop :=
  (t.campaign n).standing = (s.campaign n).standing ∧ (n ∈ s.chain p → n ∈ t.chain p)

/-- The slot moves with the pair's chain: it works only on that chain, is not queued, and is no order's but as its confirm. -/
structure State.moves (s t : State) (p : Pair) (n : Slot) : Prop where
  queued : (s.campaign n).state ≠ .queued ∧ (t.campaign n).state ≠ .queued
  before : (s.campaign n).working → n ∈ s.chain p
  after : (t.campaign n).working → n ∈ t.chain p
  order : s.claimed n → s.slotConfirms n ∧ t.slotConfirms n

/-- Chains and orders stay in agreement while the slots of one chain move. -/
theorem Ledger.chainMoves (h : Ledger s) (hchain : ∀ q, q ≠ p → t.chain q = s.chain q) (hp : ChainOk t p (t.chain p))
    (hslot : ∀ n, s.stays t p n ∨ s.moves t p n) : ChainsOk t := by
  obtain ⟨hc, -, -⟩ := ledger_iff.1 h
  refine hc.replace hchain hp (fun n hw hn => ?_) (fun n hn hx hw => ?_)
  · rcases hslot n with ⟨e, -⟩ | m
    · exact e
    · exact absurd (m.before hw) hn
  · rcases hslot n with ⟨e, hk⟩ | m
    · have hs := (Campaign.working_congr e).1 hw
      exact hx.elim (fun x => hn (hk x)) (fun x => x hs)
    · exact hn (m.after hw)

/-- The whole ledger stays while the slots of one chain move and the orders are the same. -/
theorem Ledger.moveChain (h : Ledger s) (hs : s.sameOrders t) (hdemand : t.cen.demand = s.cen.demand)
    (hchain : ∀ q, q ≠ p → t.chain q = s.chain q) (hp : ChainOk t p (t.chain p))
    (hslot : ∀ n, s.stays t p n ∨ s.moves t p n) : Ledger t := by
  obtain ⟨-, hd, ho⟩ := ledger_iff.1 h
  refine ledger_iff.2 ⟨h.chainMoves hchain hp hslot, hd.frame hdemand (fun n => ?_),
    ho.frame (by rw [hs.isu]) (fun k => by rw [hs.order]) hs.holder hs.reports (fun n hn => ?_)⟩
  · rcases hslot n with ⟨e, -⟩ | m
    · obtain ⟨-, -, e, -⟩ := Campaign.standing_inj e
      rw [e]
    · exact iff_of_false m.queued.2 m.queued.1
  · exact (hslot n).imp And.left (fun m => m.order hn)

theorem Campaign.not_queued_of_working {c : Campaign} (h : c.working) : c.state ≠ .queued := fun e => by
  rw [Campaign.working_iff, e] at h; simp at h

/-- A slot above another on a chain, becoming FREE, moves with the chain. -/
theorem Ledger.moves_of_above (h : Ledger s) (hc : s.chain p = front ++ parent :: above) (hn : n ∈ above)
    (ht : (t.campaign n).standing = ({} : Campaign).standing) : s.moves t p n := by
  obtain ⟨hchains, -, ho⟩ := ledger_iff.1 h
  have hok := hchains.chain p
  have hon : n ∈ s.chain p := by rw [hc]; exact List.mem_append_right _ (List.mem_cons_of_mem _ hn)
  have hunclaimed : ¬ s.claimed n := by
    rw [hc] at hok
    cases front with
    | nil => exact hok.tail_not_claimed ho hn
    | cons r f => exact hok.tail_not_claimed ho (List.mem_append_right _ (List.mem_cons_of_mem _ hn))
  refine ⟨⟨Campaign.not_queued_of_working ((hchains.chain p).working hon), ?_⟩, fun _ => hon, fun hw => ?_, fun hx =>
    absurd hx hunclaimed⟩
  · obtain ⟨-, -, e, -⟩ := Campaign.standing_inj ht
    rw [e]; nofun
  · exact absurd ((Campaign.working_congr ht).1 hw) not_working_default

/-! ## Slots that become FREE (R85) -/

/-- The slots of the list have become FREE; chains, demand queue and orders are as they were. -/
structure State.emptied (s t : State) (l : List Slot) : Prop where
  campaign : ∀ m, (t.campaign m).standing = if m ∈ l then ({} : Campaign).standing else (s.campaign m).standing
  chains : t.cen.chains = s.cen.chains
  demand : t.cen.demand = s.cen.demand
  orders : s.sameOrders t

theorem State.endSlice_isu (s : State) (n : Slot) : (s.endSlice n).isu = s.isu := by
  unfold State.endSlice; split <;> rfl

theorem State.emptied.sameLedger (h : s.emptied t l) (h' : t.sameLedger u) (e : u.isu = t.isu) : s.emptied u l :=
  ⟨fun m => (h'.standing m).trans (h.campaign m), h'.chains.trans h.chains, h'.demand.trans h.demand,
    h.orders.trans (h'.sameOrders e)⟩

theorem State.emptied.released (h : s.emptied t l) : s.emptied (t.releaseExtent n) l :=
  h.sameLedger (State.sameLedger.refl t).releaseExtent (t.endSlice_isu n)

theorem State.emptied_nil (s : State) : s.emptied s [] := ⟨fun _ => rfl, rfl, rfl, .refl s⟩

/-- One more slot becomes FREE. -/
theorem State.emptied.dropSlot (h : s.emptied t l) : s.emptied (t.dropSlot n) (n :: l) := by
  have hr : s.emptied (t.releaseExtent n) l := h.released
  refine ⟨fun m => ?_, hr.chains, hr.demand, hr.orders.trans ⟨rfl, fun _ _ => id, fun _ => List.mem_of_mem_filter⟩⟩
  show (((t.releaseExtent n).setCampaign n {}).campaign m).standing = _
  rw [State.campaign_setCampaign]
  by_cases hm : m = n
  · simp [hm]
  · rw [if_neg hm, hr.campaign]
    simp [hm]

theorem State.emptied.congr (h : s.emptied t l) {l' : List Slot} (e : ∀ m, m ∈ l ↔ m ∈ l') : s.emptied t l' :=
  { h with campaign := fun m => by rw [h.campaign m, if_congr (e m) rfl rfl] }

theorem State.emptied.dropSlots (h : s.emptied t l) {l' : List Slot} : s.emptied (t.dropSlots l') (l' ++ l) := by
  induction l' generalizing t l with
  | nil => exact h
  | cons m l' ih =>
    refine (ih (t := t.dropSlot m) h.dropSlot).congr (fun x => ?_)
    simp only [List.mem_append, List.mem_cons]
    tauto

theorem State.dropSlots_emptied (s : State) (l : List Slot) : s.emptied (s.dropSlots l) l := by
  have := (s.emptied_nil).dropSlots (l' := l)
  rwa [List.append_nil] at this

theorem campaign_ne_order (n : Slot) (k : OrderNo) : Origin.campaign n ≠ .order k := by simp

/-! ## The end of a chain -/

theorem State.chain_setChain_of_emptied (he : s.emptied v l) {l' : List Slot} {q : Pair} (hq : q ≠ p) :
    (v.setChain p l').chain q = s.chain q := by
  rw [State.chain_setChain, if_neg hq, State.chain, he.chains]; rfl

/-- A chain's slots are on it. -/
theorem mem_of_chain_eq (hc : s.chain p = front ++ parent :: above) : parent ∈ s.chain p := by
  rw [hc]; exact List.mem_append_right _ List.mem_cons_self

/-- A chain ends, its root no order's: the chains stay in agreement whatever record out of work the root takes. -/
theorem Ledger.moves_endChain (h : Ledger s) (hc : s.chain p = root :: above) (he : s.emptied v above) {c : Campaign} :
    let t := (v.setChain p []).setCampaign root c
    ∀ n, n = root ∨ s.stays t p n ∨ s.moves t p n := by
  intro t n
  by_cases hr : n = root
  · exact .inl hr
  · have hn : (t.campaign n).standing = if n ∈ above then ({} : Campaign).standing else (s.campaign n).standing := by
      rw [State.campaign_setCampaign, if_neg hr]; exact he.campaign n
    by_cases ha : n ∈ above
    · rw [if_pos ha] at hn
      exact .inr (.inr (h.moves_of_above (front := []) hc ha hn))
    · rw [if_neg ha] at hn
      exact .inr (.inl ⟨hn, fun hx => by rw [hc] at hx; exact absurd hx (by simp [hr, ha])⟩)

/-- The chains after a chain has ended. -/
theorem Ledger.chainsOk_endChain (h : Ledger s) (hc : s.chain p = root :: above) (he : s.emptied v above) {c : Campaign}
    (hw : ¬ c.working) (hq : c.state ≠ .queued) :
    ChainsOk ((v.setChain p []).setCampaign root c) ∧ DemandOk ((v.setChain p []).setCampaign root c) := by
  obtain ⟨hchains, hd, -⟩ := ledger_iff.1 h
  have hon : root ∈ s.chain p := by rw [hc]; exact List.mem_cons_self
  have hsq := Campaign.not_queued_of_working ((hchains.chain p).working hon)
  generalize ht : (v.setChain p []).setCampaign root c = t
  have hempty : t.chain p = [] := by rw [← ht]; exact State.chain_setChain.trans (if_pos rfl)
  have hroot : t.campaign root = c := by rw [← ht]; exact State.campaign_setCampaign.trans (if_pos rfl)
  have hother := h.moves_endChain hc he (c := c)
  rw [ht] at hother
  refine ⟨hchains.replace (p := p) (fun q hne => ?_) ?_ (fun n hnw hn => ?_) (fun n _ hx hnw => ?_), hd.frame ?_ (fun n => ?_)⟩
  · rw [← ht]; exact State.chain_setChain_of_emptied he hne
  · rw [hempty]; exact ⟨nofun, List.nodup_nil, nofun, nofun, nofun, nofun⟩
  · rcases hother n with e | ⟨e, -⟩ | m
    · exact absurd (e ▸ hon) hn
    · exact e
    · exact absurd (m.before hnw) hn
  · rcases hother n with e | ⟨e, hk⟩ | m
    · rw [e, hroot] at hnw; exact hw hnw
    · refine hx.elim (fun y => ?_) (fun y => y ((Campaign.working_congr e).1 hnw))
      have := hk y
      rw [hempty] at this; cases this
    · have := m.after hnw
      rw [hempty] at this; cases this
  · rw [← ht]; exact he.demand
  · rcases hother n with e | ⟨e, -⟩ | m
    · rw [e, hroot]; exact iff_of_false hq hsq
    · obtain ⟨-, -, e, -⟩ := Campaign.standing_inj e
      rw [e]
    · exact iff_of_false m.queued.2 m.queued.1

/-- A chain ends, its root no order's and out of work. -/
theorem Ledger.endChain (h : Ledger s) (hc : s.chain p = root :: above) (he : s.emptied v above) {c : Campaign}
    (hroot : ¬ s.claimed root) (hw : ¬ c.working) (hq : c.state ≠ .queued) :
    Ledger ((v.setChain p []).setCampaign root c) := by
  obtain ⟨-, -, ho⟩ := ledger_iff.1 h
  obtain ⟨hct, hdt⟩ := h.chainsOk_endChain hc he hw hq
  refine ledger_iff.2 ⟨hct, hdt, ho.frame (congrArg _ he.orders.isu) (fun k => congrArg _ (he.orders.order k)) he.orders.holder
    he.orders.reports (fun n hn => ?_)⟩
  rcases h.moves_endChain hc he (c := c) n with e | hx | m
  · exact absurd (e ▸ hn) hroot
  · exact .inl hx.1
  · exact .inr (m.order hn)

/-- A confirm's chain ends with its order, which enters a DONE state (R90, R91, R151, R152). -/
theorem Ledger.endConfirm (h : Ledger s) (hc : s.chain p = root :: above) (he : s.emptied v above) {k : OrderNo} {x o : Order}
    {st : OrderState} {r : Option Reason} {c : Condition} (hx : s.order k = some x) (hstate : x.state = .confirming)
    (hroot : root = x.reserved) (hst : ({ o with state := st, reason := r } : Order).done) :
    Ledger (((v.setChain p []).freeUp root).endOrder k o st r c) := by
  obtain ⟨-, -, ho⟩ := ledger_iff.1 h
  obtain ⟨hct, hdt⟩ := h.chainsOk_endChain hc he not_working_default nofun
  have hxd : ¬ x.done := Order.done_iff.2 (.inr hstate)
  refine ledger_iff.2 ⟨hct.of_cen ?_, hdt.of_cen ?_, ho.endOrder hx hxd hroot hst (congrArg _ he.orders.isu)
    (fun j _ => he.orders.order j) (fun j y hj hy hyd => ?_) (fun d j hj => ⟨fun e => ?_, he.orders.holder d j hj⟩) he.orders.reports⟩
  · rw [State.endOrder_cen]; rfl
  · rw [State.endOrder_cen]; rfl
  · refine (he.campaign y.reserved).trans (if_neg (fun hy' => ?_))
    have hok := (ledger_iff.1 h).1.chain p
    rw [hc] at hok
    exact hok.tail_not_claimed ho hy' ⟨j, y, hy, hyd, rfl⟩
  · subst e
    obtain ⟨y, hy, -, hair⟩ := ho.holderNamed d j (he.orders.holder d j hj)
    rw [hx] at hy; cases hy
    rw [Order.onAir, hstate] at hair; simp at hair

/-! ## The order of a confirm (R150) -/

theorem State.confirmOrder_some {k : OrderNo} {o : Order} (h : s.confirmOrder n = some (k, o)) :
    s.order k = some o ∧ o.state = .confirming ∧ o.reserved = n := by
  unfold State.confirmOrder at h
  obtain ⟨j, -, hj⟩ := List.exists_of_findSome?_eq_some h
  split at hj
  · rename_i x hx
    split at hj
    · rename_i hc
      cases hj
      exact ⟨hx, hc⟩
    · cases hj
  · cases hj

theorem State.confirmOrder_none (h : s.confirmOrder n = none) {k : OrderNo} {o : Order} (ho : s.order k = some o)
    (hc : o.state = .confirming) : o.reserved ≠ n := fun e => by
  unfold State.confirmOrder at h
  have := List.findSome?_eq_none_iff.1 h k (mem_allOrders k)
  rw [ho] at this
  simp [hc, e] at this

theorem State.confirmOrder_congr (h : t.isu = s.isu) (n : Slot) : t.confirmOrder n = s.confirmOrder n := by
  unfold State.confirmOrder State.order; rw [h]

/-- A slot at work on its chain that is no order's confirm is no order's at all. -/
theorem Ledger.not_claimed_of_confirmOrder (h : Ledger s) (hn : (s.campaign n).state ≠ .reserved) (hc : s.confirmOrder n = none) :
    ¬ s.claimed n := by
  obtain ⟨-, -, ho⟩ := ledger_iff.1 h
  rintro ⟨k, o, hk, hd, hr⟩
  rcases Order.done_iff.1 hd with hb | hb
  · exact hn (hr ▸ (ho.burstSlot k o hk hb).1)
  · exact State.confirmOrder_none hc hk hb hr

/-- A chain's root that is made by no order is no order's (R150). -/
theorem Ledger.root_not_claimed (h : Ledger s) (hn : n ∈ s.chain p)
    (hc : (s.campaign n).origin ≠ .order ∨ (s.campaign n).kind ≠ some .confirm) : ¬ s.claimed n := by
  obtain ⟨hchains, -, ho⟩ := ledger_iff.1 h
  refine ho.not_claimed (fun e => ?_) (.inr hc.symm)
  have := Campaign.working_iff.1 ((hchains.chain p).working hn)
  rw [e] at this
  simp at this

theorem ChainsOk.not_reserved (h : ChainsOk s) (hn : n ∈ s.chain p) : (s.campaign n).state ≠ .reserved := fun e =>
  absurd ((h.chain p).working hn) (State.not_working_of_reserved e)

/-- A confirm's chain fails: its slot becomes FREE and its order ends DONE_UNRESOLVED (R151). -/
theorem Ledger.failConfirm_chain (h : Ledger s) (hc : s.chain p = root :: above) (he : s.emptied v above) {reason : Reason} :
    Ledger ((v.setChain p []).failConfirm root reason) := by
  have hon : root ∈ s.chain p := by rw [hc]; exact List.mem_cons_self
  have hconf : (v.setChain p []).confirmOrder root = s.confirmOrder root := State.confirmOrder_congr he.orders.isu root
  unfold State.failConfirm
  dsimp only
  rw [hconf]
  cases hf : s.confirmOrder root with
  | none =>
    have hun := h.not_claimed_of_confirmOrder ((ledger_iff.1 h).1.not_reserved hon) hf
    exact (State.sameLedger.refl _).withdrawOrigin.ledger (h.endChain hc he hun not_working_default nofun)
  | some ko =>
    obtain ⟨k, o⟩ := ko
    obtain ⟨hk, hstate, hr⟩ := State.confirmOrder_some hf
    exact h.endConfirm hc he hk hstate hr.symm (.inr (.inr (.inr rfl)))

/-- The root of a chain that has failed is treated by its origin (R91). -/
theorem Ledger.failRoot (h : Ledger s) (hc : s.chain p = root :: above) (he : s.emptied v above) {reason : Reason} :
    Ledger ((v.setChain p []).failRoot root reason) := by
  have hon : root ∈ s.chain p := by rw [hc]; exact List.mem_cons_self
  have hroot : root ∉ above := by
    have := ((ledger_iff.1 h).1.chain p).once
    rw [hc] at this
    exact (List.nodup_cons.1 this).1
  have horigin : ((v.setChain p []).campaign root).origin = (s.campaign root).origin := by
    have e := he.campaign root
    rw [if_neg hroot] at e
    exact (Campaign.standing_inj e).2.2.2.2.1
  have hlost : ∀ c : Campaign, (s.campaign root).origin ≠ .order → ¬ c.working → c.state ≠ .queued →
      Ledger (((v.setChain p []).setCampaign root c).queueOrigin (.campaign root)) := fun c ho hw hq =>
    (State.sameLedger.queueOrigin (.refl _) (campaign_ne_order root)).ledger (h.endChain hc he (h.root_not_claimed hon (.inl ho)) hw hq)
  unfold State.failRoot
  dsimp only
  rw [horigin]
  cases ho : (s.campaign root).origin with
  | demand => exact hlost _ (by rw [ho]; nofun) (by simp [Campaign.working]) nofun
  | child => exact hlost _ (by rw [ho]; nofun) (by simp [Campaign.working]) nofun
  | periodic => exact hlost _ (by rw [ho]; nofun) (by simp [Campaign.working]) nofun
  | order => exact h.failConfirm_chain hc he

/-- A chain failure keeps the ledger (R91). -/
theorem Ledger.failChain (h : Ledger s) {reason : Reason} : Ledger (s.failChain p reason) := by
  unfold State.failChain
  split
  · exact h
  · rename_i root above hc
    exact h.failRoot hc (s.dropSlots_emptied above).released

/-- A root finishes: its chain ends and it is treated by its origin (R90). -/
theorem Ledger.finishRoot (h : Ledger s) (hc : s.chain p = [root]) : Ledger (s.finishRoot p root) := by
  have hon : root ∈ s.chain p := by rw [hc]; exact List.mem_cons_self
  have he : s.emptied (s.releaseExtent root) [] := s.emptied_nil.released
  have horigin : (((s.releaseExtent root).setChain p []).campaign root).origin = (s.campaign root).origin :=
    (Campaign.standing_inj (he.campaign root)).2.2.2.2.1
  have hdone : ∀ c : Campaign, (s.campaign root).origin ≠ .order → ¬ c.working → c.state ≠ .queued →
      Ledger ((((s.releaseExtent root).setChain p []).setCampaign root c).queueOrigin (.campaign root)) := fun c ho hw hq =>
    (State.sameLedger.queueOrigin (.refl _) (campaign_ne_order root)).ledger (h.endChain hc he (h.root_not_claimed hon (.inl ho)) hw hq)
  unfold State.finishRoot
  dsimp only
  rw [horigin]
  cases ho : (s.campaign root).origin with
  | demand => exact hdone _ (by rw [ho]; nofun) (by simp [Campaign.working]) nofun
  | child => exact hdone _ (by rw [ho]; nofun) (by simp [Campaign.working]) nofun
  | periodic => exact hdone _ (by rw [ho]; nofun) (by simp [Campaign.working]) nofun
  | order =>
    show Ledger (((s.releaseExtent root).setChain p []).confirmVerdict root)
    have hconf : ((s.releaseExtent root).setChain p []).confirmOrder root = s.confirmOrder root :=
      State.confirmOrder_congr he.orders.isu root
    unfold State.confirmVerdict
    dsimp only
    rw [hconf]
    cases hf : s.confirmOrder root with
    | none =>
      have hun := h.not_claimed_of_confirmOrder ((ledger_iff.1 h).1.not_reserved hon) hf
      exact (State.sameLedger.refl _).withdrawOrigin.ledger (h.endChain hc he hun not_working_default nofun)
    | some ko =>
      obtain ⟨k, o⟩ := ko
      obtain ⟨hk, hstate, hr⟩ := State.confirmOrder_some hf
      show Ledger (State.settleOrder _ k o _)
      unfold State.settleOrder
      split
      · exact h.endConfirm hc he hk hstate hr.symm (.inr (.inr (.inr rfl)))
      · dsimp only
        split
        · exact h.endConfirm hc he hk hstate hr.symm (.inl rfl)
        · exact h.endConfirm hc he hk hstate hr.symm (.inr (.inr (.inr rfl)))

/-- The abort of a root ends its chain (R95). -/
theorem Ledger.abortRoot (h : Ledger s) (hc : s.chain p = root :: above) (hk : (s.campaign root).kind ≠ some .confirm) :
    Ledger (s.abortRoot p root above) := by
  have hon : root ∈ s.chain p := by rw [hc]; exact List.mem_cons_self
  unfold State.abortRoot
  refine (State.sameLedger.queueOrigin (.refl _) (campaign_ne_order root)).ledger ?_
  have he : ∀ l, s.emptied (((s.dropSlots above).releaseExtent root).setPeriodicList l) above := fun _ =>
    (s.dropSlots_emptied above).released.sameLedger (.unseen (.refl _) rfl) rfl
  refine h.endChain hc (he _) (h.root_not_claimed hon (.inr hk)) ?_ ?_
  · simp [Campaign.working]
  · simp

end Sys2Proof.Machine
end

section
/-! The ledger through the suspect walk and the requests of the Campaign Engine (R76 to R97, R118 to R123). -/

namespace Sys2Proof.Machine

variable {s t u v : State} {p : Pair} {n m root parent child : Slot} {front above l : List Slot}

/-! ## A chain cut back to a parent (R89, R96) -/

theorem getElem?_append_of_eq {α : Type} {l l' : List α} {i : Nat} {x : α} (h : l[i]? = some x) : (l ++ l')[i]? = some x := by
  obtain ⟨hlt, -⟩ := List.getElem?_eq_some_iff.1 h
  rw [List.getElem?_append_left hlt, h]

/-- A chain cut back to a slot, with that slot ACTIVE and the rest standing as they did. -/
theorem ChainOk.cut (h : ChainOk s p (front ++ parent :: above))
    (hparent : (t.campaign parent).standing = { (s.campaign parent).standing with state := .measuring })
    (hfront : ∀ m ∈ front, (t.campaign m).standing = (s.campaign m).standing) : ChainOk t p (front ++ [parent]) := by
  rw [List.append_cons] at h
  have hfields : ∀ m ∈ front ++ [parent], (t.campaign m).pair = (s.campaign m).pair
      ∧ (t.campaign m).depth = (s.campaign m).depth ∧ (t.campaign m).parent = (s.campaign m).parent
      ∧ (t.campaign m).origin = (s.campaign m).origin := fun m hm => by
    rcases List.mem_append.1 hm with hm | hm
    · obtain ⟨h1, h2, -, h4, h5, -⟩ := Campaign.standing_inj (hfront m hm)
      exact ⟨h1, h2, h4, h5⟩
    · rw [List.mem_singleton.1 hm]
      obtain ⟨h1, h2, -, h4, h5, -⟩ := Standing.mk.inj hparent
      exact ⟨h1, h2, h4, h5⟩
  have hstate : (t.campaign parent).state = .measuring := (Standing.mk.inj hparent).2.2.1
  have mem : ∀ {i m}, (front ++ [parent])[i]? = some m → m ∈ front ++ [parent] := fun hi => List.mem_iff_getElem?.2 ⟨_, hi⟩
  refine ⟨fun m hm => ?_, h.once.sublist (List.sublist_append_left _ _), fun i m hi => ?_, fun m hm => ?_, fun m hm => ?_,
    fun i m x hm hx => ?_⟩
  · rw [(hfields m hm).1, h.pair m (List.mem_append_left _ hm)]
  · rw [(hfields m (mem hi)).2.1]
    exact h.depth i m (getElem?_append_of_eq hi)
  · rw [List.getLast?_append_cons] at hm
    cases hm
    exact .inr hstate
  · have hs : ((front ++ [parent]) ++ above).head? = some m := by
      rw [List.head?_append, hm]; rfl
    obtain ⟨hp, hw⟩ := h.root m hs
    refine ⟨by rw [(hfields m (List.mem_of_head? hm)).2.2.1, hp], fun e => ?_⟩
    rcases List.mem_append.1 (List.mem_of_head? hm) with hf | hf
    · obtain ⟨-, -, h3, -⟩ := Campaign.standing_inj (hfront m hf)
      rw [h3] at e; exact hw e
    · rw [List.mem_singleton.1 hf, hstate] at e; cases e
  · obtain ⟨hn, hpar, hor⟩ := h.link i m x (getElem?_append_of_eq hm) (getElem?_append_of_eq hx)
    obtain ⟨-, -, hpx, hox⟩ := hfields x (mem hx)
    refine ⟨?_, hpx.trans hpar, hox.trans hor⟩
    obtain ⟨hlt, -⟩ := List.getElem?_eq_some_iff.1 hx
    have hi : i < front.length := by rw [List.length_append, List.length_singleton] at hlt; omega
    rw [List.getElem?_append_left hi] at hm
    obtain ⟨-, -, h3, -⟩ := Campaign.standing_inj (hfront m (List.mem_of_getElem? hm))
    rw [h3, hn]

/-- What is above a slot of a chain becomes FREE, and the slot ACTIVE (R89, R96). -/
theorem Ledger.cutChain (h : Ledger s) (hc : s.chain p = front ++ parent :: above) (ha : above ≠ []) (he : s.emptied v above) :
    Ledger ((v.setChain p (front ++ [parent])).setCampaign parent { v.campaign parent with state := .measuring }) := by
  obtain ⟨hchains, -, ho⟩ := ledger_iff.1 h
  have hok := hchains.chain p
  have hon : parent ∈ s.chain p := mem_of_chain_eq hc
  rw [hc] at hok
  obtain ⟨hfn, hpn, hfd⟩ := List.nodup_append.1 hok.once
  have hpa : parent ∉ above := (List.nodup_cons.1 hpn).1
  have hfa : ∀ m ∈ front, m ≠ parent ∧ m ∉ above := fun m hm =>
    ⟨hfd m hm parent List.mem_cons_self, fun x => hfd m hm m (List.mem_cons_of_mem _ x) rfl⟩
  have hnested : (s.campaign parent).state = .nested := by
    obtain ⟨a, above', rfl⟩ := List.exists_cons_of_ne_nil ha
    exact (hok.link front.length parent a (by simp) (by simp)).1
  generalize ht : (v.setChain p (front ++ [parent])).setCampaign parent { v.campaign parent with state := .measuring } = t
  have hchain : t.chain p = front ++ [parent] := by rw [← ht]; exact State.chain_setChain.trans (if_pos rfl)
  have hcampaign : ∀ m, t.campaign m = if m = parent then { v.campaign parent with state := .measuring } else v.campaign m :=
    fun m => by rw [← ht]; exact State.campaign_setCampaign
  have hparent : (t.campaign parent).standing = { (s.campaign parent).standing with state := .measuring } := by
    rw [hcampaign, if_pos rfl]
    have e := he.campaign parent
    rw [if_neg hpa] at e
    obtain ⟨h1, h2, -, h4, h5, h6⟩ := Campaign.standing_inj e
    simp only [Campaign.standing, h1, h2, h4, h5, h6]
  have hother : ∀ m, m ≠ parent → (t.campaign m).standing
      = if m ∈ above then ({} : Campaign).standing else (s.campaign m).standing := fun m hm => by
    rw [hcampaign, if_neg hm]; exact he.campaign m
  have hmeasuring : (t.campaign parent).state = .measuring := (Standing.mk.inj hparent).2.2.1
  refine h.moveChain (p := p) ?_ ?_ (fun q hq => ?_) ?_ (fun m => ?_)
  · rw [← ht]; exact he.orders.trans ⟨rfl, fun _ _ => id, fun _ => id⟩
  · rw [← ht]; exact he.demand
  · rw [← ht]; exact State.chain_setChain_of_emptied he hq
  · rw [hchain]
    exact hok.cut hparent (fun m hm => by rw [hother m (hfa m hm).1, if_neg (hfa m hm).2])
  · by_cases hm : m = parent
    · refine .inr ?_
      rw [hm]
      refine ⟨⟨by rw [hnested]; nofun, by rw [hmeasuring]; nofun⟩, fun _ => hon, fun _ => ?_, fun hx => absurd hx ?_⟩
      · rw [hchain]; exact List.mem_append_right _ List.mem_cons_self
      · exact ho.not_claimed (by rw [hnested]; nofun) (.inl (by rw [hnested]; nofun))
    · have e := hother m hm
      by_cases hma : m ∈ above
      · rw [if_pos hma] at e
        exact .inr (h.moves_of_above hc hma e)
      · rw [if_neg hma] at e
        refine .inl ⟨e, fun hx => ?_⟩
        rw [hc] at hx
        rw [hchain]
        rcases List.mem_append.1 hx with hx | hx
        · exact List.mem_append_left _ hx
        · rcases List.mem_cons.1 hx with hx | hx
          · exact absurd hx hm
          · exact absurd hx hma

/-! ## A child on a chain (R86) -/

/-- A chain whose top is NESTED with a new child above it. -/
theorem ChainOk.push (h : ChainOk s p l) (htop : l.getLast? = some n) (hm : m ∉ l) (hdepth : (s.campaign n).depth + 1 ≤ 8)
    (hn : (t.campaign n).standing = { (s.campaign n).standing with state := .nested })
    (hchild : (t.campaign m).standing = ⟨p, (s.campaign n).depth + 1, .awaitingRoom, some n, .child, some .locate⟩)
    (hother : ∀ x ∈ l, x ≠ n → (t.campaign x).standing = (s.campaign x).standing) : ChainOk t p (l ++ [m]) := by
  have hfields : ∀ x ∈ l, (t.campaign x).pair = (s.campaign x).pair ∧ (t.campaign x).depth = (s.campaign x).depth
      ∧ (t.campaign x).parent = (s.campaign x).parent ∧ (t.campaign x).origin = (s.campaign x).origin := fun x hx => by
    by_cases e : x = n
    · obtain ⟨h1, h2, -, h4, h5, -⟩ := Standing.mk.inj hn
      rw [e]; exact ⟨h1, h2, h4, h5⟩
    · obtain ⟨h1, h2, -, h4, h5, -⟩ := Campaign.standing_inj (hother x hx e)
      exact ⟨h1, h2, h4, h5⟩
  obtain ⟨c1, c2, c3, c4, c5, -⟩ := Standing.mk.inj hchild
  have hnested : (t.campaign n).state = .nested := (Standing.mk.inj hn).2.2.1
  have hlen : l ≠ [] := fun e => by rw [e] at htop; cases htop
  have hlast : l[l.length - 1]? = some n := by rw [← List.getLast?_eq_getElem?]; exact htop
  have hpos : 0 < l.length := List.length_pos_of_ne_nil hlen
  have hold : ∀ {i x}, (l ++ [m])[i]? = some x → i < l.length ∧ l[i]? = some x ∨ i = l.length ∧ x = m := fun {i x} hi => by
    rcases Nat.lt_or_ge i l.length with hlt | hge
    · rw [List.getElem?_append_left hlt] at hi; exact .inl ⟨hlt, hi⟩
    · rw [List.getElem?_append_right hge] at hi
      obtain ⟨hlt, e⟩ := List.getElem?_eq_some_iff.1 hi
      rw [List.length_singleton] at hlt
      refine .inr ⟨by omega, ?_⟩
      rw [List.getElem_singleton] at e; exact e.symm
  refine ⟨fun x hx => ?_, ?_, fun i x hi => ?_, fun x hx => ?_, fun x hx => ?_, fun i x y hx hy => ?_⟩
  · rcases List.mem_append.1 hx with hx | hx
    · rw [(hfields x hx).1, h.pair x hx]
    · rw [List.mem_singleton.1 hx, c1]
  · exact List.nodup_append.2 ⟨h.once, List.nodup_singleton _, fun a ha b hb => by
      rw [List.mem_singleton.1 hb]; exact fun e => hm (e ▸ ha)⟩
  · rcases hold hi with ⟨-, hi⟩ | ⟨rfl, rfl⟩
    · rw [(hfields x (List.mem_of_getElem? hi)).2.1]
      exact h.depth i x hi
    · obtain ⟨hd, -⟩ := h.depth _ n hlast
      rw [c2]
      omega
  · rw [List.getLast?_append_cons] at hx
    cases hx
    exact .inl c3
  · rw [List.head?_append_of_ne_nil _ hlen] at hx
    obtain ⟨hp, hs⟩ := h.root x hx
    have hmem := List.mem_of_head? hx
    refine ⟨by rw [(hfields x hmem).2.2.1, hp], fun e => ?_⟩
    by_cases hxn : x = n
    · rw [hxn, hnested] at e; cases e
    · obtain ⟨-, -, h3, -⟩ := Campaign.standing_inj (hother x hmem hxn)
      rw [h3] at e; exact hs e
  · rcases hold hx with ⟨hlt, hxl⟩ | ⟨rfl, -⟩
    · rcases hold hy with ⟨-, hyl⟩ | ⟨hi, rfl⟩
      · obtain ⟨hs, hp, ho⟩ := h.link i x y hxl hyl
        obtain ⟨-, -, hp', ho'⟩ := hfields y (List.mem_of_getElem? hyl)
        refine ⟨?_, hp'.trans hp, ho'.trans ho⟩
        have hxn : x ≠ n := fun e => by
          rcases h.top n htop with e' | e' <;> rw [e, e'] at hs <;> cases hs
        obtain ⟨-, -, h3, -⟩ := Campaign.standing_inj (hother x (List.mem_of_getElem? hxl) hxn)
        rw [h3, hs]
      · rw [show l.length - 1 = i by omega, hxl] at hlast
        cases hlast
        exact ⟨hnested, c4, c5⟩
    · obtain ⟨hlt, -⟩ := List.getElem?_eq_some_iff.1 hy
      rw [List.length_append, List.length_singleton] at hlt
      omega

/-- A FREE slot is on no chain and no order's. -/
theorem Ledger.free_slot (h : Ledger s) (hfree : (s.campaign m).state = .free) : ¬ (s.campaign m).working ∧ ¬ s.claimed m := by
  refine ⟨by rw [Campaign.working_iff, hfree]; simp, ?_⟩
  exact (ledger_iff.1 h).2.2.not_claimed (by rw [hfree]; nofun) (.inl (by rw [hfree]; nofun))

/-- A chain top that is no confirm becomes NESTED, and a FREE slot its child (R86). -/
theorem Ledger.pushChild (h : Ledger s) (htop : (s.chain p).getLast? = some n) (hkind : (s.campaign n).kind ≠ some .confirm)
    (hdepth : (s.campaign n).depth + 1 ≤ 8) (hfree : (s.campaign m).state = .free) {c : Campaign}
    (hc : c.standing = ⟨p, (s.campaign n).depth + 1, .awaitingRoom, some n, .child, some .locate⟩) :
    Ledger (((s.setCampaign m c).setCampaign n { s.campaign n with state := .nested }).setChain p (s.chain p ++ [m])) := by
  obtain ⟨hchains, -, ho⟩ := ledger_iff.1 h
  have hon : n ∈ s.chain p := List.mem_of_getLast? htop
  obtain ⟨hmw, hmc⟩ := h.free_slot hfree
  have hmn : m ≠ n := fun e => hmw (e ▸ (hchains.chain p).working hon)
  have hml : m ∉ s.chain p := fun e => hmw ((hchains.chain p).working e)
  generalize ht : ((s.setCampaign m c).setCampaign n { s.campaign n with state := .nested }).setChain p (s.chain p ++ [m]) = t
  have hchain : t.chain p = s.chain p ++ [m] := by rw [← ht]; exact State.chain_setChain.trans (if_pos rfl)
  have hcampaign : ∀ x, t.campaign x = if x = n then { s.campaign n with state := .nested } else if x = m then c else s.campaign x :=
    fun x => by
      rw [← ht]
      refine State.campaign_setCampaign.trans ?_
      rw [State.campaign_setCampaign]
  have hn : t.campaign n = { s.campaign n with state := .nested } := by rw [hcampaign, if_pos rfl]
  have hchild : t.campaign m = c := by rw [hcampaign, if_neg hmn, if_pos rfl]
  obtain ⟨-, -, c3, -⟩ := Standing.mk.inj hc
  refine h.moveChain (p := p) ?_ ?_ (fun q hq => ?_) ?_ (fun x => ?_)
  · rw [← ht]; exact ⟨rfl, fun _ _ => id, fun _ => id⟩
  · rw [← ht]; rfl
  · rw [← ht]; exact State.chain_setChain.trans (if_neg hq)
  · rw [hchain]
    refine (hchains.chain p).push htop hml hdepth (by rw [hn]; rfl) (by rw [hchild, hc]) (fun x hx hxn => ?_)
    rw [hcampaign, if_neg hxn, if_neg (fun e : x = m => hml (e ▸ hx))]
  · by_cases hxn : x = n
    · refine .inr ?_
      rw [hxn]
      refine ⟨⟨Campaign.not_queued_of_working ((hchains.chain p).working hon), by rw [hn]; nofun⟩, fun _ => hon, fun _ => ?_,
        fun hx => absurd hx (h.root_not_claimed hon (.inr hkind))⟩
      rw [hchain]; exact List.mem_append_left _ hon
    · by_cases hxm : x = m
      · refine .inr ?_
        rw [hxm]
        refine ⟨⟨by rw [hfree]; nofun, by rw [hchild]; exact fun e => by rw [show c.state = _ from c3] at e; cases e⟩,
          fun hw => absurd hw hmw, fun _ => ?_, fun hx => absurd hx hmc⟩
        rw [hchain]; exact List.mem_append_right _ List.mem_cons_self
      · refine .inl ⟨by rw [hcampaign, if_neg hxn, if_neg hxm], fun hx => ?_⟩
        rw [hchain]; exact List.mem_append_left _ hx

/-- A chain top in AWAITING_ROOM becomes ACTIVE (R86, R87). -/
theorem Ledger.room (h : Ledger s) (hs : (s.campaign n).state = .awaitingRoom) :
    Ledger (s.setCampaign n { s.campaign n with state := .measuring }) := by
  obtain ⟨hchains, -, ho⟩ := ledger_iff.1 h
  have hon : n ∈ s.chain (s.campaign n).pair := hchains.onChain n (Campaign.working_iff.2 (.inl hs))
  have hok := hchains.chain (s.campaign n).pair
  generalize hp : (s.campaign n).pair = p at hon hok
  generalize ht : s.setCampaign n { s.campaign n with state := .measuring } = t
  have hcampaign : ∀ x, t.campaign x = if x = n then { s.campaign n with state := .measuring } else s.campaign x := fun x => by
    rw [← ht]; exact State.campaign_setCampaign
  have hfields : ∀ x, (t.campaign x).pair = (s.campaign x).pair ∧ (t.campaign x).depth = (s.campaign x).depth
      ∧ (t.campaign x).parent = (s.campaign x).parent ∧ (t.campaign x).origin = (s.campaign x).origin := fun x => by
    rw [hcampaign]
    split
    · rename_i e; rw [e]; exact ⟨rfl, rfl, rfl, rfl⟩
    · exact ⟨rfl, rfl, rfl, rfl⟩
  have hn : (t.campaign n).state = .measuring := by rw [hcampaign, if_pos rfl]
  have hstate : ∀ x, x ≠ n → (t.campaign x).state = (s.campaign x).state := fun x hx => by rw [hcampaign, if_neg hx]
  have hchain : ∀ q, t.chain q = s.chain q := fun q => by rw [← ht]; rfl
  refine h.moveChain (p := p) ?_ ?_ (fun q _ => hchain q) ?_ (fun x => ?_)
  · rw [← ht]; exact ⟨rfl, fun _ _ => id, fun _ => id⟩
  · rw [← ht]; rfl
  · rw [hchain]
    refine ⟨fun x hx => by rw [(hfields x).1, hok.pair x hx], hok.once, fun i x hi => by rw [(hfields x).2.1]; exact hok.depth i x hi,
      fun x hx => ?_, fun x hx => ?_, fun i x y hx hy => ?_⟩
    · by_cases e : x = n
      · rw [e]; exact .inr hn
      · rw [hstate x e]; exact hok.top x hx
    · obtain ⟨hpar, hst⟩ := hok.root x hx
      refine ⟨by rw [(hfields x).2.2.1, hpar], ?_⟩
      rw [hstate x (fun e => hst (e ▸ hs))]
      exact hst
    · obtain ⟨hst, hpar, hor⟩ := hok.link i x y hx hy
      obtain ⟨-, -, hp', ho'⟩ := hfields y
      refine ⟨?_, hp'.trans hpar, ho'.trans hor⟩
      rw [hstate x (fun e => by rw [e, hs] at hst; cases hst), hst]
  · by_cases hx : x = n
    · refine .inr ?_
      rw [hx]
      exact ⟨⟨by rw [hs]; nofun, by rw [hn]; nofun⟩, fun _ => hon, fun _ => by rw [hchain]; exact hon,
        fun hx => absurd hx (ho.not_claimed (by rw [hs]; nofun) (.inl (by rw [hs]; nofun)))⟩
    · exact .inl ⟨by rw [hcampaign, if_neg hx], fun hy => by rw [hchain]; exact hy⟩

theorem Ledger.seekRoom (h : Ledger s) (hs : (s.campaign n).state = .awaitingRoom) : Ledger (s.seekRoom n) := by
  unfold State.seekRoom
  split
  · exact h
  · rename_i v hv
    have hsame : s.sameLedger v := State.sameLedger.allocate (.refl s) hv
    obtain ⟨-, -, e, -⟩ := Campaign.standing_inj (hsame.standing n)
    exact (hsame.ledger h).room (e.trans hs)

/-! ## The walk (R118, R119) -/

theorem State.freeSlot_some (h : s.freeSlot = some m) : (s.campaign m).state = .free := by
  have := List.find?_some h
  simpa using this

theorem Ledger.makeChild (h : Ledger s) (htop : (s.chain p).getLast? = some n) (hkind : (s.campaign n).kind ≠ some .confirm)
    {k : Nat} (ht : s.makeChild n k = .ok t) : Ledger t := by
  obtain rfl : (s.campaign n).pair = p := h.chainPair p n (List.mem_of_getLast? htop)
  unfold State.makeChild at ht
  dsimp only at ht
  split at ht
  · cases ht
  rename_i hdepth
  split at ht
  · cases ht
  split at ht
  · cases ht
  rename_i m hm
  split at ht
  · cases ht
  split at ht
  · cases ht
  rename_i hx hy
  cases ht
  have hfree := State.freeSlot_some hm
  have hmn : n ≠ m := fun e => by
    have := (ledger_iff.1 h).1.chain (s.campaign n).pair
    exact (h.free_slot hfree).1 (e ▸ this.working (List.mem_of_getLast? htop))
  rw [State.campaign_setCampaign, if_neg hmn]
  refine Ledger.seekRoom (h.pushChild htop hkind (Nat.not_lt.1 hdepth) hfree ?_) ?_
  · rfl
  refine (congrArg Campaign.state (State.campaign_setCampaign.trans (if_neg (Ne.symm hmn)))).trans ?_
  rw [State.campaign_setCampaign, if_pos rfl]
  rfl

/-- Walk steps of a chain top that is no confirm: a child made keeps the ledger, and a finished walk leaves nothing it reads. -/
theorem Ledger.walkFrom (h : Ledger u) (htop : (u.chain p).getLast? = some n) (hkind : (u.campaign n).kind ≠ some .confirm)
    (l : List Nat) (hs : u.sameLedger s) :
    ((State.walkFrom n l s).2 = true → Ledger (State.walkFrom n l s).1)
      ∧ ((State.walkFrom n l s).2 = false → u.sameLedger (State.walkFrom n l s).1) := by
  induction l generalizing s with
  | nil => exact ⟨nofun, fun _ => hs.setCampaign rfl⟩
  | cons k rest ih =>
    have hc : u.sameLedger (s.setCampaign n { s.campaign n with cursor := some k }) := hs.setCampaign rfl
    unfold State.walkFrom
    dsimp only
    split
    · rename_i v hv
      refine ⟨fun _ => ?_, nofun⟩
      refine (hc.ledger h).makeChild (p := p) (by rw [hc.chain, htop]) ?_ hv
      obtain ⟨-, -, -, -, -, e⟩ := Campaign.standing_inj (hc.standing n)
      rw [e]; exact hkind
    · exact ih hc.writeRefined

/-- A confirm walks no element (R118). -/
theorem State.toWalk_of_confirm (h : (s.campaign n).kind = some .confirm) : s.toWalk n = [] := by
  unfold State.toWalk
  rw [List.map_eq_nil_iff, List.filter_eq_nil_iff]
  intro r _
  unfold walks
  rw [h]
  cases r.verdict <;> simp

theorem Ledger.walk (h : Ledger s) (htop : (s.chain p).getLast? = some n) :
    ((s.walk n).2 = true → Ledger (s.walk n).1) ∧ ((s.walk n).2 = false → s.sameLedger (s.walk n).1) := by
  unfold State.walk
  by_cases hk : (s.campaign n).kind = some .confirm
  · rw [State.toWalk_of_confirm hk]
    exact ⟨nofun, fun _ => State.sameLedger.setCampaign (.refl s) rfl⟩
  · exact h.walkFrom htop hk _ (.refl s)

/-- A child returns to its parent: it becomes FREE and the parent the chain's top (R89, R123). -/
theorem Ledger.returnChild (h : Ledger s) (hc : s.chain p = front ++ [parent, child]) :
    Ledger (s.returnChild p child parent) ∧ (s.returnChild p child parent).chain p = front ++ [parent] := by
  have he : s.emptied (s.dropSlot child) [child] := s.emptied_nil.dropSlot
  have hlast : (s.chain p).dropLast = front ++ [parent] := by
    rw [hc, List.append_cons, List.dropLast_concat]
  have hres : s.resumeParent p child parent = ((s.dropSlot child).setChain p (front ++ [parent])).setCampaign parent
      { (s.dropSlot child).campaign parent with state := .measuring } := by
    unfold State.resumeParent; rw [hlast]; rfl
  have hledger : Ledger (s.resumeParent p child parent) := by
    rw [hres]; exact h.cutChain hc (List.cons_ne_nil _ _) he
  have hchain : (s.resumeParent p child parent).chain p = front ++ [parent] := by
    rw [hres]; exact State.chain_setChain.trans (if_pos rfl)
  unfold State.returnChild
  dsimp only
  split
  · have hsame : ∀ k c d r, (s.resumeParent p child parent).sameLedger
        ((s.resumeParent p child parent).writeRefined parent k c d r) := fun _ _ _ _ => .writeRefined (.refl _)
    exact ⟨(hsame _ _ _ _).ledger hledger, ((hsame _ _ _ _).chain p).trans hchain⟩
  · exact ⟨hledger, hchain⟩

/-- A chain that walks on and unwinds keeps the ledger (R88 to R90, R119). -/
theorem Ledger.unwind (l : List Slot) (h : Ledger s) (hc : s.chain p = l.reverse) : Ledger (State.unwind p l s) := by
  induction l generalizing s with
  | nil => exact h
  | cons top below ih =>
    have htop : (s.chain p).getLast? = some top := by rw [hc, List.getLast?_reverse, List.head?_cons]
    obtain ⟨hmade, hdone⟩ := h.walk htop
    cases below with
    | nil =>
      unfold State.unwind
      split
      · rename_i v hv; rw [hv] at hmade; exact hmade rfl
      · rename_i v hv
        rw [hv] at hdone
        exact ((hdone rfl).ledger h).finishRoot (((hdone rfl).chain p).trans hc)
    | cons parent rest =>
      unfold State.unwind
      split
      · rename_i v hv; rw [hv] at hmade; exact hmade rfl
      · rename_i v hv
        rw [hv] at hdone
        have hv : v.chain p = rest.reverse ++ [parent, top] := by rw [(hdone rfl).chain p, hc]; simp
        obtain ⟨hl, hchain⟩ := ((hdone rfl).ledger h).returnChild hv
        exact ih hl (by rw [hchain, List.reverse_cons])

/-- The measurement end keeps the ledger (R88). -/
theorem Ledger.measurementEnd (h : Ledger s) : Ledger (s.measurementEnd n) := by
  unfold State.measurementEnd
  dsimp only
  refine Ledger.unwind _ (State.sameLedger.ledger (s := s) (State.sameLedger.classifyCampaign ?_) h) (List.reverse_reverse _).symm
  refine State.sameLedger.foldl (fun v r hv => ?_) _ (.reduceCampaign (.refl s))
  exact .unseen hv rfl

/-! ## ABORT and RELEASE (R93 to R97) -/

/-- The abort of a child: it and what is above it become FREE, and its parent walks on (R96). -/
theorem Ledger.abortChild (h : Ledger s) {below : List Slot} (hc : s.chain p = below.reverse ++ n :: above) :
    Ledger (s.abortChild p n below above) := by
  cases below with
  | nil => exact h
  | cons parent rest =>
    have he : s.emptied ((s.dropSlots above).dropSlot n) (n :: above) := (s.dropSlots_emptied above).dropSlot
    rw [List.reverse_cons, List.append_assoc, List.singleton_append] at hc
    have hcut := h.cutChain hc (List.cons_ne_nil _ _) he
    have hwalk : ∀ (w : State) (d : Nat), Ledger w → w.chain p = rest.reverse ++ [parent] →
        Ledger (State.unwind p (parent :: rest) (match (w.campaign parent).cursor with
          | some k => w.writeRefined parent k .aborted (some d) none
          | none => w)) := fun w d hw hchain => by
      rw [← List.reverse_cons] at hchain
      split
      · have hsame : ∀ k, w.sameLedger (w.writeRefined parent k .aborted (some d) none) := fun _ => .writeRefined (.refl w)
        exact Ledger.unwind _ ((hsame _).ledger hw) (((hsame _).chain p).trans hchain)
      · exact Ledger.unwind _ hw hchain
    unfold State.abortChild
    rw [List.reverse_cons]
    exact hwalk _ _ hcut (State.chain_setChain.trans (if_pos rfl))

end Sys2Proof.Machine
end

section
/-! The ledger through the requests of the Campaign Engine and the boundary (R60 to R97). -/

namespace Sys2Proof.Machine

variable {s t u v : State} {p : Pair} {n m : Slot} {k : OrderNo}

/-! ## Slots out of work -/

/-- A slot out of work that is no order's takes another record out of work, leaving the demand queue (R75, R82, R94). -/
theorem Ledger.unqueue (h : Ledger s) (hw : ¬ (s.campaign n).working) (hn : ¬ s.claimed n) {c : Campaign} (hc : ¬ c.working)
    (hq : c.state ≠ .queued) : Ledger ((s.setDemand (s.cen.demand.filter (fun m => !(m == n)))).setCampaign n c) := by
  obtain ⟨hchains, hd, ho⟩ := ledger_iff.1 h
  have hother : ∀ m, m ≠ n →
      ((s.setDemand (s.cen.demand.filter (fun m => !(m == n)))).setCampaign n c).campaign m = s.campaign m := fun m hm =>
    State.campaign_setCampaign.trans (if_neg hm)
  refine ledger_iff.2 ⟨(hchains.setCampaign hw hc).frame (fun _ => rfl) (fun _ _ => rfl) (fun _ => id), hd.drop rfl (fun m hm => ?_) ?_,
    ho.frame rfl (fun _ => rfl) (fun _ _ => id) (fun _ => id) (fun m hm => .inl ?_)⟩
  · rw [hother m hm]
  · rw [State.campaign_setCampaign, if_pos rfl]; exact hq
  · rw [hother m (fun e => hn (e ▸ hm))]

/-- A slot that is neither at work nor queued nor an order's takes another such record. -/
theorem Ledger.setIdle (h : Ledger s) (hw : ¬ (s.campaign n).working) (hsq : (s.campaign n).state ≠ .queued) (hn : ¬ s.claimed n)
    {c : Campaign} (hc : ¬ c.working) (hq : c.state ≠ .queued) : Ledger (s.setCampaign n c) := by
  obtain ⟨hchains, hd, ho⟩ := ledger_iff.1 h
  refine ledger_iff.2 ⟨hchains.setCampaign hw hc, hd.setCampaign hsq hq,
    ho.frame rfl (fun _ => rfl) (fun _ _ => id) (fun _ => id) (fun m hm => .inl ?_)⟩
  rw [State.campaign_setCampaign, if_neg (fun e : m = n => hn (e ▸ hm))]

/-- A slot in a state that is neither RESERVED nor at work is out of work and no order's. -/
theorem Ledger.idle_of_state (h : Ledger s) {x : CampaignState} (hx : (s.campaign n).state = x)
    (hs : x ∉ [CampaignState.reserved, .awaitingRoom, .measuring, .nested]) : ¬ (s.campaign n).working ∧ ¬ s.claimed n := by
  obtain ⟨hr, ha, hm, hn⟩ : x ≠ .reserved ∧ x ≠ .awaitingRoom ∧ x ≠ .measuring ∧ x ≠ .nested := by simpa using hs
  refine ⟨fun hw => ?_, (ledger_iff.1 h).2.2.not_claimed (hx ▸ hr) (.inl (hx ▸ hm))⟩
  rw [Campaign.working_iff, hx] at hw
  exact hw.elim ha (fun y => y.elim hm hn)

/-- An update the ledger does not read. -/
theorem Ledger.unseen (h : Ledger s) (e : t.ledgerView = s.ledgerView) : Ledger t :=
  (State.sameLedger.unseen (.refl s) e).ledger h

theorem Ledger.setPeriodicList (h : Ledger s) {l : List Slot} : Ledger (s.setPeriodicList l) := h.unseen rfl

/-! ## Requests of the engine (R76, R77, R93 to R97) -/

theorem splitAtSlot_some {l below b a : List Slot} (h : splitAtSlot n l below = some (b, a)) :
    below.reverse ++ l = b.reverse ++ n :: a := by
  induction l generalizing below with
  | nil => cases h
  | cons x rest ih =>
    unfold splitAtSlot at h
    split at h
    · rename_i hx
      cases h
      rw [hx]
    · have := ih h
      rwa [List.reverse_cons, List.append_assoc, List.singleton_append] at this

theorem Ledger.abortOnChain (h : Ledger s) (hk : (s.campaign n).kind ≠ some .confirm) {d : List Byte}
    (ht : s.abortOnChain n = .ok (t, d)) : Ledger t := by
  unfold State.abortOnChain at ht
  dsimp only at ht
  split at ht
  · cases ht
  · rename_i above hsplit
    cases ht
    exact h.abortRoot (splitAtSlot_some hsplit) hk
  · rename_i parent below above hsplit
    cases ht
    exact h.abortChild (splitAtSlot_some hsplit)

theorem Ledger.abortWaiting (h : Ledger s) (hs : (s.campaign n).state = .queued ∨ (s.campaign n).state = .idlePeriodic) :
    Ledger (s.abortWaiting n) := by
  obtain ⟨hw, hn⟩ : ¬ (s.campaign n).working ∧ ¬ s.claimed n := by
    rcases hs with e | e
    · exact h.idle_of_state e (by simp)
    · exact h.idle_of_state e (by simp)
  unfold State.abortWaiting
  refine (State.sameLedger.queueOrigin (.refl _) (campaign_ne_order n)).ledger ?_
  refine (h.setPeriodicList (l := withoutSlot s.cen.periodic n)).unqueue hw hn ?_ ?_
  · simp [Campaign.working]
  · simp

theorem Ledger.answerAbort (h : Ledger s) {slot : Byte} {a : Asker} {d : List Byte} (ht : answerAbort slot a s = .ok (t, d)) :
    Ledger t := by
  unfold Machine.answerAbort at ht
  split at ht
  · cases ht
  · split at ht
    · cases ht
    · rename_i n _ hk
      have hwait : ∀ {e : Bool}, ((s.campaign n).state = .queued ∨ (s.campaign n).state = .idlePeriodic) →
          (if e = true then (.ok (s.abortWaiting n, u8 1) : Answer) else .error .level) = .ok (t, d) → Ledger t := fun {e} hs hx => by
        cases e <;> cases hx
        exact h.abortWaiting hs
      have hchain : ∀ {e : Bool}, (if e = true then s.abortOnChain n else .error .level) = .ok (t, d) → Ledger t := fun {e} hx => by
        cases e
        · cases hx
        · exact h.abortOnChain hk hx
      cases hs : (s.campaign n).state <;> rw [hs] at ht
      case queued => exact hwait (.inl hs) ht
      case idlePeriodic => exact hwait (.inr hs) ht
      case awaitingRoom => exact hchain ht
      case measuring => exact hchain ht
      case nested => exact hchain ht
      all_goals cases ht

theorem Ledger.answerRelease (h : Ledger s) {slot : Byte} {a : Asker} {d : List Byte} (ht : answerRelease slot a s = .ok (t, d)) :
    Ledger t := by
  unfold Machine.answerRelease at ht
  split at ht
  · cases ht
  · rename_i n _
    have hfree : ∀ {e : Bool} {x}, (s.campaign n).state = x → x ∉ [CampaignState.reserved, .awaitingRoom, .measuring, .nested] →
        x ≠ .queued → (if e = true then (.ok (s.freeUp n, u8 n.val) : Answer) else .error .level) = .ok (t, d) → Ledger t :=
      fun {e x} hs hx hq hy => by
        cases e <;> cases hy
        obtain ⟨hw, hn⟩ := h.idle_of_state hs hx
        exact (State.sameLedger.withdrawOrigin (.refl _)).ledger (h.setIdle hw (hs ▸ hq) hn not_working_default nofun)
    cases hs : (s.campaign n).state <;> rw [hs] at ht
    case done => exact hfree hs (by simp) nofun ht
    case failed => exact hfree hs (by simp) nofun ht
    case aborted => exact hfree hs (by simp) nofun ht
    all_goals cases ht

theorem requestedCampaign_state {r : CampaignRequest} {a : Asker} {c : Campaign} (h : requestedCampaign r a = some c) :
    c.state = .queued := by
  unfold requestedCampaign at h
  split at h
  · split at h
    · cases h; rfl
    · cases h
  · cases h

theorem Ledger.answerStart (h : Ledger s) {r : CampaignRequest} {a : Asker} {d : List Byte} (ht : answerStart r a s = .ok (t, d)) :
    Ledger t := by
  unfold Machine.answerStart at ht
  split at ht
  · cases ht
  rename_i c hc
  split at ht
  · cases ht
  rename_i n hn
  split at ht <;> cases ht
  have hfree := State.freeSlot_some hn
  have hstate := requestedCampaign_state hc
  obtain ⟨hchains, hd, ho⟩ := ledger_iff.1 h
  obtain ⟨hw, hun⟩ := h.free_slot hfree
  have hcampaign : ∀ m, ((s.setCampaign n c).setDemand (s.cen.demand ++ [n])).campaign m = if m = n then c else s.campaign m :=
    fun m => State.campaign_setCampaign
  have hnd : n ∉ s.cen.demand := fun x => by rw [hd.queued n, hfree] at x; cases x
  refine ledger_iff.2 ⟨(hchains.setCampaign (c := c) hw ?_).frame (fun _ => rfl) (fun _ _ => rfl) (fun _ => id), ⟨?_, fun m => ?_⟩,
    ho.frame rfl (fun _ => rfl) (fun _ _ => id) (fun _ => id) (fun m hm => .inl ?_)⟩
  · rw [Campaign.working_iff, hstate]; simp
  · exact List.nodup_append.2 ⟨hd.once, List.nodup_singleton _, fun x hx y hy => by
      rw [List.mem_singleton.1 hy]; exact fun e => hnd (e ▸ hx)⟩
  · rw [hcampaign]
    show m ∈ s.cen.demand ++ [n] ↔ _
    rw [List.mem_append, List.mem_singleton, hd.queued m]
    split
    · rename_i e; exact iff_of_true (.inr e) hstate
    · rename_i e; simp [e]
  · rw [hcampaign, if_neg (fun e : m = n => hun (e ▸ hm))]

theorem Ledger.answerSchedule (h : Ledger s) {r : CampaignRequest} {period : BitVec 16} {parity : Byte} {a : Asker} {d : List Byte}
    (ht : answerSchedule r period parity a s = .ok (t, d)) : Ledger t := by
  unfold Machine.answerSchedule at ht
  split at ht
  · split at ht
    · cases ht
    rename_i n hn
    split at ht <;> cases ht
    have hfree := State.freeSlot_some hn
    obtain ⟨hw, hun⟩ := h.free_slot hfree
    refine Ledger.setPeriodicList (h.setIdle hw (hfree ▸ nofun) hun ?_ ?_)
    · simp [Campaign.working]
    · simp
  · cases ht

/-! ## The grant pass (R62 to R66) -/

/-- An order that waits for a channel is granted one (R136). -/
theorem Ledger.grantOrder (h : Ledger s) {o : Order} (ho : s.order k = some o) (hw : o.state = .waitingChannel) (c : Chan) :
    Ledger (s.grantOrder k o c) := by
  have hfree : ∀ d, (s.channel d).holder ≠ some (.order k) := fun d hd => by
    obtain ⟨x, hx, -, hair⟩ := h.holderNamed d k hd
    rw [ho] at hx; cases hx
    rw [hw] at hair; simp at hair
  generalize hx : ({ o.referencing (s.orderLevel o) with channel := some c } : Order) = x
  have hxs : x.state = .referencing := by rw [← hx]; rfl
  have hxc : x.channel = some c := by rw [← hx]
  have hair : x.onAir := by rw [Order.onAir, hxs]; simp
  have hset : Ledger ((s.setOrder k (some x)).clearWorking c) := by
    refine Ledger.unseen (s := s.setOrder k (some x)) (h.setOrder ho ?_ ?_ ?_ (fun d hd => absurd hd (hfree d))) rfl
    · rw [Order.inBurst, hw]; simp
    · exact Order.inBurst_of_onAir hair
    · rw [← hx]; rfl
  generalize hv : (s.setOrder k (some x)).clearWorking c = v at hset
  have hvo : v.order k = some x := by rw [← hv]; exact State.order_setOrder.trans (if_pos rfl)
  have hgrant : Ledger (v.carryGrant c x.pair (.order k) x.signature false) := by
    unfold State.carryGrant
    split
    · have hopen : v.sameLedger (v.openElsewhere c x.pair) := .openElsewhere (.refl v)
      have hoo : (v.openElsewhere c x.pair).order k = some x := by
        rw [← hvo]
        unfold State.openElsewhere State.order
        exact foldl_keeps (P := fun w => w.isu.orders[k] = v.isu.orders[k]) (fun w d hw => by split <;> exact hw) _ rfl
      exact (hopen.ledger hset).setChannel hoo hxc hair rfl
    · split
      · exact hset.setChannel hvo hxc hair rfl
      · exact hset.setChannel hvo hxc hair rfl
  unfold State.grantOrder
  dsimp only
  rw [hx, hv, show (o.referencing (s.orderLevel o)).pair = x.pair by rw [← hx]]
  exact hgrant.unseen rfl

theorem State.considerOrder_order (s : State) {j : OrderNo} (hj : j ≠ k) : (s.considerOrder k).order j = s.order j := by
  have hgrant : ∀ o c, (s.grantOrder k o c).order j = s.order j := fun o c => by
    unfold State.grantOrder
    dsimp only
    generalize ({ o.referencing (s.orderLevel o) with channel := some c } : Order) = x
    have hset : ((s.setOrder k (some x)).clearWorking c).order j = s.order j :=
      State.order_setOrder.trans (if_neg hj)
    generalize (s.setOrder k (some x)).clearWorking c = v at hset
    rw [← hset]
    show (v.carryGrant c _ _ _ _).order j = v.order j
    unfold State.carryGrant
    split
    · unfold State.openElsewhere State.order
      exact foldl_keeps (P := fun w => w.isu.orders[j] = v.isu.orders[j]) (fun w d hw => by split <;> exact hw) _ rfl
    · split <;> rfl
  unfold State.considerOrder
  split
  · rfl
  · split
    · rfl
    · split
      · exact hgrant _ _
      · rfl

/-- The orders that wait are granted one after another (R62, R63). -/
theorem Ledger.considerOrders (h : Ledger s) {l : List OrderNo} (hl : l.Nodup)
    (hwait : ∀ k ∈ l, ∃ o, s.order k = some o ∧ o.state = .waitingChannel) : Ledger (l.foldl State.considerOrder s) := by
  induction l generalizing s with
  | nil => exact h
  | cons k l ih =>
    obtain ⟨hk, hl⟩ := List.nodup_cons.1 hl
    obtain ⟨o, ho, hw⟩ := hwait k List.mem_cons_self
    refine ih ?_ hl (fun j hj => ?_)
    · unfold State.considerOrder
      rw [ho]
      dsimp only
      split
      · exact h
      · split
        · exact h.grantOrder ho hw _
        · exact h
    · rw [s.considerOrder_order (fun e : j = k => hk (e ▸ hj))]
      exact hwait j (List.mem_cons_of_mem _ hj)

theorem mem_waitingOrders (h : k ∈ s.waitingOrders) : ∃ o, s.order k = some o ∧ o.state = .waitingChannel := by
  have := (List.mem_filter.1 h).2
  split at this
  · rename_i o ho
    exact ⟨o, ho, by simpa using this⟩
  · cases this

/-- The grant pass after the clock has moved keeps the ledger (R62 to R66). -/
theorem Ledger.grantPass (h : Ledger s) : Ledger (s.advanceClock.grantPass s) := by
  have hclock : Ledger s.advanceClock := h.unseen rfl
  have horders : Ledger (s.waitingOrders.foldl State.considerOrder s.advanceClock) :=
    hclock.considerOrders (h.acceptedOnce.filter _) (fun k hk => mem_waitingOrders (s := s) hk)
  generalize hv : s.waitingOrders.foldl State.considerOrder s.advanceClock = v at horders
  have htops : ∀ (l : List Pair) (acc : State × List Pair), v.sameLedger acc.1 →
      v.sameLedger (l.foldl (considerTop s) acc).1 := fun l => by
    induction l with
    | nil => exact fun _ ha => ha
    | cons p l ih =>
      refine fun acc ha => ih _ ?_
      unfold considerTop
      split
      · exact ha
      · split
        · exact ha
        · split
          · exact ha.grantSlice
          · exact ha
  unfold State.grantPass
  rw [hv]
  have hout : v.sameLedger ((v.fga.service.foldl (considerTop s) (v, [])).1.setService
      (serviceAfter (v.fga.service.foldl (considerTop s) (v, [])).1.fga.service (v.fga.service.foldl (considerTop s) (v, [])).2)) :=
    .unseen (htops _ (v, []) (.refl v)) rfl
  exact hout.parkUngranted.ledger horders

/-! ## The dispatch pass (R80 to R87) -/

/-- No order in its burst holds the slot. -/
def State.noBurstSlot (s : State) (n : Slot) : Prop := ∀ k o, s.order k = some o → o.inBurst → o.reserved ≠ n

theorem Ledger.noBurstSlot_of_state (h : Ledger s) (hn : (s.campaign n).state ≠ .reserved ∨ (s.campaign n).kind ≠ none) :
    s.noBurstSlot n := fun k o hk hb e => by
  obtain ⟨hs, hi⟩ := (ledger_iff.1 h).2.2.burstSlot k o hk hb
  rw [e] at hs hi
  exact hn.elim (fun x => x hs) (fun x => x hi)

/-- A candidate out of work that no burst reserves becomes the root of its pair's empty chain (R84). -/
theorem Ledger.commitRoot (h : Ledger s) {els : List Element} (hchain : s.chain (s.campaign n).pair = []) (hb : s.noBurstSlot n) :
    Ledger (s.commitRoot n els) := by
  obtain ⟨hchains, hd, ho⟩ := ledger_iff.1 h
  have hw : ¬ (s.campaign n).working := fun hw => by
    have := hchains.onChain n hw
    rw [hchain] at this; cases this
  generalize hp : (s.campaign n).pair = p at hchain
  generalize ht : s.commitRoot n els = t
  have hcampaign : ∀ m, t.campaign m = if m = n then committed (s.campaign n) els else s.campaign m := fun m => by
    rw [← ht]; exact State.campaign_setCampaign
  have hn : t.campaign n = committed (s.campaign n) els := by rw [hcampaign, if_pos rfl]
  have hpair : ((s.setCampaign n (committed (s.campaign n) els)).campaign n).pair = p := by
    rw [State.campaign_setCampaign, if_pos rfl]; exact hp
  have hchaint : ∀ q, t.chain q = if q = p then [n] else s.chain q := fun q => by
    rw [← ht]
    unfold State.commitRoot
    dsimp only
    rw [hpair]
    exact State.chain_setChain
  have htp : t.chain p = [n] := by rw [hchaint, if_pos rfl]
  have hstate : (t.campaign n).state = .measuring := by rw [hn]; rfl
  refine ledger_iff.2 ⟨hchains.replace (p := p) (fun q hq => by rw [hchaint, if_neg hq]) ?_ (fun m hm _ => ?_) (fun m hm hx => ?_),
    hd.drop (n := n) (by rw [← ht]; rfl) (fun m hm => by rw [hcampaign, if_neg hm]) (by rw [hstate]; nofun),
    ho.frame (by rw [← ht]; rfl) (fun k => by rw [← ht]; rfl) (fun c k => by rw [← ht]; exact id)
      (fun k => by rw [← ht]; exact id) (fun m hm => ?_)⟩
  · rw [htp]
    refine ⟨fun m hm => ?_, List.nodup_singleton _, fun i m hi => ?_, fun m hm => ?_, fun m hm => ?_, fun i m x _ hx => ?_⟩
    · rw [List.mem_singleton.1 hm, hn]; exact hp
    · obtain ⟨hlt, e⟩ := List.getElem?_eq_some_iff.1 hi
      obtain rfl : i = 0 := by simpa using hlt
      cases e
      refine ⟨?_, by omega⟩
      show (t.campaign n).depth = 1
      rw [hn]; rfl
    · cases hm; exact .inr hstate
    · cases hm
      rw [hn]
      exact ⟨rfl, nofun⟩
    · cases hx
  · rw [hcampaign, if_neg (fun e : m = n => hw (e ▸ hm))]
  · rw [htp, List.mem_singleton] at hm
    rw [hcampaign, if_neg hm]
    exact hx.resolve_left (by rw [hchain]; nofun)
  · by_cases e : m = n
    · refine .inr ?_
      rw [e] at hm ⊢
      obtain ⟨k, o, hk, hod, hr⟩ := hm
      have hc := (Order.done_iff.1 hod).resolve_left (fun hx => hb k o hk hx hr)
      have hconf := ho.confirmSlot k o hk hc
      rw [hr] at hconf
      refine ⟨hconf, ?_⟩
      rw [State.slotConfirms, hn]
      exact ⟨hconf.1, hconf.2.1, .inr rfl⟩
    · exact .inl (by rw [hcampaign, if_neg e])

/-- A slot that waits as a confirm fails before its verdict (R82, R151). -/
theorem Ledger.failConfirm (h : Ledger s) (hs : (s.campaign n).state = .reserved) (hb : s.noBurstSlot n) {reason : Reason} :
    Ledger (s.failConfirm n reason) := by
  obtain ⟨hchains, hd, ho⟩ := ledger_iff.1 h
  have hw := State.not_working_of_reserved hs
  unfold State.failConfirm
  dsimp only
  split
  · rename_i hf
    refine (State.sameLedger.withdrawOrigin (.refl _)).ledger (h.setIdle hw (by rw [hs]; nofun) ?_ not_working_default nofun)
    rintro ⟨k, o, hk, hod, hr⟩
    rcases Order.done_iff.1 hod with hx | hx
    · exact hb k o hk hx hr
    · exact State.confirmOrder_none hf hk hx hr
  · rename_i k o hf
    obtain ⟨hk, hc, hr⟩ := State.confirmOrder_some hf
    refine ledger_iff.2 ⟨ChainsOk.of_cen (s := s.setCampaign n {}) (hchains.setCampaign hw not_working_default)
        (by rw [State.endOrder_cen]; rfl),
      DemandOk.of_cen (s := s.setCampaign n {}) (hd.setCampaign (by rw [hs]; nofun) nofun) (by rw [State.endOrder_cen]; rfl),
      ho.endOrder hk (Order.done_iff.2 (.inr hc)) hr.symm (.inr (.inr (.inr rfl))) rfl (fun _ _ => rfl) (fun _ _ _ _ _ => rfl)
        (fun d j hj => ⟨fun e => ?_, hj⟩) (fun _ => id)⟩
    subst e
    obtain ⟨y, hy, -, hair⟩ := ho.holderNamed d j hj
    rw [hk] at hy; cases hy
    rw [Order.onAir, hc] at hair; simp at hair

/-- A candidate examined keeps the ledger (R81 to R84). -/
theorem Ledger.examine (h : Ledger s) (hb : s.noBurstSlot n) : Ledger (s.examine n) := by
  unfold State.examine
  split
  · unfold State.failDispatch
    dsimp only
    cases hs : (s.campaign n).state <;> dsimp only
    case queued =>
      obtain ⟨hw, hn⟩ := h.idle_of_state hs (by simp)
      refine (State.sameLedger.queueOrigin (.refl _) (campaign_ne_order n)).ledger (h.unqueue hw hn ?_ ?_)
      · simp [Campaign.working]
      · simp
    case idlePeriodic =>
      refine (State.sameLedger.queueOrigin (State.sameLedger.setCampaign (.refl s) ?_) (campaign_ne_order n)).ledger h
      simp [Campaign.standing, hs]
    case reserved => exact h.failConfirm hs hb
    all_goals exact h
  · unfold State.stageTwo
    dsimp only
    split
    · exact h
    · rename_i hx
      split
      · exact h
      · rename_i t ht
        have hsame : s.sameLedger t := .allocate (.refl s) ht
        obtain ⟨e, -⟩ := Campaign.standing_inj (hsame.standing n)
        refine (hsame.ledger h).commitRoot ?_ (fun k o hk hbo hr => ?_)
        · rw [e, hsame.chain]
          simpa using (show _ ∧ _ by simpa using hx).1
        · obtain ⟨x, hx, hst⟩ := hsame.exists_order hk
          obtain ⟨h1, h2, -⟩ := OrderStanding.mk.inj hst
          exact hb k x hx (by rw [Order.inBurst, h1]; exact hbo) (h2.trans hr)

/-- Dispatch brings no order into its burst. -/
theorem State.examine_noBurst {k : OrderNo} {o : Order} (hk : (s.examine n).order k = some o) (hb : o.inBurst) : s.order k = some o := by
  have hfail : ∀ {reason}, (s.failConfirm n reason).order k = some o → s.order k = some o := fun {reason} hk => by
    unfold State.failConfirm at hk
    dsimp only at hk
    split at hk
    · exact hk
    · rename_i j x _
      rw [State.endOrder_order] at hk
      split at hk
      · cases hk
        rw [Order.inBurst] at hb
        simp at hb
      · exact hk
  unfold State.examine at hk
  split at hk
  · unfold State.failDispatch at hk
    dsimp only at hk
    split at hk
    · rw [State.queueOrigin_eq] at hk; exact hk
    · rw [State.queueOrigin_eq] at hk; exact hk
    · exact hfail hk
    all_goals exact hk
  · unfold State.stageTwo at hk
    dsimp only at hk
    split at hk
    · exact hk
    · split at hk
      · exact hk
      · rename_i t ht
        unfold State.allocate at ht
        split at ht <;> cases ht
        exact hk

/-- Candidates examined one after another keep the ledger (R80). -/
theorem Ledger.examineAll (h : Ledger s) {l : List Slot} (hb : ∀ n ∈ l, s.noBurstSlot n) : Ledger (l.foldl State.examine s) := by
  induction l generalizing s with
  | nil => exact h
  | cons n l ih =>
    exact ih (h.examine (hb n List.mem_cons_self)) (fun m hm k o hk ho =>
      hb m (List.mem_cons_of_mem _ hm) k o (State.examine_noBurst hk ho) ho)

theorem Ledger.retryRoom (h : Ledger s) : Ledger (s.retryRoom p) := by
  unfold State.retryRoom
  split
  · exact h
  · split
    · rename_i hs; exact h.seekRoom hs
    · exact h

/-- The dispatch pass keeps the ledger (R80). -/
theorem Ledger.dispatchPass (h : Ledger s) : Ledger s.dispatchPass := by
  unfold State.dispatchPass
  dsimp only
  have h1 : Ledger (allPairs.foldl State.retryRoom s) := foldl_keeps (fun v p hv => hv.retryRoom) _ h
  generalize allPairs.foldl State.retryRoom s = a at h1
  have h2 : Ledger (a.waitingConfirms.foldl State.examine a) := h1.examineAll (fun n hn => h1.noBurstSlot_of_state (.inr ?_))
  · generalize a.waitingConfirms.foldl State.examine a = b at h2
    have h3 : Ledger (b.dueSlots.foldl State.examine b) := h2.examineAll (fun n hn => h2.noBurstSlot_of_state (.inl ?_))
    · generalize b.dueSlots.foldl State.examine b = c at h3
      exact h3.examineAll (fun n hn => h3.noBurstSlot_of_state (.inl (by rw [(h3.demandQueued n).1 hn]; nofun)))
    · have := (List.mem_filter.1 hn).2
      have hs : (b.campaign n).state = .idlePeriodic := by
        rw [Bool.and_eq_true] at this
        simpa using this.1
      rw [hs]; nofun
  · obtain ⟨k, -, hk⟩ := List.mem_filterMap.1 hn
    split at hk
    · split at hk
      · rename_i hc
        cases hk
        rw [hc.2.2]; nofun
      · cases hk
    · cases hk

end Sys2Proof.Machine
end

section
/-! The ledger through the transmitter, the bursts of orders and the periods of slices (R32 to R37, R136 to R153, R184, R185). -/

namespace Sys2Proof.Machine

variable {s t u v : State} {p : Pair} {n m : Slot} {k : OrderNo} {o x : Order} {c : Chan}

/-! ## The transmitter (R184, R185) -/

/-- The transmitter's choice keeps the ledger: an order's record is freed with its one report (R153, R183). -/
theorem Ledger.chooseNext (h : Ledger s) (hn : s.clk.reports.Nodup) : Ledger s.chooseNext := by
  unfold State.chooseNext
  split
  · exact h.unseen rfl
  · split
    · exact h.unseen rfl
    · rename_i origin rest hrest
      rw [hrest] at hn
      have hsame : s.sameLedger (s.setReports rest) :=
        State.sameLedger.setReports (.refl s) (fun j hj => by rw [hrest]; exact List.mem_cons_of_mem _ hj)
      have hled := hsame.ledger h
      have hbuilt : Ledger ((s.setReports rest).buildReport origin).2 := by
        unfold State.buildReport
        split
        · exact hled
        · rename_i k
          split
          · exact hled
          · rename_i o ho
            obtain ⟨y, hy, hd⟩ := h.reportedDone k (by rw [hrest]; exact List.mem_cons_self)
            obtain rfl : y = o := Option.some.inj (hy.symm.trans ho)
            exact hled.orderReported ho hd (List.nodup_cons.1 hn).1
        · exact (State.sameLedger.pairReported (.refl _)).ledger hled
        · exact hled
        · exact hled
      exact hbuilt.unseen rfl

/-- The end of an event that keeps the queues' rules keeps the ledger (R185). -/
theorem Ledger.concludeEvent (h : Ledger t) (hl : s.linkCoherent) (hq : s.keepsQueues t) : Ledger t.concludeEvent := by
  have hn : t.clk.reports.Nodup := (hq.1 hl).2.1
  unfold State.concludeEvent
  split
  · exact h.chooseNext hn
  · exact h
  · exact h

/-! ## The end of a burst (R144 to R150) -/

/-- An order in its burst holds no channel: the record is as given, and no channel is its. -/
def State.offAir (s : State) (k : OrderNo) (o : Order) : Prop :=
  s.order k = some o ∧ o.inBurst ∧ ∀ d, (s.channel d).holder ≠ some (.order k)

theorem State.offAir.failOrder (h : s.offAir k x) (hl : Ledger s) {o : Order} {reason : Reason}
    {c : Condition} (ho : o.reserved = x.reserved) : Ledger (s.failOrder k o reason c) :=
  hl.endOrder h.1 h.2.1 ho h.2.2 (.inr (.inr (.inl rfl)))

theorem State.offAir.refuseOrder (h : s.offAir k x) (hl : Ledger s) {o : Order} (ho : o.reserved = x.reserved) :
    Ledger (s.refuseOrder k o) :=
  hl.endOrder h.1 h.2.1 ho h.2.2 (.inr (.inl rfl))

theorem State.offAir.makeConfirm (h : s.offAir k x) (hl : Ledger s) {o : Order} (ho : o.reserved = x.reserved) :
    Ledger (s.makeConfirm k o) := by
  unfold State.makeConfirm
  split
  · exact hl.endOrder h.1 h.2.1 ho h.2.2 (.inr (.inr (.inr rfl)))
  · exact hl.confirm h.1 h.2.1 h.2.2 rfl ho ⟨rfl, rfl, rfl⟩

/-- A chain failure leaves an order off the air as it is: only a CONFIRMING order ends with its chain (R91, R151). -/
theorem State.offAir.failChain (h : s.offAir k o) {reason : Reason} : (s.failChain p reason).offAir k o := by
  obtain ⟨ho, hb, hd⟩ := h
  have hfail : ∀ {v : State} {root}, v.isu = s.isu → (∀ d, (v.channel d).holder ≠ some (.order k)) →
      (v.failRoot root reason).offAir k o := fun {v root} hv hvd => by
    have hvo : v.order k = some o := by rw [← ho, State.order, hv]; rfl
    have hqueue : ∀ c : Campaign, ((v.setCampaign root c).queueOrigin (.campaign root)).offAir k o := fun c => by
      rw [State.queueOrigin_eq]; exact ⟨hvo, hb, hvd⟩
    unfold State.failRoot
    dsimp only
    split
    · exact hqueue _
    · exact hqueue _
    · exact hqueue _
    · unfold State.failConfirm
      dsimp only
      split
      · exact ⟨hvo, hb, hvd⟩
      · rename_i j y hy
        obtain ⟨hj, hc, -⟩ := State.confirmOrder_some hy
        refine ⟨?_, hb, fun d => ?_⟩
        · rw [State.endOrder_order, if_neg]
          · exact hvo
          · intro e
            rw [← e, hvo] at hj
            cases hj
            rw [Order.inBurst, hc] at hb; simp at hb
        · unfold State.channel
          rw [State.endOrder_pch]
          exact hvd d
  unfold State.failChain
  split
  · exact ⟨ho, hb, hd⟩
  · rename_i root above hc
    have he : s.emptied ((s.dropSlots above).releaseExtent root) above := (s.dropSlots_emptied above).released
    exact hfail he.orders.isu (fun d hx => hd d (he.orders.holder d k hx))

/-- The effect of an accepted order keeps the ledger and the order itself (R148, R149). -/
theorem Ledger.applyEffect (h : Ledger s) (ho : s.offAir k o) (x : Order) :
    Ledger (s.applyEffect x) ∧ (s.applyEffect x).offAir k o := by
  have hspare : ∀ f, Ledger (s.changeSpare x.entry f) ∧ (s.changeSpare x.entry f).offAir k o := fun f =>
    ⟨(State.sameLedger.changeSpare (.refl s)).ledger h, by unfold State.changeSpare; split <;> exact ho⟩
  have hroute : ∀ leg, Ledger ((s.setRoute x.entry leg).failRoutedChains x.entry)
      ∧ ((s.setRoute x.entry leg).failRoutedChains x.entry).offAir k o := fun leg => by
    unfold State.failRoutedChains
    refine foldl_keeps (P := fun v => Ledger v ∧ v.offAir k o) (fun v p hv => ?_) _
      ⟨(State.sameLedger.setRoute (.refl s)).ledger h, by unfold State.setRoute; split <;> exact ho⟩
    split
    · exact ⟨hv.1.failChain, hv.2.failChain⟩
    · exact hv
  unfold State.applyEffect
  cases x.action with
  | pumpToSpare => exact ⟨(hspare _).1.unseen rfl, (hspare _).2⟩
  | pumpRestore => exact ⟨(hspare _).1.unseen rfl, (hspare _).2⟩
  | gainHold => exact ⟨h.unseen rfl, ho⟩
  | gainRelease => exact ⟨h.unseen rfl, ho⟩
  | loopMute => exact ⟨h.unseen rfl, ho⟩
  | routeA => exact hroute .a
  | routeB => exact hroute .b

/-! ## Periods of a burst (R136 to R145) -/

/-- What stands on a channel that an order holds, and its record. -/
theorem State.burstOn_some (h : s.burstOn c = some (k, o)) : (s.channel c).holder = some (.order k) ∧ s.order k = some o := by
  unfold State.burstOn at h
  split at h
  · rename_i j _ hj
    obtain ⟨x, hx, e⟩ := Option.map_eq_some_iff.1 h
    cases e
    exact ⟨hj, hx⟩
  · cases h

/-- An order on the air takes another record on the air that names its channel still. -/
theorem Ledger.setHeld (h : Ledger s) (hk : (s.channel c).holder = some (.order k)) (ho : s.order k = some o)
    (hr : x.reserved = o.reserved) (hc : x.channel = o.channel) (hair : x.onAir) : Ledger (s.setOrder k (some x)) := by
  obtain ⟨y, hy, -, hyair, -⟩ := h.heldOrder hk
  obtain rfl : y = o := Option.some.inj (hy.symm.trans ho)
  refine h.setOrder ho (Order.inBurst_of_onAir hyair) (Order.inBurst_of_onAir hair) hr (fun d hd => ⟨?_, hair⟩)
  obtain ⟨z, hz, hzc, -⟩ := h.holderNamed d k hd
  obtain rfl : z = y := Option.some.inj (hz.symm.trans ho)
  rw [hc, hzc]

/-- A burst's channel given back leaves its order off the air. -/
theorem Ledger.offAir_endBurst (h : Ledger s) (hk : (s.channel c).holder = some (.order k)) (ho : s.order k = some o)
    (hx : x.inBurst) (hr : x.reserved = o.reserved) :
    Ledger ((s.setOrder k (some x)).endBurst c p) ∧ ((s.setOrder k (some x)).endBurst c p).offAir k x := by
  obtain ⟨hl, hxo, hd⟩ := h.endBurst (p := p) ho hk hx hr
  exact ⟨hl, hxo, hx, hd⟩

theorem Ledger.referencePeriod (h : Ledger s) (hb : s.burstOn c = some (k, o)) (hs : o.state = .referencing)
    {samples : List Sample} : Ledger (s.referencePeriod c k o samples) := by
  obtain ⟨hk, ho⟩ := State.burstOn_some hb
  have hair : o.onAir := by rw [Order.onAir, hs]; simp
  have hv : Ledger ((s.addReference c o samples).setInverted c false) := h.unseen rfl
  have hvk : (((s.addReference c o samples).setInverted c false).channel c).holder = some (.order k) := hk
  have hvo : ((s.addReference c o samples).setInverted c false).order k = some o := ho
  unfold State.referencePeriod
  dsimp only
  generalize (s.addReference c o samples).setInverted c false = v at hv hvk hvo
  split
  · exact hv.setHeld hvk hvo rfl rfl hair
  · unfold State.judgeReference
    split
    · obtain ⟨hl, hoff⟩ := hv.offAir_endBurst (p := o.pair) (x := { v.measuredReference c o with channel := none }) hvk hvo
        (Order.inBurst_of_onAir (o := { v.measuredReference c o with channel := none }) hair) rfl
      exact hoff.failOrder hl rfl
    · exact hv.setHeld hvk hvo rfl rfl (by simp [Order.onAir, Order.sending])

theorem Ledger.wordPeriod (h : Ledger s) (hb : s.burstOn c = some (k, o)) (hs : o.state = .sending) : Ledger (s.wordPeriod c k o) := by
  obtain ⟨hk, ho⟩ := State.burstOn_some hb
  have hv : Ledger (s.setInverted c (sentBit o)) := h.unseen rfl
  unfold State.wordPeriod
  refine hv.setHeld (o := o) hk ho ?_ ?_ ?_
  · split <;> rfl
  · split <;> rfl
  · split
    · rw [Order.onAir, hs]; simp
    · simp [Order.onAir, Order.listening]

theorem Ledger.concludeAttempt (h : Ledger s) (hk : (s.channel c).holder = some (.order k)) (ho : s.order k = some o)
    (hs : x.state = .listening) (hr : x.reserved = o.reserved) (hc : x.channel = o.channel) {outcome : AttemptOutcome} :
    Ledger (s.concludeAttempt k x c outcome) := by
  have hburst : ∀ y : Order, y.state = .listening → y.inBurst := fun y hy => by rw [Order.inBurst, hy]; simp
  have hend : ∀ y : Order, y.state = .listening → y.reserved = o.reserved →
      Ledger ((s.setOrder k (some y)).endBurst c x.pair) ∧ ((s.setOrder k (some y)).endBurst c x.pair).offAir k y :=
    fun y hy hyr => h.offAir_endBurst hk ho (hburst y hy) hyr
  have hretry : ∀ r reason, Ledger
      (if x.attempts + 1 < x.limit then
        s.setOrder k (some (Order.sending { x with attempts := x.attempts + 1, lastOutcome := some r }))
      else ((s.setOrder k (some { x with attempts := x.attempts + 1, lastOutcome := some r, channel := none })).endBurst c
        x.pair).failOrder k { x with attempts := x.attempts + 1, lastOutcome := some r } reason .unresolved) := fun r reason => by
    split
    · exact h.setHeld hk ho hr hc (by simp [Order.onAir, Order.sending])
    · obtain ⟨hl, hoff⟩ := hend { x with attempts := x.attempts + 1, lastOutcome := some r, channel := none } hs hr
      exact hoff.failOrder hl rfl
  unfold State.concludeAttempt
  dsimp only
  cases outcome with
  | accept =>
    obtain ⟨hl, hoff⟩ := hend { x with attempts := x.attempts + 1, lastOutcome := some .accept, channel := none } hs hr
    obtain ⟨hl', hoff'⟩ := hl.applyEffect hoff { x with attempts := x.attempts + 1, lastOutcome := some .accept }
    exact hoff'.makeConfirm hl' rfl
  | refuse =>
    obtain ⟨hl, hoff⟩ := hend { x with attempts := x.attempts + 1, lastOutcome := some .refuse, channel := none } hs hr
    exact hoff.refuseOrder hl rfl
  | garbled => exact hretry .garbled _
  | noAnswer => exact hretry .noAnswer _
  | channelLost => exact hretry .channelLost _

theorem Ledger.listeningPeriod (h : Ledger s) (hb : s.burstOn c = some (k, o)) (hs : o.state = .listening) {samples : List Sample} :
    Ledger (s.listeningPeriod c k o samples) := by
  obtain ⟨hk, ho⟩ := State.burstOn_some hb
  have hv : Ledger (s.setInverted c false) := h.unseen rfl
  unfold State.listeningPeriod
  dsimp only
  split
  · exact hv.setHeld (o := o) hk ho rfl rfl (by rw [Order.onAir, hs]; simp)
  · refine hv.concludeAttempt (o := o) hk ho ?_ ?_ ?_
    · exact hs
    · rfl
    · rfl

/-! ## A burst that loses its channel or is restarted (R27, R32, R144) -/

theorem Ledger.disconnect (h : Ledger s) : Ledger (s.disconnect c) := by
  have hsame : s.sameLedger (s.setChannel c {}) := .setChannel (.refl s) nofun
  unfold State.disconnect
  split
  · rename_i k hk
    split
    · rename_i o ho
      obtain ⟨y, hy, -, hair, hone⟩ := h.heldOrder hk
      obtain rfl : y = o := Option.some.inj (hy.symm.trans ho)
      have hv : s.sameLedger ((s.setChannel c {}).zeroChainTop y.pair) := hsame.zeroChainTop
      obtain ⟨hpch, hisu, -⟩ := (s.setChannel c {}).zeroChainTop_frame y.pair
      have hvo : ((s.setChannel c {}).zeroChainTop y.pair).order k = some y := by rw [State.order, hisu]; exact ho
      have hfree : ∀ d, (((s.setChannel c {}).zeroChainTop y.pair).channel d).holder ≠ some (.order k) := fun d hd => by
        unfold State.channel at hd
        rw [hpch] at hd
        change ((s.setChannel c {}).channel d).holder = _ at hd
        rw [State.channel_setChannel] at hd
        split at hd
        · cases hd
        · rename_i hdc; exact hdc (hone d hd)
      have hb := Order.inBurst_of_onAir hair
      unfold State.loseChannel
      dsimp only
      generalize (s.setChannel c {}).zeroChainTop y.pair = v at hv hvo hfree
      split
      · exact (hv.ledger h).setOrder hvo hb (by simp [Order.inBurst]) rfl (fun d hd => absurd hd (hfree d))
      · exact State.offAir.failOrder (x := y) ⟨hvo, hb, hfree⟩ (hv.ledger h) rfl
    · exact hsame.ledger h
  · exact hsame.ledger h
  · exact hsame.ledger h

theorem Ledger.restartBurst (h : Ledger s) (hk : (s.channel c).holder = some (.order k)) (ho : s.order k = some o) :
    Ledger (s.restartBurst c k o) := by
  have hset : Ledger ((s.setOrder k (some (o.referencing (s.orderLevel o)))).clearWorking c) :=
    Ledger.unseen (s := s.setOrder k (some (o.referencing (s.orderLevel o))))
      (h.setHeld hk ho rfl rfl (by simp [Order.onAir, Order.referencing])) rfl
  unfold State.restartBurst
  dsimp only
  split
  · exact hset
  · refine State.sameLedger.ledger (State.sameLedger.setChannel (.refl _) ?_) hset
    exact fun _ hj => hj

theorem Ledger.cutByCeiling (h : Ledger s) : Ledger (s.cutByCeiling c p) := by
  have hpark : s.sameLedger (s.setChannel c (parked (s.channel c))) := .setChannel (.refl s) nofun
  unfold State.cutByCeiling
  split
  · split
    · exact hpark.zeroCampaign.ledger h
    · exact h
  · rename_i k hk
    split
    · rename_i o ho
      split
      · exact h.restartBurst hk ho
      · exact h
    · exact h
  · split
    · split
      · exact hpark.ledger h
      · exact h
    · exact h

/-! ## Periods of a slice (R36, R37, R47) -/

theorem Ledger.slicePeriod (h : Ledger s) {remaining : Nat} {lit present : Bool} {samples : List Sample} :
    Ledger (s.slicePeriod c n remaining lit present samples) := by
  have htake : s.sameLedger (s.takePeriod n present samples) := by
    unfold State.takePeriod
    split
    · exact .acceptPeriod (.refl s)
    · exact .refl s
  unfold State.slicePeriod
  dsimp only
  generalize s.takePeriod n present samples = v at htake
  split
  · have hjudged : s.sameLedger ((v.coast c).judgeSlice n (lit || present)) :=
      State.sameLedger.setCampaign (s := v.coast c) htake.coast rfl
    generalize (v.coast c).judgeSlice n (lit || present) = w at hjudged
    unfold State.afterSlice
    dsimp only
    split
    · exact (hjudged.ledger h).measurementEnd
    · split
      · exact (hjudged.markDark.ledger h).failChain
      · exact hjudged.ledger h
  · refine State.sameLedger.ledger (State.sameLedger.setChannel htake ?_) h
    exact fun _ hj => by cases hj

end Sys2Proof.Machine
end

section
/-! The ledger through every request and event, and the invariants of queues and settings at a step. -/

namespace Sys2Proof.Machine

variable {s t u v : State} {a : Asker} {d : List Byte}

/-! ## What the blocks answer -/

theorem Ledger.setCondition (h : Ledger s) {i : Index} {p : Pair} {c : Condition} : Ledger (s.setCondition i p c) :=
  (State.sameLedger.setCondition (.refl s)).ledger h

theorem Ledger.answerSelectSpan (h : Ledger s) {span : Byte} (ha : answerSelectSpan span a s = .ok (t, d)) : Ledger t := by
  unfold Machine.answerSelectSpan at ha
  split at ha <;> cases ha
  exact h.unseen rfl

theorem Ledger.answerSetSourceLevel (h : Ledger s) {x l : Byte} (ha : answerSetSourceLevel x l a s = .ok (t, d)) : Ledger t := by
  unfold Machine.answerSetSourceLevel at ha
  split at ha
  · split at ha
    · cases ha
    · split at ha <;> cases ha
      exact h.unseen rfl
  · cases ha

theorem State.freeOrder_some {k : OrderNo} (h : s.freeOrder = some k) : s.order k = none := by
  have := List.find?_some h
  simpa using this

theorem Ledger.answerIsolate (h : Ledger s) {gate : Byte} {ref : Reference} {pair argument force : Byte}
    (ha : answerIsolate gate ref pair argument force a s = .ok (t, d)) : Ledger t := by
  unfold Machine.answerIsolate at ha
  split at ha
  · split at ha
    · cases ha
    · split at ha
      · cases ha
      · split at ha
        · cases ha
        · cases ha
        · rename_i k n hk hn
          cases ha
          have hacc : ∀ g x i p, Ledger (((s.setOrder k (some (s.newOrder g x i p argument a n))).setAcceptance
              (s.isu.acceptance ++ [k])).setCampaign n { state := .reserved }) := fun g x i p =>
            h.accept (o := s.newOrder g x i p argument a n) (State.freeOrder_some hk) (State.freeSlot_some hn) rfl
          exact Ledger.setCondition ((State.sameLedger.setOrderMark (.refl _)).ledger (hacc _ _ _ _))
  · cases ha

theorem Ledger.answerWithdrawOrder (h : Ledger s) {order : Byte} (ha : answerWithdrawOrder order a s = .ok (t, d)) : Ledger t := by
  unfold Machine.answerWithdrawOrder at ha
  split at ha
  · cases ha
  · rename_i k _
    split at ha
    · cases ha
    · rename_i o ho
      split at ha
      · cases ha
      · rename_i hw
        split at ha <;> cases ha
        have hw : o.state = .waitingChannel := by simpa using hw
        refine State.offAir.failOrder (x := o) ⟨ho, by rw [Order.inBurst, hw]; simp, fun c hc => ?_⟩ h rfl
        obtain ⟨x, hx, -, hair⟩ := h.holderNamed c k hc
        rw [ho] at hx; cases hx
        rw [hw] at hair; simp at hair

theorem Ledger.answerAdopt (h : Ledger s) {slot : Byte} (ha : answerAdopt slot a s = .ok (t, d)) : Ledger t := by
  have hadopt : ∀ (p : Pair) (l : List ResultElement) (acc : State × Nat × Nat), Ledger acc.1 →
      Ledger (l.foldl (adoptElement p) acc).1 := fun p l => by
    induction l with
    | nil => exact fun _ hx => hx
    | cons r l ih =>
      refine fun acc hx => ih _ ?_
      unfold adoptElement
      split
      · exact hx
      · split
        · exact hx
        · exact hx.unseen rfl
  unfold Machine.answerAdopt at ha
  split at ha
  · cases ha
  · split at ha <;> cases ha
    exact hadopt _ _ (s, 0, 0) h

theorem Ledger.answerDropBaseline (h : Ledger s) {p : Byte} {f l : BitVec 16} (ha : answerDropBaseline p f l a s = .ok (t, d)) :
    Ledger t := by
  unfold Machine.answerDropBaseline at ha
  split at ha
  · split at ha <;> cases ha
    exact foldl_keeps (fun v i hv => hv.unseen rfl) _ h
  · cases ha

theorem Ledger.answerCommit (h : Ledger s) {p : Byte} {f : BitVec 16} {c : Byte} (ha : answerCommit p f c a s = .ok (t, d)) :
    Ledger t := by
  unfold Machine.answerCommit at ha
  split at ha
  · split at ha <;> cases ha
    exact (State.sameLedger.advanceCommit (s := s.setStaging _) _ (.refl _)).ledger (h.unseen rfl)
  · cases ha

theorem Ledger.answerClearCondition (h : Ledger s) {ref : Reference} {p : Byte} (ha : answerClearCondition ref p a s = .ok (t, d)) :
    Ledger t := by
  unfold Machine.answerClearCondition at ha
  split at ha
  · split at ha <;> cases ha
    exact foldl_keeps (fun v p hv => hv.setCondition) _ h
  · cases ha

theorem Ledger.restartRecord (h : Ledger s) {i : Index} {p : Pair} : Ledger (s.restartRecord i p) := by
  unfold State.restartRecord
  split
  · exact h.unseen rfl
  · exact (State.sameLedger.queueOrigin (.refl _) (fun _ e => by cases e)).ledger (h.unseen (t := s.setRecord i p _) rfl)

theorem Ledger.answerDefineEntry (h : Ledger s) {ref : Reference} {k ad sp r : Byte}
    (ha : answerDefineEntry ref k ad sp r a s = .ok (t, d)) : Ledger t := by
  unfold Machine.answerDefineEntry at ha
  split at ha
  · cases ha
  · split at ha
    · cases ha
    · split at ha
      · cases ha
      · split at ha
        · cases ha
        · rename_i i _ _ k _ _ _
          have hset : ∀ e, Ledger (s.setEntry i e) := fun _ => h.unseen rfl
          have hall : ∀ e, Ledger ((s.setEntry i e).restartRecords i) := fun e =>
            foldl_keeps (P := Ledger) (fun v p hv => hv.restartRecord) allPairs (hset e)
          split at ha
          · cases ha
          · obtain ⟨rfl, -⟩ := Prod.mk.inj (Except.ok.inj ha)
            exact hall _

theorem Ledger.answerDropEntry (h : Ledger s) {ref : Reference} (ha : answerDropEntry ref a s = .ok (t, d)) : Ledger t := by
  unfold Machine.answerDropEntry at ha
  split at ha
  · cases ha
  · split at ha
    · cases ha
    · split at ha <;> cases ha
      · exact h
      · exact foldl_keeps (fun v p hv => hv.unseen rfl) _ (h.unseen (t := s.setEntry _ _) rfl)

theorem Ledger.answerPathAppend (h : Ledger s) {r : Byte} {l : List SentElement} (ha : answerPathAppend r l a s = .ok (t, d)) :
    Ledger t := by
  unfold Machine.answerPathAppend at ha
  split at ha
  · cases ha
  · dsimp only at ha
    generalize (if r = 1 then [] else s.assemblyList a.source) ++ _ = l at ha
    split at ha <;> cases ha
    exact h.unseen rfl

theorem Ledger.answerSetPath (h : Ledger s) {p : Byte} (ha : answerSetPath p a s = .ok (t, d)) : Ledger t := by
  unfold Machine.answerSetPath at ha
  split at ha
  · cases ha
  · dsimp only at ha
    split at ha
    · cases ha
    · split at ha
      · cases ha
      · split at ha
        · cases ha
        · split at ha <;> cases ha
          exact foldl_keeps (fun v i hv => hv.setCondition) _ (h.unseen (t := (s.setPath _ _).setAssemblyList _ _) rfl)

theorem Ledger.answerSetCrosspoint (h : Ledger s) {c p m : Byte} (ha : answerSetCrosspoint c p m a s = .ok (t, d)) : Ledger t := by
  unfold Machine.answerSetCrosspoint at ha
  split at ha
  · rename_i c p _ _
    have hset : Ledger (s.setPointEnabled c p (m == 1)) := h.unseen rfl
    dsimp only at ha
    cases ha
    split
    · exact hset.disconnect
    · exact hset
  · cases ha

theorem Ledger.answerSetCeiling (h : Ledger s) {p : Byte} {x : BitVec 16} (ha : answerSetCeiling p x a s = .ok (t, d)) : Ledger t := by
  unfold Machine.answerSetCeiling at ha
  split at ha
  · cases ha
  · rename_i p _
    have hset : ∀ y, Ledger (s.setCeilingOf p y) := fun _ => h.unseen rfl
    cases ha
    unfold State.applyCeiling
    split
    · split
      · exact (hset _).cutByCeiling
      · exact hset _
    · exact hset _

theorem Ledger.answerSetOrderSettings (h : Ledger s) {c q l : Byte} (ha : answerSetOrderSettings c q l a s = .ok (t, d)) :
    Ledger t := by
  unfold Machine.answerSetOrderSettings at ha
  split at ha <;> cases ha
  exact h.unseen rfl

theorem Ledger.answerSetTiming (h : Ledger s) {c : Byte} {x : BitVec 16} (ha : answerSetTiming c x a s = .ok (t, d)) : Ledger t := by
  cases ha
  refine Ledger.unseen (s := s.setTimingValue c x) ?_ rfl
  unfold State.setTimingValue
  split
  · exact h.unseen rfl
  · exact h

theorem Ledger.answerSetThresholds (h : Ledger s) {f x y : BitVec 16} (ha : answerSetThresholds f x y a s = .ok (t, d)) :
    Ledger t := by
  cases ha
  exact h.unseen rfl

theorem Ledger.answerDefineGate (h : Ledger s) {n : Byte} {g : GateRequest} (ha : answerDefineGate n g a s = .ok (t, d)) :
    Ledger t := by
  unfold Machine.answerDefineGate at ha
  split at ha <;> cases ha
  exact h.unseen rfl

theorem Ledger.answerDropGate (h : Ledger s) {n : Byte} (ha : answerDropGate n a s = .ok (t, d)) : Ledger t := by
  unfold Machine.answerDropGate at ha
  split at ha <;> cases ha
  exact h.unseen rfl

theorem Ledger.answerEraseBlock (h : Ledger s) {b : Byte} (ha : answerEraseBlock b a s = .ok (t, d)) : Ledger t := by
  unfold Machine.answerEraseBlock at ha
  split at ha
  · cases ha
  · split at ha <;> cases ha
    exact h.unseen rfl

/-! ## Requests taken -/

theorem State.keepsQueues_refl (s : State) : s.keepsQueues s := ⟨id, id, id, id, id⟩

/-- A frame taken keeps the ledger as its block's answer does (R179). -/
theorem Ledger.takeFrame (h : Ledger s) (hl : s.linkCoherent) {x : Header} {kind : Byte} {wm : Bool} {needed : Level}
    {act : Asker → State → Answer}
    (hkeep : ∀ {Q : State → Prop}, Asked Q → ∀ {a t d}, act a s = .ok (t, d) → Q s → Q t)
    (hact : ∀ {a t d}, act a s = .ok (t, d) → Ledger t) : Ledger (s.takeFrame x kind wm needed act) := by
  unfold State.takeFrame
  split
  · exact h
  · split
    · exact h
    · rename_i hd
      have hroom := Kept.room_of_not_discards hd
      unfold State.answerRequest
      split
      · rename_i t d ht
        unfold State.judgeRequest at ht
        split at ht
        · cases ht
        · split at ht
          · split at ht
            · cases ht
            · have h1 : t.clk.replies = s.clk.replies := hkeep (quiet_replies _) ht rfl
              have hq := hkeep (kept_keepsQueues s).toAsked ht s.keepsQueues_refl
              exact Ledger.concludeEvent (t := t.queueReply _) ((hact ht).unseen rfl) hl
                ((kept_keepsQueues s).queueReply (by rw [h1]; exact hroom) hq)
          · cases ht
      · exact Ledger.concludeEvent (t := s.queueReply _) (h.unseen rfl) hl ((kept_keepsQueues s).queueReply hroom s.keepsQueues_refl)

theorem Ledger.takeUnknown (h : Ledger s) (hl : s.linkCoherent) {x : Header} {kind : Byte} : Ledger (s.takeUnknown x kind) := by
  unfold State.takeUnknown
  split
  · exact h
  · split
    · exact h
    · rename_i hd
      exact Ledger.concludeEvent (t := s.queueReply _) (h.unseen rfl) hl
        ((kept_keepsQueues s).queueReply (Kept.room_of_not_discards hd) s.keepsQueues_refl)

theorem Ledger.takeMisshapen (h : Ledger s) (hl : s.linkCoherent) {x : Header} {kind : Byte} : Ledger (s.takeMisshapen x kind) :=
  h.takeFrame hl (fun _ _ _ _ ha _ => nomatch ha) (fun ha => nomatch ha)

/-- Every request taken keeps the ledger. -/
theorem Ledger.takeRequest (h : Ledger s) (hl : s.linkCoherent) (i : Instr) : Ledger (s.takeRequest i) := by
  cases i
  case unknownKindRequest => exact h.takeUnknown hl
  case status => exact h.takeFrame hl (fun _ _ _ _ ha hs => by cases ha; exact hs) (fun ha => by cases ha; exact h)
  case readEntry => exact h.takeFrame hl (fun _ _ _ _ ha hs => Quiet.answerReadEntry hs ha) (fun ha => Quiet.answerReadEntry h ha)
  case readSpan => exact h.takeFrame hl (fun _ _ _ _ ha hs => Quiet.answerReadSpan hs ha) (fun ha => Quiet.answerReadSpan h ha)
  case readPath => exact h.takeFrame hl (fun _ _ _ _ ha hs => Quiet.answerReadPath hs ha) (fun ha => Quiet.answerReadPath h ha)
  case readChannels => exact h.takeFrame hl (fun _ _ _ _ ha hs => by cases ha; exact hs) (fun ha => by cases ha; exact h)
  case readExtents => exact h.takeFrame hl (fun _ _ _ _ ha hs => by cases ha; exact hs) (fun ha => by cases ha; exact h)
  case readGrants => exact h.takeFrame hl (fun Q _ _ _ ha hs => by cases ha; exact Q.takeFree hs) (fun ha => by cases ha; exact h.unseen rfl)
  case readCampaign =>
    exact h.takeFrame hl (fun _ _ _ _ ha hs => Quiet.answerReadCampaign hs ha) (fun ha => Quiet.answerReadCampaign h ha)
  case readResults =>
    exact h.takeFrame hl (fun _ _ _ _ ha hs => Quiet.answerReadResults hs ha) (fun ha => Quiet.answerReadResults h ha)
  case readGates => exact h.takeFrame hl (fun _ _ _ _ ha hs => by cases ha; exact hs) (fun ha => by cases ha; exact h)
  case readOrders => exact h.takeFrame hl (fun _ _ _ _ ha hs => by cases ha; exact hs) (fun ha => by cases ha; exact h)
  case readBaseline =>
    exact h.takeFrame hl (fun _ _ _ _ ha hs => Quiet.answerReadBaseline hs ha) (fun ha => Quiet.answerReadBaseline h ha)
  case selectSpan => exact h.takeFrame hl (fun Q _ _ _ ha hs => Q.toQuiet.answerSelectSpan hs ha) h.answerSelectSpan
  case setSourceLevel => exact h.takeFrame hl (fun Q _ _ _ ha hs => Q.toQuiet.answerSetSourceLevel hs ha) h.answerSetSourceLevel
  case start => exact h.takeFrame hl (fun Q _ _ _ ha hs => Q.toQuiet.answerStart hs ha) h.answerStart
  case schedule => exact h.takeFrame hl (fun Q _ _ _ ha hs => Q.toQuiet.answerSchedule hs ha) h.answerSchedule
  case abort => exact h.takeFrame hl (fun Q _ _ _ ha hs => Q.toQuiet.answerAbort hs ha) h.answerAbort
  case release => exact h.takeFrame hl (fun Q _ _ _ ha hs => Q.toQuiet.answerRelease hs ha) h.answerRelease
  case isolate => exact h.takeFrame hl (fun Q _ _ _ ha hs => Q.toQuiet.answerIsolate hs ha) h.answerIsolate
  case withdrawOrder => exact h.takeFrame hl (fun Q _ _ _ ha hs => Q.toQuiet.answerWithdrawOrder hs ha) h.answerWithdrawOrder
  case adopt => exact h.takeFrame hl (fun Q _ _ _ ha hs => Q.toQuiet.answerAdopt hs ha) h.answerAdopt
  case dropBaseline => exact h.takeFrame hl (fun Q _ _ _ ha hs => Q.toQuiet.answerDropBaseline hs ha) h.answerDropBaseline
  case commit => exact h.takeFrame hl (fun Q _ _ _ ha hs => Q.toQuiet.answerCommit hs ha) h.answerCommit
  case clearCondition => exact h.takeFrame hl (fun Q _ _ _ ha hs => Q.toQuiet.answerClearCondition hs ha) h.answerClearCondition
  case defineEntry => exact h.takeFrame hl (fun Q _ _ _ ha hs => Q.toQuiet.answerDefineEntry hs ha) h.answerDefineEntry
  case dropEntry => exact h.takeFrame hl (fun Q _ _ _ ha hs => Q.toQuiet.answerDropEntry hs ha) h.answerDropEntry
  case pathAppend => exact h.takeFrame hl (fun Q _ _ _ ha hs => Q.toQuiet.answerPathAppend hs ha) h.answerPathAppend
  case setPath => exact h.takeFrame hl (fun Q _ _ _ ha hs => Q.toQuiet.answerSetPath hs ha) h.answerSetPath
  case setCrosspoint => exact h.takeFrame hl (fun Q _ _ _ ha hs => Q.toQuiet.answerSetCrosspoint hs ha) h.answerSetCrosspoint
  case setCeiling => exact h.takeFrame hl (fun Q _ _ _ ha hs => Q.toQuiet.answerSetCeiling hs ha) h.answerSetCeiling
  case setOrderSettings =>
    exact h.takeFrame hl (fun Q _ _ _ ha hs => Q.toQuiet.answerSetOrderSettings hs ha) h.answerSetOrderSettings
  case setTiming => exact h.takeFrame hl (fun Q _ _ _ ha hs => Q.answerSetTiming hs ha) h.answerSetTiming
  case setThresholds => exact h.takeFrame hl (fun Q _ _ _ ha hs => Q.toQuiet.answerSetThresholds hs ha) h.answerSetThresholds
  case defineGate => exact h.takeFrame hl (fun Q _ _ _ ha hs => Q.toQuiet.answerDefineGate hs ha) h.answerDefineGate
  case dropGate => exact h.takeFrame hl (fun Q _ _ _ ha hs => Q.toQuiet.answerDropGate hs ha) h.answerDropGate
  case eraseBlock => exact h.takeFrame hl (fun Q _ _ _ ha hs => Q.toQuiet.answerEraseBlock hs ha) h.answerEraseBlock
  case reset => exact h.takeFrame hl (fun Q _ _ _ ha hs => Q.toQuiet.answerReset hs ha) (fun ha => by cases ha; exact h.unseen rfl)
  all_goals exact h

/-! ## Characters and resets -/

theorem Ledger.frameArrived (h : Ledger s) (hl : s.linkCoherent) {length : Nat} {got : List Byte} :
    Ledger (s.frameArrived length got) := by
  unfold State.frameArrived
  split
  · split
    · unfold State.takeCounted
      split
      · unfold State.takeComplete
        split
        · exact h.takeRequest hl _
        · split
          · exact h.takeMisshapen hl
          · exact h.takeUnknown hl
      · exact h
    · exact h
  · exact h

theorem Ledger.assemble (h : Ledger s) (hl : s.linkCoherent) {b : Byte} : Ledger (s.assemble b) := by
  have hset : ∀ x, Ledger (s.setAssembler x) := fun _ => h.unseen rfl
  unfold State.assemble
  split
  · split
    · exact hset _
    · exact h
  · exact hset _
  · exact hset _
  · split
    · exact hset _
    · exact (hset .hunting).frameArrived hl

theorem vector_get_replicate {α : Type} {n : Nat} (x : α) (i : Fin n) : (Vector.replicate n x)[i] = x := by simp

theorem ledger_coldReset (s : State) (cause : ResetCause) (strap : LineRate) (x y : Bool) :
    Ledger (s.coldReset cause strap x y) :=
  ledger_of_empty (vector_get_replicate _) (vector_get_replicate _) rfl rfl (vector_get_replicate _)
    (fun c => congrArg Channel.holder (vector_get_replicate _ c)) (fun _ => List.not_mem_nil)

theorem order_notMem_queueAfterWarm (s : State) (k : OrderNo) : Origin.order k ∉ s.queueAfterWarm.clk.reports := by
  have hmarked : Origin.order k ∉ s.markedPairs := fun hm => by
    obtain ⟨p, -, hp⟩ := List.mem_map.1 hm
    cases hp
  unfold State.queueAfterWarm
  split
  · exact fun hm => by cases List.mem_singleton.1 hm
  · split
    · intro hm
      rcases List.mem_append.1 hm with hm | hm
      · exact hmarked hm
      · cases List.mem_singleton.1 hm
    · intro hm
      rcases List.mem_cons.1 hm with hm | hm
      · cases hm
      · exact hmarked hm

theorem State.queueAfterWarm_blocks (s : State) :
    s.queueAfterWarm.cen = s.cen ∧ s.queueAfterWarm.isu = s.isu ∧ s.queueAfterWarm.pch = s.pch := by
  unfold State.queueAfterWarm
  split
  · exact ⟨rfl, rfl, rfl⟩
  · split <;> exact ⟨rfl, rfl, rfl⟩

theorem Ledger.warmReset (hl : s.linkCoherent) {cause : ResetCause} {strap : LineRate} {x y : Bool} :
    Ledger (s.warmReset cause strap x y) := by
  unfold State.warmReset
  split
  · exact ledger_coldReset s cause strap x y
  · have K := kept_keepsQueues s
    refine Ledger.concludeEvent ?_ hl
      (K.toQuiet.queueAfterWarm (K.warmBlocks (K.toQuiet.recoverStatuses s.keepsQueues_refl)))
    generalize hw : s.recoverStatuses.warmBlocks cause strap x y = w
    obtain ⟨hc, hi, hp⟩ := w.queueAfterWarm_blocks
    have hwc : w.cen = .afterReset := by rw [← hw]; rfl
    have hwo : w.isu.orders = Vector.replicate 8 none ∧ w.isu.acceptance = [] := by rw [← hw]; exact ⟨rfl, rfl⟩
    have hwp : w.pch.channels = Vector.replicate 4 {} := by rw [← hw]; rfl
    refine ledger_of_empty (fun p => ?_) (fun n => ?_) ?_ ?_ (fun k => ?_) (fun c => ?_) (order_notMem_queueAfterWarm w)
    · rw [State.chain, hc, hwc]; exact vector_get_replicate _ p
    · rw [State.campaign, hc, hwc]; exact vector_get_replicate _ n
    · rw [hc, hwc]; rfl
    · rw [hi, hwo.2]
    · rw [State.order, hi, hwo.1]; exact vector_get_replicate _ k
    · rw [State.channel, hp, hwp]; exact congrArg Channel.holder (vector_get_replicate _ c)

/-! ## Commands -/

/-- Every command keeps the ledger, the link's queues being within their rules. -/
theorem Ledger.exec (h : Ledger s) (hl : s.linkCoherent) {i : Instr} (ht : Machine.exec i s = .next t) : Ledger t := by
  have K := (kept_keepsQueues s).toQuiet
  have hr := s.keepsQueues_refl
  have hrequest : ∀ {j}, Host.Outcome.next (s.takeRequest j) = (.next t : Result) → Ledger t := fun {j} e => by
    cases e; exact h.takeRequest hl j
  cases i
  case powerOn strap => cases ht; exact ledger_coldReset s .powerOn strap false false
  case characterReceived =>
    unfold Machine.exec execCharacterReceived at ht
    dsimp only at ht
    split at ht <;> cases ht
    · exact h
    · exact h.assemble hl
  case framingError => cases ht; exact h.unseen rfl
  case lineBreak =>
    unfold Machine.exec execLineBreak at ht
    dsimp only at ht
    split at ht <;> cases ht
    · exact h
    · exact h.unseen rfl
  case breakReset =>
    unfold Machine.exec execBreakReset at ht
    dsimp only at ht
    split at ht <;> cases ht
    · exact Ledger.warmReset hl
    · exact h
  case interCharacterGap =>
    unfold Machine.exec execInterCharacterGap at ht
    dsimp only at ht
    split at ht <;> cases ht
    · exact h
    · exact h.unseen rfl
    · exact h.unseen rfl
  case unknownKindRequest =>
    unfold Machine.exec execUnknownKindRequest at ht
    dsimp only at ht
    split at ht <;> cases ht
    exact h.takeUnknown hl
  case transmissionEnd =>
    have hsent : Ledger s.replySent := h.unseen rfl
    have hls : s.replySent.linkCoherent := linkCoherent_replySent hl
    unfold Machine.exec execTransmissionEnd at ht
    dsimp only at ht
    split at ht
    · cases ht; exact h
    · cases ht; exact h.chooseNext hl.2.1
    · split at ht <;> cases ht
      · unfold State.requestedReset
        split
        · exact ledger_coldReset _ _ _ _ _
        · exact Ledger.warmReset hls
      · exact hsent.chooseNext hls.2.1
  case coldLoadEnd =>
    unfold Machine.exec execColdLoadEnd at ht
    dsimp only at ht
    split at ht
    · have hload : s.sameLedger s.loadImage := .loadImage (.refl s)
      rw [← Host.Outcome.next.inj ht]
      refine Ledger.concludeEvent ?_ hl (K.queueOrigin (K.enterReady (K.setStoreOp (K.loadImage hr))))
      have hready : ∀ w, Ledger w → Ledger ((w.setStoreOp .idle).enterReady.queueOrigin .system) := fun w hw => by
        have hidle : Ledger (w.setStoreOp .idle).enterReady := hw.unseen rfl
        exact (State.sameLedger.queueOrigin (.refl _) (fun _ e => by cases e)).ledger hidle
      exact hready _ (hload.ledger h)
    · cases ht; exact h
  case status x => exact hrequest (j := .status x) ht
  case readEntry x ref => exact hrequest (j := .readEntry x ref) ht
  case readSpan x span pair => exact hrequest (j := .readSpan x span pair) ht
  case readPath x pair view first count => exact hrequest (j := .readPath x pair view first count) ht
  case readChannels x => exact hrequest (j := .readChannels x) ht
  case readExtents x => exact hrequest (j := .readExtents x) ht
  case readGrants x => exact hrequest (j := .readGrants x) ht
  case readCampaign x slot => exact hrequest (j := .readCampaign x slot) ht
  case readResults x slot first count => exact hrequest (j := .readResults x slot first count) ht
  case readGates x => exact hrequest (j := .readGates x) ht
  case readOrders x => exact hrequest (j := .readOrders x) ht
  case readBaseline x pair first count view => exact hrequest (j := .readBaseline x pair first count view) ht
  case selectSpan x span => exact hrequest (j := .selectSpan x span) ht
  case setSourceLevel x source level => exact hrequest (j := .setSourceLevel x source level) ht
  case start x r => exact hrequest (j := .start x r) ht
  case schedule x r period parity => exact hrequest (j := .schedule x r period parity) ht
  case abort x slot => exact hrequest (j := .abort x slot) ht
  case release x slot => exact hrequest (j := .release x slot) ht
  case isolate x gate ref pair argument force => exact hrequest (j := .isolate x gate ref pair argument force) ht
  case withdrawOrder x order => exact hrequest (j := .withdrawOrder x order) ht
  case adopt x slot => exact hrequest (j := .adopt x slot) ht
  case dropBaseline x pair first last => exact hrequest (j := .dropBaseline x pair first last) ht
  case commit x pair first count => exact hrequest (j := .commit x pair first count) ht
  case clearCondition x ref pair => exact hrequest (j := .clearCondition x ref pair) ht
  case defineEntry x ref kind address spare route => exact hrequest (j := .defineEntry x ref kind address spare route) ht
  case dropEntry x ref => exact hrequest (j := .dropEntry x ref) ht
  case pathAppend x restart elements => exact hrequest (j := .pathAppend x restart elements) ht
  case setPath x pair => exact hrequest (j := .setPath x pair) ht
  case setCrosspoint x channel pair mark => exact hrequest (j := .setCrosspoint x channel pair mark) ht
  case setCeiling x pair ceiling => exact hrequest (j := .setCeiling x pair ceiling) ht
  case setOrderSettings x chip sequence limit => exact hrequest (j := .setOrderSettings x chip sequence limit) ht
  case setTiming x change interval => exact hrequest (j := .setTiming x change interval) ht
  case setThresholds x floor tStep tDrift => exact hrequest (j := .setThresholds x floor tStep tDrift) ht
  case defineGate x gate g => exact hrequest (j := .defineGate x gate g) ht
  case dropGate x gate => exact hrequest (j := .dropGate x gate) ht
  case eraseBlock x block => exact hrequest (j := .eraseBlock x block) ht
  case reset x which => exact hrequest (j := .reset x which) ht
  case eraseEnd =>
    unfold Machine.exec execEraseEnd at ht
    dsimp only at ht
    split at ht
    · cases ht
      exact Ledger.concludeEvent ((State.sameLedger.endErase (.refl s)).ledger h) hl (K.endErase hr)
    all_goals cases ht; exact h
  case slotProgrammed =>
    unfold Machine.exec execSlotProgrammed at ht
    dsimp only at ht
    split at ht
    · cases ht
      exact Ledger.concludeEvent ((State.sameLedger.slotDone (.refl s)).ledger h) hl (K.slotDone hr)
    all_goals cases ht; exact h
  case boundary =>
    unfold Machine.exec execBoundary at ht
    dsimp only at ht
    split at ht
    · cases ht; exact h
    · rw [← Host.Outcome.next.inj ht]
      have hpass : Ledger (s.advanceClock.grantPass s).runCountdowns :=
        (State.sameLedger.runCountdowns (.refl _)).ledger h.grantPass
      exact Ledger.concludeEvent hpass.dispatchPass hl
        (K.dispatchPass (K.runCountdowns (K.grantPass ((kept_keepsQueues s).advanceClock hr))))
  case periodicDue =>
    unfold Machine.exec execPeriodicDue at ht
    dsimp only at ht
    split at ht <;> cases ht
    · exact Ledger.concludeEvent ((State.sameLedger.dueIfZero (.refl s)).ledger h) hl (K.dueIfZero hr)
    · exact h
  case settleEnd c =>
    unfold Machine.exec execSettleEnd at ht
    dsimp only at ht
    split at ht <;> cases ht
    · refine Ledger.concludeEvent ?_ hl (K.beginPriming hr)
      refine State.sameLedger.ledger (State.sameLedger.setChannel (.refl s) ?_) h
      exact fun _ hj => hj
    · exact h
  case primingPeriodEnd c =>
    unfold Machine.exec execPrimingPeriodEnd at ht
    dsimp only at ht
    have hbegin : Ledger (s.beginPeriods c) := by
      have hset : s.sameLedger (s.setChannel c { s.channel c with state := .periods }) :=
        .setChannel (.refl s) (fun _ hj => hj)
      exact (hset.ledger h).unseen rfl
    split at ht <;> cases ht
    · rename_i x _ _
      refine Ledger.concludeEvent ?_ hl (K.clearMustPrime (K.beginPeriods hr))
      cases x with
      | slice n r l =>
        have hclear : (s.beginPeriods c).sameLedger
            ((s.beginPeriods c).setCampaign n { (s.beginPeriods c).campaign n with mustPrime := false }) :=
          .setCampaign (.refl _) rfl
        exact hclear.ledger hbegin
      | order k => exact hbegin
    · exact h
  case coastingPeriodStart c =>
    unfold Machine.exec execCoastingPeriodStart at ht
    dsimp only at ht
    have hset : s.sameLedger (s.setChannel c { s.channel c with state := .periods }) :=
      .setChannel (.refl s) (fun _ hj => hj)
    split at ht <;> cases ht
    · exact Ledger.concludeEvent ((hset.ledger h).unseen rfl) hl (K.beginPeriods hr)
    · exact h
  case slicePeriodEnd =>
    unfold Machine.exec execSlicePeriodEnd at ht
    dsimp only at ht
    split at ht
    · split at ht <;> cases ht
      exact Ledger.concludeEvent h.slicePeriod hl (K.slicePeriod hr)
    · cases ht; exact h
  case referencePeriodEnd =>
    unfold Machine.exec execReferencePeriodEnd at ht
    dsimp only at ht
    split at ht
    · rename_i k o hb
      split at ht
      · cases ht; exact h
      · rename_i hs
        split at ht <;> cases ht
        exact Ledger.concludeEvent (h.referencePeriod hb (by simpa using hs)) hl (K.referencePeriod hr)
    · cases ht; exact h
  case wordPeriodEnd =>
    unfold Machine.exec execWordPeriodEnd at ht
    dsimp only at ht
    split at ht
    · rename_i k o hb
      split at ht <;> cases ht
      · rename_i hs
        exact Ledger.concludeEvent (h.wordPeriod hb hs) hl (K.wordPeriod hr)
      · exact h
    · cases ht; exact h
  case listeningPeriodEnd =>
    unfold Machine.exec execListeningPeriodEnd at ht
    dsimp only at ht
    split at ht
    · rename_i k o hb
      split at ht
      · cases ht; exact h
      · rename_i hs
        split at ht <;> cases ht
        exact Ledger.concludeEvent (h.listeningPeriod hb (by simpa using hs)) hl (K.listeningPeriod hr)
    · cases ht; exact h
  case lineReturnsToMark => cases ht; exact h.unseen rfl

/-- Settles O59: the bounds by closure under the named updates, the ledger command by command. -/
theorem stepKeepsQueuesAndSettings : Obligations.StepKeepsQueuesAndSettings := by
  intro s t ht
  obtain ⟨hl, hs, hq, hv, hz⟩ := (kept_keepsQueues s).step (s := s) s.keepsQueues_refl (fun _ _ h => h) ht
  refine ⟨hl, hs, hq, hv, hz, fun hlink hled => ?_⟩
  unfold step at ht
  split at ht
  · cases ht; exact hled
  · rename_i rest _
    exact Ledger.exec (s := { s with pending := rest }) (hled.unseen rfl) hlink ht

end Sys2Proof.Machine
end

section
/-! The link's checks: frames discarded, refused before any block sees them, and answered with one reply (R176, R179, R181, R182). -/

namespace Sys2Proof.Machine

variable {s : State} {src : Source} {h : Header} {kind : Byte}

/-- A command of the UNKNOWN_KIND row carries a kind that is no request, and its frame is that header and kind (R179). -/
theorem requestFrame_unknownKind {f : SentFrame} (hf : requestFrame (.unknownKindRequest h kind) = some f) :
    isRequestKind kind = false ∧ f.header = h ∧ f.kind = kind := by
  simp only [requestFrame] at hf
  split at hf
  case isTrue => cases hf
  case isFalse hk => cases hf; exact ⟨by simpa using hk, rfl, rfl⟩

theorem exec_unknownKindRequest (hk : isRequestKind kind = false) (s : State) :
    exec (.unknownKindRequest h kind) s = .next (s.takeUnknown h kind) := by
  show execUnknownKindRequest h kind s = _
  unfold execUnknownKindRequest
  rw [hk]
  rfl

/-- A frame of an unknown kind is discarded or refused as one whose body is not made well, but for the reason (R179). -/
theorem takeUnknown_discarded (hd : 8 ≤ h.source.toNat ∨ 8 ≤ s.clk.replies.length ∨ s.clk.pendingReset ≠ none) :
    s.takeUnknown h kind = s := by
  have hsame : s.takeUnknown h kind = s.takeFrame h statusKind true 3 (fun _ _ => .error .unknownKind) ∨ s.takeUnknown h kind = s := by
    unfold State.takeUnknown
    split
    · exact .inr rfl
    · rename_i src hsrc
      split
      · exact .inr rfl
      · rename_i hroom
        exfalso
        have := Kept.room_of_not_discards hroom
        rcases hd with hd | hd | hd
        · have := inRange_some hsrc
          have := src.isLt
          omega
        · omega
        · refine hroom ?_
          unfold State.discards readyOf
          cases hp : s.clk.pendingReset with
          | none => exact absurd hp hd
          | some k => simp
  exact hsame.elim (fun e => e.trans (hd.elim takeFrame_noSource takeFrame_discarded)) id

theorem takeUnknown_refused (ha : s.answers h src) : s.takeUnknown h kind = s.withReply (refusedReply src h kind .unknownKind) := by
  obtain ⟨hsource, hroom, hreset⟩ := ha
  unfold State.takeUnknown
  rw [inRange_of_eq hsource]
  dsimp only
  rw [discards_of_room hroom hreset]
  exact queueReply_concludeEvent _ _

/-- The frame of a command has a request's kind, or the command is of the UNKNOWN_KIND row. -/
theorem requestFrame_kind {i : Instr} {f : SentFrame} (hf : requestFrame i = some f) :
    isRequestKind f.kind = true ∨ isRequestKind f.kind = false ∧ i = .unknownKindRequest f.header f.kind := by
  cases i
  case unknownKindRequest h kind =>
    obtain ⟨hu, rfl, rfl⟩ := requestFrame_unknownKind hf
    exact .inr ⟨hu, rfl⟩
  all_goals cases hf
  all_goals exact .inl rfl

/-- Settles O8. -/
theorem framesAreDiscardedWithoutReply : Obligations.FramesAreDiscardedWithoutReply := by
  intro i f s hf hd
  rcases requestFrame_kind hf with hk | ⟨hk, rfl⟩
  · obtain ⟨wellMade, act, -, hexec⟩ := takenAsFrame_of_requestFrame hf hk
    rw [hexec, hd.elim takeFrame_noSource takeFrame_discarded]
  · rw [exec_unknownKindRequest hk, takeUnknown_discarded hd]

/-- Settles O9. -/
theorem unknownKindIsRefused : Obligations.UnknownKindIsRefused := by
  intro h kind src s hk ha
  rw [exec_unknownKindRequest hk, takeUnknown_refused ha]

/-! ## STARTING and MALFORMED (R179, checks 2 and 3) -/

theorem judgeRequest_starting {wellMade : Bool} {needed : Level} {act : Asker → State → Answer} (hs : s.clk.part = .starting)
    (hk : kind ≠ 0x01) : s.judgeRequest src h kind wellMade needed act = .error .starting :=
  if_pos ⟨hs, hk⟩

theorem judgeRequest_malformed {wellMade : Bool} {needed : Level} {act : Asker → State → Answer}
    (hs : s.clk.part = .ready ∨ kind = 0x01) (hm : 4 ≤ h.acting.toNat ∨ wellMade = false) :
    s.judgeRequest src h kind wellMade needed act = .error .malformed := by
  have hpart : ¬ (s.clk.part = .starting ∧ kind ≠ statusKind) := fun ⟨hp, hk⟩ =>
    hs.elim (fun e => by rw [hp] at e; cases e) hk
  unfold State.judgeRequest
  rw [if_neg hpart]
  rcases hm with hm | rfl
  · rw [inRange_none hm]
  · cases inRange 4 h.acting.toNat <;> rfl

/-- Settles O10. -/
theorem startingAndMalformedRequestsAreRefused : Obligations.StartingAndMalformedRequestsAreRefused := by
  intro i f src s hf hk ⟨hsource, hroom, hreset⟩
  obtain ⟨wellMade, act, hw, hexec⟩ := takenAsFrame_of_requestFrame hf hk
  refine ⟨fun hs hkind => ?_, fun hs hm => ?_⟩
  · rw [hexec, takeFrame_judged hsource hroom hreset, answered_error (judgeRequest_starting hs hkind)]
  · have hm' : 4 ≤ f.header.acting.toNat ∨ wellMade = false := hm.imp_right (fun x => by
      rw [← hw] at x; simpa using x)
    rw [hexec, takeFrame_judged hsource hroom hreset, answered_error (judgeRequest_malformed (.inl hs) hm')]

/-! ## One reply (R181) -/

/-- A command is one frame taken, whose block keeps what any request's block keeps. -/
def takenAsking (i : Instr) (f : SentFrame) : Prop :=
  ∃ (wellMade : Bool) (needed : Level) (act : Asker → State → Answer),
    (∀ {Q : State → Prop}, Asked Q → ∀ {a s t d}, act a s = .ok (t, d) → Q s → Q t)
      ∧ ∀ s, exec i s = .next (s.takeFrame f.header f.kind wellMade needed act)

/-- Every request of a known kind is a frame taken: its block's answer keeps what all blocks keep. -/
theorem takenAsking_of_requestFrame {i : Instr} {f : SentFrame} (hf : requestFrame i = some f)
    (hk : isRequestKind f.kind = true) : takenAsking i f := by
  cases i
  case unknownKindRequest h kind =>
    obtain ⟨hu, -, e⟩ := requestFrame_unknownKind hf
    rw [e, hu] at hk; cases hk
  case powerOn | characterReceived | framingError | lineBreak | breakReset | interCharacterGap | transmissionEnd
      | coldLoadEnd | eraseEnd | slotProgrammed | boundary | periodicDue | settleEnd | primingPeriodEnd
      | coastingPeriodStart | slicePeriodEnd | referencePeriodEnd | wordPeriodEnd | listeningPeriodEnd
      | lineReturnsToMark => cases hf
  case status | readChannels | readExtents | readGates | readOrders =>
    cases hf; exact ⟨_, _, _, fun _ _ _ _ _ ha hs => by cases ha; exact hs, fun _ => rfl⟩
  case readGrants => cases hf; exact ⟨_, _, _, fun Q _ _ _ _ ha hs => by cases ha; exact Q.takeFree hs, fun _ => rfl⟩
  case readEntry => cases hf; exact ⟨_, _, _, fun _ _ _ _ _ ha hs => Quiet.answerReadEntry hs ha, fun _ => rfl⟩
  case readSpan => cases hf; exact ⟨_, _, _, fun _ _ _ _ _ ha hs => Quiet.answerReadSpan hs ha, fun _ => rfl⟩
  case readPath => cases hf; exact ⟨_, _, _, fun _ _ _ _ _ ha hs => Quiet.answerReadPath hs ha, fun _ => rfl⟩
  case readCampaign => cases hf; exact ⟨_, _, _, fun _ _ _ _ _ ha hs => Quiet.answerReadCampaign hs ha, fun _ => rfl⟩
  case readResults => cases hf; exact ⟨_, _, _, fun _ _ _ _ _ ha hs => Quiet.answerReadResults hs ha, fun _ => rfl⟩
  case readBaseline => cases hf; exact ⟨_, _, _, fun _ _ _ _ _ ha hs => Quiet.answerReadBaseline hs ha, fun _ => rfl⟩
  case selectSpan => cases hf; exact ⟨_, _, _, fun Q _ _ _ _ ha hs => Q.toQuiet.answerSelectSpan hs ha, fun _ => rfl⟩
  case setSourceLevel => cases hf; exact ⟨_, _, _, fun Q _ _ _ _ ha hs => Q.toQuiet.answerSetSourceLevel hs ha, fun _ => rfl⟩
  case start => cases hf; exact ⟨_, _, _, fun Q _ _ _ _ ha hs => Q.toQuiet.answerStart hs ha, fun _ => rfl⟩
  case schedule => cases hf; exact ⟨_, _, _, fun Q _ _ _ _ ha hs => Q.toQuiet.answerSchedule hs ha, fun _ => rfl⟩
  case abort => cases hf; exact ⟨_, _, _, fun Q _ _ _ _ ha hs => Q.toQuiet.answerAbort hs ha, fun _ => rfl⟩
  case release => cases hf; exact ⟨_, _, _, fun Q _ _ _ _ ha hs => Q.toQuiet.answerRelease hs ha, fun _ => rfl⟩
  case isolate => cases hf; exact ⟨_, _, _, fun Q _ _ _ _ ha hs => Q.toQuiet.answerIsolate hs ha, fun _ => rfl⟩
  case withdrawOrder => cases hf; exact ⟨_, _, _, fun Q _ _ _ _ ha hs => Q.toQuiet.answerWithdrawOrder hs ha, fun _ => rfl⟩
  case adopt => cases hf; exact ⟨_, _, _, fun Q _ _ _ _ ha hs => Q.toQuiet.answerAdopt hs ha, fun _ => rfl⟩
  case dropBaseline => cases hf; exact ⟨_, _, _, fun Q _ _ _ _ ha hs => Q.toQuiet.answerDropBaseline hs ha, fun _ => rfl⟩
  case commit => cases hf; exact ⟨_, _, _, fun Q _ _ _ _ ha hs => Q.toQuiet.answerCommit hs ha, fun _ => rfl⟩
  case clearCondition => cases hf; exact ⟨_, _, _, fun Q _ _ _ _ ha hs => Q.toQuiet.answerClearCondition hs ha, fun _ => rfl⟩
  case defineEntry => cases hf; exact ⟨_, _, _, fun Q _ _ _ _ ha hs => Q.toQuiet.answerDefineEntry hs ha, fun _ => rfl⟩
  case dropEntry => cases hf; exact ⟨_, _, _, fun Q _ _ _ _ ha hs => Q.toQuiet.answerDropEntry hs ha, fun _ => rfl⟩
  case pathAppend => cases hf; exact ⟨_, _, _, fun Q _ _ _ _ ha hs => Q.toQuiet.answerPathAppend hs ha, fun _ => rfl⟩
  case setPath => cases hf; exact ⟨_, _, _, fun Q _ _ _ _ ha hs => Q.toQuiet.answerSetPath hs ha, fun _ => rfl⟩
  case setCrosspoint => cases hf; exact ⟨_, _, _, fun Q _ _ _ _ ha hs => Q.toQuiet.answerSetCrosspoint hs ha, fun _ => rfl⟩
  case setCeiling => cases hf; exact ⟨_, _, _, fun Q _ _ _ _ ha hs => Q.toQuiet.answerSetCeiling hs ha, fun _ => rfl⟩
  case setOrderSettings =>
    cases hf; exact ⟨_, _, _, fun Q _ _ _ _ ha hs => Q.toQuiet.answerSetOrderSettings hs ha, fun _ => rfl⟩
  case setTiming => cases hf; exact ⟨_, _, _, fun Q _ _ _ _ ha hs => Q.answerSetTiming hs ha, fun _ => rfl⟩
  case setThresholds => cases hf; exact ⟨_, _, _, fun Q _ _ _ _ ha hs => Q.toQuiet.answerSetThresholds hs ha, fun _ => rfl⟩
  case defineGate => cases hf; exact ⟨_, _, _, fun Q _ _ _ _ ha hs => Q.toQuiet.answerDefineGate hs ha, fun _ => rfl⟩
  case dropGate => cases hf; exact ⟨_, _, _, fun Q _ _ _ _ ha hs => Q.toQuiet.answerDropGate hs ha, fun _ => rfl⟩
  case eraseBlock => cases hf; exact ⟨_, _, _, fun Q _ _ _ _ ha hs => Q.toQuiet.answerEraseBlock hs ha, fun _ => rfl⟩
  case reset => cases hf; exact ⟨_, _, _, fun Q _ _ _ _ ha hs => Q.toQuiet.answerReset hs ha, fun _ => rfl⟩

/-- What a judged request comes to: a refusal, or the block's answer. -/
theorem judgeRequest_ok {wellMade : Bool} {needed : Level} {act : Asker → State → Answer} {t : State} {data : List Byte}
    (hj : s.judgeRequest src h kind wellMade needed act = .ok (t, data)) : ∃ a, act a s = .ok (t, data) := by
  unfold State.judgeRequest at hj
  split at hj
  · cases hj
  · split at hj
    · split at hj
      · cases hj
      · exact ⟨_, hj⟩
    · cases hj

/-- Settles O12: the request is refused, or its block's answer becomes the reply; no block writes the reply queue. -/
theorem everyRequestHasOneReply : Obligations.EveryRequestHasOneReply := by
  intro i f src s hf ha
  rcases requestFrame_kind hf with hk | ⟨hk, rfl⟩
  · obtain ⟨wellMade, needed, act, hkeep, hexec⟩ := takenAsking_of_requestFrame hf hk
    obtain ⟨hsource, hroom, hreset⟩ := ha
    rw [hexec, takeFrame_judged hsource hroom hreset]
    cases hj : s.judgeRequest src f.header f.kind wellMade needed act with
    | error r =>
      refine .inl ⟨r, ?_⟩
      rw [← hj, answered_error hj]
    | ok answer =>
      obtain ⟨t, data⟩ := answer
      obtain ⟨a, hact⟩ := judgeRequest_ok hj
      refine .inr ⟨t, data, ?_, hkeep (quiet_replies s.clk.replies) hact rfl⟩
      rw [← hj, answered_ok hj]
  · exact .inl ⟨.unknownKind, by rw [exec_unknownKindRequest hk, takeUnknown_refused ha]⟩

end Sys2Proof.Machine
end

section
/-! Frames on the line: the fields of a request read back, and the assembler that takes a frame byte by byte (R175, R192 to R194). -/

namespace Sys2Proof.Machine

variable {s : State} {src : Source} {h : Header} {kind b : Byte} {i : Instr}

/-! ## Fields of several bytes (R193) -/

theorem join16_toNat (high low : Byte) : (join16 high low).toNat = high.toNat * 256 + low.toNat := by
  unfold join16
  rw [BitVec.toNat_append, ← Nat.shiftLeft_add_eq_or_of_lt low.isLt, Nat.shiftLeft_eq]

@[simp] theorem join16_bytes16 (x : BitVec 16) : join16 (x.extractLsb' 8 8) (x.extractLsb' 0 8) = x := by
  apply BitVec.eq_of_toNat_eq
  rw [join16_toNat, BitVec.extractLsb'_toNat, BitVec.extractLsb'_toNat, Nat.shiftRight_eq_div_pow, Nat.shiftRight_eq_div_pow]
  have := x.isLt
  omega

theorem bytes16_append (x : BitVec 16) : x.extractLsb' 8 8 ++ x.extractLsb' 0 8 = x := join16_bytes16 x

theorem join24_toNat (high middle low : Byte) :
    (join24 high middle low).toNat = high.toNat * 65536 + middle.toNat * 256 + low.toNat := by
  unfold join24
  rw [BitVec.toNat_append, ← Nat.shiftLeft_add_eq_or_of_lt low.isLt, BitVec.toNat_append,
    ← Nat.shiftLeft_add_eq_or_of_lt middle.isLt, Nat.shiftLeft_eq, Nat.shiftLeft_eq]
  omega

@[simp] theorem join24_bytes24 (x : BitVec 24) : join24 (x.extractLsb' 16 8) (x.extractLsb' 8 8) (x.extractLsb' 0 8) = x := by
  apply BitVec.eq_of_toNat_eq
  rw [join24_toNat, BitVec.extractLsb'_toNat, BitVec.extractLsb'_toNat, BitVec.extractLsb'_toNat, Nat.shiftRight_eq_div_pow,
    Nat.shiftRight_eq_div_pow, Nat.shiftRight_eq_div_pow]
  have := x.isLt
  omega

/-- A number below 65,536 is read back from its two bytes. -/
theorem join16_u16 {n : Nat} (hn : n < 65536) : (join16 (BitVec.ofNat 8 (n / 256)) (BitVec.ofNat 8 n)).toNat = n := by
  rw [join16_toNat, BitVec.toNat_ofNat, BitVec.toNat_ofNat]
  omega

/-! ## Requests read back (R194) -/

theorem readElements_flatMap (l : List SentElement) : readElements (l.flatMap elementBytes) = some l := by
  induction l with
  | nil => rfl
  | cons e l ih =>
    have hbytes : elementBytes e = [e.reference.kind, e.reference.number, e.delay.extractLsb' 16 8, e.delay.extractLsb' 8 8,
      e.delay.extractLsb' 0 8, e.tag] := rfl
    rw [List.flatMap_cons, hbytes]
    simp only [List.cons_append, List.nil_append, readElements, ih, join24_bytes24]

/-- A PATH_APPEND whose elements fit in a frame is read back with all of them. -/
theorem readAppend_elements {restart : Byte} {l : List SentElement} (hl : l.length < 256) :
    readAppend h ([restart] ++ [BitVec.ofNat 8 l.length] ++ l.flatMap elementBytes) = some (.pathAppend h restart l) := by
  have hcount : l.length = (BitVec.ofNat 8 l.length).toNat := by rw [BitVec.toNat_ofNat]; omega
  simp only [List.cons_append, List.nil_append, readAppend]
  rw [readElements_flatMap]
  exact if_pos hcount

/-- Settles O7: one layout after another, each two-byte field joined again. -/
theorem requestReadsBackFromItsFrame : Obligations.RequestReadsBackFromItsFrame := by
  intro i f hw hf hk
  cases i
  case unknownKindRequest h kind =>
    obtain ⟨hu, -, e⟩ := requestFrame_unknownKind hf
    rw [e, hu] at hk; cases hk
  case powerOn | characterReceived | framingError | lineBreak | breakReset | interCharacterGap | transmissionEnd
      | coldLoadEnd | eraseEnd | slotProgrammed | boundary | periodicDue | settleEnd | primingPeriodEnd
      | coastingPeriodStart | slicePeriodEnd | referencePeriodEnd | wordPeriodEnd | listeningPeriodEnd
      | lineReturnsToMark => cases hf
  case readBaseline h pair first count view =>
    cases hf
    show some (Instr.readBaseline h pair (join16 _ _) count view) = _
    rw [join16_bytes16]
  case start h r =>
    cases hf
    show some (Instr.start h { r with level := join16 _ _ }) = _
    rw [join16_bytes16]
  case schedule h r period parity =>
    cases hf
    show some (Instr.schedule h { r with level := join16 _ _ } (join16 _ _) parity) = _
    rw [join16_bytes16, join16_bytes16]
  case dropBaseline h pair first last =>
    cases hf
    show some (Instr.dropBaseline h pair (join16 _ _) (join16 _ _)) = _
    rw [join16_bytes16, join16_bytes16]
  case commit h pair first count =>
    cases hf
    show some (Instr.commit h pair (join16 _ _) count) = _
    rw [join16_bytes16]
  case setCeiling h pair ceiling =>
    cases hf
    show some (Instr.setCeiling h pair (join16 _ _)) = _
    rw [join16_bytes16]
  case setTiming h change interval =>
    cases hf
    show some (Instr.setTiming h change (join16 _ _)) = _
    rw [join16_bytes16]
  case setThresholds h floor tStep tDrift =>
    cases hf
    show some (Instr.setThresholds h (join16 _ _) (join16 _ _) (join16 _ _)) = _
    rw [join16_bytes16, join16_bytes16, join16_bytes16]
  case defineGate h gate g =>
    cases hf
    show some (Instr.defineGate h gate { g with first := join16 _ _, last := join16 _ _, mask := join16 _ _ }) = _
    rw [join16_bytes16, join16_bytes16, join16_bytes16]
  case pathAppend h restart elements =>
    cases hf
    have hl := of_decide_eq_true hw
    exact readAppend_elements (by omega)
  all_goals cases hf; rfl

/-! ## Bodies of the right length (R194) -/

/-- A body read as a request has its kind's length, and the kind is a request's. -/
def lengthFits (n : Nat) (body : List Byte) : Prop := n < 256 ∧ (BitVec.ofNat 8 n, body.length) ∈ bodyLengths

theorem readQuery_fits {n : Nat} {body : List Byte} (hr : readQuery h n body = some i) : lengthFits n body := by
  unfold readQuery at hr
  split at hr
  any_goals split at hr
  all_goals cases hr
  all_goals simp [lengthFits, bodyLengths]

theorem readLink_fits {n : Nat} {body : List Byte} (hr : readLink h n body = some i) : lengthFits n body := by
  unfold readLink at hr
  split at hr
  any_goals split at hr
  all_goals cases hr
  all_goals simp [lengthFits, bodyLengths]

theorem readOrder_fits {n : Nat} {body : List Byte} (hr : readOrder h n body = some i) : lengthFits n body := by
  unfold readOrder at hr
  split at hr
  any_goals split at hr
  all_goals cases hr
  all_goals simp [lengthFits, bodyLengths]

theorem readElements_length {body : List Byte} {l : List SentElement} (hr : readElements body = some l) :
    body.length = 6 * l.length := by
  induction body using readElements.induct generalizing l with
  | case1 => cases hr; rfl
  | case2 b1 b2 b3 b4 b5 b6 rest m hm ih =>
    rw [readElements, hm] at hr
    cases hr
    have := ih hm
    simp only [List.length_cons]
    omega
  | case3 b1 b2 b3 b4 b5 b6 rest hm ih =>
    rw [readElements, hm] at hr
    cases hr
  | case4 body h1 h2 =>
    rw [readElements] at hr
    · cases hr
    · exact h1
    · exact h2

theorem readAppend_fits {body : List Byte} (hr : readAppend h body = some i) :
    ∃ restart count rest, body = restart :: count :: rest ∧ rest.length = 6 * count.toNat := by
  unfold readAppend at hr
  split at hr
  · rename_i restart count rest
    split at hr
    · rename_i l hl
      split at hr
      · rename_i hc
        exact ⟨restart, count, rest, rfl, by rw [readElements_length hl, hc]⟩
      · cases hr
    · cases hr
  · cases hr

theorem readPlant_fits {n : Nat} {body : List Byte} (hr : readPlant h n body = some i) :
    lengthFits n body ∨ n = 0x42 ∧ ∃ restart count rest, body = restart :: count :: rest ∧ rest.length = 6 * count.toNat := by
  by_cases hn : n = 0x42
  · subst hn; exact .inr ⟨rfl, readAppend_fits hr⟩
  · refine .inl ?_
    unfold readPlant at hr
    split at hr
    case h_3 => exact absurd rfl hn
    any_goals split at hr
    all_goals cases hr
    all_goals simp [lengthFits, bodyLengths]

theorem isRequestKind_of_mem_bodyLengths {x : Byte × Nat} (hx : x ∈ bodyLengths) : isRequestKind x.1 = true := by
  revert x; decide

/-- A body that is read as a request has the length its kind calls for, and its kind is a request's. -/
theorem readRequest_fits {body : List Byte} (hr : readRequest h kind body = some i) : isRequestKind kind = true ∧ bodyFits kind body := by
  have hlen : lengthFits kind.toNat body → isRequestKind kind = true ∧ bodyFits kind body := fun ⟨_, hm⟩ => by
    rw [BitVec.ofNat_toNat, BitVec.setWidth_eq] at hm
    exact ⟨isRequestKind_of_mem_bodyLengths hm, .inl hm⟩
  unfold readRequest at hr
  split at hr
  · exact hlen (readQuery_fits hr)
  · split at hr
    · exact hlen (readLink_fits hr)
    · split at hr
      · exact hlen (readOrder_fits hr)
      · rcases readPlant_fits hr with hx | ⟨hk, hx⟩
        · exact hlen hx
        · have hk : kind = 0x42 := BitVec.eq_of_toNat_eq hk
          exact ⟨by rw [hk]; decide, .inr ⟨hk, hx⟩⟩

/-! ## A complete frame taken (R176, R179) -/

/-- The command of a request is its frame taken. -/
theorem exec_takeRequest {f : SentFrame} (hf : requestFrame i = some f) (hk : isRequestKind f.kind = true) (s : State) :
    exec i s = .next (s.takeRequest i) := by
  cases i
  case unknownKindRequest h kind =>
    obtain ⟨hu, -, e⟩ := requestFrame_unknownKind hf
    rw [e, hu] at hk; cases hk
  case powerOn | characterReceived | framingError | lineBreak | breakReset | interCharacterGap | transmissionEnd
      | coldLoadEnd | eraseEnd | slotProgrammed | boundary | periodicDue | settleEnd | primingPeriodEnd
      | coastingPeriodStart | slicePeriodEnd | referencePeriodEnd | wordPeriodEnd | listeningPeriodEnd
      | lineReturnsToMark => cases hf
  all_goals rfl

theorem takeCounted_header (h : Header) (kind : Byte) (body : List Byte) (s : State) :
    s.takeCounted ((h.source ++ h.acting) :: h.tag :: kind :: body) = s.takeComplete h kind body := by
  have hsource : (h.source ++ h.acting).extractLsb' 4 4 = h.source := BitVec.extractLsb'_append_eq_left
  have hacting : (h.source ++ h.acting).extractLsb' 0 4 = h.acting := BitVec.extractLsb'_append_eq_right
  show s.takeComplete ⟨(h.source ++ h.acting).extractLsb' 4 4, (h.source ++ h.acting).extractLsb' 0 4, h.tag⟩ kind body = _
  rw [hsource, hacting]

theorem takeComplete_unknown {body : List Byte} (hk : isRequestKind kind = false) (s : State) :
    s.takeComplete h kind body = s.takeUnknown h kind := by
  unfold State.takeComplete
  split
  · rename_i j hj
    rw [(readRequest_fits hj).1] at hk; cases hk
  · rw [hk]; rfl

theorem takeComplete_misshapen {body : List Byte} (hk : isRequestKind kind = true) (hb : ¬ bodyFits kind body) (s : State) :
    s.takeComplete h kind body = s.takeMisshapen h kind := by
  unfold State.takeComplete
  split
  · rename_i j hj
    exact absurd (readRequest_fits hj).2 hb
  · rw [hk]; rfl

/-- A request's frame taken whole is what its command does. -/
theorem exec_takeComplete {f : SentFrame} (hw : i.wellFormed = true) (hf : requestFrame i = some f) (s : State) :
    exec i s = .next (s.takeComplete f.header f.kind f.body) := by
  rcases requestFrame_kind hf with hk | ⟨hk, rfl⟩
  · rw [exec_takeRequest hf hk]
    unfold State.takeComplete
    rw [requestReadsBackFromItsFrame i f hw hf hk]
  · rw [exec_unknownKindRequest hk, takeComplete_unknown hk]

/-! ## The assembler (R175) -/

theorem exec_characterReceived (hl : s.clk.lineAtSpace = false) : exec (.characterReceived b) s = .next (s.assemble b) := by
  show execCharacterReceived b s = _
  unfold execCharacterReceived
  rw [hl]
  rfl

theorem assemble_length {high : Byte} (ha : s.clk.assembler = .length [high]) :
    s.assemble b = s.setAssembler (afterLength high b) := by
  unfold State.assemble; rw [ha]

theorem assemble_content {n : Nat} {got : List Byte} (ha : s.clk.assembler = .content n got) (hn : got.length < n + 3) :
    s.assemble b = s.setAssembler (.content n (got ++ [b])) := by
  unfold State.assemble
  rw [ha]
  exact if_pos (by omega)

theorem frameArrived_counted {n : Nat} {counted : List Byte} {high : Byte} (hc : counted.length = n + 2) (t : State) :
    t.frameArrived n (counted ++ [high, b])
      = if crc16 counted = high ++ b then t.takeCounted (counted.drop 2) else t := by
  unfold State.frameArrived
  rw [List.drop_left' hc, List.take_left' hc]
  rfl

theorem assemble_complete {n : Nat} {counted : List Byte} {high : Byte} (ha : s.clk.assembler = .content n (counted ++ [high]))
    (hc : counted.length = n + 2) :
    s.assemble b = if crc16 counted = high ++ b then (s.setAssembler .hunting).takeCounted (counted.drop 2)
      else s.setAssembler .hunting := by
  have hlen : ¬ (counted ++ [high]).length + 1 < n + 4 := by rw [List.length_append, hc, List.length_singleton]; omega
  unfold State.assemble
  rw [ha]
  dsimp only
  rw [if_neg hlen, List.append_assoc]
  exact frameArrived_counted hc _

/-- Settles O5: one clause per assembler state; a complete frame is taken, and by its kind and its body's length refused. -/
theorem charactersMoveTheAssembler : Obligations.CharactersMoveTheAssembler := by
  intro b s
  refine ⟨fun hl => ?_, fun hl => ⟨fun ha hb => ?_, fun ha hb => ?_, fun ha => ?_, fun high ha => ?_, fun n got ha hn => ?_,
    fun n counted high ha hc hcrc => ?_, fun n counted high h src kind body ha hc hcrc hd hans => ?_⟩⟩
  · show execCharacterReceived b s = _
    unfold execCharacterReceived
    rw [hl]
    rfl
  · rw [exec_characterReceived hl]
    unfold State.assemble
    rw [ha]
    exact congrArg _ (if_neg hb)
  · rw [exec_characterReceived hl]
    unfold State.assemble
    rw [ha]
    exact congrArg _ (if_pos hb)
  · rw [exec_characterReceived hl]
    unfold State.assemble
    rw [ha]
    rfl
  · rw [exec_characterReceived hl, assemble_length ha]
    unfold afterLength
    rw [join16_toNat]
    rfl
  · rw [exec_characterReceived hl, assemble_content ha hn]
    rfl
  · rw [exec_characterReceived hl, assemble_complete ha hc, if_neg hcrc]
    rfl
  · have hexec : exec (.characterReceived b) s = .next ((s.setAssembler .hunting).takeComplete h kind body) := by
      rw [exec_characterReceived hl, assemble_complete ha hc, if_pos hcrc, hd, takeCounted_header]
    have hans' : (s.setAssembler .hunting).answers h src := hans
    obtain ⟨hsource, hroom, hreset⟩ := hans'
    refine ⟨fun hk => ?_, fun hk hb => ⟨fun hs hkind => ?_, fun hs => ?_⟩⟩
    · rw [hexec, takeComplete_unknown hk, takeUnknown_refused ⟨hsource, hroom, hreset⟩]
      rfl
    · rw [hexec, takeComplete_misshapen hk hb]
      unfold State.takeMisshapen
      rw [takeFrame_judged hsource hroom hreset, answered_error (judgeRequest_starting (s := s.setAssembler .hunting) hs hkind)]
      rfl
    · rw [hexec, takeComplete_misshapen hk hb]
      unfold State.takeMisshapen
      rw [takeFrame_judged hsource hroom hreset, answered_error (judgeRequest_malformed (s := s.setAssembler .hunting) hs (.inr rfl))]
      rfl

/-! ## A frame received byte by byte (R175, R192) -/

/-- A byte received moves the assembler and the rest follows. -/
theorem receiveAll_cons {rest : List Byte} (hl : s.clk.lineAtSpace = false) :
    receiveAll (b :: rest) s = receiveAll rest (s.assemble b) := by
  show (match exec (.characterReceived b) s with
    | .next t => receiveAll rest t
    | .fault r => .fault r
    | .refused r => .refused r) = _
  rw [exec_characterReceived hl]

theorem receiveAll_cons_set {rest : List Byte} (hl : s.clk.lineAtSpace = false) (a : Assembler) :
    receiveAll (b :: rest) (s.setAssembler a) = receiveAll rest ((s.setAssembler a).assemble b) :=
  receiveAll_cons (s := s.setAssembler a) hl

/-- The bytes before a frame's last one join what the assembler has. -/
theorem receiveAll_content {n : Nat} {got bytes rest : List Byte} (hl : s.clk.lineAtSpace = false)
    (hn : got.length + bytes.length ≤ n + 3) :
    receiveAll (bytes ++ rest) (s.setAssembler (.content n got)) = receiveAll rest (s.setAssembler (.content n (got ++ bytes))) := by
  induction bytes generalizing got with
  | nil => rw [List.append_nil]; rfl
  | cons b bytes ih =>
    rw [List.length_cons] at hn
    have hstep : (s.setAssembler (.content n got)).assemble b = s.setAssembler (.content n (got ++ [b])) :=
      assemble_content rfl (by omega)
    rw [List.cons_append, receiveAll_cons_set hl, hstep, ih (by rw [List.length_append, List.length_singleton]; omega),
      List.append_assoc]
    rfl

theorem frameFits (i : Instr) : Laws.FrameFits.Statement i := by
  intro hw f hf
  cases i
  case unknownKindRequest h kind => exact Laws.FrameFits.unknownKindRequest h kind hw f hf
  case pathAppend h restart l => exact Laws.FrameFits.pathAppend h restart l hw f hf
  case powerOn | characterReceived | framingError | lineBreak | breakReset | interCharacterGap | transmissionEnd
      | coldLoadEnd | eraseEnd | slotProgrammed | boundary | periodicDue | settleEnd | primingPeriodEnd
      | coastingPeriodStart | slicePeriodEnd | referencePeriodEnd | wordPeriodEnd | listeningPeriodEnd
      | lineReturnsToMark => cases hf
  all_goals cases hf; exact Nat.le_of_ble_eq_true rfl

/-- Settles O6: sync, length, counted bytes and CRC lead the assembler to the frame taken whole. -/
theorem receivedFrameIsTheRequest : Obligations.ReceivedFrameIsTheRequest := by
  intro i f s hw hf ha hl
  have hbody : f.body.length ≤ 512 := frameFits i hw f hf
  generalize hcounted : sentCounted f = counted
  have hlen : counted.length = f.body.length + 3 := by rw [← hcounted]; rfl
  generalize hwhole : u16 counted.length ++ counted = line
  have hline : line.length = counted.length + 2 := by rw [← hwhole, List.length_append]; simp [u16]; omega
  have hdrop : line.drop 2 = counted := by rw [← hwhole]; rfl
  have hsent : sentBytes f = syncByte :: BitVec.ofNat 8 (counted.length / 256) :: BitVec.ofNat 8 counted.length
      :: (counted ++ [(crc16 line).extractLsb' 8 8] ++ [(crc16 line).extractLsb' 0 8]) := by
    unfold sentBytes
    rw [hcounted, hwhole, ← hwhole]
    simp [u16, bytes16]
  have hafter : afterLength (BitVec.ofNat 8 (counted.length / 256)) (BitVec.ofNat 8 counted.length)
      = .content counted.length [BitVec.ofNat 8 (counted.length / 256), BitVec.ofNat 8 counted.length] := by
    unfold afterLength
    rw [join16_u16 (by omega), if_pos ⟨by omega, by omega⟩]
  have hsync : s.assemble syncByte = s.setAssembler (.length []) := by
    unfold State.assemble; rw [ha]; rfl
  have hhunting : s.setAssembler .hunting = s := by
    obtain ⟨_, _, _, _, _, _, _, _, clk, _, _⟩ := s
    obtain ⟨_⟩ := clk
    cases ha
    rfl
  have hfill : ∀ rest, receiveAll ((counted ++ [(crc16 line).extractLsb' 8 8]) ++ rest)
        (s.setAssembler (afterLength (BitVec.ofNat 8 (counted.length / 256)) (BitVec.ofNat 8 counted.length)))
      = receiveAll rest (s.setAssembler (.content counted.length (line ++ [(crc16 line).extractLsb' 8 8]))) := fun rest => by
    rw [hafter, receiveAll_content hl (by simp only [List.length_cons, List.length_nil, List.length_append]; omega), ← hwhole,
      List.append_assoc]
    rfl
  have hlast : (s.setAssembler (.content counted.length (line ++ [(crc16 line).extractLsb' 8 8]))).assemble
        ((crc16 line).extractLsb' 0 8) = s.takeComplete f.header f.kind f.body := by
    rw [assemble_complete rfl hline, if_pos (bytes16_append _).symm, hdrop]
    show (s.setAssembler .hunting).takeCounted counted = _
    rw [hhunting, ← hcounted]
    exact takeCounted_header ..
  calc receiveAll (sentBytes f) s
      = receiveAll ((counted ++ [(crc16 line).extractLsb' 8 8]) ++ [(crc16 line).extractLsb' 0 8])
          (s.setAssembler (afterLength (BitVec.ofNat 8 (counted.length / 256)) (BitVec.ofNat 8 counted.length))) := by
        rw [hsent, receiveAll_cons hl, hsync, receiveAll_cons_set hl]
        exact receiveAll_cons_set hl (.length [BitVec.ofNat 8 (counted.length / 256)])
    _ = receiveAll [] (s.takeComplete f.header f.kind f.body) := by
        rw [hfill, receiveAll_cons_set hl, hlast]
    _ = exec i s := (exec_takeComplete hw hf s).symm

end Sys2Proof.Machine
end

section
/-! The Line Plant Table's other requests: definition of an entry, withdrawal of conditions, assembly and installation of a path
(R6, R7, R11 to R16). -/

namespace Sys2Proof.Machine

variable {s t : State} {a : Asker}

/-! ## Conditions withdrawn one after another (R11) -/

/-- The second state is the first but for the amplifier records and the report queue. -/
def State.judgedOnly (s t : State) : Prop :=
  t = { s with lpt := { s.lpt with records := t.lpt.records }, clk := { s.clk with reports := t.clk.reports } }

theorem State.judgedOnly_trans {u : State} (h1 : s.judgedOnly t) (h2 : t.judgedOnly u) : s.judgedOnly u := by
  rw [State.judgedOnly] at h1 h2
  rw [State.judgedOnly, h2, h1]

theorem State.judgedOnly_setCondition (s : State) (i : Index) (p : Pair) (c : Condition) : s.judgedOnly (s.setCondition i p c) := by
  obtain ⟨records, h, -⟩ := s.setCondition_eq i p c
  rw [State.judgedOnly, h]

theorem joined_cons (q : List Origin) (o : Origin) (l : List Origin) : joined q (o :: l) = joined (joined q [o]) l :=
  joined_append q [o] l

theorem State.setCondition_reports (s : State) (i : Index) (p : Pair) (c : Condition) : (s.setCondition i p c).clk.reports
    = joined s.clk.reports (if (s.record i p).condition = c then [] else [.pair p]) := by
  obtain ⟨records, h, -⟩ := s.setCondition_eq i p c
  rw [h]

theorem State.setCondition_record (s : State) (i j : Index) (p q : Pair) (c : Condition) : (s.setCondition i p c).record j q
    = if j = i ∧ q = p ∧ (s.record i p).condition ≠ c then { s.record j q with condition := c, changed := true }
      else s.record j q := by
  unfold State.setCondition
  by_cases hc : (s.record i p).condition = c
  · rw [if_pos hc, if_neg (fun h => h.2.2 hc)]
  · rw [if_neg hc, State.queueOrigin_eq]
    show (s.setRecord i p _).record j q = _
    rw [State.record_setRecord]
    by_cases hj : j = i ∧ q = p
    · obtain ⟨rfl, rfl⟩ := hj
      rw [if_pos ⟨rfl, rfl⟩, if_pos ⟨rfl, rfl, hc⟩]
    · rw [if_neg hj, if_neg (fun h => hj ⟨h.1, h.2.1⟩)]

/-- The places of a list take UNMEASURED in turn. -/
def State.withdrawConditions (s : State) (l : List (Index × Pair)) : State :=
  l.foldl (fun s x => s.setCondition x.1 x.2 .unmeasured) s

/-- The record at a place has a condition other than UNMEASURED. -/
def State.judgedAt (s : State) (x : Index × Pair) : Bool := !((s.record x.1 x.2).condition == .unmeasured)

theorem State.judgedAt_iff {x : Index × Pair} : s.judgedAt x = true ↔ (s.record x.1 x.2).condition ≠ .unmeasured := by
  simp [State.judgedAt]

theorem State.judgedOnly_withdrawConditions (s : State) (l : List (Index × Pair)) : s.judgedOnly (s.withdrawConditions l) :=
  foldl_keeps (P := s.judgedOnly) (fun _ _ h => State.judgedOnly_trans h (State.judgedOnly_setCondition ..)) l rfl

theorem State.withdrawConditions_record (l : List (Index × Pair)) (j : Index) (q : Pair) : (s.withdrawConditions l).record j q
    = if (j, q) ∈ l ∧ (s.record j q).condition ≠ .unmeasured then { s.record j q with condition := .unmeasured, changed := true }
      else s.record j q := by
  induction l generalizing s with
  | nil => simp [State.withdrawConditions]
  | cons x l ih =>
    obtain ⟨i, p⟩ := x
    have hstep : s.withdrawConditions ((i, p) :: l) = (s.setCondition i p .unmeasured).withdrawConditions l := rfl
    rw [hstep, ih, State.setCondition_record]
    by_cases hx : j = i ∧ q = p
    · obtain ⟨rfl, rfl⟩ := hx
      by_cases hc : (s.record j q).condition = .unmeasured <;> simp [hc]
    · have hne : ¬ (j, q) = (i, p) := fun e => hx (Prod.mk.inj e)
      have hno : ¬ (j = i ∧ q = p ∧ (s.record i p).condition ≠ .unmeasured) := fun h => hx ⟨h.1, h.2.1⟩
      simp only [if_neg hno, List.mem_cons, hne, false_or]

/-- The pairs of the places that change are queued, one after another. -/
theorem State.withdrawConditions_reports {l : List (Index × Pair)} (hl : l.Nodup) :
    (s.withdrawConditions l).clk.reports = joined s.clk.reports ((l.filter s.judgedAt).map (fun x => .pair x.2)) := by
  induction l generalizing s with
  | nil => rfl
  | cons x l ih =>
    obtain ⟨hx, hl⟩ := List.nodup_cons.1 hl
    have hstep : s.withdrawConditions (x :: l) = (s.setCondition x.1 x.2 .unmeasured).withdrawConditions l := rfl
    have hrest : l.filter (s.setCondition x.1 x.2 .unmeasured).judgedAt = l.filter s.judgedAt := by
      refine List.filter_congr fun y hy => ?_
      have hne : ¬ (y.1 = x.1 ∧ y.2 = x.2 ∧ (s.record x.1 x.2).condition ≠ .unmeasured) :=
        fun h => hx (Prod.ext h.1 h.2.1 ▸ hy)
      unfold State.judgedAt
      rw [State.setCondition_record, if_neg hne]
    rw [hstep, ih hl, hrest, State.setCondition_reports]
    by_cases hc : (s.record x.1 x.2).condition = .unmeasured
    · rw [if_pos hc, List.filter_cons_of_neg (mt State.judgedAt_iff.1 (not_not_intro hc))]
      rfl
    · rw [if_neg hc, List.filter_cons_of_pos (State.judgedAt_iff.2 hc), List.map_cons, ← joined_cons]

/-! ## CLEAR_CONDITION (R12) -/

theorem exec_clearCondition (h : Header) (ref : Reference) (pair : Byte) (s : State) :
    exec (.clearCondition h ref pair) s = .next (s.takeFrame h 0x33 (wellMadeRef ref) 1 (answerClearCondition ref pair)) := rfl

theorem pairsNamed_all : pairsNamed 0xFF = some allPairs := if_pos rfl

theorem pairsNamed_one {pair : Byte} {p : Pair} (hp : pair.toNat = p.val) : pairsNamed pair = some [p] := by
  have hne : pair ≠ 0xFF := fun e => by subst e; have := p.isLt; rw [← hp] at this; exact absurd this (by decide)
  unfold pairsNamed
  rw [if_neg hne, inRange_of_eq hp]

theorem pairsNamed_none {pair : Byte} (hp : 16 ≤ pair.toNat) (hne : pair ≠ 0xFF) : pairsNamed pair = none := by
  unfold pairsNamed
  rw [if_neg hne, inRange_none hp]

/-- Clearing conditions of one entry withdraws them at its places. -/
theorem State.clearConditions_eq (s : State) (i : Index) (l : List Pair) :
    s.clearConditions i l = s.withdrawConditions (l.map (fun p => (i, p))) := by
  unfold State.clearConditions State.withdrawConditions
  rw [List.foldl_map]

theorem answerClearCondition_outOfRange {ref : Reference} {pair : Byte}
    (hr : s.resolve a.source ref = none ∨ 16 ≤ pair.toNat ∧ pair ≠ 0xFF) : answerClearCondition ref pair a s = .error .range := by
  unfold answerClearCondition
  rcases hr with hr | ⟨hp, hne⟩
  · rw [hr]
  · rw [pairsNamed_none hp hne]
    cases s.resolve a.source ref <;> rfl

section
variable {ref : Reference} {pair : Byte} {i : Index} {named : List Pair}

theorem answerClearCondition_busy (hr : s.resolve a.source ref = some i) (hn : pairsNamed pair = some named)
    (hb : ∃ p ∈ named, (s.record i p).condition = .isolating) : answerClearCondition ref pair a s = .error .entryBusy := by
  have hany : named.any (fun p => (s.record i p).condition == .isolating) = true := by simpa using hb
  unfold answerClearCondition
  rw [hr, hn]
  exact if_pos hany

theorem answerClearCondition_clears (hr : s.resolve a.source ref = some i) (hn : pairsNamed pair = some named)
    (hb : ∀ p ∈ named, (s.record i p).condition ≠ .isolating) : answerClearCondition ref pair a s
      = .ok (s.clearConditions i named, u8 (named.filter (fun p => !((s.record i p).condition == .unmeasured))).length) := by
  have hany : ¬ named.any (fun p => (s.record i p).condition == .isolating) = true := by simpa using hb
  unfold answerClearCondition
  rw [hr, hn]
  exact if_neg hany

end

/-- Settles O16: the request's two refusals, and the conditions withdrawn at the entry's named places. -/
theorem clearConditionWithdrawsJudgement : Obligations.ClearConditionWithdrawsJudgement := by
  intro h ref pair src effective s ht href
  have hw : wellMadeRef ref = true := wellMadeRef_iff.2 href
  refine ⟨fun hr => ?_, fun i named hr hnamed => ?_⟩
  · rw [exec_clearCondition, takeFrame_refuses ht hw (answerClearCondition_outOfRange hr)]
  have hn : pairsNamed pair = some named := by
    rcases hnamed with ⟨rfl, rfl⟩ | ⟨p, hp, rfl⟩
    · exact pairsNamed_all
    · exact pairsNamed_one hp
  have hnodup : named.Nodup := by
    rcases hnamed with ⟨-, rfl⟩ | ⟨p, -, rfl⟩
    · decide
    · exact List.nodup_singleton p
  refine ⟨fun hb => ?_, fun hb => ⟨s.clearConditions i named, ?_, fun j p => ?_, ?_, ?_⟩⟩
  · rw [exec_clearCondition, takeFrame_refuses ht hw (answerClearCondition_busy hr hn hb)]
  · rw [exec_clearCondition, takeFrame_accepts ht hw (answerClearCondition_clears hr hn hb), u8]
  · have hplace : (j, p) ∈ named.map (fun p => (i, p)) ↔ j = i ∧ p ∈ named := by
      simp [eq_comm, and_comm]
    rw [State.clearConditions_eq, State.withdrawConditions_record]
    simp only [hplace, and_assoc]
    refine if_congr (and_congr_right fun hj => ?_) rfl rfl
    rw [hj]
  · have hplaces : (named.map (fun p => (i, p))).Nodup := hnodup.map fun _ _ e => (Prod.mk.inj e).2
    rw [State.clearConditions_eq, State.withdrawConditions_reports hplaces, List.filter_map, List.map_map]
    rfl
  · rw [State.clearConditions_eq]
    exact s.judgedOnly_withdrawConditions _

/-! ## PATH_APPEND (R14) -/

theorem exec_pathAppend (h : Header) (restart : Byte) (elements : List SentElement) (s : State) :
    exec (.pathAppend h restart elements) s
      = .next (s.takeFrame h 0x42 (wellMadeAppend restart elements) 0 (answerPathAppend restart elements)) := rfl

theorem tagOf_toNat (b : Byte) : tagOf b.toNat = if b = 1 then some .a else if b = 2 then some .b else none := by
  revert b; decide

theorem State.resolveElement_resolvesTo {src : Source} {e : SentElement} {x : PathElement} (h : s.resolvesTo src e x) :
    s.resolveElement src e = some x := by
  obtain ⟨entry, delay, tag⟩ := x
  obtain ⟨hr, hd, hlim, htag⟩ := h
  dsimp only at hr hd htag
  unfold State.resolveElement
  rw [hr, hd, htag]
  dsimp only
  rw [if_neg (Nat.not_lt.2 hlim), tagOf_toNat]

theorem State.resolveElements_resolvesTo {src : Source} {elements : List SentElement} {l : List PathElement}
    (h : List.Forall₂ (s.resolvesTo src) elements l) : s.resolveElements src elements = some l := by
  induction h with
  | nil => rfl
  | cons hx _ ih => rw [State.resolveElements, State.resolveElement_resolvesTo hx, ih]

theorem State.resolveElements_none {src : Source} {elements : List SentElement}
    (h : ∃ e ∈ elements, s.resolve src e.reference = none ∨ 250000 < e.delay.toNat) : s.resolveElements src elements = none := by
  induction elements with
  | nil => obtain ⟨e, he, -⟩ := h; cases he
  | cons x elements ih =>
    obtain ⟨e, he, hbad⟩ := h
    rw [State.resolveElements]
    rcases List.mem_cons.1 he with rfl | he
    · have hnone : s.resolveElement src e = none := by
        unfold State.resolveElement
        rcases hbad with hbad | hbad
        · rw [hbad]
        · cases s.resolve src e.reference with
          | none => rfl
          | some i => exact if_pos hbad
      rw [hnone]
    · rw [ih ⟨e, he, hbad⟩]
      cases s.resolveElement src x <;> rfl

/-- Settles O17: the elements resolved in their order, and the list they make with what was assembled. -/
theorem pathAppendExtendsTheAssemblyList : Obligations.PathAppendExtendsTheAssemblyList := by
  intro h restart elements src effective s ht hmade
  have hw : wellMadeAppend restart elements = true := wellMadeAppend_iff.2 hmade
  have hresolved : ∀ l, List.Forall₂ (s.resolvesTo src) elements l → answerPathAppend restart elements ⟨src, effective⟩ s
      = if 128 < ((if restart = 1 then [] else s.assemblyList src) ++ l).length then .error .range
        else .ok (s.setAssemblyList src ((if restart = 1 then [] else s.assemblyList src) ++ l),
          u8 ((if restart = 1 then [] else s.assemblyList src) ++ l).length) := fun l hl => by
    rw [answerPathAppend, State.resolveElements_resolvesTo hl]
  refine ⟨fun l hl => ⟨fun hlen => ?_, fun hlen => ?_⟩, fun hbad => ?_⟩
  · rw [exec_pathAppend, takeFrame_accepts ht hw ((hresolved l hl).trans (if_neg (Nat.not_lt.2 hlen)))]
    rfl
  · rw [exec_pathAppend, takeFrame_refuses ht hw ((hresolved l hl).trans (if_pos hlen))]
  · have hrange : answerPathAppend restart elements ⟨src, effective⟩ s = .error .range := by
      rw [answerPathAppend, State.resolveElements_none hbad]
    rw [exec_pathAppend, takeFrame_refuses ht hw hrange]

/-! ## SET_PATH (R13, R15, R16) -/

theorem exec_setPath (h : Header) (pair : Byte) (s : State) :
    exec (.setPath h pair) s = .next (s.takeFrame h 0x43 true 0 (answerSetPath pair)) := rfl

theorem State.isBranching_iff {i : Index} : s.isBranching i = true ↔ s.branches i := by
  unfold State.isBranching State.kindOf State.branches
  cases s.entry i with
  | none => simp
  | some e => obtain ⟨k, address, mark⟩ := e; cases k <;> simp

theorem repeats_iff {l : List Index} : repeats l = true ↔ ¬ l.Nodup := by
  induction l with
  | nil => simp [repeats]
  | cons i l ih => simp only [repeats, Bool.or_eq_true, List.contains_iff_mem, ih, List.nodup_cons, not_and_or, not_not]

theorem increasing_iff {l : List Nat} : increasing l = true ↔ l.Pairwise (· < ·) := by
  rw [← List.isChain_iff_pairwise]
  induction l with
  | nil => simp [increasing]
  | cons a l ih =>
    cases l with
    | nil => simp [increasing]
    | cons b l => simp only [increasing, Bool.and_eq_true, decide_eq_true_iff, ih, List.isChain_cons_cons]

theorem legDelays_cons (unit : PathElement) (leg : Leg) (l : List PathElement) :
    unit.delay :: legDelays leg l = (unit :: l.filter (fun x => x.tag == some leg)).map PathElement.delay := rfl

/-- A list with no branching unit meets the remaining conditions of R13 without tags and with rising delays. -/
theorem State.wellOrdered_trunk {l : List PathElement} (hl : ∀ x ∈ l, ¬ s.branches x.entry) :
    s.wellOrdered l = true ↔ (∀ x ∈ l, x.tag = none) ∧ (l.map PathElement.delay).Pairwise (· < ·) := by
  have hdrop : l.dropWhile (fun e => !s.isBranching e.entry) = [] :=
    List.dropWhile_eq_nil_iff.2 fun x hx => by simpa [← State.isBranching_iff] using hl x hx
  unfold State.wellOrdered
  rw [hdrop]
  simp only [Bool.and_eq_true, List.all_eq_true, Option.isNone_iff_eq_none, increasing_iff]

/-- A list with a branching unit after a trunk meets them with tags exactly beyond it, one unit only, and delays rising along the
trunk and along each leg. -/
theorem State.wellOrdered_legs {trunk legs : List PathElement} {unit : PathElement} (hu : s.branches unit.entry)
    (ht : ∀ x ∈ trunk, ¬ s.branches x.entry) : s.wellOrdered (trunk ++ unit :: legs) = true
      ↔ unit.tag = none ∧ (∀ x ∈ trunk, x.tag = none) ∧ (∀ x ∈ legs, ¬ s.branches x.entry ∧ x.tag ≠ none)
        ∧ ((trunk ++ [unit]).map PathElement.delay).Pairwise (· < ·)
        ∧ ∀ leg : Leg, ((unit :: legs.filter (fun x => x.tag == some leg)).map PathElement.delay).Pairwise (· < ·) := by
  have htrunk : ∀ x ∈ trunk, (!s.isBranching x.entry) = true := fun x hx => by
    simpa [← State.isBranching_iff] using ht x hx
  have hunit : ¬ (!s.isBranching unit.entry) = true := by simpa using State.isBranching_iff.2 hu
  have hlegs : (∀ leg : Leg, ((unit :: legs.filter (fun x => x.tag == some leg)).map PathElement.delay).Pairwise (· < ·))
      ↔ ((unit :: legs.filter (fun x => x.tag == some .a)).map PathElement.delay).Pairwise (· < ·)
        ∧ ((unit :: legs.filter (fun x => x.tag == some .b)).map PathElement.delay).Pairwise (· < ·) :=
    ⟨fun h => ⟨h .a, h .b⟩, fun h leg => by cases leg; exacts [h.1, h.2]⟩
  have hdrop : (trunk ++ unit :: legs).dropWhile (fun e => !s.isBranching e.entry) = unit :: legs := by
    rw [List.dropWhile_append_of_pos htrunk]; exact List.dropWhile_cons_of_neg hunit
  have htake : (trunk ++ unit :: legs).takeWhile (fun e => !s.isBranching e.entry) = trunk := by
    rw [List.takeWhile_append_of_pos htrunk, List.takeWhile_cons_of_neg (by exact hunit), List.append_nil]
  unfold State.wellOrdered
  rw [hdrop, htake]
  simp only [Bool.and_eq_true, List.all_eq_true, Option.isNone_iff_eq_none, increasing_iff, legDelays_cons, hlegs, forall_and,
    Bool.not_eq_true', ← Bool.not_eq_true, State.isBranching_iff, ← Option.ne_none_iff_isSome]
  tauto

/-- A list with a branching unit splits at its first one. -/
theorem State.exists_branching_split (s : State) {l : List PathElement} (h : ∃ x, ¬ (x ∈ l → ¬ s.branches x.entry)) :
    ∃ trunk unit legs, l = trunk ++ unit :: legs ∧ s.branches unit.entry ∧ ∀ x ∈ trunk, ¬ s.branches x.entry := by
  induction l with
  | nil => obtain ⟨x, hx⟩ := h; exact absurd (fun hm => nomatch hm) hx
  | cons y l ih =>
    by_cases hy : s.branches y.entry
    · exact ⟨[], y, l, rfl, hy, fun x hx => nomatch hx⟩
    · obtain ⟨x, hx⟩ := h
      have hxl : ¬ (x ∈ l → ¬ s.branches x.entry) := fun hno => hx fun hm => by
        rcases List.mem_cons.1 hm with rfl | hm
        · exact hy
        · exact hno hm
      obtain ⟨trunk, unit, legs, rfl, hu, ht⟩ := ih ⟨x, hxl⟩
      refine ⟨y :: trunk, unit, legs, rfl, hu, fun z hz => ?_⟩
      rcases List.mem_cons.1 hz with rfl | hz
      · exact hy
      · exact ht z hz

/-- The check of R13's remaining conditions says what they are. -/
theorem State.wellOrdered_iff {l : List PathElement} : s.wellOrdered l = true ↔ s.pathFits l := by
  constructor
  · intro h
    by_cases hl : ∀ x ∈ l, ¬ s.branches x.entry
    · obtain ⟨htag, hd⟩ := (State.wellOrdered_trunk hl).1 h
      exact .inl ⟨fun x hx => ⟨hl x hx, htag x hx⟩, hd⟩
    · obtain ⟨trunk, unit, legs, rfl, hu, ht⟩ := s.exists_branching_split (not_forall.1 hl)
      obtain ⟨htag, htrunk, hlegs, hd1, hd2⟩ := (State.wellOrdered_legs hu ht).1 h
      exact .inr ⟨trunk, unit, legs, rfl, hu, htag, fun x hx => ⟨ht x hx, htrunk x hx⟩, hlegs, hd1, hd2⟩
  · rintro (⟨hx, hd⟩ | ⟨trunk, unit, legs, rfl, hu, htag, htrunk, hlegs, hd1, hd2⟩)
    · exact (State.wellOrdered_trunk fun x h => (hx x h).1).2 ⟨fun x h => (hx x h).2, hd⟩
    · exact (State.wellOrdered_legs hu fun x h => (htrunk x h).1).2 ⟨htag, fun x h => (htrunk x h).2, hlegs, hd1, hd2⟩

theorem State.anyOrder_flight_iff {p : Pair} :
    s.anyOrder p flightStates = true ↔ ∃ n o, s.order n = some o ∧ o.pair = p ∧ ¬ o.done := by
  have hdone : ∀ o : Order, flightStates.contains o.state = true ↔ ¬ o.done := fun o => by
    unfold Order.done
    cases o.state <;> simp [flightStates]
  unfold State.anyOrder
  rw [List.any_eq_true]
  refine ⟨fun ⟨n, _, h⟩ => ?_, fun ⟨n, o, ho, hp, hd⟩ => ⟨n, mem_allOrders n, ?_⟩⟩
  · cases ho : s.order n with
    | none => rw [ho] at h; cases h
    | some o =>
      rw [ho] at h
      obtain ⟨hp, hd⟩ := (Bool.and_eq_true ..).to_iff.1 h
      exact ⟨n, o, ho, beq_iff_eq.1 hp, (hdone o).1 hd⟩
  · rw [ho]
    exact (Bool.and_eq_true ..).to_iff.2 ⟨beq_iff_eq.2 hp, (hdone o).2 hd⟩

/-- The pair is neither measured nor under order: R15's second check passes. -/
def State.pairFree (s : State) (p : Pair) : Prop := s.chain p = [] ∧ ∀ n o, s.order n = some o → o.pair = p → o.done

theorem State.pairBusy_iff {p : Pair} : (!(s.chain p).isEmpty || s.anyOrder p flightStates) = true ↔ ¬ s.pairFree p := by
  have hempty : (!(s.chain p).isEmpty) = true ↔ s.chain p ≠ [] := by cases s.chain p <;> simp
  rw [Bool.or_eq_true, State.anyOrder_flight_iff, hempty, State.pairFree, not_and_or]
  simp only [not_forall, exists_prop]

/-- A request's answer by the first check of R15 that fails. -/
theorem answerSetPath_eq {pair : Byte} {p : Pair} (hp : pair.toNat = p.val) : answerSetPath pair a s
    = if !(s.chain p).isEmpty || s.anyOrder p flightStates then .error .pairBusy
      else if !(s.assemblyList a.source).all (fun e => (s.entry e.entry).isSome) then .error .range
      else if repeats ((s.assemblyList a.source).map PathElement.entry) then .error .duplicate
      else if !s.wellOrdered (s.assemblyList a.source) then .error .range
      else .ok (s.installPath a.source p,
        u8 (s.assemblyList a.source).length ++ u8 ((s.installPath a.source p).effectivePath p).length) := by
  rw [answerSetPath, inRange_of_eq hp]

/-- The state with the source's assembly list installed on the pair, its records not yet withdrawn (R16). -/
def State.withPath (s : State) (src : Source) (p : Pair) : State := (s.setPath p (s.assemblyList src)).setAssemblyList src []

theorem State.installPath_eq (s : State) (src : Source) (p : Pair) : s.installPath src p
    = (s.withPath src p).withdrawConditions ((entriesConcerned (s.path p) (s.assemblyList src)).map (fun i => (i, p))) := by
  unfold State.installPath State.withdrawConditions State.withPath
  rw [List.foldl_map]

theorem joined_self {q : List Origin} {o : Origin} (l : List Origin) (ho : o ∈ q) (hl : ∀ x ∈ l, x = o) : joined q l = q := by
  induction l with
  | nil => rfl
  | cons x l ih =>
    obtain rfl := hl x List.mem_cons_self
    rw [joined, if_pos ho]
    exact ih fun y hy => hl y (List.mem_cons_of_mem _ hy)

/-- One origin queued over and over joins once. -/
theorem joined_same {q : List Origin} {o : Origin} (l : List Origin) (hl : ∀ x ∈ l, x = o) :
    joined q l = joined q (if l = [] then [] else [o]) := by
  cases l with
  | nil => rfl
  | cons x l =>
    obtain rfl := hl x List.mem_cons_self
    have hx : x ∈ joined q [x] := by
      unfold joined joined
      split
      · assumption
      · simp
    rw [joined_cons, joined_self l hx fun y hy => hl y (List.mem_cons_of_mem _ hy), if_neg (List.cons_ne_nil x l)]

theorem nodup_eraseDups : ∀ l : List Index, l.eraseDups.Nodup
  | [] => List.nodup_nil
  | i :: l => by
    rw [List.eraseDups_cons, List.nodup_cons, List.mem_eraseDups]
    exact ⟨fun h => by simpa using List.of_mem_filter h, nodup_eraseDups (l.filter (fun b => !b == i))⟩
termination_by l => l.length
decreasing_by exact Nat.lt_succ_of_le (List.length_filter_le ..)

theorem mem_entriesConcerned {old new : List PathElement} {i : Index} :
    i ∈ entriesConcerned old new ↔ ∃ x ∈ old ++ new, x.entry = i := by
  rw [entriesConcerned, List.mem_eraseDups, List.mem_map]

section
variable {src : Source} {p : Pair}

theorem State.installPath_judgedOnly : (s.withPath src p).judgedOnly (s.installPath src p) := by
  rw [State.installPath_eq]; exact State.judgedOnly_withdrawConditions ..

theorem State.installPath_record (i : Index) (q : Pair) : (s.installPath src p).record i q
    = if q = p ∧ (∃ x ∈ s.path p ++ s.assemblyList src, x.entry = i) ∧ (s.record i p).condition ≠ .unmeasured then
        { s.record i q with condition := .unmeasured, changed := true } else s.record i q := by
  have hkeep : (s.withPath src p).record i q = s.record i q := rfl
  have hplace : (i, q) ∈ (entriesConcerned (s.path p) (s.assemblyList src)).map (fun i => (i, p))
      ↔ q = p ∧ ∃ x ∈ s.path p ++ s.assemblyList src, x.entry = i := by
    rw [← mem_entriesConcerned, List.mem_map]
    exact ⟨fun ⟨j, hj, e⟩ => by cases e; exact ⟨rfl, hj⟩, fun ⟨hq, hi⟩ => ⟨i, hi, by rw [hq]⟩⟩
  rw [State.installPath_eq, State.withdrawConditions_record, hkeep]
  refine if_congr ((and_congr_left' hplace).trans (and_assoc.trans (and_congr_right fun hq => ?_))) rfl rfl
  rw [hq]

theorem State.installPath_reports : (s.installPath src p).clk.reports = joined s.clk.reports
    (if ∃ x ∈ s.path p ++ s.assemblyList src, (s.record x.entry p).condition ≠ .unmeasured then [.pair p] else []) := by
  have hplaces : ((entriesConcerned (s.path p) (s.assemblyList src)).map (fun i => (i, p))).Nodup :=
    (nodup_eraseDups _).map fun _ _ e => (Prod.mk.inj e).1
  rw [State.installPath_eq, State.withdrawConditions_reports hplaces, joined_same (o := .pair p)]
  · refine congrArg _ ?_
    rw [← ite_not]
    refine if_congr ?_ rfl rfl
    rw [List.map_eq_nil_iff, List.filter_eq_nil_iff]
    simp only [State.judgedAt_iff, List.mem_map, mem_entriesConcerned, not_forall, not_not, exists_prop]
    constructor
    · rintro ⟨-, ⟨i, ⟨x, hx, rfl⟩, rfl⟩, hc⟩
      exact ⟨x, hx, hc⟩
    · rintro ⟨x, hx, hc⟩
      exact ⟨_, ⟨_, ⟨x, hx, rfl⟩, rfl⟩, hc⟩
  · intro o ho
    obtain ⟨x, hx, rfl⟩ := List.mem_map.1 ho
    obtain ⟨i, -, rfl⟩ := List.mem_map.1 (List.mem_filter.1 hx).1
    rfl

end

/-- Settles O18: the request's answer by R15's checks in turn, and the path installed with the concerned records withdrawn. -/
theorem setPathInstallsTheAssemblyList : Obligations.SetPathInstallsTheAssemblyList := by
  refine ⟨fun h pair src effective p s ht hp hchain horder hdef hnodup hfits => ?_,
    fun h pair src effective s ht => ⟨fun hr => ?_, fun p hp => ?_⟩⟩
  · have hfree := mt State.pairBusy_iff.1 (not_not_intro (show s.pairFree p from ⟨hchain, horder⟩))
    have hans : answerSetPath pair ⟨src, effective⟩ s = .ok (s.installPath src p,
        u8 (s.assemblyList src).length ++ u8 ((s.installPath src p).effectivePath p).length) := by
      rw [answerSetPath_eq hp, if_neg hfree, if_neg (by simpa [← Option.isSome_iff_ne_none] using hdef), if_neg (mt repeats_iff.1 (not_not_intro hnodup)),
        State.wellOrdered_iff.2 hfits]
      rfl
    have hframe : (s.withPath src p).judgedOnly (s.installPath src p) := State.installPath_judgedOnly
    rw [State.judgedOnly] at hframe
    refine ⟨s.installPath src p, ?_, ?_, ?_, fun q hq => ?_, fun q hq => ?_, State.installPath_record, State.installPath_reports, ?_⟩
    · rw [exec_setPath, takeFrame_accepts ht rfl hans]
      rfl
    · rw [hframe]; exact (vector_get_set ..).trans (if_pos rfl)
    · rw [hframe]; exact (vector_get_set ..).trans (if_pos rfl)
    · rw [hframe]; exact (vector_get_set ..).trans (if_neg hq)
    · rw [hframe]; exact (vector_get_set ..).trans (if_neg hq)
    · rw [hframe]; rfl
  · have hrange : answerSetPath pair ⟨src, effective⟩ s = .error .range := by rw [answerSetPath, inRange_none hr]
    rw [exec_setPath, takeFrame_refuses ht rfl hrange]
  · rw [exec_setPath]
    refine ⟨fun hbusy => ?_, fun hchain horder => ?_⟩
    · have hb : ¬ s.pairFree p := by
        rintro ⟨hchain, horder⟩
        rcases hbusy with hc | ⟨n, o, ho, hop, hd⟩
        · exact hc hchain
        · exact hd (horder n o ho hop)
      rw [takeFrame_refuses ht rfl ((answerSetPath_eq hp).trans (if_pos (State.pairBusy_iff.2 hb)))]
    · have hfree := mt State.pairBusy_iff.1 (not_not_intro (show s.pairFree p from ⟨hchain, horder⟩))
      have hpast := (answerSetPath_eq (a := ⟨src, effective⟩) hp).trans (if_neg hfree)
      refine ⟨fun hundef => ?_, fun hdef => ⟨fun hdup => ?_, fun hnodup hfits => ?_⟩⟩
      · rw [takeFrame_refuses ht rfl (hpast.trans (if_pos (by simpa using hundef)))]
      · rw [takeFrame_refuses ht rfl ((hpast.trans (if_neg (by simpa [← Option.isSome_iff_ne_none] using hdef))).trans (if_pos (repeats_iff.2 hdup)))]
      · have hw : s.wellOrdered (s.assemblyList src) = false := Bool.eq_false_iff.2 (mt State.wellOrdered_iff.1 hfits)
        rw [takeFrame_refuses ht rfl (((hpast.trans (if_neg (by simpa [← Option.isSome_iff_ne_none] using hdef))).trans
          (if_neg (mt repeats_iff.1 (not_not_intro hnodup)))).trans (if_pos (by rw [hw]; rfl)))]

end Sys2Proof.Machine
end

section
/-! The definition of an entry: its checks in order, the entry written and its records put into their starting values (R2, R6, R7). -/

namespace Sys2Proof.Machine

variable {s t : State} {a : Asker} {i : Index}

/-! ## Records put into their starting values (R7) -/

/-- A record's starting values; its changed mark is set if it had a judgement (R7, R11). -/
def restarted (r : AmpRecord) : AmpRecord := { changed := r.changed || !(r.condition == .unmeasured) }

theorem State.restartRecord_eq (s : State) (i : Index) (p : Pair) : s.restartRecord i p
    = (s.setRecord i p (restarted (s.record i p))).setReports
        (joined s.clk.reports (if (s.record i p).condition = .unmeasured then [] else [.pair p])) := by
  unfold State.restartRecord restarted
  by_cases hc : (s.record i p).condition = .unmeasured
  · rw [if_pos hc, if_pos hc, hc]
    simp [joined]
    rfl
  · rw [if_neg hc, if_neg hc, State.queueOrigin_eq]
    have hb : ((s.record i p).condition == .unmeasured) = false := beq_eq_false_iff_ne.2 hc
    rw [hb, Bool.not_false, Bool.or_true]
    rfl

theorem State.restartRecord_record (i j : Index) (p q : Pair) : (s.restartRecord i p).record j q
    = if j = i ∧ q = p then restarted (s.record i p) else s.record j q := by
  rw [State.restartRecord_eq]
  exact State.record_setRecord

theorem State.judgedOnly_restartRecord (s : State) (i : Index) (p : Pair) : s.judgedOnly (s.restartRecord i p) := by
  rw [State.restartRecord_eq]
  rfl

/-- The records of an entry on a list of pairs restarted one after another. -/
def State.restartOn (s : State) (i : Index) (l : List Pair) : State := l.foldl (fun s p => s.restartRecord i p) s

theorem State.judgedOnly_restartOn (s : State) (i : Index) (l : List Pair) : s.judgedOnly (s.restartOn i l) :=
  foldl_keeps (P := s.judgedOnly) (fun _ _ h => State.judgedOnly_trans h (State.judgedOnly_restartRecord ..)) l rfl

theorem State.restartOn_record {l : List Pair} (hl : l.Nodup) (j : Index) (q : Pair) : (s.restartOn i l).record j q
    = if j = i ∧ q ∈ l then restarted (s.record i q) else s.record j q := by
  induction l generalizing s with
  | nil => simp [State.restartOn]
  | cons p l ih =>
    obtain ⟨hp, hl⟩ := List.nodup_cons.1 hl
    have hstep : s.restartOn i (p :: l) = (s.restartRecord i p).restartOn i l := rfl
    rw [hstep, ih hl, State.restartRecord_record, State.restartRecord_record]
    by_cases hj : j = i
    · by_cases hq : q = p
      · subst hj hq; simp [hp]
      · simp [hj, hq]
    · simp [hj]

theorem State.restartOn_reports {l : List Pair} (hl : l.Nodup) : (s.restartOn i l).clk.reports
    = joined s.clk.reports ((l.filter (fun p => !((s.record i p).condition == .unmeasured))).map Origin.pair) := by
  induction l generalizing s with
  | nil => rfl
  | cons p l ih =>
    obtain ⟨hp, hl⟩ := List.nodup_cons.1 hl
    have hstep : s.restartOn i (p :: l) = (s.restartRecord i p).restartOn i l := rfl
    have hrest : l.filter (fun q => !(((s.restartRecord i p).record i q).condition == .unmeasured))
        = l.filter (fun q => !((s.record i q).condition == .unmeasured)) := by
      refine List.filter_congr fun q hq => ?_
      have hne : ¬ (i = i ∧ q = p) := fun h => hp (h.2 ▸ hq)
      rw [State.restartRecord_record, if_neg hne]
    have hreports : (s.restartRecord i p).clk.reports
        = joined s.clk.reports (if (s.record i p).condition = .unmeasured then [] else [.pair p]) := by
      rw [State.restartRecord_eq]; rfl
    rw [hstep, ih hl, hrest, hreports]
    by_cases hc : (s.record i p).condition = .unmeasured
    · rw [if_pos hc, List.filter_cons_of_neg (by simp [hc])]
      rfl
    · rw [if_neg hc, List.filter_cons_of_pos (by simp [hc]), List.map_cons, ← joined_cons]

theorem State.entry_of_judgedOnly (h : s.judgedOnly t) (j : Index) : t.entry j = s.entry j := by
  rw [State.judgedOnly] at h
  rw [h]
  rfl

/-- An entry written and its records judged anew: entries, records and the report queue differ, and nothing else. -/
theorem State.frame_of_setEntry_judgedOnly {e : Option Entry} (h : (s.setEntry i e).judgedOnly t) :
    t = { s with lpt := { s.lpt with entries := t.lpt.entries, records := t.lpt.records },
                 clk := { s.clk with reports := t.clk.reports } } := by
  rw [State.judgedOnly] at h
  rw [h]
  rfl

/-! ## DEFINE_ENTRY (R6) -/

theorem exec_defineEntry (h : Header) (ref : Reference) (kind address spare route : Byte) (s : State) :
    exec (.defineEntry h ref kind address spare route) s = .next (s.takeFrame h 0x40
      (wellMadeRef ref && (!(kind == 2) || isFlag route)) 0 (answerDefineEntry ref kind address spare route)) := rfl

/-- The kind code is one the index may take (R2). -/
def kindMayStand (i : Index) (kind : Byte) : Prop := kind = 1 ∧ 16 ≤ i.val ∨ kind = 2 ∧ i.val < 16 ∨ kind = 3 ∧ i.val < 16

/-- The entry is not in use: in no path list, and without an order mark (R6). -/
def State.unused (s : State) (i : Index) : Prop := ∀ e, s.entry i = some e → e.mark = false ∧ ∀ p, ∀ x ∈ s.path p, x.entry ≠ i

theorem byte_eq_iff {b c : Byte} : b = c ↔ b.toNat = c.toNat := BitVec.toNat_inj.symm

theorem entryKindAt_line {spare route : Nat} (n : Fin 3) (hi : 16 ≤ i.val) (hn : spare = n.val) :
    entryKindAt i 1 spare route = some (.line n) := by
  subst hn
  exact (if_pos hi).trans (by rw [Fin.ofNat_val_eq_self])

theorem entryKindAt_isSome {kind : Byte} (hk : kindMayStand i kind) (spare route : Nat) :
    ∃ k, entryKindAt i kind.toNat spare route = some k := by
  rcases hk with ⟨rfl, hi⟩ | ⟨rfl, hi⟩ | ⟨rfl, hi⟩
  · exact ⟨_, if_pos hi⟩
  · exact ⟨_, if_pos hi⟩
  · exact ⟨_, if_pos hi⟩

theorem entryKindAt_none {kind : Byte} (hk : ¬ kindMayStand i kind) (spare route : Nat) :
    entryKindAt i kind.toNat spare route = none := by
  unfold kindMayStand at hk
  simp only [not_or, not_and, byte_eq_iff] at hk
  unfold entryKindAt
  split
  · rename_i hone; exact if_neg (hk.1 hone)
  · rename_i htwo; exact if_neg (hk.2.1 htwo)
  · rename_i hthree; exact if_neg (hk.2.2 hthree)
  · rfl

theorem spareTooMany_iff {kind spare : Byte} : spareTooMany kind.toNat spare.toNat = true ↔ kind = 1 ∧ 2 < spare.toNat := by
  rw [spareTooMany, Bool.and_eq_true, beq_iff_eq, decide_eq_true_iff, byte_eq_iff]
  rfl

/-- The address and the spare count are in range: R6's third check passes. -/
theorem rangeCheck_passes {kind address spare : Byte} (hlow : 1 ≤ address.toNat) (hhigh : address.toNat ≤ 254)
    (hspare : kind = 1 → spare.toNat ≤ 2) :
    ¬ (address.toNat = 0 ∨ 254 < address.toNat ∨ spareTooMany kind.toNat spare.toNat = true) := by
  rw [spareTooMany_iff]
  rintro (h | h | ⟨hk, h⟩)
  · omega
  · omega
  · exact absurd h (Nat.not_lt.2 (hspare hk))

theorem State.inUse_iff : (s.entry i).isSome ∧ (s.onSomePath i = true ∨ s.orderMarked i = true) ↔ ¬ s.unused i := by
  rw [State.onSomePath_iff, State.orderMarked_iff]
  unfold State.unused
  cases he : s.entry i with
  | none => simp
  | some e =>
    simp only [Option.isSome_some, true_and, Option.some.injEq, forall_eq', not_and_or, Bool.not_eq_false, not_forall, not_not,
      exists_prop, exists_eq_left']
    exact or_comm

theorem State.addressTaken_iff {address : Byte} :
    s.addressTaken i address = true ↔ ∃ j e, j ≠ i ∧ s.entry j = some e ∧ e.address = address := by
  unfold State.addressTaken
  rw [List.any_eq_true]
  refine ⟨fun ⟨j, _, h⟩ => ?_, fun ⟨j, e, hj, he, ha⟩ => ⟨j, List.mem_finRange j, ?_⟩⟩
  · obtain ⟨hj, h⟩ := (Bool.and_eq_true ..).to_iff.1 h
    cases he : s.entry j with
    | none => rw [he] at h; cases h
    | some e => rw [he] at h; exact ⟨j, e, by simpa using hj, he, beq_iff_eq.1 h⟩
  · rw [he]
    simp [hj, ha]

/-- A definition's answer by the first check of R6 that fails, past the reference and the kind. -/
theorem answerDefineEntry_eq {ref : Reference} {kind address spare route : Byte} {k : EntryKind}
    (hr : s.resolve a.source ref = some i) (hk : entryKindAt i kind.toNat spare.toNat route.toNat = some k) :
    answerDefineEntry ref kind address spare route a s
      = if address.toNat = 0 ∨ 254 < address.toNat ∨ spareTooMany kind.toNat spare.toNat = true then .error .range
        else if (s.entry i).isSome ∧ (s.onSomePath i = true ∨ s.orderMarked i = true) then .error .inUse
        else if s.addressTaken i address then .error .duplicate
        else .ok ((s.setEntry i (some { kind := k, address := address, mark := false })).restartOn i allPairs, u16 i.val) := by
  simp only [answerDefineEntry, hr, hk]
  rfl

/-- Settles O14: the request's answer by R6's checks in turn; the entry written and its records restarted pair by pair. -/
theorem defineEntryWritesTheEntry : Obligations.DefineEntryWritesTheEntry := by
  refine ⟨fun h ref kind address spare route src effective i k s ht href hr hkind hlow hhigh hused hfree => ?_,
    fun h ref kind address spare route src effective s ht href hroute => ⟨fun hr => ?_, fun i hr => ⟨fun hk => ?_, fun hk => ?_⟩⟩⟩
  · have hk : entryKindAt i kind.toNat spare.toNat route.toNat = some k := by
      rcases hkind with ⟨rfl, hi, n, hn, rfl⟩ | ⟨rfl, hi, ⟨rfl, rfl⟩ | ⟨rfl, rfl⟩⟩ | ⟨rfl, hi, rfl⟩
      · exact entryKindAt_line n hi hn
      · exact if_pos hi
      · exact if_pos hi
      · exact if_pos hi
    have hw : (wellMadeRef ref && (!(kind == 2) || isFlag route)) = true := by
      refine (Bool.and_eq_true ..).to_iff.2 ⟨wellMadeRef_iff.2 href, wellMadeRoute_iff.2 fun hk2 => ?_⟩
      rcases hkind with ⟨rfl, -⟩ | ⟨-, -, ⟨rfl, -⟩ | ⟨rfl, -⟩⟩ | ⟨rfl, -⟩
      · exact absurd hk2 (by decide)
      · decide
      · decide
      · exact absurd hk2 (by decide)
    have hspare : kind = 1 → spare.toNat ≤ 2 := fun hk1 => by
      rcases hkind with ⟨-, -, n, hn, -⟩ | ⟨hk2, -⟩ | ⟨hk3, -⟩
      · have := n.isLt; omega
      · exact absurd (hk1.symm.trans hk2) (by decide)
      · exact absurd (hk1.symm.trans hk3) (by decide)
    have hdup : ¬ s.addressTaken i address = true := by
      rw [State.addressTaken_iff]
      rintro ⟨j, e, hj, he, ha⟩
      exact hfree j e hj he ha
    have hans := (answerDefineEntry_eq (a := ⟨src, effective⟩) (address := address) hr hk).trans
      (((if_neg (rangeCheck_passes hlow hhigh hspare)).trans (if_neg (mt State.inUse_iff.1 (not_not_intro hused)))).trans (if_neg hdup))
    have hframe := (s.setEntry i (some { kind := k, address := address, mark := false })).judgedOnly_restartOn i allPairs
    have hnodup : allPairs.Nodup := by decide
    refine ⟨(s.setEntry i (some { kind := k, address := address, mark := false })).restartOn i allPairs, ?_, fun j => ?_,
      fun j p => ?_, State.restartOn_reports hnodup, ?_⟩
    · rw [exec_defineEntry, takeFrame_accepts ht hw hans]
    · rw [State.entry_of_judgedOnly hframe]; exact State.entry_setEntry
    · rw [State.restartOn_record hnodup]
      exact if_congr (and_iff_left (mem_allPairs p)) rfl rfl
    · exact State.frame_of_setEntry_judgedOnly hframe
  · have hw : (wellMadeRef ref && (!(kind == 2) || isFlag route)) = true :=
      (Bool.and_eq_true ..).to_iff.2 ⟨wellMadeRef_iff.2 href, wellMadeRoute_iff.2 hroute⟩
    have hrange : answerDefineEntry ref kind address spare route ⟨src, effective⟩ s = .error .range := by
      simp only [answerDefineEntry, hr]
    rw [exec_defineEntry, takeFrame_refuses ht hw hrange]
  · have hw : (wellMadeRef ref && (!(kind == 2) || isFlag route)) = true :=
      (Bool.and_eq_true ..).to_iff.2 ⟨wellMadeRef_iff.2 href, wellMadeRoute_iff.2 hroute⟩
    have hwrong : answerDefineEntry ref kind address spare route ⟨src, effective⟩ s = .error .wrongKind := by
      simp only [answerDefineEntry, hr, entryKindAt_none hk]
    rw [exec_defineEntry, takeFrame_refuses ht hw hwrong]
  · have hw : (wellMadeRef ref && (!(kind == 2) || isFlag route)) = true :=
      (Bool.and_eq_true ..).to_iff.2 ⟨wellMadeRef_iff.2 href, wellMadeRoute_iff.2 hroute⟩
    obtain ⟨k, hk⟩ := entryKindAt_isSome hk spare.toNat route.toNat
    have hans := answerDefineEntry_eq (a := ⟨src, effective⟩) (address := address) hr hk
    rw [exec_defineEntry]
    refine ⟨fun hbad => ?_, fun hlow hhigh hsp => ⟨fun e he huse => ?_, fun hused hdup => ?_⟩⟩
    · rw [takeFrame_refuses ht hw (hans.trans (if_pos (by rw [spareTooMany_iff]; exact hbad)))]
    · have hin : ¬ s.unused i := fun hu => by
        rcases huse with hm | ⟨p, x, hx, hxe⟩
        · rw [(hu e he).1] at hm; cases hm
        · exact (hu e he).2 p x hx hxe
      rw [takeFrame_refuses ht hw ((hans.trans (if_neg (rangeCheck_passes hlow hhigh hsp))).trans (if_pos (State.inUse_iff.2 hin)))]
    · rw [takeFrame_refuses ht hw (((hans.trans (if_neg (rangeCheck_passes hlow hhigh hsp))).trans
        (if_neg (mt State.inUse_iff.1 (not_not_intro hused)))).trans (if_pos (State.addressTaken_iff.2 hdup)))]

end Sys2Proof.Machine
end

section
/-! The part's arithmetic: levels from the exact logarithm, applied settings under a ceiling, first-fit allocation, and the
reduction of an element (R29, R31, R44, R50 to R57). -/

namespace Sys2Proof.Machine

/-! ## The decimal logarithm (R1, R29) -/

theorem floorLog10_range (q bits acc : Nat) : acc ≤ floorLog10 q bits acc ∧ floorLog10 q bits acc < acc + 2 ^ bits := by
  induction bits generalizing acc with
  | zero => exact ⟨Nat.le_refl _, Nat.lt_succ_self _⟩
  | succ bits ih =>
    have hpow : 2 ^ (bits + 1) = 2 ^ bits + 2 ^ bits := by rw [Nat.pow_succ]; omega
    rw [floorLog10, hpow]
    split
    · have := ih (acc + 2 ^ bits); omega
    · have := ih acc; omega

/-- The bisection finds the largest power of ten at or below `q`. -/
theorem floorLog10_spec {q bits acc : Nat} (hlow : 10 ^ acc ≤ q) (hhigh : q < 10 ^ (acc + 2 ^ bits)) :
    10 ^ floorLog10 q bits acc ≤ q ∧ q < 10 ^ (floorLog10 q bits acc + 1) := by
  induction bits generalizing acc with
  | zero => exact ⟨hlow, hhigh⟩
  | succ bits ih =>
    rw [floorLog10]
    split
    · rename_i h
      refine ih h ?_
      rwa [Nat.add_assoc, ← Nat.two_mul, ← Nat.pow_succ']
    · rename_i h
      exact ih hlow (Nat.lt_of_not_le h)

/-- A larger quotient has no smaller logarithm. -/
theorem floorLog10_mono {q q' : Nat} (hq : q ≤ q') (bits acc : Nat) : floorLog10 q bits acc ≤ floorLog10 q' bits acc := by
  induction bits generalizing acc with
  | zero => exact Nat.le_refl _
  | succ bits ih =>
    rw [floorLog10, floorLog10]
    by_cases h : 10 ^ (acc + 2 ^ bits) ≤ q
    · rw [if_pos h, if_pos (Nat.le_trans h hq)]
      exact ih _
    · rw [if_neg h]
      split
      · have h1 := (floorLog10_range q bits acc).2
        have h2 := (floorLog10_range q' bits (acc + 2 ^ bits)).1
        omega
      · exact ih acc

/-- A quotient rounded down lies between powers of ten as the exact one does. -/
theorem pow_le_of_le_div {x y m : Nat} (hx : 0 < x) (h : 10 ^ m ≤ y / x) : 10 ^ m * x ≤ y :=
  (Nat.le_div_iff_mul_le hx).1 h

theorem lt_pow_of_div_lt {x y m : Nat} (hx : 0 < x) (h : y / x < 10 ^ m) : y < 10 ^ m * x :=
  (Nat.div_lt_iff_lt_mul hx).1 h

/-- The rounded half of a logarithm bounds the quotient by the odd powers around it. -/
theorem half_floorLog10_bounds {x y bits : Nat} (hx : 0 < x) (hxy : x ≤ y) (hhigh : y / x < 10 ^ (2 ^ bits)) :
    ((floorLog10 (y / x) bits 0 + 1) / 2 = 0 ∨ 10 ^ (2 * ((floorLog10 (y / x) bits 0 + 1) / 2) - 1) * x ≤ y)
      ∧ y < 10 ^ (2 * ((floorLog10 (y / x) bits 0 + 1) / 2) + 1) * x := by
  obtain ⟨hle, hlt⟩ := floorLog10_spec (acc := 0) (Nat.div_pos hxy hx) (by rwa [Nat.zero_add])
  generalize floorLog10 (y / x) bits 0 = m at hle hlt
  refine ⟨?_, lt_pow_of_div_lt hx (Nat.lt_of_lt_of_le hlt (Nat.pow_le_pow_right (by omega) (by omega)))⟩
  by_cases h0 : (m + 1) / 2 = 0
  · exact .inl h0
  · exact .inr (pow_le_of_le_div hx (Nat.le_trans (Nat.pow_le_pow_right (by omega) (by omega)) hle))

/-- A ratio above 1 / 10^8 has a logarithm the bisection reaches. -/
theorem ratio_below {a b n limit : Nat} (ha : 0 < a) (hb : b < a * 10 ^ 8) (hn : 0 < n) (hlimit : 8 * n ≤ limit) :
    b ^ n / a ^ n < 10 ^ limit := by
  rw [Nat.div_lt_iff_lt_mul (Nat.pow_pos ha)]
  calc b ^ n < (a * 10 ^ 8) ^ n := Nat.pow_lt_pow_left hb (by omega)
    _ = 10 ^ (8 * n) * a ^ n := by rw [Nat.mul_pow, ← Nat.pow_mul, Nat.mul_comm]
    _ ≤ 10 ^ limit * a ^ n := Nat.mul_le_mul_right _ (Nat.pow_le_pow_right (by omega) hlimit)

/-- Settles O54: the bisection's bounds at the 4000th powers. -/
theorem levelsAreNearestFromTheExactLogarithm : Obligations.LevelsAreNearestFromTheExactLogarithm := by
  refine ⟨fun a b ha hab hb => ⟨_, rfl, ?_⟩, fun _ => rfl, fun _ _ => rfl⟩
  exact half_floorLog10_bounds (Nat.pow_pos ha) (Nat.pow_le_pow_left hab _)
    (ratio_below ha hb (by decide) (by decide))

/-! ## Applied settings (R31) -/

/-- The nearer two numbers are, the higher the level of their ratio. -/
theorem levelOf_mono {a a' : Nat} (b : Nat) (ha : 0 < a) (h : a ≤ a') : levelOf a b ≤ levelOf a' b := by
  have hdiv : b ^ 4000 / a' ^ 4000 ≤ b ^ 4000 / a ^ 4000 :=
    Nat.div_le_div_left (Nat.pow_le_pow_left h _) (Nat.pow_pos ha)
  have hlog := floorLog10_mono hdiv 15 0
  unfold levelOf
  generalize floorLog10 (b ^ 4000 / a' ^ 4000) 15 0 = x at hlog
  generalize floorLog10 (b ^ 4000 / a ^ 4000) 15 0 = y at hlog
  omega

theorem probeLevel_mono {c c' : Nat} (r : Code) (hc : 0 < c) (h : c ≤ c') : probeLevel c r ≤ probeLevel c' r :=
  levelOf_mono _ (Nat.mul_pos hc (Nat.pow_pos (by decide))) (Nat.mul_le_mul_right _ h)

/-- The code is within range and its level within the ceiling. -/
def codeFits (r : Code) (ceiling : Int) (c : Nat) : Prop := c ≤ 4095 ∧ probeLevel c r ≤ ceiling

/-- Codes below one that fits fit. -/
theorem codeFits_of_le {r : Code} {ceiling : Int} {c c' : Nat} (hc : 0 < c) (h : c ≤ c') (hf : codeFits r ceiling c') :
    codeFits r ceiling c :=
  ⟨Nat.le_trans h hf.1, Int.le_trans (probeLevel_mono r hc h) hf.2⟩

/-- The bisection finds the largest code that fits. -/
theorem largestCodeFrom_spec {r : Code} {ceiling : Int} {bits acc : Nat} (hacc : 0 < acc) (hlow : codeFits r ceiling acc)
    (hhigh : ¬ codeFits r ceiling (acc + 2 ^ bits)) : acc ≤ largestCodeFrom r ceiling bits acc
      ∧ codeFits r ceiling (largestCodeFrom r ceiling bits acc) ∧ ¬ codeFits r ceiling (largestCodeFrom r ceiling bits acc + 1) := by
  induction bits generalizing acc with
  | zero => exact ⟨Nat.le_refl _, hlow, hhigh⟩
  | succ bits ih =>
    rw [largestCodeFrom]
    split
    · rename_i h
      have hnext : ¬ codeFits r ceiling (acc + 2 ^ bits + 2 ^ bits) := by
        rwa [Nat.add_assoc, ← Nat.two_mul, ← Nat.pow_succ']
      obtain ⟨h1, h2⟩ := ih (Nat.add_pos_left hacc _) h hnext
      exact ⟨Nat.le_trans (Nat.le_add_right _ _) h1, h2⟩
    · rename_i h
      exact ih hacc hlow h

/-- The code is the largest of 64..4095 at or below the ceiling with the reference. -/
def bestCode (r : Code) (ceiling : Int) (c : Nat) : Prop :=
  64 ≤ c ∧ c ≤ 4095 ∧ probeLevel c r ≤ ceiling ∧ ∀ c', c < c' → c' ≤ 4095 → ceiling < probeLevel c' r

theorem largestCode_some {r : Code} {ceiling : Int} {c : Nat} (h : largestCode r ceiling = some c) : bestCode r ceiling c := by
  unfold largestCode at h
  split at h
  · rename_i h64
    cases h
    have hhigh : ¬ codeFits r ceiling (64 + 2 ^ 12) := fun hf => absurd hf.1 (by decide)
    obtain ⟨h1, ⟨h2, h3⟩, h4⟩ := largestCodeFrom_spec (by decide) ⟨by decide, h64⟩ hhigh
    refine ⟨h1, h2, h3, fun c' hc hle => Int.lt_of_not_ge fun hlow => h4 ?_⟩
    exact codeFits_of_le (by omega) (Nat.succ_le_of_lt hc) ⟨hle, hlow⟩
  · cases h

theorem largestCode_none {r : Code} {ceiling : Int} (h : largestCode r ceiling = none) {c : Nat} (hc : 64 ≤ c) :
    ceiling < probeLevel c r := by
  unfold largestCode at h
  split at h
  · cases h
  · rename_i h64
    exact Int.lt_of_lt_of_le (Int.lt_of_not_ge h64) (probeLevel_mono r (by decide) hc)

theorem largestCode_isSome {ceiling : Int} (h : -7612 ≤ ceiling) : ∃ c, largestCode 0 ceiling = some c := by
  have hlow : probeLevel 64 0 = -7612 := (Prod.mk.inj Tests.test_probe_levels).1
  exact ⟨_, if_pos (by rw [hlow]; exact h)⟩

/-- Stepping down from a reference gives the first one that has a code at or below the ceiling, with its largest such code. -/
theorem stepDownLevel_spec {ceiling : Int} (hceiling : -7612 ≤ ceiling) {r : Nat} (hr : r < 4) :
    (stepDownLevel ceiling r).2.val ≤ r ∧ bestCode (stepDownLevel ceiling r).2 ceiling (stepDownLevel ceiling r).1
      ∧ ∀ r' : Code, (stepDownLevel ceiling r).2 < r' → r'.val ≤ r → largestCode r' ceiling = none := by
  induction r with
  | zero =>
    obtain ⟨c, hc⟩ := largestCode_isSome hceiling
    rw [stepDownLevel, hc]
    exact ⟨Nat.le_refl _, largestCode_some hc, fun r' h1 h2 => absurd h1 (by rw [Fin.lt_def]; omega)⟩
  | succ r ih =>
    rw [stepDownLevel]
    have hval : (Fin.ofNat 4 (r + 1)).val = r + 1 := Nat.mod_eq_of_lt hr
    split
    · rename_i c hc
      exact ⟨Nat.le_of_eq hval, largestCode_some hc, fun r' h1 h2 => absurd h1 (by rw [Fin.lt_def, hval]; omega)⟩
    · rename_i hnone
      obtain ⟨h1, h2, h3⟩ := ih (by omega)
      refine ⟨by omega, h2, fun r' hlt hle => ?_⟩
      by_cases hr' : r'.val = r + 1
      · rw [show r' = Fin.ofNat 4 (r + 1) from Fin.ext (hr'.trans hval.symm)]; exact hnone
      · exact h3 r' hlt (by omega)

/-- Settles O55: the requested pair within the ceiling, or what stepping down finds. -/
theorem appliedSettingsObeyTheCeiling : Obligations.AppliedSettingsObeyTheCeiling := by
  intro code reference ceiling _ _ hceiling
  refine ⟨fun hle => if_pos hle, fun hlt => ?_⟩
  obtain ⟨hr, ⟨h64, h4095, hfit, hmax⟩, hnone⟩ := stepDownLevel_spec hceiling reference.isLt
  exact ⟨_, _, if_neg (Int.not_le.2 hlt), h64, h4095, hr, hfit, hmax,
    fun c' r' hlt' hle' h64' _ => largestCode_none (hnone r' hlt' hle') h64'⟩

/-! ## Allocation (R44) -/

/-- An extent list in start order that lies beyond the 8192 cells, which the statement does not exclude. -/
def extentBeyondMemory : List Extent := [{ start := 10000, length := 1, slot := 0 }]

theorem firstFit_extentBeyondMemory : firstFit 9000 extentBeyondMemory 0 = some 0 := by decide

/-- Refutes O56: before an extent that starts beyond the memory's end, first-fit gives a run that does not lie within the memory.
(In a state of the part no extent does: `stepKeepsPlantAndMemories`.) -/
theorem not_allocationIsFirstFit : ¬ Obligations.AllocationIsFirstFit := by
  intro h
  obtain ⟨hfits, -⟩ := h 9000 extentBeyondMemory (by decide) (List.pairwise_singleton _ _)
  exact absurd (hfits 0 firstFit_extentBeyondMemory).1 (by decide)

/-! ## Reduction (R50 to R57) -/

/-- The offset comes before the other in R51's preference among equal magnitudes: the nearer, then the lower. -/
def preferred (o x : Int) : Prop := o.natAbs < x.natAbs ∨ o.natAbs = x.natAbs ∧ o < x

/-- The offset is the peak against the other: a larger magnitude, or an equal one and preferred (R51). -/
def peaksOver (value : Int → Int) (o x : Int) : Prop :=
  (value x).natAbs < (value o).natAbs ∨ (value x).natAbs = (value o).natAbs ∧ preferred o x

/-- Over a list in the order of preference, the peak is found among its offsets. -/
theorem peakAmong_spec (value : Int → Int) {l : List Int} {best : Int} (hl : (best :: l).Pairwise preferred) :
    peakAmong value l best ∈ best :: l
      ∧ ∀ x ∈ best :: l, x ≠ peakAmong value l best → peaksOver value (peakAmong value l best) x := by
  induction l generalizing best with
  | nil => exact ⟨List.mem_cons_self, fun x hx hne => absurd (List.mem_singleton.1 hx) hne⟩
  | cons o l ih =>
    obtain ⟨hbest, hrest⟩ := List.pairwise_cons.1 hl
    obtain ⟨ho, htail⟩ := List.pairwise_cons.1 hrest
    have hkeep : (best :: l).Pairwise preferred :=
      List.pairwise_cons.2 ⟨fun x hx => hbest x (List.mem_cons_of_mem _ hx), htail⟩
    rw [peakAmong]
    split
    · rename_i hlt
      obtain ⟨hmem, hpeak⟩ := ih hrest
      refine ⟨List.mem_cons_of_mem _ hmem, fun x hx hne => ?_⟩
      rcases List.mem_cons.1 hx with rfl | hx
      · by_cases he : o = peakAmong value l o
        · rw [← he]; exact .inl hlt
        · rcases hpeak o List.mem_cons_self he with h | ⟨h, -⟩
          · exact .inl (Nat.lt_trans hlt h)
          · exact .inl (h ▸ hlt)
      · exact hpeak x hx hne
    · rename_i hlt
      obtain ⟨hmem, hpeak⟩ := ih hkeep
      refine ⟨?_, fun x hx hne => ?_⟩
      · rcases List.mem_cons.1 hmem with h | h
        · rw [h]; exact List.mem_cons_self
        · exact List.mem_cons_of_mem _ (List.mem_cons_of_mem _ h)
      · rcases List.mem_cons.1 hx with rfl | hx
        · exact hpeak _ List.mem_cons_self hne
        · rcases List.mem_cons.1 hx with rfl | hx
          · by_cases he : best = peakAmong value l best
            · rw [← he]
              rcases Nat.lt_or_eq_of_le (Nat.le_of_not_lt hlt) with h | h
              · exact .inl h
              · exact .inr ⟨h, hbest _ List.mem_cons_self⟩
            · rcases hpeak best List.mem_cons_self he with h | ⟨h, hp⟩
              · exact .inl (Nat.lt_of_le_of_lt (Nat.le_of_not_lt hlt) h)
              · rcases Nat.lt_or_eq_of_le (Nat.le_of_not_lt hlt) with hv | hv
                · exact .inl (h ▸ hv)
                · refine .inr ⟨hv.trans h, ?_⟩
                  have hbo := hbest _ List.mem_cons_self
                  unfold preferred at hp hbo ⊢
                  omega
          · exact hpeak x (List.mem_cons_of_mem _ hx) hne

/-- The peak offset is one of the five, and the peak over each other. -/
theorem peakOffset_spec (value : Int → Int) : -2 ≤ peakOffset value ∧ peakOffset value ≤ 2
    ∧ ∀ x : Int, -2 ≤ x → x ≤ 2 → x ≠ peakOffset value → peaksOver value (peakOffset value) x := by
  have horder : ((0 : Int) :: [-1, 1, -2, 2]).Pairwise preferred := by
    unfold preferred; decide
  have hfirst : peakOffset value = peakAmong value [-1, 1, -2, 2] 0 := by
    unfold peakOffset peakOrder
    rw [peakAmong, if_neg (Nat.lt_irrefl _)]
  obtain ⟨hmem, hpeak⟩ := peakAmong_spec value horder
  rw [← hfirst] at hmem hpeak
  have hfive : ∀ x : Int, x ∈ (0 : Int) :: [-1, 1, -2, 2] ↔ -2 ≤ x ∧ x ≤ 2 := fun x => by
    simp only [List.mem_cons, List.not_mem_nil, or_false]
    omega
  exact ⟨((hfive _).1 hmem).1, ((hfive _).1 hmem).2, fun x h1 h2 => hpeak x ((hfive x).2 ⟨h1, h2⟩)⟩

/-- Settles O57: the peak of the five cells, and the element's fields below the floor and from it on. -/
theorem reductionFindsThePeak : Obligations.ReductionFindsThePeak := by
  intro c a e s
  obtain ⟨hlow, hhigh, hpeak⟩ := peakOffset_spec (fun o => s.cell (cellAddress a o))
  unfold State.reduceElement
  generalize peakOffset (fun o => s.cell (cellAddress a o)) = o at hlow hhigh hpeak
  have hpeak' : ∀ x : Int, -2 ≤ x → x ≤ 2 → x ≠ o → _ := fun x h1 h2 hne => hpeak x h1 h2 hne
  by_cases hf : amplitude (s.cell (cellAddress a o)) c.periods (sequenceLength c.requested.sequence) < s.ecr.floor
  · dsimp only
    rw [if_pos hf]
    exact ⟨rfl, rfl, hlow, hhigh, hpeak', rfl, fun _ => ⟨rfl, rfl, rfl⟩, fun h => absurd hf (Nat.not_lt.2 h)⟩
  · dsimp only
    rw [if_neg hf]
    refine ⟨rfl, rfl, hlow, hhigh, hpeak', rfl, fun h => absurd h hf, fun _ => ⟨rfl, rfl, ?_⟩⟩
    unfold State.appliedBaseline
    cases s.baseline c.pair e.entry with
    | none => rfl
    | some b =>
      cases s.entry e.entry with
      | none => rfl
      | some x =>
        dsimp only
        split <;> rfl

end Sys2Proof.Machine
end

section
/-! STATUS and the timing requests: what their replies carry (R61, R71, R186, R187). -/

namespace Sys2Proof.Machine

variable {s : State} {src : Source} {h : Header} {a : Asker}

/-! ## STATUS (R186) -/

theorem exec_status (h : Header) (s : State) :
    exec (.status h) s = .next (s.takeFrame h statusKind true 3 (fun a s => .ok (s, s.statusData a))) := rfl

/-- STATUS is answered while the part is STARTING too, at any level (R179). -/
theorem judgeRequest_status {act : Asker → State → Answer} {acting : Level} (ha : h.acting.toNat = acting.val) :
    s.judgeRequest src h statusKind true 3 act = act ⟨src, s.effectiveLevel src acting⟩ s := by
  have hpart : ¬ (s.clk.part = .starting ∧ statusKind ≠ statusKind) := fun hp => hp.2 rfl
  have hlevel : ¬ 3 < s.effectiveLevel src acting := Fin.not_lt.2 (Fin.le_last _)
  unfold State.judgeRequest
  rw [if_neg hpart, inRange_of_eq ha]
  exact if_neg hlevel

/-- The fields of STATUS, each named by its code. -/
theorem State.statusData_eq (s : State) (a : Asker) : s.statusData a
    = [if s.clk.part = .ready then 1 else 0, if s.clk.lastReset.1 = .cold then 1 else 2,
        match s.clk.lastReset.2 with | .powerOn => 1 | .request => 2 | .lineBreak => 3,
        BitVec.ofNat 8 (s.fga.frame / 256), BitVec.ofNat 8 s.fga.frame, BitVec.ofNat 8 (s.level a.source).val,
        BitVec.ofNat 8 (s.span a.source).val, BitVec.ofNat 8 s.cen.demand.length]
      ++ (match s.cen.demand with | [] => [0, 0] | n :: _ => [1, BitVec.ofNat 8 n.val])
      ++ [BitVec.ofNat 8 (allSlots.countP (fun n => (s.campaign n).state == .free)),
          BitVec.ofNat 8 (allOrders.countP (fun n => s.order n == none)),
          match s.bst.op with | .idle => 0 | .erasing _ => 1 | .programming _ => 2 | .loading => 3,
          BitVec.ofNat 8 s.clk.replies.length, BitVec.ofNat 8 s.clk.reports.length] := by
  have hpart : u8 (partStateCode s.clk.part) = [if s.clk.part = .ready then 1 else 0] := by cases s.clk.part <;> rfl
  have hkind : u8 (resetKindCode s.clk.lastReset.1) = [if s.clk.lastReset.1 = .cold then 1 else 2] := by
    cases s.clk.lastReset.1 <;> rfl
  have hcause : u8 (resetCauseCode s.clk.lastReset.2)
      = [match s.clk.lastReset.2 with | .powerOn => 1 | .request => 2 | .lineBreak => 3] := by
    cases s.clk.lastReset.2 <;> rfl
  have hstore : u8 (storeStateCode s.bst.op)
      = [match s.bst.op with | .idle => 0 | .erasing _ => 1 | .programming _ => 2 | .loading => 3] := by
    cases s.bst.op <;> rfl
  have horders : (fun n => (s.order n).isNone) = fun n => s.order n == none := by
    funext n; cases s.order n <;> rfl
  have hhead : optional 1 (fun n : Slot => u8 n.val) s.cen.demand.head?
      = match s.cen.demand with | [] => [0, 0] | n :: _ => [1, BitVec.ofNat 8 n.val] := by
    cases s.cen.demand <;> rfl
  unfold State.statusData
  rw [hpart, hkind, hcause, hstore, hhead, horders, ← List.countP_eq_length_filter, ← List.countP_eq_length_filter]
  simp only [u8, u16, List.append_assoc, List.cons_append, List.nil_append]

/-- Settles O21: the request passes every check of the link, and its data is R186's list. -/
theorem statusListsTheState : Obligations.StatusListsTheState := by
  intro h src s ⟨hsource, hroom, hreset⟩ hacting
  have hj : s.judgeRequest src h statusKind true 3 (fun a s => .ok (s, s.statusData a))
      = .ok (s, s.statusData ⟨src, s.effectiveLevel src ⟨h.acting.toNat, hacting⟩⟩) :=
    judgeRequest_status (acting := ⟨h.acting.toNat, hacting⟩) rfl
  rw [exec_status, takeFrame_judged hsource hroom hreset, answered_ok hj, State.statusData_eq]
  rfl

/-! ## READ_GRANTS (R71) -/

/-- Two accepted replies of a request with the same data are the same. -/
theorem next_accepted_congr {t : State} {kind : Byte} {data data' : List Byte} (hd : data = data') :
    (.next (t.withReply (acceptedReply src h kind data)) : Result) = .next (t.withReply (acceptedReply src h kind data')) := by
  rw [hd]

theorem exec_readGrants (h : Header) (s : State) :
    exec (.readGrants h) s = .next (s.takeFrame h 0x07 true 3 (fun _ s => .ok (s.takeFree, s.grantsData))) := rfl

theorem exec_setTiming (h : Header) (change : Byte) (interval : BitVec 16) (s : State) :
    exec (.setTiming h change interval) s
      = .next (s.takeFrame h 0x4B (isFlag change) 0 (answerSetTiming change interval)) := rfl

theorem State.timeLeft_le (s : State) : s.timeLeft ≤ s.fga.interval := Nat.min_le_right _ _

theorem State.isHeld_iff {c : Chan} : (s.channel c).isHeld = true ↔ ¬ s.channelFree c := by
  unfold Channel.isHeld Channel.isFree State.channelFree
  cases (s.channel c).holder <;> cases (s.channel c).state <;> simp

theorem State.barred_iff {p : Pair} : s.barred p = true ↔ ∃ c, ¬ s.channelFree c ∧ (s.channel c).point = some p := by
  unfold State.barred
  rw [List.any_eq_true]
  refine ⟨fun ⟨c, _, hc⟩ => ⟨c, ?_⟩, fun ⟨c, hc⟩ => ⟨c, mem_allChannels c, ?_⟩⟩
  · obtain ⟨hheld, hpoint⟩ := (Bool.and_eq_true ..).to_iff.1 hc
    exact ⟨State.isHeld_iff.1 hheld, beq_iff_eq.1 hpoint⟩
  · exact (Bool.and_eq_true ..).to_iff.2 ⟨State.isHeld_iff.2 hc.1, beq_iff_eq.2 hc.2⟩

theorem State.sliceChannel_eq_none_iff {n : Slot} :
    s.sliceChannel n = none ↔ ∀ c k lit, (s.channel c).holder ≠ some (.slice n k lit) := by
  unfold State.sliceChannel
  rw [List.find?_eq_none]
  refine ⟨fun hn c k lit hc => ?_, fun hn c _ => ?_⟩
  · have := hn c (mem_allChannels c)
    rw [hc] at this
    exact this (beq_self_eq_true n)
  · split
    · rename_i m k lit hc
      intro hm
      rw [beq_iff_eq.1 hm] at hc
      exact hn c k lit hc
    · exact Bool.false_ne_true

theorem State.candidateTop_isSome_iff {p : Pair} : (s.candidateTop p).isSome = true
    ↔ ∃ n, (s.chain p).getLast? = some n ∧ (s.campaign n).state = .measuring ∧ (s.campaign n).extent.isSome = true
      ∧ ∀ c k lit, (s.channel c).holder ≠ some (.slice n k lit) := by
  have hready : ∀ n, s.ready n = true ↔ (s.campaign n).state = .measuring ∧ (s.campaign n).extent.isSome = true
      ∧ ∀ c k lit, (s.channel c).holder ≠ some (.slice n k lit) := fun n => by
    rw [State.ready, Bool.and_eq_true, Bool.and_eq_true, beq_iff_eq, Option.isNone_iff_eq_none, State.sliceChannel_eq_none_iff,
      and_assoc]
  unfold State.candidateTop State.chainTop
  cases (s.chain p).getLast? with
  | none => simp
  | some n =>
    simp only [Option.some.injEq, exists_eq_left', ← hready]
    cases s.ready n <;> simp

/-- A part of a list that holds every occurrence of what meets a test, and nothing else, is the list filtered. -/
theorem eq_filter_of_sublist_of_count {l m : List OrderNo} {P : OrderNo → Bool} (hs : m.Sublist l) (hm : ∀ k ∈ m, P k = true)
    (hc : ∀ k, P k = true → m.count k = l.count k) : m = l.filter P := by
  have hsub : m.Sublist (l.filter P) := by
    rw [← List.filter_eq_self.2 hm]; exact hs.filter P
  refine hsub.eq_of_length (List.Perm.length_eq (List.perm_iff_count.2 fun k => ?_))
  by_cases hk : P k = true
  · rw [hc k hk, List.count_filter hk]
  · have hkm : k ∉ m := fun h => hk (hm k h)
    have hkl : k ∉ l.filter P := fun h => hk (List.of_mem_filter h)
    rw [List.count_eq_zero.2 hkm, List.count_eq_zero.2 hkl]

/-- The waiting orders are those of the acceptance list that wait for a channel (R71). -/
theorem State.waitingOrders_unique {waiting : List OrderNo} (hs : waiting.Sublist s.isu.acceptance)
    (hw : ∀ k ∈ waiting, ∃ o, s.order k = some o ∧ o.state = .waitingChannel)
    (hc : ∀ k, (∃ o, s.order k = some o ∧ o.state = .waitingChannel) → waiting.count k = s.isu.acceptance.count k) :
    waiting = s.waitingOrders := by
  refine eq_filter_of_sublist_of_count hs (fun k hk => ?_) (fun k hk => hc k ?_)
  · obtain ⟨o, ho, hst⟩ := hw k hk
    rw [ho]; exact beq_iff_eq.2 hst
  · cases ho : s.order k with
    | none => rw [ho] at hk; cases hk
    | some o => rw [ho] at hk; exact ⟨o, rfl, beq_iff_eq.1 hk⟩

/-- Settles O20: READ_GRANTS' data by its parts, and SET_TIMING's for either value of its flag. -/
theorem timingRequestsTakeEffect : Obligations.TimingRequestsTakeEffect := by
  refine ⟨fun h src effective barred candidate waiting s ht hb hcand hs hw hc => ⟨s.timeLeft, s.timeLeft_le, ?_⟩,
    fun h change interval src effective s ht => ⟨fun hflag => ⟨s.timeLeft, s.timeLeft_le, ?_⟩,
      fun hflag => ⟨s.timeLeft, _, s.timeLeft_le, rfl, ?_⟩⟩⟩
  · have hbarred : barred = s.barred := funext fun p => Bool.eq_iff_iff.2 ((hb p).trans State.barred_iff.symm)
    have hcandidate : candidate = fun p => (s.candidateTop p).isSome :=
      funext fun p => Bool.eq_iff_iff.2 ((hcand p).trans State.candidateTop_isSome_iff.symm)
    have hwaiting : waiting.map (fun k : OrderNo => (BitVec.ofNat 8 k.val : Byte)) = waiting.flatMap (fun k => u8 k.val) :=
      List.map_eq_flatMap
    rw [exec_readGrants, takeFrame_accepts ht rfl rfl, hbarred, hcandidate, hwaiting, State.waitingOrders_unique hs hw hc]
    refine next_accepted_congr (t := s.takeFree) ?_
    unfold State.grantsData counted fixedRun
    rw [← List.append_assoc]
    refine congrArg (· ++ s.waitingOrders.flatMap (fun k => u8 k.val)) (congrArg (· ++ u8 s.waitingOrders.length) (congrArg
      (· ++ allPairs.flatMap (fun p => flagByte (s.barred p) ++ flagByte (s.candidateTop p).isSome)) ?_))
    refine congrArg₂ (· ++ ·) (congrArg (· ++ u16 s.timeLeft) (congrArg (u16 s.fga.frame ++ u16 s.fga.interval ++ ·) ?_))
      (congrArg (s.fga.service.flatMap ·) (funext fun p => ?_))
    · cases s.fga.pendingInterval <;> rfl
    · unfold State.serviceData
      cases s.fga.previous[p] <;> rfl
  · subst hflag
    rw [exec_setTiming, takeFrame_accepts ht (show isFlag 0 = true from rfl) rfl]
    rfl
  · subst hflag
    rw [exec_setTiming, ← clampNat_eq (by decide : 250 ≤ 60000), takeFrame_accepts ht (show isFlag 1 = true from rfl) rfl]
    rfl

end Sys2Proof.Machine
end

section
/-! The queries: what each one's reply carries (R18 to R20, R38, R58, R99, R100, R157, R173). -/

namespace Sys2Proof.Machine

variable {s : State} {src : Source} {h : Header} {a : Asker}

/-! ## Runs of table indices -/

theorem filter_range'_split (first count rest : Nat) :
    (List.range (first + count + rest)).filter (fun n => decide (first ≤ n) && decide (n < first + count))
      = List.range' first count := by
  have hsplit : List.range (first + count + rest) = List.range' 0 first ++ (List.range' first count
      ++ List.range' (first + count) rest) := by
    rw [List.range_eq_range', List.range'_append_1, Nat.add_assoc, ← List.range'_append_1, Nat.zero_add]
  have hin : ∀ n ∈ List.range' first count, (decide (first ≤ n) && decide (n < first + count)) = true := fun n hn => by
    rw [List.mem_range'_1] at hn; simpa using hn
  have hbefore : (List.range' 0 first).filter (fun n => decide (first ≤ n) && decide (n < first + count)) = [] :=
    List.filter_eq_nil_iff.2 fun n hn => by rw [List.mem_range'_1] at hn; simp; omega
  have hafter : (List.range' (first + count) rest).filter (fun n => decide (first ≤ n) && decide (n < first + count)) = [] :=
    List.filter_eq_nil_iff.2 fun n hn => by rw [List.mem_range'_1] at hn; simp; omega
  rw [hsplit, List.filter_append, List.filter_append, hbefore, hafter, List.filter_eq_self.2 hin, List.nil_append, List.append_nil]

/-- The indices of a run are the numbers of the run within the table. -/
theorem indexRun_map_val {first last count : Nat} (hc : first + count ≤ 272) (hl : ∀ n, n < 272 → first ≤ n →
    (n ≤ last ↔ n < first + count)) : (indexRun first last).map Fin.val = List.range' first count := by
  have hnumbers : allIndices.map Fin.val = List.range (first + count + (272 - (first + count))) := by
    rw [Nat.add_sub_cancel' hc]; exact List.map_coe_finRange_eq_range
  have htest : indexRun first last = allIndices.filter
      ((fun n => decide (first ≤ n) && decide (n < first + count)) ∘ Fin.val) := by
    refine List.filter_congr fun i _ => ?_
    by_cases hf : first ≤ i.val
    · simp [hf, hl i.val i.isLt hf]
    · simp [hf]
  rw [htest, ← List.filter_map, hnumbers, filter_range'_split]

/-- A list of indices is known by its numbers. -/
theorem eq_indexRun {first last count : Nat} {indices : List Index} (hi : indices.map Fin.val = List.range' first count)
    (hc : first + count ≤ 272) (hl : ∀ n, n < 272 → first ≤ n → (n ≤ last ↔ n < first + count)) :
    indices = indexRun first last :=
  List.map_injective_iff.2 Fin.val_injective (hi.trans (indexRun_map_val hc hl).symm)

/-! ## READ_ENTRY and READ_SPAN (R18, R19) -/

theorem exec_readEntry (h : Header) (ref : Reference) (s : State) :
    exec (.readEntry h ref) s = .next (s.takeFrame h 0x02 (wellMadeRef ref) 3 (answerReadEntry ref)) := rfl

theorem exec_readSpan (h : Header) (span pair : Byte) (s : State) :
    exec (.readSpan h span pair) s = .next (s.takeFrame h 0x03 true 3 (answerReadSpan span pair)) := rfl

theorem answerReadEntry_unresolved {ref : Reference} (hr : s.resolve a.source ref = none) :
    answerReadEntry ref a s = .error .range := by rw [answerReadEntry, hr]

theorem answerReadEntry_resolved {ref : Reference} {i : Index} (hr : s.resolve a.source ref = some i) : answerReadEntry ref a s
    = .ok (s, u16 i.val ++ entryData (s.entry i) ++ fixedRun (fun p => recordData (s.record i p)) allPairs) := by
  rw [answerReadEntry, hr]

/-- READ_ENTRY's data, with an entry's fields by its kind. -/
theorem entryData_eq (e : Option Entry) : entryData e = match e with
    | none => [0, 0, 0, 0, 0, 0, 0, 0, 0, 0]
    | some e => [1] ++ (match e.kind with
        | .line n => [1, 1, 1, e.address, 1, BitVec.ofNat 8 n.val, 0, 0]
        | .branching leg => [1, 2, 1, e.address, 0, 0, 1, if leg = .a then 0 else 1]
        | .equalizer => [1, 3, 1, e.address, 0, 0, 0, 0]) ++ flagByte e.mark := by
  cases e with
  | none => rfl
  | some e =>
    obtain ⟨k, address, mark⟩ := e
    cases k with
    | line n => rfl
    | branching leg => cases leg <;> rfl
    | equalizer => rfl

theorem answerReadSpan_outOfRange {span pair : Byte} (hr : 16 ≤ span.toNat ∨ 16 ≤ pair.toNat) :
    answerReadSpan span pair a s = .error .range := by
  unfold answerReadSpan
  rcases hr with hr | hr
  · rw [inRange_none hr]
  · rw [inRange_none hr]
    cases inRange 16 span.toNat <;> rfl

theorem answerReadSpan_inRange {span pair : Byte} {p : Pair} (hp : pair.toNat = p.val) (hs : span.toNat < 16) :
    answerReadSpan span pair a s
      = .ok (s, fixedRun (s.spanSummary p) (indexRun (16 + 16 * span.toNat) (16 + 16 * span.toNat + 15))) := by
  rw [answerReadSpan, inRange_of_lt hs, inRange_of_eq hp]

/-- A span summary, with an entry's fields by its kind. -/
theorem State.spanSummary_eq (s : State) (p : Pair) (i : Index) : s.spanSummary p i
    = (match s.entry i with
        | none => [0, 0, 0, 0, 0, 0]
        | some e => [1, 1, e.address] ++ (match e.kind with
            | .line n => [1, BitVec.ofNat 8 n.val]
            | .branching _ | .equalizer => [0, 0]) ++ flagByte e.mark)
      ++ u8 (conditionCode (s.record i p).condition) ++ u8 (isolationCode (s.record i p).isolation)
      ++ optional 1 (fun c => u8 (classCode c)) (s.record i p).lastClass ++ optional 2 i16 (s.record i p).gain
      ++ optional 2 i16 (s.record i p).deviation ++ optional 2 u16 (s.record i p).frame := by
  unfold State.spanSummary
  cases s.entry i with
  | none => rfl
  | some e =>
    obtain ⟨k, address, mark⟩ := e
    cases k <;> rfl

/-! ## READ_PATH (R20) -/

theorem exec_readPath (h : Header) (pair view first count : Byte) (s : State) :
    exec (.readPath h pair view first count) s
      = .next (s.takeFrame h 0x04 (isFlag view) 3 (answerReadPath pair view first count)) := rfl

theorem answerReadPath_outOfRange {pair view first count : Byte} (hr : 16 ≤ pair.toNat) :
    answerReadPath pair view first count a s = .error .range := by rw [answerReadPath, inRange_none hr]

theorem State.branchOf_none {l : List PathElement} (hl : ∀ x ∈ l, ¬ s.branches x.entry) : s.branchOf l = none := by
  induction l with
  | nil => rfl
  | cons x l ih =>
    have hx := hl x List.mem_cons_self
    rw [State.branchOf]
    split
    · rename_i route hk
      exact absurd (State.isBranching_iff.1 (by unfold State.isBranching; rw [hk])) hx
    · exact ih fun y hy => hl y (List.mem_cons_of_mem _ hy)

/-- The branching element of a path is the first one (R17). -/
theorem State.branchOf_some {before later : List PathElement} {x : PathElement} {e : Entry} {leg : Leg}
    (hb : ∀ y ∈ before, ¬ s.branches y.entry) (he : s.entry x.entry = some e) (hk : e.kind = .branching leg) :
    s.branchOf (before ++ x :: later) = some (x, leg) := by
  induction before with
  | nil =>
    have hkind : s.kindOf x.entry = some (.branching leg) := by unfold State.kindOf; rw [he, ← hk]; rfl
    rw [List.nil_append, State.branchOf, hkind]
  | cons y before ih =>
    have hy := hb y List.mem_cons_self
    rw [List.cons_append, State.branchOf]
    split
    · rename_i route hr
      exact absurd (State.isBranching_iff.1 (by unfold State.isBranching; rw [hr])) hy
    · exact ih fun z hz => hb z (List.mem_cons_of_mem _ hz)

theorem answerReadPath_inRange {pair view first count : Byte} {p : Pair} (hp : pair.toNat = p.val) :
    answerReadPath pair view first count a s = .ok (s, u8 (if view = 0 then s.path p else s.effectivePath p).length
      ++ optional 3 (fun x : PathElement × Leg => u16 x.1.entry.val ++ u8 (routeCode x.2)) (s.branchOf (s.path p))
      ++ counted pathElementData
          (window (if view = 0 then s.path p else s.effectivePath p) first.toNat (clampNat 1 64 count.toNat))) := by
  rw [answerReadPath, inRange_of_eq hp]

/-- A list shown from a first place on, as a request's byte gives it. -/
theorem window_eq {α : Type} (l : List α) (first : Byte) (count : Nat) :
    window l first.toNat count = if first = 0 then [] else (l.drop (first.toNat - 1)).take count :=
  if_congr (BitVec.toNat_inj (y := 0)) rfl rfl

theorem pathElementData_eq : pathElementData = fun x : PathElement => u16 x.entry.val ++ u24 x.delay
    ++ ([match x.tag with | none => 0 | some .a => 1 | some .b => 2] : List Byte) := by
  funext ⟨entry, delay, tag⟩
  unfold pathElementData
  cases tag with
  | none => rfl
  | some leg => cases leg <;> rfl

/-! ## READ_CHANNELS (R38) -/

theorem exec_readChannels (h : Header) (s : State) :
    exec (.readChannels h) s = .next (s.takeFrame h 0x05 true 3 (fun _ s => .ok (s, s.channelsData))) := rfl

theorem holderData_eq (x : Option Holder) : holderData x = match x with
    | none => [0, 0, 0]
    | some (.slice n _ _) => [1, 1, BitVec.ofNat 8 n.val]
    | some (.order k) => [1, 2, BitVec.ofNat 8 k.val] := by
  cases x with
  | none => rfl
  | some x => cases x <;> rfl

/-! ## READ_EXTENTS (R58) -/

theorem exec_readExtents (h : Header) (s : State) :
    exec (.readExtents h) s = .next (s.takeFrame h 0x06 true 3 (fun _ s => .ok (s, s.extentsData))) := rfl

/-- A run of cells within the memory that meets no extent. -/
def isFreeRun (l : List Extent) (start length : Nat) : Prop :=
  0 < length ∧ start + length ≤ 8192 ∧ ∀ e ∈ l, start + length ≤ e.start ∨ e.start + e.length ≤ start

/-- An extent list in start order without overlaps, each extent of some length and within the memory. -/
def extentsOrdered (l : List Extent) : Prop :=
  l.Pairwise (fun e f => e.start + e.length ≤ f.start) ∧ ∀ e ∈ l, 0 < e.length ∧ e.start + e.length ≤ 8192

theorem extentsOrdered_cons {e : Extent} {l : List Extent} (h : extentsOrdered (e :: l)) :
    (∀ f ∈ l, e.start + e.length ≤ f.start) ∧ 0 < e.length ∧ e.start + e.length ≤ 8192 ∧ extentsOrdered l := by
  obtain ⟨hp, hb⟩ := h
  obtain ⟨he, hp⟩ := List.pairwise_cons.1 hp
  obtain ⟨hpos, hfit⟩ := hb e List.mem_cons_self
  exact ⟨he, hpos, hfit, hp, fun f hf => hb f (List.mem_cons_of_mem _ hf)⟩

/-- The runs listed are free, and begin where the listing does or later. -/
theorem isFreeRun_of_mem_freeRuns {l : List Extent} {at0 : Nat} (ho : extentsOrdered l) {r : Nat × Nat}
    (hr : r ∈ freeRuns l at0) : at0 ≤ r.1 ∧ isFreeRun l r.1 r.2 := by
  induction l generalizing at0 with
  | nil =>
    unfold freeRuns at hr
    split at hr
    · obtain rfl := List.mem_singleton.1 hr
      exact ⟨Nat.le_refl _, by dsimp only; omega, by dsimp only; omega, fun e he => nomatch he⟩
    · cases hr
  | cons e l ih =>
    obtain ⟨hlater, hpos, hfit, hrest⟩ := extentsOrdered_cons ho
    unfold freeRuns at hr
    rcases List.mem_append.1 hr with hr | hr
    · split at hr
      · obtain rfl := List.mem_singleton.1 hr
        refine ⟨Nat.le_refl _, by dsimp only; omega, by dsimp only; omega, fun f hf => .inl ?_⟩
        dsimp only
        rcases List.mem_cons.1 hf with rfl | hf
        · omega
        · have := hlater f hf; omega
      · cases hr
    · obtain ⟨hat, hlen, hin, hfree⟩ := ih hrest hr
      refine ⟨by omega, hlen, hin, fun f hf => ?_⟩
      rcases List.mem_cons.1 hf with rfl | hf
      · right; omega
      · exact hfree f hf

/-- Every free run from the listing's place on lies in a listed one. -/
theorem exists_mem_freeRuns {l : List Extent} {at0 b m : Nat} (ho : extentsOrdered l) (hb : at0 ≤ b) (hf : isFreeRun l b m) :
    ∃ r ∈ freeRuns l at0, r.1 ≤ b ∧ b + m ≤ r.1 + r.2 := by
  obtain ⟨hm, hin, hfree⟩ := hf
  induction l generalizing at0 with
  | nil =>
    unfold freeRuns
    rw [if_pos (by omega)]
    exact ⟨_, List.mem_singleton.2 rfl, hb, by dsimp only; omega⟩
  | cons e l ih =>
    obtain ⟨hlater, hpos, hfit, hrest⟩ := extentsOrdered_cons ho
    unfold freeRuns
    rcases hfree e List.mem_cons_self with hbefore | hafter
    · rw [if_pos (by omega)]
      exact ⟨_, List.mem_append_left _ (List.mem_singleton.2 rfl), hb, by dsimp only; omega⟩
    · obtain ⟨r, hr, h1, h2⟩ := ih hrest (at0 := max at0 (e.start + e.length)) (by omega)
        fun f hf => hfree f (List.mem_cons_of_mem _ hf)
      exact ⟨r, List.mem_append_right _ hr, h1, h2⟩

/-- The runs are listed in start order. -/
theorem freeRuns_pairwise {l : List Extent} {at0 : Nat} (ho : extentsOrdered l) : (freeRuns l at0).Pairwise (fun r q => r.1 < q.1) := by
  induction l generalizing at0 with
  | nil =>
    unfold freeRuns
    split
    · exact List.pairwise_singleton _ _
    · exact List.Pairwise.nil
  | cons e l ih =>
    obtain ⟨hlater, hpos, hfit, hrest⟩ := extentsOrdered_cons ho
    unfold freeRuns
    split
    · refine List.pairwise_cons.2 ⟨fun r hr => ?_, ih hrest⟩
      have := (isFreeRun_of_mem_freeRuns hrest hr).1
      dsimp only
      omega
    · exact ih hrest

theorem longestRun_eq_none {l : List (Nat × Nat)} (h : longestRun l = none) : l = [] := by
  cases l with
  | nil => rfl
  | cons r l =>
    unfold longestRun at h
    split at h
    · cases h
    · split at h <;> cases h

/-- The longest run of a list in start order, the lowest among equals (log 12). -/
theorem longestRun_spec {l : List (Nat × Nat)} {q : Nat × Nat} (hl : l.Pairwise (fun r q => r.1 < q.1)) (h : longestRun l = some q) :
    q ∈ l ∧ ∀ r ∈ l, r.2 < q.2 ∨ r.2 = q.2 ∧ q.1 ≤ r.1 := by
  induction l generalizing q with
  | nil => cases h
  | cons r l ih =>
    obtain ⟨hr, hl⟩ := List.pairwise_cons.1 hl
    unfold longestRun at h
    split at h
    · rename_i hnone
      cases h
      rw [longestRun_eq_none hnone]
      exact ⟨List.mem_cons_self, fun x hx => .inr (by rw [List.mem_singleton.1 hx]; exact ⟨rfl, Nat.le_refl _⟩)⟩
    · rename_i q' hq'
      obtain ⟨hmem, hmax⟩ := ih hl hq'
      split at h
      · rename_i hlt
        cases h
        refine ⟨List.mem_cons_of_mem _ hmem, fun x hx => ?_⟩
        rcases List.mem_cons.1 hx with rfl | hx
        · exact .inl hlt
        · exact hmax x hx
      · rename_i hge
        cases h
        refine ⟨List.mem_cons_self, fun x hx => ?_⟩
        rcases List.mem_cons.1 hx with rfl | hx
        · exact .inr ⟨rfl, Nat.le_refl _⟩
        · have h1 := hmax x hx
          have h2 := hr x hx
          omega

/-- The run READ_EXTENTS shows is the longest free one, the lowest among equals, or none where every cell is in an extent. -/
theorem longestRun_freeRuns_unique {l : List Extent} {longest : Option (Nat × Nat)} (ho : extentsOrdered l)
    (h : longest = none ∧ (∀ a, a < 8192 → ∃ e ∈ l, e.start ≤ a ∧ a < e.start + e.length)
      ∨ ∃ start length, longest = some (start, length) ∧ 0 < length ∧ start + length ≤ 8192
        ∧ (∀ e ∈ l, start + length ≤ e.start ∨ e.start + e.length ≤ start)
        ∧ ∀ b m, 0 < m → b + m ≤ 8192 → (∀ e ∈ l, b + m ≤ e.start ∨ e.start + e.length ≤ b) →
          m < length ∨ m = length ∧ start ≤ b) : longestRun (freeRuns l 0) = longest := by
  cases hlong : longestRun (freeRuns l 0) with
  | none =>
    rcases h with ⟨rfl, -⟩ | ⟨start, length, rfl, hpos, hin, hfree, -⟩
    · rfl
    · obtain ⟨r, hr, -⟩ := exists_mem_freeRuns (at0 := 0) ho (Nat.zero_le _) ⟨hpos, hin, hfree⟩
      rw [longestRun_eq_none hlong] at hr
      cases hr
  | some q =>
    obtain ⟨hmem, hmax⟩ := longestRun_spec (freeRuns_pairwise ho) hlong
    obtain ⟨-, hqpos, hqin, hqfree⟩ := isFreeRun_of_mem_freeRuns ho hmem
    rcases h with ⟨-, hall⟩ | ⟨start, length, rfl, hpos, hin, hfree, hbest⟩
    · obtain ⟨e, he, h1, h2⟩ := hall q.1 (by omega)
      rcases hqfree e he with h | h
      · omega
      · omega
    · obtain ⟨r, hr, h1, h2⟩ := exists_mem_freeRuns (at0 := 0) ho (Nat.zero_le _) ⟨hpos, hin, hfree⟩
      have hrq := hmax r hr
      have hq := hbest q.1 q.2 hqpos hqin hqfree
      refine congrArg some (Prod.ext ?_ ?_)
      · dsimp only; omega
      · dsimp only; omega

/-! ## READ_CAMPAIGN and READ_RESULTS (R99, R100) -/

theorem exec_readCampaign (h : Header) (slot : Byte) (s : State) :
    exec (.readCampaign h slot) s = .next (s.takeFrame h 0x08 true 3 (answerReadCampaign slot)) := rfl

theorem exec_readResults (h : Header) (slot first count : Byte) (s : State) :
    exec (.readResults h slot first count) s = .next (s.takeFrame h 0x09 true 3 (answerReadResults slot first count)) := rfl

theorem placeIn_none {n : Slot} {l : List Slot} (hn : n ∉ l) (k : Nat) : placeIn n l k = none := by
  induction l generalizing k with
  | nil => rfl
  | cons m l ih =>
    obtain ⟨hm, hn⟩ := List.ne_and_not_mem_of_not_mem_cons hn
    rw [placeIn, if_neg (Ne.symm hm), ih hn]

theorem placeIn_some {n : Slot} {before : List Slot} (hn : n ∉ before) (later : List Slot) (k : Nat) :
    placeIn n (before ++ n :: later) k = some (before.length + k) := by
  induction before generalizing k with
  | nil => rw [List.nil_append, placeIn, if_pos rfl, List.length_nil, Nat.zero_add]
  | cons m before ih =>
    obtain ⟨hm, hn⟩ := List.ne_and_not_mem_of_not_mem_cons hn
    rw [List.cons_append, placeIn, if_neg (Ne.symm hm), ih hn, List.length_cons]
    exact congrArg some (by omega)

theorem answerReadCampaign_inRange {slot : Byte} {n : Slot} (hn : slot.toNat = n.val) : answerReadCampaign slot a s
    = .ok (s, campaignData n (s.campaign n) ++ optional 1 u8 (placeIn n s.cen.demand 1)
      ++ counted (fun m : Slot => u8 m.val) (s.chainWith n)) := by
  rw [answerReadCampaign, inRange_of_eq hn]

theorem answerReadResults_inRange {slot first count : Byte} {n : Slot} (hn : slot.toNat = n.val) :
    answerReadResults slot first count a s = .ok (s, u8 n.val ++ u8 (shownTotal (s.campaign n).results first.toNat)
      ++ u8 (((s.campaign n).summary.map summaryCode).getD 0) ++ [first]
      ++ counted resultBytes (window (s.campaign n).results first.toNat (clampNat 1 32 count.toNat))) := by
  rw [answerReadResults, inRange_of_eq hn]

theorem campaignKind_byte (k : Option CampaignKind) : u8 ((k.map campaignKindCode).getD 0)
    = ([match k with | none | some .survey => 0 | some .locate => 1 | some .confirm => 2] : List Byte) := by
  cases k with
  | none => rfl
  | some k => cases k <;> rfl

theorem resultBytes_eq : resultBytes = fun r : ResultElement =>
    u16 ((r.offset + 2).toNat * 8192 + (if r.offset = 2 ∨ r.offset = -2 then 4096 else 0) + r.entry.val)
      ++ u8 r.position
      ++ u8 (r.refiningDepth.getD 0 * 16 + (if r.gain.isSome then 8 else 0) + (if r.deviation.isSome then 4 else 0))
      ++ u24 r.amplitude ++ i16 r.echo ++ i16 (r.gain.getD 0) ++ i16 (r.deviation.getD 0)
      ++ u8 ((r.verdict.map classCode).getD 0 * 16 + (r.refined.map classCode).getD 0)
      ++ u8 ((r.reason.map reasonCode).getD 0) := by
  funext r
  have hshift : (if shifted r then 4096 else 0) = if r.offset = 2 ∨ r.offset = -2 then 4096 else 0 :=
    if_congr (by simp [shifted]) rfl rfl
  unfold resultBytes
  rw [hshift]

/-! ## READ_GATES and READ_ORDERS (R157) -/

theorem exec_readGates (h : Header) (s : State) :
    exec (.readGates h) s = .next (s.takeFrame h 0x0A true 3 (fun _ s => .ok (s, s.gatesData))) := rfl

theorem exec_readOrders (h : Header) (s : State) :
    exec (.readOrders h) s = .next (s.takeFrame h 0x0B true 3 (fun _ s => .ok (s, s.ordersData))) := rfl

/-! ## READ_BASELINE (R173) -/

theorem exec_readBaseline (h : Header) (pair : Byte) (first : BitVec 16) (count view : Byte) (s : State) :
    exec (.readBaseline h pair first count view) s
      = .next (s.takeFrame h 0x0C (isFlag view) 3 (answerReadBaseline pair first count view)) := rfl

theorem answerReadBaseline_outOfRange {pair count view : Byte} {first : BitVec 16} (hr : 16 ≤ pair.toNat ∨ 272 ≤ first.toNat) :
    answerReadBaseline pair first count view a s = .error .range := by
  unfold answerReadBaseline
  rcases hr with hr | hr
  · rw [inRange_none hr]
  · rw [inRange_none hr]
    cases inRange 16 pair.toNat <;> rfl

theorem answerReadBaseline_inRange {pair count view : Byte} {first : BitVec 16} {p : Pair} (hp : pair.toNat = p.val)
    (hf : first.toNat < 272) : answerReadBaseline pair first count view a s
      = .ok (s, runningData s.bst.op ++ lastOpData s.bst.lastOp
        ++ counted (s.baselineData p view) (indexRun first.toNat (first.toNat + clampNat 1 32 count.toNat - 1))) := by
  rw [answerReadBaseline, inRange_of_eq hp, inRange_of_lt hf]

theorem State.slotErasing_iff {slot : Nat} : s.slotErasing slot = true ↔ ∃ b, s.bst.op = .erasing b ∧ slot / 256 = b.val := by
  unfold State.slotErasing
  cases s.bst.op with
  | idle => simp
  | loading => simp
  | programming j => simp
  | erasing b => simp

theorem State.imageData_eq (s : State) (p : Pair) (i : Index) : s.imageData p i
    = (match s.baseline p i with
        | none => [0, 0, 0, 0, 0, 0]
        | some b => [if b.stored then 1 else 2, 1] ++ i16 b.gain ++ [1, b.address])
      ++ (match s.entry i with | none => [0, 0] | some e => [1, e.address])
      ++ (match s.baseline p i, s.entry i with
        | some b, some e => flagByte (b.address == e.address)
        | _, _ => [0]) := by
  unfold State.imageData State.appliedBaseline
  cases s.baseline p i with
  | none => cases s.entry i <;> rfl
  | some b =>
    have hstatus : u8 (imageStatusCode (some b)) = [if b.stored then 1 else 2] := by
      unfold imageStatusCode u8; cases hst : b.stored <;> simp [hst]
    rw [hstatus]
    cases s.entry i with
    | none => rfl
    | some e =>
      by_cases hb : b.address = e.address
      · simp [hb, optional]
      · have hne : (b.address == e.address) = false := beq_eq_false_iff_ne.2 hb
        simp [hb, hne, optional]

theorem State.slotData_erasing {slot : Nat} (he : ∃ b, s.bst.op = .erasing b ∧ slot / 256 = b.val) :
    s.slotData slot = [3, 0, 0, 0, 0, 0, 0, 0] := by
  have hcode : s.slotCode slot = 3 := if_pos (State.slotErasing_iff.2 he)
  unfold State.slotData
  rw [hcode]
  rfl

theorem State.slotData_kept {slot : Nat} (he : ¬ ∃ b, s.bst.op = .erasing b ∧ slot / 256 = b.val) :
    s.slotData slot = match slotState s.bst.store slot with
      | .blank => [0, 0, 0, 0, 0, 0, 0, 0]
      | .holding => [1, 1] ++ ((slotBytes s.bst.store slot).drop 1).take 6
      | .torn => [2, 0, 0, 0, 0, 0, 0, 0] := by
  unfold State.slotData State.slotCode
  rw [if_neg (mt State.slotErasing_iff.1 he)]
  cases slotState s.bst.store slot <;> rfl

/-! ## The replies -/

section
variable {effective : Level}

theorem readPath_reply {pair view first count : Byte} {p : Pair} {l : List PathElement} {branch : Option (Index × Leg)}
    (ht : s.takes h src effective 3) (hview : isFlag view = true) (hp : pair.toNat = p.val)
    (hl : l = if view = 0 then s.path p else s.effectivePath p)
    (hb : branch = none ∧ (∀ x ∈ s.path p, ¬ s.branches x.entry)
      ∨ ∃ before x later e leg, s.path p = before ++ x :: later ∧ (∀ y ∈ before, ¬ s.branches y.entry)
        ∧ s.entry x.entry = some e ∧ e.kind = .branching leg ∧ branch = some (x.entry, leg)) :
    exec (.readPath h pair view first count) s = .next (s.withReply (acceptedReply src h 0x04
      (u8 l.length ++ optional 3 (fun b : Index × Leg => u16 b.1.val ++ [if b.2 = .a then 0 else 1]) branch
        ++ counted (fun x : PathElement => u16 x.entry.val ++ u24 x.delay
            ++ ([match x.tag with | none => 0 | some .a => 1 | some .b => 2] : List Byte))
          (if first = 0 then [] else (l.drop (first.toNat - 1)).take (max 1 (min 64 count.toNat)))))) := by
  have hbranch : optional 3 (fun x : PathElement × Leg => u16 x.1.entry.val ++ u8 (routeCode x.2)) (s.branchOf (s.path p))
      = optional 3 (fun b : Index × Leg => u16 b.1.val ++ [if b.2 = .a then 0 else 1]) branch := by
    rcases hb with ⟨rfl, hnone⟩ | ⟨before, x, later, e, leg, hpath, hbefore, he, hk, rfl⟩
    · rw [State.branchOf_none hnone]; rfl
    · rw [hpath, State.branchOf_some hbefore he hk]
      cases leg <;> rfl
  rw [exec_readPath, takeFrame_accepts ht hview (answerReadPath_inRange hp), ← hl, hbranch, window_eq,
    clampNat_eq (by decide : 1 ≤ 64), pathElementData_eq]

theorem readChannels_reply (ht : s.takes h src effective 3) :
    exec (.readChannels h) s = .next (s.withReply (acceptedReply src h 0x05 s.channelsData)) := by
  rw [exec_readChannels, takeFrame_accepts ht rfl rfl]

theorem readExtents_reply {longest : Option (Nat × Nat)} (ht : s.takes h src effective 3)
    (hl : longestRun (freeRuns s.ecr.extents 0) = longest) :
    exec (.readExtents h) s = .next (s.withReply (acceptedReply src h 0x06
      (counted s.extentData s.ecr.extents ++ u16 (freeCells s.ecr.extents)
        ++ optional 4 (fun r : Nat × Nat => u16 r.2 ++ u16 r.1) longest ++ u16 s.ecr.floor))) := by
  rw [exec_readExtents, takeFrame_accepts ht rfl rfl, ← hl]
  rfl

theorem readCampaign_reply {slot : Byte} {n : Slot} {place : Option Nat} (ht : s.takes h src effective 3)
    (hn : slot.toNat = n.val) (hplace : place = none ∧ n ∉ s.cen.demand
      ∨ ∃ before later, s.cen.demand = before ++ n :: later ∧ n ∉ before ∧ place = some (before.length + 1)) :
    exec (.readCampaign h slot) s = .next (s.withReply (acceptedReply src h 0x08
      (campaignData n (s.campaign n) ++ optional 1 u8 place ++ counted (fun m : Slot => u8 m.val) (s.chainWith n)))) := by
  have hp : placeIn n s.cen.demand 1 = place := by
    rcases hplace with ⟨rfl, hno⟩ | ⟨before, later, hd, hb, rfl⟩
    · exact placeIn_none hno 1
    · rw [hd]; exact placeIn_some hb later 1
  rw [exec_readCampaign, takeFrame_accepts ht rfl (answerReadCampaign_inRange hn), hp]

theorem readBaseline_reply {pair count view : Byte} {first : BitVec 16} {p : Pair} {indices : List Index}
    (ht : s.takes h src effective 3) (hview : isFlag view = true) (hp : pair.toNat = p.val) (hf : first.toNat < 272)
    (hi : indices.map Fin.val = List.range' first.toNat (min (max 1 (min 32 count.toNat)) (272 - first.toNat))) :
    exec (.readBaseline h pair first count view) s = .next (s.withReply (acceptedReply src h 0x0C
      (runningData s.bst.op ++ lastOpData s.bst.lastOp ++ counted (s.baselineData p view) indices))) := by
  have hrun : indices = indexRun first.toNat (first.toNat + clampNat 1 32 count.toNat - 1) := by
    rw [clampNat_eq (by decide : 1 ≤ 32)]
    exact eq_indexRun hi (by omega) fun n hn hle => by omega
  rw [exec_readBaseline, takeFrame_accepts ht hview (answerReadBaseline_inRange hp hf), hrun]

end

/-- Settles O19: each query's answer, its data rewritten into the fields its rule lists. -/
theorem queriesChangeNothing : Obligations.QueriesChangeNothing := by
  intro h src effective s ht
  refine ⟨fun ref href => ⟨fun hr => ?_, fun i hr => ?_⟩, fun span pair => ⟨fun hr => ?_, fun p indices hp hs hi => ?_⟩,
    fun pair view first count hview => ⟨fun hr => ?_, fun p l branch hp hl hb => ?_⟩, ?_, fun longest hord hfit hlong => ?_,
    fun slot first count => ⟨fun hr => ⟨?_, ?_⟩, fun n c place hn hc hplace => ⟨?_, ?_⟩⟩, ?_, ?_,
    fun pair first count view hview => ⟨fun hr => ?_, fun p indices hp hf hi => ?_⟩⟩
  · rw [exec_readEntry, takeFrame_refuses ht (wellMadeRef_iff.2 href) (answerReadEntry_unresolved hr)]
  · rw [exec_readEntry, takeFrame_accepts ht (wellMadeRef_iff.2 href) (answerReadEntry_resolved hr), entryData_eq]
    rfl
  · rw [exec_readSpan, takeFrame_refuses ht rfl (answerReadSpan_outOfRange hr)]
  · rw [exec_readSpan, takeFrame_accepts ht rfl (answerReadSpan_inRange hp hs),
      eq_indexRun (last := 16 + 16 * span.toNat + 15) hi (by omega) (fun n hn hle => by omega), show s.spanSummary p = _ from funext (s.spanSummary_eq p)]
    rfl
  · rw [exec_readPath, takeFrame_refuses ht (isFlag_iff.2 hview) (answerReadPath_outOfRange hr)]
  · exact readPath_reply ht (isFlag_iff.2 hview) hp hl hb
  · have hchannel : channelData = _ := funext fun ch : Channel => show _ ++ holderData ch.holder ++ _ = _ by rw [holderData_eq]
    rw [readChannels_reply ht, State.channelsData, hchannel]
    rfl
  · rw [readExtents_reply ht (longestRun_freeRuns_unique ⟨hord, hfit⟩ hlong)]
    rfl
  · rw [exec_readCampaign, takeFrame_refuses ht rfl (by rw [answerReadCampaign, inRange_none hr])]
  · rw [exec_readResults, takeFrame_refuses ht rfl (by rw [answerReadResults, inRange_none hr])]
  · subst hc
    rw [readCampaign_reply ht hn hplace]
    refine next_accepted_congr ?_
    unfold campaignData State.chainWith
    rw [u8_of_toNat hn]
    generalize s.campaign n = c
    cases c.kind with
    | none => rfl
    | some k => cases k <;> rfl
  · subst hc
    rw [exec_readResults, takeFrame_accepts ht rfl (answerReadResults_inRange hn), u8_of_toNat hn, resultBytes_eq, window_eq,
      clampNat_eq (by decide : 1 ≤ 32)]
    refine next_accepted_congr ?_
    cases (s.campaign n).summary <;> rfl
  · rw [exec_readGates, takeFrame_accepts ht rfl rfl]
    rfl
  · rw [exec_readOrders, takeFrame_accepts ht rfl rfl]
    rfl
  · rw [exec_readBaseline, takeFrame_refuses ht (isFlag_iff.2 hview) (answerReadBaseline_outOfRange hr)]
  · rw [readBaseline_reply ht (isFlag_iff.2 hview) hp hf hi]
    refine next_accepted_congr (congrArg₂ (· ++ ·) (congrArg₂ (· ++ ·) ?_ ?_) (congrArg (counted · indices) (funext fun i => ?_)))
    · cases s.bst.op <;> rfl
    · cases s.bst.lastOp with
      | none => rfl
      | some last => cases last <;> rfl
    · unfold State.baselineData
      by_cases hv : view = 0
      · rw [if_pos hv, if_pos hv]
        exact s.imageData_eq p i
      · rw [if_neg hv, if_neg hv]
        by_cases he : ∃ b, s.bst.op = .erasing b ∧ (512 * p.val + i.val) / 256 = b.val
        · rw [if_pos he]; exact State.slotData_erasing he
        · rw [if_neg he]; exact State.slotData_kept he

end Sys2Proof.Machine
end

section
/-! The campaign requests START, SCHEDULE, ABORT of a waiting campaign and RELEASE (R76, R77, R93, R94, R97). -/

namespace Sys2Proof.Machine

variable {s : State} {src : Source} {h : Header} {a : Asker}

/-! ## The lowest of a kind -/

/-- The search through an ascending list finds the lowest that meets the test. -/
theorem find?_lowest {k : Nat} {l : List (Fin k)} {P : Fin k → Bool} {n : Fin k} (hl : l.Pairwise (· < ·)) (hn : n ∈ l)
    (hP : P n = true) (hlow : ∀ m, m < n → P m = false) : l.find? P = some n := by
  induction l with
  | nil => cases hn
  | cons m l ih =>
    obtain ⟨hm, hl⟩ := List.pairwise_cons.1 hl
    rcases List.mem_cons.1 hn with rfl | hn
    · exact List.find?_cons_of_pos hP
    · rw [List.find?_cons_of_neg (by rw [hlow m (hm n hn)]; exact Bool.false_ne_true)]
      exact ih hl hn

theorem State.freeSlot_of_lowest {n : Slot} (hn : s.lowestFreeSlot n) : s.freeSlot = some n :=
  find?_lowest allSlots_rising (mem_allSlots n) (beq_iff_eq.2 hn.1) fun m hm => beq_eq_false_iff_ne.2 (hn.2 m hm)

theorem State.freeSlot_eq_none (hn : ∀ n, (s.campaign n).state ≠ .free) : s.freeSlot = none :=
  List.find?_eq_none.2 fun n _ h => hn n (beq_iff_eq.1 h)

theorem State.freeSlot_isSome (hn : ∃ n, (s.campaign n).state = .free) : ∃ n, s.freeSlot = some n := by
  cases hf : s.freeSlot with
  | none => exact absurd hn (State.freeSlot_none hf)
  | some n => exact ⟨n, rfl⟩

/-! ## The record of a request (R76) -/

section
variable {r : CampaignRequest}

/-- The record START fills, its fields in range. -/
def startedCampaign (r : CampaignRequest) (a : Asker) (pair : Pair) (chip sequence reference : Code) : Campaign :=
  { state := .queued, kind := some (if r.kind = 0 then .survey else .locate), origin := .demand, requester := a.source,
    requesterLevel := a.effective, pair := pair, first := r.first.toNat, last := r.last.toNat,
    exponent := min 15 r.exponent.toNat,
    requested := { chip := chip, sequence := sequence, level := max 64 (min 4095 r.level.toNat), reference := reference },
    autoLocate := r.kind == 0 && r.autoLocate == 1, depth := 1 }

theorem requestedCampaign_eq {pair : Pair} {chip sequence reference : Code} (hk : r.kind = 0 ∨ r.kind = 1)
    (hp : r.pair.toNat = pair.val) (h1 : 1 ≤ r.first.toNat) (h2 : r.first.toNat ≤ r.last.toNat) (h3 : r.last.toNat ≤ 128)
    (hc : r.chip.toNat = chip.val) (hq : r.sequence.toNat = sequence.val) (href : r.reference.toNat = reference.val) :
    requestedCampaign r a = some (startedCampaign r a pair chip sequence reference) := by
  have hkind : hostKind r.kind.toNat = some (if r.kind = 0 then .survey else .locate) := by
    rcases hk with hk | hk <;> rw [hk] <;> rfl
  have hauto : decide ((if r.kind = 0 then CampaignKind.survey else .locate) = .survey) = (r.kind == 0) := by
    rcases hk with hk | hk <;> rw [hk] <;> rfl
  unfold requestedCampaign startedCampaign
  rw [hkind, inRange_of_eq hp, inRange_of_eq hc, inRange_of_eq hq, inRange_of_eq href]
  dsimp only
  rw [if_pos ⟨h1, h2, h3⟩, hauto, clampNat_zero, clampNat_eq (by decide)]

theorem requestedCampaign_isSome (hr : campaignInRange r) : ∃ c, requestedCampaign r a = some c := by
  obtain ⟨hk, hp, h1, h2, h3, hc, hq, href⟩ := hr
  have hkind : r.kind = 0 ∨ r.kind = 1 := by
    rcases Nat.le_one_iff_eq_zero_or_eq_one.1 hk with h | h
    · exact .inl (BitVec.eq_of_toNat_eq h)
    · exact .inr (BitVec.eq_of_toNat_eq h)
  exact ⟨_, requestedCampaign_eq (pair := ⟨_, hp⟩) (chip := ⟨_, hc⟩) (sequence := ⟨_, hq⟩) (reference := ⟨_, href⟩) hkind rfl h1 h2 h3
    rfl rfl rfl⟩

/-- A record is filled from fields in range only. -/
theorem requestedCampaign_none (hr : ¬ campaignInRange r) : requestedCampaign r a = none := by
  unfold requestedCampaign
  split
  · rename_i kind pair chip sequence reference hkind hp hc hq href
    refine if_neg fun h => hr ⟨?_, ?_, h.1, h.2.1, h.2.2, ?_, ?_, ?_⟩
    · unfold hostKind at hkind
      split at hkind
      · rename_i h0; rw [h0]; exact Nat.zero_le _
      · rename_i h1; rw [h1]
      · cases hkind
    · rw [inRange_some hp]; exact pair.isLt
    · rw [inRange_some hc]; exact chip.isLt
    · rw [inRange_some hq]; exact sequence.isLt
    · rw [inRange_some href]; exact reference.isLt
  · rfl

/-! ## START (R76) -/

theorem exec_start (h : Header) (r : CampaignRequest) (s : State) :
    exec (.start h r) s = .next (s.takeFrame h 0x20 (isFlag r.autoLocate) 2 (answerStart r)) := rfl

theorem answerStart_outOfRange (hr : ¬ campaignInRange r) : answerStart r a s = .error .range := by
  rw [answerStart, requestedCampaign_none hr]

theorem answerStart_noSlot (hr : campaignInRange r) (hn : ∀ n, (s.campaign n).state ≠ .free) :
    answerStart r a s = .error .noSlot := by
  obtain ⟨c, hc⟩ := requestedCampaign_isSome (a := a) hr
  simp only [answerStart, hc, State.freeSlot_eq_none hn]

theorem answerStart_queueFull (hr : campaignInRange r) (hn : ∃ n, (s.campaign n).state = .free) (hq : 8 ≤ s.cen.demand.length) :
    answerStart r a s = .error .queueFull := by
  obtain ⟨c, hc⟩ := requestedCampaign_isSome (a := a) hr
  obtain ⟨n, hn⟩ := State.freeSlot_isSome hn
  simp only [answerStart, hc, hn, if_pos hq]

theorem answerStart_queues {c : Campaign} {n : Slot} (hc : requestedCampaign r a = some c) (hn : s.freeSlot = some n)
    (hq : s.cen.demand.length < 8) : answerStart r a s = .ok ((s.setCampaign n c).setDemand (s.cen.demand ++ [n]),
      u8 n.val ++ u8 c.exponent ++ u16 c.requested.level ++ u8 (s.cen.demand.length + 1)) := by
  simp only [answerStart, hc, hn, if_neg (Nat.not_le.2 hq)]

end

/-- Settles O24: the request's refusals, and the record filled in the lowest FREE slot. -/
theorem startQueuesACampaign : Obligations.StartQueuesACampaign := by
  refine ⟨fun h r src effective pair chip sequence reference n s ht hauto hk hp h1 h2 h3 hc hq href hn hlen => ?_,
    fun h r src effective s ht hauto => ?_⟩
  · rw [exec_start, takeFrame_accepts ht (isFlag_iff.2 hauto)
      (answerStart_queues (requestedCampaign_eq hk hp h1 h2 h3 hc hq href) (State.freeSlot_of_lowest hn) hlen)]
    rfl
  · rw [exec_start]
    refine ⟨fun hr => ?_, fun hr hn => ?_, fun hr hn hq => ?_⟩
    · rw [takeFrame_refuses ht (isFlag_iff.2 hauto) (answerStart_outOfRange hr)]
    · rw [takeFrame_refuses ht (isFlag_iff.2 hauto) (answerStart_noSlot hr hn)]
    · rw [takeFrame_refuses ht (isFlag_iff.2 hauto) (answerStart_queueFull hr hn hq)]

/-! ## SCHEDULE (R77) -/

section
variable {r : CampaignRequest} {period : BitVec 16} {parity : Byte}

theorem exec_schedule (h : Header) (r : CampaignRequest) (period : BitVec 16) (parity : Byte) (s : State) :
    exec (.schedule h r period parity) s
      = .next (s.takeFrame h 0x21 (isFlag r.autoLocate) 2 (answerSchedule r period parity)) := rfl

theorem parityOf_isSome (hp : parity.toNat ≤ 2) : ∃ tag, parityOf parity.toNat = some tag := by
  have h : parity.toNat = 0 ∨ parity.toNat = 1 ∨ parity.toNat = 2 := by omega
  rcases h with h | h | h <;> rw [h]
  exacts [⟨_, rfl⟩, ⟨_, rfl⟩, ⟨_, rfl⟩]

theorem parityOf_none {n : Nat} (hp : 2 < n) : parityOf n = none := by
  unfold parityOf
  split
  case h_4 => rfl
  all_goals omega

theorem answerSchedule_outOfRange (hr : ¬ campaignInRange r ∨ 2 < parity.toNat) :
    answerSchedule r period parity a s = .error .range := by
  unfold answerSchedule
  rcases hr with hr | hp
  · rw [requestedCampaign_none hr]
  · rw [parityOf_none hp]
    cases requestedCampaign r a <;> rfl

theorem answerSchedule_noSlot (hr : campaignInRange r) (hp : parity.toNat ≤ 2) (hn : ∀ n, (s.campaign n).state ≠ .free) :
    answerSchedule r period parity a s = .error .noSlot := by
  obtain ⟨c, hc⟩ := requestedCampaign_isSome (a := a) hr
  obtain ⟨tag, htag⟩ := parityOf_isSome hp
  simp only [answerSchedule, hc, htag, State.freeSlot_eq_none hn]

theorem answerSchedule_listFull (hr : campaignInRange r) (hp : parity.toNat ≤ 2) (hn : ∃ n, (s.campaign n).state = .free)
    (hl : 16 ≤ s.cen.periodic.length) : answerSchedule r period parity a s = .error .listFull := by
  obtain ⟨c, hc⟩ := requestedCampaign_isSome (a := a) hr
  obtain ⟨tag, htag⟩ := parityOf_isSome hp
  obtain ⟨n, hn⟩ := State.freeSlot_isSome hn
  simp only [answerSchedule, hc, htag, hn, if_pos hl]

/-- A record scheduled with a period and a parity tag (R77). -/
def scheduled (c : Campaign) (period : Nat) (tag : Parity) : Campaign :=
  { c with state := .idlePeriodic, origin := .periodic,
           periodic := some { period := period, parity := tag, countdown := period, due := false, overruns := 0 } }

theorem answerSchedule_lists {c : Campaign} {n : Slot} {tag : Parity} (hc : requestedCampaign r a = some c)
    (htag : parityOf parity.toNat = some tag) (hn : s.freeSlot = some n) (hl : s.cen.periodic.length < 16) :
    answerSchedule r period parity a s = .ok
      ((s.setCampaign n (scheduled c (max 1 (min 4096 period.toNat)) tag)).setPeriodicList (insertSlot n s.cen.periodic),
        u8 n.val ++ u8 c.exponent ++ u16 c.requested.level ++ u16 (max 1 (min 4096 period.toNat))) := by
  simp only [answerSchedule, hc, htag, hn, if_neg (Nat.not_le.2 hl), clampNat_eq (by decide : 1 ≤ 4096)]
  rfl

end

/-- A slot joins a list before the first one that is not below it. -/
theorem insertSlot_split (n : Slot) (l : List Slot) : ∃ below above, l = below ++ above ∧ (∀ m ∈ below, m < n)
    ∧ (∀ m, above.head? = some m → ¬ m < n) ∧ insertSlot n l = below ++ n :: above := by
  induction l with
  | nil => exact ⟨[], [], rfl, by simp, by simp, rfl⟩
  | cons m l ih =>
    rw [insertSlot]
    by_cases hm : m < n
    · obtain ⟨below, above, rfl, hb, ha, hi⟩ := ih
      refine ⟨m :: below, above, rfl, fun x hx => ?_, ha, ?_⟩
      · rcases List.mem_cons.1 hx with rfl | hx
        · exact hm
        · exact hb x hx
      · rw [if_pos hm, hi]; rfl
    · exact ⟨[], m :: l, rfl, by simp, by simpa using hm, if_neg hm⟩

/-- Settles O25: the request's refusals, and the record filled and its slot placed in the list. -/
theorem scheduleListsACampaign : Obligations.ScheduleListsACampaign := by
  refine ⟨fun h r period parity src effective pair chip sequence reference tag n s ht hauto hk hp h1 h2 h3 hc hq href htag hn hlen => ?_,
    fun h r period parity src effective s ht hauto => ?_⟩
  · have hparity : parityOf parity.toNat = some tag := by
      rcases htag with ⟨rfl, rfl⟩ | ⟨rfl, rfl⟩ | ⟨rfl, rfl⟩
      exacts [rfl, rfl, rfl]
    obtain ⟨below, above, hl, hb, ha, hi⟩ := insertSlot_split n s.cen.periodic
    refine ⟨below, above, hl, hb, ha, ?_⟩
    rw [exec_schedule, takeFrame_accepts ht (isFlag_iff.2 hauto) (answerSchedule_lists
      (requestedCampaign_eq hk hp h1 h2 h3 hc hq href) hparity (State.freeSlot_of_lowest hn) hlen), hi]
    rfl
  · rw [exec_schedule]
    refine ⟨fun hr => ?_, fun hr hp hn => ?_, fun hr hp hn hq => ?_⟩
    · rw [takeFrame_refuses ht (isFlag_iff.2 hauto) (answerSchedule_outOfRange hr)]
    · rw [takeFrame_refuses ht (isFlag_iff.2 hauto) (answerSchedule_noSlot hr hp hn)]
    · rw [takeFrame_refuses ht (isFlag_iff.2 hauto) (answerSchedule_listFull hr hp hn hq)]

/-! ## ABORT and RELEASE (R93, R94, R97) -/

theorem exec_abort (h : Header) (slot : Byte) (s : State) :
    exec (.abort h slot) s = .next (s.takeFrame h 0x22 true 2 (answerAbort slot)) := rfl

theorem exec_release (h : Header) (slot : Byte) (s : State) :
    exec (.release h slot) s = .next (s.takeFrame h 0x23 true 2 (answerRelease slot)) := rfl

theorem mayEnd_iff {c : Campaign} : mayEnd c a = true ↔ c.requester = a.source ∨ a.effective = 0 := by
  rw [mayEnd, Bool.or_eq_true, beq_iff_eq, beq_iff_eq]

section
variable {slot : Byte} {n : Slot}

theorem answerAbort_wrongState (hn : slot.toNat = n.val) (hw : (s.campaign n).kind = some .confirm
    ∨ (s.campaign n).state ∈ [CampaignState.free, .reserved, .done, .failed, .aborted]) :
    answerAbort slot a s = .error .wrongState := by
  rw [answerAbort, inRange_of_eq hn]
  dsimp only
  by_cases hk : (s.campaign n).kind = some .confirm
  · exact if_pos hk
  · have hstate := hw.resolve_left hk
    rw [if_neg hk]
    cases hst : (s.campaign n).state <;> rw [hst] at hstate <;> simp at hstate ⊢

theorem answerAbort_level (hn : slot.toNat = n.val) (hk : (s.campaign n).kind ≠ some .confirm)
    (hs : (s.campaign n).state ∈ [CampaignState.queued, .idlePeriodic, .awaitingRoom, .measuring, .nested])
    (hm : ¬ ((s.campaign n).requester = a.source ∨ a.effective = 0)) : answerAbort slot a s = .error .level := by
  have hmay : mayEnd (s.campaign n) a = false := Bool.eq_false_iff.2 (mt mayEnd_iff.1 hm)
  rw [answerAbort, inRange_of_eq hn]
  dsimp only
  rw [if_neg hk, hmay]
  cases hst : (s.campaign n).state <;> rw [hst] at hs <;> simp at hs ⊢

theorem answerAbort_waiting (hn : slot.toNat = n.val) (hk : (s.campaign n).kind ≠ some .confirm)
    (hs : (s.campaign n).state = .queued ∨ (s.campaign n).state = .idlePeriodic)
    (hm : (s.campaign n).requester = a.source ∨ a.effective = 0) : answerAbort slot a s = .ok (s.abortWaiting n, u8 1) := by
  rw [answerAbort, inRange_of_eq hn]
  dsimp only
  rw [if_neg hk, mayEnd_iff.2 hm]
  rcases hs with hs | hs <;> rw [hs] <;> rfl

theorem answerAbort_chain (hn : slot.toNat = n.val) (hk : (s.campaign n).kind ≠ some .confirm)
    (hs : (s.campaign n).state ∈ [CampaignState.awaitingRoom, .measuring, .nested])
    (hm : (s.campaign n).requester = a.source ∨ a.effective = 0) : answerAbort slot a s = s.abortOnChain n := by
  rw [answerAbort, inRange_of_eq hn]
  dsimp only
  rw [if_neg hk, mayEnd_iff.2 hm]
  cases hst : (s.campaign n).state <;> rw [hst] at hs <;> simp at hs ⊢

theorem answerRelease_wrongState (hn : slot.toNat = n.val)
    (hs : (s.campaign n).state ∉ [CampaignState.done, .failed, .aborted]) : answerRelease slot a s = .error .wrongState := by
  rw [answerRelease, inRange_of_eq hn]
  dsimp only
  cases hst : (s.campaign n).state <;> rw [hst] at hs <;> simp at hs ⊢

theorem answerRelease_ended (hn : slot.toNat = n.val) (hs : (s.campaign n).state ∈ [CampaignState.done, .failed, .aborted]) :
    answerRelease slot a s = if mayEnd (s.campaign n) a then .ok (s.freeUp n, u8 n.val) else .error .level := by
  rw [answerRelease, inRange_of_eq hn]
  dsimp only
  cases hst : (s.campaign n).state <;> rw [hst] at hs <;> simp at hs ⊢

end

/-- A waiting campaign aborted: its record, the queue, the list and the report queue differ, and nothing else (R94). -/
theorem State.abortWaiting_eq (s : State) (n : Slot) : s.abortWaiting n = { s with
    cen := { s.cen with
      slots := s.cen.slots.set n
        { s.campaign n with
          state := .aborted, periodic := (s.campaign n).periodic.map (fun x : PeriodicPart => { x with due := false }) }
      demand := s.cen.demand.filter (fun m => m != n), periodic := s.cen.periodic.filter (fun m => m != n) }
    clk := { s.clk with reports := joined s.clk.reports [.campaign n] } } := by
  unfold State.abortWaiting
  rw [State.queueOrigin_eq]
  rfl

/-- Settles O26: the two requests' refusals, the abort of a waiting campaign and the release of an ended one. -/
theorem abortAndReleaseTakeEffect : Obligations.AbortAndReleaseTakeEffect := by
  refine ⟨fun h slot src effective n s ht hn hm => ⟨fun hk hs => ?_, fun hs => ?_⟩,
    fun h slot src effective s ht => ⟨fun hr => ⟨?_, ?_⟩, fun n hn => ⟨fun hw => ?_, fun hk hs hreq heff => ?_, fun hs => ?_,
      fun hs hreq heff => ?_⟩⟩⟩
  · rw [exec_abort, takeFrame_accepts ht rfl (answerAbort_waiting hn hk hs hm), State.abortWaiting_eq]
    rfl
  · have hstate : (s.campaign n).state ∈ [CampaignState.done, .failed, .aborted] := by simpa using hs
    rw [exec_release, takeFrame_accepts ht rfl ((answerRelease_ended hn hstate).trans (if_pos (mayEnd_iff.2 hm))), u8_of_toNat hn]
    rfl
  · rw [exec_abort, takeFrame_refuses ht rfl (by rw [answerAbort, inRange_none hr])]
  · rw [exec_release, takeFrame_refuses ht rfl (by rw [answerRelease, inRange_none hr])]
  · rw [exec_abort, takeFrame_refuses ht rfl (answerAbort_wrongState hn hw)]
  · rw [exec_abort, takeFrame_refuses ht rfl (answerAbort_level hn hk hs (not_or.2 ⟨hreq, heff⟩))]
  · rw [exec_release, takeFrame_refuses ht rfl (answerRelease_wrongState hn hs)]
  · have hmay : ¬ mayEnd (s.campaign n) ⟨src, effective⟩ = true := mt mayEnd_iff.1 (not_or.2 ⟨hreq, heff⟩)
    rw [exec_release, takeFrame_refuses ht rfl ((answerRelease_ended hn hs).trans (if_neg hmay))]

end Sys2Proof.Machine
end

section
/-! ABORT of a campaign on its pair's chain: of a root, and of a child, whose parent walks on in the same event (R95, R96). -/

namespace Sys2Proof.Machine

variable {s t : State} {p : Pair} {n m : Slot} {above below : List Slot}

/-! ## The chain cut at the campaign -/

theorem splitAtSlot_append {l : List Slot} (hn : n ∉ l) (above acc : List Slot) :
    splitAtSlot n (l ++ n :: above) acc = some (l.reverse ++ acc, above) := by
  induction l generalizing acc with
  | nil => exact if_pos rfl
  | cons m l ih =>
    have hm : m ≠ n := fun e => hn (e ▸ List.mem_cons_self)
    rw [List.cons_append, splitAtSlot, if_neg hm, ih fun h => hn (List.mem_cons_of_mem _ h), List.reverse_cons, List.append_assoc]
    rfl

theorem State.abortOnChain_root (hp : (s.campaign n).pair = p) (hc : s.chain p = n :: above) :
    s.abortOnChain n = .ok (s.abortRoot p n above, u8 (above.length + 1)) := by
  have hsplit : splitAtSlot n (s.chain p) [] = some ([], above) := by rw [hc]; exact splitAtSlot_append List.not_mem_nil above []
  unfold State.abortOnChain
  rw [hp]
  dsimp only
  rw [hsplit]

theorem State.abortOnChain_child (hp : (s.campaign n).pair = p) (hc : s.chain p = below.reverse ++ m :: n :: above)
    (hn : n ∉ m :: below) : s.abortOnChain n = .ok (s.abortChild p n (m :: below) above, u8 (above.length + 1)) := by
  have hnot : n ∉ below.reverse ++ [m] := by simpa [and_comm] using hn
  have hsplit : splitAtSlot n (s.chain p) [] = some (m :: below, above) := by
    rw [hc, List.append_cons, splitAtSlot_append hnot]
    simp
  unfold State.abortOnChain
  rw [hp]
  dsimp only
  rw [hsplit]

/-! ## Slots dropped in another order -/

theorem State.slicesEnded_perm {u : State} {l l' : List Slot} (hl : ∀ x, x ∈ l ↔ x ∈ l') (h : s.slicesEnded u l) :
    s.slicesEnded u l' := by
  intro c
  obtain ⟨h1, h2⟩ := h c
  exact ⟨fun ⟨x, hx, hh⟩ => h1 ⟨x, (hl x).2 hx, hh⟩, fun hno => h2 fun x hx => hno x ((hl x).1 hx)⟩

theorem State.slotsDropped_perm {u : State} {l l' : List Slot} (hl : ∀ x, x ∈ l ↔ x ∈ l') (h : s.slotsDropped u l) :
    s.slotsDropped u l' := by
  obtain ⟨h1, h2, h3, h4⟩ := h
  have hslots : ∀ x, l.contains x = l'.contains x := fun x => Bool.eq_iff_iff.2 (by simpa using hl x)
  have horigins : ∀ x, (l.map Origin.campaign).contains x = (l'.map Origin.campaign).contains x :=
    fun x => Bool.eq_iff_iff.2 (by simp only [List.contains_iff_mem, List.mem_map, hl])
  simp only [hslots, horigins] at h4
  exact ⟨State.slicesEnded_perm hl h1, fun x hx => h2 x ((hl x).2 hx), fun x hx => h3 x (mt (hl x).1 hx), h4⟩

/-! ## The abort of a root (R95) -/

/-- The part of the root's abort before its record is written: the campaigns above it dropped, its extent released, its chain
ended and its slot out of the periodic list. -/
def State.rootCleared (s : State) (p : Pair) (n : Slot) (above : List Slot) : State :=
  let v := ((s.dropSlots above).releaseExtent n).setChain p []
  v.setPeriodicList (withoutSlot v.cen.periodic n)

theorem State.abortRoot_eq (s : State) (p : Pair) (n : Slot) (above : List Slot) : s.abortRoot p n above
    = ((s.rootCleared p n above).setCampaign n { (s.rootCleared p n above).campaign n with state := .aborted, cursor := none }).setReports
        (joined (s.rootCleared p n above).clk.reports [.campaign n]) := by
  unfold State.abortRoot
  dsimp only
  rw [State.queueOrigin_eq]
  rfl

/-- What clearing a root does. -/
theorem State.rootCleared_spec (hn : n ∉ above) (h1 : s.oneChannelEach (n :: above)) :
    s.slicesEnded (s.rootCleared p n above) (n :: above)
      ∧ (s.rootCleared p n above).campaign n = { s.campaign n with extent := none }
      ∧ (∀ x ∈ above, (s.rootCleared p n above).campaign x = {})
      ∧ (∀ x, x ∉ n :: above → (s.rootCleared p n above).campaign x = s.campaign x)
      ∧ (∀ q, (s.rootCleared p n above).chain q = if q = p then [] else s.chain q)
      ∧ s.rootCleared p n above = { s with
          pch := { s.pch with channels := (s.rootCleared p n above).pch.channels }
          ecr := { s.ecr with extents := s.ecr.extents.filter (fun e => !(n :: above).contains e.slot) }
          cen := { s.cen with slots := (s.rootCleared p n above).cen.slots
                              chains := (s.rootCleared p n above).cen.chains
                              periodic := s.cen.periodic.filter (fun x => x != n) }
          clk := { s.clk with reports := s.clk.reports.filter (fun o => !(above.map Origin.campaign).contains o) } } := by
  obtain ⟨d1, d2, d3, d4⟩ := State.dropSlots_eq (State.oneChannelEach_mono h1 (m := above) fun x hx => List.mem_cons_of_mem _ hx)
  have hone : (s.dropSlots above).oneChannelEach [n] := State.oneChannelEach_after d1 (State.oneChannelEach_mono h1 (by simp))
  obtain ⟨r1, r2, r3⟩ := State.releaseExtent_eq hone
  unfold State.rootCleared
  generalize s.dropSlots above = u at d1 d2 d3 d4 r1 r2 r3
  generalize u.releaseExtent n = w at r1 r2 r3
  have hcamp : ∀ x, ((w.setChain p []).setPeriodicList (withoutSlot (w.setChain p []).cen.periodic n)).campaign x = w.campaign x :=
    fun _ => rfl
  refine ⟨?_, ?_, fun x hx => ?_, fun x hx => ?_, fun q => ?_, ?_⟩
  · refine State.slicesEnded_of_channels (t := w) (State.slicesEnded_perm (fun x => ?_) (State.slicesEnded_append d1 r1)) rfl
    simp [or_comm]
  · rw [hcamp, r2, if_pos rfl, d3 n hn]
  · have hxn : x ≠ n := fun e => hn (e ▸ hx)
    rw [hcamp, r2, if_neg hxn, d2 x hx]
  · obtain ⟨hxn, hxa⟩ := List.ne_and_not_mem_of_not_mem_cons hx
    rw [hcamp, r2, if_neg hxn, d3 x hxa]
  · have hw : ∀ q, w.chain q = s.chain q := fun q => by rw [r3, d4]; rfl
    show (w.setChain p []).chain q = _
    rw [State.chain_setChain, hw]
  · have hext : (u.ecr.extents.filter fun e => e.slot != n) = s.ecr.extents.filter (fun e => !(n :: above).contains e.slot) := by
      rw [d4, List.filter_filter]
      refine List.filter_congr fun x _ => ?_
      by_cases hx1 : x.slot = n <;> by_cases hx2 : x.slot ∈ above <;> simp [hx1, hx2]
    rw [hext] at r3
    dsimp only
    rw [r3, d4]
    rfl

/-! ## The abort of a child (R96) -/

/-- A refined class ABORTED leaves every condition, so it writes the campaign's list and summary alone (R116). -/
theorem State.writeRefined_aborted (s : State) (m : Slot) (k : Nat) (depth : Option Nat) (reason : Option Reason) :
    s.writeRefined m k .aborted depth reason = s.setCampaign m { s.campaign m with
      results := refineAt (s.campaign m).results k .aborted depth reason
      summary := some (verdictSummary (refineAt (s.campaign m).results k .aborted depth reason)) } := by
  have hkeep : ∀ (u : State) (i : Index) (q : Pair), u.applyTarget i q .aborted = u := fun u i q => by
    unfold State.applyTarget
    rw [targetMerge_eq, targeted_aborted]
    exact if_pos rfl
  unfold State.writeRefined
  dsimp only
  rw [summarize_eq]
  cases (s.campaign m).resultAt k with
  | none => rfl
  | some r => exact hkeep ..

/-- The child and what is above it gone, and its parent resumed with the refined class ABORTED (R96). -/
def State.childAborted (s : State) (p : Pair) (n m : Slot) (below above : List Slot) (k : Nat) : State :=
  let w := ((s.dropSlots above).dropSlot n).setChain p (m :: below).reverse
  let w := w.setCampaign m { w.campaign m with state := .measuring }
  w.writeRefined m k .aborted (some (s.campaign n).depth) none

theorem State.abortChild_eq {k : Nat} (hd : m ∉ n :: above) (h1 : s.oneChannelEach (n :: above)) (hk : (s.campaign m).cursor = some k) :
    s.abortChild p n (m :: below) above = State.unwind p (m :: below) (s.childAborted p n m below above k) := by
  obtain ⟨d1, d2, d3, d4⟩ := State.dropSlots_eq (State.oneChannelEach_mono h1 (m := above) fun x hx => List.mem_cons_of_mem _ hx)
  have hone : (s.dropSlots above).oneChannelEach [n] := State.oneChannelEach_after d1 (State.oneChannelEach_mono h1 (by simp))
  obtain ⟨e1, e2, e3, e4⟩ := State.dropSlot_eq hone
  obtain ⟨hmn, hma⟩ := List.ne_and_not_mem_of_not_mem_cons hd
  have hcursor : ((((s.dropSlots above).dropSlot n).setChain p (m :: below).reverse).setCampaign m
      { (((s.dropSlots above).dropSlot n).setChain p (m :: below).reverse).campaign m with state := .measuring }).campaign m
      = { s.campaign m with state := .measuring } := by
    have hkeep : (((s.dropSlots above).dropSlot n).setChain p (m :: below).reverse).campaign m = s.campaign m :=
      (e3 m (by simpa using hmn)).trans (d3 m hma)
    rw [State.campaign_setCampaign, if_pos rfl, hkeep]
  unfold State.abortChild
  dsimp only
  rw [hcursor]
  dsimp only
  rw [hk]
  rfl

/-- What the abort of a child has done before its parent walks on. -/
theorem State.childAborted_spec {k : Nat} (hd : m ∉ n :: above) (h1 : s.oneChannelEach (n :: above)) :
    s.slicesEnded (s.childAborted p n m below above k) (n :: above)
      ∧ (∀ x ∈ n :: above, (s.childAborted p n m below above k).campaign x = {})
      ∧ (s.childAborted p n m below above k).campaign m = { s.campaign m with
          state := .measuring
          results := refineAt (s.campaign m).results k .aborted (some (s.campaign n).depth) none
          summary := some (verdictSummary (refineAt (s.campaign m).results k .aborted (some (s.campaign n).depth) none)) }
      ∧ (∀ x, x ∉ m :: n :: above → (s.childAborted p n m below above k).campaign x = s.campaign x)
      ∧ (∀ q, (s.childAborted p n m below above k).chain q = if q = p then below.reverse ++ [m] else s.chain q)
      ∧ s.childAborted p n m below above k = { s with
          pch := { s.pch with channels := (s.childAborted p n m below above k).pch.channels }
          ecr := { s.ecr with extents := s.ecr.extents.filter (fun e => !(n :: above).contains e.slot) }
          cen := { s.cen with slots := (s.childAborted p n m below above k).cen.slots
                              chains := (s.childAborted p n m below above k).cen.chains }
          clk := { s.clk with reports := s.clk.reports.filter (fun o => !((n :: above).map Origin.campaign).contains o) } } := by
  have d := State.dropSlots_eq (State.oneChannelEach_mono h1 (m := above) fun x hx => List.mem_cons_of_mem _ hx)
  have hone : (s.dropSlots above).oneChannelEach [n] := State.oneChannelEach_after d.1 (State.oneChannelEach_mono h1 (by simp))
  have hgone : s.slotsDropped ((s.dropSlots above).dropSlot n) (n :: above) :=
    State.slotsDropped_perm (fun x => by simp [or_comm]) (State.slotsDropped_append d (State.dropSlot_eq hone))
  unfold State.childAborted
  generalize (s.dropSlots above).dropSlot n = u at hgone
  obtain ⟨e1, e2, e3, e4⟩ := hgone
  dsimp only
  rw [State.writeRefined_aborted]
  have hm : ((u.setChain p (m :: below).reverse).setCampaign m
      { (u.setChain p (m :: below).reverse).campaign m with state := .measuring }).campaign m = { s.campaign m with state := .measuring } := by
    have hkeep : (u.setChain p (m :: below).reverse).campaign m = s.campaign m := e3 m hd
    rw [State.campaign_setCampaign, if_pos rfl, hkeep]
  rw [hm]
  refine ⟨State.slicesEnded_of_channels (t := u) e1 rfl, fun x hx => ?_, ?_, fun x hx => ?_, fun q => ?_, ?_⟩
  · have hxm : x ≠ m := fun e => hd (e ▸ hx)
    rw [State.campaign_setCampaign, if_neg hxm, State.campaign_setCampaign, if_neg hxm]
    exact e2 x hx
  · rw [State.campaign_setCampaign, if_pos rfl]
  · obtain ⟨hxm, hxn⟩ := List.ne_and_not_mem_of_not_mem_cons hx
    rw [State.campaign_setCampaign, if_neg hxm, State.campaign_setCampaign, if_neg hxm]
    exact e3 x hxn
  · have hu : ∀ q, u.chain q = s.chain q := fun q => by rw [e4]; rfl
    show (u.setChain p (m :: below).reverse).chain q = _
    rw [State.chain_setChain, hu, List.reverse_cons]
  · rw [e4]
    rfl

/-! ## A parent with nothing left to walk (R90, R119) -/

/-- A root with nothing left to walk finishes. -/
theorem State.unwind_rootDone (hw : s.toWalk m = []) : State.unwind p [m] s = (s.withCursor m none).finishRoot p m := by
  have hwalk : s.walk m = (s.withCursor m none, false) := by unfold State.walk; rw [hw]; rfl
  unfold State.unwind
  rw [hwalk]

/-- What is walkable does not depend on a root's state, results or summary. -/
theorem State.walkable_congr {l : List ResultElement} (hk : (t.campaign m).kind = (s.campaign m).kind)
    (ho : (t.campaign m).origin = (s.campaign m).origin) (ha : (t.campaign m).autoLocate = (s.campaign m).autoLocate)
    (hroot : (s.campaign m).origin = .demand ∨ (s.campaign m).origin = .periodic) : t.walkable m l = s.walkable m l := by
  unfold State.walkable
  rw [hk, ho, ha]
  cases (s.campaign m).kind with
  | none => rfl
  | some kind =>
    rcases hroot with h | h <;> rw [h] <;> cases kind <;> rfl

/-- The reduced list leaves a root nothing to walk beyond its target. -/
theorem State.toWalk_eq_nil {k : Nat} (hcursor : (s.campaign m).cursor = some k)
    (hleft : ∀ y ∈ s.walkable m (s.campaign m).results, y.position ≤ k) : s.toWalk m = [] := by
  have hnone : s.leftToWalk m = [] := by
    refine List.filter_eq_nil_iff.2 fun y hy h => ?_
    rw [hcursor] at h
    exact absurd (of_decide_eq_true h) (Nat.not_lt.2 (hleft y hy))
  rw [State.toWalk_eq, hnone]
  rfl

/-- Extents left after one slot's and then others' have gone. -/
theorem filter_extents_cons (l : List Extent) (m : Slot) (gone : List Slot) :
    ((l.filter fun e => !gone.contains e.slot).filter fun e => e.slot != m) = l.filter (fun e => !(m :: gone).contains e.slot) := by
  rw [List.filter_filter]
  refine List.filter_congr fun x _ => ?_
  by_cases hx1 : x.slot = m <;> by_cases hx2 : x.slot ∈ gone <;> simp [hx1, hx2]

/-- Settles O27: the root's chain cleared and its record written; the child's slots dropped and its parent resumed, which finishes
or unwinds. -/
theorem abortOfARootEndsItsChain : Obligations.AbortOfARootEndsItsChain := by
  intro h slot src effective n above p s ht hn hmay hk hs hp hnodup h1
  have hexec : ∀ {u : State} {d : List Byte}, s.abortOnChain n = .ok (u, d) →
      exec (.abort h slot) s = .next (u.withReply (acceptedReply src h 0x22 d)) := fun ha => by
    rw [exec_abort, takeFrame_accepts ht rfl ((answerAbort_chain hn hk hs hmay).trans ha)]
  refine ⟨fun hc => ?_, fun m k element refined hc horigin hmp hcursor _ _ _ href hleft => ?_,
    fun m below k element refined hc hcursor _ _ href hlinked => ?_⟩
  · rw [hc] at hnodup h1
    obtain ⟨r1, r2, r3, r4, r5, r6⟩ := State.rootCleared_spec (p := p) (List.nodup_cons.1 hnodup).1 h1
    refine ⟨s.abortRoot p n above, hexec (State.abortOnChain_root hp hc), ?_⟩
    rw [State.abortRoot_eq]
    generalize s.rootCleared p n above = w at r1 r2 r3 r4 r5 r6
    have hother : ∀ {x}, x ≠ n → ((w.setCampaign n { w.campaign n with state := .aborted, cursor := none }).setReports
        (joined w.clk.reports [.campaign n])).campaign x = w.campaign x := fun {x} hx =>
      (State.campaign_setCampaign (s := w)).trans (if_neg hx)
    refine ⟨?_, fun x hx => ?_, fun x hx => ?_, r5, State.slicesEnded_of_channels r1 rfl, ?_, ?_, ?_, ?_, ?_⟩
    · refine ((State.campaign_setCampaign (s := w)).trans (if_pos rfl)).trans ?_
      rw [r2]
    · rw [hother fun e => (List.nodup_cons.1 hnodup).1 (e ▸ hx)]
      exact r3 x hx
    · rw [hother (List.ne_of_not_mem_cons hx)]
      exact r4 x hx
    · rw [r6]; rfl
    · rw [r6]; rfl
    · rw [r6]; rfl
    · rw [r6]; rfl
    · rw [r6]; rfl
  · rw [hc] at hnodup h1
    have hmnot := (List.nodup_cons.1 hnodup).1
    have hdrop := State.oneChannelEach_mono h1 (m := n :: above) fun x hx => List.mem_cons_of_mem _ hx
    have hnm : n ∉ [m] := fun hx => hmnot (List.mem_singleton.1 hx ▸ List.mem_cons_self)
    obtain ⟨w1, w2, w3, w4, w5, w6⟩ := State.childAborted_spec (p := p) (below := []) (k := k) hmnot hdrop
    have habort := State.abortOnChain_child (below := []) hp hc hnm
    rw [State.abortChild_eq hmnot hdrop hcursor] at habort
    generalize s.childAborted p n m [] above k = w at w1 w2 w3 w4 w5 w6 habort
    rw [← href] at w3
    have hone : w.oneChannelEach [m] := State.oneChannelEach_after w1 (State.oneChannelEach_mono h1 (by simp))
    have hdone : w.toWalk m = [] := by
      refine State.toWalk_eq_nil (k := k) (by rw [w3]; exact hcursor) fun y hy => hleft y ?_
      rw [State.walkable_congr (s := s) (by rw [w3]) (by rw [w3]) (by rw [w3]) horigin, w3] at hy
      exact hy
    have hworigin : (w.campaign m).origin = .demand ∨ (w.campaign m).origin = .periodic := by rw [w3]; exact horigin
    obtain ⟨f1, f2, f3, f4, f5⟩ := State.finishRoot_eq (p := p) hone hworigin
    rw [State.unwind_rootDone hdone] at habort
    generalize (w.withCursor m none).finishRoot p m = t at f1 f2 f3 f4 f5 habort
    refine ⟨t, hexec habort, fun y hy => ?_, ?_, fun y hy => ?_, fun q => ?_, ?_, ?_, ?_, ?_⟩
    · rw [f2 y fun e => hmnot (e ▸ hy)]
      exact w2 y hy
    · rw [f1, w3]
      unfold finishedRoot
      split <;> rfl
    · rw [f2 y (List.ne_of_not_mem_cons hy)]
      exact w4 y hy
    · rw [f3, w5]
      by_cases hq : q = p
      · rw [if_pos hq, if_pos hq]
      · rw [if_neg hq, if_neg hq, if_neg hq]
    · exact State.slicesEnded_perm (l := (n :: above) ++ [m]) (fun x => by simp; tauto) (State.slicesEnded_append w1 f4)
    · rw [f5, w6]
      exact filter_extents_cons ..
    · rw [f5, w6]
    · rw [f5, w6]
  · rw [hc] at hnodup h1
    have htop : (m :: n :: above).Nodup := (List.nodup_append.1 hnodup).2.1
    have hmnot := (List.nodup_cons.1 htop).1
    have hdrop := State.oneChannelEach_mono h1 (m := n :: above) fun x hx =>
      List.mem_append_right _ (List.mem_cons_of_mem _ hx)
    have hbelow : ∀ x ∈ below, x ∉ m :: n :: above := fun x hx hx' =>
      (List.nodup_append.1 hnodup).2.2 x (List.mem_reverse.2 hx) x hx' rfl
    have hnm : n ∉ m :: below := fun hx => by
      rcases List.mem_cons.1 hx with rfl | hx
      · exact hmnot List.mem_cons_self
      · exact hbelow n hx (by simp)
    obtain ⟨w1, w2, w3, w4, w5, w6⟩ := State.childAborted_spec (p := p) (below := below) (k := k) hmnot hdrop
    have habort := State.abortOnChain_child hp hc hnm
    rw [State.abortChild_eq hmnot hdrop hcursor] at habort
    generalize s.childAborted p n m below above k = w at w1 w2 w3 w4 w5 w6 habort
    rw [← href] at w3
    have hone : w.oneChannelEach (m :: below) := State.oneChannelEach_after w1 (State.oneChannelEach_mono h1 fun x hx => by
      rcases List.mem_cons.1 hx with rfl | hx
      · simp
      · simp [hx])
    have hlinked' : w.linked p m (w.campaign m).results below := by
      refine State.linked_congr ?_ (by rw [w3]) (by rw [w3]) (by rw [w3]) (fun x hx => w4 x (hbelow x hx)) hlinked
      rw [w3, href]
      exact refineAt_keeps ..
    have hnd : (m :: below).Nodup := by
      refine List.nodup_cons.2 ⟨fun hx => hbelow m hx List.mem_cons_self, ?_⟩
      exact List.nodup_reverse.1 (List.nodup_append.1 hnodup).1
    exact ⟨w, _, hexec habort, w2, w3, w4, w5, w1, w6, State.unwind_eq below m w hnd hone (by rw [w3]; nofun) hlinked'⟩

end Sys2Proof.Machine
end

section
/-! The Isolation Unit's ISOLATE and WITHDRAW_ORDER: the checks in their order, the order taken, and a waiting order's end (R129 to
R133, R147, R153, R156). -/

namespace Sys2Proof.Machine

variable {s : State} {src : Source} {h : Header} {a : Asker} {i : Index} {p : Pair}

/-! ## Checks in their order -/

/-- The reason is that of the first check in a list that fails; none where each passes. -/
def checksDecide : List (Prop × Reason) → Option Reason → Prop
  | [], f => f = none
  | (check, reason) :: rest, f => (¬ check → f = some reason) ∧ (check → checksDecide rest f)

theorem checksDecide_failed {passed failed : List (Prop × Reason)} {check : Prop} {reason : Reason} {f : Option Reason}
    (h : checksDecide (passed ++ (check, reason) :: failed) f) (hp : ∀ c ∈ passed, c.1) (hc : ¬ check) : f = some reason := by
  induction passed with
  | nil => exact h.1 hc
  | cons c passed ih => exact ih (h.2 (hp c List.mem_cons_self)) fun x hx => hp x (List.mem_cons_of_mem _ hx)

theorem checksDecide_passed {l : List (Prop × Reason)} {f : Option Reason} (h : checksDecide l f) (hp : ∀ c ∈ l, c.1) : f = none := by
  induction l with
  | nil => exact h
  | cons c l ih => exact ih (h.2 (hp c List.mem_cons_self)) fun x hx => hp x (List.mem_cons_of_mem _ hx)

/-! ## The path and the lag (R17, R41) -/

theorem State.mem_path_of_branchOf {l : List PathElement} {x : PathElement} {leg : Leg} (h : s.branchOf l = some (x, leg)) : x ∈ l := by
  induction l with
  | nil => cases h
  | cons y l ih =>
    rw [State.branchOf] at h
    split at h
    · cases h; exact List.mem_cons_self
    · exact List.mem_cons_of_mem _ (ih h)

/-- The effective path is made of the path list's elements. -/
theorem State.mem_path_of_effectivePath {x : PathElement} (hx : x ∈ s.effectivePath p) : x ∈ s.path p := by
  unfold State.effectivePath at hx
  split at hx
  · exact hx
  · rename_i unit route hb
    rcases List.mem_append.1 hx with hx | hx
    · rcases List.mem_append.1 hx with hx | hx
      · exact (List.mem_filter.1 hx).1
      · rw [List.mem_singleton.1 hx]; exact State.mem_path_of_branchOf hb
    · exact (List.mem_filter.1 hx).1

theorem placeOf_eq_none_iff {l : List PathElement} {k : Nat} : placeOf i l k = none ↔ ¬ ∃ x ∈ l, x.entry = i := by
  induction l generalizing k with
  | nil => simp [placeOf]
  | cons x l ih =>
    rw [placeOf]
    by_cases hx : x.entry = i
    · simp [hx]
    · simp [hx, ih]

/-- Where no entry is twice in a path list, an entry's delay in it is that of its element. -/
theorem find?_entry {l : List PathElement} (hl : (l.map PathElement.entry).Nodup) {x : PathElement} (hx : x ∈ l) :
    l.find? (fun e => e.entry == x.entry) = some x := by
  induction l with
  | nil => cases hx
  | cons y l ih =>
    rw [List.map_cons, List.nodup_cons] at hl
    rcases List.mem_cons.1 hx with rfl | hx
    · exact List.find?_cons_of_pos (beq_self_eq_true _)
    · have hne : ¬ (y.entry == x.entry) = true := fun h => hl.1 (by rw [beq_iff_eq.1 h]; exact List.mem_map_of_mem hx)
      exact (List.find?_cons_of_neg (p := fun e : PathElement => e.entry == x.entry) hne).trans (ih hl.2 hx)

theorem State.orderLag_eq {lag : Nat} (hnodup : ((s.path p).map PathElement.entry).Nodup) (hlag : s.lagInChips i p lag) :
    s.orderLag i p s.isu.settings.chip = lag := by
  obtain ⟨x, hx, rfl, rfl⟩ := hlag
  unfold State.orderLag State.delayOf
  rw [find?_entry hnodup hx]
  rfl

/-! ## ISOLATE (R129 to R131) -/

theorem exec_isolate (h : Header) (gate : Byte) (ref : Reference) (pair argument force : Byte) (s : State) :
    exec (.isolate h gate ref pair argument force) s = .next (s.takeFrame h 0x28 (wellMadeRef ref && isFlag force) 3
      (answerIsolate gate ref pair argument force)) := rfl

/-- The reason a request's answer gives, if it is refused. -/
def answerReason : Answer → Option Reason
  | .error r => some r
  | .ok _ => none

theorem eq_error_of_answerReason {x : Answer} {r : Reason} (h : answerReason x = some r) : x = .error r := by
  cases x with
  | error y => cases h; rfl
  | ok y => cases h

/-- The reason the want of an order record or of a slot gives (R131, checks 11 and 12). -/
def State.wantReason (s : State) : Option Reason :=
  match s.freeOrder, s.freeSlot with
  | none, _ => some .ordersFull
  | some _, none => some .noSlot
  | some _, some _ => none

section
variable {gate : Byte} {ref : Reference} {pair argument force : Byte} {g : Fin 32} {x : Gate}

theorem answerIsolate_outOfRange (hr : 32 ≤ gate.toNat ∨ 16 ≤ pair.toNat ∨ s.resolve a.source ref = none) :
    answerIsolate gate ref pair argument force a s = .error .range := by
  unfold answerIsolate
  split
  · rename_i g p i hg hp hi
    rw [inRange_some hg, inRange_some hp, hi] at hr
    have := g.isLt
    have := p.isLt
    rcases hr with hr | hr | hr
    · omega
    · omega
    · cases hr
  · rfl

theorem answerIsolate_gateAbsent (hg : gate.toNat = g.val) (hp : pair.toNat = p.val) (hi : s.resolve a.source ref = some i)
    (hx : s.gate g = none) : answerIsolate gate ref pair argument force a s = .error .gateAbsent := by
  unfold answerIsolate
  rw [inRange_of_eq hg, inRange_of_eq hp, hi]
  dsimp only
  rw [hx]

theorem answerIsolate_gatePresent (hg : gate.toNat = g.val) (hp : pair.toNat = p.val) (hi : s.resolve a.source ref = some i)
    (hx : s.gate g = some x) : answerIsolate gate ref pair argument force a s = match s.isolateReason x i p a force with
      | some r => .error r
      | none =>
        match s.freeOrder, s.freeSlot with
        | none, _ => .error .ordersFull
        | some _, none => .error .noSlot
        | some k, some n => .ok (s.acceptOrder k (s.newOrder g x i p argument a n),
            u8 k.val ++ u8 n.val ++ u16 (s.orderLag i p s.isu.settings.chip)) := by
  unfold answerIsolate
  rw [inRange_of_eq hg, inRange_of_eq hp, hi]
  dsimp only
  rw [hx] <;> rfl

theorem answerReason_isolate (hg : gate.toNat = g.val) (hp : pair.toNat = p.val) (hi : s.resolve a.source ref = some i)
    (hx : s.gate g = some x) : answerReason (answerIsolate gate ref pair argument force a s)
      = (s.isolateReason x i p a force).or s.wantReason := by
  rw [answerIsolate_gatePresent hg hp hi hx]
  unfold State.wantReason
  cases s.isolateReason x i p a force with
  | some r => rfl
  | none =>
    cases s.freeOrder with
    | none => rfl
    | some k => cases s.freeSlot <;> rfl

theorem Gate.covers_iff : x.covers i p = true ↔ x.first ≤ i ∧ i ≤ x.last ∧ x.mask.getLsbD p.val = true := by
  simp only [Gate.covers, Bool.and_eq_true, decide_eq_true_iff, and_assoc]

theorem actionAllows_iff {action : Action} {k : EntryKind} : actionAllows action k = true ↔ actionNames action k := by
  cases action <;> cases k <;> simp [actionAllows, actionNames]

theorem kindReason_none {action : Action} {e : Entry} (hn : actionNames action e.kind) (hc : routeChanges action e.kind) :
    kindReason action (some e) = none := by
  obtain ⟨k, address, mark⟩ := e
  have hallows : actionAllows action k = true := actionAllows_iff.2 hn
  unfold kindReason
  dsimp only
  rw [hallows]
  cases k with
  | line n => rfl
  | equalizer => rfl
  | branching route =>
    refine (if_neg Bool.false_ne_true).trans (if_neg fun hr => ?_)
    cases action <;> simp [actionRoute] at hr <;> subst hr <;> cases hc

theorem kindReason_wrongKind {action : Action} {e : Option Entry} (hn : ¬ ∃ x, e = some x ∧ actionNames action x.kind) :
    kindReason action e = some .wrongKind := by
  cases e with
  | none => rfl
  | some e =>
    have hno : actionAllows action e.kind = false := Bool.eq_false_iff.2 fun h => hn ⟨e, rfl, actionAllows_iff.1 h⟩
    unfold kindReason
    dsimp only
    rw [hno]
    rfl

theorem kindReason_wrongState {action : Action} {e : Entry} (hn : actionNames action e.kind) (hc : ¬ routeChanges action e.kind) :
    kindReason action (some e) = some .wrongState := by
  obtain ⟨k, address, mark⟩ := e
  have hallows : actionAllows action k = true := actionAllows_iff.2 hn
  unfold kindReason
  dsimp only
  rw [hallows]
  cases k with
  | line n => exact absurd (by cases action <;> trivial) hc
  | equalizer => exact absurd (by cases action <;> trivial) hc
  | branching route =>
    refine (if_neg Bool.false_ne_true).trans (if_pos ?_)
    cases action <;> cases route <;> simp [routeChanges] at hc <;> rfl

theorem actionFits_iff {action : Action} {c : Condition} : actionFits action c = true ↔ actionRequires action c := by
  cases action <;> simp [actionFits, actionRequires]

theorem forced_iff : forced force a = true ↔ force = 1 ∧ a.effective = 0 := by
  rw [forced, Bool.and_eq_true, beq_iff_eq, beq_iff_eq]

theorem spareOf_eq_zero_iff {e : Entry} {action : Action} (hn : actionNames .pumpToSpare e.kind ∨ action ≠ .pumpToSpare) :
    (action = .pumpToSpare ∧ spareOf (some e) = 0) ↔ ¬ (∀ n, action = .pumpToSpare → e.kind = .line n → 1 ≤ n.val) := by
  obtain ⟨k, address, mark⟩ := e
  by_cases ha : action = .pumpToSpare
  · cases k with
    | line n => simp [ha, spareOf, Nat.one_le_iff_ne_zero]
    | branching leg => exact absurd hn (by simp [actionNames, ha])
    | equalizer => exact absurd hn (by simp [actionNames, ha])
  · simp [ha]

theorem State.freeOrder_of_lowest {k : OrderNo} (hk : s.lowestFreeOrder k) : s.freeOrder = some k :=
  find?_lowest (by decide) (mem_allOrders k) (by rw [hk.1]; rfl) fun m hm => by
    cases ho : s.order m with
    | none => exact absurd ho (hk.2 m hm)
    | some o => rfl

theorem State.freeOrder_eq_none (hn : ¬ ∃ n, s.order n = none) : s.freeOrder = none :=
  List.find?_eq_none.2 fun n _ h => hn ⟨n, Option.isNone_iff_eq_none.1 h⟩

theorem State.freeOrder_isSome (hn : ∃ n, s.order n = none) : ∃ k, s.freeOrder = some k := by
  cases hf : s.freeOrder with
  | some k => exact ⟨k, rfl⟩
  | none =>
    obtain ⟨n, hn⟩ := hn
    exact absurd (List.find?_eq_none.1 hf n (mem_allOrders n)) (by rw [hn]; exact fun h => h rfl)

/-- ISOLATE is decided by R130's and R131's checks in their order. -/
theorem isolateChecks_decide {effective : Level} {lag : Nat} (hg : gate.toNat = g.val) (hp : pair.toNat = p.val)
    (hi : s.resolve src ref = some i) (hnodup : ((s.path p).map PathElement.entry).Nodup)
    (hlag : s.lagInChips i p lag ∨ ∀ x ∈ s.path p, x.entry ≠ i) :
    checksDecide (s.isolateChecks g i p effective (force = 1) lag)
      (answerReason (answerIsolate gate ref pair argument force ⟨src, effective⟩ s)) := by
  unfold State.isolateChecks
  refine ⟨fun hno => ?_, fun hgate => ?_⟩
  · have hx : s.gate g = none := by simpa using hno
    rw [answerIsolate_gateAbsent (a := ⟨src, effective⟩) hg hp hi hx]
    rfl
  obtain ⟨x, hx⟩ := Option.isSome_iff_exists.1 hgate
  have hone : ∀ y, s.gate g = some y → y = x := fun y hy => Option.some.inj (hy.symm.trans hx)
  rw [answerReason_isolate (a := ⟨src, effective⟩) hg hp hi hx, State.isolateReason]
  refine ⟨fun hno => ?_, fun hlevel => ?_⟩
  · rw [if_pos (Fin.not_le.1 fun hle => hno fun y hy => hone y hy ▸ hle)]
    rfl
  rw [if_neg (Fin.not_lt.2 (hlevel x hx))]
  refine ⟨fun hno => ?_, fun hcovers => ?_⟩
  · have hout : x.covers i p = false := Bool.eq_false_iff.2 fun hc => hno fun y hy => hone y hy ▸ Gate.covers_iff.1 hc
    rw [hout]
    rfl
  have hin : ¬ (!x.covers i p) = true := by rw [Gate.covers_iff.2 (hcovers x hx)]; exact Bool.false_ne_true
  rw [if_neg hin]
  refine ⟨fun hno => ?_, fun hkind => ?_⟩
  · have hwrong : kindReason x.action (s.entry i) = some .wrongKind :=
      kindReason_wrongKind fun ⟨e, he, hn⟩ => hno ⟨e, he, fun y hy => hone y hy ▸ hn⟩
    rw [hwrong]
    rfl
  obtain ⟨e, he, hnames⟩ := hkind
  have hnames := hnames x hx
  rw [he]
  refine ⟨fun hno => ?_, fun hroute => ?_⟩
  · have hkeeps : ¬ routeChanges x.action e.kind := fun hc => hno fun y f hy hf => by
      cases hx.symm.trans hy; cases hf; exact hc
    rw [kindReason_wrongState hnames hkeeps]
    rfl
  rw [kindReason_none hnames (hroute x e hx rfl)]
  refine ⟨fun hno => ?_, fun hon => ?_⟩
  · have hoff : (s.positionOf p i).isNone = true := Option.isNone_iff_eq_none.2 (placeOf_eq_none_iff.2 hno)
    rw [hoff]
    rfl
  have hplaced : ¬ (s.positionOf p i).isNone = true := fun h => placeOf_eq_none_iff.1 (Option.isNone_iff_eq_none.1 h) hon
  have hlag : s.orderLag i p s.isu.settings.chip = lag := by
    obtain ⟨y, hy, hyi⟩ := hon
    exact State.orderLag_eq hnodup (hlag.resolve_right fun h => h y (State.mem_path_of_effectivePath hy) hyi)
  dsimp only
  rw [if_neg hplaced]
  refine ⟨fun hno => ?_, fun hmark => ?_⟩
  · have hm : e.mark = true := by simpa using hno
    rw [if_pos (show (some e).any Entry.mark = true from hm)]
    rfl
  have hmark : ¬ (some e).any Entry.mark = true := by simpa using hmark e rfl
  rw [if_neg hmark]
  refine ⟨fun hno => ?_, fun hfits => ?_⟩
  · have hnot := not_or.1 hno
    have hf : forced force ⟨src, effective⟩ = false := Bool.eq_false_iff.2 (mt forced_iff.1 hnot.1)
    have ha : actionFits x.action (s.record i p).condition = false :=
      Bool.eq_false_iff.2 fun hf => hnot.2 fun y hy => hone y hy ▸ actionFits_iff.1 hf
    rw [hf, ha]
    rfl
  have hfits : ¬ (!forced force ⟨src, effective⟩ && !actionFits x.action (s.record i p).condition) = true := by
    rcases hfits with h | h
    · simp [forced_iff (a := ⟨src, effective⟩) |>.2 h]
    · simp [actionFits_iff.2 (h x hx)]
  rw [if_neg hfits]
  have hspareOf := spareOf_eq_zero_iff (e := e) (action := x.action)
    (Classical.or_iff_not_imp_right.2 fun hn => by rw [not_not] at hn; rw [← hn]; exact hnames)
  refine ⟨fun hno => ?_, fun hspare => ?_⟩
  · rw [if_pos (hspareOf.2 fun hall' => hno fun y f n hy ha hf hk => by
      cases hx.symm.trans hy; cases hf; exact hall' n ha hk)]
    rfl
  rw [if_neg (fun h => hspareOf.1 h fun n ha hk => hspare x e n hx ha rfl hk)]
  refine ⟨fun hno => ?_, fun hfloor => ?_⟩
  · rw [if_pos (Nat.lt_of_not_le hno)]
    rfl
  rw [if_neg (Nat.not_lt.2 hfloor), hlag]
  refine ⟨fun hno => ?_, fun hfit => ?_⟩
  · rw [if_pos (Nat.lt_of_not_le hno)]
    rfl
  rw [if_neg (Nat.not_lt.2 hfit), Option.none_or, State.wantReason]
  refine ⟨fun hno => ?_, fun horder => ?_⟩
  · rw [State.freeOrder_eq_none hno]
  obtain ⟨k, hk⟩ := State.freeOrder_isSome horder
  rw [hk]
  refine ⟨fun hno => ?_, fun hslot => ?_⟩
  · rw [State.freeSlot_eq_none fun n hn => hno ⟨n, hn⟩]
  obtain ⟨n, hn⟩ := State.freeSlot_isSome hslot
  rw [hn]
  rfl

end

/-- Settles O28: the checks decide the answer, and the first that fails its reason. -/
theorem isolateChecksInOrder : Obligations.IsolateChecksInOrder := by
  intro h gate ref pair argument force src effective s ht href hforce
  have hw : (wellMadeRef ref && isFlag force) = true :=
    (Bool.and_eq_true ..).to_iff.2 ⟨wellMadeRef_iff.2 href, isFlag_iff.2 hforce⟩
  rw [exec_isolate]
  refine ⟨fun hr => ?_, fun g p i lag passed failed check reason hg hp hi hnodup hlag hchecks hpassed hfail => ?_⟩
  · rw [takeFrame_refuses ht hw (answerIsolate_outOfRange hr)]
  · have hdecide := isolateChecks_decide (argument := argument) (force := force) (effective := effective) hg hp hi hnodup hlag
    rw [hchecks] at hdecide
    rw [takeFrame_refuses ht hw (eq_error_of_answerReason (checksDecide_failed hdecide hpassed hfail))]

/-! ## The order taken (R132, R133) -/

theorem State.setOrderMark_eq {e : Entry} (he : s.entry i = some e) (b : Bool) :
    s.setOrderMark i b = s.setEntry i (some { e with mark := b }) := by
  unfold State.setOrderMark
  rw [he]

/-- The state with an order's record, place in the list, slot and mark written, its ordered record not yet moved (R132). -/
def State.withOrder (s : State) (k : OrderNo) (o : Order) (e : Entry) : State :=
  (((s.setOrder k (some o)).setAcceptance (s.isu.acceptance ++ [k])).setCampaign o.reserved { state := .reserved }).setEntry o.entry
    (some { e with mark := true })

theorem State.acceptOrder_eq {k : OrderNo} {o : Order} {e : Entry} (he : s.entry o.entry = some e) :
    s.acceptOrder k o = (s.withOrder k o e).setCondition o.entry o.pair .isolating :=
  congrArg (State.setCondition · o.entry o.pair .isolating) (State.setOrderMark_eq (s := ((s.setOrder k (some o)).setAcceptance
    (s.isu.acceptance ++ [k])).setCampaign o.reserved { state := .reserved }) he true)

/-- A record judged as it stands is as it was. -/
theorem AmpRecord.eq_judged {r : AmpRecord} {c : Condition} (h : r.condition = c) :
    r = { r with condition := c, changed := r.changed || !(r.condition == c) } := by
  subst h
  simp

/-- A condition's change beside a state: orders, campaigns and entries stay. -/
theorem State.judgedOnly_reads {t : State} (h : s.judgedOnly t) : (∀ m, t.order m = s.order m) ∧ t.isu = s.isu
    ∧ (∀ m, t.campaign m = s.campaign m) ∧ ∀ j, t.entry j = s.entry j := by
  rw [State.judgedOnly] at h
  rw [h]
  exact ⟨fun _ => rfl, rfl, fun _ => rfl, fun _ => rfl⟩

/-- An order written and its record judged: the frame. -/
theorem State.frame_of_withOrder_judgedOnly {k : OrderNo} {o : Order} {e : Entry} {t : State} (h : (s.withOrder k o e).judgedOnly t) :
    t = { s with lpt := { s.lpt with entries := t.lpt.entries, records := t.lpt.records },
                 cen := { s.cen with slots := t.cen.slots },
                 isu := { s.isu with orders := t.isu.orders, acceptance := t.isu.acceptance },
                 clk := { s.clk with reports := t.clk.reports } } := by
  rw [State.judgedOnly] at h
  rw [h]
  rfl

/-- Settles O29: every check passes, so the lowest record and slot are taken and written, and the ordered record moves. -/
theorem isolateTakesAnOrder : Obligations.IsolateTakesAnOrder := by
  intro h gate ref pair argument force src effective g x p i e lag k n s ht href hforce hg hp hi hnodup hlag hchecks hx he hk hn
  have hw : (wellMadeRef ref && isFlag force) = true :=
    (Bool.and_eq_true ..).to_iff.2 ⟨wellMadeRef_iff.2 href, isFlag_iff.2 hforce⟩
  have hreason : s.isolateReason x i p ⟨src, effective⟩ force = none := by
    have hdecide := isolateChecks_decide (argument := argument) (force := force) (effective := effective) hg hp hi hnodup (.inl hlag)
    have hnone := checksDecide_passed hdecide hchecks
    rw [answerReason_isolate (a := ⟨src, effective⟩) hg hp hi hx] at hnone
    exact (Option.or_eq_none_iff.1 hnone).1
  have hans := answerIsolate_gatePresent (argument := argument) (force := force) (a := ⟨src, effective⟩) hg hp hi hx
  rw [hreason, State.freeOrder_of_lowest hk, State.freeSlot_of_lowest hn, State.orderLag_eq hnodup hlag] at hans
  have hnew : s.newOrder g x i p argument ⟨src, effective⟩ n
      = { entry := i, pair := p, action := x.action, argument := argument, gate := g, exponent := x.exponent,
          requester := src, requesterLevel := effective, reserved := n, prior := (s.record i p).condition,
          address := e.address, chip := s.isu.settings.chip, sequence := s.isu.settings.sequence,
          limit := s.isu.settings.limit, lag := lag } := by
    unfold State.newOrder
    rw [he, State.orderLag_eq hnodup hlag]
    rfl
  dsimp only at hans
  rw [hnew] at hans
  generalize ho : (
        { entry := i, pair := p, action := x.action, argument := argument, gate := g, exponent := x.exponent,
          requester := src, requesterLevel := effective, reserved := n, prior := (s.record i p).condition,
          address := e.address, chip := s.isu.settings.chip, sequence := s.isu.settings.sequence,
          limit := s.isu.settings.limit, lag := lag } : Order) = o at hans
  have hentry : o.entry = i := by rw [← ho]
  have hpair : o.pair = p := by rw [← ho]
  have hreserved : o.reserved = n := by rw [← ho]
  rw [State.acceptOrder_eq (e := e) (by rw [hentry]; exact he), hentry, hpair] at hans
  have hjudged := (s.withOrder k o e).judgedOnly_setCondition i p .isolating
  obtain ⟨horders, hisu, hcampaigns, hentries⟩ := State.judgedOnly_reads hjudged
  have hrecord : ∀ j q, (s.withOrder k o e).record j q = s.record j q := fun _ _ => rfl
  have hchanged := (s.withOrder k o e).setCondition_record i (c := .isolating) (p := p)
  have hself : ((s.withOrder k o e).setCondition i p .isolating).record i p = { s.record i p with
      condition := .isolating, changed := (s.record i p).changed || !((s.record i p).condition == .isolating) } := by
    rw [hchanged, hrecord]
    by_cases hc : (s.record i p).condition = .isolating
    · rw [if_neg fun h => h.2.2 hc]
      exact AmpRecord.eq_judged hc
    · rw [if_pos ⟨rfl, rfl, hc⟩]
      simp [hc]
  refine ⟨(s.withOrder k o e).setCondition i p .isolating, ?_, ?_, fun m hm => ?_, ?_, ?_, fun m hm => ?_, fun j => ?_, ?_, hself,
    fun j q hj => ?_, ?_, State.frame_of_withOrder_judgedOnly hjudged⟩
  · rw [exec_isolate, takeFrame_accepts ht hw hans]
    rfl
  · rw [horders]
    exact (State.order_setOrder (s := s)).trans (if_pos rfl)
  · rw [horders]
    exact (State.order_setOrder (s := s)).trans (if_neg hm)
  · rw [hisu]
    rfl
  · rw [hcampaigns, ← hreserved]
    exact (State.campaign_setCampaign (s := s)).trans (if_pos rfl)
  · rw [hcampaigns]
    exact (State.campaign_setCampaign (s := s)).trans (if_neg (hreserved ▸ hm))
  · rw [hentries, ← hentry]
    exact State.entry_setEntry
  · rw [hself]
  · rw [hchanged, hrecord]
    exact if_neg fun h => hj (Prod.ext h.1 h.2.1)
  · rw [State.setCondition_reports, hrecord]
    rfl

/-! ## WITHDRAW_ORDER (R147, R156) -/

theorem exec_withdrawOrder (h : Header) (order : Byte) (s : State) :
    exec (.withdrawOrder h order) s = .next (s.takeFrame h 0x29 true 3 (answerWithdrawOrder order)) := rfl

section
variable {order : Byte} {k : OrderNo} {o : Order}

theorem answerWithdrawOrder_notWaiting (hk : order.toNat = k.val)
    (hw : s.order k = none ∨ ∃ o, s.order k = some o ∧ o.state ≠ .waitingChannel) :
    answerWithdrawOrder order a s = .error .wrongState := by
  rw [answerWithdrawOrder, inRange_of_eq hk]
  rcases hw with hw | ⟨o, ho, hw⟩
  · simp only [hw]
  · simp only [ho]
    exact if_pos hw

theorem answerWithdrawOrder_waiting (hk : order.toNat = k.val) (ho : s.order k = some o) (hw : o.state = .waitingChannel) :
    answerWithdrawOrder order a s = if o.requester = a.source ∨ a.effective = 0 then
      .ok (s.failOrder k o .withdrawn o.conditionIfUnheard, u8 k.val ++ u8 (conditionCode o.conditionIfUnheard))
      else .error .level := by
  rw [answerWithdrawOrder, inRange_of_eq hk]
  simp only [ho]
  exact if_neg (not_not_intro hw)

end

/-- An order that fails frees its slot and ends DONE_FAILED: the table's marks, the slot, its record and the origins differ, and
nothing else (R147, R153). -/
theorem State.failOrder_eq (s : State) (k : OrderNo) (o : Order) (reason : Reason) (c : Condition) :
    s.orderMarks (s.failOrder k o reason c) o.entry o.pair c ∧ s.failOrder k o reason c = { s with
      lpt := { s.lpt with entries := (s.failOrder k o reason c).lpt.entries, records := (s.failOrder k o reason c).lpt.records },
      cen := { s.cen with slots := s.cen.slots.set o.reserved {} },
      isu := { s.isu with orders := s.isu.orders.set k (some { o with state := .doneFailed, channel := none, reason := some reason }) },
      clk := { s.clk with reports := s.orderOrigins k o c } } := by
  unfold State.failOrder
  obtain ⟨entries, records, h1, h2⟩ := (s.freeUp o.reserved).endOrder_eq k { o with channel := none } .doneFailed (some reason) c
  generalize (s.freeUp o.reserved).endOrder k { o with channel := none } .doneFailed (some reason) c = t at h1 h2
  refine ⟨h2, ?_⟩
  rw [h1]
  rfl

/-- Settles O30: the request's refusals, and the failure of a waiting order. -/
theorem withdrawOrderEndsAWaitingOrder : Obligations.WithdrawOrderEndsAWaitingOrder := by
  intro h order src effective s ht
  rw [exec_withdrawOrder]
  refine ⟨fun hr => ?_, fun k hk => ⟨fun hw => ?_, fun o ho hw => ⟨fun hreq heff => ?_, fun hmay condition hc => ?_⟩⟩⟩
  · rw [takeFrame_refuses ht rfl (by rw [answerWithdrawOrder, inRange_none hr])]
  · rw [takeFrame_refuses ht rfl (answerWithdrawOrder_notWaiting hk hw)]
  · rw [takeFrame_refuses ht rfl ((answerWithdrawOrder_waiting hk ho hw).trans (if_neg (not_or.2 ⟨hreq, heff⟩)))]
  · obtain rfl : condition = o.conditionIfUnheard := hc
    obtain ⟨hmarks, hframe⟩ := s.failOrder_eq k o .withdrawn o.conditionIfUnheard
    refine ⟨s.failOrder k o .withdrawn o.conditionIfUnheard, ?_, hmarks, hframe⟩
    rw [takeFrame_accepts ht rfl ((answerWithdrawOrder_waiting hk ho hw).trans (if_pos hmay)), u8_of_toNat hk]
    rfl

end Sys2Proof.Machine
end

section
/-! The requests on the switch: SET_CROSSPOINT and SET_CEILING, and what each cuts (R25 to R27, R30, R32, R144). -/

namespace Sys2Proof.Machine

variable {s : State} {src : Source} {h : Header} {a : Asker} {c : Chan} {p : Pair}

/-! ## SET_CROSSPOINT (R25) -/

theorem exec_setCrosspoint (h : Header) (channel pair mark : Byte) (s : State) : exec (.setCrosspoint h channel pair mark) s
    = .next (s.takeFrame h 0x48 (isFlag mark) 0 (answerSetCrosspoint channel pair mark)) := rfl

/-- The byte of a flag is the flag's byte. -/
theorem flagByte_of_isFlag {mark : Byte} (hm : mark.toNat ≤ 1) : flagByte (mark == 1) = [mark] := by
  rcases Nat.le_one_iff_eq_zero_or_eq_one.1 hm with h0 | h1
  · obtain rfl : mark = 0 := BitVec.eq_of_toNat_eq h0
    rfl
  · obtain rfl : mark = 1 := BitVec.eq_of_toNat_eq h1
    rfl

section
variable {channel pair mark : Byte}

theorem answerSetCrosspoint_outOfRange (hr : 4 ≤ channel.toNat ∨ 16 ≤ pair.toNat) :
    answerSetCrosspoint channel pair mark a s = .error .range := by
  unfold answerSetCrosspoint
  rcases hr with hr | hr
  · rw [inRange_none hr]
  · rw [inRange_none hr]
    cases inRange 4 channel.toNat <;> rfl

theorem answerSetCrosspoint_marks (hc : channel.toNat = c.val) (hp : pair.toNat = p.val)
    (hkeep : ¬ (mark = 0 ∧ (s.channel c).point = some p)) : answerSetCrosspoint channel pair mark a s
      = .ok (s.setPointEnabled c p (mark == 1), flagByte (mark == 1) ++ u8 (channelStateCode (s.channel c).state)) := by
  simp only [answerSetCrosspoint, inRange_of_eq hc, inRange_of_eq hp, if_neg hkeep]
  rfl

theorem answerSetCrosspoint_opens (hc : channel.toNat = c.val) (hp : pair.toNat = p.val) (hpoint : (s.channel c).point = some p)
    (hstate : (((s.setPointEnabled c p false).disconnect c).channel c).state = .disconnected) :
    answerSetCrosspoint channel pair 0 a s = .ok ((s.setPointEnabled c p false).disconnect c, [0, 0]) := by
  unfold answerSetCrosspoint
  rw [inRange_of_eq hc, inRange_of_eq hp]
  dsimp only
  rw [if_pos ⟨rfl, hpoint⟩]
  show Except.ok (_, flagByte false ++ u8 (channelStateCode (((s.setPointEnabled c p false).disconnect c).channel c).state)) = _
  rw [hstate]
  rfl

end

/-- A channel without an order's burst is simply disconnected (R26). -/
theorem State.disconnect_noBurst
    (hh : (s.channel c).holder = none ∨ ∃ n k lit, (s.channel c).holder = some (.slice n k lit)) :
    s.disconnect c = s.setChannel c {} := by
  unfold State.disconnect
  rcases hh with hh | ⟨n, k, lit, hh⟩ <;> rw [hh]

theorem State.disconnect_burst {k : OrderNo} {o : Order} (hh : (s.channel c).holder = some (.order k)) (ho : s.order k = some o) :
    s.disconnect c = (s.setChannel c {}).loseChannel k o := by
  unfold State.disconnect
  rw [hh]
  dsimp only
  rw [ho]

/-- A record that has lost its channel: the attempt counted, no channel named (R144). -/
def Order.lost (o : Order) : Order := { o with attempts := o.attempts + 1, lastOutcome := some .channelLost, channel := none }

theorem State.loseChannel_waits {k : OrderNo} {o : Order} (hl : o.attempts + 1 < o.limit) : s.loseChannel k o
    = (s.zeroChainTop o.pair).setOrder k
        (some { o.lost with state := .waitingChannel, reference := none, offset := none, phase := 0, window := [] }) := if_pos hl

theorem State.loseChannel_ends {k : OrderNo} {o : Order} (hl : o.limit ≤ o.attempts + 1) : s.loseChannel k o
    = (s.zeroChainTop o.pair).failOrder k o.lost .channelLost .unresolved := if_neg (Nat.not_lt.2 hl)

/-- Settles O32: the mark alone, or the mark with the channel's disconnection, by its holder and the attempts left. -/
theorem setCrosspointSetsTheMark : Obligations.SetCrosspointSetsTheMark := by
  intro h channel pair mark src effective s ht hmark
  have hw : isFlag mark = true := isFlag_iff.2 hmark
  refine ⟨fun hr => ?_, fun c p hc hp => ⟨fun hkeep => ?_, fun hzero hpoint => ⟨fun hh => ?_, fun k o hh ho => ?_⟩⟩⟩
  · rw [exec_setCrosspoint, takeFrame_refuses ht hw (answerSetCrosspoint_outOfRange hr)]
  · have hno : ¬ (mark = 0 ∧ (s.channel c).point = some p) := by
      rintro ⟨rfl, hpoint⟩
      exact hkeep.elim (fun h => absurd h (by decide)) fun h => h hpoint
    rw [exec_setCrosspoint, takeFrame_accepts ht hw (answerSetCrosspoint_marks hc hp hno), flagByte_of_isFlag hmark]
    rfl
  · subst hzero
    have hdis : (s.setPointEnabled c p false).disconnect c = (s.setPointEnabled c p false).setChannel c {} :=
      State.disconnect_noBurst hh
    have hstate : (((s.setPointEnabled c p false).disconnect c).channel c).state = .disconnected := by
      rw [hdis, State.channel_setChannel, if_pos rfl]
    rw [exec_setCrosspoint, takeFrame_accepts ht hw (answerSetCrosspoint_opens hc hp hpoint hstate), hdis]
    rfl
  · subst hzero
    have hdis : (s.setPointEnabled c p false).disconnect c = ((s.setPointEnabled c p false).setChannel c {}).loseChannel k o :=
      State.disconnect_burst hh ho
    obtain ⟨slots, cells, hzeroed, hzero⟩ := ((s.setPointEnabled c p false).setChannel c {}).zeroChainTop_eq o.pair
    have hanswer : ∀ {t : State}, ((s.setPointEnabled c p false).setChannel c {}).loseChannel k o = t →
        t.pch.channels = s.pch.channels.set c {} →
        exec (.setCrosspoint h channel pair 0) s = .next (t.withReply (acceptedReply src h 0x48 [0, 0])) := fun {t} hl hch => by
      have hstate : (((s.setPointEnabled c p false).disconnect c).channel c).state = .disconnected := by
        rw [hdis, hl, State.channel, hch]
        exact congrArg Channel.state ((vector_get_set ..).trans (if_pos rfl))
      rw [exec_setCrosspoint, takeFrame_accepts ht hw (answerSetCrosspoint_opens hc hp hpoint hstate), hdis, hl]
    refine ⟨slots, cells, hzeroed, fun hleft => hanswer ?_ rfl, fun hgone => ?_⟩
    · rw [State.loseChannel_waits hleft, hzero]
      rfl
    · obtain ⟨hmarks, hframe⟩ := (((s.setPointEnabled c p false).setChannel c {}).zeroChainTop o.pair).failOrder_eq k o.lost
        .channelLost .unresolved
      have hlose := State.loseChannel_ends (s := (s.setPointEnabled c p false).setChannel c {}) (k := k) hgone
      rw [← hlose, hzero] at hmarks hframe
      generalize ((s.setPointEnabled c p false).setChannel c {}).loseChannel k o = t at hmarks hframe hanswer
      exact ⟨t, hanswer rfl (by rw [hframe]; rfl), hmarks, hframe⟩

/-! ## SET_CEILING (R30, R32) -/

theorem exec_setCeiling (h : Header) (pair : Byte) (ceiling : BitVec 16) (s : State) :
    exec (.setCeiling h pair ceiling) s = .next (s.takeFrame h 0x49 true 0 (answerSetCeiling pair ceiling)) := rfl

theorem clampInt_eq {lo hi : Int} (hh : lo ≤ hi) (x : Int) : clampInt lo hi x = max lo (min hi x) := by
  unfold clampInt
  split_ifs <;> omega

theorem answerSetCeiling_outOfRange {pair : Byte} {ceiling : BitVec 16} (hr : 16 ≤ pair.toNat) :
    answerSetCeiling pair ceiling a s = .error .range := by rw [answerSetCeiling, inRange_none hr]

theorem answerSetCeiling_sets {pair : Byte} {ceiling : BitVec 16} (hp : pair.toNat = p.val) {x : Int}
    (hx : x = max (-7612) (min (-2194) ceiling.toInt)) :
    answerSetCeiling pair ceiling a s = .ok (s.applyCeiling p x, i16 x) := by
  rw [answerSetCeiling, inRange_of_eq hp, clampInt_eq (by decide), ← hx]

/-- The channel on a pair is the one whose point to it is closed. -/
theorem State.channelOn_eq (hc : (s.channel c).point = some p) (hother : ∀ d, d ≠ c → (s.channel d).point ≠ some p) :
    s.channelOn p = some c := by
  cases hf : s.channelOn p with
  | none =>
    have := List.find?_eq_none.1 hf c (mem_allChannels c)
    rw [hc] at this
    exact absurd (beq_self_eq_true _) this
  | some d =>
    have hd : (s.channel d).point = some p := by simpa using List.find?_some hf
    by_cases he : d = c
    · rw [he]
    · exact absurd hd (hother d he)

theorem State.channelOn_none (hno : ∀ c, (s.channel c).point ≠ some p) : s.channelOn p = none :=
  List.find?_eq_none.2 fun c _ h => hno c (beq_iff_eq.1 h)

theorem State.applyCeiling_kept {x : Int} (h : s.ceiling p ≤ x ∨ ∀ c, (s.channel c).point ≠ some p) :
    s.applyCeiling p x = s.setCeilingOf p x := by
  unfold State.applyCeiling
  split
  · rename_i hlt
    rw [State.channelOn_none (h.resolve_left (Int.not_le.2 hlt))]
  · rfl

theorem State.applyCeiling_lowered {x : Int} (hx : x < s.ceiling p) (hc : (s.channel c).point = some p)
    (hother : ∀ d, d ≠ c → (s.channel d).point ≠ some p) : s.applyCeiling p x = (s.setCeilingOf p x).cutByCeiling c p := by
  unfold State.applyCeiling
  rw [if_pos hx, State.channelOn_eq hc hother]

theorem State.ceiling_setCeilingOf (s : State) (p : Pair) (x : Int) : (s.setCeilingOf p x).ceiling p = x :=
  (vector_get_set ..).trans (if_pos rfl)

theorem State.cutByCeiling_slice {n : Slot} {k : Nat} {lit : Bool} (hh : (s.channel c).holder = some (.slice n k lit)) :
    s.cutByCeiling c p = if s.ceiling p < (s.campaign n).appliedLevel then (s.setChannel c (parked (s.channel c))).zeroCampaign n
      else s := by
  unfold State.cutByCeiling
  rw [hh]

theorem State.cutByCeiling_order {k : OrderNo} {o : Order} (hh : (s.channel c).holder = some (.order k)) (ho : s.order k = some o) :
    s.cutByCeiling c p = if s.ceiling p < o.signature.probeLevel then s.restartBurst c k o else s := by
  unfold State.cutByCeiling
  rw [hh]
  dsimp only
  rw [ho]

theorem State.cutByCeiling_coasting {g : Signature} (hh : (s.channel c).holder = none) (hst : (s.channel c).state = .coasting)
    (hg : (s.channel c).probe = some g) :
    s.cutByCeiling c p = if s.ceiling p < g.probeLevel then s.setChannel c (parked (s.channel c)) else s := by
  unfold State.cutByCeiling
  rw [hh, hst, hg]

theorem State.cutByCeiling_idle (hh : (s.channel c).holder = none)
    (hidle : (s.channel c).state ≠ .coasting ∨ ∀ g, (s.channel c).probe = some g → probeLevel g.level g.reference ≤ s.ceiling p) :
    s.cutByCeiling c p = s := by
  by_cases hst : (s.channel c).state = .coasting
  · cases hg : (s.channel c).probe with
    | none => unfold State.cutByCeiling; rw [hh, hst, hg]
    | some g => rw [State.cutByCeiling_coasting hh hst hg]; exact if_neg (Int.not_lt.2 (hidle.resolve_left (not_not_intro hst) g hg))
  · unfold State.cutByCeiling
    rw [hh]
    dsimp only
    split
    · exact absurd (by assumption) hst
    · rfl

/-- The cells after a campaign has been zeroed (R48). -/
theorem State.cell_zeroCampaign (s : State) (n : Slot) (x : Nat) : (s.zeroCampaign n).cell x
    = match (s.campaign n).extent with
      | some (start, length) => if start ≤ x ∧ x < start + length then 0 else s.cell x
      | none => s.cell x := by
  show tableGet 0 (zeroedCells s.ecr.cells (s.campaign n).extent) x = _
  unfold zeroedCells
  cases (s.campaign n).extent with
  | none => rfl
  | some e =>
    obtain ⟨start, length⟩ := e
    dsimp only
    split
    · rename_i hin; exact tableGet_tableClear_in _ _ hin
    · rename_i hout; exact tableGet_tableClear_out _ _ hout

theorem vector_set_self {α : Type} {n : Nat} (v : Vector α n) (i : Fin n) : v.set i v[i] = v := by simp

/-- A burst restarted on a channel that is settling keeps the channel (R32). -/
theorem State.restartBurst_settling {k : OrderNo} {o : Order} (hst : (s.channel c).state = .settling) : s.restartBurst c k o
    = (s.setOrder k (some (o.referencing (s.orderLevel o)))).clearWorking c := if_pos hst

theorem State.restartBurst_running {k : OrderNo} {o : Order} (hst : (s.channel c).state ≠ .settling) : s.restartBurst c k o
    = ((s.setOrder k (some (o.referencing (s.orderLevel o)))).clearWorking c).setChannel c
        { s.channel c with state := .priming, probe := some (o.referencing (s.orderLevel o)).signature } := if_neg hst

/-- Settles O33: a ceiling that cuts nothing, and each kind of probe it cuts. -/
theorem setCeilingCutsRunningProbes : Obligations.SetCeilingCutsRunningProbes := by
  intro h pair ceiling src effective s ht
  refine ⟨fun hr => ?_, fun p x hp hx => ?_⟩
  · rw [exec_setCeiling, takeFrame_refuses ht rfl (answerSetCeiling_outOfRange hr)]
  have hanswer : exec (.setCeiling h pair ceiling) s
      = .next ((s.applyCeiling p x).withReply (acceptedReply src h 0x49 (i16 x))) := by
    rw [exec_setCeiling, takeFrame_accepts ht rfl (answerSetCeiling_sets hp hx)]
  have hlevel : (s.setCeilingOf p x).ceiling p = x := s.ceiling_setCeilingOf p x
  refine ⟨fun hkeep => ?_, fun c hlow hpoint hother => ?_⟩
  · rw [hanswer, State.applyCeiling_kept hkeep]
    rfl
  rw [hanswer, State.applyCeiling_lowered hlow hpoint hother]
  refine ⟨fun hunder => ?_, fun n k lit hh hcut => ?_, fun k o hh ho hpair hcut => ?_, fun g hh hst hg hcut => ?_⟩
  · have hnone : (s.setCeilingOf p x).cutByCeiling c p = s.setCeilingOf p x := by
      rcases hunder with ⟨n, k, lit, hh, hle⟩ | ⟨k, o, hh, ho, hle⟩ | ⟨hh, hidle⟩
      · rw [State.cutByCeiling_slice (s := s.setCeilingOf p x) hh, hlevel]
        exact if_neg (Int.not_lt.2 hle)
      · rw [State.cutByCeiling_order (s := s.setCeilingOf p x) hh ho, hlevel]
        exact if_neg (Int.not_lt.2 hle)
      · exact State.cutByCeiling_idle hh (hlevel.symm ▸ hidle)
    rw [hnone]
    rfl
  · have hslice : (s.setCeilingOf p x).cutByCeiling c p
        = ((s.setCeilingOf p x).setChannel c (parked (s.channel c))).zeroCampaign n := by
      rw [State.cutByCeiling_slice (s := s.setCeilingOf p x) hh, hlevel]
      exact if_pos hcut
    rw [hslice]
    obtain ⟨t, hdef⟩ : ∃ t, t = ((s.setCeilingOf p x).setChannel c (parked (s.channel c))).zeroCampaign n := ⟨_, rfl⟩
    have hchannel : t.channel c = parked (s.channel c) := by
      rw [hdef]
      exact (vector_get_set ..).trans (if_pos rfl)
    have hcampaign : t.campaign n = { s.campaign n with accepted := 0, mustPrime := true } := by
      rw [hdef]
      exact (vector_get_set ..).trans (if_pos rfl)
    refine ⟨t, by rw [hdef], ?_, hcampaign, fun a => ?_, ?_⟩
    · rw [hchannel, ← hpoint]
      rfl
    · rw [hdef]
      exact State.cell_zeroCampaign _ n a
    · rw [hchannel, hcampaign, hdef]
      rfl
  · have horder : (s.setCeilingOf p x).cutByCeiling c p = (s.setCeilingOf p x).restartBurst c k o := by
      rw [State.cutByCeiling_order (s := s.setCeilingOf p x) hh ho, hlevel]
      exact if_pos hcut
    have hanew : (s.setCeilingOf p x).orderLevel o = fixLevel 4095 3 x := by
      rw [State.orderLevel, hpair, hlevel]
    rw [horder]
    obtain ⟨t, hdef⟩ : ∃ t, t = (s.setCeilingOf p x).restartBurst c k o := ⟨_, rfl⟩
    have hburst : t.isu = { s.isu with
          orders := s.isu.orders.set k (some (o.referencing (fixLevel 4095 3 x)))
          working := s.isu.working.set c (Vector.replicate 5 0) }
        ∧ t = { s with pch := { s.pch with ceilings := s.pch.ceilings.set p x
                                           channels := s.pch.channels.set c (t.channel c) }
                       isu := t.isu }
        ∧ ((s.channel c).state = .settling → t.channel c = s.channel c)
        ∧ ((s.channel c).state ≠ .settling → t.channel c = { s.channel c with
            state := .priming, probe := some (o.referencing (fixLevel 4095 3 x)).signature }) := by
      by_cases hst : (s.channel c).state = .settling
      · rw [hdef, State.restartBurst_settling (s := s.setCeilingOf p x) hst, hanew]
        refine ⟨rfl, ?_, fun _ => rfl, fun hne => absurd hst hne⟩
        exact congrArg (fun v => { s with
            pch := { s.pch with ceilings := s.pch.ceilings.set p x, channels := v }
            isu := { s.isu with
              orders := s.isu.orders.set k (some (o.referencing (fixLevel 4095 3 x)))
              working := s.isu.working.set c (Vector.replicate 5 0) } })
          (vector_set_self s.pch.channels c).symm
      · rw [hdef, State.restartBurst_running (s := s.setCeilingOf p x) hst, hanew]
        refine ⟨rfl, ?_, fun h => absurd h hst, fun _ => (vector_get_set ..).trans (if_pos rfl)⟩
        rw [State.channel_setChannel, if_pos rfl]
        rfl
    obtain ⟨hisu, hframe, hsettling, hrunning⟩ := hburst
    have hnow : t.order k = some (o.referencing (fixLevel 4095 3 x)) := by
      rw [State.order, hisu]
      exact (vector_get_set ..).trans (if_pos rfl)
    have hcells : t.isu.working[c] = Vector.replicate 5 0 := by
      rw [hisu]
      exact (vector_get_set ..).trans (if_pos rfl)
    refine ⟨t, by rw [hdef], hsettling, fun hne => (hrunning hne).trans (by rw [← hpair]; rfl), hnow, hcells, ?_⟩
    rw [hnow, hcells, ← hisu]
    exact hframe
  · have hcoast : (s.setCeilingOf p x).cutByCeiling c p = (s.setCeilingOf p x).setChannel c (parked (s.channel c)) := by
      rw [State.cutByCeiling_coasting (s := s.setCeilingOf p x) hh hst hg, hlevel]
      exact if_pos hcut
    rw [hcoast, ← hpoint]
    rfl

end Sys2Proof.Machine
end

section
/-! The Baseline Store's operations: COMMIT and its slots, erasing, the cold load (R159, R165 to R169, R171, R198). -/

namespace Sys2Proof.Machine

variable {s t : State} {src : Source} {h : Header} {a : Asker} {p q : Pair} {i j : Index} {job : CommitJob}

/-! ## The store's bytes (R198) -/

theorem tableGet_writeBytes (l : List Byte) (t : List Host.Cell) (a x : Nat) :
    tableGet (0xFF : Byte) (writeBytes t a l) x = if a ≤ x then l.getD (x - a) (tableGet 0xFF t x) else tableGet 0xFF t x := by
  induction l generalizing t a with
  | nil => simp [writeBytes]
  | cons b l ih =>
    rw [writeBytes, ih]
    by_cases hx : x = a
    · subst hx
      simp
    · rw [tableGet_tableSet_ne _ _ _ hx]
      by_cases hle : a + 1 ≤ x
      · obtain ⟨k, rfl⟩ := Nat.exists_eq_add_of_le hle
        rw [if_pos hle, if_pos (by omega), show a + 1 + k - a = k + 1 by omega, show a + 1 + k - (a + 1) = k by omega]
        rfl
      · rw [if_neg hle, if_neg (by omega)]

/-- A slot's bytes are those of another slot's, place by place. -/
theorem slotBytes_congr {c d : List Host.Cell} {m n : Nat} (h : ∀ k, k < 8 → slotByte c m k = slotByte d n k) :
    slotBytes c m = slotBytes d n := by
  unfold slotBytes
  rw [h 0 (by decide), h 1 (by decide), h 2 (by decide), h 3 (by decide), h 4 (by decide), h 5 (by decide), h 6 (by decide),
    h 7 (by decide)]

/-- What a slot's bytes say of its state is in the slot itself. -/
theorem slotState_congr {c d : List Host.Cell} {n : Nat} (h : ∀ k, k < 8 → slotByte c n k = slotByte d n k) :
    slotState c n = slotState d n := by
  unfold slotState
  rw [slotBytes_congr h, h 0 (by decide), h 7 (by decide)]

/-- Programming a slot's opening mark writes its byte 0 alone. -/
theorem slotByte_opened (c : List Host.Cell) (m n : Nat) {k : Nat} (hk : k < 8) :
    slotByte (tableSet (0xFF : Byte) c (8 * m) openingMark) n k = if n = m ∧ k = 0 then 0x3C else slotByte c n k := by
  unfold slotByte
  by_cases hx : n = m ∧ k = 0
  · obtain ⟨rfl, rfl⟩ := hx
    exact (tableGet_tableSet_same ..).trans (if_pos ⟨rfl, rfl⟩).symm
  · rw [if_neg hx, tableGet_tableSet_ne _ _ _ (by omega)]

/-- Completing a slot writes its bytes 1 to 7. -/
theorem slotByte_completed (c : List Host.Cell) (m n : Nat) {l : List Byte} (hl : l.length = 7) {k : Nat} (hk : k < 8) :
    slotByte (writeBytes c (8 * m + 1) l) n k = if n = m ∧ 1 ≤ k then l.getD (k - 1) 0 else slotByte c n k := by
  unfold slotByte
  rw [tableGet_writeBytes]
  by_cases hx : n = m ∧ 1 ≤ k
  · obtain ⟨rfl, hk1⟩ := hx
    rw [if_pos (by omega), if_pos ⟨rfl, hk1⟩, show 8 * n + k - (8 * n + 1) = k - 1 by omega, List.getD_eq_getElem _ _ (by omega),
      List.getD_eq_getElem _ _ (by omega)]
  · rw [if_neg hx]
    split
    · exact List.getD_eq_default _ _ (by omega)
    · rfl

theorem slotByte_erased (c : List Host.Cell) (b : Fin 32) (n : Nat) {k : Nat} (hk : k < 8) :
    slotByte (erasedStore c b) n k = if n / 256 = b.val then 0xFF else slotByte c n k := by
  unfold slotByte erasedStore
  split
  · exact tableGet_tableClear_in _ _ (by omega)
  · exact tableGet_tableClear_out _ _ (by omega)

theorem storeSlot_inj : storeSlot p i = storeSlot q j ↔ p = q ∧ i = j := imagePlace_inj

/-! ## The image statuses at a commit's end (R169) -/

/-- Is the record among those programmed, its image still holding the staged value? -/
def programmedAs (l : List Staged) (i : Index) (c : Baseline) : Bool :=
  l.any (fun y => y.index == i && y.baseline.any (fun d => d.gain == c.gain && d.address == c.address))

/-- An image record with its status settled after the records of a list were programmed (R169). -/
def settledAs (l : List Staged) (here : Bool) (i : Index) (c : Baseline) : Baseline :=
  { c with stored := c.stored || (here && programmedAs l i c) }

theorem settledAs_nil (here : Bool) (i : Index) (c : Baseline) : settledAs [] here i c = c := by
  simp [settledAs, programmedAs]

theorem settledAs_cons (y : Staged) (l : List Staged) (here : Bool) (i : Index) (c : Baseline) :
    settledAs l here i (settledAs [y] here i c) = settledAs (y :: l) here i c := by
  simp only [settledAs, programmedAs, List.any_cons, List.any_nil, Bool.or_false, Bool.and_or_distrib_left, Bool.or_assoc]

theorem State.baseline_settleProgrammed (s : State) (p : Pair) (y : Staged) (q : Pair) (i : Index) :
    (s.settleProgrammed p y).baseline q i = (s.baseline q i).map (settledAs [y] (decide (q = p)) i) := by
  have hother : (∀ c, s.baseline q i = some c → settledAs [y] (decide (q = p)) i c = c) →
      s.baseline q i = (s.baseline q i).map (settledAs [y] (decide (q = p)) i) := fun h => by
    cases hc : s.baseline q i with
    | none => rfl
    | some c => exact congrArg some (h c hc).symm
  unfold State.settleProgrammed
  split
  · rename_i b d hb hd
    split
    · rename_i heq
      rw [State.baseline_setBaseline]
      split
      · rename_i hat
        obtain ⟨rfl, rfl⟩ := hat
        simp [hb, settledAs, programmedAs, hd, heq.1, heq.2]
      · rename_i hat
        refine hother fun c _ => ?_
        by_cases hq : q = p
        · have hi : (y.index == i) = false := beq_eq_false_iff_ne.2 fun e => hat ⟨hq, e.symm⟩
          simp [settledAs, programmedAs, hi]
        · simp [settledAs, hq]
    · rename_i hne
      refine hother fun c hc => ?_
      by_cases hat : q = p ∧ y.index = i
      · obtain ⟨rfl, rfl⟩ := hat
        obtain rfl : b = c := Option.some.inj (hb.symm.trans hc)
        have : (d.gain == b.gain && d.address == b.address) = false := by
          rw [Bool.eq_false_iff]
          intro h
          rw [Bool.and_eq_true, beq_iff_eq, beq_iff_eq] at h
          exact hne ⟨h.1.symm, h.2.symm⟩
        simp [settledAs, programmedAs, hd, this]
      · by_cases hq : q = p
        · have hi : (y.index == i) = false := beq_eq_false_iff_ne.2 fun e => hat ⟨hq, e⟩
          simp [settledAs, programmedAs, hi]
        · simp [settledAs, hq]
  · rename_i hno
    refine hother fun c hc => ?_
    cases hd : y.baseline with
    | none => simp [settledAs, programmedAs, hd]
    | some d =>
      by_cases hat : q = p ∧ y.index = i
      · obtain ⟨rfl, rfl⟩ := hat
        exact absurd hd (hno c d hc)
      · by_cases hq : q = p
        · have hi : (y.index == i) = false := beq_eq_false_iff_ne.2 fun e => hat ⟨hq, e⟩
          simp [settledAs, programmedAs, hi]
        · simp [settledAs, hq]

theorem State.settleProgrammed_imageOnly (s : State) (p : Pair) (y : Staged) : s.imageOnly (s.settleProgrammed p y) := by
  unfold State.settleProgrammed
  split
  · split
    · exact State.imageOnly_setBaseline _ _ _ rfl
    · rfl
  · rfl

theorem State.imageOnly_refl (s : State) : s.imageOnly s := rfl

theorem State.imageOnly_trans {u : State} (h1 : s.imageOnly t) (h2 : t.imageOnly u) : s.imageOnly u := by
  unfold State.imageOnly at *
  rw [h2, h1]

/-- Every programmed record's status settled, one after another (R169). -/
theorem State.foldl_settleProgrammed (l : List Staged) (p : Pair) (s : State) :
    s.imageOnly (l.foldl (fun s x => s.settleProgrammed p x) s)
    ∧ ∀ q i, (l.foldl (fun s x => s.settleProgrammed p x) s).baseline q i
        = (s.baseline q i).map (settledAs l (decide (q = p)) i) := by
  induction l generalizing s with
  | nil =>
    refine ⟨rfl, fun q i => ?_⟩
    rw [show settledAs [] (decide (q = p)) i = id from funext fun c => settledAs_nil _ _ c, Option.map_id]
    rfl
  | cons y l ih =>
    obtain ⟨honly, hbase⟩ := ih (s.settleProgrammed p y)
    refine ⟨State.imageOnly_trans (s.settleProgrammed_imageOnly p y) honly, fun q i => ?_⟩
    refine (hbase q i).trans ?_
    rw [State.baseline_settleProgrammed, Option.map_map]
    exact congrArg (fun f => (s.baseline q i).map f) (funext fun c => settledAs_cons y l _ i c)

/-- A commit's end writes the statuses, and the rest at once (R169). -/
theorem State.endCommit_eq (s : State) (job : CommitJob) (stop : Reason) :
    (∀ q i, (s.endCommit job stop).baseline q i = (s.baseline q i).map (settledAs job.written (decide (q = job.pair)) i))
    ∧ s.endCommit job stop = { s with
        bst := { s.bst with
          image := (s.endCommit job stop).bst.image, staging := [], op := .idle,
          lastOp := some (.commit job.pair job.first job.staged job.written.length stop) }
        clk := { s.clk with reports := joined s.clk.reports [.store] } } := by
  obtain ⟨honly, hbase⟩ := State.foldl_settleProgrammed job.written job.pair s
  unfold State.endCommit
  rw [State.queueOrigin_eq]
  refine ⟨hbase, ?_⟩
  generalize job.written.foldl (fun s x => s.settleProgrammed job.pair x) s = t at honly
  rw [State.imageOnly] at honly
  generalize t.bst.image = image at honly
  rw [honly]
  rfl

/-- With nothing programmed, a commit's end leaves the image. -/
theorem State.endCommit_unwritten {stop : Reason} (hw : job.written = []) : s.endCommit job stop
    = { s with
        bst := { s.bst with
          staging := [], op := .idle, lastOp := some (.commit job.pair job.first job.staged 0 stop) }
        clk := { s.clk with reports := joined s.clk.reports [.store] } } := by
  unfold State.endCommit
  rw [State.queueOrigin_eq, hw]
  rfl

/-! ## How a commit goes on (R168) -/

theorem State.advanceCommit_absent {l : List Staged} (hl : ∀ x ∈ l, x.baseline = none) (rest : List Staged) :
    s.advanceCommit job (l ++ rest) = s.advanceCommit job rest := by
  induction l with
  | nil => rfl
  | cons x l ih =>
    rw [List.cons_append, State.advanceCommit, hl x List.mem_cons_self]
    exact ih fun y hy => hl y (List.mem_cons_of_mem _ hy)

theorem State.advanceCommit_allAbsent {l : List Staged} (hl : ∀ x ∈ l, x.baseline = none) :
    s.advanceCommit job l = s.endCommit { job with remaining := [] } job.fullStop := by
  rw [← List.append_nil l, State.advanceCommit_absent hl, State.advanceCommit]

variable {l rest : List Staged} {x : Staged}

theorem State.advanceCommit_blank (hl : ∀ y ∈ l, y.baseline = none) (hx : x.baseline ≠ none)
    (hblank : slotState s.bst.store (512 * job.pair.val + x.index.val) = .blank) :
    s.advanceCommit job (l ++ x :: rest)
      = (s.setStore (tableSet (0xFF : Byte) s.bst.store (8 * storeSlot job.pair x.index) openingMark)).setStoreOp
          (.programming { job with remaining := x :: rest }) := by
  obtain ⟨b, hb⟩ := Option.ne_none_iff_exists'.1 hx
  rw [State.advanceCommit_absent hl, State.advanceCommit, hb]
  exact if_pos hblank

theorem State.advanceCommit_occupied (hl : ∀ y ∈ l, y.baseline = none) (hx : x.baseline ≠ none)
    (hblank : slotState s.bst.store (512 * job.pair.val + x.index.val) ≠ .blank) :
    s.advanceCommit job (l ++ x :: rest) = s.endCommit { job with remaining := x :: rest } .occupied := by
  obtain ⟨b, hb⟩ := Option.ne_none_iff_exists'.1 hx
  rw [State.advanceCommit_absent hl, State.advanceCommit, hb]
  exact if_neg hblank

/-! ## COMMIT (R167) -/

theorem exec_commit (h : Header) (pair : Byte) (first : BitVec 16) (count : Byte) (s : State) :
    exec (.commit h pair first count) s = .next (s.takeFrame h 0x32 true 1 (answerCommit pair first count)) := rfl

section
variable {pair count : Byte} {first : BitVec 16}

theorem answerCommit_outOfRange (hr : 16 ≤ pair.toNat ∨ 272 ≤ first.toNat) :
    answerCommit pair first count a s = .error .range := by
  unfold answerCommit
  rcases hr with hr | hr
  · rw [inRange_none hr]
  · rw [inRange_none hr]
    cases inRange 16 pair.toNat <;> rfl

theorem answerCommit_busy (hp : pair.toNat = p.val) (hf : first.toNat = i.val) (hop : s.bst.op ≠ .idle) :
    answerCommit pair first count a s = .error .storeBusy := by
  unfold answerCommit
  rw [inRange_of_eq hp, inRange_of_eq hf]
  exact if_pos hop

/-- The job of a commit as it begins (R167). -/
def openedJob (p : Pair) (f : Index) (staged : List Staged) (limited : Bool) : CommitJob :=
  { pair := p, first := f, staged := staged.length, pageLimited := limited, written := [], remaining := [] }

theorem answerCommit_stages (hp : pair.toNat = p.val) (hf : first.toNat = i.val) (hop : s.bst.op = .idle) {n last : Nat}
    (hn : n = max 1 (min 32 count.toNat))
    (hlast : last = min (i.val + n - 1) (if i.val < 256 then 32 * (i.val / 32) + 31 else 271)) {staged : List Staged}
    (hi : staged.map (fun x => x.index.val) = List.range' i.val (last + 1 - i.val))
    (hb : ∀ x ∈ staged, x.baseline = s.baseline p x.index) :
    answerCommit pair first count a s
      = .ok ((s.setStaging staged).advanceCommit (openedJob p i staged (decide (last < i.val + n - 1))) staged,
          [BitVec.ofNat 8 staged.length, BitVec.ofNat 8 n]) := by
  have hpage : pageEnd i = if i.val < 256 then 32 * (i.val / 32) + 31 else 271 := by
    have := i.isLt
    unfold pageEnd
    split <;> omega
  have hcount : clampNat 1 32 count.toNat = n := (clampNat_eq (by decide) _).trans hn.symm
  have hindices : staged.map Staged.index = indexRun i.val last := by
    refine eq_indexRun (count := last + 1 - i.val) (by rw [List.map_map]; exact hi) ?_ fun m _ hm => ?_
    · have := i.isLt
      split at hlast <;> omega
    · have : i.val ≤ last := by split at hlast <;> omega
      omega
  have hstaged : s.stageRun p (indexRun i.val last) = staged := by
    rw [State.stageRun, ← hindices, List.map_map]
    refine (List.map_congr_left fun x hx => ?_).trans (List.map_id staged)
    show ({ index := x.index, baseline := s.baseline p x.index } : Staged) = x
    rw [← hb x hx]
  have hlimited : decide (pageEnd i < i.val + n - 1) = decide (last < i.val + n - 1) := by
    rw [decide_eq_decide, hpage]
    split at hlast <;> split <;> omega
  unfold answerCommit
  rw [inRange_of_eq hp, inRange_of_eq hf]
  dsimp only
  rw [if_neg (not_not_intro hop), hcount, hlimited, hpage, ← hlast, hstaged]
  rfl

end

/-- Settles O35: the run is the staged list, and the first record in it that is not ABSENT decides how the commit goes on. -/
theorem commitStagesItsRun : Obligations.CommitStagesItsRun := by
  intro h pair first count src effective s ht
  refine ⟨fun hr => ?_, fun p f n last staged hp hf hn hlast hi hb => ⟨fun hop => ?_, fun hop => ?_⟩⟩
  · rw [exec_commit, takeFrame_refuses ht rfl (answerCommit_outOfRange hr)]
  · rw [exec_commit, takeFrame_refuses ht rfl (answerCommit_busy hp hf hop)]
  have hanswer : exec (.commit h pair first count) s
      = .next (((s.setStaging staged).advanceCommit (openedJob p f staged (decide (last < f.val + n - 1))) staged).withReply
          (acceptedReply src h 0x32 [BitVec.ofNat 8 staged.length, BitVec.ofNat 8 n])) := by
    rw [exec_commit, takeFrame_accepts ht rfl (answerCommit_stages hp hf hop hn hlast hi hb)]
  rw [hanswer]
  refine ⟨fun habsent => ?_, fun absent x rest hsplit habsent hx => ⟨fun hslot => ?_, fun hslot => ?_⟩⟩
  · rw [State.advanceCommit_allAbsent habsent, State.endCommit_unwritten rfl]
    by_cases hlim : last < f.val + n - 1 <;> simp only [CommitJob.fullStop, openedJob, hlim] <;> rfl
  · rw [hsplit, State.advanceCommit_occupied habsent hx hslot, State.endCommit_unwritten rfl]
    rfl
  · have hnext := State.advanceCommit_blank (s := s.setStaging staged) (rest := rest)
      (job := openedJob p f staged (decide (last < f.val + n - 1))) habsent hx hslot
    rw [← hsplit] at hnext
    rw [hnext]
    exact ⟨_, rfl, rfl, rfl, fun slot k hk => slotByte_opened _ _ _ hk, rfl⟩

/-! ## SLOT_PROGRAMMED (R168, R169) -/

theorem exec_slotProgrammed (hop : s.bst.op = .programming job) : exec .slotProgrammed s = .next (s.slotDone job).concludeEvent := by
  show execSlotProgrammed s = _
  unfold execSlotProgrammed
  rw [hop]

/-- The bytes of a slot after its opening mark, as R198 lays them out. -/
theorem programmedBytes_eq (p : Pair) (i : Index) (b : Baseline) : programmedBytes p i b
    = [BitVec.ofNat 8 p.val, BitVec.ofNat 8 (i.val / 256), BitVec.ofNat 8 i.val, b.address,
        BitVec.ofNat 8 ((BitVec.ofInt 16 b.gain).toNat / 256), BitVec.ofNat 8 (BitVec.ofInt 16 b.gain).toNat, 0xA5] := rfl

/-- The state whose slot has its bytes 1 to 7. -/
def State.slotCompleted (s : State) (p : Pair) (i : Index) (b : Baseline) : State :=
  s.setStore (writeBytes s.bst.store (8 * storeSlot p i + 1) (programmedBytes p i b))

theorem State.slotDone_eq {b : Baseline} (hr : job.remaining = x :: rest) (hb : x.baseline = some b) : s.slotDone job
    = (s.slotCompleted job.pair x.index b).advanceCommit { job with written := job.written ++ [x] } rest := by
  unfold State.slotDone
  rw [hr]
  dsimp only
  rw [hb]
  rfl

theorem State.slotByte_slotCompleted (s : State) (p : Pair) (i : Index) (b : Baseline) (n : Nat) {k : Nat} (hk : k < 8) :
    slotByte (s.slotCompleted p i b).bst.store n k
      = if n = 512 * p.val + i.val ∧ 1 ≤ k then (programmedBytes p i b).getD (k - 1) 0 else slotByte s.bst.store n k :=
  slotByte_completed _ _ _ rfl hk

/-- Another slot keeps its bytes. -/
theorem State.slotByte_slotCompleted_ne {n k : Nat} {b : Baseline} (hn : n ≠ 512 * p.val + i.val) (hk : k < 8) :
    slotByte (s.slotCompleted p i b).bst.store n k = slotByte s.bst.store n k := by
  rw [State.slotByte_slotCompleted _ _ _ _ _ hk, if_neg fun h => hn h.1]

/-- A completed slot keeps its opening mark. -/
theorem State.slotBytes_slotCompleted (s : State) (p : Pair) (i : Index) (b : Baseline) :
    slotBytes (s.slotCompleted p i b).bst.store (512 * p.val + i.val)
      = slotByte s.bst.store (512 * p.val + i.val) 0 :: programmedBytes p i b := by
  unfold slotBytes
  repeat rw [State.slotByte_slotCompleted _ _ _ _ _ (by decide)]
  simp [programmedBytes_eq]

/-- A commit that ends on its completed slot (R169). -/
theorem slotProgrammed_ends {b : Baseline} {stop : Reason} (job' : CommitJob) (hop : s.bst.op = .programming job)
    (hb : x.baseline = some b) (hr : job.remaining = x :: rest)
    (hjob : job'.pair = job.pair ∧ job'.first = job.first ∧ job'.staged = job.staged ∧ job'.written = job.written ++ [x])
    (hnext : (s.slotCompleted job.pair x.index b).advanceCommit { job with written := job.written ++ [x] } rest
      = (s.slotCompleted job.pair x.index b).endCommit job' stop) :
    ∃ t : State, exec .slotProgrammed s = .next t.concludeEvent
      ∧ t.bst.store = (s.slotCompleted job.pair x.index b).bst.store
      ∧ (∀ q i, t.baseline q i = (s.baseline q i).map (settledAs (job.written ++ [x]) (decide (q = job.pair)) i))
      ∧ t = { s with
          bst := { store := t.bst.store, image := t.bst.image, staging := [], op := .idle,
                   lastOp := some (.commit job.pair job.first job.staged (job.written.length + 1) stop) }
          clk := { s.clk with reports := joined s.clk.reports [.store] } } := by
  obtain ⟨hpair, hfirst, hstaged, hwritten⟩ := hjob
  obtain ⟨hbase, hframe⟩ := (s.slotCompleted job.pair x.index b).endCommit_eq job' stop
  rw [hpair, hwritten] at hbase
  rw [hpair, hfirst, hstaged, hwritten, List.length_append] at hframe
  refine ⟨(s.slotCompleted job.pair x.index b).endCommit job' stop, ?_, ?_, hbase, ?_⟩
  · rw [exec_slotProgrammed hop, State.slotDone_eq hr hb, hnext]
  · rw [hframe]
  · generalize (s.slotCompleted job.pair x.index b).endCommit job' stop = t at hframe
    generalize t.bst.image = image at hframe
    rw [hframe]
    rfl

/-- Settles O36: the slot completed, and the commit ended or gone on, by the first record left that is not ABSENT. -/
theorem slotProgrammedGoesOn : Obligations.SlotProgrammedGoesOn := by
  intro job x b rest s hop hr hb
  refine ⟨fun stop hstop _ => ?_, fun absent y later hsplit habsent hy hne hslot => ?_⟩
  · have hended : ∃ job' : CommitJob,
        (job'.pair = job.pair ∧ job'.first = job.first ∧ job'.staged = job.staged ∧ job'.written = job.written ++ [x])
        ∧ (s.slotCompleted job.pair x.index b).advanceCommit { job with written := job.written ++ [x] } rest
          = (s.slotCompleted job.pair x.index b).endCommit job' stop := by
      rcases hstop with ⟨habsent, rfl⟩ | ⟨⟨absent, y, later, hsplit, habsent, hy, hne, hslot⟩, rfl⟩
      · exact ⟨{ job with written := job.written ++ [x], remaining := [] }, ⟨rfl, rfl, rfl, rfl⟩,
          State.advanceCommit_allAbsent habsent⟩
      · refine ⟨{ job with written := job.written ++ [x], remaining := y :: later }, ⟨rfl, rfl, rfl, rfl⟩, ?_⟩
        rw [hsplit]
        exact State.advanceCommit_occupied habsent hy fun e => hslot
          ((slotState_congr fun k hk => State.slotByte_slotCompleted_ne (fun e => hne (imagePlace_inj.1 e).2) hk).symm.trans e)
    obtain ⟨job', hjob, hnext⟩ := hended
    obtain ⟨t, hexec, hstore, hbase, hframe⟩ := slotProgrammed_ends job' hop hb hr hjob hnext
    refine ⟨t, hexec, ?_, fun slot hslot => ?_, fun q i => ?_, hframe⟩
    · rw [hstore, State.slotBytes_slotCompleted, programmedBytes_eq]
    · rw [hstore, slotBytes_congr fun k hk => State.slotByte_slotCompleted_ne hslot hk]
    · rw [hbase]
      cases s.baseline q i <;> rfl
  · have hnext := State.advanceCommit_blank (s := s.slotCompleted job.pair x.index b) (rest := later)
      (job := { job with written := job.written ++ [x] }) habsent hy
      ((slotState_congr fun k hk => State.slotByte_slotCompleted_ne (fun e => hne (imagePlace_inj.1 e).2) hk).trans hslot)
    have hdistinct : 512 * job.pair.val + x.index.val ≠ 512 * job.pair.val + y.index.val :=
      fun e => hne (imagePlace_inj.1 e).2.symm
    refine ⟨_, by rw [exec_slotProgrammed hop, State.slotDone_eq hr hb, hsplit, hnext], fun i hi hi8 => ?_, ?_, ?_,
      fun i hi hi8 => ?_, fun slot hx hy => slotBytes_congr fun k hk => ?_, rfl⟩
    · refine (slotByte_opened _ _ _ hi8).trans ((if_neg fun h => hdistinct h.1).trans ?_)
      rw [State.slotByte_slotCompleted _ _ _ _ _ hi8, if_pos ⟨rfl, hi⟩, programmedBytes_eq]
    · refine (slotByte_opened _ _ _ (by decide)).trans ((if_neg fun h => hdistinct h.1).trans ?_)
      rw [State.slotByte_slotCompleted _ _ _ _ _ (by decide), if_neg (by simp)]
    · exact (slotByte_opened _ _ _ (by decide)).trans (if_pos ⟨rfl, rfl⟩)
    · refine (slotByte_opened _ _ _ hi8).trans ((if_neg (by omega)).trans ?_)
      exact State.slotByte_slotCompleted_ne hdistinct.symm hi8
    · refine (slotByte_opened _ _ _ hk).trans ((if_neg fun h => hy h.1).trans ?_)
      exact State.slotByte_slotCompleted_ne hx hk

/-! ## Erasing (R166) -/

theorem exec_eraseBlock (h : Header) (block : Byte) (s : State) :
    exec (.eraseBlock h block) s = .next (s.takeFrame h 0x58 true 0 (answerEraseBlock block)) := rfl

theorem exec_eraseEnd {b : Fin 32} (hop : s.bst.op = .erasing b) : exec .eraseEnd s = .next (s.endErase b).concludeEvent := by
  show execEraseEnd s = _
  unfold execEraseEnd
  rw [hop]

theorem unstored_eq (b : Option Baseline) : unstored b = b.map fun c => { c with stored := false } := by
  cases b <;> rfl

theorem unstored_idem (b : Option Baseline) : unstored (unstored b) = unstored b := by cases b <;> rfl

/-- Records of one pair made ADOPTED, one after another. -/
theorem State.foldl_unstored (l : List Index) (p : Pair) (s : State) :
    s.imageOnly (l.foldl (fun s i => s.setBaseline p i (unstored (s.baseline p i))) s)
    ∧ ∀ q j, (l.foldl (fun s i => s.setBaseline p i (unstored (s.baseline p i))) s).baseline q j
        = if q = p ∧ j ∈ l then unstored (s.baseline q j) else s.baseline q j := by
  induction l generalizing s with
  | nil => exact ⟨rfl, fun q j => by simp⟩
  | cons i l ih =>
    obtain ⟨honly, hbase⟩ := ih (s.setBaseline p i (unstored (s.baseline p i)))
    refine ⟨State.imageOnly_trans (State.imageOnly_setBaseline p i _ s.imageOnly_refl) honly, fun q j => (hbase q j).trans ?_⟩
    rw [State.baseline_setBaseline]
    by_cases hq : q = p
    · subst hq
      by_cases hj : j = i
      · subst hj
        simp [unstored_idem]
      · simp [hj]
    · simp [hq]

theorem State.unstoreBlock_eq (s : State) (b : Fin 32) :
    s.imageOnly (s.unstoreBlock b)
    ∧ ∀ q i, (s.unstoreBlock b).baseline q i
        = if q.val = b.val / 2 ∧ i.val / 256 = b.val % 2 then unstored (s.baseline q i) else s.baseline q i := by
  obtain ⟨honly, hbase⟩ := State.foldl_unstored (allIndices.filter (blockCovers b)) (blockPair b) s
  refine ⟨honly, fun q i => (hbase q i).trans ?_⟩
  have hcovers : (q = blockPair b ∧ i ∈ allIndices.filter (blockCovers b)) ↔ q.val = b.val / 2 ∧ i.val / 256 = b.val % 2 := by
    rw [Fin.ext_iff]
    simp [blockPair, blockCovers, allIndices]
  exact if_congr hcovers rfl rfl

/-- An erase's end (R166). -/
theorem State.endErase_eq (s : State) (b : Fin 32) :
    (s.endErase b).bst.store = erasedStore s.bst.store b
    ∧ (∀ q i, (s.endErase b).baseline q i
        = if q.val = b.val / 2 ∧ i.val / 256 = b.val % 2 then unstored (s.baseline q i) else s.baseline q i)
    ∧ s.endErase b = { s with
        bst := { s.bst with
          store := (s.endErase b).bst.store, image := (s.endErase b).bst.image, op := .idle, lastOp := some (.erase b) }
        clk := { s.clk with reports := joined s.clk.reports [.store] } } := by
  obtain ⟨honly, hbase⟩ := (s.setStore (erasedStore s.bst.store b)).unstoreBlock_eq b
  unfold State.endErase
  rw [State.queueOrigin_eq]
  generalize (s.setStore (erasedStore s.bst.store b)).unstoreBlock b = t at honly hbase
  rw [State.imageOnly] at honly
  refine ⟨?_, hbase, ?_⟩
  · rw [honly]
    rfl
  · generalize t.bst.image = image at honly
    rw [honly]
    rfl

/-- Settles O37: the block taken or refused, and its end. -/
theorem eraseTakesTheBlock : Obligations.EraseTakesTheBlock := by
  refine ⟨fun h block src effective s ht => ⟨fun hr => ?_, fun b hb => ⟨fun hop => ?_, fun hop => ?_⟩⟩, fun b s hop => ?_⟩
  · have hanswer : answerEraseBlock block ⟨src, effective⟩ s = .error .range := by rw [answerEraseBlock, inRange_none hr]
    rw [exec_eraseBlock, takeFrame_refuses ht rfl hanswer]
  · have hanswer : answerEraseBlock block ⟨src, effective⟩ s = .error .storeBusy := by
      rw [answerEraseBlock, inRange_of_eq hb]
      exact if_pos hop
    rw [exec_eraseBlock, takeFrame_refuses ht rfl hanswer]
  · have hanswer : answerEraseBlock block ⟨src, effective⟩ s = .ok (s.setStoreOp (.erasing b), []) := by
      rw [answerEraseBlock, inRange_of_eq hb]
      exact if_neg (not_not_intro hop)
    rw [exec_eraseBlock, takeFrame_accepts ht rfl hanswer]
    rfl
  · obtain ⟨hstore, hbase, hframe⟩ := s.endErase_eq b
    refine ⟨s.endErase b, exec_eraseEnd hop, fun slot => ?_, fun q i => ?_, hframe⟩
    · rw [hstore]
      split
      · rename_i hin
        unfold slotBytes
        repeat rw [slotByte_erased _ _ _ (by decide), if_pos hin]
        rfl
      · rename_i hout
        exact slotBytes_congr fun k hk => by rw [slotByte_erased _ _ _ hk, if_neg hout]
    · rw [hbase, unstored_eq]

/-! ## The cold load (R171) -/

theorem exec_coldLoadEnd (hpart : s.clk.part = .starting) (hop : s.bst.op = .loading) : exec .coldLoadEnd s
    = .next ((s.loadImage.setStoreOp .idle).enterReady.queueOrigin .system).concludeEvent := by
  show execColdLoadEnd s = _
  unfold execColdLoadEnd
  rw [hpart, hop]

/-- The places of the usable slots, pair by pair. -/
def usablePlaces : List (Pair × Index) := allPairs.flatMap (fun p => allIndices.map (Prod.mk p))

theorem usableSlots_eq : usableSlots = usablePlaces.map (fun x => storeSlot x.1 x.2) := by
  simp [usableSlots, usablePlaces, List.map_flatMap, Function.comp_def]

theorem mem_usablePlaces (x : Pair × Index) : x ∈ usablePlaces := by
  simp [usablePlaces, mem_allPairs, allIndices]

/-- The record a HOLDING slot gives (R171, R198). -/
def heldRecord (cells : List Host.Cell) (slot : Nat) : Baseline :=
  { stored := true, gain := slotGain cells slot, address := slotAddress cells slot }

/-- Does every HOLDING usable slot name its own place? -/
def namesItself (cells : List Host.Cell) : Prop := ∀ (p : Pair) (i : Index),
  slotState cells (storeSlot p i) = .holding → slotPair cells (storeSlot p i) = p.val ∧ slotIndex cells (storeSlot p i) = i.val

theorem State.loadSlot_eq (hown : namesItself s.bst.store) (p : Pair) (i : Index) : s.loadSlot (storeSlot p i)
    = if slotState s.bst.store (storeSlot p i) = .holding then
        s.setBaseline p i (some (heldRecord s.bst.store (storeSlot p i)))
      else s := by
  unfold State.loadSlot
  cases hst : slotState s.bst.store (storeSlot p i) with
  | holding =>
    obtain ⟨hpair, hindex⟩ := hown p i hst
    rw [inRange_of_eq hpair, inRange_of_eq hindex]
    rfl
  | blank => rfl
  | torn => rfl

theorem State.foldl_loadSlot (l : List (Pair × Index)) {s : State} (hown : namesItself s.bst.store) :
    s.imageOnly ((l.map fun x => storeSlot x.1 x.2).foldl State.loadSlot s)
    ∧ ∀ q j, ((l.map fun x => storeSlot x.1 x.2).foldl State.loadSlot s).baseline q j
        = if (q, j) ∈ l ∧ slotState s.bst.store (storeSlot q j) = .holding then
            some (heldRecord s.bst.store (storeSlot q j))
          else s.baseline q j := by
  induction l generalizing s with
  | nil => exact ⟨rfl, fun q j => by simp⟩
  | cons x l ih =>
    obtain ⟨p, i⟩ := x
    rw [List.map_cons, List.foldl_cons, State.loadSlot_eq hown]
    split
    · rename_i hholds
      obtain ⟨honly, hbase⟩ := ih (s := s.setBaseline p i (some (heldRecord s.bst.store (storeSlot p i)))) hown
      refine ⟨State.imageOnly_trans (State.imageOnly_setBaseline p i _ s.imageOnly_refl) honly, fun q j => (hbase q j).trans ?_⟩
      rw [State.baseline_setBaseline]
      by_cases hat : q = p ∧ j = i
      · obtain ⟨rfl, rfl⟩ := hat
        rw [if_pos (c := q = q ∧ j = j) ⟨rfl, rfl⟩, if_pos (c := (q, j) ∈ (q, j) :: l ∧ _) ⟨List.mem_cons_self, hholds⟩]
        split <;> rfl
      · rw [if_neg hat]
        have hne : (q, j) ≠ (p, i) := fun e => hat (Prod.mk.inj e)
        exact if_congr (by rw [List.mem_cons, or_iff_right hne]; rfl) rfl rfl
    · rename_i hno
      obtain ⟨honly, hbase⟩ := ih hown
      refine ⟨honly, fun q j => (hbase q j).trans (if_congr ?_ rfl rfl)⟩
      rw [List.mem_cons]
      refine ⟨fun h => ⟨Or.inr h.1, h.2⟩, fun h => ⟨h.1.resolve_left fun e => hno ?_, h.2⟩⟩
      obtain ⟨rfl, rfl⟩ := Prod.mk.inj e
      exact h.2

/-- With every place in the list, a slot's state alone decides. -/
theorem State.foldl_loadSlot_all {l : List (Pair × Index)} (hl : ∀ x, x ∈ l) {s : State} (hown : namesItself s.bst.store)
    (q : Pair) (j : Index) : ((l.map fun x => storeSlot x.1 x.2).foldl State.loadSlot s).baseline q j
      = if slotState s.bst.store (storeSlot q j) = .holding then some (heldRecord s.bst.store (storeSlot q j))
        else s.baseline q j :=
  ((State.foldl_loadSlot l hown).2 q j).trans (if_congr (and_iff_right (hl _)) rfl rfl)

/-- The loaded image. -/
theorem State.loadImage_eq (hown : namesItself s.bst.store) : s.imageOnly s.loadImage
    ∧ ∀ q j, s.loadImage.baseline q j
        = if slotState s.bst.store (storeSlot q j) = .holding then some (heldRecord s.bst.store (storeSlot q j))
          else s.baseline q j := by
  unfold State.loadImage
  rw [usableSlots_eq]
  exact ⟨(State.foldl_loadSlot _ hown).1, State.foldl_loadSlot_all mem_usablePlaces hown⟩

/-- The part becoming READY leaves the image. -/
theorem State.baseline_enteredReady (s : State) (p : Pair) (i : Index) :
    ((s.setStoreOp .idle).enterReady.queueOrigin .system).baseline p i = s.baseline p i := by
  rw [State.queueOrigin_eq]
  rfl

/-- The cold load's end (R171, R191). -/
theorem State.enteredReady_eq (h : s.imageOnly t) : (t.setStoreOp .idle).enterReady.queueOrigin .system
    = { s with
        bst := { s.bst with image := ((t.setStoreOp .idle).enterReady.queueOrigin .system).bst.image, op := .idle }
        clk := { s.clk with part := .ready, reports := joined s.clk.reports [.system] } } := by
  rw [State.imageOnly] at h
  rw [State.queueOrigin_eq]
  generalize t.bst.image = image at h
  rw [h]
  rfl

/-- Settles O38: the load reads every usable slot once, each HOLDING one under its own place. -/
theorem coldLoadFillsTheImage : Obligations.ColdLoadFillsTheImage := by
  intro s hpart hop hclear hown
  obtain ⟨honly, hbase⟩ := State.loadImage_eq (s := s) hown
  refine ⟨_, exec_coldLoadEnd hpart hop, fun p i => ?_, State.enteredReady_eq honly⟩
  rw [State.baseline_enteredReady, hbase, hclear]
  rfl

end Sys2Proof.Machine
end

section
/-! The transmitter (R181 to R185), the reports it builds, and RESET with the end of its reply (R189, R191). -/

namespace Sys2Proof.Machine

variable {s t u : State} {p q : Pair} {strap : LineRate}

/-! ## The end of a transmission (R185) -/

theorem exec_transmissionEnd_report {f : LinkFrame} (h : s.clk.transmitter = .report f) :
    exec (.transmissionEnd strap) s = .next s.chooseNext := by
  show execTransmissionEnd strap s = _
  unfold execTransmissionEnd
  rw [h]

theorem isResetReply_iff {f : LinkFrame} : isResetReply f = true ↔ f.kind = 0xF0 ∧ f.body.head? = some 0x5F := by
  unfold isResetReply
  rw [Bool.and_eq_true, beq_iff_eq, beq_iff_eq]
  rfl

theorem exec_transmissionEnd_reply {f : LinkFrame} (h : s.clk.transmitter = .reply f)
    (hno : s.clk.pendingReset = none ∨ isResetReply f = false) :
    exec (.transmissionEnd strap) s = .next s.replySent.chooseNext := by
  show execTransmissionEnd strap s = _
  unfold execTransmissionEnd
  rw [h]
  dsimp only
  generalize isResetReply f = b, s.clk.pendingReset = pending at hno
  rcases hno with rfl | rfl
  · cases b <;> rfl
  · rfl

theorem exec_transmissionEnd_reset {f : LinkFrame} {kind : ResetKind} (h : s.clk.transmitter = .reply f)
    (hf : isResetReply f = true) (hp : s.clk.pendingReset = some kind) :
    exec (.transmissionEnd strap) s = .next (s.replySent.requestedReset kind strap) := by
  show execTransmissionEnd strap s = _
  unfold execTransmissionEnd
  rw [h, hp]
  dsimp only
  rw [hf]

/-- Whenever a transmission ends without a reset, the transmitter chooses from the state it leaves. -/
theorem State.frameEnds_chooses (h : s.frameEnds u) : exec (.transmissionEnd strap) s = .next u.chooseNext := by
  rcases h with ⟨⟨f, hf⟩, rfl⟩ | ⟨f, g, rest, hf, hreplies, hlen, hno, rfl⟩
  · exact exec_transmissionEnd_report hf
  · have hnot : s.clk.pendingReset = none ∨ isResetReply f = false := by
      refine hno.imp id fun h => ?_
      rw [Bool.eq_false_iff, Ne, isResetReply_iff]
      exact fun hr => h.elim (· hr.1) (· hr.2)
    have hready : readyOf rest s.clk.pendingReset = s.clk.pendingReset.isNone := by
      rw [hreplies, List.length_cons] at hlen
      rw [readyOf, decide_eq_true (by omega), Bool.true_and]
    rw [exec_transmissionEnd_reply hf hnot, State.replySent, hreplies, State.setReplies, List.drop_succ_cons, List.drop_zero, hready]

theorem State.concludeEvent_idle (h : s.clk.transmitter = .idle) : s.concludeEvent = s.chooseNext := by
  unfold State.concludeEvent
  rw [h]

theorem State.concludeEvent_busy (h : s.clk.transmitter ≠ .idle) : s.concludeEvent = s := by
  unfold State.concludeEvent
  cases hf : s.clk.transmitter with
  | idle => exact absurd hf h
  | reply f => rfl
  | report f => rfl

/-! ## The next frame (R184, R195) -/

theorem State.chooseNext_reply {f : LinkFrame} {rest : List LinkFrame} (h : s.clk.replies = f :: rest) :
    s.chooseNext = s.setTransmitter (.reply f) := by
  unfold State.chooseNext
  rw [h]

theorem State.chooseNext_none (h : s.clk.replies = []) (hr : s.clk.reports = []) : s.chooseNext = s.setTransmitter .idle := by
  unfold State.chooseNext
  rw [h, hr]

theorem State.chooseNext_report {o : Origin} {rest : List Origin} (h : s.clk.replies = []) (hr : s.clk.reports = o :: rest) :
    s.chooseNext = ((s.setReports rest).buildReport o).2.setTransmitter (.report ((s.setReports rest).buildReport o).1) := by
  unfold State.chooseNext
  rw [h, hr]

theorem campaignReportBody_eq (n : Slot) (x : Campaign) : campaignReportBody n x = campaignReport n x := by
  unfold campaignReportBody campaignReport
  cases x.kind <;> cases x.summary <;> cases x.failure <;> cases x.periodic <;> rfl

theorem confirmBytes_eq (r : ConfirmResult) : confirmBytes r =
    [(match r.summary with | some summary => BitVec.ofNat 8 (summaryCode summary) | none => 0),
     (match r.verdict with | some cls => BitVec.ofNat 8 (classCode cls) | none => 0),
     BitVec.ofNat 8 (r.amplitude.getD 0 / 65536), BitVec.ofNat 8 (r.amplitude.getD 0 / 256),
     BitVec.ofNat 8 (r.amplitude.getD 0)] := by
  unfold confirmBytes
  cases r.summary <;> cases r.verdict <;> rfl

theorem orderReportBody_eq (k : OrderNo) (o : Order) : orderReportBody k o = orderReport k o := by
  unfold orderReportBody orderReport
  cases o.confirm with
  | none => cases o.reason <;> cases o.lastOutcome <;> rfl
  | some r =>
    rw [optional, confirmBytes_eq]
    cases o.reason <;> cases o.lastOutcome <;> rfl

theorem storeReportBody_eq (x : LastOp) : storeReportBody (some x) = storeReport x := by cases x <;> rfl

theorem systemReportBody_eq (x : ResetKind × ResetCause) : systemReportBody x
    = [match x.1 with | .cold => 1 | .warm => 2, match x.2 with | .powerOn => 1 | .request => 2 | .lineBreak => 3] := by
  obtain ⟨kind, cause⟩ := x
  cases kind <;> cases cause <;> rfl

/-- What the transmitter begins with, whatever waits. -/
theorem State.chooseNext_begins (s : State) : s.beginsNext s.chooseNext := by
  refine ⟨fun f rest h => State.chooseNext_reply h, fun h hr => State.chooseNext_none h hr, fun origin rest h hr => ?_⟩
  rw [State.chooseNext_report h hr]
  refine ⟨?_, ?_, ?_, ?_⟩
  · rintro n rfl
    rw [← campaignReportBody_eq]
    rfl
  · rintro k o rfl ho
    have hbuild : (s.setReports rest).buildReport (.order k)
        = (reportFrame o.requester 0xE1 (orderReport k o), (s.setReports rest).orderReported k) := by
      have horder : (s.setReports rest).order k = some o := ho
      unfold State.buildReport
      dsimp only
      rw [horder, ← orderReportBody_eq]
    rw [hbuild]
    rfl
  · rintro last rfl hlast
    rw [← storeReportBody_eq, ← hlast]
    rfl
  · rintro rfl
    rw [State.buildReport, systemReportBody_eq]
    rfl

/-- Settles O39: the end of a transmission and the end of an event choose alike. -/
theorem transmissionEndSendsTheNextFrame : Obligations.TransmissionEndSendsTheNextFrame := by
  intro s
  refine ⟨fun strap u hu => ⟨u.chooseNext, State.frameEnds_chooses hu, u.chooseNext_begins⟩, fun h => ?_, fun h => ?_⟩
  · rw [State.concludeEvent_idle h]
    exact s.chooseNext_begins
  · exact State.concludeEvent_busy h

/-! ## The report of a pair (R11, R184) -/

/-- Clearing the marks of a list of records changes those records alone. -/
theorem State.clearMarks_eq (l : List Index) (s : State) (p : Pair) :
    (∀ i q, (s.clearMarks p l).record i q
      = if q = p ∧ i ∈ l then { s.record i q with changed := false } else s.record i q)
    ∧ s.clearMarks p l = { s with lpt := { s.lpt with records := (s.clearMarks p l).lpt.records } } := by
  induction l generalizing s with
  | nil => exact ⟨fun i q => by simp [State.clearMarks], rfl⟩
  | cons j l ih =>
    obtain ⟨hrec, hframe⟩ := ih (s.setRecord j p { s.record j p with changed := false })
    refine ⟨fun i q => (hrec i q).trans ?_, hframe⟩
    rw [State.record_setRecord]
    by_cases hq : q = p
    · subst hq
      by_cases hi : i = j
      · subst hi
        simp
      · simp [hi]
    · simp [hq]

theorem State.carriedRecords_marked {i : Index} (h : i ∈ s.carriedRecords p) : i ∈ s.markedRecords p := List.mem_of_mem_take h

theorem State.mem_markedRecords {i : Index} : i ∈ s.markedRecords p ↔ (s.record i p).changed = true := by
  simp [State.markedRecords, allIndices]

/-- With the carried records' marks cleared, the marks beyond the first 128 are left. -/
theorem State.markedRecords_cleared (s : State) (p : Pair) :
    (s.clearMarks p (s.carriedRecords p)).markedRecords p = (s.markedRecords p).drop 128 := by
  have hnodup : (s.markedRecords p).Nodup := (List.nodup_finRange 272).filter _
  have hrecord := (State.clearMarks_eq (s.carriedRecords p) s p).1
  have htest : (s.clearMarks p (s.carriedRecords p)).markedRecords p
      = (s.markedRecords p).filter (fun i => decide (i ∉ s.carriedRecords p)) := by
    unfold State.markedRecords
    rw [List.filter_filter]
    refine List.filter_congr fun i _ => ?_
    rw [hrecord]
    by_cases hi : i ∈ s.carriedRecords p <;> simp [hi]
  have hsplit := List.take_append_drop 128 (s.markedRecords p)
  rw [htest]
  unfold State.carriedRecords
  generalize s.markedRecords p = l at hnodup hsplit
  rw [← hsplit] at hnodup
  have hapart := (List.nodup_append.1 hnodup).2.2
  conv_lhs => rw [← hsplit]
  rw [List.filter_append, List.filter_eq_nil_iff.2 fun i hi => by rw [hsplit]; simpa using hi, List.nil_append,
    List.filter_eq_self.2 fun i hi => by
      rw [hsplit]
      simpa using fun h => hapart i h i hi rfl]

/-- Building a pair's report: the carried marks, the pair's marks and its place in the queue (R11, R184). -/
theorem State.pairReported_eq (hp : .pair p ∉ s.clk.reports) :
    (∀ i q, (s.pairReported p).record i q
      = if q = p ∧ i ∈ s.carriedRecords p then { s.record i q with changed := false } else s.record i q)
    ∧ (∀ q, (s.pairReported p).darkMark q = if q = p then false else s.darkMark q)
    ∧ (∀ q, (s.pairReported p).lineDarkMark q = if q = p then false else s.lineDarkMark q)
    ∧ (s.pairReported p).clk.reports = (if 128 < (s.markedRecords p).length then s.clk.reports ++ [.pair p] else s.clk.reports)
    ∧ s.pairReported p = { s with
        lpt := { s.lpt with records := (s.pairReported p).lpt.records }
        pch := { s.pch with dark := (s.pairReported p).pch.dark }
        flo := { s.flo with lineDark := (s.pairReported p).flo.lineDark }
        clk := { s.clk with reports := (s.pairReported p).clk.reports } } := by
  obtain ⟨hrec, hframe⟩ := State.clearMarks_eq (s.carriedRecords p) s p
  have hmarked := s.markedRecords_cleared p
  have hstill : (((s.clearMarks p (s.carriedRecords p)).setDarkMark p false).setLineDarkMark p false).pairMarked p
      = decide (128 < (s.markedRecords p).length) := by
    show (!((s.clearMarks p (s.carriedRecords p)).markedRecords p).isEmpty) = _
    rw [hmarked]
    by_cases h : 128 < (s.markedRecords p).length
    · have : (s.markedRecords p).drop 128 ≠ [] := fun e => by
        have := List.drop_eq_nil_iff.1 e
        omega
      simp [h, this]
    · simp [h, Nat.not_lt.1 h]
  have hreports : (s.clearMarks p (s.carriedRecords p)).clk = s.clk := by rw [hframe]
  have hpch : (s.clearMarks p (s.carriedRecords p)).pch = s.pch := by rw [hframe]
  have hflo : (s.clearMarks p (s.carriedRecords p)).flo = s.flo := by rw [hframe]
  unfold State.pairReported
  dsimp only
  rw [hstill]
  generalize s.clearMarks p (s.carriedRecords p) = t at hrec hframe hreports hpch hflo
  have hdark : ∀ q, (t.setDarkMark p false).darkMark q = if q = p then false else s.darkMark q := fun q => by
    rw [State.darkMark, State.setDarkMark, hpch]
    exact vector_get_set ..
  have hline : ∀ q, (t.setLineDarkMark p false).lineDarkMark q = if q = p then false else s.lineDarkMark q := fun q => by
    rw [State.lineDarkMark, State.setLineDarkMark, hflo]
    exact vector_get_set ..
  by_cases h : 128 < (s.markedRecords p).length
  · rw [decide_eq_true h, if_pos rfl, if_pos h, State.queueOrigin_eq]
    refine ⟨hrec, hdark, hline, ?_, ?_⟩
    · show joined t.clk.reports [.pair p] = _
      rw [hreports]
      exact if_neg hp
    · generalize t.lpt.records = records at hframe
      rw [hframe]
      rfl
  · rw [decide_eq_false h, if_neg Bool.false_ne_true, if_neg h]
    refine ⟨hrec, hdark, hline, congrArg Link.reports hreports, ?_⟩
    generalize t.lpt.records = records at hframe
    rw [hframe]
    rfl

/-- The body of a pair's report, byte by byte. -/
theorem pairReportBody_eq (s : State) (p : Pair) : pairReportBody s p (s.carriedRecords p)
    = BitVec.ofNat 8 p.val
      :: BitVec.ofNat 8 ((if s.darkMark p then 1 else 0) + (if s.lineDarkMark p then 2 else 0))
      :: BitVec.ofNat 8 (min 128 (s.markedRecords p).length)
      :: ((s.markedRecords p).take 128).flatMap (fun i =>
          u16 i.val ++ [BitVec.ofNat 8 (conditionCode (s.record i p).condition)]) := by
  unfold pairReportBody counted State.carriedRecords
  rw [List.length_take]
  rfl

/-- The report of a pair with no reply waiting (R184). -/
theorem State.chooseNext_pair {rest : List Origin} (h : s.clk.replies = []) (hr : s.clk.reports = .pair p :: rest) :
    s.chooseNext = ((s.setReports rest).pairReported p).setTransmitter
      (.report (reportFrame 0 0xE2 (pairReportBody s p (s.carriedRecords p)))) :=
  State.chooseNext_report h hr

/-- Settles O40: the pair's report, wherever the transmitter chooses. -/
theorem pairReportClearsItsMarks : Obligations.PairReportClearsItsMarks := by
  rintro p rest marked s hreplies hreports hp rfl
  obtain ⟨hrec, hdark, hline, hqueue, hframe⟩ := State.pairReported_eq (s := s.setReports rest) hp
  refine ⟨s.chooseNext, fun strap u hu => State.frameEnds_chooses hu, State.concludeEvent_idle, ?_⟩
  rw [State.chooseNext_pair hreplies hreports]
  generalize (s.setReports rest).pairReported p = t at hrec hdark hline hqueue hframe
  refine ⟨?_, hrec, hdark, hline, hqueue, ?_⟩
  · exact congrArg (fun b => Transmitter.report (reportFrame 0 0xE2 b)) (pairReportBody_eq s p)
  · generalize t.lpt.records = a, t.pch.dark = b, t.flo.lineDark = c, t.clk.reports = d at hframe
    rw [hframe]
    rfl

end Sys2Proof.Machine
end

section
/-! The resets: power-on, the break's reset, and the RESET request with the end of its reply (R21, R22, R172, R189 to R191). -/

namespace Sys2Proof.Machine

variable {s t v : State} {p : Pair} {strap : LineRate} {cause : ResetCause} {x y : Bool}

/-! ## The cold reset (R191) -/

theorem slotBytes_erased (c : List Host.Cell) (b : Fin 32) (slot : Nat) : slotBytes (erasedStore c b) slot
    = if slot / 256 = b.val then List.replicate 8 0xFF else slotBytes c slot := by
  split
  · rename_i hin
    unfold slotBytes
    repeat rw [slotByte_erased _ _ _ (by decide), if_pos hin]
    rfl
  · rename_i hout
    exact slotBytes_congr fun k hk => by rw [slotByte_erased _ _ _ hk, if_neg hout]

/-- Settles O2: each block of the cold reset stands at its constants. -/
theorem powerOnIsAColdReset : Obligations.PowerOnIsAColdReset := by
  intro strap s
  refine ⟨_, exec_powerOn strap s, fun i => rfl, fun i p => rfl, fun p => vector_get_replicate _ p,
    fun src => ⟨vector_get_replicate _ src, vector_get_replicate _ src⟩, fun c => vector_get_replicate _ c, fun c p => ?_,
    fun p => ⟨vector_get_replicate _ p, vector_get_replicate _ p⟩, rfl, rfl, rfl, rfl, rfl, rfl,
    fun p => ⟨vector_get_replicate _ p, vector_get_replicate _ p⟩, fun n => vector_get_replicate _ n, rfl, rfl,
    fun p => vector_get_replicate _ p, rfl, rfl, fun p => vector_get_replicate _ p, fun g => vector_get_replicate _ g,
    fun n => vector_get_replicate _ n, rfl, rfl, rfl, fun src => ?_, fun p i => rfl, rfl, rfl, rfl, fun slot i hi => ?_, rfl⟩
  · exact (congrArg (fun v : Vector Bool 16 => v[p]) (vector_get_replicate (Vector.replicate 16 true) c)).trans
      (vector_get_replicate true p)
  · refine (vector_get_set (Vector.replicate 8 3) (0 : Source) src (0 : Level)).trans ?_
    rw [vector_get_replicate]
  · show slotByte s.bst.cellsAfterReset slot i = _
    unfold BaselineStore.cellsAfterReset
    cases s.bst.op with
    | erasing block => exact slotByte_erased _ _ _ hi
    | idle => rfl
    | programming job => rfl
    | loading => rfl

/-! ## The image at a warm reset (R172) -/

/-- The state with the link's block replaced. -/
def State.withClk (s : State) (c : Link) : State := { s with clk := c }

/-- The statuses recomputed at a reset are the image's alone. -/
theorem State.recoverStatuses_imageOnly (s : State) : s.imageOnly s.recoverStatuses := by
  unfold State.recoverStatuses
  split
  · exact (s.unstoreBlock_eq _).1
  · exact (State.foldl_settleProgrammed _ _ s).1
  · rfl
  · rfl

/-- A status settled is settled alike whatever the link holds. -/
theorem State.settleProgrammed_withClk (s : State) (c : Link) (p : Pair) (z : Staged) :
    (s.withClk c).settleProgrammed p z = (s.settleProgrammed p z).withClk c := by
  unfold State.settleProgrammed
  have hb : (s.withClk c).baseline p z.index = s.baseline p z.index := rfl
  rw [hb]
  cases s.baseline p z.index with
  | none => rfl
  | some b =>
    cases z.baseline with
    | none => rfl
    | some d =>
      dsimp only
      split <;> rfl

theorem State.recoverStatuses_withClk (s : State) (c : Link) :
    (s.withClk c).recoverStatuses = s.recoverStatuses.withClk c := by
  unfold State.recoverStatuses
  have hop : (s.withClk c).bst.op = s.bst.op := rfl
  rw [hop]
  cases s.bst.op with
  | erasing block => exact List.foldl_hom (State.withClk · c) fun _ _ => rfl
  | programming job => exact List.foldl_hom (State.withClk · c) fun t z => t.settleProgrammed_withClk c _ z
  | idle => rfl
  | loading => rfl

/-! ## What a warm reset leaves queued (R22, R191) -/

/-- The state with the count of free values replaced. -/
def State.withFree (s : State) (k : Nat) : State := { s with freeCount := k }

/-- After a warm reset the queue holds the system origin before or after the marked pairs. -/
theorem State.queueAfterWarm_eq (s : State) : ∃ k l, s.queueAfterWarm = (s.withFree k).setReports l
    ∧ (l = .system :: s.markedPairs ∨ s.markedPairs ≠ [] ∧ l = s.markedPairs ++ [.system]) := by
  unfold State.queueAfterWarm
  split
  · rename_i h
    exact ⟨s.freeCount, [.system], rfl, .inl (by rw [h])⟩
  · rename_i h
    split
    · exact ⟨s.freeCount + 1, _, rfl, .inr ⟨h, rfl⟩⟩
    · exact ⟨s.freeCount + 1, _, rfl, .inl rfl⟩

/-- The blocks of a warm reset, before anything is queued. -/
def State.warmed (s : State) (cause : ResetCause) (strap : LineRate) (x y : Bool) : State :=
  s.recoverStatuses.warmBlocks cause strap x y

theorem State.warmReset_ready (h : s.clk.part = .ready) :
    s.warmReset cause strap x y = (s.warmed cause strap x y).queueAfterWarm.concludeEvent := by
  unfold State.warmReset
  rw [h]
  rfl

theorem State.warmReset_starting (h : s.clk.part = .starting) : s.warmReset cause strap x y = s.coldReset cause strap x y := by
  unfold State.warmReset
  rw [h]

/-- A warm reset begins the first report of its queue at once (R185; log 18). -/
theorem State.warmReset_chooses (h : s.clk.part = .ready) : ∃ k l,
    s.warmReset cause strap x y = (((s.warmed cause strap x y).withFree k).setReports l).chooseNext
    ∧ (s.warmed cause strap x y).queueAfterWarm = ((s.warmed cause strap x y).withFree k).setReports l
    ∧ (l = .system :: (s.warmed cause strap x y).markedPairs
      ∨ (s.warmed cause strap x y).markedPairs ≠ [] ∧ l = (s.warmed cause strap x y).markedPairs ++ [.system]) := by
  obtain ⟨k, l, heq, hl⟩ := (s.warmed cause strap x y).queueAfterWarm_eq
  exact ⟨k, l, by rw [State.warmReset_ready h, heq]; rfl, heq, hl⟩

/-- The first report after a warm reset is the system's, or a marked pair's. -/
theorem State.markedPairs_cases {l : List Origin}
    (hl : l = .system :: v.markedPairs ∨ v.markedPairs ≠ [] ∧ l = v.markedPairs ++ [.system]) :
    l = .system :: v.markedPairs
    ∨ ∃ p rest, allPairs.filter (fun p => v.pairMarked p) = p :: rest ∧ l = .pair p :: (rest.map Origin.pair ++ [.system]) := by
  refine hl.imp id ?_
  rintro ⟨hne, rfl⟩
  unfold State.markedPairs at hne ⊢
  generalize allPairs.filter (fun p => v.pairMarked p) = pairs at hne
  cases pairs with
  | nil => exact absurd rfl hne
  | cons p rest => exact ⟨p, rest, rfl, rfl⟩

theorem allPairs_nodup : allPairs.Nodup := by decide

/-! ## RESET (R189) -/

theorem exec_reset (h : Header) (which : Byte) (s : State) :
    exec (.reset h which) s = .next (s.takeFrame h 0x5F (isFlag which) 0 (answerReset which)) := rfl

/-- The state with the record of the last reset and the break flags replaced. -/
def State.resetMarks (s : State) (last : ResetKind × ResetCause) (x y : Bool) : State :=
  { s with clk := { s.clk with lastReset := last, lineAtSpace := x, breakSpent := y } }

variable {last : ResetKind × ResetCause}

/-- The blocks of a warm reset do not depend on the link, but for the source levels, and on the cause but for its record. -/
theorem State.warmed_withClk {c : Link} (hc : c.levels = s.clk.levels) (d : ResetCause) (a b : Bool) :
    (s.withClk c).warmed cause strap x y = (s.warmed d strap a b).resetMarks (.warm, cause) x y := by
  unfold State.warmed
  rw [State.recoverStatuses_withClk]
  have hkeep : s.recoverStatuses.clk = s.clk := by rw [s.recoverStatuses_imageOnly]
  have hlevels : c.levels = s.recoverStatuses.clk.levels := by rw [hkeep, hc]
  generalize s.recoverStatuses = w at hlevels
  unfold State.warmBlocks Link.warm
  show ({ w.warmBlocks d strap a b with
      clk := { (w.warmBlocks d strap a b).clk with
        levels := c.levels, lastReset := (.warm, cause), lineAtSpace := x, breakSpent := y } } : State) = _
  rw [hlevels]
  rfl

theorem State.resetMarks_queueAfterWarm (s : State) : (s.resetMarks last x y).queueAfterWarm
    = s.queueAfterWarm.resetMarks last x y := by
  unfold State.queueAfterWarm
  show (if s.markedPairs = [] then _ else if Config.pairsBeforeSystem s.freeCount then _ else _) = _
  split
  · rfl
  · split <;> rfl

theorem State.pairReported_resetMarks (s : State) (p : Pair) : (s.resetMarks last x y).pairReported p
    = (s.pairReported p).resetMarks last x y := by
  have hclear : (s.resetMarks last x y).clearMarks p (s.carriedRecords p)
      = (s.clearMarks p (s.carriedRecords p)).resetMarks last x y :=
    List.foldl_hom (State.resetMarks · last x y) fun _ _ => rfl
  unfold State.pairReported
  rw [show (s.resetMarks last x y).carriedRecords p = s.carriedRecords p from rfl, hclear]
  generalize s.clearMarks p (s.carriedRecords p) = w
  dsimp only
  rw [show ((((w.resetMarks last x y).setDarkMark p false).setLineDarkMark p false).pairMarked p)
    = ((w.setDarkMark p false).setLineDarkMark p false).pairMarked p from rfl]
  split
  · rw [State.queueOrigin_eq, State.queueOrigin_eq]
    rfl
  · rfl

/-- The report of a pair is built alike whatever reset is recorded. -/
theorem State.chooseNext_pair_resetMarks {rest : List Origin} (h : s.clk.replies = []) (hr : s.clk.reports = .pair p :: rest) :
    (s.resetMarks last x y).chooseNext = s.chooseNext.resetMarks last x y := by
  rw [State.chooseNext_pair (s := s.resetMarks last x y) h hr, State.chooseNext_pair h hr]
  exact congrArg (fun w : State => w.setTransmitter (.report (reportFrame 0 0xE2 (pairReportBody s p (s.carriedRecords p)))))
    ((s.setReports rest).pairReported_resetMarks p)

/-- The report of the system carries the record of the reset. -/
theorem State.chooseNext_system {rest : List Origin} (h : s.clk.replies = []) (hr : s.clk.reports = .system :: rest) :
    s.chooseNext = (s.setReports rest).setTransmitter (.report (reportFrame 0 0xE4 (systemReportBody s.clk.lastReset))) :=
  State.chooseNext_report h hr

/-- A reset by request and one by a break, from states that differ in the link alone. -/
theorem State.warmReset_request {c d : Link} (hc : c.levels = d.levels) (hcp : c.part = .ready) (hdp : d.part = .ready) :
    ∃ t u : State, (s.withClk c).warmReset .request strap x y = t
      ∧ (s.withClk d).warmReset .lineBreak strap true true = u
      ∧ t.clk.lastReset = (.warm, .request) ∧ t.clk.lineAtSpace = x ∧ t.clk.breakSpent = y
      ∧ (u.clk.transmitter = .report { source := 0, tag := 0, kind := 0xE4, body := [2, 3] } →
          t.clk.transmitter = .report { source := 0, tag := 0, kind := 0xE4, body := [2, 2] })
      ∧ (u.clk.transmitter ≠ .report { source := 0, tag := 0, kind := 0xE4, body := [2, 3] } →
          t.clk.transmitter = u.clk.transmitter)
      ∧ t = { u with clk := { u.clk with
          lastReset := t.clk.lastReset, lineAtSpace := t.clk.lineAtSpace, breakSpent := t.clk.breakSpent,
          transmitter := t.clk.transmitter } } := by
  obtain ⟨k, l, hu, hqueue, hl⟩ := State.warmReset_chooses (s := s.withClk d) (cause := .lineBreak) (strap := strap) (x := true)
    (y := true) hdp
  have hother : (s.withClk c).warmed .request strap x y
      = ((s.withClk d).warmed .lineBreak strap true true).resetMarks (.warm, .request) x y :=
    State.warmed_withClk (s := s.withClk d) hc _ _ _
  obtain ⟨k', l', ht, hqueue', -⟩ := State.warmReset_chooses (s := s.withClk c) (cause := .request) (strap := strap) (x := x)
    (y := y) hcp
  rw [← hqueue', hother, State.resetMarks_queueAfterWarm, hqueue] at ht
  rw [ht, hu]
  have hclear : ((((s.withClk d).warmed .lineBreak strap true true).withFree k).setReports l).clk.replies = [] := rfl
  have hreports : ((((s.withClk d).warmed .lineBreak strap true true).withFree k).setReports l).clk.reports = l := rfl
  have hlast : ((((s.withClk d).warmed .lineBreak strap true true).withFree k).setReports l).clk.lastReset
      = (.warm, .lineBreak) := rfl
  replace hl := State.markedPairs_cases hl
  generalize (((s.withClk d).warmed .lineBreak strap true true).withFree k).setReports l = w at hclear hreports hlast
  refine ⟨_, _, rfl, rfl, ?_⟩
  rcases hl with rfl | ⟨p, rest, -, rfl⟩
  · rw [State.chooseNext_system (s := w.resetMarks (.warm, .request) x y) hclear hreports, State.chooseNext_system hclear hreports,
      hlast]
    exact ⟨rfl, rfl, rfl, fun _ => rfl, fun h => absurd rfl h, rfl⟩
  · have hbody : w.chooseNext.clk.transmitter = .report (reportFrame 0 0xE2 (pairReportBody w p (w.carriedRecords p))) := by
      rw [State.chooseNext_pair hclear hreports]
      rfl
    rw [State.chooseNext_pair_resetMarks hclear hreports]
    refine ⟨rfl, rfl, rfl, fun h => ?_, fun _ => rfl, rfl⟩
    rw [hbody] at h
    exact absurd (congrArg LinkFrame.kind (Transmitter.report.inj h)) (show (0xE2 : Byte) ≠ 0xE4 by decide)

/-- Settles O41: RESET makes its reset pending, and the end of its reply carries it out. -/
theorem resetIsPendingUntilItsReplyIsSent : Obligations.ResetIsPendingUntilItsReplyIsSent := by
  refine ⟨fun h which src effective s ht hw => ?_, fun strap f rest s hf hkind hbody => ⟨fun hp => ?_, fun hp hready => ?_⟩⟩
  · have hanswer : answerReset which ⟨src, effective⟩ s
        = .ok (s.setPendingReset (if which = 0 then .cold else .warm), []) := rfl
    rw [exec_reset, takeFrame_accepts ht (isFlag_iff.2 hw) hanswer]
    exact ⟨rfl, Bool.and_false _⟩
  · have hreset : isResetReply f = true := isResetReply_iff.2 ⟨hkind, by rw [hbody]; rfl⟩
    exact ⟨_, exec_powerOn strap s, exec_transmissionEnd_reset hf hreset hp⟩
  · have hreset : isResetReply f = true := isResetReply_iff.2 ⟨hkind, by rw [hbody]; rfl⟩
    obtain ⟨t, u, ht, hu, hrest⟩ := State.warmReset_request (s := s) (c := s.replySent.clk)
      (d := { s.clk with lineAtSpace := true, breakSpent := false }) (strap := strap) (x := s.clk.lineAtSpace)
      (y := s.clk.breakSpent) rfl hready hready
    refine ⟨t, u, ?_, ?_, hrest⟩
    · rw [exec_transmissionEnd_reset hf hreset hp, ← ht]
      rfl
    · rw [exec_breakReset_due rfl rfl, ← hu]
      rfl

end Sys2Proof.Machine
end

section
/-! The break's reset: what a warm reset leaves, block by block (R22, R39, R59, R172, R190, R191). -/

namespace Sys2Proof.Machine

variable {s : State} {p : Pair} {strap : LineRate} {cause : ResetCause} {x y : Bool}

/-- What the reports of a warm reset may have written since its blocks were reset. -/
structure WarmReported where
  records : Table AmpRecord
  dark : Vector Bool 16
  lineDark : Vector Bool 16
  reports : List Origin
  transmitter : Transmitter
  freeCount : Nat

/-- The reset blocks with what the first report has written. -/
def State.afterReport (b : State) (w : WarmReported) : State :=
  { b with
    lpt := { b.lpt with records := w.records }
    pch := { b.pch with dark := w.dark }
    flo := { b.flo with lineDark := w.lineDark }
    clk := { b.clk with reports := w.reports, transmitter := w.transmitter }
    freeCount := w.freeCount }

/-- The two ways a warm reset's first report goes: the system's with every mark kept, or the first marked pair's. -/
def State.firstReport (b : State) (t : State) : Prop :=
  (t.clk.transmitter = .report (reportFrame 0 0xE4 (systemReportBody b.clk.lastReset)) ∧ t.clk.reports = b.markedPairs
    ∧ ∀ i q, t.record i q = b.record i q)
  ∨ ∃ p rest body, allPairs.filter (fun p => b.pairMarked p) = p :: rest
    ∧ t.clk.transmitter = .report (reportFrame 0 0xE2 (BitVec.ofNat 8 p.val :: body))
    ∧ t.clk.reports = rest.map Origin.pair ++ .system :: (if 128 < (b.markedRecords p).length then [.pair p] else [])
    ∧ ∀ i q, t.record i q
        = if q = p ∧ i ∈ (b.markedRecords p).take 128 then { b.record i q with changed := false } else b.record i q

/-- What is queued after a warm reset, and the first report taken from it. -/
theorem State.queued_afterReport (b : State) {k : Nat} {l : List Origin} (hclear : b.clk.replies = [])
    (hl : l = .system :: b.markedPairs ∨ b.markedPairs ≠ [] ∧ l = b.markedPairs ++ [Origin.system]) :
    ∃ w, ((b.withFree k).setReports l).chooseNext = b.afterReport w
      ∧ (∀ q, (b.afterReport w).darkMark q = true → b.darkMark q = true)
      ∧ (∀ q, (b.afterReport w).lineDarkMark q = true → b.lineDarkMark q = true)
      ∧ b.firstReport (b.afterReport w) := by
  rcases State.markedPairs_cases hl with rfl | ⟨p, rest, hpairs, rfl⟩
  · rw [State.chooseNext_system (s := (b.withFree k).setReports (.system :: b.markedPairs)) hclear rfl]
    exact ⟨⟨b.lpt.records, b.pch.dark, b.flo.lineDark, b.markedPairs, _, k⟩, rfl, fun _ => id, fun _ => id,
      .inl ⟨rfl, rfl, fun _ _ => rfl⟩⟩
  · have hfresh : Origin.pair p ∉ rest.map Origin.pair ++ [Origin.system] := by
      have hnodup := allPairs_nodup.filter (fun p => b.pairMarked p)
      rw [hpairs] at hnodup
      simpa using (List.nodup_cons.1 hnodup).1
    obtain ⟨hrec, hdark, hline, hqueue, hframe⟩ :=
      State.pairReported_eq (s := (b.withFree k).setReports (rest.map Origin.pair ++ [Origin.system])) hfresh
    rw [State.chooseNext_pair (s := (b.withFree k).setReports (Origin.pair p :: (rest.map Origin.pair ++ [Origin.system])))
      (rest := rest.map Origin.pair ++ [Origin.system]) hclear rfl]
    change ∃ w, ((((b.withFree k).setReports (rest.map Origin.pair ++ [Origin.system])).pairReported p).setTransmitter _) = _ ∧ _
    generalize ((b.withFree k).setReports (rest.map Origin.pair ++ [Origin.system])).pairReported p = t at hrec hdark hline hqueue hframe
    refine ⟨⟨t.lpt.records, t.pch.dark, t.flo.lineDark, t.clk.reports,
      .report (reportFrame 0 0xE2 (pairReportBody b p (b.carriedRecords p))), k⟩, ?_, fun q h => ?_, fun q h => ?_, .inr ⟨p, rest,
        pairMarksByte b p ++ counted (pairReportEntry b p) (b.carriedRecords p), hpairs, rfl, ?_, hrec⟩⟩
    · generalize t.lpt.records = r, t.pch.dark = d, t.flo.lineDark = l, t.clk.reports = q at hframe
      rw [hframe]
      rfl
    · have hq := (hdark q).symm.trans h
      by_cases hp : q = p
      · rw [if_pos hp] at hq
        cases hq
      · rwa [if_neg hp] at hq
    · have hq := (hline q).symm.trans h
      by_cases hp : q = p
      · rw [if_pos hp] at hq
        cases hq
      · rwa [if_neg hp] at hq
    · refine hqueue.trans ?_
      show (if 128 < (b.markedRecords p).length then _ else _) = _
      split
      · exact List.append_assoc ..
      · rfl

/-- A warm reset while READY: the reset blocks, and the first report over them. -/
theorem State.warmReset_afterReport (h : s.clk.part = .ready) :
    ∃ image w, image = s.recoverStatuses.bst.image
      ∧ s.warmReset cause strap x y
        = (({ s with bst := { s.bst with image := image } } : State).warmBlocks cause strap x y).afterReport w
      ∧ (∀ q, ((({ s with bst := { s.bst with image := image } } : State).warmBlocks cause strap x y).afterReport w).darkMark q = false)
      ∧ (∀ q, ((({ s with bst := { s.bst with image := image } } : State).warmBlocks cause strap x y).afterReport w).lineDarkMark q
          = false)
      ∧ (({ s with bst := { s.bst with image := image } } : State).warmBlocks cause strap x y).firstReport
          ((({ s with bst := { s.bst with image := image } } : State).warmBlocks cause strap x y).afterReport w) := by
  obtain ⟨k, l, heq, -, hl⟩ := State.warmReset_chooses (cause := cause) (strap := strap) (x := x) (y := y) h
  have himage := s.recoverStatuses_imageOnly
  rw [State.imageOnly] at himage
  refine ⟨s.recoverStatuses.bst.image, ?_⟩
  rw [State.warmed] at heq hl
  generalize s.recoverStatuses = r at himage heq hl
  generalize r.bst.image = image at himage
  subst himage
  rw [heq]
  obtain ⟨w, hw, hdark, hline, hfirst⟩ := State.queued_afterReport
    (({ s with bst := { s.bst with image := image } } : State).warmBlocks cause strap x y) (k := k) rfl hl
  refine ⟨w, rfl, hw, fun q => ?_, fun q => ?_, hfirst⟩
  · exact Bool.eq_false_iff.2 fun hq => Bool.false_ne_true ((vector_get_replicate false q).symm.trans (hdark q hq))
  · exact Bool.eq_false_iff.2 fun hq => Bool.false_ne_true ((vector_get_replicate false q).symm.trans (hline q hq))

/-! ## What a warm reset does to a record (R22) -/

theorem warmRecord_condition (r : AmpRecord) :
    (warmRecord r).condition = if r.condition = .isolating then .unresolved else r.condition := by
  unfold warmRecord
  split <;> rfl

theorem warmRecord_changed (r : AmpRecord) : (warmRecord r).changed = (r.changed || r.condition == .isolating) := by
  unfold warmRecord
  split
  · rename_i h
    simp [h]
  · rename_i h
    simp [h]

/-- A record of a warm reset, its changed mark cleared or not, differs in its condition and its mark alone. -/
theorem eq_of_warmRecord {r a : AmpRecord} (h : a = { warmRecord r with changed := a.changed }) :
    a.condition = (warmRecord r).condition ∧ a = { r with condition := a.condition, changed := a.changed } := by
  have hc : a.condition = (warmRecord r).condition := (congrArg AmpRecord.condition h :)
  have hr : ∀ c, ({ warmRecord r with changed := c } : AmpRecord)
      = { r with condition := (warmRecord r).condition, changed := c } := fun c => by
    unfold warmRecord
    split <;> rfl
  rw [hc]
  exact ⟨rfl, h.trans (hr _)⟩

theorem record_warmBlocks (s : State) (i : Index) (q : Pair) :
    (s.warmBlocks cause strap x y).record i q = warmRecord (s.record i q) := tableGet_tableMap rfl _ _

/-- Whichever report goes first, a record changes in its mark alone. -/
theorem State.firstReport_record {b t : State} (h : b.firstReport t) (i : Index) (q : Pair) :
    t.record i q = { b.record i q with changed := (t.record i q).changed } := by
  rcases h with ⟨-, -, hrec⟩ | ⟨p, rest, body, -, -, -, hrec⟩
  · rw [hrec]
  · rw [hrec]
    split <;> rfl

/-- The marked pairs and records, said of the marks themselves. -/
theorem State.pairMarked_eq {b : State} {marked : Index → Pair → Bool} (h : ∀ i p, (b.record i p).changed = marked i p) (p : Pair) :
    b.markedRecords p = (List.finRange 272).filter (fun i => marked i p)
    ∧ b.pairMarked p = (List.finRange 272).any (fun i => marked i p) := by
  have hrecords : b.markedRecords p = (List.finRange 272).filter (fun i => marked i p) :=
    List.filter_congr fun i _ => h i p
  refine ⟨hrecords, ?_⟩
  rw [State.pairMarked, hrecords, Bool.eq_iff_iff, Bool.not_eq_true', List.isEmpty_eq_false_iff_exists_mem, List.any_eq_true]
  simp only [List.mem_filter]

/-- A first report, said of the marks. -/
theorem State.firstReport_marked {b t : State} (h : b.firstReport t) {marked : Index → Pair → Bool}
    (hm : ∀ i p, (b.record i p).changed = marked i p) :
    t.clk.transmitter = .report (reportFrame 0 0xE4 (systemReportBody b.clk.lastReset))
      ∧ t.clk.reports = (allPairs.filter (fun p => (List.finRange 272).any (fun i => marked i p))).map Origin.pair
      ∧ (∀ i p, (t.record i p).changed = marked i p)
    ∨ ∃ (p : Pair) (rest : List Pair) (carried : List Index) (body : List Byte),
      allPairs.filter (fun p => (List.finRange 272).any (fun i => marked i p)) = p :: rest
      ∧ carried = (List.finRange 272).filter (fun i => marked i p)
      ∧ t.clk.transmitter = .report { source := 0, tag := 0, kind := 0xE2, body := BitVec.ofNat 8 p.val :: body }
      ∧ t.clk.reports = rest.map Origin.pair ++ .system :: (if 128 < carried.length then [.pair p] else [])
      ∧ ∀ i q, (t.record i q).changed = (marked i q && !(decide (q = p) && decide (i ∈ carried.take 128))) := by
  have hpairs : allPairs.filter (fun p => b.pairMarked p)
      = allPairs.filter (fun p => (List.finRange 272).any (fun i => marked i p)) :=
    List.filter_congr fun p _ => (State.pairMarked_eq hm p).2
  rcases h with ⟨htr, hreports, hrec⟩ | ⟨p, rest, body, hsplit, htr, hreports, hrec⟩
  · exact .inl ⟨htr, by rw [hreports, State.markedPairs, hpairs], fun i p => by rw [hrec, hm]⟩
  · refine .inr ⟨p, rest, _, body, hpairs.symm.trans hsplit, (State.pairMarked_eq hm p).1, ?_⟩
    refine ⟨htr, hreports, fun i q => ?_⟩
    rw [hrec, ← hm]
    by_cases hq : q = p <;> by_cases hi : i ∈ (b.markedRecords p).take 128 <;> simp [hq, hi]

/-! ## The store at a warm reset (R172) -/

theorem BaselineStore.cellsAfterReset_kept {b : BaselineStore} (h : ∀ block, b.op ≠ .erasing block) : b.cellsAfterReset = b.store := by
  unfold BaselineStore.cellsAfterReset
  cases hop : b.op with
  | erasing block => exact absurd hop (h block)
  | idle => rfl
  | programming job => rfl
  | loading => rfl

theorem BaselineStore.cellsAfterReset_erasing {b : BaselineStore} {block : Fin 32} (h : b.op = .erasing block) :
    b.cellsAfterReset = erasedStore b.store block := by
  unfold BaselineStore.cellsAfterReset
  rw [h]

theorem State.recoverStatuses_idle (h : s.bst.op = .idle) : s.recoverStatuses = s := by
  unfold State.recoverStatuses
  rw [h]

theorem State.recoverStatuses_erasing {block : Fin 32} (h : s.bst.op = .erasing block) :
    s.recoverStatuses = s.unstoreBlock block := by
  unfold State.recoverStatuses
  rw [h]

theorem State.recoverStatuses_programming {job : CommitJob} (h : s.bst.op = .programming job) :
    s.recoverStatuses = job.written.foldl (fun s x => s.settleProgrammed job.pair x) s := by
  unfold State.recoverStatuses
  rw [h]

/-- Settles O3: the warm reset's blocks and its first report, and the cold reset of a STARTING part. -/
theorem breakResetIsWarmOrColdByThePart : Obligations.BreakResetIsWarmOrColdByThePart := by
  refine ⟨fun strap s hready hspace hspent => ?_, fun strap s hstarting hspace hspent => ?_, fun strap s hspent => ?_⟩
  · obtain ⟨image, w, himage, heq, hdark, hline, hfirst⟩ :=
      State.warmReset_afterReport (cause := .lineBreak) (strap := strap) (x := true) (y := true) hready
    have hwarm : ∀ i p, (({ s with bst := { s.bst with image := image } } : State).warmBlocks .lineBreak strap true true).record i p
        = warmRecord (s.record i p) := record_warmBlocks _
    have hrecord := State.firstReport_record hfirst
    simp only [hwarm] at hrecord
    refine ⟨_, (exec_breakReset_due hspace hspent).trans (congrArg _ heq), fun i => entry_warmBlocks (s := s) .lineBreak strap true true i, fun i p => ?_,
      fun i p => ?_, fun p => rfl, fun src => ⟨rfl, vector_get_replicate _ src⟩, fun c => vector_get_replicate _ c, rfl, rfl, hdark,
      rfl, rfl, rfl, rfl, rfl, rfl, fun p => ⟨vector_get_replicate _ p, vector_get_replicate _ p⟩,
      fun n => vector_get_replicate _ n, rfl, rfl, fun p => vector_get_replicate _ p, rfl, rfl, hline, rfl, rfl,
      fun n => vector_get_replicate _ n, rfl, rfl, rfl, rfl, fun hop => ⟨?_, ?_⟩, fun block hop => ⟨fun slot => ?_, fun q i => ?_⟩,
      fun job hop => ⟨?_, fun q i => ?_⟩, rfl, fun marked pairs hmarked hpairs => ?_, rfl⟩
    · exact (eq_of_warmRecord (hrecord i p)).1.trans (warmRecord_condition _)
    · exact (eq_of_warmRecord (hrecord i p)).2
    · exact BaselineStore.cellsAfterReset_kept fun block h => by rw [hop] at h; cases h
    · exact himage.trans (by rw [State.recoverStatuses_idle hop])
    · exact (congrArg (slotBytes · slot) (BaselineStore.cellsAfterReset_erasing hop)).trans (slotBytes_erased _ _ _)
    · rw [State.recoverStatuses_erasing hop] at himage
      refine (congrArg (tableGet none · _) himage).trans (((s.unstoreBlock_eq block).2 q i).trans ?_)
      rw [unstored_eq]
    · exact BaselineStore.cellsAfterReset_kept fun block h => by rw [hop] at h; cases h
    · rw [State.recoverStatuses_programming hop] at himage
      refine (congrArg (tableGet none · _) himage).trans (((State.foldl_settleProgrammed job.written job.pair s).2 q i).trans ?_)
      cases s.baseline q i <;> rfl
    · subst hpairs
      exact State.firstReport_marked hfirst fun i p => by rw [hwarm, warmRecord_changed, hmarked]
  · exact ⟨_, _, (exec_breakReset_due hspace hspent).trans (congrArg _ (State.warmReset_starting hstarting)), exec_powerOn strap s,
      rfl⟩
  · exact if_neg fun h => Bool.false_ne_true (h.2.symm.trans hspent)

end Sys2Proof.Machine
end

section
/-! Lead-ins and period sums: settling, priming and coasting (R24, R33), the sums of R42 and R138 written out, and the cells a
period adds to (R43, R47). -/

namespace Sys2Proof.Machine

variable {s : State} {c : Chan}

/-! ## Lead-in (R24, R33, R48) -/

theorem exec_settleEnd {x : Holder} (hst : (s.channel c).state = .settling) (hh : (s.channel c).holder = some x) :
    exec (.settleEnd c) s = .next (s.beginPriming c x).concludeEvent := by
  show execSettleEnd c s = _
  unfold execSettleEnd
  rw [hst, hh]

theorem exec_primingPeriodEnd {x : Holder} (hst : (s.channel c).state = .priming) (hh : (s.channel c).holder = some x) :
    exec (.primingPeriodEnd c) s = .next ((s.beginPeriods c).clearMustPrime x).concludeEvent := by
  show execPrimingPeriodEnd c s = _
  unfold execPrimingPeriodEnd
  rw [hst, hh]

theorem exec_coastingPeriodStart (hst : (s.channel c).state = .coasting) (hh : (s.channel c).holder ≠ none) :
    exec (.coastingPeriodStart c) s = .next (s.beginPeriods c).concludeEvent := by
  obtain ⟨x, hx⟩ := Option.ne_none_iff_exists'.1 hh
  show execCoastingPeriodStart c s = _
  unfold execCoastingPeriodStart
  rw [hst, hx]

theorem Campaign.signature_applied {x : Campaign} {code : Nat} {reference : Code} (h : x.applied = some (code, reference)) :
    x.signature = { pair := x.pair, chip := x.requested.chip, sequence := x.requested.sequence, level := code,
                    reference := reference } := by
  unfold Campaign.signature
  rw [h]
  rfl

/-- Settles O45: each step of the lead-in. -/
theorem leadInReachesThePeriods : Obligations.LeadInReachesThePeriods := by
  intro c s
  refine ⟨fun n k lit code reference hst hh ha => ?_, fun k o hst hh ho => ?_, fun n k lit hst hh => ?_, fun k hst hh => ?_,
    fun hst hh => ?_⟩
  · rw [exec_settleEnd hst hh, ← Campaign.signature_applied ha]
    rfl
  · have hsig : s.holderSignature (.order k) = some o.signature := congrArg (Option.map Order.signature) ho
    rw [exec_settleEnd hst hh, State.beginPriming, hsig]
    rfl
  · rw [exec_primingPeriodEnd hst hh]
    rfl
  · rw [exec_primingPeriodEnd hst hh]
    rfl
  · rw [exec_coastingPeriodStart hst hh]
    rfl

/-! ## Period sums written out (R42, R138) -/

/-- A signed sum adds each sample with the sign of its bit. -/
theorem signedSum_eq (ss : List Sample) (bs : List Bool) (acc : Int) :
    signedSum ss bs acc = acc + (List.zipWith (fun x b => chipOf b * x.toInt) ss bs).sum := by
  induction ss generalizing bs acc with
  | nil => simp [signedSum]
  | cons x ss ih =>
    cases bs with
    | nil => simp [signedSum]
    | cons b bs =>
      rw [signedSum, ih, List.zipWith_cons_cons, List.sum_cons]
      cases b <;> simp only [chipOf] <;> grind

/-- The samples from a lag on are the period's samples rotated. -/
theorem laggedSamples_eq_rotate {samples : List Sample} (h : samples ≠ []) (lag : Int) :
    laggedSamples samples lag = samples.rotate (lag % samples.length).toNat := by
  have hlen : 0 < samples.length := List.length_pos_iff.2 h
  have hlt : (lag % samples.length).toNat < samples.length := by
    have := Int.emod_lt_of_pos lag (by exact_mod_cast hlen : (0 : Int) < samples.length)
    have := Int.emod_nonneg lag (by omega : (samples.length : Int) ≠ 0)
    omega
  rw [laggedSamples, List.rotate_eq_drop_append_take hlt.le]

/-- The place that chip `n` of a period reads at a lag. -/
theorem lagged_index (lag : Int) {n length : Nat} (h : 0 < length) :
    (n + (lag % length).toNat) % length = (((n : Int) + lag) % length).toNat := by
  have hcast : ((lag % length).toNat : Int) = lag % length :=
    Int.toNat_of_nonneg (Int.emod_nonneg lag (by omega))
  have : (((n + (lag % length).toNat) % length : Nat) : Int) = ((n : Int) + lag) % length := by
    rw [Int.natCast_emod, Int.natCast_add, hcast, Int.add_emod_emod]
  omega

/-- A signed sum over lagged samples, chip by chip. -/
theorem signedSum_lagged {bits : List Bool} {samples : List Sample} (hb : bits.length = samples.length) (lag : Int) :
    signedSum (laggedSamples samples lag) bits 0
      = ((List.range samples.length).map (fun n =>
          chipOf (bits.getD n false) * (samples.getD (((n : Int) + lag) % samples.length).toNat 0).toInt)).sum := by
  rw [signedSum_eq, Int.zero_add]
  by_cases hne : samples = []
  · subst hne
    simp [laggedSamples]
  rw [laggedSamples_eq_rotate hne]
  refine congrArg List.sum (List.ext_getElem (by simp [hb]) fun n h1 h2 => ?_)
  have hn : n < samples.length := by simpa using h2
  have hlen : 0 < samples.length := by omega
  have hidx := lagged_index lag (n := n) hlen
  have hlt : (((n : Int) + lag) % samples.length).toNat < samples.length := by
    rw [← hidx]
    exact Nat.mod_lt _ hlen
  rw [List.getElem_zipWith, List.getElem_map, List.getElem_range, List.getElem_rotate, List.getD_eq_getElem _ _ (hb ▸ hn),
    List.getD_eq_getElem _ _ hlt]
  congr 3

theorem length_sequenceBits (taps : List Nat) (n : Nat) (w : List Bool) : (sequenceBits taps n w).length = n := by
  induction n generalizing w with
  | zero => rfl
  | succ n ih => rw [sequenceBits, List.length_cons, ih]

theorem length_probeBits (sequence : Code) : (probeBits sequence).length = sequenceLength sequence := length_sequenceBits ..

/-- The model's period sum is the written one (R42). -/
theorem periodSum_eq {sequence : Code} {samples : List Sample} (h : samples.length = sequenceLength sequence) (d : Nat) (o : Int) :
    periodSum (probeBits sequence) samples d o = writtenSum sequence samples d o := by
  rw [periodSum, signedSum_lagged ((length_probeBits sequence).trans h.symm), writtenSum, h]
  simp only [Int.add_assoc]

/-- The polarity a chip's echo was driven with: this period's below the period's end, the previous one's from there on. -/
theorem getD_drivenBits (bits : List Bool) (lag : Int) (inverted previous : Bool) {n : Nat} (hn : n < bits.length) :
    (drivenBits bits lag inverted previous).getD n false
      = xor (if (n : Int) + lag ≤ bits.length - 1 then inverted else previous) (bits.getD n false) := by
  unfold drivenBits
  rw [List.getD_eq_getElem _ _ (by simp; omega), List.getD_eq_getElem _ _ hn, List.getElem_append]
  have hlen : ((bits.take (bits.length - lag.toNat)).map (xor inverted)).length = bits.length - lag.toNat := by simp
  split
  · rename_i h
    rw [if_pos (by omega), List.getElem_map, List.getElem_take]
  · rename_i h
    rw [if_neg (by omega), List.getElem_map, List.getElem_drop]
    congr 2
    omega

theorem length_drivenBits (bits : List Bool) (lag : Int) (inverted previous : Bool) :
    (drivenBits bits lag inverted previous).length = bits.length := by
  simp [drivenBits]

/-- The model's burst period sum is the written one (R138). -/
theorem isuPeriodSum_eq {sequence : Code} {samples : List Sample} (h : samples.length = sequenceLength sequence) (d : Nat) (o : Int)
    (inverted previous : Bool) :
    isuPeriodSum (probeBits sequence) samples d o inverted previous = heardSum sequence samples d o inverted previous := by
  have hlen := length_probeBits sequence
  rw [isuPeriodSum, signedSum_lagged ((length_drivenBits ..).trans (hlen.trans h.symm)), heardSum, h]
  refine congrArg List.sum (List.map_congr_left fun n hn => ?_)
  rw [getD_drivenBits _ _ _ _ (hlen ▸ List.mem_range.1 hn), hlen, Int.add_assoc]
  congr 1
  split
  · cases inverted <;> cases (probeBits sequence).getD n false <;> rfl
  · cases previous <;> cases (probeBits sequence).getD n false <;> rfl

/-! ## The cells a period adds to (R43, R47) -/

theorem tableGet_tableSet (t : Table Int) (k x : Nat) (v : Int) :
    tableGet 0 (tableSet 0 t k v) x = if x = k then v else tableGet 0 t x := by
  split
  · rename_i h
    rw [h, tableGet_tableSet_same]
  · rename_i h
    exact tableGet_tableSet_ne _ _ _ h

/-- Sums added to cells one after another, each at its own place. -/
theorem tableGet_foldl_add (place : Int → Nat) (sum : Int → Int) (l : List Int) (t : Table Int) (x : Nat) :
    tableGet 0 (l.foldl (fun t o => tableSet 0 t (place o) (tableGet 0 t (place o) + sum o)) t) x
      = tableGet 0 t x + (l.map (fun o => if x = place o then sum o else 0)).sum := by
  induction l generalizing t with
  | nil => simp
  | cons o l ih =>
    rw [List.foldl_cons, ih, tableGet_tableSet, List.map_cons, List.sum_cons]
    split
    · rename_i h
      rw [← h]
      exact Int.add_assoc ..
    · rw [Int.zero_add]

variable {bits : List Bool} {samples : List Sample} {d a : Nat} {t : Table Int}

theorem tableGet_addPeriod_at {o : Int} (h1 : -2 ≤ o) (h2 : o ≤ 2) :
    tableGet 0 (addPeriod bits samples d a t) (a + (o + 2).toNat)
      = tableGet 0 t (a + (o + 2).toNat) + periodSum bits samples d o := by
  rw [addPeriod, tableGet_foldl_add (cellAddress a)]
  obtain ⟨k, hk, rfl⟩ : ∃ k : Nat, k < 5 ∧ o = (k : Int) - 2 := ⟨(o + 2).toNat, by omega, by omega⟩
  interval_cases k <;> simp [cellAddress]

theorem tableGet_addPeriod_out {x : Nat} (h : x < a ∨ a + 5 ≤ x) :
    tableGet 0 (addPeriod bits samples d a t) x = tableGet 0 t x := by
  have hat : x ≠ a := by omega
  have hne : ∀ k, k < 5 → x ≠ a + k := by omega
  rw [addPeriod, tableGet_foldl_add (cellAddress a)]
  simp [cellAddress, hat, hne 1, hne 2, hne 3, hne 4]

variable {els : List Element}

theorem tableGet_addPeriods_out (els : List Element) {a x : Nat} {t : Table Int} (h : x < a ∨ a + 5 * els.length ≤ x) :
    tableGet 0 (addPeriods bits samples a els t) x = tableGet 0 t x := by
  induction els generalizing a t with
  | nil => rfl
  | cons e els ih =>
    rw [List.length_cons] at h
    rw [addPeriods, ih (by omega), tableGet_addPeriod_out (by omega)]

theorem tableGet_addPeriods_at (els : List Element) {a : Nat} {t : Table Int} {k : Nat} {e : Element} {o : Int}
    (he : els[k]? = some e) (h1 : -2 ≤ o) (h2 : o ≤ 2) :
    tableGet 0 (addPeriods bits samples a els t) (a + 5 * k + (o + 2).toNat)
      = tableGet 0 t (a + 5 * k + (o + 2).toNat) + periodSum bits samples e.lag o := by
  induction els generalizing a t k with
  | nil => simp at he
  | cons f els ih =>
    cases k with
    | zero =>
      obtain rfl : f = e := Option.some.inj he
      rw [addPeriods, tableGet_addPeriods_out els (by omega), Nat.mul_zero, Nat.add_zero, tableGet_addPeriod_at h1 h2]
    | succ k =>
      have hplace : a + 5 * (k + 1) + (o + 2).toNat = a + 5 + 5 * k + (o + 2).toNat := by omega
      rw [hplace, addPeriods, ih (List.getElem?_cons_succ ▸ he), tableGet_addPeriod_out (by omega)]

end Sys2Proof.Machine
end

section
/-! The periods of a slice and of an order burst: accumulation (R36, R47), the reference (R137), the word (R139, R140) and the
listening bits (R142). -/

namespace Sys2Proof.Machine

variable {s : State} {c : Chan} {samples : List Sample} {n : Slot}

/-! ## Slice periods (R36, R47) -/

theorem exec_slicePeriodEnd {remaining : Nat} {lit present : Bool} (hst : (s.channel c).state = .periods)
    (hh : (s.channel c).holder = some (.slice n remaining lit))
    (hlen : samples.length = sequenceLength (s.campaign n).requested.sequence) :
    exec (.slicePeriodEnd c present samples) s = .next (s.slicePeriod c n remaining lit present samples).concludeEvent := by
  show execSlicePeriodEnd c present samples s = _
  unfold execSlicePeriodEnd
  rw [hst, hh]
  exact if_pos hlen

/-- An accepted period writes the campaign's count and its cells alone (R47). -/
theorem State.acceptPeriod_eq {start length : Nat} (hext : (s.campaign n).extent = some (start, length)) :
    s.acceptPeriod n samples = { s with
      ecr := { s.ecr with
        cells := (addPeriods (probeBits (s.campaign n).requested.sequence) samples start (s.campaign n).elements s.ecr.cells) }
      cen := { s.cen with slots := s.cen.slots.set n { s.campaign n with accepted := (s.campaign n).accepted + 1 } } } := by
  unfold State.acceptPeriod
  dsimp only
  rw [hext]
  rfl

/-- The cells of a campaign's elements after an accepted period: each grown by its written sum, the others as they were. -/
theorem State.cell_acceptPeriod {start : Nat} {els : List Element} {x : Campaign} {t : State}
    (ht : t.ecr.cells = addPeriods (probeBits x.requested.sequence) samples start els s.ecr.cells)
    (hlen : samples.length = sequenceLength x.requested.sequence) :
    (∀ (k : Nat) (e : Element) (o : Int), els[k]? = some e → -2 ≤ o → o ≤ 2 →
        t.cell (start + 5 * k + (o + 2).toNat) = s.cell (start + 5 * k + (o + 2).toNat)
          + writtenSum x.requested.sequence samples e.lag o)
    ∧ ∀ a, a < start ∨ start + 5 * els.length ≤ a → t.cell a = s.cell a := by
  refine ⟨fun k e o he h1 h2 => ?_, fun a ha => ?_⟩
  · rw [State.cell, ht, tableGet_addPeriods_at els he h1 h2, periodSum_eq hlen]
    rfl
  · rw [State.cell, ht]
    exact tableGet_addPeriods_out els ha

/-- A slice with periods left to take goes on (R34). -/
theorem State.slicePeriod_goesOn {remaining : Nat} {lit present : Bool} (hr : 2 ≤ remaining)
    (ha : ((s.takePeriod n present samples).campaign n).accepted < ((s.takePeriod n present samples).campaign n).periods) :
    s.slicePeriod c n remaining lit present samples
      = (s.takePeriod n present samples).setChannel c
          { (s.takePeriod n present samples).channel c with holder := some (.slice n (remaining - 1) (lit || present)) } := by
  unfold State.slicePeriod
  exact if_neg (not_or.2 ⟨by omega, Nat.not_le.2 ha⟩)

/-- Settles O46: the discarded period and the accepted one. -/
theorem slicePeriodsAccumulate : Obligations.SlicePeriodsAccumulate := by
  intro c n remaining lit samples start s hst hh hr hlen hext
  refine ⟨fun ha => ?_, fun ha => ?_⟩
  · rw [exec_slicePeriodEnd hst hh hlen, State.slicePeriod_goesOn (present := false) hr ha, Bool.or_false]
    rfl
  · have htake : s.takePeriod n true samples = s.acceptPeriod n samples := rfl
    have haccept := State.acceptPeriod_eq (samples := samples) hext
    have hcampaign : (s.acceptPeriod n samples).campaign n = { s.campaign n with accepted := (s.campaign n).accepted + 1 } := by
      rw [haccept]
      exact (vector_get_set ..).trans (if_pos rfl)
    rw [exec_slicePeriodEnd hst hh hlen, State.slicePeriod_goesOn (present := true) hr (by rw [htake, hcampaign]; exact ha),
      Bool.or_true, htake]
    have hchannel : (s.acceptPeriod n samples).channel c = s.channel c := by rw [haccept]; rfl
    rw [hchannel]
    obtain ⟨t, hdef⟩ : ∃ t, t = (s.acceptPeriod n samples).setChannel c
        { s.channel c with holder := some (.slice n (remaining - 1) true) } := ⟨_, rfl⟩
    have hat : t.channel c = { s.channel c with holder := some (.slice n (remaining - 1) true) } := by
      rw [hdef, State.channel_setChannel, if_pos rfl]
    have hnow : t.campaign n = { s.campaign n with accepted := (s.campaign n).accepted + 1 } := by
      rw [hdef]
      exact hcampaign
    obtain ⟨hin, hout⟩ := State.cell_acceptPeriod (s := s) (t := t) (els := (s.campaign n).elements) (x := s.campaign n)
      (start := start) (by rw [hdef, haccept]; rfl) hlen
    refine ⟨t, by rw [hdef], hat, hnow, hin, hout, ?_⟩
    rw [hat, hnow, hdef, haccept]
    rfl

/-! ## Burst periods -/

variable {k : OrderNo} {o : Order}

theorem State.burstOn_eq (hst : (s.channel c).state = .periods) (hh : (s.channel c).holder = some (.order k))
    (ho : s.order k = some o) : s.burstOn c = some (k, o) := by
  unfold State.burstOn
  rw [hst, hh]
  dsimp only
  rw [ho]
  rfl

theorem exec_wordPeriodEnd (hb : s.burstOn c = some (k, o)) (hst : o.state = .sending) :
    exec (.wordPeriodEnd c) s = .next (s.wordPeriod c k o).concludeEvent := by
  show execWordPeriodEnd c s = _
  unfold execWordPeriodEnd
  rw [hb]
  exact if_pos hst

theorem exec_listeningPeriodEnd (hb : s.burstOn c = some (k, o)) (hst : o.state = .listening)
    (hlen : samples.length = sequenceLength o.sequence) :
    exec (.listeningPeriodEnd c samples) s = .next (s.listeningPeriod c k o samples).concludeEvent := by
  show execListeningPeriodEnd c samples s = _
  unfold execListeningPeriodEnd
  rw [hb]
  exact (if_neg (not_not_intro hst)).trans (if_pos hlen)

theorem exec_referencePeriodEnd (hb : s.burstOn c = some (k, o)) (hst : o.state = .referencing)
    (hlen : samples.length = sequenceLength o.sequence) :
    exec (.referencePeriodEnd c samples) s = .next (s.referencePeriod c k o samples).concludeEvent := by
  show execReferencePeriodEnd c samples s = _
  unfold execReferencePeriodEnd
  rw [hb]
  exact (if_neg (not_not_intro hst)).trans (if_pos hlen)

/-! ## The word (R139, R140) -/

theorem getD_byteBits (b : Byte) {i : Nat} (hi : i < 8) : (byteBits b).getD i false = b.getMsbD i := by
  interval_cases i <;> rfl

/-- A bit of a run of bytes is a bit of the byte it falls in. -/
theorem getD_flatMap_byteBits (l : List Byte) (i : Nat) (hi : i < 8 * l.length) :
    (l.flatMap byteBits).getD i false = (l.getD (i / 8) 0).getMsbD (i % 8) := by
  induction l generalizing i with
  | nil => simp at hi
  | cons b l ih =>
    rw [List.length_cons] at hi
    rw [List.flatMap_cons]
    have hlen : (byteBits b).length = 8 := rfl
    by_cases h : i < 8
    · rw [List.getD_append _ _ _ _ (hlen ▸ h), getD_byteBits b h, Nat.div_eq_of_lt h, Nat.mod_eq_of_lt h]
      rfl
    · obtain ⟨j, rfl⟩ := Nat.exists_eq_add_of_le (Nat.not_lt.1 h)
      rw [List.getD_append_right _ _ _ _ (by omega), hlen, Nat.add_sub_cancel_left, ih j (by omega), Nat.add_comm 8 j,
        Nat.add_div_right j (by decide), Nat.add_mod_right]
      rfl

/-- Four bytes as one number, most significant first. -/
theorem testBit_word (b0 b1 b2 b3 : Byte) {i : Nat} (hi : i < 32) :
    ([b0, b1, b2, b3].getD (i / 8) 0).getMsbD (i % 8)
      = (b0.toNat * 2 ^ 24 + b1.toNat * 2 ^ 16 + b2.toNat * 2 ^ 8 + b3.toNat).testBit (31 - i) := by
  have hword : (b0 ++ b1 ++ b2 ++ b3 : BitVec 32).toNat
      = b0.toNat * 2 ^ 24 + b1.toNat * 2 ^ 16 + b2.toNat * 2 ^ 8 + b3.toNat := by
    rw [BitVec.toNat_append, ← Nat.shiftLeft_add_eq_or_of_lt b3.isLt, BitVec.toNat_append,
      ← Nat.shiftLeft_add_eq_or_of_lt b2.isLt, BitVec.toNat_append, ← Nat.shiftLeft_add_eq_or_of_lt b1.isLt]
    simp only [Nat.shiftLeft_eq]
    omega
  have hbit : (b0 ++ b1 ++ b2 ++ b3 : BitVec 32).getMsbD i
      = (b0.toNat * 2 ^ 24 + b1.toNat * 2 ^ 16 + b2.toNat * 2 ^ 8 + b3.toNat).testBit (31 - i) := by
    rw [BitVec.getMsbD_eq_getLsbD, decide_eq_true hi, Bool.true_and, BitVec.getLsbD, hword]
  rw [← hbit, BitVec.getMsbD_append, BitVec.getMsbD_append, BitVec.getMsbD_append]
  interval_cases i <;> rfl

/-- The bit a word period sends is the word's bit, most significant first. -/
theorem sentBit_eq (o : Order) (h : o.phase < 32) : sentBit o = (orderWordNumber o).testBit (31 - o.phase) := by
  have hcode : (BitVec.ofNat 8 (actionCode o.action * 16 + o.pair.val) : Byte).toNat = actionCode o.action * 16 + o.pair.val := by
    rw [BitVec.toNat_ofNat]
    have := o.pair.isLt
    have : actionCode o.action ≤ 7 := by cases o.action <;> decide
    omega
  unfold sentBit wordBits
  rw [getD_flatMap_byteBits _ _ h]
  unfold orderWord
  rw [testBit_word _ _ _ _ h, hcode]
  refine congrArg (Nat.testBit · _) ?_
  have hcheck : ∀ x y z : Byte, (255 - (x + y + z) : Byte).toNat = 255 - (x.toNat + y.toNat + z.toNat) % 256 := by
    intro x y z
    bv_omega
  rw [hcheck, hcode]
  unfold orderWordNumber
  cases o.action <;> rfl

/-- What a listening period reads, its sum written out (R142). -/
theorem State.heardBit_eq {peak : Int} {reference : Nat} (hlen : samples.length = sequenceLength o.sequence)
    (hp : o.offset = some peak) (hr : o.reference = some reference) : s.heardBit c o samples
      = decide (reference ≤ 2 * nearestDiv ((heardSum o.sequence samples o.lag peak false (s.lastInverted c)).natAbs * 256)
          (sequenceLength o.sequence)) := by
  unfold State.heardBit
  rw [hp, hr]
  dsimp only [Option.getD]
  rw [isuPeriodSum_eq hlen, amplitude, Nat.one_mul]

/-- Settles O51: the word's bits, the listening bits, and the burst sum written out. -/
theorem wordAndListeningPeriods : Obligations.WordAndListeningPeriods := by
  refine ⟨fun c k o s hst hh ho => ⟨fun hsend hphase => ?_, fun samples peak reference hlisten hw hlen hp hr => ?_⟩,
    fun sequence samples d o inverted previous hlen => isuPeriodSum_eq hlen d o inverted previous⟩
  · rw [exec_wordPeriodEnd (State.burstOn_eq hst hh ho) hsend, State.wordPeriod, sentBit_eq o hphase]
    have hlast : o.phase + 1 < 32 ↔ o.phase < 31 := by omega
    rw [if_congr hlast rfl rfl]
    rfl
  · have hmore : (o.window ++ [s.heardBit c o samples]).length < 12 := by rw [List.length_append]; exact Nat.succ_lt_succ hw
    rw [exec_listeningPeriodEnd (State.burstOn_eq hst hh ho) hlisten hlen, State.listeningPeriod]
    dsimp only
    rw [if_pos hmore, State.heardBit_eq hlen hp hr]
    rfl

/-! ## The reference (R137, R138) -/

/-- One of the five working cells of a channel. -/
theorem State.workingCell_set {cells : Vector Int 5} (hw : s.isu.working[c] = cells) (x : Int) :
    s.workingCell c x = cells.toList.getD (x + 2).toNat 0 := by
  rw [State.workingCell, hw]

/-- The five working cells after a reference period. -/
def State.referenceCells (s : State) (c : Chan) (o : Order) (samples : List Sample) : Vector Int 5 :=
  #v[s.workingCell c (-2) + heardSum o.sequence samples o.lag (-2) false (s.lastInverted c),
     s.workingCell c (-1) + heardSum o.sequence samples o.lag (-1) false (s.lastInverted c),
     s.workingCell c 0 + heardSum o.sequence samples o.lag 0 false (s.lastInverted c),
     s.workingCell c 1 + heardSum o.sequence samples o.lag 1 false (s.lastInverted c),
     s.workingCell c 2 + heardSum o.sequence samples o.lag 2 false (s.lastInverted c)]

theorem State.addReference_eq (hlen : samples.length = sequenceLength o.sequence) :
    s.addReference c o samples = s.setWorking c (s.referenceCells c o samples) := by
  unfold State.addReference State.referenceCells
  dsimp only
  rw [isuPeriodSum_eq hlen, isuPeriodSum_eq hlen, isuPeriodSum_eq hlen, isuPeriodSum_eq hlen, isuPeriodSum_eq hlen]

/-- The state after a reference period's sums, its polarity upright. -/
def State.referenceTaken (s : State) (c : Chan) (o : Order) (samples : List Sample) : State :=
  (s.setWorking c (s.referenceCells c o samples)).setInverted c false

theorem State.workingCell_referenceTaken {x : Int} (h1 : -2 ≤ x) (h2 : x ≤ 2) :
    (s.referenceTaken c o samples).workingCell c x
      = s.workingCell c x + heardSum o.sequence samples o.lag x false (s.lastInverted c) := by
  have hcells : (s.referenceTaken c o samples).isu.working[c] = s.referenceCells c o samples :=
    (vector_get_set ..).trans (if_pos rfl)
  rw [State.workingCell_set hcells]
  obtain ⟨i, hi, rfl⟩ : ∃ i : Nat, i < 5 ∧ x = (i : Int) - 2 := ⟨(x + 2).toNat, by omega, by omega⟩
  interval_cases i <;> rfl

theorem State.referencePeriod_eq (hlen : samples.length = sequenceLength o.sequence) : s.referencePeriod c k o samples
    = if o.phase + 1 < 4 then (s.referenceTaken c o samples).setOrder k (some { o with phase := o.phase + 1 })
      else (s.referenceTaken c o samples).judgeReference c k ((s.referenceTaken c o samples).measuredReference c o) := by
  unfold State.referencePeriod
  rw [State.addReference_eq hlen]
  rfl

/-- Two peaks over each other are one. -/
theorem peak_unique {value : Int → Int} {a b : Int} (ha : a ≠ b → peaksOver value b a) (hb : b ≠ a → peaksOver value a b) :
    a = b := by
  by_contra hne
  have h1 := ha hne
  have h2 := hb (Ne.symm hne)
  unfold peaksOver preferred at h1 h2
  omega

/-- A record whose reference has been measured (R137). -/
def Order.measured (o : Order) (reference : Nat) (peak : Int) : Order :=
  { o with phase := 4, reference := some reference, offset := some peak }

/-- The reference measured is that of the peak of the written sums (R137). -/
theorem State.measuredReference_eq {sum : Int → Int} {peak : Int} {reference : Nat} (h1 : -2 ≤ peak) (h2 : peak ≤ 2)
    (hsum : ∀ x, sum x = s.workingCell c x + heardSum o.sequence samples o.lag x false (s.lastInverted c))
    (hpeak : ∀ x, -2 ≤ x → x ≤ 2 → x ≠ peak → peaksOver sum peak x)
    (href : reference = nearestDiv ((sum peak).natAbs * 256) (4 * sequenceLength o.sequence)) :
    (s.referenceTaken c o samples).measuredReference c o
      = o.measured reference peak := by
  have hcell : ∀ x, -2 ≤ x → x ≤ 2 → (s.referenceTaken c o samples).workingCell c x = sum x := fun x ha hb =>
    (State.workingCell_referenceTaken ha hb).trans (hsum x).symm
  obtain ⟨g1, g2, g3⟩ := peakOffset_spec ((s.referenceTaken c o samples).workingCell c)
  have hover : ∀ a b, -2 ≤ a → a ≤ 2 → -2 ≤ b → b ≤ 2 →
      (peaksOver ((s.referenceTaken c o samples).workingCell c) a b ↔ peaksOver sum a b) := fun a b a1 a2 b1 b2 => by
    unfold peaksOver
    rw [hcell a a1 a2, hcell b b1 b2]
  have hat : peakOffset ((s.referenceTaken c o samples).workingCell c) = peak := by
    refine peak_unique (value := sum) (fun hne => hpeak _ g1 g2 hne) fun hne => ?_
    exact (hover _ _ g1 g2 h1 h2).1 (g3 peak h1 h2 hne)
  unfold State.measuredReference
  dsimp only
  rw [hat, hcell peak h1 h2, href]
  rfl

/-- A burst that ends without a reference (R145, R147). -/
theorem State.endBurst_failOrder_eq (s : State) (k : OrderNo) (o : Order) (c : Chan) (reason : Reason) (condition : Condition) :
    ∃ (t : State) (slots : Vector Campaign 32),
      t = ((s.setOrder k (some { o with channel := none })).endBurst c o.pair).failOrder k o reason condition
      ∧ s.topZeroed o.pair slots t.ecr.cells ∧ s.orderMarks t o.entry o.pair condition
      ∧ t = { s with
          lpt := { s.lpt with entries := t.lpt.entries, records := t.lpt.records }
          pch := { s.pch with channels := s.pch.channels.set c { s.channel c with state := .coasting, holder := none } }
          ecr := { s.ecr with cells := t.ecr.cells }
          cen := { s.cen with slots := slots.set o.reserved {} }
          isu := { s.isu with orders := s.isu.orders.set k (some { o with state := .doneFailed, reason := some reason, channel := none }) }
          clk := { s.clk with reports := s.orderOrigins k o condition } } := by
  obtain ⟨slots, cells, hzeroed, hzero⟩ := ((s.setOrder k (some { o with channel := none })).coast c).zeroChainTop_eq o.pair
  obtain ⟨hmarks, hframe⟩ := ((s.setOrder k (some { o with channel := none })).endBurst c o.pair).failOrder_eq k o reason condition
  refine ⟨_, slots, rfl, ?_⟩
  unfold State.endBurst at hmarks hframe ⊢
  rw [hzero] at hmarks hframe ⊢
  generalize State.failOrder _ k o reason condition = t at hmarks hframe ⊢
  have hcells : t.ecr.cells = cells := by rw [hframe]
  refine ⟨by rw [hcells]; exact hzeroed, hmarks, ?_⟩
  rw [hcells]
  generalize t.lpt.entries = entries, t.lpt.records = records at hframe ⊢
  rw [hframe]
  simp only [State.setOrder, State.coast, State.setChannel, State.channel, Vector.set_set]
  rfl

theorem State.judgeReference_heard {r : Nat} (hr : o.reference = some r) (hf : s.ecr.floor ≤ r) :
    s.judgeReference c k o = s.setOrder k (some o.sending) := by
  unfold State.judgeReference
  rw [hr]
  exact if_neg (Nat.not_lt.2 hf)

theorem State.judgeReference_silent {r : Nat} (hr : o.reference = some r) (hf : r < s.ecr.floor) :
    s.judgeReference c k o = ((s.setOrder k (some { o with channel := none })).endBurst c o.pair).failOrder k o .noReference
      o.conditionIfUnheard := by
  unfold State.judgeReference
  rw [hr]
  exact if_pos hf

/-- Settles O50: a reference period that is followed by another, and the fourth, with and without a reference. -/
theorem referencePeriodsMeasureTheEcho : Obligations.ReferencePeriodsMeasureTheEcho := by
  intro c k o samples sum s hst hh ho hstate hlen hsum
  have hexec := exec_referencePeriodEnd (State.burstOn_eq hst hh ho) hstate hlen
  rw [State.referencePeriod_eq hlen] at hexec
  refine ⟨fun hphase => ?_, fun peak reference hphase h1 h2 hpeak href => ⟨fun hfloor => ?_, fun hfloor condition hc => ?_⟩⟩
  · rw [if_pos (by omega)] at hexec
    have horder : ((s.referenceTaken c o samples).setOrder k (some { o with phase := o.phase + 1 })).order k
        = some { o with phase := o.phase + 1 } := (vector_get_set ..).trans (if_pos rfl)
    refine ⟨_, hexec, fun x a b => (State.workingCell_referenceTaken a b).trans (hsum x).symm, horder, ?_⟩
    rw [horder]
    have hcells : ((s.referenceTaken c o samples).setOrder k (some { o with phase := o.phase + 1 })).isu.working[c]
        = s.referenceCells c o samples := (vector_get_set ..).trans (if_pos rfl)
    rw [hcells]
    rfl
  · have hjudged : (s.referenceTaken c o samples).judgeReference c k ((s.referenceTaken c o samples).measuredReference c o)
        = (s.referenceTaken c o samples).setOrder k (some (o.measured reference peak).sending) := by
      rw [State.measuredReference_eq h1 h2 hsum hpeak href]
      exact State.judgeReference_heard (o := o.measured reference peak) rfl hfloor
    rw [if_neg (by omega), hjudged] at hexec
    have horder : ((s.referenceTaken c o samples).setOrder k (some (o.measured reference peak).sending)).order k
        = some (o.measured reference peak).sending := (vector_get_set ..).trans (if_pos rfl)
    have hcells : ((s.referenceTaken c o samples).setOrder k (some (o.measured reference peak).sending)).isu.working[c]
        = s.referenceCells c o samples := (vector_get_set ..).trans (if_pos rfl)
    refine ⟨_, hexec, horder, ?_⟩
    rw [horder, hcells]
    rfl
  · have hjudged : (s.referenceTaken c o samples).judgeReference c k ((s.referenceTaken c o samples).measuredReference c o)
        = (((s.referenceTaken c o samples).setOrder k (some { o.measured reference peak with channel := none })).endBurst c
            o.pair).failOrder k (o.measured reference peak) .noReference condition := by
      rw [State.measuredReference_eq h1 h2 hsum hpeak href, hc]
      exact State.judgeReference_silent (o := o.measured reference peak) rfl hfloor
    obtain ⟨t, slots, ht, hzeroed, hmarks, hframe⟩ :=
      (s.referenceTaken c o samples).endBurst_failOrder_eq k (o.measured reference peak) c .noReference condition
    rw [if_neg (by omega), hjudged] at hexec
    have hcells : t.isu.working[c] = s.referenceCells c o samples := by
      rw [hframe]
      exact (vector_get_set ..).trans (if_pos rfl)
    refine ⟨t, slots, hexec.trans (by rw [ht]; rfl), hzeroed, hmarks, ?_⟩
    rw [hcells]
    exact hframe

end Sys2Proof.Machine
end

section
/-! The end of a slice (R36, R37, R91) and the answer to an order (R142 to R150). -/

namespace Sys2Proof.Machine

variable {s u v w : State} {c : Chan} {samples : List Sample} {n : Slot} {k : OrderNo} {o : Order} {p : Pair}

/-! ## The slice's end (R36, R37) -/

/-- A slice that has taken all its periods is judged on a coasting channel. -/
theorem State.slicePeriod_ends (s : State) (c : Chan) (n : Slot) (lit present : Bool) (samples : List Sample) :
    s.slicePeriod c n 1 lit present samples
      = (((s.takePeriod n present samples).coast c).judgeSlice n (lit || present)).afterSlice n := by
  unfold State.slicePeriod
  exact if_pos (.inl (Nat.le_refl 1))

theorem State.afterSlice_kept (ha : (s.campaign n).accepted < (s.campaign n).periods) (hd : (s.campaign n).darkCount < 3) :
    s.afterSlice n = s := by
  unfold State.afterSlice
  exact (if_neg (Nat.not_le.2 ha)).trans (if_neg (Nat.not_le.2 hd))

theorem State.afterSlice_dark (ha : (s.campaign n).accepted < (s.campaign n).periods) (hd : 3 ≤ (s.campaign n).darkCount) :
    s.afterSlice n = (s.markDark (s.campaign n).pair).failChain (s.campaign n).pair .dark := by
  unfold State.afterSlice
  exact (if_neg (Nat.not_le.2 ha)).trans (if_pos hd)

theorem State.campaign_judgeSlice (s : State) (n : Slot) (lit : Bool) :
    (s.judgeSlice n lit).campaign n = { s.campaign n with darkCount := if lit then 0 else (s.campaign n).darkCount + 1 } :=
  (vector_get_set ..).trans (if_pos rfl)

/-- Settles O47: the slice judged with an accepted period, after one, dark, and dark for the third time. -/
theorem sliceEndIsJudged : Obligations.SliceEndIsJudged := by
  intro c n lit samples p s hst hh hp hlen ha
  have hexec : ∀ present, exec (.slicePeriodEnd c present samples) s
      = .next ((((s.takePeriod n present samples).coast c).judgeSlice n (lit || present)).afterSlice n).concludeEvent :=
    fun present => (exec_slicePeriodEnd hst hh hlen).trans (by rw [State.slicePeriod_ends])
  refine ⟨fun start hmore hext => ?_, fun hlit => ?_, fun hlit hd => ?_, fun u hlit hd hon hu => ?_⟩
  · have haccept := State.acceptPeriod_eq (samples := samples) hext
    have htake : (s.takePeriod n true samples).coast c = (s.acceptPeriod n samples).coast c := rfl
    have hbefore : ((s.acceptPeriod n samples).coast c).campaign n = { s.campaign n with accepted := (s.campaign n).accepted + 1 } := by
      rw [haccept]
      exact (vector_get_set ..).trans (if_pos rfl)
    have hnow : (((s.acceptPeriod n samples).coast c).judgeSlice n true).campaign n
        = { s.campaign n with accepted := (s.campaign n).accepted + 1, darkCount := 0 } := by
      rw [State.campaign_judgeSlice, hbefore]
      rfl
    have hkept : (((s.acceptPeriod n samples).coast c).judgeSlice n true).afterSlice n
        = ((s.acceptPeriod n samples).coast c).judgeSlice n true :=
      State.afterSlice_kept (by rw [hnow]; exact hmore) (by rw [hnow]; exact Nat.succ_pos 2)
    obtain ⟨hin, hout⟩ := State.cell_acceptPeriod (s := s) (t := ((s.acceptPeriod n samples).coast c).judgeSlice n true)
      (els := (s.campaign n).elements) (x := s.campaign n) (start := start) (by rw [haccept]; rfl) hlen
    refine ⟨((s.acceptPeriod n samples).coast c).judgeSlice n true, ?_, hnow, hin, hout, ?_⟩
    · rw [hexec, Bool.or_true, htake, hkept]
    · rw [hnow]
      unfold State.judgeSlice
      rw [hbefore, haccept]
      simp only [State.coast, State.setChannel, State.setCampaign, State.channel, Vector.set_set]
      rfl
  · have hnow := (s.coast c).campaign_judgeSlice n true
    have hkept : ((s.coast c).judgeSlice n true).afterSlice n = (s.coast c).judgeSlice n true :=
      State.afterSlice_kept (by rw [hnow]; exact ha) (by rw [hnow]; exact Nat.succ_pos 2)
    rw [hexec, hlit, Bool.or_false]
    exact congrArg (fun t : State => Host.Outcome.next t.concludeEvent) hkept
  · have hnow := (s.coast c).campaign_judgeSlice n false
    have hkept : ((s.coast c).judgeSlice n false).afterSlice n = (s.coast c).judgeSlice n false :=
      State.afterSlice_kept (by rw [hnow]; exact ha) (by rw [hnow]; exact hd)
    rw [hexec, hlit, Bool.or_false]
    exact congrArg (fun t : State => Host.Outcome.next t.concludeEvent) hkept
  · have hnow := (s.coast c).campaign_judgeSlice n false
    have hmarked : ((s.coast c).judgeSlice n false).markDark p = u := by
      rw [hu, State.markDark, State.queueOrigin_eq]
      show _ = ({ s with
          pch := { s.pch with
            channels := s.pch.channels.set c { s.channel c with state := .coasting, holder := none }
            dark := s.pch.dark.set p true }
          cen := { s.cen with slots := s.cen.slots.set n { s.campaign n with darkCount := 2 + 1 } }
          clk := { s.clk with reports := joined s.clk.reports [.pair p] } } : State)
      rw [← hd]
      rfl
    have hdark : ((s.coast c).judgeSlice n false).afterSlice n = u.failChain p .dark := by
      have hpair : (((s.coast c).judgeSlice n false).campaign n).pair = p := by rw [hnow]; exact hp.symm
      rw [State.afterSlice_dark (by rw [hnow]; exact ha) (by rw [hnow]; exact Nat.succ_le_succ (Nat.le_of_eq hd.symm)), hpair, hmarked]
    have hnext : exec (.slicePeriodEnd c false samples) s = .next (u.failChain p .dark).concludeEvent := by
      rw [hexec, hlit, Bool.or_false]
      exact congrArg (fun t : State => Host.Outcome.next t.concludeEvent) hdark
    refine ⟨fun hapart => ?_, fun k o hchain horigin hone hconf => ?_⟩
    · obtain ⟨hfailed, hframe⟩ := State.failChain_eq (reason := .dark) hapart
      exact ⟨_, hnext, hfailed, hframe⟩
    · have huchain : u.chain p = [n] := by rw [hu]; exact hchain
      have huorigin : (u.campaign n).origin = .order := by
        rw [hu]
        exact (congrArg Campaign.origin ((vector_get_set ..).trans (if_pos rfl))).trans horigin
      obtain ⟨hfailed, -⟩ := State.failChain_failed (s := u) (p := p) (reason := .dark) (by rw [huchain]; exact List.nodup_singleton n)
        (by rw [huchain]; exact hone)
      obtain ⟨hmarks, hslices, hframe⟩ := hfailed.2.2 n k o huchain huorigin (by rw [hu]; exact hconf)
      have hentries : s.orderMarks (u.failChain p .dark) o.entry o.pair .unresolved := by
        rw [hu] at hmarks ⊢
        exact hmarks
      refine ⟨_, hnext, hentries, hslices, hframe.trans ?_⟩
      have hslots : u.cen.slots.set n {} = s.cen.slots.set n {} := by
        rw [hu]
        exact Vector.set_set ..
      rw [hslots, hu]

/-! ## The answer (R142 to R147) -/

/-- The state in which a burst has given its channel back (R92, R145). -/
theorem State.endBurst_setOrder (s : State) (k : OrderNo) (x : Option Order) (c : Chan) (p : Pair) :
    (s.setOrder k x).endBurst c p = (s.endBurst c p).setOrder k x := by
  unfold State.endBurst State.zeroChainTop
  show (match (s.coast c).chainTop p with | none => _ | some n => _) = _
  cases (s.coast c).chainTop p <;> rfl

/-- An order that ends with its reserved slot freed (R146, R147, R150). -/
theorem State.endFreed_eq (s : State) (k : OrderNo) (o : Order) (state : OrderState) (reason : Reason) (condition : Condition) :
    s.orderMarks ((s.freeUp o.reserved).endOrder k { o with channel := none } state (some reason) condition) o.entry o.pair condition
    ∧ (s.freeUp o.reserved).endOrder k { o with channel := none } state (some reason) condition = { s with
      lpt := { s.lpt with
        entries := ((s.freeUp o.reserved).endOrder k { o with channel := none } state (some reason) condition).lpt.entries,
        records := ((s.freeUp o.reserved).endOrder k { o with channel := none } state (some reason) condition).lpt.records },
      cen := { s.cen with slots := s.cen.slots.set o.reserved {} },
      isu := { s.isu with orders := s.isu.orders.set k (some { o with state := state, channel := none, reason := some reason }) },
      clk := { s.clk with reports := s.orderOrigins k o condition } } := by
  obtain ⟨entries, records, h1, h2⟩ := (s.freeUp o.reserved).endOrder_eq k { o with channel := none } state (some reason) condition
  generalize (s.freeUp o.reserved).endOrder k { o with channel := none } state (some reason) condition = t at h1 h2
  refine ⟨h2, ?_⟩
  rw [h1]
  rfl

/-- A record whose answer has been heard: the window full and the attempt counted (R142, R143). -/
def Order.heard (o : Order) (window : List Bool) (outcome : AttemptOutcome) : Order :=
  { o with attempts := o.attempts + 1, lastOutcome := some outcome, phase := o.phase + 1, window := window }

/-- The 12th listening period concludes the attempt (R142). -/
theorem State.listeningPeriod_concludes (h : o.window.length = 11) : s.listeningPeriod c k o samples
    = (s.setInverted c false).concludeAttempt k
        { o with phase := o.phase + 1, window := o.window ++ [s.heardBit c o samples] } c
        (decodeWindow (o.window ++ [s.heardBit c o samples])) := by
  unfold State.listeningPeriod
  dsimp only
  rw [if_neg (by rw [List.length_append, h]; exact Nat.lt_irrefl 12)]

section
variable {window : List Bool} {outcome : AttemptOutcome}

theorem State.concludeAttempt_again (hw : outcome = .garbled ∨ outcome = .noAnswer) (hl : o.attempts + 1 < o.limit) :
    s.concludeAttempt k { o with phase := o.phase + 1, window := window } c outcome
      = s.setOrder k (some (o.heard window outcome).sending) := by
  rcases hw with rfl | rfl
  · exact if_pos hl
  · exact if_pos hl

theorem State.concludeAttempt_fails {reason : Reason}
    (hw : outcome = .garbled ∧ reason = .garbled ∨ outcome = .noAnswer ∧ reason = .noAnswer) (hl : o.limit ≤ o.attempts + 1) :
    s.concludeAttempt k { o with phase := o.phase + 1, window := window } c outcome
      = ((s.endBurst c o.pair).setOrder k (some { o.heard window outcome with channel := none })).failOrder k
          (o.heard window outcome) reason .unresolved := by
  rw [← State.endBurst_setOrder]
  rcases hw with ⟨rfl, rfl⟩ | ⟨rfl, rfl⟩
  · exact if_neg (Nat.not_lt.2 hl)
  · exact if_neg (Nat.not_lt.2 hl)

theorem State.concludeAttempt_refused : s.concludeAttempt k { o with phase := o.phase + 1, window := window } c .refuse
    = ((s.endBurst c o.pair).setOrder k (some { o.heard window .refuse with channel := none })).refuseOrder k
        (o.heard window .refuse) := by
  rw [← State.endBurst_setOrder]
  rfl

theorem State.concludeAttempt_accepted : s.concludeAttempt k { o with phase := o.phase + 1, window := window } c .accept
    = (((s.endBurst c o.pair).setOrder k (some { o.heard window .accept with channel := none })).applyEffect
        (o.heard window .accept)).makeConfirm k (o.heard window .accept) := by
  rw [← State.endBurst_setOrder]
  rfl

end

/-! ## The effect on the plant (R148, R149) -/

/-- The entry kind an accepted action leaves (R128, R148, R149). -/
def actedKind (action : Action) (kind : EntryKind) : EntryKind :=
  match action, kind with
  | .pumpToSpare, .line m => .line (spareDown m)
  | .pumpRestore, .line m => .line (spareUp m)
  | .routeA, .branching _ => .branching .a
  | .routeB, .branching _ => .branching .b
  | _, kind => kind

/-- The isolation in effect an accepted action leaves (R148). -/
def actedIsolation (action : Action) (now : Isolation) : Isolation :=
  match action with
  | .pumpToSpare => .spare
  | .pumpRestore | .gainRelease => .nothing
  | .gainHold => .gainHold
  | .loopMute => .loopMuted
  | .routeA | .routeB => now

/-- Is the action a route? -/
def Action.routes (a : Action) : Bool := a == .routeA || a == .routeB

/-- What an accepted action writes to the plant table, the chains of a route aside (R128, R148, R149). -/
def State.plantEffect (s : State) (o : Order) : State :=
  match o.action with
  | .pumpToSpare => (s.changeSpare o.entry spareDown).setIsolation o.entry o.pair .spare
  | .pumpRestore => (s.changeSpare o.entry spareUp).setIsolation o.entry o.pair .nothing
  | .gainHold => s.setIsolation o.entry o.pair .gainHold
  | .gainRelease => s.setIsolation o.entry o.pair .nothing
  | .loopMute => s.setIsolation o.entry o.pair .loopMuted
  | .routeA => s.setRoute o.entry .a
  | .routeB => s.setRoute o.entry .b

theorem State.applyEffect_eq (s : State) (o : Order) :
    s.applyEffect o = if o.action.routes then (s.plantEffect o).failRoutedChains o.entry else s.plantEffect o := by
  unfold State.applyEffect State.plantEffect
  cases o.action <;> rfl

/-- The state beside the entries and the records. -/
def State.plantOnly (s t : State) : Prop :=
  t = { s with lpt := { s.lpt with entries := t.lpt.entries, records := t.lpt.records } }

theorem State.changeSpare_eq (s : State) (i : Index) (f : Fin 3 → Fin 3) :
    s.plantOnly (s.changeSpare i f) ∧ (∀ j q, (s.changeSpare i f).record j q = s.record j q)
    ∧ ∀ j, (s.changeSpare i f).entry j = if j = i then (s.entry j).map (fun e => { e with kind :=
        match e.kind with | .line m => .line (f m) | kind => kind }) else s.entry j := by
  unfold State.changeSpare
  split
  · rename_i m a mark he
    refine ⟨rfl, fun _ _ => rfl, fun j => ?_⟩
    rw [State.entry_setEntry]
    split
    · rename_i hj
      rw [hj, he]
      rfl
    · rfl
  · rename_i hno
    refine ⟨rfl, fun _ _ => rfl, fun j => ?_⟩
    split
    · rename_i hj
      subst hj
      cases he : s.entry j with
      | none => rfl
      | some e =>
        obtain ⟨kind, address, mark⟩ := e
        cases kind with
        | line m => exact absurd he (hno m address mark)
        | equalizer => rfl
        | branching leg => rfl
    · rfl

theorem State.setRoute_eq (s : State) (i : Index) (leg : Leg) :
    s.plantOnly (s.setRoute i leg) ∧ (∀ j q, (s.setRoute i leg).record j q = s.record j q)
    ∧ ∀ j, (s.setRoute i leg).entry j = if j = i then (s.entry j).map (fun e => { e with kind :=
        match e.kind with | .branching _ => .branching leg | kind => kind }) else s.entry j := by
  unfold State.setRoute
  split
  · rename_i m a mark he
    refine ⟨rfl, fun _ _ => rfl, fun j => ?_⟩
    rw [State.entry_setEntry]
    split
    · rename_i hj
      rw [hj, he]
      rfl
    · rfl
  · rename_i hno
    refine ⟨rfl, fun _ _ => rfl, fun j => ?_⟩
    split
    · rename_i hj
      subst hj
      cases he : s.entry j with
      | none => rfl
      | some e =>
        obtain ⟨kind, address, mark⟩ := e
        cases kind with
        | line m => rfl
        | equalizer => rfl
        | branching leg => exact absurd he (hno leg address mark)
    · rfl

theorem State.setIsolation_eq (s : State) (i : Index) (p : Pair) (x : Isolation) :
    s.plantOnly (s.setIsolation i p x) ∧ (∀ j, (s.setIsolation i p x).entry j = s.entry j)
    ∧ ∀ j q, (s.setIsolation i p x).record j q = if j = i ∧ q = p then { s.record j q with isolation := x } else s.record j q := by
  refine ⟨rfl, fun _ => rfl, fun j q => ?_⟩
  rw [State.setIsolation, State.record_setRecord]
  split
  · rename_i h
    rw [h.1, h.2]
  · rfl

theorem State.plantOnly_trans (h1 : s.plantOnly u) (h2 : u.plantOnly v) : s.plantOnly v := by
  unfold State.plantOnly at *
  rw [h2, h1]

/-- The second state is the first with an accepted action's effect on the plant table (R128, R148, R149). -/
def State.acted (s t : State) (i : Index) (p : Pair) (action : Action) : Prop :=
  s.plantOnly t
  ∧ (∀ j, t.entry j = if j = i then (s.entry j).map (fun e => { e with kind := actedKind action e.kind }) else s.entry j)
  ∧ ∀ j q, t.record j q = if j = i ∧ q = p then
      { s.record j q with isolation := actedIsolation action (s.record j q).isolation } else s.record j q

section
variable {i : Index} {action : Action}

/-- A pump's order changes the spare pumps and the isolation in effect. -/
theorem State.acted_spare {f : Fin 3 → Fin 3} {x : Isolation} (hx : ∀ y, actedIsolation action y = x)
    (hkind : ∀ kind, actedKind action kind = match kind with | .line m => .line (f m) | kind => kind) :
    s.acted ((s.changeSpare i f).setIsolation i p x) i p action := by
  obtain ⟨h1, h2, h3⟩ := s.changeSpare_eq i f
  obtain ⟨g1, g2, g3⟩ := (s.changeSpare i f).setIsolation_eq i p x
  refine ⟨State.plantOnly_trans h1 g1, fun j => ?_, fun j q => ?_⟩
  · rw [g2, h3]
    simp only [hkind]
  · rw [g3, h2, hx]

/-- A gain's or a loop's order changes the isolation in effect alone. -/
theorem State.acted_isolation {x : Isolation} (hx : ∀ y, actedIsolation action y = x) (hkind : ∀ kind, actedKind action kind = kind) :
    s.acted (s.setIsolation i p x) i p action := by
  obtain ⟨g1, g2, g3⟩ := s.setIsolation_eq i p x
  refine ⟨g1, fun j => ?_, fun j q => ?_⟩
  · rw [g2]
    simp only [hkind]
    cases s.entry j <;> split <;> rfl
  · rw [g3, hx]

/-- A route's order changes the unit alone. -/
theorem State.acted_route {leg : Leg} (hx : ∀ y, actedIsolation action y = y)
    (hkind : ∀ kind, actedKind action kind = match kind with | .branching _ => .branching leg | kind => kind) :
    s.acted (s.setRoute i leg) i p action := by
  obtain ⟨h1, h2, h3⟩ := s.setRoute_eq i leg
  refine ⟨h1, fun j => ?_, fun j q => ?_⟩
  · rw [h3]
    simp only [hkind]
  · rw [h2, hx]
    split <;> rfl

end

theorem State.plantEffect_acted (s : State) (o : Order) : s.acted (s.plantEffect o) o.entry o.pair o.action := by
  unfold State.plantEffect
  cases o.action with
  | pumpToSpare => exact State.acted_spare (fun _ => rfl) fun kind => by cases kind <;> rfl
  | pumpRestore => exact State.acted_spare (fun _ => rfl) fun kind => by cases kind <;> rfl
  | gainHold => exact State.acted_isolation (fun _ => rfl) fun kind => by cases kind <;> rfl
  | gainRelease => exact State.acted_isolation (fun _ => rfl) fun kind => by cases kind <;> rfl
  | loopMute => exact State.acted_isolation (fun _ => rfl) fun kind => by cases kind <;> rfl
  | routeA => exact State.acted_route (fun _ => rfl) fun kind => by cases kind <;> rfl
  | routeB => exact State.acted_route (fun _ => rfl) fun kind => by cases kind <;> rfl

/-! ## The confirm (R150) -/

/-- The first element of an entry in a list gives its place. -/
theorem placeOf_first {i : Index} {l : List PathElement} {m : Nat} (k : Nat) (hm : l[m]?.map PathElement.entry = some i)
    (hfirst : ∀ j x, j < m → l[j]? = some x → x.entry ≠ i) : placeOf i l k = some (k + m) := by
  induction l generalizing m k with
  | nil => simp at hm
  | cons x l ih =>
    cases m with
    | zero => exact if_pos (Option.some.inj hm)
    | succ m =>
      have hx : x.entry ≠ i := hfirst 0 x (Nat.succ_pos m) rfl
      rw [placeOf, if_neg hx, ih (k + 1) (by simpa using hm) fun j y hj hy => hfirst (j + 1) y (Nat.succ_lt_succ hj) (by simpa using hy)]
      exact congrArg some (by omega)

theorem placeOf_none {i : Index} {l : List PathElement} (k : Nat) (h : ∀ x ∈ l, x.entry ≠ i) : placeOf i l k = none := by
  induction l generalizing k with
  | nil => rfl
  | cons x l ih =>
    rw [placeOf, if_neg (h x List.mem_cons_self), ih (k + 1) fun y hy => h y (List.mem_cons_of_mem _ hy)]

theorem State.makeConfirm_offPath (h : ∀ x ∈ s.effectivePath o.pair, x.entry ≠ o.entry) : s.makeConfirm k o
    = (s.freeUp o.reserved).endOrder k { o with channel := none } .doneUnresolved (some .notOnPath) .unresolved := by
  unfold State.makeConfirm
  rw [State.positionOf, placeOf_none 1 h]

theorem State.makeConfirm_onPath {place : Nat} (h : (s.effectivePath o.pair)[place]?.map PathElement.entry = some o.entry)
    (hfirst : ∀ j x, j < place → (s.effectivePath o.pair)[j]? = some x → x.entry ≠ o.entry) : s.makeConfirm k o
    = (s.setOrder k (some { o with state := .confirming, channel := none })).setCampaign o.reserved
        (confirmOf o (confirmRange o.action (place + 1) (s.effectivePath o.pair).length)) := by
  unfold State.makeConfirm
  rw [State.positionOf, placeOf_first 1 h hfirst, Nat.add_comm 1 place]
  dsimp only
  rw [State.effectivePath_congr (s := s) (u := s.setOrder k _) rfl rfl]

theorem confirmRange_eq (action : Action) (place length : Nat) : confirmRange action place length
    = (if action = .routeA ∨ action = .routeB then place else max 1 (place - 2), min length (place + 2)) := by
  unfold confirmRange
  cases action <;> rfl

theorem Action.routes_iff {a : Action} : a.routes = true ↔ a = .routeA ∨ a = .routeB := by
  cases a <;> decide

/-- The burst has given its channel back, the period taken upright (R92, R138, R145). -/
def State.burstEnded (s : State) (c : Chan) (p : Pair) : State := (s.setInverted c false).endBurst c p

theorem State.burstEnded_eq (s : State) (c : Chan) (p : Pair) :
    s.topZeroed p (s.burstEnded c p).cen.slots (s.burstEnded c p).ecr.cells
    ∧ s.burstEnded c p = { s with
        pch := { s.pch with channels := s.pch.channels.set c { s.channel c with state := .coasting, holder := none } }
        ecr := { s.ecr with cells := (s.burstEnded c p).ecr.cells }
        cen := { s.cen with slots := (s.burstEnded c p).cen.slots }
        isu := { s.isu with inverted := s.isu.inverted.set c false } } := by
  obtain ⟨slots, cells, hzeroed, hzero⟩ := ((s.setInverted c false).coast c).zeroChainTop_eq p
  unfold State.burstEnded State.endBurst
  rw [hzero]
  exact ⟨hzeroed, rfl⟩

/-- The plant after an accepted answer, the attempt counted (R143, R148). -/
theorem State.plantActed_eq (u : State) (k : OrderNo) (o : Order) : ∃ v : State,
    v = (u.setOrder k (some { o with channel := none })).plantEffect o
    ∧ v = { u with
        lpt := { u.lpt with entries := v.lpt.entries, records := v.lpt.records }
        isu := { u.isu with orders := u.isu.orders.set k (some { o with channel := none }) } }
    ∧ (∀ j, v.entry j = if j = o.entry then (u.entry j).map (fun e => { e with kind := actedKind o.action e.kind }) else u.entry j)
    ∧ ∀ j q, v.record j q = if j = o.entry ∧ q = o.pair then
        { u.record j q with isolation := actedIsolation o.action (u.record j q).isolation } else u.record j q := by
  obtain ⟨hframe, hentry, hrecord⟩ := (u.setOrder k (some { o with channel := none })).plantEffect_acted o
  exact ⟨_, rfl, hframe, hentry, hrecord⟩

/-- The route of an accepted answer fails the chains over the unit (R149). -/
theorem State.routed_eq {i : Index} {failing : List Pair} (hv : v = { u with
      lpt := { u.lpt with entries := v.lpt.entries, records := v.lpt.records }, isu := { u.isu with orders := v.isu.orders } })
    (hf : failing = allPairs.filter (fun q => (u.path q).any (fun x => x.entry == i)))
    (hok : ∀ q ∈ failing, (u.chain q).Nodup ∧ u.oneChannelEach (u.chain q)) :
    v.chainsFailedInTurn .pathChanged failing (v.failRoutedChains i)
    ∧ (u.chainsApart failing → u.chainsFailed (v.failRoutedChains i) failing .pathChanged
      ∧ v.failRoutedChains i = { v with
          pch := { u.pch with channels := (v.failRoutedChains i).pch.channels }
          ecr := { u.ecr with extents := (v.failRoutedChains i).ecr.extents }
          cen := { u.cen with slots := (v.failRoutedChains i).cen.slots, chains := (v.failRoutedChains i).cen.chains }
          clk := { u.clk with reports := (v.failRoutedChains i).clk.reports } }) := by
  have hchain : ∀ q, v.chain q = u.chain q := fun q => by rw [hv]; rfl
  have hchannel : ∀ c, v.channel c = u.channel c := fun c => by rw [hv]; rfl
  have hcampaign : ∀ m, v.campaign m = u.campaign m := fun m => by rw [hv]; rfl
  have hpath : ∀ q, v.path q = u.path q := fun q => by rw [hv]; rfl
  have hblocks : v.pch = u.pch ∧ v.ecr = u.ecr ∧ v.cen = u.cen ∧ v.clk = u.clk := by rw [hv]; exact ⟨rfl, rfl, rfl, rfl⟩
  have hone : ∀ l, u.oneChannelEach l → v.oneChannelEach l := fun l h => by
    unfold State.oneChannelEach
    simp only [hchannel]
    exact h
  replace hf : failing = allPairs.filter (fun q => (v.path q).any (fun x => x.entry == i)) := by simp only [hpath, hf]
  refine ⟨State.failRoutedChains_inTurn hf fun q hq => ?_, fun hapart => ?_⟩
  · rw [hchain]
    exact ⟨(hok q hq).1, hone _ (hok q hq).2⟩
  · have hchains : v.chain = u.chain := funext hchain
    have hvapart : v.chainsApart failing := by
      unfold State.chainsApart
      rw [hchains]
      simp only [hcampaign]
      exact ⟨hapart.1, hone _ hapart.2.1, hapart.2.2⟩
    obtain ⟨hfailed, hsame⟩ := State.failRoutedChains_eq hf hvapart
    generalize v.failRoutedChains i = w at hfailed hsame
    obtain ⟨hpch, hecr, hcen, hclk⟩ := hblocks
    unfold State.sameButChains at hsame
    rw [hpch, hecr, hcen, hclk] at hsame
    refine ⟨?_, hsame⟩
    unfold State.chainsFailed State.slicesEnded at hfailed ⊢
    simp only [hchain, hchains, hcampaign, hchannel, hecr, hclk] at hfailed
    exact hfailed

/-- An order that ends after its burst has given its channel back. -/
theorem State.answerEnds_eq (u : State) (k : OrderNo) (o : Order) (state : OrderState) (reason : Reason) (condition : Condition) :
    ∃ t : State, t = ((u.setOrder k (some { o with channel := none })).freeUp o.reserved).endOrder k { o with channel := none } state
        (some reason) condition
      ∧ u.orderMarks t o.entry o.pair condition
      ∧ t = { u with
          lpt := { u.lpt with entries := t.lpt.entries, records := t.lpt.records }
          cen := { u.cen with slots := u.cen.slots.set o.reserved {} }
          isu := { u.isu with
            orders := u.isu.orders.set k (some { o with state := state, channel := none, reason := some reason }) }
          clk := { u.clk with reports := u.orderOrigins k o condition } } := by
  obtain ⟨hmarks, hframe⟩ := (u.setOrder k (some { o with channel := none })).endFreed_eq k o state reason condition
  refine ⟨_, rfl, hmarks, hframe.trans ?_⟩
  simp only [State.setOrder, Vector.set_set]
  rfl

/-- What the plant table says of an order's end depends on the entries and records alone. -/
theorem State.orderMarks_congr {t : State} (h : u.lpt = s.lpt) {i : Index} {condition : Condition}
    (hm : u.orderMarks t i p condition) : s.orderMarks t i p condition := by
  have hentry : ∀ j, u.entry j = s.entry j := fun j => by rw [State.entry, h]; rfl
  have hrecord : ∀ j q, u.record j q = s.record j q := fun j q => by rw [State.record, h]; rfl
  unfold State.orderMarks at hm ⊢
  simp only [hentry, hrecord] at hm
  exact hm

theorem State.orderOrigins_congr (h : u.lpt = s.lpt) (hc : u.clk = s.clk) (k : OrderNo) (o : Order) (condition : Condition) :
    u.orderOrigins k o condition = s.orderOrigins k o condition := by
  have hrecord : ∀ j q, u.record j q = s.record j q := fun j q => by rw [State.record, h]; rfl
  unfold State.orderOrigins
  rw [hc, hrecord]

/-- Settles O53: the answer decoded, and what each of the four does. -/
theorem answersSettleTheOrder : Obligations.AnswersSettleTheOrder := by
  intro c k o samples peak reference window s hst hh ho hstate hwlen hlen hp hr hwindow
  have hheard : o.window ++ [s.heardBit c o samples] = window := by rw [hwindow, State.heardBit_eq hlen hp hr]
  have hexec : exec (.listeningPeriodEnd c samples) s = .next ((s.setInverted c false).concludeAttempt k
      { o with phase := o.phase + 1, window := window } c (decodeWindow window)).concludeEvent := by
    rw [exec_listeningPeriodEnd (State.burstOn_eq hst hh ho) hstate hlen, State.listeningPeriod_concludes hwlen, hheard]
  refine ⟨fun outcome hout hagain hleft => ?_, ?_⟩
  · rw [hexec, hout, State.concludeAttempt_again hagain hleft]
    rfl
  obtain ⟨hzeroed, hu⟩ := s.burstEnded_eq c o.pair
  have hended : (s.setInverted c false).endBurst c o.pair = s.burstEnded c o.pair := rfl
  generalize s.burstEnded c o.pair = u at hzeroed hu hended
  have hlpt : u.lpt = s.lpt := by rw [hu]
  have hclk : u.clk = s.clk := by rw [hu]
  have horders : u.isu.orders = s.isu.orders := by rw [hu]
  refine ⟨u, hzeroed, hu, fun outcome state reason condition hcases => ?_, fun failing hf haccept hok => ?_⟩
  · obtain ⟨t, ht, hmarks, hframe⟩ := u.answerEnds_eq k (o.heard window outcome) state reason condition
    have hanswer : (s.setInverted c false).concludeAttempt k { o with phase := o.phase + 1, window := window } c
        (decodeWindow window) = t := by
      rw [ht]
      rcases hcases with ⟨hw, rfl, rfl, rfl, rfl⟩ | ⟨hl, rfl, rfl, hw⟩
      · rw [hw, State.concludeAttempt_refused, hended]
        rfl
      · have hwhy : decodeWindow window = .garbled ∧ reason = .garbled ∨ decodeWindow window = .noAnswer ∧ reason = .noAnswer :=
          hw.imp (fun h => ⟨h.1, h.2.2⟩) fun h => ⟨h.1, h.2.2⟩
        have hout : decodeWindow window = outcome := hw.elim (fun h => h.1.trans h.2.1.symm) fun h => h.1.trans h.2.1.symm
        rw [State.concludeAttempt_fails hwhy hl, hended, hout]
        rfl
    refine ⟨t, by rw [hexec, hanswer], State.orderMarks_congr hlpt hmarks, ?_⟩
    rw [State.orderOrigins_congr hlpt hclk, hlpt, hclk, horders] at hframe
    exact hframe
  · obtain ⟨v, hv, hframe, hentry, hrecord⟩ := u.plantActed_eq k (o.heard window .accept)
    have hanswer : (s.setInverted c false).concludeAttempt k { o with phase := o.phase + 1, window := window } c
        (decodeWindow window)
        = (if o.action.routes then v.failRoutedChains o.entry else v).makeConfirm k (o.heard window .accept) := by
      rw [haccept, State.concludeAttempt_accepted, hended, State.applyEffect_eq, ← hv]
      rfl
    obtain ⟨w, hw⟩ : ∃ w, w = if o.action.routes then v.failRoutedChains o.entry else v := ⟨_, rfl⟩
    rw [← hw] at hanswer
    have hroutes : o.action = .routeA ∨ o.action = .routeB → w = v.failRoutedChains o.entry := fun h => by
      rw [hw, if_pos (Action.routes_iff.2 h)]
    have hfailed : o.action = .routeA ∨ o.action = .routeB → _ := fun h =>
      State.routed_eq (u := u) (v := v) (i := o.entry) (failing := failing)
        (by generalize v.lpt.entries = a, v.lpt.records = b at hframe; rw [hframe])
        (hf.trans (by simp only [State.path, hlpt])) (hok h)
    refine ⟨v, w, w.makeConfirm k (o.heard window .accept), by rw [hexec, hanswer], ?_, fun j => ?_, fun j q => ?_,
      fun ha hb => ?_, fun h => ?_, fun h hapart => ?_, fun place hat hfirst => ?_, fun hoff => ?_⟩
    · rw [horders] at hframe
      exact hframe
    · refine (hentry j).trans ?_
      rw [show u.entry j = s.entry j by rw [State.entry, hlpt]; rfl]
      refine if_congr Iff.rfl (congrArg (fun f => (s.entry j).map f) (funext fun e => ?_)) rfl
      refine congrArg (fun kind => ({ e with kind := kind } : Entry)) ?_
      show actedKind o.action e.kind = _
      cases o.action <;> cases e.kind <;> rfl
    · refine (hrecord j q).trans ?_
      rw [show u.record j q = s.record j q by rw [State.record, hlpt]; rfl]
      refine if_congr Iff.rfl ?_ rfl
      refine congrArg (fun x => ({ s.record j q with isolation := x } : AmpRecord)) ?_
      show actedIsolation o.action (s.record j q).isolation = _
      cases o.action <;> rfl
    · rw [hw, if_neg fun h => (Action.routes_iff.1 h).elim ha hb]
    · rw [hroutes h]
      exact (hfailed h).1
    · rw [hroutes h]
      exact (hfailed h).2 hapart
    · rw [State.makeConfirm_onPath (o := o.heard window .accept) hat hfirst, confirmRange_eq]
      rfl
    · obtain ⟨hmarks, hend⟩ := w.endFreed_eq k (o.heard window .accept) .doneUnresolved .notOnPath .unresolved
      rw [State.makeConfirm_offPath (o := o.heard window .accept) hoff]
      exact ⟨hmarks, hend⟩

end Sys2Proof.Machine
end

section
/-! Classification: the eleven tests, with D_prev, Next and the drift reference read off the list (R103 to R110). -/

namespace Sys2Proof.Machine

variable {l : List Observed} {i : Nat} {tStep tDrift : Nat}

/-! ## What stands before and after a place -/

theorem mem_drop_succ_iff {α : Type} {l : List α} {i : Nat} {x : α} : x ∈ l.drop (i + 1) ↔ ∃ j, i < j ∧ l[j]? = some x := by
  rw [List.mem_iff_getElem?]
  simp only [List.getElem?_drop]
  exact ⟨fun ⟨n, hn⟩ => ⟨i + 1 + n, by omega, hn⟩, fun ⟨j, hj, hx⟩ => ⟨j - (i + 1), by rwa [Nat.add_sub_cancel' hj]⟩⟩

theorem mem_take_iff {α : Type} {l : List α} {i : Nat} {x : α} : x ∈ l.take i ↔ ∃ j, j < i ∧ l[j]? = some x := by
  rw [List.mem_iff_getElem?]
  simp only [List.getElem?_take]
  refine ⟨fun ⟨n, hn⟩ => ?_, fun ⟨j, hj, hx⟩ => ⟨j, by rw [if_pos hj, hx]⟩⟩
  split at hn
  · rename_i h; exact ⟨n, h, hn⟩
  · cases hn

/-- A list before a place, cut at an earlier place. -/
theorem take_eq_append {α : Type} {l : List α} {i j : Nat} {x : α} (hj : j < i) (hx : l[j]? = some x) :
    l.take i = l.take j ++ x :: (l.take i).drop (j + 1) := by
  have hlt : j < (l.take i).length := by
    have := (List.getElem?_eq_some_iff.1 hx).1
    rw [List.length_take]
    omega
  have hat : (l.take i)[j] = x := by
    rw [List.getElem_take]
    exact (List.getElem?_eq_some_iff.1 hx).2
  have hsplit := List.take_append_drop j (l.take i)
  rw [List.take_take, Nat.min_eq_left hj.le, List.drop_eq_getElem_cons hlt, hat] at hsplit
  exact hsplit.symm

theorem mem_drop_take_iff {α : Type} {l : List α} {i j : Nat} {x : α} :
    x ∈ (l.take i).drop (j + 1) ↔ ∃ m, j < m ∧ m < i ∧ l[m]? = some x := by
  rw [mem_drop_succ_iff]
  refine exists_congr fun m => and_congr_right fun _ => ?_
  rw [List.getElem?_take]
  split
  · rename_i h; exact (and_iff_right h).symm
  · rename_i h; exact ⟨fun e => (nomatch e), fun e => absurd e.1 h⟩

theorem echoesAfter_iff : echoesAfter l i ↔ (unmuted (l.drop (i + 1))).any Observed.echo = true := by
  simp only [echoesAfter, unmuted, List.any_eq_true, List.mem_filter, mem_drop_succ_iff, Bool.not_eq_true']
  exact ⟨fun ⟨j, x, hj, hx, hm, he⟩ => ⟨x, ⟨⟨j, hj, hx⟩, hm⟩, he⟩, fun ⟨x, ⟨⟨j, hj, hx⟩, hm⟩, he⟩ => ⟨j, x, hj, hx, hm, he⟩⟩

theorem standsAfter_iff : standsAfter l i ↔ (unmuted (l.drop (i + 1))).isEmpty = false := by
  rw [List.isEmpty_eq_false_iff_exists_mem]
  simp only [standsAfter, unmuted, List.mem_filter, mem_drop_succ_iff, Bool.not_eq_true']
  exact ⟨fun ⟨j, x, hj, hx, hm⟩ => ⟨x, ⟨j, hj, hx⟩, hm⟩, fun ⟨x, ⟨j, hj, hx⟩, hm⟩ => ⟨j, x, hj, hx, hm⟩⟩

/-! ## Next (R104) -/

theorem nextDeviation_none (h : ∀ x ∈ l, x.classifiable = none) : nextDeviation l = none := List.findSome?_eq_none_iff.2 h

theorem nextDeviation_first {before later : List Observed} {x : Observed} {d : Int} (hb : ∀ y ∈ before, y.classifiable = none)
    (hx : x.classifiable = some d) : nextDeviation (before ++ x :: later) = some d := by
  unfold nextDeviation
  rw [List.findSome?_append, List.findSome?_eq_none_iff.2 hb, List.findSome?_cons_of_isSome (by rw [hx]; rfl), hx]
  rfl

/-- Next, read off the list. -/
theorem nextDeviation_eq {next : Option Int} (h : (∃ e, next = some e ∧ nearestAfter l i e)
    ∨ next = none ∧ ∀ (j : Nat) (x : Observed), i < j → l[j]? = some x → x.classifiable = none) :
    nextDeviation (l.drop (i + 1)) = next := by
  rcases h with ⟨e, rfl, j, x, hj, hx, he, hnone⟩ | ⟨rfl, hnone⟩
  · have hcut := take_eq_append (l := l.drop (i + 1)) (i := (l.drop (i + 1)).length) (j := j - (i + 1)) (x := x)
      (by
        have := (List.getElem?_eq_some_iff.1 hx).1
        rw [List.length_drop]
        omega)
      (by rw [List.getElem?_drop, Nat.add_sub_cancel' hj, hx])
    rw [List.take_length] at hcut
    rw [hcut]
    refine nextDeviation_first (fun y hy => ?_) he
    obtain ⟨m, hm, hy⟩ := mem_take_iff.1 hy
    rw [List.getElem?_drop] at hy
    exact hnone _ y (by omega) (by omega) hy
  · exact nextDeviation_none fun x hx => (mem_drop_succ_iff.1 hx).elim fun j hj => hnone j x hj.1 hj.2

/-! ## D_prev (R104) -/

/-- D_prev after a run of elements, from the one before it. -/
def previousAfter (base : Option Int) (l : List Observed) : Option Int := l.foldl (fun p o => o.classifiable <|> p) base

theorem previousAfter_none {base : Option Int} (h : ∀ x ∈ l, x.classifiable = none) : previousAfter base l = base := by
  induction l with
  | nil => rfl
  | cons x l ih =>
    rw [previousAfter, List.foldl_cons, h x List.mem_cons_self]
    exact ih fun y hy => h y (List.mem_cons_of_mem _ hy)

theorem previousAfter_nearest {base : Option Int} {d : Int} (h : nearestBefore l i d) : previousAfter base (l.take i) = some d := by
  obtain ⟨j, x, hj, hx, hd, hnone⟩ := h
  rw [take_eq_append hj hx, previousAfter, List.foldl_append, List.foldl_cons, hd]
  refine previousAfter_none (base := some d) fun y hy => ?_
  obtain ⟨m, hjm, hmi, hy⟩ := mem_drop_take_iff.1 hy
  exact hnone m y hjm hmi hy

/-! ## The drift reference (R105) -/

/-- S after a run of classified elements, from the one before it. -/
def referenceAfter (base : Option Int) (l : List (Observed × ElementClass)) : Option Int :=
  l.foldl (fun r x => nextReference r x.1 x.2) base

/-- Does a class move the drift reference? -/
def ElementClass.moves (c : ElementClass) : Prop := c = .step ∨ c = .rise

theorem nextReference_kept {v : Int} {o : Observed} {c : ElementClass} (hc : ¬ c.moves) : nextReference (some v) o c = some v := by
  unfold nextReference
  cases o.classifiable with
  | none => rfl
  | some d => exact if_neg hc

theorem referenceAfter_kept {v : Int} {l : List (Observed × ElementClass)} (h : ∀ x ∈ l, ¬ x.2.moves) :
    referenceAfter (some v) l = some v := by
  induction l with
  | nil => rfl
  | cons x l ih =>
    rw [referenceAfter, List.foldl_cons, nextReference_kept (h x List.mem_cons_self)]
    exact ih fun y hy => h y (List.mem_cons_of_mem _ hy)

theorem referenceAfter_none {l : List (Observed × ElementClass)} (h : ∀ x ∈ l, x.1.classifiable = none) :
    referenceAfter none l = none := by
  induction l with
  | nil => rfl
  | cons x l ih =>
    have hx : nextReference none x.1 x.2 = none := by
      unfold nextReference
      rw [h x List.mem_cons_self]
    rw [referenceAfter, List.foldl_cons, hx]
    exact ih fun y hy => h y (List.mem_cons_of_mem _ hy)

/-! ## The list, element by element -/

/-- Each element is classed by its tests with D_prev and S as the elements before it leave them. -/
theorem classify_at {previous reference : Option Int} {classes : List ElementClass} {o : Observed} {k : ElementClass}
    (hclasses : classes = classify tStep tDrift previous reference l) (ho : l[i]? = some o) (hk : classes[i]? = some k) :
    k = classOf tStep tDrift (previousAfter previous (l.take i)) (referenceAfter reference ((l.zip classes).take i)) o
      (l.drop (i + 1)) := by
  subst hclasses
  induction l generalizing i previous reference with
  | nil => simp at ho
  | cons x l ih =>
    cases i with
    | zero =>
      obtain rfl : x = o := Option.some.inj ho
      exact (Option.some.inj hk).symm
    | succ i =>
      exact ih ho hk

theorem length_classify (tStep tDrift : Nat) (previous reference : Option Int) (l : List Observed) :
    (classify tStep tDrift previous reference l).length = l.length := by
  induction l generalizing previous reference with
  | nil => rfl
  | cons x l ih => exact congrArg Nat.succ (ih _ _)

/-! ## The tests (R106 to R110) -/

section
variable {previous reference : Option Int} {o : Observed} {later : List Observed}

theorem classOf_muted (hm : o.muted = true) : classOf tStep tDrift previous reference o later = .muted := if_pos hm

theorem classOf_silent (hm : o.muted = false) (he : o.echo = false) : classOf tStep tDrift previous reference o later
    = if (unmuted later).any Observed.echo then .lost else .noEcho := by
  unfold classOf
  rw [hm, he]
  rfl

theorem classOf_heard (hm : o.muted = false) (he : o.echo = true) : classOf tStep tDrift previous reference o later
    = if !(unmuted later).isEmpty && !(unmuted later).any Observed.echo then .breakAfter
      else match o.deviation with
        | none => .noBaseline
        | some d =>
          match previous with
          | none => if tDrift ≤ d.natAbs then .drift else .normal
          | some p => judge tStep tDrift d p (reference.getD d) (nextDeviation later) := by
  unfold classOf
  rw [hm, he]
  rfl

/-- Only a classifiable element is classed STEP or RISE. -/
theorem classifiable_of_moves (h : (classOf tStep tDrift previous reference o later).moves) : o.classifiable = o.deviation := by
  have hm : o.muted = false := by
    by_contra hm
    rw [classOf_muted (Bool.not_eq_false _ ▸ hm)] at h
    rcases h with h | h <;> cases h
  unfold Observed.classifiable
  rw [hm]
  rfl

/-- Tests 6 to 11, Next's two questions asked of its D. -/
theorem judge_eq (d p r : Int) (next : Option Int) : judge tStep tDrift d p r next
    = if tStep ≤ (d - p).natAbs ∧ next.any (fun e => decide (2 * (e - p).natAbs < tStep)) then .spike
      else if d - p ≤ -(tStep : Int) then
        if next.any (fun e => decide (2 * (e - d).natAbs < tStep)) then .step else .ambiguous
      else if (tStep : Int) ≤ d - p then
        if next.any (fun e => decide (2 * (e - d).natAbs < tStep)) then .rise else .ambiguous
      else if tStep ≤ 2 * (d - p).natAbs then .ambiguous
      else if tDrift ≤ (d - r).natAbs then .drift
      else .normal := by
  cases next <;> rfl

end

/-- The base of a range that begins at 1, and of one that does not (R104, R105). -/
def rangeBase (fromOne : Bool) : Option Int := if fromOne then some 0 else none

/-- D_prev, read off the list. -/
theorem previousAfter_eq {fromOne : Bool} {previous : Int} (h : nearestBefore l i previous
    ∨ fromOne = true ∧ (∀ (j : Nat) (x : Observed), j < i → l[j]? = some x → x.classifiable = none) ∧ previous = 0) :
    previousAfter (rangeBase fromOne) (l.take i) = some previous := by
  rcases h with h | ⟨rfl, hnone, rfl⟩
  · exact previousAfter_nearest h
  · exact previousAfter_none fun x hx => (mem_take_iff.1 hx).elim fun j hj => hnone j x hj.1 hj.2

theorem zip_getElem?_some {classes : List ElementClass} {j : Nat} {x : Observed × ElementClass} (h : (l.zip classes)[j]? = some x) :
    l[j]? = some x.1 ∧ classes[j]? = some x.2 := List.getElem?_zip_eq_some.1 h

/-- The drift reference, read off the list (R105). -/
theorem referenceAfter_eq {fromOne : Bool} {classes : List ElementClass} {previous reference : Int}
    (hclasses : classes = classify tStep tDrift (rangeBase fromOne) (rangeBase fromOne) l)
    (hprev : nearestBefore l i previous
      ∨ fromOne = true ∧ (∀ (j : Nat) (x : Observed), j < i → l[j]? = some x → x.classifiable = none) ∧ previous = 0)
    (href : settledReference l classes i reference
      ∨ (∀ j, j < i → classes[j]? ≠ some .step ∧ classes[j]? ≠ some .rise)
        ∧ (fromOne = true ∧ reference = 0 ∨ fromOne = false ∧ firstDeviation l reference)) :
    referenceAfter (rangeBase fromOne) ((l.zip classes).take i) = some reference := by
  have hstill : ∀ {j : Nat} {x : Observed × ElementClass}, (l.zip classes)[j]? = some x →
      classes[j]? ≠ some .step ∧ classes[j]? ≠ some .rise → ¬ x.2.moves := fun hx h hm => by
    rw [(zip_getElem?_some hx).2] at h
    exact hm.elim (fun e => h.1 (congrArg some e)) fun e => h.2 (congrArg some e)
  have hpaired : ∀ {j : Nat} {x : Observed}, l[j]? = some x → ∃ c, classes[j]? = some c ∧ (l.zip classes)[j]? = some (x, c) := by
    intro j x hx
    have hlt : j < classes.length := by
      rw [hclasses, length_classify]
      exact (List.getElem?_eq_some_iff.1 hx).1
    exact ⟨classes[j], List.getElem?_eq_getElem hlt, List.getElem?_zip_eq_some.2 ⟨hx, List.getElem?_eq_getElem hlt⟩⟩
  rcases href with ⟨j, x, hj, hx, hd, hclass, hafter⟩ | ⟨hnone, ⟨rfl, rfl⟩ | ⟨rfl, j, x, hx, hd, hfirst⟩⟩
  · obtain ⟨c, hc, hpair⟩ := hpaired hx
    have hmoves : c.moves := by
      rw [hc] at hclass
      exact hclass.imp Option.some.inj Option.some.inj
    have hat : ∀ r, nextReference r x c = some reference := fun r => by
      have hclassifiable := classify_at hclasses hx hc ▸ hmoves
      unfold nextReference
      rw [classifiable_of_moves hclassifiable, hd]
      exact if_pos hmoves
    rw [take_eq_append hj hpair, referenceAfter, List.foldl_append, List.foldl_cons, hat]
    refine referenceAfter_kept fun y hy => ?_
    obtain ⟨m, hjm, hmi, hy⟩ := mem_drop_take_iff.1 hy
    exact hstill hy (hafter m hjm hmi)
  · refine referenceAfter_kept fun y hy => ?_
    obtain ⟨m, hmi, hy⟩ := mem_take_iff.1 hy
    exact hstill hy (hnone m hmi)
  · obtain ⟨c, hc, hpair⟩ := hpaired hx
    have hj : j < i := by
      rcases hprev with ⟨m, y, hm, hy, hyd, -⟩ | ⟨h, -⟩
      · by_contra hji
        rw [hfirst m y (by omega) hy] at hyd
        cases hyd
      · cases h
    have hmoves : ¬ c.moves := hstill hpair (hnone j hj)
    have hat : nextReference none x c = some reference := by
      unfold nextReference
      rw [hd]
      exact if_neg hmoves
    have hbefore : referenceAfter none ((l.zip classes).take j) = none := referenceAfter_none fun y hy => by
      obtain ⟨m, hmj, hy⟩ := mem_take_iff.1 hy
      exact hfirst m y.1 hmj (zip_getElem?_some hy).1
    rw [take_eq_append hj hpair, referenceAfter, List.foldl_append, List.foldl_cons]
    rw [show ((l.zip classes).take j).foldl (fun r x => nextReference r x.1 x.2) (rangeBase false) = none from hbefore, hat]
    refine referenceAfter_kept fun y hy => ?_
    obtain ⟨m, -, hmi, hy⟩ := mem_drop_take_iff.1 hy
    exact hstill hy (hnone m hmi)

/-- Settles O49: the tests in order, their references read off the list. -/
theorem listsAreClassifiedByTheTests : Obligations.ListsAreClassifiedByTheTests := by
  intro tStep tDrift fromOne l classes hclasses
  refine ⟨hclasses ▸ length_classify .., fun i o k ho hk => ?_⟩
  have hat := classify_at (tStep := tStep) (tDrift := tDrift) hclasses ho hk
  refine ⟨fun hm => ?_, fun hm he hecho => ?_, fun hm he hecho => ?_, fun hm he hstands hecho => ?_, fun hm he hgoes => ?_⟩
  · rw [hat, classOf_muted hm]
  · rw [hat, classOf_silent hm he, if_pos (echoesAfter_iff.1 hecho)]
  · rw [hat, classOf_silent hm he, if_neg fun h => hecho (echoesAfter_iff.2 h)]
  · rw [hat, classOf_heard hm he, standsAfter_iff.1 hstands, Bool.eq_false_iff.2 fun h => hecho (echoesAfter_iff.2 h)]
    rfl
  · have hnobreak : ¬ (!(unmuted (l.drop (i + 1))).isEmpty && !(unmuted (l.drop (i + 1))).any Observed.echo) = true := by
      rw [Bool.and_eq_true, Bool.not_eq_true', Bool.not_eq_true']
      exact fun h => hgoes.elim (fun hs => hs (standsAfter_iff.2 h.1))
        fun hecho => Bool.false_ne_true (h.2.symm.trans (echoesAfter_iff.1 hecho))
    rw [classOf_heard hm he, if_neg hnobreak] at hat
    refine ⟨fun hd => ?_, fun d hd => ⟨fun hone hnone => ?_, fun previous reference next hprev href hnext => ?_⟩⟩
    · rw [hat, hd]
    · have hfirst : previousAfter (rangeBase fromOne) (l.take i) = none := by
        rw [hone]
        exact previousAfter_none fun x hx => (mem_take_iff.1 hx).elim fun j hj => hnone j x hj.1 hj.2
      rw [hd, show previousAfter (if fromOne = true then some 0 else none) (l.take i) = none from hfirst] at hat
      exact hat
    · have hprevious := previousAfter_eq hprev
      have hreference := referenceAfter_eq hclasses hprev href
      rw [hd, show previousAfter (if fromOne = true then some 0 else none) (l.take i) = some previous from hprevious,
        show referenceAfter (if fromOne = true then some 0 else none) ((l.zip classes).take i) = some reference from hreference,
        nextDeviation_eq hnext] at hat
      exact hat.trans (judge_eq ..)

end Sys2Proof.Machine
end

section
/-! The boundary at which nothing is granted: the clock, the channels that are parked, the countdowns (R34, R60 to R62, R69), and
one candidate of the dispatch pass (R80 to R84). -/

namespace Sys2Proof.Machine

variable {s t u v : State} {n m : Slot} {p : Pair} {els : List Element} {reason : Reason}

/-! ## The stage-one checks (R81) -/

/-- A range of positions has one element list (R41, R84). -/
theorem State.rangeElements_unique {chip : Code} {first last : Nat} (h : s.rangeElements p chip first last els) :
    els = elementList (s.effectivePath p) chip first last := by
  obtain ⟨hlength, helement⟩ := h
  obtain ⟨hlength', helement'⟩ := s.rangeElements_elementList p chip first last
  refine List.ext_getElem? fun j => ?_
  rcases Nat.lt_or_ge j els.length with hj | hj
  · obtain ⟨x, hx, he⟩ := helement j els[j] (List.getElem?_eq_getElem hj)
    have hj' : j < (elementList (s.effectivePath p) chip first last).length := by rw [hlength', ← hlength]; exact hj
    obtain ⟨y, hy, he'⟩ := helement' j _ (List.getElem?_eq_getElem hj')
    rw [List.getElem?_eq_getElem hj, List.getElem?_eq_getElem hj', he, he', Option.some.inj (hx.symm.trans hy)]
  · rw [List.getElem?_eq_none hj, List.getElem?_eq_none (by rw [hlength', ← hlength]; exact hj)]

theorem State.appliedBaseline_isSome {i : Index} : (s.appliedBaseline i p).isSome = true
    ↔ ∃ b x, s.baseline p i = some b ∧ s.entry i = some x ∧ b.address = x.address := by
  unfold State.appliedBaseline
  cases s.baseline p i with
  | none => simp
  | some b =>
    cases s.entry i with
    | none => simp
    | some x => by_cases hx : b.address = x.address <;> simp [hx]

/-- The reason of a campaign's first stage-one check that fails. -/
def stageReason : Except Reason (List Element) → Option Reason
  | .error reason => some reason
  | .ok _ => none

theorem stageReason_ite {P : Prop} [Decidable P] {x : Except Reason (List Element)} :
    (P → stageReason (if P then .error reason else x) = some reason)
      ∧ (¬ P → stageReason (if P then .error reason else x) = stageReason x) :=
  ⟨fun h => by rw [if_pos h]; rfl, fun h => by rw [if_neg h]⟩

/-- Stage one runs its checks in their order (R81). -/
theorem State.stageOne_decides (s : State) (c : Campaign) : checksDecide
    (s.dispatchChecks c (elementList (s.effectivePath c.pair) c.requested.chip c.first c.last)) (stageReason (s.stageOne c)) := by
  unfold State.stageOne State.dispatchChecks
  generalize elementList (s.effectivePath c.pair) c.requested.chip c.first c.last = els
  have hroute : allChannels.any (fun k => s.pointEnabled k c.pair) = true ↔ ∃ k, s.pointEnabled k c.pair = true := by
    rw [List.any_eq_true]
    exact ⟨fun ⟨k, _, hk⟩ => ⟨k, hk⟩, fun ⟨k, hk⟩ => ⟨k, mem_allChannels k, hk⟩⟩
  have hbase : (c.kind = some .locate → ∃ e ∈ els, ∃ b x, s.baseline c.pair e.entry = some b ∧ s.entry e.entry = some x
        ∧ b.address = x.address)
      ↔ ¬ (c.kind = some .locate ∧ els.all (fun e => (s.appliedBaseline e.entry c.pair).isNone) = true) := by
    simp only [← State.appliedBaseline_isSome, List.all_eq_true, Option.isNone_iff_eq_none, ← Option.not_isSome_iff_eq_none]
    constructor
    · rintro h ⟨hk, hall⟩
      obtain ⟨e, he, hsome⟩ := h hk
      exact hall e he hsome
    · intro h hk
      by_contra hn
      exact h ⟨hk, fun e he hsome => hn ⟨e, he, hsome⟩⟩
  rw [← lagsFit_eq, ← lagsApart_eq, ← hroute, hbase]
  refine ⟨fun h => stageReason_ite.1 (not_not.1 h), fun h1 => ?_⟩
  rw [if_neg h1]
  refine ⟨fun h => stageReason_ite.1 (Nat.not_le.1 h), fun h2 => ?_⟩
  rw [if_neg (Nat.not_lt.2 h2)]
  refine ⟨fun h => stageReason_ite.1 (by simpa using h), fun h3 => ?_⟩
  rw [if_neg (by simpa using h3)]
  refine ⟨fun h => stageReason_ite.1 (by simpa using h), fun h4 => ?_⟩
  rw [if_neg (by simpa using h4)]
  refine ⟨fun h => stageReason_ite.1 (by simpa using h), fun h5 => ?_⟩
  rw [if_neg (by simpa using h5)]
  exact ⟨fun h => stageReason_ite.1 (not_not.1 h), fun h6 => stageReason_ite.2 h6⟩

/-- A check that answers has passed. -/
theorem ite_error_eq_ok {P : Prop} [Decidable P] {x : Except Reason (List Element)}
    (h : (if P then .error reason else x) = .ok els) : ¬ P ∧ x = .ok els := by
  by_cases hP : P
  · rw [if_pos hP] at h; cases h
  · rw [if_neg hP] at h; exact ⟨hP, h⟩

/-- Stage one answers the element list of the range, if it answers one (R84). -/
theorem State.stageOne_ok {c : Campaign} (h : s.stageOne c = .ok els) :
    els = elementList (s.effectivePath c.pair) c.requested.chip c.first c.last := by
  unfold State.stageOne at h
  obtain ⟨-, h⟩ := ite_error_eq_ok h
  obtain ⟨-, h⟩ := ite_error_eq_ok h
  obtain ⟨-, h⟩ := ite_error_eq_ok h
  obtain ⟨-, h⟩ := ite_error_eq_ok h
  obtain ⟨-, h⟩ := ite_error_eq_ok h
  obtain ⟨-, h⟩ := ite_error_eq_ok h
  exact (Except.ok.inj h).symm

theorem State.stageOne_of_fails {c : Campaign} (h : s.dispatchFails c reason) : s.stageOne c = .error reason := by
  obtain ⟨els, passed, check, failed, hels, hchecks, hpassed, hfailed⟩ := h
  have hdecides := s.stageOne_decides c
  rw [← State.rangeElements_unique hels, hchecks] at hdecides
  have hreason := checksDecide_failed hdecides hpassed hfailed
  cases hs : s.stageOne c with
  | error r => rw [hs] at hreason; cases hreason; rfl
  | ok l => rw [hs] at hreason; cases hreason

theorem State.stageOne_of_passes {c : Campaign} (h : s.dispatchPasses c els) : s.stageOne c = .ok els := by
  obtain ⟨hels, hpassed⟩ := h
  have hunique := State.rangeElements_unique hels
  have hdecides := s.stageOne_decides c
  rw [← hunique] at hdecides
  have hreason := checksDecide_passed hdecides hpassed
  cases hs : s.stageOne c with
  | error r => rw [hs] at hreason; cases hreason
  | ok l => rw [State.stageOne_ok hs, ← hunique]

/-- Stage one reads the plant table, the enable marks and the image of the state, and the request of the campaign. -/
theorem State.stageOne_congr (hlpt : t.lpt = s.lpt) (hpoints : t.pch.enabled = s.pch.enabled) (hbst : t.bst = s.bst) (c : Campaign)
    (periodic : Option PeriodicPart) : t.stageOne { c with periodic := periodic } = s.stageOne c := by
  have hpath : t.effectivePath c.pair = s.effectivePath c.pair :=
    State.effectivePath_congr (congrArg Plant.entries hlpt) (congrArg Plant.paths hlpt) c.pair
  have hlist : t.path c.pair = s.path c.pair := by unfold State.path; rw [hlpt]
  have hpoint : ∀ k, t.pointEnabled k c.pair = s.pointEnabled k c.pair := fun k => by unfold State.pointEnabled; rw [hpoints]
  have hbase : ∀ i, t.appliedBaseline i c.pair = s.appliedBaseline i c.pair := fun i => by
    unfold State.appliedBaseline State.baseline State.entry; rw [hlpt, hbst]
  unfold State.stageOne
  simp only [hpath, hlist, hpoint, hbase]

/-! ## Stage two and the commit (R83, R84) -/

/-- The orders in the way of a candidate (R83, check 2). -/
theorem State.anyOrder_iff {states : List OrderState} : s.anyOrder p states = true ↔ s.orderAmong p states := by
  unfold State.anyOrder
  rw [List.any_eq_true]
  constructor
  · rintro ⟨k, _, hk⟩
    cases ho : s.order k with
    | none => rw [ho] at hk; cases hk
    | some o =>
      rw [ho] at hk
      obtain ⟨hp, hs⟩ := (Bool.and_eq_true ..).to_iff.1 hk
      exact ⟨k, o, ho, beq_iff_eq.1 hp, List.contains_iff_mem.1 hs⟩
  · rintro ⟨k, o, ho, hp, hs⟩
    refine ⟨k, mem_allOrders k, ?_⟩
    rw [ho]
    exact (Bool.and_eq_true ..).to_iff.2 ⟨beq_iff_eq.2 hp, List.contains_iff_mem.2 hs⟩

/-- The states of an order that stands in the way of a campaign (R83, check 2). -/
def statesInWay (c : Campaign) : List OrderState := if c.kind = some .confirm then burstStates else flightStates

theorem State.orderInWay_iff {c : Campaign} : s.orderInWay c = true ↔ s.orderAmong c.pair (statesInWay c) := by
  unfold State.orderInWay statesInWay
  split <;> exact State.anyOrder_iff

/-- A candidate that fails a check of stage two, or finds no room, changes nothing (R83). -/
theorem State.stageTwo_waits (h : s.chain (s.campaign n).pair ≠ [] ∨ s.orderAmong (s.campaign n).pair (statesInWay (s.campaign n))
    ∨ firstFit (5 * els.length) s.ecr.extents 0 = none) : s.stageTwo n els = s := by
  unfold State.stageTwo State.allocate
  refine if_ctx_congr Iff.rfl (fun _ => rfl) (fun hno => ?_) |>.trans (ite_self s)
  rw [Bool.or_eq_true, State.orderInWay_iff, not_or] at hno
  obtain ⟨hchain, horder⟩ := hno
  have hroom := (h.resolve_left fun hc => hchain (by simpa using hc)).resolve_left horder
  rw [hroom]

/-- A candidate that passes stage two is the root of its pair's chain (R44, R84). -/
theorem State.stageTwo_commits {a : Nat} (hchain : s.chain (s.campaign n).pair = [])
    (horder : ¬ s.orderAmong (s.campaign n).pair (statesInWay (s.campaign n)))
    (hroom : firstFit (5 * els.length) s.ecr.extents 0 = some a) :
    s.rootCommitted (s.stageTwo n els) n els a
      ∧ s.stageTwo n els = { s with
          ecr := { s.ecr with extents := (s.stageTwo n els).ecr.extents, cells := (s.stageTwo n els).ecr.cells }
          cen := { s.cen with
            demand := s.cen.demand.filter (fun m => !(m == n))
            slots := (s.stageTwo n els).cen.slots, chains := (s.stageTwo n els).cen.chains } } := by
  obtain ⟨w, hw⟩ : ∃ w, w = ((s.setExtents (insertExtent { start := a, length := 5 * els.length, slot := n } s.ecr.extents)).setCells
    (tableClear s.ecr.cells a (5 * els.length))).setCampaign n { s.campaign n with extent := some (a, 5 * els.length) } := ⟨_, rfl⟩
  have hcommit : s.stageTwo n els = w.commitRoot n els := by
    unfold State.stageTwo State.allocate
    rw [hroom, hw]
    refine if_neg ?_
    rw [Bool.or_eq_true, State.orderInWay_iff, not_or]
    exact ⟨by simpa using hchain, horder⟩
  have hrecord : w.campaign n = { s.campaign n with extent := some (a, 5 * els.length) } := by
    rw [hw]; exact (vector_get_set ..).trans (if_pos rfl)
  have hother : ∀ m, m ≠ n → w.campaign m = s.campaign m := fun m hm => by
    rw [hw]; exact (vector_get_set ..).trans (if_neg hm)
  have hchains : w.cen.chains = s.cen.chains := by rw [hw]; rfl
  obtain ⟨r, hr⟩ : ∃ r, r = committed (w.campaign n) els := ⟨_, rfl⟩
  have hpair : ((w.setCampaign n r).campaign n).pair = (s.campaign n).pair := by
    rw [State.campaign_setCampaign, if_pos rfl, hr, hrecord]; rfl
  have hroot : w.commitRoot n els
      = ((w.setCampaign n r).setChain (s.campaign n).pair [n]).setDemand (w.cen.demand.filter (fun m => !(m == n))) := by
    unfold State.commitRoot
    dsimp only
    rw [← hr, hpair]
    rfl
  rw [hcommit, hroot]
  refine ⟨⟨?_, fun m hm => ?_, ?_, fun q hq => ?_, ?_, fun x => ?_⟩, ?_⟩
  · refine ((vector_get_set ..).trans (if_pos rfl)).trans ?_
    rw [hr, hrecord]
    rfl
  · exact ((vector_get_set ..).trans (if_neg hm)).trans (hother m hm)
  · exact (vector_get_set ..).trans (if_pos rfl)
  · refine ((vector_get_set ..).trans (if_neg hq)).trans ?_
    show w.cen.chains[q] = _
    rw [hchains]; rfl
  · rw [hw]; rfl
  · show tableGet 0 w.ecr.cells x = _
    rw [hw]
    show tableGet 0 (tableClear s.ecr.cells a (5 * els.length)) x = _
    split
    · rename_i hx; exact tableGet_tableClear_in _ _ hx
    · rename_i hx; exact tableGet_tableClear_out _ _ hx
  · rw [hw]; rfl

/-! ## One candidate (R81 to R84) -/

theorem State.examine_fails (h : s.stageOne (s.campaign n) = .error reason) : s.examine n = s.failDispatch n reason := by
  unfold State.examine
  rw [h]

theorem State.examine_passes (h : s.stageOne (s.campaign n) = .ok els) : s.examine n = s.stageTwo n els := by
  unfold State.examine
  rw [h]

theorem State.failDispatch_queued (h : (s.campaign n).state = .queued) : s.failDispatch n reason
    = { s with
        cen := { s.cen with
          demand := s.cen.demand.filter (fun m => !(m == n))
          slots := s.cen.slots.set n { s.campaign n with state := .failed, failure := some reason } }
        clk := { s.clk with reports := joined s.clk.reports [.campaign n] } } := by
  unfold State.failDispatch
  dsimp only
  rw [h]
  exact State.queueOrigin_eq ..

theorem State.failDispatch_periodic (h : (s.campaign n).state = .idlePeriodic) : s.failDispatch n reason
    = { s with
        cen := { s.cen with slots := s.cen.slots.set n { s.campaign n with
          failure := some reason, periodic := (s.campaign n).periodic.map (fun x => { x with due := false }) } }
        clk := { s.clk with reports := joined s.clk.reports [.campaign n] } } := by
  unfold State.failDispatch
  dsimp only
  rw [h]
  exact State.queueOrigin_eq ..

theorem State.failDispatch_reserved (h : (s.campaign n).state = .reserved) : s.failDispatch n reason = s.failConfirm n reason := by
  unfold State.failDispatch
  dsimp only
  rw [h]

/-- A confirm that fails before its verdict ends its order (R151, R153). -/
theorem State.failConfirm_eq {k : OrderNo} {o : Order} (h : s.confirms k o n) :
    s.orderMarks (s.failConfirm n reason) o.entry o.pair .unresolved
      ∧ s.failConfirm n reason = { s with
          lpt := { s.lpt with entries := (s.failConfirm n reason).lpt.entries, records := (s.failConfirm n reason).lpt.records }
          cen := { s.cen with slots := s.cen.slots.set n {} }
          isu := { s.isu with orders := s.isu.orders.set k (some { o with state := .doneUnresolved, reason := some reason }) }
          clk := { s.clk with reports := s.orderOrigins k o .unresolved } } := by
  have hends : s.failConfirm n reason = (s.freeUp n).endOrder k o .doneUnresolved (some reason) .unresolved := by
    unfold State.failConfirm
    dsimp only
    rw [State.confirmOrder_eq h]
  obtain ⟨entries, records, hframe, hmarks⟩ := (s.freeUp n).endOrder_eq k o .doneUnresolved (some reason) .unresolved
  rw [hends]
  refine ⟨hmarks, ?_⟩
  rw [hframe]
  obtain ⟨-, -, hreserved, -⟩ := h
  unfold State.orderOrigins
  rw [hreserved]
  rfl

end Sys2Proof.Machine
end

section
/-! The countdowns of a boundary, and the dispatch pass after them (R69, R70, R80 to R84). -/

namespace Sys2Proof.Machine

variable {s t u v b : State} {n m : Slot} {p : Pair} {els : List Element} {reason : Reason} {frame : Nat}

/-! ## The grant pass with nothing to grant (R34, R62) -/

/-- A channel after a boundary that grants it to no one (R34). -/
def Channel.idled (ch : Channel) : Channel :=
  if ch.state = .coasting ∧ ch.holder = none then { ch with state := .parked, probe := none } else ch

theorem Channel.idled_idled (ch : Channel) : ch.idled.idled = ch.idled := by
  by_cases h : ch.state = .coasting ∧ ch.holder = none
  · have hidle : ch.idled = { ch with state := .parked, probe := none } := if_pos h
    rw [hidle]
    exact if_neg fun hp => nomatch hp.1
  · have hsame : ch.idled = ch := if_neg h
    rw [hsame, hsame]

theorem State.parkIfCoasting_eq (s : State) (c : Chan) : s.parkIfCoasting c = s.setChannel c (s.channel c).idled := by
  unfold State.parkIfCoasting Channel.idled
  split
  · rfl
  · exact (congrArg (fun l => ({ s with pch := { s.pch with channels := l } } : State)) (Vector.set_getElem_self _)).symm

theorem State.channel_foldl_parkIfCoasting (l : List Chan) (s : State) (c : Chan) :
    (l.foldl State.parkIfCoasting s).channel c = if c ∈ l then (s.channel c).idled else s.channel c := by
  induction l generalizing s with
  | nil => rfl
  | cons d l ih =>
    rw [List.foldl_cons, ih, State.parkIfCoasting_eq, State.channel_setChannel]
    by_cases hd : c = d
    · subst hd
      rw [if_pos rfl, if_pos List.mem_cons_self, Channel.idled_idled, ite_self]
    · rw [if_neg hd]
      simp only [List.mem_cons, hd, false_or]

theorem State.parkUngranted_eq (s : State) :
    s.parkUngranted = { s with pch := { s.pch with channels := s.pch.channels.map Channel.idled } } := by
  obtain ⟨channels, hframe⟩ : ∃ channels, s.parkUngranted = { s with pch := { s.pch with channels := channels } } :=
    foldl_keeps (P := fun t => ∃ channels, t = { s with pch := { s.pch with channels := channels } })
      (fun t c => by rintro ⟨channels, rfl⟩; exact ⟨_, State.parkIfCoasting_eq ..⟩) allChannels ⟨_, rfl⟩
  have hchannels : channels = s.pch.channels.map Channel.idled := by
    refine Vector.ext fun i hi => ?_
    have hi' := (State.channel_foldl_parkIfCoasting allChannels s ⟨i, hi⟩).trans (if_pos (mem_allChannels _))
    rw [Vector.getElem_map]
    refine Eq.trans ?_ hi'
    show _ = s.parkUngranted.channel ⟨i, hi⟩
    rw [hframe]
    rfl
  rw [hframe, hchannels]

theorem State.waitingOrders_nil (h : ∀ k ∈ s.isu.acceptance, ∀ o, s.order k = some o → o.state ≠ .waitingChannel) :
    s.waitingOrders = [] := by
  refine List.filter_eq_nil_iff.2 fun k hk => ?_
  cases ho : s.order k with
  | none => exact Bool.false_ne_true
  | some o => exact fun hs => h k hk o ho (beq_iff_eq.1 hs)

/-- With no candidate among the chain tops no pair is served (R64, R65). -/
theorem foldl_considerTop_none {l : List Pair} (h : ∀ p ∈ l, s.candidateTop p = none) (acc : State × List Pair) :
    l.foldl (considerTop s) acc = acc := by
  induction l generalizing acc with
  | nil => rfl
  | cons p l ih =>
    have hp : considerTop s acc p = acc := by unfold considerTop; rw [h p List.mem_cons_self]
    rw [List.foldl_cons, hp]
    exact ih (fun q hq => h q (List.mem_cons_of_mem _ hq)) acc

theorem serviceAfter_nil (l : List Pair) : serviceAfter l [] = l := by
  have hkept : l.filter (fun p => !([] : List Pair).contains p) = l := List.filter_eq_self.2 fun p _ => rfl
  have hserved : allPairs.filter (fun p => ([] : List Pair).contains p) = [] := List.filter_eq_nil_iff.2 fun p _ => Bool.false_ne_true
  unfold serviceAfter
  rw [hkept, hserved, List.append_nil]

theorem State.candidateTop_eq_none (h : s.nothingToGrant) (p : Pair) : s.candidateTop p = none := by
  refine Option.not_isSome_iff_eq_none.1 fun hsome => ?_
  obtain ⟨n, htop, hmeasuring, -, hfree⟩ := State.candidateTop_isSome_iff.1 hsome
  obtain ⟨-, -, -, htops⟩ := h
  rcases htops p n htop with hroom | ⟨-, c, k, lit, hheld⟩
  · rw [hroom] at hmeasuring; cases hmeasuring
  · exact hfree c k lit hheld

theorem nextFrame_eq (h : frame ≤ 4095) : nextFrame frame = if frame = 4095 then 0 else frame + 1 := by
  unfold nextFrame
  exact if_congr ⟨fun h' => Nat.le_antisymm h h', fun h' => h' ▸ Nat.le_refl _⟩ rfl rfl

/-- A boundary's grant pass that grants nothing moves the clock and parks the channels that coast (R34, R60 to R62). -/
theorem State.grantPass_eq_boundaryPassed (h : s.nothingToGrant) : s.advanceClock.grantPass s = s.boundaryPassed := by
  have htops := foldl_considerTop_none (l := s.advanceClock.fga.service) (fun p _ => State.candidateTop_eq_none h p) (s.advanceClock, [])
  obtain ⟨-, hframe, horders, -⟩ := h
  unfold State.grantPass
  rw [State.waitingOrders_nil horders]
  dsimp only [List.foldl_nil]
  rw [htops]
  dsimp only
  rw [serviceAfter_nil, State.parkUngranted_eq]
  unfold State.setService State.advanceClock State.boundaryPassed
  rw [nextFrame_eq hframe]
  rfl

/-! ## The countdowns (R69, R70) -/

theorem parityMatches_eq (tag : Parity) (frame : Nat) :
    parityMatches tag frame = match tag with | .any => true | .even => frame % 2 == 0 | .odd => frame % 2 == 1 := by
  cases tag <;> rfl

theorem fallsDue_iff {x : PeriodicPart} : fallsDue frame x = true ↔ x.countdown - 1 = 0 ∧ parityMatches x.parity frame = true := by
  unfold fallsDue
  rw [Bool.and_eq_true, decide_eq_true_iff, Nat.sub_eq_zero_iff_le]
  refine and_congr_right fun _ => ?_
  cases x.parity <;> exact Iff.rfl

/-- One slot's countdown writes its periodic part, and queues its origin on an overrun (R69, R70). -/
theorem State.runCountdown_eq (s : State) (n : Slot) : s.runCountdown n = { s with
    cen := { s.cen with slots := s.cen.slots.set n (afterCountdown s.fga.frame (s.campaign n)) }
    clk := { s.clk with reports := (joined s.clk.reports
      (if overrunsAt s.fga.frame (s.campaign n) = true then [.campaign n] else [])) } } := by
  unfold State.runCountdown
  cases hpart : (s.campaign n).periodic with
  | none =>
    have hsame : afterCountdown s.fga.frame (s.campaign n) = s.campaign n := by
      unfold afterCountdown
      rw [hpart]
      exact congrArg (fun x => { s.campaign n with periodic := x }) hpart.symm
    have hover : overrunsAt s.fga.frame (s.campaign n) = false := by unfold overrunsAt; rw [hpart]
    rw [hsame, hover]
    exact (congrArg (fun l => ({ s with cen := { s.cen with slots := l } } : State)) (Vector.set_getElem_self _)).symm
  | some x =>
    obtain ⟨w, hw⟩ : ∃ w, w = s.setPeriodic n { x with countdown := x.countdown - 1 } := ⟨_, rfl⟩
    have hrecord : w.campaign n = { s.campaign n with periodic := some { x with countdown := x.countdown - 1 } } := by
      rw [hw]; exact (vector_get_set ..).trans (if_pos rfl)
    have hslots : ∀ c, w.cen.slots.set n c = s.cen.slots.set n c := fun c => by rw [hw]; exact Vector.set_set ..
    have hover : overrunsAt s.fga.frame (s.campaign n)
        = (fallsDue s.fga.frame x && (!((s.campaign n).state == .idlePeriodic) || x.due)) := by
      unfold overrunsAt; rw [hpart]
    have hrun : afterCountdown s.fga.frame (s.campaign n) = { s.campaign n with periodic := (some
        (if fallsDue s.fga.frame x = true then
          { x with
            countdown := x.period
            due := true
            overruns := if overrunsAt s.fga.frame (s.campaign n) = true then min 65535 (x.overruns + 1) else x.overruns }
        else { x with countdown := x.countdown - 1 })) } := by
      unfold afterCountdown; rw [hpart]; rfl
    have hdue : w.dueIfZero n = if fallsDue s.fga.frame x = true then w.fallDue n { x with countdown := x.countdown - 1 } else w := by
      unfold State.dueIfZero
      rw [hrecord]
      refine if_congr ?_ rfl rfl
      rw [fallsDue_iff, hw]
      rfl
    dsimp only
    rw [← hw, hdue, hrun, hover]
    by_cases hf : fallsDue s.fga.frame x = true
    · rw [if_pos hf, if_pos hf, hf, Bool.true_and]
      have hstate : (w.campaign n).state = (s.campaign n).state := by rw [hrecord]
      unfold State.fallDue
      rw [hstate]
      by_cases hidle : (s.campaign n).state = .idlePeriodic ∧ x.due = false
      · rw [if_pos hidle]
        obtain ⟨hst, hx⟩ := hidle
        rw [hst, hx]
        unfold State.setPeriodic State.setCampaign
        rw [hslots, hrecord, hw]
        rfl
      · have hor : (!((s.campaign n).state == .idlePeriodic) || x.due) = true := by
          rw [Bool.or_eq_true, Bool.not_eq_true', beq_eq_false_iff_ne]
          by_contra hn
          rw [not_or, not_not, Bool.not_eq_true] at hn
          exact hidle hn
        rw [if_neg hidle, hor, State.queueOrigin_eq]
        unfold State.setPeriodic State.setCampaign
        rw [hslots, hrecord, hw]
        rfl
    · rw [if_neg hf, if_neg hf, Bool.not_eq_true] at *
      rw [hf, Bool.false_and, hw]
      rfl

/-- The countdowns of distinct slots, one after another (R69, R79). -/
theorem State.foldl_runCountdown {l : List Slot} (hl : l.Nodup) (s : State) :
    (∀ n, (l.foldl State.runCountdown s).campaign n
        = if n ∈ l then afterCountdown s.fga.frame (s.campaign n) else s.campaign n)
      ∧ l.foldl State.runCountdown s = { s with
          cen := { s.cen with slots := (l.foldl State.runCountdown s).cen.slots }
          clk := { s.clk with reports := (joined s.clk.reports
            ((l.filter (fun n => overrunsAt s.fga.frame (s.campaign n))).map Origin.campaign)) } } := by
  induction l generalizing s with
  | nil => exact ⟨fun _ => rfl, rfl⟩
  | cons m l ih =>
    obtain ⟨hm, hl⟩ := List.nodup_cons.1 hl
    obtain ⟨hcampaigns, hframe⟩ := ih hl (s.runCountdown m)
    have hrun := s.runCountdown_eq m
    have hother : ∀ n, n ≠ m → (s.runCountdown m).campaign n = s.campaign n := fun n hn => by
      rw [hrun]; exact (vector_get_set ..).trans (if_neg hn)
    have hself : (s.runCountdown m).campaign m = afterCountdown s.fga.frame (s.campaign m) := by
      rw [hrun]; exact (vector_get_set ..).trans (if_pos rfl)
    have hclock : (s.runCountdown m).fga.frame = s.fga.frame := by rw [hrun]
    rw [List.foldl_cons]
    refine ⟨fun n => ?_, ?_⟩
    · rw [hcampaigns n, hclock]
      by_cases hn : n = m
      · rw [hn, if_neg hm, if_pos List.mem_cons_self, hself]
      · rw [hother n hn]
        simp only [List.mem_cons, hn, false_or]
    · have hlater : l.filter (fun n => overrunsAt (s.runCountdown m).fga.frame ((s.runCountdown m).campaign n))
          = l.filter (fun n => overrunsAt s.fga.frame (s.campaign n)) :=
        List.filter_congr fun n hn => by rw [hclock, hother n (fun e => hm (e ▸ hn))]
      have hreports : (s.runCountdown m).clk.reports = joined s.clk.reports
          (if overrunsAt s.fga.frame (s.campaign m) = true then [.campaign m] else []) := by rw [hrun]
      rw [hlater, hreports, ← joined_append] at hframe
      generalize l.foldl State.runCountdown (s.runCountdown m) = w at hframe
      have hlist : (if overrunsAt s.fga.frame (s.campaign m) = true then [Origin.campaign m] else [])
            ++ (l.filter (fun n => overrunsAt s.fga.frame (s.campaign n))).map Origin.campaign
          = ((m :: l).filter (fun n => overrunsAt s.fga.frame (s.campaign n))).map Origin.campaign := by
        rw [List.filter_cons]
        split <;> rfl
      rw [hlist] at hframe
      exact hframe.trans (by rw [hrun])

theorem State.slots_ext {v w : State} (h : ∀ n, v.campaign n = w.campaign n) : v.cen.slots = w.cen.slots :=
  Vector.ext fun i hi => h ⟨i, hi⟩

/-- A boundary that grants nothing goes on to its dispatch pass with the countdowns run (R60 to R62, R69; log 11). -/
theorem exec_boundary_of_nothingToGrant (h : s.nothingToGrant) (hl : s.cen.periodic.Nodup)
    (hv : s.countdownsRun v s.boundaryPassed.fga.frame) :
    exec .boundary s = .next v.boundaryPassed.dispatchPass.concludeEvent := by
  have hexec : exec .boundary s = .next s.boundary := by
    show execBoundary s = _
    unfold execBoundary
    rw [h.1]
  obtain ⟨hcampaigns, hframe⟩ := State.foldl_runCountdown (l := s.cen.periodic) hl s.boundaryPassed
  obtain ⟨hrun, hrest⟩ := hv
  have hsame : s.boundaryPassed.runCountdowns = v.boundaryPassed := by
    refine Eq.trans (b := s.cen.periodic.foldl State.runCountdown s.boundaryPassed) rfl ?_
    have hslots : (s.cen.periodic.foldl State.runCountdown s.boundaryPassed).cen.slots = v.cen.slots :=
      State.slots_ext fun n => (hcampaigns n).trans (hrun n).symm
    rw [hslots] at hframe
    rw [hframe, hrest]
    rfl
  rw [hexec]
  unfold State.boundary
  rw [State.grantPass_eq_boundaryPassed h, hsame]

/-! ## The groups of the dispatch pass (R80) -/

theorem State.foldl_retryRoom_none {l : List Pair}
    (h : ∀ p ∈ l, ∀ n, (s.chain p).getLast? = some n → (s.campaign n).state ≠ .awaitingRoom) : l.foldl State.retryRoom s = s := by
  induction l with
  | nil => rfl
  | cons p l ih =>
    have hp : s.retryRoom p = s := by
      unfold State.retryRoom State.chainTop
      cases htop : (s.chain p).getLast? with
      | none => rfl
      | some n => exact if_neg (h p List.mem_cons_self n htop)
    rw [List.foldl_cons, hp]
    exact ih fun q hq => h q (List.mem_cons_of_mem _ hq)

theorem State.waitingConfirms_none (h : s.noneConfirms) : s.waitingConfirms = [] := by
  refine List.filterMap_eq_nil_iff.2 fun k _ => ?_
  cases ho : s.order k with
  | none => rfl
  | some o => exact if_neg fun ⟨hstate, hreserved, _⟩ => h k o ho hstate hreserved

theorem State.mem_dueSlots : n ∈ s.dueSlots ↔ n ∈ s.cen.periodic ∧ s.duePeriodic n := by
  unfold State.dueSlots State.duePeriodic
  rw [List.mem_filter, Bool.and_eq_true, beq_iff_eq]
  refine and_congr_right fun _ => and_congr_right fun _ => ?_
  cases (s.campaign n).periodic with
  | none => simp
  | some x => simp

/-- The only due slot of a list without repetition is the pass's one candidate of its group. -/
theorem State.dueSlots_single (hl : s.cen.periodic.Nodup) (hn : n ∈ s.cen.periodic) (hd : s.duePeriodic n)
    (ho : ∀ m ∈ s.cen.periodic, m ≠ n → ¬ s.duePeriodic m) : s.dueSlots = [n] := by
  have hmem : ∀ m, m ∈ s.dueSlots ↔ m = n := fun m => by
    rw [State.mem_dueSlots]
    refine ⟨fun ⟨hm, hdm⟩ => ?_, fun e => e ▸ ⟨hn, hd⟩⟩
    by_contra hne
    exact ho m hm hne hdm
  exact List.perm_singleton.1 ((List.perm_ext_iff_of_nodup (hl.filter _) (List.nodup_singleton n)).2
    fun m => (hmem m).trans List.mem_singleton.symm)

theorem State.dueSlots_none (h : ∀ n ∈ s.cen.periodic, ¬ s.duePeriodic n) : s.dueSlots = [] :=
  List.eq_nil_iff_forall_not_mem.2 fun n hn => h n (State.mem_dueSlots.1 hn).1 (State.mem_dueSlots.1 hn).2

/-- The dispatch pass with neither a chain top that seeks room nor a confirm: the due slots, then the demand queue (R80). -/
theorem State.dispatchPass_eq (h1 : s.noneSeeksRoom) (h2 : s.noneConfirms) :
    s.dispatchPass = (s.dueSlots.foldl State.examine s).cen.demand.foldl State.examine (s.dueSlots.foldl State.examine s) := by
  unfold State.dispatchPass
  rw [State.foldl_retryRoom_none fun p _ => h1 p]
  dsimp only
  rw [State.waitingConfirms_none h2]
  rfl

/-! ## The countdowns leave the other candidates as they were -/

theorem State.countdownsRun.state (h : s.countdownsRun v frame) (n : Slot) : (v.campaign n).state = (s.campaign n).state := by
  rw [h.1]; split <;> rfl

theorem State.countdownsRun.noneSeeksRoom (h : s.countdownsRun v frame) (hs : s.noneSeeksRoom) : v.boundaryPassed.noneSeeksRoom :=
  fun q m hm hstate => hs q m (by rw [h.2] at hm; exact hm) ((h.state m).symm.trans hstate)

theorem State.countdownsRun.noneConfirms (h : s.countdownsRun v frame) (hs : s.noneConfirms) : v.boundaryPassed.noneConfirms :=
  fun k o ho hstate hreserved => hs k o (by rw [h.2] at ho; exact ho) hstate ((h.state o.reserved).symm.trans hreserved)

/-- A record after its countdown, if it has run one, asks for the same campaign. -/
theorem State.countdownsRun.periodic (h : s.countdownsRun v frame) (n : Slot) :
    v.campaign n = { s.campaign n with periodic := (v.campaign n).periodic } := by
  rw [h.1]; split <;> rfl

theorem State.countdownsRun.stageOne (h : s.countdownsRun v frame) (n : Slot) :
    v.boundaryPassed.stageOne (v.boundaryPassed.campaign n) = s.stageOne (s.campaign n) := by
  show v.boundaryPassed.stageOne (v.campaign n) = _
  rw [h.periodic n]
  exact State.stageOne_congr (by rw [h.2]; rfl) (by rw [h.2]; rfl) (by rw [h.2]; rfl) _ _

/-- PERIODIC_DUE of a slot on the list (R69; log 11). -/
theorem exec_periodicDue (hready : s.clk.part = .ready) (hn : n ∈ s.cen.periodic) :
    exec (.periodicDue n) s = .next (s.dueIfZero n).concludeEvent := by
  show execPeriodicDue n s = _
  unfold execPeriodicDue
  exact if_pos ⟨hready, hn⟩

/-- Settles O44: PERIODIC_DUE by R70's two cases, and the boundary's countdowns with the one candidate they leave. -/
theorem periodicSlotFallsDue : Obligations.PeriodicSlotFallsDue := by
  refine ⟨fun n x s hready hn hx hzero hparity => ?_, fun s b v hnone hroom hconf hdemand hl hv hb => ?_⟩
  · have hmatch : parityMatches x.parity s.fga.frame = true := by
      rw [parityMatches_eq]
      rcases hparity with hp | ⟨hp, hf⟩ | ⟨hp, hf⟩ <;> rw [hp]
      · exact beq_iff_eq.2 hf
      · exact beq_iff_eq.2 hf
    have hfalls : s.dueIfZero n = s.fallDue n x := by
      unfold State.dueIfZero
      rw [hx]
      exact if_pos ⟨hzero, hmatch⟩
    rw [exec_periodicDue hready hn, hfalls]
    unfold State.fallDue
    refine ⟨fun hidle hdue => ?_, fun hover => ?_⟩
    · rw [if_pos ⟨hidle, hdue⟩]
      rfl
    · rw [if_neg (fun h => hover.elim (fun ho => ho h.1) (fun ho => by rw [ho] at h; cases h.2)), State.queueOrigin_eq]
      rfl
  · have hexec : exec .boundary s = .next b.dispatchPass.concludeEvent := by
      rw [hb]; exact exec_boundary_of_nothingToGrant hnone hl hv
    have hpass := State.dispatchPass_eq (s := b) (hb ▸ hv.noneSeeksRoom hroom) (hb ▸ hv.noneConfirms hconf)
    have hbdemand : b.cen.demand = [] := by rw [hb, hv.2]; exact hdemand
    have hbperiodic : b.cen.periodic = s.cen.periodic := by rw [hb, hv.2]; rfl
    have hdue : ∀ n, b.duePeriodic n ↔ v.duePeriodic n := fun n => by rw [hb]; exact Iff.rfl
    refine ⟨fun hnot => ?_, fun n x hn hd hothers hkind hx => ⟨fun reason hfails => ?_, fun els hpasses => ⟨fun a hchain horder hfit => ?_,
      fun hwait => ?_⟩⟩⟩
    · rw [State.dueSlots_none (fun n hn hd => hnot n (hbperiodic ▸ hn) ((hdue n).1 hd)), List.foldl_nil, hbdemand] at hpass
      rw [hexec, hpass]
      rfl
    all_goals
      have hone : b.dueSlots = [n] := State.dueSlots_single (hbperiodic ▸ hl) (hbperiodic ▸ hn) ((hdue n).2 hd)
        fun m hm hne hdm => hothers m (hbperiodic ▸ hm) hne ((hdue m).1 hdm)
      have hrecord : b.campaign n = v.campaign n := by rw [hb]; rfl
      have hstage : b.stageOne (b.campaign n) = s.stageOne (s.campaign n) := by rw [hb]; exact hv.stageOne n
      have hpair : (b.campaign n).pair = (s.campaign n).pair := by rw [hrecord, hv.periodic]
      have hstates : statesInWay (b.campaign n) = flightStates := by
        rw [hrecord, hv.periodic]; exact if_neg hkind
      have hbchain : ∀ q, b.chain q = s.chain q := fun q => by rw [hb, hv.2]; rfl
      have hborders : ∀ q l, b.orderAmong q l ↔ s.orderAmong q l := fun q l => by rw [hb, hv.2]; exact Iff.rfl
      have hbextents : b.ecr.extents = s.ecr.extents := by rw [hb, hv.2]; rfl
      rw [hone, List.foldl_cons, List.foldl_nil] at hpass
    · have hexamine : b.examine n = b.failDispatch n reason :=
        State.examine_fails (hstage.trans (State.stageOne_of_fails hfails))
      have hfail := State.failDispatch_periodic (s := b) (n := n) (reason := reason) (hrecord ▸ hd.1)
      rw [hexamine] at hpass
      generalize b.failDispatch n reason = t at hfail hpass
      have htdemand : t.cen.demand = [] := by rw [hfail]; exact hbdemand
      rw [htdemand, List.foldl_nil] at hpass
      rw [hexec, hpass, hfail, hrecord, hx, hb]
      rfl
    · have hexamine : b.examine n = b.stageTwo n els := State.examine_passes (hstage.trans (State.stageOne_of_passes hpasses))
      obtain ⟨hroot, hframe⟩ := State.stageTwo_commits (s := b) (n := n) (els := els) (a := a) (by rw [hbchain, hpair]; exact hchain)
        (by rw [hborders, hpair, hstates]; exact horder) (by rw [hbextents]; exact hfit)
      rw [hexamine] at hpass
      generalize b.stageTwo n els = t at hroot hframe hpass
      have htdemand : t.cen.demand = [] := by rw [hframe, hbdemand]; rfl
      rw [htdemand, List.foldl_nil] at hpass
      refine ⟨t, by rw [hexec, hpass], ?_, ?_⟩
      · rw [hb] at hroot; exact hroot
      · have hvdemand : v.cen.demand = [] := by rw [hv.2]; exact hdemand
        have hempty : b.cen.demand.filter (fun m => !(m == n)) = v.cen.demand := by rw [hbdemand, hvdemand]; rfl
        rw [hempty] at hframe
        have hecr : v.ecr = s.ecr := by rw [hv.2]
        exact hframe.trans (by rw [hb, ← hecr]; rfl)
    · have hexamine : b.examine n = b := by
        rw [State.examine_passes (hstage.trans (State.stageOne_of_passes hpasses))]
        refine State.stageTwo_waits ?_
        rw [hbchain, hpair, hborders, hstates, hbextents]
        exact hwait
      rw [hexamine, hbdemand, List.foldl_nil] at hpass
      rw [hexec, hpass]

end Sys2Proof.Machine
end

section
/-! The grant pass (R24, R31, R62 to R66), one rule per grant, and what a boundary leaves as it was (R60, R61). -/

namespace Sys2Proof.Machine

variable {s t u v before : State} {c d : Chan} {n m : Slot} {p q : Pair} {k : OrderNo} {o : Order} {sig : Signature} {mustPrime : Bool}
  {h : Holder}

/-! ## Channels free and held -/

theorem State.isFree_iff : (s.channel c).isFree = true ↔ s.channelFree c := by
  rw [← not_iff_not, ← State.isHeld_iff, Channel.isHeld, Bool.not_eq_true']
  simp

theorem State.not_free_of_held (hc : (s.channel c).holder ≠ none) : ¬ s.channelFree c := fun hf => hc hf.1

theorem State.barred_of_held (hc : (s.channel c).holder ≠ none) (hp : (s.channel c).point = some p) : s.barred p = true :=
  State.barred_iff.2 ⟨c, State.not_free_of_held hc, hp⟩

/-- The lowest-numbered free channel with an enabled point is free. -/
theorem State.lowestFree_some (hc : s.lowestFree p = some c) : s.channelFree c := by
  have hfound := List.find?_some hc
  exact State.isFree_iff.1 (Bool.and_eq_true .. ▸ hfound).1

theorem State.lowestFree_of (hfree : s.channelFree c) (hpoint : s.pointEnabled c p = true)
    (hlow : ∀ d, d < c → s.channelFree d → s.pointEnabled d p = false) : s.lowestFree p = some c := by
  refine find?_lowest (by decide) (mem_allChannels c) (by rw [State.isFree_iff.2 hfree, hpoint]; rfl) fun d hd => ?_
  cases hf : (s.channel d).isFree with
  | false => rfl
  | true => exact hlow d hd (State.isFree_iff.1 hf)

theorem State.chooseChannel_some (hc : s.chooseChannel p = some c) : s.channelFree c := by
  unfold State.chooseChannel at hc
  split at hc
  · split at hc
    · rename_i hx
      cases hc
      exact State.isFree_iff.1 (Bool.and_eq_true .. ▸ hx).1
    · exact State.lowestFree_some hc
  · exact State.lowestFree_some hc

/-- The pair's previous channel if it is free and enabled, else the lowest-numbered one (R64). -/
theorem State.chooseChannel_of (hfree : s.channelFree c) (hpoint : s.pointEnabled c p = true)
    (hc : s.fga.previous[p] = some c
      ∨ (∀ d, s.fga.previous[p] = some d → s.channelFree d → s.pointEnabled d p = false)
        ∧ ∀ d, d < c → s.channelFree d → s.pointEnabled d p = false) : s.chooseChannel p = some c := by
  unfold State.chooseChannel
  rcases hc with hprev | ⟨hprev, hlow⟩
  · rw [hprev]
    dsimp only
    rw [State.isFree_iff.2 hfree, hpoint]
    rfl
  · cases hd : s.fga.previous[p] with
    | none => exact State.lowestFree_of hfree hpoint hlow
    | some d =>
      refine (if_neg fun hx => ?_).trans (State.lowestFree_of hfree hpoint hlow)
      obtain ⟨hdf, hde⟩ := (Bool.and_eq_true ..).to_iff.1 hx
      rw [hprev d hd (State.isFree_iff.1 hdf)] at hde
      cases hde

/-! ## A grant carried out (R24, R33) -/

/-- The channel of a grant that has been carried out. -/
def State.grantedChannel (s : State) (c : Chan) (p : Pair) (h : Holder) (sig : Signature) (mustPrime : Bool) : Channel :=
  if (s.channel c).point ≠ some p then { state := .settling, point := some p, probe := none, holder := some h }
  else if (s.channel c).probe = some sig ∧ mustPrime = false then { s.channel c with holder := some h }
  else { state := .priming, point := some p, probe := some sig, holder := some h }

theorem State.settles_iff : s.settles c p = true ↔ (s.channel c).point ≠ some p := by
  unfold State.settles
  rw [Bool.not_eq_true', beq_eq_false_iff_ne]

theorem State.channel_openElsewhere (s : State) (c : Chan) (p : Pair) (d : Chan) :
    (s.openElsewhere c p).channel d = if d ≠ c ∧ (s.channel d).point = some p then {} else s.channel d := by
  suffices hfold : ∀ (l : List Chan) (s : State),
      (l.foldl (fun s d => if d ≠ c ∧ (s.channel d).point = some p then s.setChannel d {} else s) s).channel d
        = if d ∈ l ∧ d ≠ c ∧ (s.channel d).point = some p then {} else s.channel d by
    refine (hfold allChannels s).trans (if_congr ?_ rfl rfl)
    exact and_iff_right (mem_allChannels d)
  intro l
  induction l with
  | nil => intro s; exact (if_neg fun h => nomatch h.1).symm
  | cons e l ih =>
    intro s
    rw [List.foldl_cons, ih]
    by_cases he : e ≠ c ∧ (s.channel e).point = some p
    · rw [if_pos he, State.channel_setChannel]
      by_cases hd : d = e
      · subst hd
        rw [if_pos rfl, ite_self, if_pos ⟨List.mem_cons_self, he⟩]
      · rw [if_neg hd]
        simp only [List.mem_cons, hd, false_or]
    · rw [if_neg he]
      by_cases hd : d = e
      · subst hd
        rw [if_neg fun h => he h.2, if_neg fun h => he h.2]
      · simp only [List.mem_cons, hd, false_or]

theorem State.openElsewhere_frame (s : State) (c : Chan) (p : Pair) :
    ∃ channels, s.openElsewhere c p = { s with pch := { s.pch with channels := channels } } := by
  refine foldl_keeps (P := fun t => ∃ channels, t = { s with pch := { s.pch with channels := channels } }) (fun t d ht => ?_)
    allChannels ⟨_, rfl⟩
  obtain ⟨channels, rfl⟩ := ht
  split <;> exact ⟨_, rfl⟩

/-- A grant writes the channels alone. -/
theorem State.carryGrant_frame (s : State) (c : Chan) (p : Pair) (h : Holder) (sig : Signature) (mustPrime : Bool) :
    ∃ channels, s.carryGrant c p h sig mustPrime = { s with pch := { s.pch with channels := channels } } := by
  unfold State.carryGrant
  split
  · obtain ⟨channels, hopen⟩ := s.openElsewhere_frame c p
    rw [hopen]
    exact ⟨_, rfl⟩
  · split <;> exact ⟨_, rfl⟩

theorem State.channel_carryGrant_same : (s.carryGrant c p h sig mustPrime).channel c = s.grantedChannel c p h sig mustPrime := by
  unfold State.carryGrant State.grantedChannel
  by_cases hs : (s.channel c).point ≠ some p
  · rw [if_pos (State.settles_iff.2 hs), if_pos hs]
    exact (vector_get_set ..).trans (if_pos rfl)
  · have hsettles : s.settles c p = false := Bool.eq_false_iff.2 fun hx => hs (State.settles_iff.1 hx)
    have hprimes : s.primes c p sig mustPrime = true ↔ ¬ ((s.channel c).probe = some sig ∧ mustPrime = false) := by
      unfold State.primes
      rw [hsettles, Bool.false_or, Bool.or_eq_true, Bool.not_eq_true', beq_eq_false_iff_ne, not_and_or, Bool.not_eq_false]
    rw [hsettles, if_neg Bool.false_ne_true, if_neg hs]
    by_cases hp : (s.channel c).probe = some sig ∧ mustPrime = false
    · rw [if_neg (fun hx => hprimes.1 hx hp), if_pos hp]
      exact (vector_get_set ..).trans (if_pos rfl)
    · rw [if_pos (hprimes.2 hp), if_neg hp]
      exact (vector_get_set ..).trans (if_pos rfl)

/-- A grant leaves every other channel, but opens the pair's point where another one holds it (R24). -/
theorem State.channel_carryGrant_ne (hd : d ≠ c) : (s.carryGrant c p h sig mustPrime).channel d = s.channel d
    ∨ (s.channel d).point = some p ∧ (s.carryGrant c p h sig mustPrime).channel d = {} := by
  unfold State.carryGrant
  split
  · rw [State.channel_setChannel, if_neg hd, State.channel_openElsewhere]
    by_cases hp : (s.channel d).point = some p
    · exact .inr ⟨hp, if_pos ⟨hd, hp⟩⟩
    · exact .inl (if_neg fun hx => hp hx.2)
  · split
    · exact .inl ((vector_get_set ..).trans (if_neg hd))
    · exact .inl ((vector_get_set ..).trans (if_neg hd))

theorem State.grantedChannel_holder : (s.grantedChannel c p h sig mustPrime).holder = some h := by
  unfold State.grantedChannel
  split
  · rfl
  · split <;> rfl

theorem State.grantedChannel_point : (s.grantedChannel c p h sig mustPrime).point = some p := by
  unfold State.grantedChannel
  split
  · rfl
  · rename_i hp
    split
    · exact not_not.1 hp
    · rfl

/-- A free channel has been granted to a pair that no held channel held. -/
structure State.grantedTo (s t : State) (c : Chan) (p : Pair) : Prop where
  wasFree : s.channelFree c
  notBarred : ¬ s.barred p = true
  held : (t.channel c).holder ≠ none
  point : (t.channel c).point = some p
  others : ∀ d, d ≠ c → t.channel d = s.channel d ∨ (s.channel d).point = some p ∧ t.channel d = {}

/-- A held channel stays as it is while others are granted. -/
theorem State.grantedTo.keeps_held (h : s.grantedTo t c p) (hd : (s.channel d).holder ≠ none) : t.channel d = s.channel d := by
  have hne : d ≠ c := fun e => hd (e ▸ h.wasFree.1)
  refine (h.others d hne).resolve_right fun ⟨hp, _⟩ => h.notBarred (State.barred_of_held hd hp)

theorem State.carryGrant_grantedTo {u : State} (hu : s.pch.channels = u.pch.channels) (ht : t.pch.channels
    = (u.carryGrant c p h sig mustPrime).pch.channels) (hfree : s.channelFree c) (hbar : ¬ s.barred p = true) : s.grantedTo t c p := by
  have hsame : ∀ d, s.channel d = u.channel d := fun d => by unfold State.channel; rw [hu]
  have hafter : ∀ d, t.channel d = (u.carryGrant c p h sig mustPrime).channel d := fun d => by unfold State.channel; rw [ht]
  refine ⟨hfree, hbar, ?_, ?_, fun d hd => ?_⟩
  · rw [hafter, State.channel_carryGrant_same, State.grantedChannel_holder]
    exact Option.some_ne_none h
  · rw [hafter, State.channel_carryGrant_same, State.grantedChannel_point]
  · rw [hafter, hsame]
    exact State.channel_carryGrant_ne hd

/-! ## A grant to an order (R65, R136) -/

/-- The order record of a grant (R136). -/
def Order.grantedOn (o : Order) (level : Nat × Code) (c : Chan) : Order := { o.referencing level with channel := some c }

/-- A grant to an order writes its record, its channel's working cells, the channels and the pair's previous channel. -/
theorem State.grantOrder_eq (s : State) (k : OrderNo) (o : Order) (c : Chan) : ∃ w channels,
    w = (s.setOrder k (some (o.grantedOn (s.orderLevel o) c))).clearWorking c
      ∧ channels = (w.carryGrant c o.pair (.order k) (o.grantedOn (s.orderLevel o) c).signature false).pch.channels
      ∧ s.grantOrder k o c = { s with
          pch := { s.pch with channels := channels }
          fga := { s.fga with previous := s.fga.previous.set o.pair (some c) }
          isu := { s.isu with
            orders := s.isu.orders.set k (some (o.grantedOn (s.orderLevel o) c))
            working := s.isu.working.set c (Vector.replicate 5 0) } } := by
  obtain ⟨x, hx⟩ : ∃ x, x = o.grantedOn (s.orderLevel o) c := ⟨_, rfl⟩
  have hgrant : s.grantOrder k o c = (((s.setOrder k (some x)).clearWorking c).carryGrant c o.pair (.order k) x.signature
      false).setPrevious o.pair c := by
    rw [hx]; rfl
  obtain ⟨channels, hframe⟩ := ((s.setOrder k (some x)).clearWorking c).carryGrant_frame c o.pair (.order k) x.signature false
  rw [← hx]
  refine ⟨_, channels, rfl, by rw [hframe], ?_⟩
  rw [hgrant, hframe]
  rfl

theorem State.grantOrder_grantedTo (hfree : s.channelFree c) (hbar : ¬ s.barred o.pair = true) :
    s.grantedTo (s.grantOrder k o c) c o.pair := by
  obtain ⟨w, channels, hw, hchannels, hframe⟩ := s.grantOrder_eq k o c
  exact State.carryGrant_grantedTo (u := w) (by rw [hw]; rfl) (by rw [hframe]; exact hchannels) hfree hbar

/-- One order examined is left, or granted the lowest-numbered free channel of a pair that is not barred (R62, R63). -/
theorem State.considerOrder_cases (s : State) (k : OrderNo) : s.considerOrder k = s ∨ ∃ o c, s.order k = some o
    ∧ ¬ s.barred o.pair = true ∧ s.lowestFree o.pair = some c ∧ s.considerOrder k = s.grantOrder k o c := by
  unfold State.considerOrder
  cases ho : s.order k with
  | none => exact .inl rfl
  | some o =>
    by_cases hb : s.barred o.pair = true
    · exact .inl (if_pos hb)
    · cases hc : s.lowestFree o.pair with
      | none => exact .inl ((if_neg hb).trans (by rw [hc]))
      | some c => exact .inr ⟨o, c, rfl, hb, hc, (if_neg hb).trans (by rw [hc])⟩

/-- What every grant to an order keeps, the orders' part of the pass keeps. -/
theorem State.considerOrders_keep {P : State → Prop}
    (hP : ∀ u k o c, P u → u.order k = some o → ¬ u.barred o.pair = true → u.channelFree c → P (u.grantOrder k o c))
    (l : List OrderNo) (h : P s) : P (l.foldl State.considerOrder s) := by
  refine foldl_keeps (fun u k hu => ?_) l h
  rcases u.considerOrder_cases k with e | ⟨o, c, ho, hb, hc, e⟩
  · rw [e]; exact hu
  · rw [e]; exact hP u k o c hu ho hb (State.lowestFree_some hc)

/-! ## A grant to a chain top (R31, R65 to R67) -/

/-- The applied settings of a campaign are fixed in its record and its cells alone (R31, R48). -/
theorem State.fixCampaignLevel_frame (s : State) (n : Slot) : ∃ x cells,
    s.fixCampaignLevel n = { s with
        ecr := { s.ecr with cells := cells }
        cen := { s.cen with slots := s.cen.slots.set n x } }
      ∧ ∀ a, tableGet 0 s.ecr.cells a = 0 → tableGet 0 cells a = 0 := by
  obtain ⟨x, cells, hdrop, hzero⟩ : ∃ x cells, s.dropExcessLevel n = { s with
        ecr := { s.ecr with cells := cells }
        cen := { s.cen with slots := s.cen.slots.set n x } }
      ∧ ∀ a, tableGet 0 s.ecr.cells a = 0 → tableGet 0 cells a = 0 := by
    have hsame : s = { s with
        ecr := { s.ecr with cells := s.ecr.cells }
        cen := { s.cen with slots := s.cen.slots.set n (s.campaign n) } } :=
      congrArg (fun l => ({ s with cen := { s.cen with slots := l } } : State)) (Vector.set_getElem_self _).symm
    unfold State.dropExcessLevel
    split
    · exact ⟨_, _, hsame, fun _ ha => ha⟩
    · split
      · refine ⟨_, zeroedCells s.ecr.cells (s.campaign n).extent, congrArg (fun l => ({ s with
          ecr := { s.ecr with cells := zeroedCells s.ecr.cells (s.campaign n).extent }
          cen := { s.cen with slots := l } } : State)) (Vector.set_set ..), fun a ha => ?_⟩
        unfold zeroedCells
        split
        · exact ha
        · rename_i start length _
          by_cases hin : start ≤ a ∧ a < start + length
          · exact tableGet_tableClear_in _ _ hin
          · rw [tableGet_tableClear_out _ _ hin]; exact ha
      · exact ⟨_, _, hsame, fun _ ha => ha⟩
  unfold State.fixCampaignLevel
  generalize s.dropExcessLevel n = w at hdrop
  dsimp only
  split
  · have hset : ∀ y, w.setCampaign n y = { s with
        ecr := { s.ecr with cells := cells }
        cen := { s.cen with slots := s.cen.slots.set n y } } := fun y => by
      rw [hdrop]
      exact congrArg (fun l => ({ s with ecr := { s.ecr with cells := cells }, cen := { s.cen with slots := l } } : State))
        (Vector.set_set ..)
    exact ⟨_, cells, hset _, hzero⟩
  · exact ⟨x, cells, hdrop, hzero⟩

/-- The length of a slice, with its campaign's settings fixed (R67). -/
def State.sliceTime (s : State) (p : Pair) (x : Campaign) (c : Chan) : Nat :=
  min (sliceLength s.fga.interval (s.settles c p) (s.primes c p x.signature x.mustPrime)
    (periodMicros x.requested.chip x.requested.sequence)) (x.periods - x.accepted)

/-- A grant to a chain top writes its record and cells, the channels, and the pair's last-served frame and previous channel. -/
theorem State.grantSlice_eq (s : State) (p : Pair) (n : Slot) (c : Chan) : ∃ w channels,
    w = s.fixCampaignLevel n
      ∧ channels = (w.carryGrant c p (.slice n (w.sliceTime p (w.campaign n) c) false) (w.campaign n).signature
          (w.campaign n).mustPrime).pch.channels
      ∧ s.grantSlice p n c = { w with
          pch := { w.pch with channels := channels }
          fga := { w.fga with previous := w.fga.previous.set p (some c), lastServed := w.fga.lastServed.set p (some w.fga.frame) } } := by
  obtain ⟨w, hw⟩ : ∃ w, w = s.fixCampaignLevel n := ⟨_, rfl⟩
  have hgrant : s.grantSlice p n c = ((w.carryGrant c p (.slice n (w.sliceTime p (w.campaign n) c) false) (w.campaign n).signature
      (w.campaign n).mustPrime).setPrevious p c).setLastServed p := by
    rw [hw]; rfl
  obtain ⟨channels, hframe⟩ := w.carryGrant_frame c p (.slice n (w.sliceTime p (w.campaign n) c) false) (w.campaign n).signature
    (w.campaign n).mustPrime
  refine ⟨w, channels, hw, by rw [hframe], ?_⟩
  rw [hgrant, hframe]
  rfl

theorem State.grantSlice_grantedTo (hfree : s.channelFree c) (hbar : ¬ s.barred p = true) :
    s.grantedTo (s.grantSlice p n c) c p := by
  obtain ⟨w, channels, hw, hchannels, hframe⟩ := s.grantSlice_eq p n c
  obtain ⟨x, cells, hfix, -⟩ := s.fixCampaignLevel_frame n
  exact State.carryGrant_grantedTo (u := w) (by rw [hw, hfix]) (by rw [hframe]; exact hchannels) hfree hbar

/-- One pair examined is left, or its candidate granted a free channel where the pair is not barred (R62, R64). -/
theorem considerTop_cases (before : State) (acc : State × List Pair) (p : Pair) : considerTop before acc p = acc
    ∨ ∃ n c, before.candidateTop p = some n ∧ ¬ acc.1.barred p = true ∧ acc.1.chooseChannel p = some c
      ∧ considerTop before acc p = (acc.1.grantSlice p n c, acc.2 ++ [p]) := by
  unfold considerTop
  cases hn : before.candidateTop p with
  | none => exact .inl rfl
  | some n =>
    by_cases hb : acc.1.barred p = true
    · exact .inl (if_pos hb)
    · cases hc : acc.1.chooseChannel p with
      | none => exact .inl (if_neg hb)
      | some c => exact .inr ⟨n, c, rfl, hb, rfl, if_neg hb⟩

/-- What every grant to a chain top keeps, with the list of the pairs served, the chain tops' part of the pass keeps. -/
theorem considerTops_keep {P : State → List Pair → Prop}
    (hP : ∀ u served q n c, P u served → before.candidateTop q = some n → ¬ u.barred q = true → u.channelFree c →
      P (u.grantSlice q n c) (served ++ [q]))
    (l : List Pair) {acc : State × List Pair} (h : P acc.1 acc.2) :
    P (l.foldl (considerTop before) acc).1 (l.foldl (considerTop before) acc).2 := by
  induction l generalizing acc with
  | nil => exact h
  | cons q l ih =>
    rw [List.foldl_cons]
    refine ih ?_
    rcases considerTop_cases before acc q with e | ⟨n, c, hn, hb, hc, e⟩
    · rw [e]; exact h
    · rw [e]; exact hP acc.1 acc.2 q n c h hn hb (State.chooseChannel_some hc)

/-! ## The pass as a whole -/

/-- What every grant keeps, and the parking at its end, the grant pass keeps. -/
theorem State.grantPass_keeps {P : State → Prop}
    (horder : ∀ u k o c, P u → u.order k = some o → ¬ u.barred o.pair = true → u.channelFree c → P (u.grantOrder k o c))
    (hslice : ∀ u q n c, P u → ¬ u.barred q = true → u.channelFree c → P (u.grantSlice q n c))
    (hservice : ∀ u l, P u → P (u.setService l)) (hpark : ∀ u, P u → P u.parkUngranted) (h : P s) : P (s.grantPass before) := by
  unfold State.grantPass
  dsimp only
  exact hpark _ (hservice _ _ (considerTops_keep (P := fun u _ => P u) (fun u _ q n c hu _ hb hc => hslice u q n c hu hb hc) _
    (State.considerOrders_keep horder _ h)))

theorem State.channel_parkUngranted (s : State) (c : Chan) : s.parkUngranted.channel c = (s.channel c).idled := by
  rw [State.parkUngranted_eq]
  exact Vector.getElem_map ..

theorem Channel.idled_of_held {ch : Channel} (h : ch.holder ≠ none) : ch.idled = ch := if_neg fun hx => h hx.2

/-- A channel that is held keeps its state, its point, its probe and its holder through the grant pass (R62). -/
theorem State.grantPass_held (hc : (s.channel c).holder ≠ none) : (s.grantPass before).channel c = s.channel c := by
  refine State.grantPass_keeps (P := fun u => u.channel c = s.channel c) (fun u k o d hu _ hb hd => ?_) (fun u q n d hu hb hd => ?_)
    (fun _ _ hu => hu) (fun u hu => ?_) rfl
  · exact ((State.grantOrder_grantedTo hd hb).keeps_held (hu ▸ hc)).trans hu
  · exact ((State.grantSlice_grantedTo hd hb).keeps_held (hu ▸ hc)).trans hu
  · rw [State.channel_parkUngranted, hu, Channel.idled_of_held hc]

/-! ## What a boundary leaves as it was -/

/-- What no part of a boundary but its clock writes. -/
def State.settled (s : State) :=
  (s.pch.enabled, s.pch.ceilings, s.ecr.floor, s.flo.tStep, s.flo.tDrift, s.lpt.paths, s.lpt.spans, s.lpt.assembly, s.isu.gates,
    s.isu.settings, s.bst, s.clk.levels, s.clk.replies, s.clk.part, s.clk.lastReset, s.clk.pendingReset, s.fga.frame,
    s.fga.interval, s.fga.pendingInterval)

theorem State.grantPass_settled : (s.grantPass before).settled = s.settled := by
  refine State.grantPass_keeps (P := fun u => u.settled = s.settled) (fun u k o c hu _ _ _ => ?_) (fun u q n c hu _ _ => ?_)
    (fun _ _ hu => hu) (fun u hu => ?_) rfl
  · obtain ⟨w, channels, -, -, hframe⟩ := u.grantOrder_eq k o c
    rw [hframe]
    exact hu
  · obtain ⟨w, channels, hw, -, hframe⟩ := u.grantSlice_eq q n c
    obtain ⟨x, cells, hfix, -⟩ := u.fixCampaignLevel_frame n
    rw [hframe, hw, hfix]
    exact hu
  · rw [State.parkUngranted_eq]
    exact hu

/-- What the countdowns, the dispatch pass and the transmitter leave: the channels, their working cells and the arbiter, too. -/
def State.carried (s : State) := (s.settled, s.pch.channels, s.isu.working, s.fga)

theorem State.carried_iff : t.carried = s.carried
    ↔ t.settled = s.settled ∧ t.pch.channels = s.pch.channels ∧ t.isu.working = s.isu.working ∧ t.fga = s.fga := by
  refine ⟨fun h => ⟨congrArg Prod.fst h, congrArg (fun x => x.2.1) h, congrArg (fun x => x.2.2.1) h, congrArg (fun x => x.2.2.2) h⟩, ?_⟩
  rintro ⟨h1, h2, h3, h4⟩
  unfold State.carried
  rw [h1, h2, h3, h4]

theorem State.carried_runCountdowns (s : State) : s.runCountdowns.carried = s.carried :=
  foldl_keeps (P := fun u => u.carried = s.carried) (fun u n hu => by rw [State.runCountdown_eq]; exact hu) s.cen.periodic rfl

theorem State.carried_endOrder (s : State) (k : OrderNo) (o : Order) (x : OrderState) (r : Option Reason) (cond : Condition) :
    (s.endOrder k o x r cond).carried = s.carried := by
  obtain ⟨entries, records, hframe, -⟩ := s.endOrder_eq k o x r cond
  rw [hframe]
  rfl

theorem State.carried_failConfirm (s : State) (n : Slot) (reason : Reason) : (s.failConfirm n reason).carried = s.carried := by
  unfold State.failConfirm
  dsimp only
  split
  · rfl
  · exact State.carried_endOrder ..

theorem State.carried_failDispatch (s : State) (n : Slot) (reason : Reason) : (s.failDispatch n reason).carried = s.carried := by
  unfold State.failDispatch
  dsimp only
  split
  · rw [State.queueOrigin_eq]; rfl
  · rw [State.queueOrigin_eq]; rfl
  · exact State.carried_failConfirm ..
  all_goals rfl

theorem State.carried_stageTwo (s : State) (n : Slot) (els : List Element) : (s.stageTwo n els).carried = s.carried := by
  unfold State.stageTwo State.allocate
  dsimp only
  split
  · rfl
  · cases firstFit (5 * els.length) s.ecr.extents 0 <;> rfl

theorem State.carried_examine (s : State) (n : Slot) : (s.examine n).carried = s.carried := by
  unfold State.examine
  split
  · exact State.carried_failDispatch ..
  · exact State.carried_stageTwo ..

theorem State.carried_retryRoom (s : State) (p : Pair) : (s.retryRoom p).carried = s.carried := by
  unfold State.retryRoom
  split
  · rfl
  · rename_i n _
    split
    · obtain ⟨-, -, -, hframe⟩ := State.seekRoom_eq (s := s) (m := n) rfl
      generalize s.seekRoom n = t at hframe
      rw [hframe]
      rfl
    · rfl

/-- What each candidate's examination and each renewed request for room keeps, the dispatch pass keeps. -/
theorem State.dispatchPass_keeps {P : State → Prop} (hretry : ∀ u p, P u → P (u.retryRoom p)) (hexamine : ∀ u n, P u → P (u.examine n))
    (h : P s) : P s.dispatchPass := by
  unfold State.dispatchPass
  exact foldl_keeps hexamine _ (foldl_keeps hexamine _ (foldl_keeps hexamine _ (foldl_keeps hretry _ h)))

theorem State.carried_dispatchPass (s : State) : s.dispatchPass.carried = s.carried :=
  State.dispatchPass_keeps (P := fun u => u.carried = s.carried) (fun u p hu => (u.carried_retryRoom p).trans hu)
    (fun u n hu => (u.carried_examine n).trans hu) rfl

theorem State.carried_pairReported (s : State) (p : Pair) : (s.pairReported p).carried = s.carried := by
  have hmarks : ∀ l : List Index, (s.clearMarks p l).carried = s.carried := fun l =>
    foldl_keeps (P := fun u => u.carried = s.carried)
      (f := fun u i => u.setRecord i p { u.record i p with changed := false }) (fun u i hu => hu) l rfl
  unfold State.pairReported
  dsimp only
  split
  · rw [State.queueOrigin_eq]
    exact hmarks _
  · exact hmarks _

theorem State.carried_chooseNext (s : State) : s.chooseNext.carried = s.carried := by
  unfold State.chooseNext
  split
  · rfl
  · split
    · rfl
    · rename_i origin rest _
      cases origin with
      | pair p => exact State.carried_pairReported (s.setReports rest) p
      | order k =>
        unfold State.buildReport
        dsimp only
        split <;> rfl
      | _ => rfl

theorem State.carried_concludeEvent (s : State) : s.concludeEvent.carried = s.carried := by
  unfold State.concludeEvent
  split
  · exact s.carried_chooseNext
  · rfl
  · rfl

theorem State.carried_boundary (s : State) : s.boundary.carried = (s.advanceClock.grantPass s).carried := by
  unfold State.boundary
  rw [State.carried_concludeEvent, State.carried_dispatchPass, State.carried_runCountdowns]

end Sys2Proof.Machine
end

section
/-! BOUNDARY: what it leaves, and the dispatch pass where nothing is granted, group by group (R60 to R62, R80 to R84, R87). -/

namespace Sys2Proof.Machine

variable {s t u v w b : State} {n m : Slot} {p q : Pair} {k : OrderNo} {o : Order} {els : List Element} {a frame : Nat}
  {x : PeriodicPart}

/-- A boundary while READY (R60). -/
theorem exec_boundary (h : s.clk.part = .ready) : exec .boundary s = .next s.boundary := by
  show execBoundary s = _
  unfold execBoundary
  rw [h]

theorem State.boundary_settled (s : State) : s.boundary.settled = s.advanceClock.settled :=
  (State.carried_iff.1 s.carried_boundary).1.trans State.grantPass_settled

theorem State.boundary_held {c : Chan} (h : (s.channel c).holder ≠ none) : s.boundary.channel c = s.channel c := by
  have hchannels : s.boundary.pch.channels = (s.advanceClock.grantPass s).pch.channels := (State.carried_iff.1 s.carried_boundary).2.1
  have hclock : s.advanceClock.channel c = s.channel c := rfl
  have hheld : (s.advanceClock.grantPass s).channel c = s.advanceClock.channel c := State.grantPass_held (hclock ▸ h)
  generalize s.advanceClock.grantPass s = g at hchannels hheld
  have hsame : s.boundary.channel c = g.channel c := by unfold State.channel; rw [hchannels]
  rw [hsame, hheld, hclock]

/-! ## Countdowns that fall due nowhere -/

theorem State.countdownsRun_of_nil (h : s.cen.periodic = []) : s.countdownsRun s frame := by
  refine ⟨fun n => by rw [h]; rfl, ?_⟩
  rw [h]
  rfl

theorem State.exists_countdownsRun (s : State) (frame : Nat) : ∃ v, s.countdownsRun v frame := by
  refine ⟨{ s with
    cen := { s.cen with
      slots := Vector.ofFn fun n => if n ∈ s.cen.periodic then afterCountdown frame (s.campaign n) else s.campaign n }
    clk := { s.clk with reports := (joined s.clk.reports
      ((s.cen.periodic.filter (fun n => overrunsAt frame (s.campaign n))).map Origin.campaign)) } }, fun n => ?_, rfl⟩
  exact Vector.getElem_ofFn ..

/-- A countdown that does not fall due goes down by one (R69). -/
theorem afterCountdown_of_not_due {c : Campaign} (hx : c.periodic = some x) (hf : fallsDue frame x = false) :
    afterCountdown frame c = { c with periodic := some { x with countdown := x.countdown - 1 } } := by
  unfold afterCountdown
  rw [hx, Option.map_some, hf]
  rfl

theorem overrunsAt_of_not_due {c : Campaign} (hx : c.periodic = some x) (hf : fallsDue frame x = false) :
    overrunsAt frame c = false := by
  unfold overrunsAt
  rw [hx]
  dsimp only
  rw [hf, Bool.false_and]

theorem fallsDue_of_long (h : 2 ≤ x.countdown) : fallsDue frame x = false :=
  Bool.eq_false_iff.2 fun hf => by have := (fallsDue_iff.1 hf).1; omega

/-- The state after the countdown of its one periodic slot, which stays above 0. -/
def State.countedDown (s : State) (n : Slot) (x : PeriodicPart) : State :=
  { s with cen := { s.cen with slots := (s.cen.slots.set n
      { s.campaign n with periodic := some { x with countdown := x.countdown - 1 } }) } }

theorem State.campaign_countedDown : (s.countedDown n x).campaign m
    = if m = n then { s.campaign n with periodic := some { x with countdown := x.countdown - 1 } } else s.campaign m :=
  vector_get_set ..

theorem State.countdownsRun_single (h : s.cen.periodic = [n]) (hx : (s.campaign n).periodic = some x) (h2 : 2 ≤ x.countdown) :
    s.countdownsRun (s.countedDown n x) frame := by
  refine ⟨fun m => ?_, ?_⟩
  · rw [h, State.campaign_countedDown]
    by_cases hm : m = n
    · rw [if_pos hm, if_pos (List.mem_singleton.2 hm), hm, afterCountdown_of_not_due hx (fallsDue_of_long h2)]
    · rw [if_neg hm, if_neg fun hl => hm (List.mem_singleton.1 hl)]
  · rw [h, List.filter_singleton, overrunsAt_of_not_due hx (fallsDue_of_long h2)]
    rfl

/-! ## Candidates beside those examined before them -/

/-- A candidate's request and the plant it is checked against are those of another state (R81). -/
theorem State.stageOne_unchanged {periodic : Option PeriodicPart} (hlpt : t.lpt = s.lpt) (hpoints : t.pch.enabled = s.pch.enabled)
    (hbst : t.bst = s.bst) (hn : t.campaign n = { s.campaign n with periodic := periodic }) :
    t.stageOne (t.campaign n) = s.stageOne (s.campaign n) := by
  rw [hn]
  exact State.stageOne_congr hlpt hpoints hbst _ _

/-- A candidate that passes stage one, and for which the chain is empty, no order is in the way and there is room (R83, R84). -/
theorem State.examine_commits (hstage : s.stageOne (s.campaign n) = .ok els) (hchain : s.chain (s.campaign n).pair = [])
    (horder : ¬ s.orderAmong (s.campaign n).pair (statesInWay (s.campaign n)))
    (hroom : firstFit (5 * els.length) s.ecr.extents 0 = some a) :
    ∃ t, s.examine n = t ∧ s.rootCommitted t n els a ∧ t = { s with
      ecr := { s.ecr with extents := t.ecr.extents, cells := t.ecr.cells }
      cen := { s.cen with
        demand := s.cen.demand.filter (fun m => !(m == n)), slots := t.cen.slots, chains := t.cen.chains } } := by
  obtain ⟨hroot, hframe⟩ := State.stageTwo_commits hchain horder hroom
  exact ⟨_, State.examine_passes hstage, hroot, hframe⟩

theorem State.examine_waits (hstage : s.stageOne (s.campaign n) = .ok els) (h : s.chain (s.campaign n).pair ≠ []
    ∨ s.orderAmong (s.campaign n).pair (statesInWay (s.campaign n)) ∨ firstFit (5 * els.length) s.ecr.extents 0 = none) :
    s.examine n = s :=
  (State.examine_passes hstage).trans (State.stageTwo_waits h)

/-! ## The groups one by one -/

/-- With neither a chain top that seeks room, a confirm nor a due slot the pass is the demand queue's (R80). -/
theorem State.dispatchPass_demand (h1 : s.noneSeeksRoom) (h2 : s.noneConfirms) (h3 : s.dueSlots = []) :
    s.dispatchPass = s.cen.demand.foldl State.examine s := by
  rw [State.dispatchPass_eq h1 h2, h3]
  rfl

/-- The one confirm of an acceptance list of one (R80, group 2). -/
theorem State.waitingConfirms_single (h : s.isu.acceptance = [k]) (hk : s.order k = some o) (hstate : o.state = .confirming)
    (hreserved : (s.campaign o.reserved).state = .reserved) (hkind : (s.campaign o.reserved).kind = some .confirm) :
    s.waitingConfirms = [o.reserved] := by
  unfold State.waitingConfirms
  rw [h, List.filterMap_cons, hk]
  dsimp only
  rw [if_pos ⟨hstate, hreserved, hkind⟩]
  rfl

/-- The pass with one confirm, after which the due slots wait and no demand campaign stands (R80). -/
theorem State.dispatchPass_confirm (h1 : s.noneSeeksRoom) (h2 : s.waitingConfirms = [n]) (ht : s.examine n = t)
    (hdue : t.dueSlots.foldl State.examine t = t) (hdemand : t.cen.demand = []) : s.dispatchPass = t := by
  unfold State.dispatchPass
  rw [State.foldl_retryRoom_none fun p _ => h1 p]
  dsimp only
  rw [h2, List.foldl_cons, List.foldl_nil, ht, hdue, hdemand, List.foldl_nil]

/-- The pass with chain tops that seek room, after which the confirms wait and no other candidate stands (R80). -/
theorem State.dispatchPass_top (ht : allPairs.foldl State.retryRoom s = t) (hconf : t.waitingConfirms.foldl State.examine t = t)
    (hdue : t.dueSlots = []) (hdemand : t.cen.demand = []) : s.dispatchPass = t := by
  unfold State.dispatchPass
  rw [ht]
  dsimp only
  rw [hconf, hdue, List.foldl_nil, hdemand, List.foldl_nil]

/-- The one chain top that seeks room asks for it again (R80, group 1; R87). -/
theorem State.foldl_retryRoom_one (htop : (s.chain p).getLast? = some n) (hn : (s.campaign n).state = .awaitingRoom)
    (hothers : ∀ q m, q ≠ p → (s.chain q).getLast? = some m → (s.campaign m).state ≠ .awaitingRoom) :
    allPairs.foldl State.retryRoom s = s.seekRoom n := by
  obtain ⟨l, l', hsplit⟩ := List.append_of_mem (mem_allPairs p)
  have hnodup : (l ++ p :: l').Nodup := hsplit ▸ allPairs_nodup
  have hbefore : ∀ q ∈ l, q ≠ p := fun q hq e => (List.nodup_append.1 hnodup).2.2 q hq p List.mem_cons_self e
  have hafter : ∀ q ∈ l', q ≠ p := fun q hq e => (List.nodup_cons.1 (List.nodup_append.1 hnodup).2.1).1 (e ▸ hq)
  have hretry : s.retryRoom p = s.seekRoom n := by
    unfold State.retryRoom State.chainTop
    rw [htop]
    exact if_pos hn
  obtain ⟨-, -, hkeeps, hframe⟩ := State.seekRoom_eq (s := s) (m := n) rfl
  have hchain : ∀ q, (s.seekRoom n).chain q = s.chain q := fun q => by
    generalize s.seekRoom n = t at hframe
    rw [hframe]
    rfl
  rw [hsplit, List.foldl_append, List.foldl_cons, State.foldl_retryRoom_none fun q hq m => hothers q m (hbefore q hq), hretry]
  refine State.foldl_retryRoom_none fun q hq m hm hstate => ?_
  rw [hchain] at hm
  have hne : m ≠ n := fun e => hothers q n (hafter q hq) (e ▸ hm) hn
  rw [hkeeps m hne] at hstate
  exact hothers q m (hafter q hq) hm hstate

/-- What a chain top's renewed request leaves (R44, R87). -/
theorem State.seekRoom_found (hroom : firstFit (5 * (s.campaign n).elements.length) s.ecr.extents 0 = some a) :
    (∀ x, (s.seekRoom n).cell x = if a ≤ x ∧ x < a + 5 * (s.campaign n).elements.length then 0 else s.cell x)
      ∧ s.seekRoom n = { s with
          ecr := { s.ecr with
            cells := (s.seekRoom n).ecr.cells
            extents := insertExtent { start := a, length := 5 * (s.campaign n).elements.length, slot := n } s.ecr.extents }
          cen := { s.cen with slots := (s.cen.slots.set n
            { s.campaign n with state := .measuring, extent := some (a, 5 * (s.campaign n).elements.length) }) } } := by
  obtain ⟨hfound, -, hkeeps, hframe⟩ := State.seekRoom_eq (s := s) (m := n) rfl
  obtain ⟨hrecord, hextents, hcells⟩ := hfound a hroom
  have hslots : (s.seekRoom n).cen.slots = s.cen.slots.set n
      { s.campaign n with state := .measuring, extent := some (a, 5 * (s.campaign n).elements.length) } := by
    refine Vector.ext fun i hi => ?_
    refine Eq.trans ?_ (vector_get_set s.cen.slots n ⟨i, hi⟩ _).symm
    show (s.seekRoom n).campaign ⟨i, hi⟩ = _
    by_cases he : (⟨i, hi⟩ : Slot) = n
    · rw [if_pos he, he, hrecord]
    · rw [if_neg he, hkeeps _ he]
      rfl
  refine ⟨hcells, ?_⟩
  rw [hextents, hslots] at hframe
  exact hframe

/-- A renewed request for room makes no slot RESERVED. -/
theorem State.seekRoom_reserved (h : ((s.seekRoom n).campaign m).state = .reserved) : (s.campaign m).state = .reserved := by
  obtain ⟨hfound, hnone, hkeeps, -⟩ := State.seekRoom_eq (s := s) (m := n) rfl
  by_cases e : m = n
  · subst e
    cases hroom : firstFit (5 * (s.campaign m).elements.length) s.ecr.extents 0 with
    | none => rw [hnone hroom] at h; exact h
    | some a => rw [(hfound a hroom).1] at h; cases h
  · rw [hkeeps m e] at h
    exact h

theorem State.dueSlots_of_nil (h : s.cen.periodic = []) : s.dueSlots = [] := State.dueSlots_none fun n hn => by rw [h] at hn; cases hn

theorem State.statesInWay_of (h : (s.campaign n).kind ≠ some .confirm) : statesInWay (s.campaign n) = flightStates := if_neg h

/-- The states of the campaigns a boundary's examination reads are those before it. -/
theorem State.boundaryPassed_stageOne (s : State) (n : Slot) :
    s.boundaryPassed.stageOne (s.boundaryPassed.campaign n) = s.stageOne (s.campaign n) :=
  State.stageOne_unchanged (periodic := (s.campaign n).periodic) rfl rfl rfl rfl

/-- A boundary that grants nothing and has no periodic slot goes on to its dispatch pass. -/
theorem exec_boundary_of_nil (h : s.nothingToGrant) (hp : s.cen.periodic = []) :
    exec .boundary s = .next s.boundaryPassed.dispatchPass.concludeEvent :=
  exec_boundary_of_nothingToGrant h (hp ▸ List.nodup_nil) (State.countdownsRun_of_nil hp)

/-- A boundary that grants nothing and counts one periodic slot down goes on to its dispatch pass. -/
theorem exec_boundary_of_single (h : s.nothingToGrant) (hp : s.cen.periodic = [n]) (hx : (s.campaign n).periodic = some x)
    (h2 : 2 ≤ x.countdown) : exec .boundary s = .next (s.countedDown n x).boundaryPassed.dispatchPass.concludeEvent :=
  exec_boundary_of_nothingToGrant h (hp ▸ List.nodup_singleton n) (State.countdownsRun_single hp hx h2)

/-- The only slot of the periodic list is due after a countdown that leaves it above 0, if it was. -/
theorem State.dueSlots_countedDown (hp : s.cen.periodic = [n]) (hstate : (s.campaign n).state = .idlePeriodic) (hdue : x.due = true) :
    (s.countedDown n x).boundaryPassed.dueSlots = [n] := by
  have hrecord : (s.countedDown n x).boundaryPassed.campaign n
      = { s.campaign n with periodic := some { x with countdown := x.countdown - 1 } } :=
    State.campaign_countedDown.trans (if_pos rfl)
  have hlist : (s.countedDown n x).boundaryPassed.cen.periodic = [n] := hp
  refine State.dueSlots_single (hlist ▸ List.nodup_singleton n) (hlist ▸ List.mem_singleton_self n) ?_ fun m hm hne => ?_
  · rw [State.duePeriodic, hrecord]
    exact ⟨hstate, _, rfl, hdue⟩
  · rw [hlist] at hm
    exact absurd (List.mem_singleton.1 hm) hne

/-- The candidate's checks on a boundary's countdown are those before it. -/
theorem State.countedDown_stageOne (s : State) (n : Slot) (x : PeriodicPart) (m : Slot) :
    (s.countedDown n x).boundaryPassed.stageOne ((s.countedDown n x).boundaryPassed.campaign m) = s.stageOne (s.campaign m) := by
  have hrecord : (s.countedDown n x).boundaryPassed.campaign m = { s.campaign m with
      periodic := if m = n then some { x with countdown := x.countdown - 1 } else (s.campaign m).periodic } := by
    refine State.campaign_countedDown.trans ?_
    by_cases hm : m = n
    · rw [if_pos hm, if_pos hm, hm]
    · rw [if_neg hm, if_neg hm]
  exact State.stageOne_unchanged rfl rfl rfl hrecord

/-- The root a counted-down slot becomes is the one it would have become before its countdown, which the commit reloads (R84). -/
theorem State.rootCommitted_countedDown (hx : (s.campaign n).periodic = some x)
    (h : (s.countedDown n x).rootCommitted t n els a) : s.rootCommitted t n els a := by
  obtain ⟨hrecord, hothers, hchain, hchains, hextents, hcells⟩ := h
  have hn : (s.countedDown n x).campaign n = { s.campaign n with periodic := some { x with countdown := x.countdown - 1 } } :=
    State.campaign_countedDown.trans (if_pos rfl)
  rw [hn] at hrecord hchain hchains
  refine ⟨?_, fun m hm => (hothers m hm).trans (State.campaign_countedDown.trans (if_neg hm)), hchain, hchains, hextents, hcells⟩
  rw [hrecord, hx]
  rfl

/-- A candidate of the pair of a root just committed waits (R83, check 1). -/
theorem State.waits_behind {later : List Element} (h : s.rootCommitted t n els a) (hlpt : t.lpt = s.lpt)
    (hpoints : t.pch.enabled = s.pch.enabled) (hbst : t.bst = s.bst) (hne : m ≠ n)
    (hpair : (s.campaign m).pair = (s.campaign n).pair) (hlater : s.dispatchPasses (s.campaign m) later) : t.examine m = t := by
  obtain ⟨-, hothers, hchain, -⟩ := h
  have hm : t.campaign m = s.campaign m := hothers m hne
  refine State.examine_waits (els := later) ?_ (.inl ?_)
  · exact (State.stageOne_unchanged (periodic := (s.campaign m).periodic) hlpt hpoints hbst hm).trans (State.stageOne_of_passes hlater)
  · rw [hm, hpair, hchain]
    exact List.cons_ne_nil n []

/-- The pass with one due slot, after which no demand campaign waits (R80). -/
theorem State.dispatchPass_due (h1 : s.noneSeeksRoom) (h2 : s.noneConfirms) (hdue : s.dueSlots = [n]) (ht : s.examine n = t)
    (hdemand : t.cen.demand = []) : s.dispatchPass = t := by
  rw [State.dispatchPass_eq h1 h2, hdue, List.foldl_cons, List.foldl_nil, ht, hdemand, List.foldl_nil]

/-! ## A boundary that grants nothing, by the candidates its dispatch pass finds (R80) -/

section

variable {s b : State} (hnone : s.nothingToGrant) (hb : b = s.boundaryPassed)
include hnone hb

/-- Nothing falls due and nothing is dispatched: the countdowns run (R69). -/
theorem State.boundary_nothingDispatched :
    s.noneSeeksRoom → s.noneConfirms → s.cen.demand = [] → s.cen.periodic.Nodup →
      (∀ n ∈ s.cen.periodic, ∃ x, (s.campaign n).periodic = some x ∧ x.due = false ∧ (2 ≤ x.countdown
        ∨ x.parity = .even ∧ b.fga.frame % 2 = 1 ∨ x.parity = .odd ∧ b.fga.frame % 2 = 0)) →
      ∃ t : State, exec .boundary s = .next t.concludeEvent
        ∧ (∀ n ∈ s.cen.periodic, t.campaign n = { s.campaign n with
            periodic := (s.campaign n).periodic.map (fun x => { x with countdown := x.countdown - 1 }) })
        ∧ (∀ n, n ∉ s.cen.periodic → t.campaign n = s.campaign n)
        ∧ t = { b with cen := { s.cen with slots := t.cen.slots } } := by
  intro hroom hconf hdemand hl hlong
  obtain ⟨v, hv⟩ := s.exists_countdownsRun b.fga.frame
  have hnotdue : ∀ n ∈ s.cen.periodic, ∃ x, (s.campaign n).periodic = some x ∧ x.due = false
      ∧ fallsDue b.fga.frame x = false := fun n hn => by
    obtain ⟨x, hx, hdue, hcount⟩ := hlong n hn
    refine ⟨x, hx, hdue, ?_⟩
    rcases hcount with h2 | ⟨hpar, hfr⟩ | ⟨hpar, hfr⟩
    · exact fallsDue_of_long h2
    · unfold fallsDue; rw [hpar, hfr, Bool.and_eq_false_iff]; exact .inr rfl
    · unfold fallsDue; rw [hpar, hfr, Bool.and_eq_false_iff]; exact .inr rfl
  have hcounted : ∀ n ∈ s.cen.periodic, v.campaign n = { s.campaign n with
      periodic := (s.campaign n).periodic.map (fun x => { x with countdown := x.countdown - 1 }) } := fun n hn => by
    obtain ⟨x, hx, -, hf⟩ := hnotdue n hn
    rw [hv.1, if_pos hn, afterCountdown_of_not_due hx hf, hx]
    rfl
  have hnodue : v.boundaryPassed.dueSlots = [] := State.dueSlots_none fun n hn ⟨_, y, hy, hd⟩ => by
    have hn : n ∈ s.cen.periodic := by rw [hv.2] at hn; exact hn
    obtain ⟨x, hx, hdue, -⟩ := hnotdue n hn
    have hy' : (v.campaign n).periodic = some y := hy
    rw [hcounted n hn, hx] at hy'
    cases hy'
    rw [hdue] at hd
    cases hd
  have hquiet : s.cen.periodic.filter (fun n => overrunsAt b.fga.frame (s.campaign n)) = [] :=
    List.filter_eq_nil_iff.2 fun n hn => by
      obtain ⟨x, hx, -, hf⟩ := hnotdue n hn
      rw [overrunsAt_of_not_due hx hf]
      exact Bool.false_ne_true
  have hvdemand : v.boundaryPassed.cen.demand = [] := by rw [hv.2]; exact hdemand
  refine ⟨v.boundaryPassed, ?_, hcounted, fun n hn => (hv.1 n).trans (if_neg hn), ?_⟩
  · rw [exec_boundary_of_nothingToGrant hnone hl (hb ▸ hv),
      State.dispatchPass_demand (hv.noneSeeksRoom hroom) (hv.noneConfirms hconf) hnodue, hvdemand]
    rfl
  · have hframe := hv.2
    rw [hquiet] at hframe
    obtain ⟨slots, hslots⟩ : ∃ l, l = v.cen.slots := ⟨_, rfl⟩
    rw [← hslots] at hframe
    rw [hframe, hb]
    rfl

/-- One demand campaign is examined (R81 to R84). -/
theorem State.boundary_demand :
    ∀ n, s.noneSeeksRoom → s.noneConfirms → s.cen.periodic = [] → s.cen.demand = [n] → (s.campaign n).state = .queued →
      (s.campaign n).kind ≠ some .confirm →
      (∀ reason, s.dispatchFails (s.campaign n) reason → exec .boundary s = .next
        { b with
            cen := { s.cen with
              demand := [], slots := s.cen.slots.set n { s.campaign n with state := .failed, failure := some reason } }
            clk := { s.clk with reports := joined s.clk.reports [.campaign n] } }.concludeEvent)
      ∧ ∀ els, s.dispatchPasses (s.campaign n) els →
        (∀ a, s.chain (s.campaign n).pair = [] →
          ¬ s.orderAmong (s.campaign n).pair [.waitingChannel, .referencing, .sending, .listening, .confirming] →
          firstFit (5 * els.length) s.ecr.extents 0 = some a →
          ∃ t : State, exec .boundary s = .next t.concludeEvent ∧ s.rootCommitted t n els a
            ∧ t = { b with ecr := { s.ecr with extents := t.ecr.extents, cells := t.ecr.cells }
                           cen := { s.cen with demand := [], slots := t.cen.slots, chains := t.cen.chains } })
        ∧ (s.chain (s.campaign n).pair ≠ []
            ∨ s.orderAmong (s.campaign n).pair [.waitingChannel, .referencing, .sending, .listening, .confirming]
            ∨ firstFit (5 * els.length) s.ecr.extents 0 = none → exec .boundary s = .next b.concludeEvent) := by
  intro n hroom hconf hper hdemand hst hkind
  have hexec := exec_boundary_of_nil hnone hper
  rw [← hb] at hexec
  have hpass : b.dispatchPass = b.examine n := by
    rw [State.dispatchPass_demand (hb ▸ hroom) (hb ▸ hconf) (State.dueSlots_of_nil (hb ▸ hper)),
      show b.cen.demand = [n] from hb ▸ hdemand]
    rfl
  have hstage : b.stageOne (b.campaign n) = s.stageOne (s.campaign n) := hb ▸ s.boundaryPassed_stageOne n
  have hdropped : b.cen.demand.filter (fun m => !(m == n)) = [] := by
    rw [show b.cen.demand = [n] from hb ▸ hdemand, List.filter_singleton, beq_self_eq_true]
    rfl
  have hways := State.statesInWay_of hkind
  rw [hexec, hpass]
  refine ⟨fun reason hfails => ?_, fun els hpasses => ⟨fun a hchain horder hfit => ?_, fun hwait => ?_⟩⟩
  · rw [State.examine_fails (hstage.trans (State.stageOne_of_fails hfails)), State.failDispatch_queued (by rw [hb]; exact hst), hdropped]
    rw [hb]
    rfl
  · obtain ⟨t, ht, hroot, hframe⟩ := State.examine_commits (s := b) (a := a) (hstage.trans (State.stageOne_of_passes hpasses))
      (by rw [hb]; exact hchain) (by rw [hb]; exact hways ▸ horder) (by rw [hb]; exact hfit)
    rw [hdropped] at hframe
    refine ⟨t, by rw [ht], by rw [hb] at hroot; exact hroot, hframe.trans ?_⟩
    rw [hb]
    rfl
  · rw [State.examine_waits (hstage.trans (State.stageOne_of_passes hpasses)) (by rw [hb]; exact hways ▸ hwait)]

/-- Of two demand campaigns of one pair the first becomes the root and the second waits (R83). -/
theorem State.boundary_demands :
    ∀ n m a els later, s.noneSeeksRoom → s.noneConfirms → s.cen.periodic = [] → s.cen.demand = [n, m] → n ≠ m →
      (s.campaign n).kind ≠ some .confirm → (s.campaign m).pair = (s.campaign n).pair →
      s.dispatchPasses (s.campaign n) els → s.dispatchPasses (s.campaign m) later → s.chain (s.campaign n).pair = [] →
      ¬ s.orderAmong (s.campaign n).pair [.waitingChannel, .referencing, .sending, .listening, .confirming] →
      firstFit (5 * els.length) s.ecr.extents 0 = some a →
      ∃ t : State, exec .boundary s = .next t.concludeEvent ∧ s.rootCommitted t n els a
        ∧ t = { b with ecr := { s.ecr with extents := t.ecr.extents, cells := t.ecr.cells }
                       cen := { s.cen with demand := [m], slots := t.cen.slots, chains := t.cen.chains } } := by
  intro n m a els later hroom hconf hper hdemand hnm hkind hpair hpass hlater hchain horder hfit
  have hexec := exec_boundary_of_nil hnone hper
  rw [← hb] at hexec
  have hbdemand : b.cen.demand = [n, m] := hb ▸ hdemand
  have hpass2 : b.dispatchPass = (b.examine n).examine m := by
    rw [State.dispatchPass_demand (hb ▸ hroom) (hb ▸ hconf) (State.dueSlots_of_nil (hb ▸ hper)), hbdemand]
    rfl
  obtain ⟨t, ht, hroot, hframe⟩ := State.examine_commits (s := b) (n := n) (els := els) (a := a)
    ((hb ▸ s.boundaryPassed_stageOne n : b.stageOne (b.campaign n) = _).trans (State.stageOne_of_passes hpass))
    (by rw [hb]; exact hchain) (by rw [hb]; exact State.statesInWay_of hkind ▸ horder) (by rw [hb]; exact hfit)
  have hroot' : s.rootCommitted t n els a := by rw [hb] at hroot; exact hroot
  have hdropped : b.cen.demand.filter (fun j => !(j == n)) = [m] := by
    rw [hbdemand, List.filter_cons, beq_self_eq_true, List.filter_singleton, beq_false_of_ne hnm.symm]
    rfl
  rw [hdropped] at hframe
  have hframe' : t = { b with
      ecr := { s.ecr with extents := t.ecr.extents, cells := t.ecr.cells }
      cen := { s.cen with demand := [m], slots := t.cen.slots, chains := t.cen.chains } } := hframe.trans (by rw [hb]; rfl)
  refine ⟨t, ?_, hroot', hframe'⟩
  rw [hexec, hpass2, ht, State.waits_behind hroot' (by rw [hframe', hb]; rfl) (by rw [hframe', hb]; rfl) (by rw [hframe', hb]; rfl)
    hnm.symm hpair hlater]

/-- A periodic slot that is due is examined (R81 to R84). -/
theorem State.boundary_due :
    ∀ n x, s.noneSeeksRoom → s.noneConfirms → s.cen.demand = [] → s.cen.periodic = [n] →
      (s.campaign n).state = .idlePeriodic → (s.campaign n).kind ≠ some .confirm → (s.campaign n).periodic = some x →
      x.due = true → 2 ≤ x.countdown →
      (∀ reason, s.dispatchFails (s.campaign n) reason → exec .boundary s = .next
        { b with
            cen := { s.cen with slots := (s.cen.slots.set n { s.campaign n with
              failure := some reason, periodic := some { x with countdown := x.countdown - 1, due := false } }) }
            clk := { s.clk with reports := joined s.clk.reports [.campaign n] } }.concludeEvent)
      ∧ ∀ els a, s.dispatchPasses (s.campaign n) els → s.chain (s.campaign n).pair = [] →
          ¬ s.orderAmong (s.campaign n).pair [.waitingChannel, .referencing, .sending, .listening, .confirming] →
          firstFit (5 * els.length) s.ecr.extents 0 = some a →
        ∃ t : State, exec .boundary s = .next t.concludeEvent ∧ s.rootCommitted t n els a
          ∧ t = { b with ecr := { s.ecr with extents := t.ecr.extents, cells := t.ecr.cells }
                         cen := { s.cen with slots := t.cen.slots, chains := t.cen.chains } } := by
  intro n x hroom hconf hdemand hper hst hkind hx hdue h2
  have hexec := exec_boundary_of_single hnone hper hx h2
  have hrun : s.countdownsRun (s.countedDown n x) s.fga.frame := State.countdownsRun_single hper hx h2
  obtain ⟨w, hw⟩ : ∃ w, w = (s.countedDown n x).boundaryPassed := ⟨_, rfl⟩
  rw [← hw] at hexec
  have hrecord : w.campaign n = { s.campaign n with periodic := some { x with countdown := x.countdown - 1 } } := by
    rw [hw]; exact State.campaign_countedDown.trans (if_pos rfl)
  have hstage : w.stageOne (w.campaign n) = s.stageOne (s.campaign n) := hw ▸ s.countedDown_stageOne n x n
  have hwdemand : w.cen.demand = [] := hw ▸ hdemand
  have hpass : ∀ t, w.examine n = t → t.cen.demand = [] → w.dispatchPass = t := fun t ht hd =>
    State.dispatchPass_due (hw ▸ hrun.noneSeeksRoom hroom) (hw ▸ hrun.noneConfirms hconf)
      (hw ▸ State.dueSlots_countedDown hper hst hdue) ht hd
  refine ⟨fun reason hfails => ?_, fun els a hpasses hchain horder hfit => ?_⟩
  · have hfail := State.failDispatch_periodic (s := w) (n := n) (reason := reason) (by rw [hrecord]; exact hst)
    have hexamine := State.examine_fails (hstage.trans (State.stageOne_of_fails hfails))
    generalize w.failDispatch n reason = t at hfail hexamine
    have hslots : ∀ c, w.cen.slots.set n c = s.cen.slots.set n c := fun c => by rw [hw]; exact Vector.set_set ..
    rw [hexec, hpass t hexamine (by rw [hfail]; exact hwdemand), hfail, hslots, hrecord, hw, hb]
    rfl
  · have hkindw : (w.campaign n).kind ≠ some .confirm := by rw [hrecord]; exact hkind
    have hpairw : (w.campaign n).pair = (s.campaign n).pair := by rw [hrecord]
    have hchainw : w.chain (w.campaign n).pair = [] := by rw [hpairw, hw]; exact hchain
    have horderw : ¬ w.orderAmong (w.campaign n).pair (statesInWay (w.campaign n)) := by
      rw [State.statesInWay_of hkindw, hpairw, hw]; exact horder
    obtain ⟨t, ht, hroot, hframe⟩ := State.examine_commits (hstage.trans (State.stageOne_of_passes hpasses)) hchainw horderw
      (by rw [hw]; exact hfit)
    have hroot' : s.rootCommitted t n els a := State.rootCommitted_countedDown hx (by rw [hw] at hroot; exact hroot)
    have hempty : w.cen.demand.filter (fun j => !(j == n)) = s.cen.demand := by rw [hwdemand, hdemand]; rfl
    rw [hempty] at hframe
    refine ⟨t, by rw [hexec, hpass t ht (by rw [hframe]; exact hdemand)], hroot', hframe.trans ?_⟩
    rw [hw, hb]
    rfl

/-- A periodic slot that is due and cannot become a root waits, its countdown run (R83). -/
theorem State.boundary_dueWaits :
    ∀ n x els, s.noneSeeksRoom → s.noneConfirms → s.cen.demand = [] → s.cen.periodic = [n] →
      (s.campaign n).state = .idlePeriodic → (s.campaign n).kind ≠ some .confirm → (s.campaign n).periodic = some x →
      x.due = true → 2 ≤ x.countdown → s.dispatchPasses (s.campaign n) els →
      s.chain (s.campaign n).pair ≠ []
        ∨ s.orderAmong (s.campaign n).pair [.waitingChannel, .referencing, .sending, .listening, .confirming]
        ∨ firstFit (5 * els.length) s.ecr.extents 0 = none →
      exec .boundary s = .next { b with cen := { s.cen with slots := (s.cen.slots.set n
        { s.campaign n with periodic := some { x with countdown := x.countdown - 1 } }) } }.concludeEvent := by
  intro n x els hroom hconf hdemand hper hst hkind hx hdue h2 hpass hwait
  have hexec := exec_boundary_of_single hnone hper hx h2
  have hrun : s.countdownsRun (s.countedDown n x) s.fga.frame := State.countdownsRun_single hper hx h2
  obtain ⟨w, hw⟩ : ∃ w, w = (s.countedDown n x).boundaryPassed := ⟨_, rfl⟩
  rw [← hw] at hexec
  have hrecord : w.campaign n = { s.campaign n with periodic := some { x with countdown := x.countdown - 1 } } := by
    rw [hw]; exact State.campaign_countedDown.trans (if_pos rfl)
  have hstage : w.stageOne (w.campaign n) = s.stageOne (s.campaign n) := hw ▸ s.countedDown_stageOne n x n
  have hways : w.chain (w.campaign n).pair ≠ [] ∨ w.orderAmong (w.campaign n).pair (statesInWay (w.campaign n))
      ∨ firstFit (5 * els.length) w.ecr.extents 0 = none := by
    rw [State.statesInWay_of (by rw [hrecord]; exact hkind), hrecord, hw]
    exact hwait
  rw [hexec, State.dispatchPass_due (hw ▸ hrun.noneSeeksRoom hroom) (hw ▸ hrun.noneConfirms hconf)
    (hw ▸ State.dueSlots_countedDown hper hst hdue) (State.examine_waits (hstage.trans (State.stageOne_of_passes hpass)) hways)
    (hw ▸ hdemand), hw, hb]
  rfl

/-- A confirm is examined (R81 to R84, R151). -/
theorem State.boundary_confirm :
    ∀ k o n, s.noneSeeksRoom → s.cen.demand = [] → s.cen.periodic = [] → s.isu.acceptance = [k] → s.confirms k o n →
      (s.campaign n).state = .reserved → (s.campaign n).kind = some .confirm →
      (∀ reason, s.dispatchFails (s.campaign n) reason →
        ∃ t : State, exec .boundary s = .next t.concludeEvent ∧ s.orderMarks t o.entry o.pair .unresolved
          ∧ t = { b with
              lpt := { s.lpt with entries := t.lpt.entries, records := t.lpt.records }
              cen := { s.cen with slots := s.cen.slots.set n {} }
              isu := { s.isu with orders := s.isu.orders.set k (some
                { o with state := .doneUnresolved, reason := some reason }) }
              clk := { s.clk with reports := s.orderOrigins k o .unresolved } })
      ∧ (∀ els, s.dispatchPasses (s.campaign n) els →
          s.chain (s.campaign n).pair ≠ []
            ∨ s.orderAmong (s.campaign n).pair [.waitingChannel, .referencing, .sending, .listening]
            ∨ firstFit (5 * els.length) s.ecr.extents 0 = none → exec .boundary s = .next b.concludeEvent)
      ∧ ∀ els a, s.dispatchPasses (s.campaign n) els → s.chain (s.campaign n).pair = [] →
          ¬ s.orderAmong (s.campaign n).pair [.waitingChannel, .referencing, .sending, .listening] →
          firstFit (5 * els.length) s.ecr.extents 0 = some a →
        ∃ t : State, exec .boundary s = .next t.concludeEvent ∧ s.rootCommitted t n els a
          ∧ t = { b with ecr := { s.ecr with extents := t.ecr.extents, cells := t.ecr.cells }
                         cen := { s.cen with slots := t.cen.slots, chains := t.cen.chains } } := by
  intro k o n hroom hdemand hper hacc hk hst hkind
  have hexec := exec_boundary_of_nil hnone hper
  rw [← hb] at hexec
  obtain ⟨horder', hconfirming, hreserved, halone⟩ := hk
  have hk : s.confirms k o n := ⟨horder', hconfirming, hreserved, halone⟩
  have hbconf : b.waitingConfirms = [n] := by
    rw [hb, ← hreserved]
    exact State.waitingConfirms_single (s := s.boundaryPassed) (k := k) (o := o) hacc horder' hconfirming
      (by rw [hreserved]; exact hst) (by rw [hreserved]; exact hkind)
  have hstage : b.stageOne (b.campaign n) = s.stageOne (s.campaign n) := hb ▸ s.boundaryPassed_stageOne n
  have hpass : ∀ t, b.examine n = t → t.cen.periodic = [] → t.cen.demand = [] → b.dispatchPass = t := fun t ht hp hd =>
    State.dispatchPass_confirm (hb ▸ hroom) hbconf ht (by rw [State.dueSlots_of_nil hp]; rfl) hd
  have hways : statesInWay (b.campaign n) = burstStates := by rw [hb]; exact if_pos hkind
  refine ⟨fun reason hfails => ?_, fun els hpasses hwait => ?_, fun els a hpasses hchain horder hfit => ?_⟩
  · have hexamine := State.examine_fails (hstage.trans (State.stageOne_of_fails hfails))
    rw [State.failDispatch_reserved (by rw [hb]; exact hst)] at hexamine
    obtain ⟨hmarks, hframe⟩ := State.failConfirm_eq (s := b) (reason := reason) (by rw [hb]; exact hk)
    generalize b.failConfirm n reason = t at hexamine hmarks hframe
    refine ⟨t, ?_, ?_, hframe.trans ?_⟩
    · rw [hexec, hpass t hexamine (by rw [hframe, hb]; exact hper) (by rw [hframe, hb]; exact hdemand)]
    · rw [hb] at hmarks; exact hmarks
    · rw [hb]; rfl
  · rw [hexec, hpass b (State.examine_waits (hstage.trans (State.stageOne_of_passes hpasses)) (by rw [hways, hb]; exact hwait))
      (hb ▸ hper) (hb ▸ hdemand)]
  · obtain ⟨t, ht, hroot, hframe⟩ := State.examine_commits (s := b) (a := a) (hstage.trans (State.stageOne_of_passes hpasses))
      (by rw [hb]; exact hchain) (by rw [hways, hb]; exact horder) (by rw [hb]; exact hfit)
    have hempty : b.cen.demand.filter (fun j => !(j == n)) = s.cen.demand := by rw [hb, hdemand]; exact congrArg _ hdemand
    rw [hempty] at hframe
    refine ⟨t, ?_, by rw [hb] at hroot; exact hroot, hframe.trans ?_⟩
    · rw [hexec, hpass t ht (by rw [hframe, hb]; exact hper) (by rw [hframe]; exact hdemand)]
    · rw [hb]; rfl

/-- A chain top asks again for room (R87). -/
theorem State.boundary_seeksRoom :
    ∀ p n, s.noneConfirms → s.cen.demand = [] → s.cen.periodic = [] → (s.chain p).getLast? = some n →
      (s.campaign n).state = .awaitingRoom →
      (∀ q m, q ≠ p → (s.chain q).getLast? = some m → (s.campaign m).state ≠ .awaitingRoom) →
      (∀ a, firstFit (5 * (s.campaign n).elements.length) s.ecr.extents 0 = some a →
        ∃ t : State, exec .boundary s = .next t.concludeEvent
          ∧ (∀ x, t.cell x = if a ≤ x ∧ x < a + 5 * (s.campaign n).elements.length then 0 else s.cell x)
          ∧ t = { b with
              ecr := { s.ecr with
                cells := t.ecr.cells
                extents := insertExtent { start := a, length := 5 * (s.campaign n).elements.length, slot := n }
                  s.ecr.extents }
              cen := { s.cen with slots := (s.cen.slots.set n
                { s.campaign n with
                  state := .measuring, extent := some (a, 5 * (s.campaign n).elements.length) }) } })
      ∧ (firstFit (5 * (s.campaign n).elements.length) s.ecr.extents 0 = none → exec .boundary s = .next b.concludeEvent) := by
  intro p n hconf hdemand hper htop hst hothers
  have hexec := exec_boundary_of_nil hnone hper
  rw [← hb] at hexec
  have hfold : allPairs.foldl State.retryRoom b = b.seekRoom n :=
    State.foldl_retryRoom_one (p := p) (by rw [hb]; exact htop) (by rw [hb]; exact hst) (by rw [hb]; exact hothers)
  have hbconf : b.noneConfirms := by rw [hb]; exact hconf
  refine ⟨fun a hfit => ?_, fun hfull => ?_⟩
  · obtain ⟨hcells, hframe⟩ := State.seekRoom_found (s := b) (n := n) (a := a) (by rw [hb]; exact hfit)
    have hstate : ∀ j, ((b.seekRoom n).campaign j).state = .reserved → (b.campaign j).state = .reserved :=
      fun j => State.seekRoom_reserved
    generalize b.seekRoom n = t at hfold hcells hframe hstate
    have htconf : t.noneConfirms := fun k o ho hc hr => hbconf k o (by rw [hframe] at ho; exact ho) hc (hstate o.reserved hr)
    refine ⟨t, ?_, ?_, hframe.trans (by rw [hb]; rfl)⟩
    · rw [hexec, State.dispatchPass_top hfold (by rw [State.waitingConfirms_none htconf]; rfl)
        (State.dueSlots_of_nil (by rw [hframe, hb]; exact hper)) (by rw [hframe, hb]; exact hdemand)]
    · rw [hb] at hcells; exact hcells
  · have hsame : b.seekRoom n = b := (State.seekRoom_eq (s := b) (m := n) rfl).2.1 (by rw [hb]; exact hfull)
    rw [hexec, State.dispatchPass_top (hfold.trans hsame) (by rw [State.waitingConfirms_none hbconf]; rfl)
      (State.dueSlots_of_nil (hb ▸ hper)) (hb ▸ hdemand)]

/-- A due periodic slot goes before a demand campaign of its pair (R80, R83). -/
theorem State.boundary_dueBeforeDemand :
    ∀ n m x els later a, s.noneSeeksRoom → s.noneConfirms → s.cen.periodic = [n] → s.cen.demand = [m] →
      (s.campaign n).state = .idlePeriodic → (s.campaign n).kind ≠ some .confirm → (s.campaign n).periodic = some x →
      x.due = true → 2 ≤ x.countdown → (s.campaign m).state = .queued → (s.campaign m).kind ≠ some .confirm →
      (s.campaign m).pair = (s.campaign n).pair → s.dispatchPasses (s.campaign n) els → s.dispatchPasses (s.campaign m) later →
      s.chain (s.campaign n).pair = [] →
      ¬ s.orderAmong (s.campaign n).pair [.waitingChannel, .referencing, .sending, .listening, .confirming] →
      firstFit (5 * els.length) s.ecr.extents 0 = some a →
      ∃ t : State, exec .boundary s = .next t.concludeEvent ∧ s.rootCommitted t n els a
        ∧ t = { b with ecr := { s.ecr with extents := t.ecr.extents, cells := t.ecr.cells }
                       cen := { s.cen with slots := t.cen.slots, chains := t.cen.chains } } := by
  intro n m x els later a hroom hconf hper hdemand hst hkind hx hdue h2 hst' hkind' hpair hpass hlater hchain horder hfit
  have hexec := exec_boundary_of_single hnone hper hx h2
  have hrun : s.countdownsRun (s.countedDown n x) s.fga.frame := State.countdownsRun_single hper hx h2
  obtain ⟨w, hw⟩ : ∃ w, w = (s.countedDown n x).boundaryPassed := ⟨_, rfl⟩
  rw [← hw] at hexec
  have hrecord : w.campaign n = { s.campaign n with periodic := some { x with countdown := x.countdown - 1 } } := by
    rw [hw]; exact State.campaign_countedDown.trans (if_pos rfl)
  have hne : m ≠ n := fun e => by rw [e, hst] at hst'; cases hst'
  have hpairw : (w.campaign n).pair = (s.campaign n).pair := by rw [hrecord]
  have horderw : ¬ w.orderAmong (w.campaign n).pair (statesInWay (w.campaign n)) := by
    rw [State.statesInWay_of (by rw [hrecord]; exact hkind), hpairw, hw]; exact horder
  obtain ⟨t, ht, hroot, hframe⟩ := State.examine_commits (s := w) (n := n) (els := els) (a := a)
    ((hw ▸ s.countedDown_stageOne n x n : w.stageOne (w.campaign n) = _).trans (State.stageOne_of_passes hpass))
    (by rw [hpairw, hw]; exact hchain) horderw (by rw [hw]; exact hfit)
  have hroot' : s.rootCommitted t n els a := State.rootCommitted_countedDown hx (by rw [hw] at hroot; exact hroot)
  have hkept : w.cen.demand.filter (fun j => !(j == n)) = s.cen.demand := by
    rw [show w.cen.demand = [m] from hw ▸ hdemand, hdemand, List.filter_singleton, beq_false_of_ne hne]
    rfl
  rw [hkept] at hframe
  have hwaits : t.examine m = t := State.waits_behind hroot' (by rw [hframe, hw]; rfl) (by rw [hframe, hw]; rfl)
    (by rw [hframe, hw]; rfl) hne hpair hlater
  have htdemand : t.cen.demand = [m] := by rw [hframe]; exact hdemand
  refine ⟨t, ?_, hroot', hframe.trans (by rw [hw, hb]; rfl)⟩
  rw [hexec, State.dispatchPass_eq (hw ▸ hrun.noneSeeksRoom hroom) (hw ▸ hrun.noneConfirms hconf),
    show w.dueSlots = [n] from hw ▸ State.dueSlots_countedDown hper hst hdue, List.foldl_cons, List.foldl_nil, ht, htdemand,
    List.foldl_cons, List.foldl_nil, hwaits]

/-- A confirm goes before a due periodic slot, which waits with its mark (R80, R83). -/
theorem State.boundary_confirmBeforeDue :
    ∀ k o n m x els later a, s.noneSeeksRoom → s.cen.demand = [] → s.cen.periodic = [m] → s.isu.acceptance = [k] →
      s.confirms k o n → (s.campaign n).state = .reserved → (s.campaign n).kind = some .confirm →
      (s.campaign m).state = .idlePeriodic → (s.campaign m).kind ≠ some .confirm → (s.campaign m).periodic = some x →
      x.due = true → 2 ≤ x.countdown → s.dispatchPasses (s.campaign n) els → s.dispatchPasses (s.campaign m) later →
      s.chain (s.campaign n).pair = [] → ¬ s.orderAmong (s.campaign n).pair [.waitingChannel, .referencing, .sending, .listening] →
      firstFit (5 * els.length) s.ecr.extents 0 = some a →
      firstFit (5 * later.length) (insertExtent { start := a, length := 5 * els.length, slot := n } s.ecr.extents) 0 = none →
      ∃ v t : State, v = { s with cen := { s.cen with slots := (s.cen.slots.set m
            { s.campaign m with periodic := some { x with countdown := x.countdown - 1 } }) } }
        ∧ exec .boundary s = .next t.concludeEvent ∧ v.rootCommitted t n els a
        ∧ t = { b with ecr := { s.ecr with extents := t.ecr.extents, cells := t.ecr.cells }
                       cen := { s.cen with slots := t.cen.slots, chains := t.cen.chains } } := by
  intro k o n m x els later a hroom hdemand hper hacc hk hst hkind hst' hkind' hx hdue h2 hpass hlater hchain horder hfit hfull
  have hexec := exec_boundary_of_single hnone hper hx h2
  have hrun : s.countdownsRun (s.countedDown m x) s.fga.frame := State.countdownsRun_single hper hx h2
  obtain ⟨w, hw⟩ : ∃ w, w = (s.countedDown m x).boundaryPassed := ⟨_, rfl⟩
  rw [← hw] at hexec
  have hne : n ≠ m := fun e => by rw [e, hst'] at hst; cases hst
  have hrecord : w.campaign n = s.campaign n := by rw [hw]; exact State.campaign_countedDown.trans (if_neg hne)
  have hrecordm : w.campaign m = { s.campaign m with periodic := some { x with countdown := x.countdown - 1 } } := by
    rw [hw]; exact State.campaign_countedDown.trans (if_pos rfl)
  obtain ⟨horder', hconfirming, hreserved, -⟩ := hk
  have hwconf : w.waitingConfirms = [n] := by
    rw [← hreserved]
    exact State.waitingConfirms_single (by rw [hw]; exact hacc) (by rw [hw]; exact horder') hconfirming
      (by rw [hreserved, hrecord]; exact hst) (by rw [hreserved, hrecord]; exact hkind)
  obtain ⟨t, ht, hroot, hframe⟩ := State.examine_commits (s := w) (n := n) (els := els) (a := a)
    ((hw ▸ s.countedDown_stageOne m x n : w.stageOne (w.campaign n) = _).trans (State.stageOne_of_passes hpass))
    (by rw [hrecord, hw]; exact hchain) (by rw [hrecord, show statesInWay (s.campaign n) = burstStates from if_pos hkind, hw]; exact horder)
    (by rw [hw]; exact hfit)
  have hroot' : (s.countedDown m x).rootCommitted t n els a := by rw [hw] at hroot; exact hroot
  have hempty : w.cen.demand.filter (fun j => !(j == n)) = s.cen.demand := by
    rw [show w.cen.demand = [] from hw ▸ hdemand, hdemand]; rfl
  rw [hempty] at hframe
  have hother : t.campaign m = { s.campaign m with periodic := some { x with countdown := x.countdown - 1 } } :=
    (hroot.2.1 m hne.symm).trans hrecordm
  have htper : t.cen.periodic = [m] := by rw [hframe, hw]; exact hper
  have htdue : t.dueSlots = [m] := by
    refine State.dueSlots_single (htper ▸ List.nodup_singleton m) (htper ▸ List.mem_singleton_self m) ?_ fun j hj hjm => ?_
    · rw [State.duePeriodic, hother]
      exact ⟨hst', _, rfl, hdue⟩
    · rw [htper] at hj
      exact absurd (List.mem_singleton.1 hj) hjm
  have hwaits : t.examine m = t := by
    refine State.examine_waits (els := later) ?_ (.inr (.inr ?_))
    · exact (State.stageOne_unchanged (by rw [hframe, hw]; rfl) (by rw [hframe, hw]; rfl) (by rw [hframe, hw]; rfl) hother).trans
        (State.stageOne_of_passes hlater)
    · obtain ⟨-, -, -, -, hextents, -⟩ := hroot'
      rw [hextents]
      exact hfull
  refine ⟨s.countedDown m x, t, rfl, ?_, hroot', hframe.trans (by rw [hw, hb]; rfl)⟩
  rw [hexec, State.dispatchPass_confirm (hw ▸ hrun.noneSeeksRoom hroom) hwconf ht
    (by rw [htdue, List.foldl_cons, List.foldl_nil, hwaits]) (by rw [hframe]; exact hdemand)]

/-- A chain top takes the room before a confirm (R80, R87). -/
theorem State.boundary_topBeforeConfirm :
    ∀ p n k o m els a, s.cen.demand = [] → s.cen.periodic = [] → (s.chain p).getLast? = some n →
      (s.campaign n).state = .awaitingRoom →
      (∀ q j, q ≠ p → (s.chain q).getLast? = some j → (s.campaign j).state ≠ .awaitingRoom) →
      s.isu.acceptance = [k] → s.confirms k o m → (s.campaign m).state = .reserved → (s.campaign m).kind = some .confirm →
      s.dispatchPasses (s.campaign m) els → firstFit (5 * (s.campaign n).elements.length) s.ecr.extents 0 = some a →
      firstFit (5 * els.length)
        (insertExtent { start := a, length := 5 * (s.campaign n).elements.length, slot := n } s.ecr.extents) 0 = none →
      ∃ t : State, exec .boundary s = .next t.concludeEvent
        ∧ (∀ x, t.cell x = if a ≤ x ∧ x < a + 5 * (s.campaign n).elements.length then 0 else s.cell x)
        ∧ t = { b with
            ecr := { s.ecr with
              cells := t.ecr.cells
              extents := insertExtent { start := a, length := 5 * (s.campaign n).elements.length, slot := n } s.ecr.extents }
            cen := { s.cen with slots := (s.cen.slots.set n
              { s.campaign n with state := .measuring, extent := some (a, 5 * (s.campaign n).elements.length) }) } } := by
  intro p n k o m els a hdemand hper htop hst hothers hacc hk hst' hkind hpass hfit hfull
  have hexec := exec_boundary_of_nil hnone hper
  rw [← hb] at hexec
  have hfold : allPairs.foldl State.retryRoom b = b.seekRoom n :=
    State.foldl_retryRoom_one (p := p) (by rw [hb]; exact htop) (by rw [hb]; exact hst) (by rw [hb]; exact hothers)
  obtain ⟨hcells, hframe⟩ := State.seekRoom_found (s := b) (n := n) (a := a) (by rw [hb]; exact hfit)
  generalize b.seekRoom n = t at hfold hcells hframe
  have hne : m ≠ n := fun e => by rw [e, hst] at hst'; cases hst'
  have hrecord : t.campaign m = s.campaign m := by
    rw [hframe, hb]
    exact (vector_get_set ..).trans (if_neg hne)
  obtain ⟨horder', hconfirming, hreserved, -⟩ := hk
  have htconf : t.waitingConfirms = [m] := by
    rw [← hreserved]
    exact State.waitingConfirms_single (by rw [hframe, hb]; exact hacc) (by rw [hframe, hb]; exact horder') hconfirming
      (by rw [hreserved, hrecord]; exact hst') (by rw [hreserved, hrecord]; exact hkind)
  have hwaits : t.examine m = t := by
    refine State.examine_waits (els := els) ?_ (.inr (.inr ?_))
    · exact (State.stageOne_unchanged (periodic := (s.campaign m).periodic) (by rw [hframe, hb]; rfl) (by rw [hframe, hb]; rfl)
        (by rw [hframe, hb]; rfl) hrecord).trans (State.stageOne_of_passes hpass)
    · rw [hframe, hb]
      exact hfull
  refine ⟨t, ?_, ?_, hframe.trans (by rw [hb]; rfl)⟩
  · rw [hexec, State.dispatchPass_top hfold (by rw [htconf, List.foldl_cons, List.foldl_nil, hwaits])
      (State.dueSlots_of_nil (by rw [hframe, hb]; exact hper)) (by rw [hframe, hb]; exact hdemand)]
  · rw [hb] at hcells; exact hcells

end

/-- Settles O42: what every boundary leaves, then the dispatch pass of a boundary that grants nothing, by the candidates it finds. -/
theorem boundaryMovesTheClock : Obligations.BoundaryMovesTheClock := by
  refine ⟨fun s hready hframe => ?_, fun s hstarting => ?_, fun s b hnone hb => ?_⟩
  · have hsettled := s.boundary_settled
    simp only [State.settled, Prod.mk.injEq] at hsettled
    obtain ⟨henabled, hceilings, hfloor, hstep, hdrift, hpaths, hspans, hassembly, hgates, hsettings, hbst, hlevels, hreplies, hpart,
      hlast, hpending, hfr, hinterval, hnext⟩ := hsettled
    exact ⟨s.boundary, exec_boundary hready, hfr.trans (nextFrame_eq hframe), hinterval, hnext, henabled, hceilings, hfloor, hstep,
      hdrift, hpaths, hspans, hassembly, hgates, hsettings, hbst, hlevels, hreplies, hpart.trans hready, hlast, hpending,
      fun c hc => State.boundary_held hc⟩
  · show execBoundary s = _
    unfold execBoundary
    rw [hstarting]
  exact ⟨State.boundary_nothingDispatched hnone hb, State.boundary_demand hnone hb,
    State.boundary_demands hnone hb, State.boundary_due hnone hb,
    State.boundary_dueWaits hnone hb, State.boundary_confirm hnone hb,
    State.boundary_seeksRoom hnone hb, State.boundary_dueBeforeDemand hnone hb,
    State.boundary_confirmBeforeDue hnone hb, State.boundary_topBeforeConfirm hnone hb⟩

end Sys2Proof.Machine
end

section
/-! What a boundary grants (R24, R31, R33, R34, R62 to R67, R136). -/

namespace Sys2Proof.Machine

variable {s t u v w : State} {c d : Chan} {n m : Slot} {p q : Pair} {k : OrderNo} {o : Order} {sig : Signature} {y : Campaign}

/-- The state that a boundary's three passes leave to the transmitter (R60 to R70, R80). -/
def State.passed (s : State) : State := ((s.advanceClock.grantPass s).runCountdowns).dispatchPass

theorem exec_boundary_passed (h : s.clk.part = .ready) : exec .boundary s = .next s.passed.concludeEvent := exec_boundary h

theorem State.carried_passed (s : State) : s.passed.carried = (s.advanceClock.grantPass s).carried := by
  unfold State.passed
  rw [State.carried_dispatchPass, State.carried_runCountdowns]

theorem State.channel_of_carried (h : t.carried = s.carried) (c : Chan) : t.channel c = s.channel c := by
  unfold State.channel
  rw [(State.carried_iff.1 h).2.1]

/-! ## A coasting channel (R24, R34) -/

/-- What the grants of a boundary make of a channel that stood free before it: it is held, as it was, or DISCONNECTED with its pair
on another channel (R24). -/
def State.freeChannelNow (s u : State) (c : Chan) : Prop :=
  (u.channel c).holder ≠ none ∨ u.channel c = s.channel c
    ∨ u.channel c = {} ∧ ∃ d p, d ≠ c ∧ (s.channel c).point = some p ∧ (u.channel d).point = some p ∧ (u.channel d).holder ≠ none

theorem State.freeChannelNow.granted (h : s.freeChannelNow u c) (hg : u.grantedTo v d q) : s.freeChannelNow v c := by
  by_cases hd : c = d
  · exact .inl (hd ▸ hg.held)
  · rcases h with hheld | hsame | ⟨hopen, e, p, hne, hp, hpoint, hheld⟩
    · exact .inl (by rw [hg.keeps_held hheld]; exact hheld)
    · rcases hg.others c hd with hc | ⟨hq, hc⟩
      · exact .inr (.inl (hc.trans hsame))
      · exact .inr (.inr ⟨hc, d, q, fun e => hd e.symm, hsame ▸ hq, hg.point, hg.held⟩)
    · have hkept := hg.keeps_held hheld
      refine .inr (.inr ⟨?_, e, p, hne, hp, by rw [hkept]; exact hpoint, by rw [hkept]; exact hheld⟩)
      refine (hg.others c hd).elim (fun hc => hc.trans hopen) (fun hc => hc.2)

/-- A coasting channel that no one holds, after the grant pass (R34). -/
theorem State.grantPass_coasting (hstate : (s.channel c).state = .coasting) (hholder : (s.channel c).holder = none) :
    ((s.advanceClock.grantPass s).channel c).holder ≠ none
      ∨ (s.advanceClock.grantPass s).channel c = { s.channel c with state := .parked, probe := none }
      ∨ (s.advanceClock.grantPass s).channel c = {}
        ∧ ∃ d p, d ≠ c ∧ (s.channel c).point = some p ∧ ((s.advanceClock.grantPass s).channel d).point = some p
          ∧ ((s.advanceClock.grantPass s).channel d).holder ≠ none := by
  have hpass : ∃ u, s.advanceClock.grantPass s = u.parkUngranted ∧ s.freeChannelNow u c := by
    refine ⟨_, rfl, ?_⟩
    refine considerTops_keep (P := fun u _ => s.freeChannelNow u c) (fun u _ q n d hu _ hb hd => ?_) _ ?_
    · exact hu.granted (State.grantSlice_grantedTo hd hb)
    · exact State.considerOrders_keep (P := fun u => s.freeChannelNow u c)
        (fun u k o d hu _ hb hd => hu.granted (State.grantOrder_grantedTo hd hb)) _ (.inr (.inl rfl))
  obtain ⟨u, hu, hnow⟩ := hpass
  generalize s.advanceClock.grantPass s = g at hu
  have hidle : ∀ d, g.channel d = (u.channel d).idled := fun d => by rw [hu, State.channel_parkUngranted]
  rcases hnow with hheld | hsame | ⟨hopen, d, p, hne, hp, hpoint, hheld⟩
  · exact .inl (by rw [hidle, Channel.idled_of_held hheld]; exact hheld)
  · refine .inr (.inl ?_)
    rw [hidle, hsame]
    exact if_pos ⟨hstate, hholder⟩
  · refine .inr (.inr ⟨?_, d, p, hne, hp, ?_, ?_⟩)
    · rw [hidle, hopen]
      exact if_neg fun hx => nomatch hx.1
    · rw [hidle, Channel.idled_of_held hheld]; exact hpoint
    · rw [hidle, Channel.idled_of_held hheld]; exact hheld

/-! ## What follows the grants leaves an order on the air (R136) -/

theorem State.order_runCountdowns (s : State) (k : OrderNo) : s.runCountdowns.order k = s.order k :=
  foldl_keeps (P := fun u => u.order k = s.order k) (fun u n hu => by rw [State.runCountdown_eq]; exact hu) s.cen.periodic rfl

theorem State.order_examine (h : s.order k = some o) (hstate : o.state ≠ .confirming) (n : Slot) : (s.examine n).order k = some o := by
  unfold State.examine
  split
  · rename_i reason _
    unfold State.failDispatch
    dsimp only
    split
    · rw [State.queueOrigin_eq]; exact h
    · rw [State.queueOrigin_eq]; exact h
    · unfold State.failConfirm
      dsimp only
      split
      · exact h
      · rename_i j x hfound
        obtain ⟨hj, hx, -⟩ := State.confirmOrder_some hfound
        rw [State.endOrder_order]
        refine (if_neg fun e => hstate ?_).trans h
        rw [← e, h] at hj
        cases hj
        exact hx
    all_goals exact h
  · rename_i els _
    unfold State.stageTwo State.allocate
    dsimp only
    split
    · exact h
    · cases firstFit (5 * els.length) s.ecr.extents 0 <;> exact h

theorem State.order_retryRoom (s : State) (p : Pair) (k : OrderNo) : (s.retryRoom p).order k = s.order k := by
  unfold State.retryRoom
  split
  · rfl
  · rename_i n _
    split
    · obtain ⟨-, -, -, hframe⟩ := State.seekRoom_eq (s := s) (m := n) rfl
      generalize s.seekRoom n = t at hframe
      rw [hframe]
      rfl
    · rfl

theorem State.order_dispatchPass (h : s.order k = some o) (hstate : o.state ≠ .confirming) : s.dispatchPass.order k = some o :=
  State.dispatchPass_keeps (P := fun u => u.order k = some o) (fun u p hu => (u.order_retryRoom p k).trans hu)
    (fun _ n hu => State.order_examine hu hstate n) h

/-! ## The oldest order that waits (R63) -/

/-- A grant to an order stands: its channel, its record, the working cells and the pair's previous channel (R65, R136). -/
structure State.orderGranted (u : State) (c : Chan) (k : OrderNo) (ch : Channel) (x : Order) : Prop where
  channel : u.channel c = ch
  order : u.order k = some x
  working : u.isu.working[c] = Vector.replicate 5 0
  previous : u.fga.previous[x.pair] = some c

theorem State.orderGranted.grantOrder {ch : Channel} {x : Order} {j : OrderNo} (h : u.orderGranted c k ch x) (hheld : ch.holder ≠ none)
    (hpoint : ch.point = some x.pair) (ho : u.order j = some o) (hb : ¬ u.barred o.pair = true) (hd : u.channelFree d) :
    (u.grantOrder j o d).orderGranted c k ch x := by
  obtain ⟨hchannel, horder, hworking, hprevious⟩ := h
  have hheldu : (u.channel c).holder ≠ none := hchannel ▸ hheld
  have hcd : c ≠ d := fun e => hheldu (e ▸ hd.1)
  have hpair : x.pair ≠ o.pair := fun e => hb (State.barred_of_held hheldu (hchannel ▸ e ▸ hpoint))
  have hkj : k ≠ j := fun e => hpair (by rw [← e, horder] at ho; cases ho; rfl)
  have hkeep := (State.grantOrder_grantedTo (k := j) hd hb).keeps_held hheldu
  obtain ⟨w, channels, -, -, hframe⟩ := u.grantOrder_eq j o d
  refine ⟨hkeep.trans hchannel, ?_, ?_, ?_⟩
  · rw [hframe]
    exact ((vector_get_set ..).trans (if_neg hkj)).trans horder
  · rw [hframe]
    exact ((vector_get_set ..).trans (if_neg hcd)).trans hworking
  · rw [hframe]
    exact ((vector_get_set ..).trans (if_neg hpair)).trans hprevious

theorem State.orderGranted.grantSlice {ch : Channel} {x : Order} (h : u.orderGranted c k ch x) (hheld : ch.holder ≠ none)
    (hpoint : ch.point = some x.pair) (hb : ¬ u.barred q = true) (hd : u.channelFree d) :
    (u.grantSlice q n d).orderGranted c k ch x := by
  obtain ⟨hchannel, horder, hworking, hprevious⟩ := h
  have hheldu : (u.channel c).holder ≠ none := hchannel ▸ hheld
  have hpair : x.pair ≠ q := fun e => hb (State.barred_of_held hheldu (hchannel ▸ e ▸ hpoint))
  have hkeep := (State.grantSlice_grantedTo (n := n) hd hb).keeps_held hheldu
  obtain ⟨w, channels, hw, -, hframe⟩ := u.grantSlice_eq q n d
  obtain ⟨z, cells, hfix, -⟩ := u.fixCampaignLevel_frame n
  refine ⟨hkeep.trans hchannel, ?_, ?_, ?_⟩
  · rw [hframe, hw, hfix]; exact horder
  · rw [hframe, hw, hfix]; exact hworking
  · rw [hframe, hw, hfix]
    exact ((vector_get_set ..).trans (if_neg hpair)).trans hprevious

/-- A grant to an order that has been made stands at the boundary's end. -/
theorem State.orderGranted.passed {ch : Channel} {x : Order} {l : List OrderNo} (hl : s.waitingOrders = k :: l)
    (h : (s.advanceClock.considerOrder k).orderGranted c k ch x) (hheld : ch.holder ≠ none) (hpoint : ch.point = some x.pair)
    (hstate : x.state ≠ .confirming) : s.passed.orderGranted c k ch x := by
  have hpass : (s.advanceClock.grantPass s).orderGranted c k ch x := by
    unfold State.grantPass
    rw [hl, List.foldl_cons]
    dsimp only
    have hall := considerTops_keep (before := s) (P := fun u _ => u.orderGranted c k ch x)
      (fun u _ q n d hu _ hb hd => hu.grantSlice hheld hpoint hb hd)
      (l.foldl State.considerOrder (s.advanceClock.considerOrder k)).fga.service
      (acc := (l.foldl State.considerOrder (s.advanceClock.considerOrder k), []))
      (State.considerOrders_keep (P := fun u => u.orderGranted c k ch x)
        (fun u j o d hu ho hb hd => hu.grantOrder hheld hpoint ho hb hd) l h)
    generalize (l.foldl State.considerOrder (s.advanceClock.considerOrder k)).fga.service.foldl (considerTop s) _ = out at hall
    obtain ⟨hchannel, horder, hworking, hprevious⟩ := hall
    refine ⟨?_, ?_, ?_, ?_⟩
    · rw [State.channel_parkUngranted]
      show (out.1.channel c).idled = ch
      rw [hchannel, Channel.idled_of_held hheld]
    · rw [State.parkUngranted_eq]; exact horder
    · rw [State.parkUngranted_eq]; exact hworking
    · rw [State.parkUngranted_eq]; exact hprevious
  have hcarried := State.carried_iff.1 s.carried_passed
  obtain ⟨-, hchannels, hworking, hfga⟩ := hcarried
  refine ⟨?_, ?_, ?_, ?_⟩
  · unfold State.channel
    rw [hchannels]
    exact hpass.channel
  · exact State.order_dispatchPass ((State.order_runCountdowns _ k).trans hpass.order) hstate
  · rw [hworking]; exact hpass.working
  · rw [hfga]; exact hpass.previous

theorem filter_append_cons {P : OrderNo → Bool} {l l' : List OrderNo} (hl : ∀ m ∈ l, P m = false) (hk : P k = true) :
    (l ++ k :: l').filter P = k :: l'.filter P := by
  have hnone : l.filter P = [] := List.filter_eq_nil_iff.2 fun m hm => by rw [hl m hm]; exact Bool.false_ne_true
  rw [List.filter_append, hnone, List.nil_append, List.filter_cons_of_pos hk]

/-- The first order of the acceptance list that waits is the first the boundary examines (R63). -/
theorem State.waitingOrders_cons {earlier later : List OrderNo} (hl : s.isu.acceptance = earlier ++ k :: later)
    (hearlier : ∀ m ∈ earlier, ∀ x, s.order m = some x → x.state ≠ .waitingChannel) (ho : s.order k = some o)
    (hstate : o.state = .waitingChannel) : ∃ l, s.waitingOrders = k :: l := by
  unfold State.waitingOrders
  rw [hl]
  refine ⟨_, filter_append_cons (fun m hm => ?_) ?_⟩
  · cases hx : s.order m with
    | none => rfl
    | some x => exact beq_eq_false_iff_ne.2 (hearlier m hm x hx)
  · rw [ho]
    exact beq_iff_eq.2 hstate

/-- The channels of which none holds a pair's point but free ones leave the pair unbarred (R62). -/
theorem State.not_barred (h : ∀ d, (s.channel d).point = some p → s.channelFree d) : ¬ s.barred p = true := fun hb => by
  obtain ⟨d, hd, hp⟩ := State.barred_iff.1 hb
  exact hd (h d hp)

/-- An order examined, its pair not barred, is granted the lowest-numbered free channel with an enabled point (R63). -/
theorem State.considerOrder_granted (ho : s.order k = some o) (hb : ¬ s.barred o.pair = true) (hc : s.lowestFree o.pair = some c) :
    s.considerOrder k = s.grantOrder k o c := by
  unfold State.considerOrder
  rw [ho]
  refine (if_neg hb).trans ?_
  rw [hc]

/-- A grant to an order, as it is made (R24, R33, R65, R136). -/
theorem State.grantOrder_made {x : Order} (hx : x = o.grantedOn (s.orderLevel o) c) :
    (s.grantOrder k o c).orderGranted c k (s.grantedChannel c o.pair (.order k) x.signature false) x := by
  obtain ⟨w, channels, hw, hchannels, hframe⟩ := s.grantOrder_eq k o c
  rw [← hx] at hw hchannels hframe
  have hsame : ∀ d, w.channel d = s.channel d := fun d => by rw [hw]; rfl
  have hpair : x.pair = o.pair := by rw [hx]; rfl
  refine ⟨?_, ?_, ?_, ?_⟩
  · rw [hframe]
    show channels[c] = _
    rw [hchannels]
    refine (State.channel_carryGrant_same (s := w)).trans ?_
    unfold State.grantedChannel
    rw [hsame]
  · rw [hframe]; exact (vector_get_set ..).trans (if_pos rfl)
  · rw [hframe]; exact (vector_get_set ..).trans (if_pos rfl)
  · rw [hframe]; exact (vector_get_set ..).trans (if_pos hpair)

theorem State.workingCell_of_zero (h : s.isu.working[c] = Vector.replicate 5 0) (x : Int) : s.workingCell c x = 0 := by
  unfold State.workingCell
  rw [h, Vector.toList_replicate]
  have hlist : ∀ i : Nat, (List.replicate 5 (0 : Int)).getD i 0 = 0 := fun i => by
    rw [List.getD_eq_getElem?_getD, List.getElem?_replicate]
    split <;> rfl
  exact hlist _

/-! ## The settings of a slice (R31, R66) -/

/-- A campaign's record with the settings a ceiling leaves of its requested ones (R31). -/
def Campaign.levelled (x : Campaign) (level : Nat × Code) : Campaign :=
  { x with applied := some level, clamped := decide (level ≠ (x.requested.level, x.requested.reference)) }

theorem State.fixCampaignLevel_of {x : Campaign} (hd : s.dropExcessLevel n = w) (hx : w.campaign n = x) :
    s.fixCampaignLevel n = if x.accepted = 0 ∨ x.applied = none then
      w.setCampaign n (x.levelled (fixLevel x.requested.level x.requested.reference (w.ceiling x.pair))) else w := by
  rw [← hd, ← hx, ← hd]
  rfl

/-- The settings a slice starts with are those R31 fixes, and what an applied level above the ceiling loses is zeroed (R48). -/
theorem State.fixCampaignLevel_fixed (h : s.settingsFixed (s.campaign n) y) : (s.fixCampaignLevel n).campaign n = y
    ∧ ∀ old start length, (s.campaign n).applied = some old → s.ceiling (s.campaign n).pair < probeLevel old.1 old.2 →
        (s.campaign n).extent = some (start, length) → ∀ a, start ≤ a → a < start + length → (s.fixCampaignLevel n).cell a = 0 := by
  obtain ⟨x, hx⟩ : ∃ x, x = s.campaign n := ⟨_, rfl⟩
  rw [← hx] at h ⊢
  obtain ⟨hexcess, hwithin⟩ := h _ rfl
  by_cases hover : ∃ old, x.applied = some old ∧ s.ceiling x.pair < probeLevel old.1 old.2
  · obtain ⟨old, hold, hlevel⟩ := hover
    obtain ⟨z, hz⟩ : ∃ z : Campaign, z = { x with accepted := 0, mustPrime := true, applied := none } := ⟨_, rfl⟩
    obtain ⟨w, hw⟩ : ∃ w, w = (s.setCells (zeroedCells s.ecr.cells x.extent)).setCampaign n z := ⟨_, rfl⟩
    have hdrop : s.dropExcessLevel n = w := by
      obtain ⟨code, reference⟩ := old
      unfold State.dropExcessLevel
      rw [← hx, hold]
      refine (if_pos hlevel).trans ?_
      have hzero : ((s.zeroCampaign n).campaign n) = { x with accepted := 0, mustPrime := true } :=
        ((vector_get_set ..).trans (if_pos rfl)).trans (by rw [hx]; rfl)
      dsimp only
      rw [hzero, hw, hz, hx]
      exact congrArg (fun l => ({ s.setCells (zeroedCells s.ecr.cells (s.campaign n).extent) with cen := { s.cen with slots := l } } : State))
        (Vector.set_set ..)
    have hrecord : w.campaign n = z := by rw [hw]; exact (vector_get_set ..).trans (if_pos rfl)
    have hfix := (State.fixCampaignLevel_of hdrop hrecord).trans (if_pos (.inl (by rw [hz])))
    rw [hfix]
    refine ⟨((vector_get_set ..).trans (if_pos rfl)).trans ?_, fun old start length _ _ hext a ha hb => ?_⟩
    · rw [hexcess old.1 old.2 hold hlevel, hz, hw]
      rfl
    · show tableGet 0 w.ecr.cells a = 0
      rw [hw]
      show tableGet 0 (zeroedCells s.ecr.cells x.extent) a = 0
      rw [hext]
      exact tableGet_tableClear_in _ _ ⟨ha, hb⟩
  · have hunder : ∀ code reference, x.applied = some (code, reference) → probeLevel code reference ≤ s.ceiling x.pair :=
      fun code reference ha => Int.not_lt.1 fun hl => hover ⟨_, ha, hl⟩
    obtain ⟨hfresh, hkept⟩ := hwithin hunder
    have hdrop : s.dropExcessLevel n = s := by
      unfold State.dropExcessLevel
      rw [← hx]
      cases hold : x.applied with
      | none => rfl
      | some old => exact if_neg (Int.not_lt.2 (hunder old.1 old.2 hold))
    have hfix := State.fixCampaignLevel_of hdrop hx.symm
    refine ⟨?_, fun old start length hold hl => absurd ⟨old, hold, hl⟩ hover⟩
    by_cases h0 : x.accepted = 0 ∨ x.applied = none
    · rw [hfix, if_pos h0, hfresh h0]
      exact (vector_get_set ..).trans (if_pos rfl)
    · rw [not_or] at h0
      rw [hfix, if_neg (not_or.2 h0), hkept h0.1 h0.2, hx]

/-- The record with its settings fixed asks for the same slice and stands as it stood. -/
theorem State.settingsFixed_keeps {x : Campaign} (h : s.settingsFixed x y) :
    y.state = x.state ∧ y.pair = x.pair ∧ y.exponent = x.exponent ∧ y.requested = x.requested := by
  obtain ⟨hexcess, hwithin⟩ := h _ rfl
  by_cases hover : ∃ code reference, x.applied = some (code, reference) ∧ s.ceiling x.pair < probeLevel code reference
  · obtain ⟨code, reference, ha, hl⟩ := hover
    rw [hexcess code reference ha hl]
    exact ⟨rfl, rfl, rfl, rfl⟩
  · obtain ⟨hfresh, hkept⟩ := hwithin fun code reference ha => Int.not_lt.1 fun hl => hover ⟨code, reference, ha, hl⟩
    by_cases h0 : x.accepted = 0 ∨ x.applied = none
    · rw [hfresh h0]
      exact ⟨rfl, rfl, rfl, rfl⟩
    · rw [not_or] at h0
      rw [hkept h0.1 h0.2]
      exact ⟨rfl, rfl, rfl, rfl⟩

/-! ## A measuring chain top through the countdowns and the dispatch pass -/

/-- A measuring campaign on its pair's chain, but for its countdown, and cells at 0. -/
structure State.measures (u : State) (n : Slot) (p : Pair) (y : Campaign) (zero : Nat → Prop) : Prop where
  campaign : u.campaign n = { y with periodic := (u.campaign n).periodic }
  chain : u.chain p ≠ []
  cells : ∀ a, zero a → u.cell a = 0

variable {zero : Nat → Prop}

/-- Cells that are 0 stay 0 where a run of them is cleared. -/
theorem tableClear_zero {cells : Table Int} {a start length : Nat} (h : tableGet 0 cells a = 0) :
    tableGet 0 (tableClear cells start length) a = 0 := by
  by_cases hin : start ≤ a ∧ a < start + length
  · exact tableGet_tableClear_in _ _ hin
  · rw [tableGet_tableClear_out _ _ hin]; exact h

theorem State.measures.runCountdown (h : u.measures n p y zero) (m : Slot) : (u.runCountdown m).measures n p y zero := by
  obtain ⟨hcampaign, hchain, hcells⟩ := h
  have hrun := u.runCountdown_eq m
  have hrecord : (u.runCountdown m).campaign n = if n = m then afterCountdown u.fga.frame (u.campaign m) else u.campaign n := by
    rw [hrun]; exact vector_get_set ..
  refine ⟨?_, by rw [hrun]; exact hchain, by rw [hrun]; exact hcells⟩
  rw [hrecord]
  by_cases hm : n = m
  · rw [if_pos hm, ← hm, hcampaign]
    rfl
  · rw [if_neg hm]
    exact hcampaign

theorem State.measures.retryRoom (h : u.measures n p y zero) (hstate : y.state = .measuring) (q : Pair) :
    (u.retryRoom q).measures n p y zero := by
  obtain ⟨hcampaign, hchain, hcells⟩ := h
  unfold State.retryRoom
  split
  · exact ⟨hcampaign, hchain, hcells⟩
  · rename_i m _
    split
    · rename_i hroom
      have hne : n ≠ m := fun e => by
        rw [← e, hcampaign] at hroom
        rw [hstate] at hroom
        cases hroom
      obtain ⟨hfound, hnone, hkeeps, hframe⟩ := State.seekRoom_eq (s := u) (m := m) rfl
      have hchains : (u.seekRoom m).chain p = u.chain p := by
        generalize u.seekRoom m = t at hframe
        rw [hframe]
        rfl
      refine ⟨by rw [hkeeps n hne]; exact hcampaign, by rw [hchains]; exact hchain, fun a ha => ?_⟩
      cases hfit : firstFit (5 * (u.campaign m).elements.length) u.ecr.extents 0 with
      | none => rw [hnone hfit]; exact hcells a ha
      | some start =>
        rw [(hfound start hfit).2.2 a]
        split
        · rfl
        · exact hcells a ha
    · exact ⟨hcampaign, hchain, hcells⟩

theorem State.failConfirm_cen (s : State) (m : Slot) (reason : Reason) :
    (s.failConfirm m reason).cen = { s.cen with slots := s.cen.slots.set m {} } ∧ (s.failConfirm m reason).ecr = s.ecr := by
  unfold State.failConfirm
  dsimp only
  split
  · exact ⟨rfl, rfl⟩
  · rename_i k o _
    obtain ⟨entries, records, hframe, -⟩ := (s.freeUp m).endOrder_eq k o .doneUnresolved (some reason) .unresolved
    rw [hframe]
    exact ⟨rfl, rfl⟩

/-- A candidate that fails writes its own record and no chain (R82). -/
theorem State.failDispatch_writes (s : State) (m : Slot) (reason : Reason) :
    (∀ j, j ≠ m → (s.failDispatch m reason).campaign j = s.campaign j)
      ∧ ((s.campaign m).state = .measuring → s.failDispatch m reason = s)
      ∧ (s.failDispatch m reason).cen.chains = s.cen.chains ∧ (s.failDispatch m reason).ecr = s.ecr := by
  unfold State.failDispatch
  dsimp only
  cases hstate : (s.campaign m).state <;> dsimp only
  case queued =>
    rw [State.queueOrigin_eq]
    exact ⟨fun j hj => (vector_get_set ..).trans (if_neg hj), nofun, rfl, rfl⟩
  case idlePeriodic =>
    rw [State.queueOrigin_eq]
    exact ⟨fun j hj => (vector_get_set ..).trans (if_neg hj), nofun, rfl, rfl⟩
  case reserved =>
    obtain ⟨hcen, hecr⟩ := s.failConfirm_cen m reason
    refine ⟨fun j hj => ?_, nofun, by rw [hcen], hecr⟩
    show (s.failConfirm m reason).cen.slots[j] = _
    rw [hcen]
    exact (vector_get_set ..).trans (if_neg hj)
  all_goals exact ⟨fun _ _ => rfl, fun _ => rfl, rfl, rfl⟩

theorem State.measures.examine (h : u.measures n p y zero) (hstate : y.state = .measuring) (hpair : y.pair = p) (m : Slot) :
    (u.examine m).measures n p y zero := by
  have hkept := h
  obtain ⟨hcampaign, hchain, hcells⟩ := h
  have hmeasuring : (u.campaign n).state = .measuring := by rw [hcampaign]; exact hstate
  have hp : (u.campaign n).pair = p := by rw [hcampaign]; exact hpair
  unfold State.examine
  split
  · rename_i reason _
    obtain ⟨hothers, hsame, hchains, hecr⟩ := u.failDispatch_writes m reason
    by_cases hm : n = m
    · rw [hsame (hm ▸ hmeasuring)]
      exact hkept
    · refine ⟨by rw [hothers n hm]; exact hcampaign, ?_, fun a ha => ?_⟩
      · unfold State.chain; rw [hchains]; exact hchain
      · unfold State.cell; rw [hecr]; exact hcells a ha
  · rename_i els _
    by_cases hwait : u.chain (u.campaign m).pair ≠ [] ∨ u.orderAmong (u.campaign m).pair (statesInWay (u.campaign m))
        ∨ firstFit (5 * els.length) u.ecr.extents 0 = none
    · rw [State.stageTwo_waits hwait]
      exact hkept
    · rw [not_or, not_or, not_not, ← Ne, Option.ne_none_iff_exists'] at hwait
      obtain ⟨hempty, horder, a, hroom⟩ := hwait
      have hm : n ≠ m := fun e => hchain (by rw [← hp, e]; exact hempty)
      have hpm : p ≠ (u.campaign m).pair := fun e => hchain (e ▸ hempty)
      obtain ⟨⟨-, hothers, -, hchains, -, hclear⟩, -⟩ := State.stageTwo_commits hempty horder hroom
      refine ⟨by rw [hothers n hm]; exact hcampaign, by rw [hchains p hpm]; exact hchain, fun b hb => ?_⟩
      rw [hclear b]
      split
      · rfl
      · exact hcells b hb

theorem State.measures.passed (h : (s.advanceClock.grantPass s).measures n p y zero) (hstate : y.state = .measuring) (hpair : y.pair = p) :
    s.passed.measures n p y zero :=
  State.dispatchPass_keeps (P := fun u => u.measures n p y zero) (fun _ q hu => hu.retryRoom hstate q)
    (fun _ m hu => hu.examine hstate hpair m)
    (foldl_keeps (P := fun u => u.measures n p y zero) (fun _ m hu => hu.runCountdown m) _ h)

/-! ## The least recently served chain top (R64 to R67) -/

/-- A grant to a chain top stands among those of its boundary: its channel and its record, the pair's previous channel, and the
frame of every pair served (R65). -/
structure State.sliceGranted (u : State) (served : List Pair) (c : Chan) (p : Pair) (n : Slot) (ch : Channel) (y : Campaign)
    (zero : Nat → Prop) (fga : Arbiter) : Prop where
  channel : u.channel c = ch
  campaign : u.campaign n = y
  chain : u.chain p ≠ []
  cells : ∀ a, zero a → u.cell a = 0
  previous : u.fga.previous[p] = some c
  lastServed : ∀ q ∈ served, u.fga.lastServed[q] = some fga.frame
  mem : p ∈ served
  frame : u.fga.frame = fga.frame
  interval : u.fga.interval = fga.interval
  service : u.fga.service = fga.service

theorem State.sliceGranted.grantSlice {served : List Pair} {ch : Channel} {fga : Arbiter}
    (h : u.sliceGranted served c p n ch y zero fga) (hheld : ch.holder ≠ none) (hpoint : ch.point = some p)
    (hb : ¬ u.barred q = true) (hd : u.channelFree d) (hm : q ≠ p → m ≠ n) :
    (u.grantSlice q m d).sliceGranted (served ++ [q]) c p n ch y zero fga := by
  obtain ⟨hchannel, hcampaign, hchain, hcells, hprevious, hlast, hmem, hframe', hinterval, hservice⟩ := h
  have hheldu : (u.channel c).holder ≠ none := hchannel ▸ hheld
  have hpair : p ≠ q := fun e => hb (State.barred_of_held hheldu (hchannel ▸ e ▸ hpoint))
  have hne : n ≠ m := (hm hpair.symm).symm
  have hkeep := (State.grantSlice_grantedTo (n := m) hd hb).keeps_held hheldu
  obtain ⟨w, channels, hw, -, hframe⟩ := u.grantSlice_eq q m d
  obtain ⟨z, cells, hfix, hzero⟩ := u.fixCampaignLevel_frame m
  rw [hfix] at hw
  refine ⟨hkeep.trans hchannel, ?_, ?_, fun a ha => ?_, ?_, fun r hr => ?_, List.mem_append_left _ hmem, ?_, ?_, ?_⟩
  · rw [hframe, hw]
    exact ((vector_get_set ..).trans (if_neg hne)).trans hcampaign
  · rw [hframe, hw]; exact hchain
  · rw [hframe, hw]; exact hzero a (hcells a ha)
  · rw [hframe, hw]
    exact ((vector_get_set ..).trans (if_neg hpair)).trans hprevious
  · rw [hframe, hw]
    refine (vector_get_set ..).trans ?_
    by_cases hrq : r = q
    · rw [if_pos hrq, ← hframe']
    · rw [if_neg hrq]
      exact hlast r ((List.mem_append.1 hr).resolve_right fun hx => hrq (List.mem_singleton.1 hx))
  · rw [hframe, hw]; exact hframe'
  · rw [hframe, hw]; exact hinterval
  · rw [hframe, hw]; exact hservice

/-- A grant to a chain top, as it is made (R24, R33, R65, R66). -/
theorem State.grantSlice_made (hy : (s.fixCampaignLevel n).campaign n = y) (hchain : s.chain p ≠ [])
    (hcells : ∀ a, zero a → (s.fixCampaignLevel n).cell a = 0) :
    (s.grantSlice p n c).sliceGranted [p] c p n
      (s.grantedChannel c p (.slice n ((s.fixCampaignLevel n).sliceTime p y c) false) y.signature y.mustPrime) y zero s.fga := by
  obtain ⟨w, channels, hw, hchannels, hframe⟩ := s.grantSlice_eq p n c
  obtain ⟨z, cells, hfix, -⟩ := s.fixCampaignLevel_frame n
  rw [← hw] at hy hcells ⊢
  rw [hy] at hchannels
  rw [hfix] at hw
  have hsame : ∀ d, w.channel d = s.channel d := fun d => by rw [hw]; rfl
  have hfga : w.fga = s.fga := by rw [hw]
  refine ⟨?_, ?_, ?_, fun a ha => ?_, ?_, fun r hr => ?_, List.mem_singleton_self p, ?_, ?_, ?_⟩
  · rw [hframe]
    show channels[c] = _
    rw [hchannels]
    refine (State.channel_carryGrant_same (s := w)).trans ?_
    unfold State.grantedChannel
    rw [hsame]
  · rw [hframe]; exact hy
  · rw [hframe, hw]; exact hchain
  · rw [hframe]; exact hcells a ha
  · rw [hframe]; exact (vector_get_set ..).trans (if_pos rfl)
  · rw [hframe]
    refine ((vector_get_set ..).trans (if_pos (List.mem_singleton.1 hr))).trans ?_
    rw [hfga]
  · rw [hframe]; show w.fga.frame = _; rw [hfga]
  · rw [hframe]; show w.fga.interval = _; rw [hfga]
  · rw [hframe]; show w.fga.service = _; rw [hfga]

/-- One pair examined, its candidate and its channel known (R64). -/
theorem considerTop_granted {before : State} {acc : State × List Pair} (hn : before.candidateTop p = some n) (hb : ¬ acc.1.barred p = true)
    (hc : acc.1.chooseChannel p = some c) : considerTop before acc p = (acc.1.grantSlice p n c, acc.2 ++ [p]) := by
  unfold considerTop
  rw [hn]
  refine (if_neg hb).trans ?_
  rw [hc]

theorem State.candidateTop_some (htop : (s.chain p).getLast? = some n) (hstate : (s.campaign n).state = .measuring)
    (hextent : (s.campaign n).extent.isSome = true) (hfree : ∀ d k lit, (s.channel d).holder ≠ some (.slice n k lit)) :
    s.candidateTop p = some n := by
  unfold State.candidateTop State.chainTop
  rw [htop]
  refine if_pos ?_
  rw [State.ready, hstate, hextent, State.sliceChannel_eq_none_iff.2 hfree]
  rfl

/-- The candidate of a pair stands at the top of its chain. -/
theorem State.candidateTop_top (h : s.candidateTop q = some m) : (s.chain q).getLast? = some m := by
  unfold State.candidateTop at h
  split at h
  · rename_i j hj
    split at h
    · cases h; exact hj
    · cases h
  · cases h

/-- The grant to the chain top of the first pair of the service list stands when the pass is over (R64, R65). -/
theorem State.grantPass_slice {rest : List Pair} {ch : Channel} (horders : s.waitingOrders = []) (hservice : s.fga.service = p :: rest)
    (hn : s.candidateTop p = some n) (hunique : ∀ q, (s.chain q).getLast? = some n → q = p)
    (hb : ¬ s.advanceClock.barred p = true) (hc : s.advanceClock.chooseChannel p = some c)
    (hmade : (s.advanceClock.grantSlice p n c).sliceGranted [p] c p n ch y zero s.advanceClock.fga) (hheld : ch.holder ≠ none)
    (hpoint : ch.point = some p) : ∃ (u : State) (served : List Pair),
      s.advanceClock.grantPass s = (u.setService (serviceAfter (p :: rest) served)).parkUngranted
      ∧ u.sliceGranted served c p n ch y zero s.advanceClock.fga := by
  have hservice' : s.advanceClock.fga.service = p :: rest := hservice
  have hfirst : considerTop s (s.advanceClock, []) p = (s.advanceClock.grantSlice p n c, [p]) := considerTop_granted hn hb hc
  have hall := considerTops_keep (before := s) (P := fun u served => u.sliceGranted served c p n ch y zero s.advanceClock.fga)
    (fun u served q m d hu hq hbq hd => hu.grantSlice hheld hpoint hbq hd fun hqp hm =>
      hqp (hunique q (State.candidateTop_top (hm ▸ hq))))
    rest (acc := (s.advanceClock.grantSlice p n c, [p])) hmade
  unfold State.grantPass
  rw [horders]
  dsimp only [List.foldl_nil]
  rw [hservice', List.foldl_cons, hfirst]
  generalize rest.foldl (considerTop s) (s.advanceClock.grantSlice p n c, [p]) = out at hall
  exact ⟨out.1, out.2, by rw [hall.service, hservice'], hall⟩

theorem mem_serviceAfter_split {rest served : List Pair} (hp : p ∈ served) : ∃ unserved last : List Pair,
    serviceAfter (p :: rest) served = unserved ++ last ∧ unserved.Sublist rest ∧ p ∈ last ∧ last.Pairwise (· < ·) ∧ ∀ q ∈ last, q ∈ served := by
  refine ⟨_, _, rfl, ?_, List.mem_filter.2 ⟨mem_allPairs p, List.contains_iff_mem.2 hp⟩, ?_, fun q hq => ?_⟩
  · have hdrop : (p :: rest).filter (fun p => !served.contains p) = rest.filter (fun p => !served.contains p) := by
      rw [List.filter_cons, List.contains_iff_mem.2 hp]
      rfl
    rw [hdrop]
    exact List.filter_sublist
  · exact (by decide : allPairs.Pairwise (· < ·)).filter _
  · exact List.contains_iff_mem.1 (List.mem_filter.1 hq).2

/-- The length of a slice, written out (R67). -/
theorem State.sliceTime_eq {settle prime : Nat} {micros : Nat}
    (hmicros : micros = chipMicros y.requested.chip * sequenceLength y.requested.sequence)
    (hsettle : settle = if (s.channel c).point = some p then 0 else 50000)
    (hprime : prime = if (s.channel c).point = some p ∧ (s.channel c).probe = some y.signature ∧ y.mustPrime = false then 0 else micros) :
    s.sliceTime p y c = min (max 1 (((1000 * s.fga.interval : Nat) - (settle : Int) - (prime : Int)) / micros).toNat)
      (2 ^ y.exponent - y.accepted) := by
  have hperiod : periodMicros y.requested.chip y.requested.sequence = micros := by rw [hmicros]; exact Nat.mul_comm _ _
  have hs : (if s.settles c p = true then (50000 : Int) else 0) = (settle : Int) := by
    rw [hsettle]
    by_cases hpoint : (s.channel c).point = some p
    · rw [if_pos hpoint, if_neg fun hx => State.settles_iff.1 hx hpoint]
      rfl
    · rw [if_neg hpoint, if_pos (State.settles_iff.2 hpoint)]
      rfl
  have hp : (if s.primes c p y.signature y.mustPrime = true then (micros : Int) else 0) = (prime : Int) := by
    rw [hprime]
    have hprimes : s.primes c p y.signature y.mustPrime = true
        ↔ ¬ ((s.channel c).point = some p ∧ (s.channel c).probe = some y.signature ∧ y.mustPrime = false) := by
      unfold State.primes
      rw [Bool.or_eq_true, Bool.or_eq_true, State.settles_iff, Bool.not_eq_true', beq_eq_false_iff_ne, not_and_or, not_and_or,
        Bool.not_eq_false, or_assoc]
    by_cases hcoast : (s.channel c).point = some p ∧ (s.channel c).probe = some y.signature ∧ y.mustPrime = false
    · rw [if_pos hcoast, if_neg fun hx => hprimes.1 hx hcoast]
      rfl
    · rw [if_neg hcoast, if_pos (hprimes.2 hcoast)]
  unfold State.sliceTime sliceLength
  rw [hperiod, hs, hp, Nat.mul_comm]
  rfl

theorem periodMicros_ne_zero (chip sequence : Code) : chipMicros chip * sequenceLength sequence ≠ 0 := by
  revert chip sequence
  decide

/-- The cells a grant zeroes: those of the extent of a campaign whose applied level exceeds the ceiling (R31, R48). -/
def State.zeroedAt (s : State) (n : Slot) (a : Nat) : Prop :=
  ∃ old start length, (s.campaign n).applied = some old ∧ s.ceiling (s.campaign n).pair < probeLevel old.1 old.2
    ∧ (s.campaign n).extent = some (start, length) ∧ start ≤ a ∧ a < start + length

/-- Settles O43: the oldest order's grant, the first pair's slice, and a coasting channel without a grant. -/
theorem boundaryGrantsChannels : Obligations.BoundaryGrantsChannels := by
  refine ⟨fun c p s hready hfree hpoint hopen => ⟨?_, ?_⟩, fun c s hready hstate hholder => ?_⟩
  · intro k o earlier later code reference sig hl hearlier ho hwait hpair hlow hlevel hsig
    obtain ⟨l, hwaiting⟩ := State.waitingOrders_cons hl hearlier ho hwait
    obtain ⟨x, hx⟩ : ∃ x, x = o.grantedOn (s.advanceClock.orderLevel o) c := ⟨_, rfl⟩
    have hlev : s.advanceClock.orderLevel o = (code, reference) := by
      rw [← hlevel, ← hpair]; rfl
    have hgrant : s.advanceClock.considerOrder k = s.advanceClock.grantOrder k o c :=
      State.considerOrder_granted ho (hpair ▸ State.not_barred hopen) (hpair ▸ State.lowestFree_of hfree hpoint hlow)
    have hmade := State.grantOrder_made (k := k) hx
    rw [← hgrant] at hmade
    have hxpair : x.pair = p := by rw [hx]; exact hpair
    have hxsig : x.signature = sig := by
      rw [hx, hlev, hsig, ← hpair]; rfl
    rw [hxsig, hpair] at hmade
    obtain ⟨hchannel, horder, hworking, hprevious⟩ := State.orderGranted.passed hwaiting hmade
      (by rw [State.grantedChannel_holder]; exact Option.some_ne_none _) (by rw [State.grantedChannel_point, hxpair])
      (by rw [hx]; exact nofun)
    refine ⟨s.passed, exec_boundary_passed hready, ?_, ?_, State.workingCell_of_zero hworking, hxpair ▸ hprevious⟩
    · rw [hchannel]
      refine if_congr Iff.rfl rfl (if_congr (and_iff_left rfl) rfl rfl)
    · rw [horder, hx, hlev]
      rfl
  · intro n rest y code reference sig hservice hnone htop hunique hpair hstate hextent hslice hchoice hfixed happlied hsig
    obtain ⟨hystate, hypair, hyexp, hyreq⟩ := State.settingsFixed_keeps hfixed
    obtain ⟨hrecord, hcells⟩ := State.fixCampaignLevel_fixed (s := s.advanceClock) (n := n) hfixed
    have hzero : ∀ a, s.zeroedAt n a → (s.advanceClock.fixCampaignLevel n).cell a = 0 := fun a => by
      rintro ⟨old, start, length, happ, hexcess, hext, ha, hb⟩
      exact hcells old start length happ hexcess hext a ha hb
    have hchain : s.chain p ≠ [] := fun e => by rw [e] at htop; cases htop
    have hysig : y.signature = sig := by
      unfold Campaign.signature
      rw [happlied, hypair, hpair, hyreq, hsig]
      rfl
    have hmade := State.grantSlice_made (c := c) (p := p) hrecord (s := s.advanceClock) hchain hzero
    obtain ⟨u, served, hpass, hgranted⟩ := State.grantPass_slice (State.waitingOrders_nil hnone) hservice
      (State.candidateTop_some htop hstate hextent hslice) hunique (State.not_barred hopen) (State.chooseChannel_of hfree hpoint hchoice)
      hmade (by rw [State.grantedChannel_holder]; exact Option.some_ne_none _) State.grantedChannel_point
    generalize hg : s.advanceClock.grantPass s = g at hpass
    obtain ⟨hchannel, hcampaign, hchains, hcells0, hprevious, hlast, hmem, hframe, hinterval, hserviced⟩ := hgranted
    rw [hysig] at hchannel
    have hheld : (u.channel c).holder ≠ none := by
      rw [hchannel, State.grantedChannel_holder]; exact Option.some_ne_none _
    have hgchannel : g.channel c = u.channel c := by
      rw [hpass, State.channel_parkUngranted]
      exact Channel.idled_of_held hheld
    have hgfga : g.fga = { u.fga with service := serviceAfter (p :: rest) served } := by rw [hpass, State.parkUngranted_eq]; rfl
    have hgmeasures : g.measures n p y (s.zeroedAt n) := by
      refine ⟨?_, ?_, fun a ha => ?_⟩
      · have hgn : g.campaign n = y := by rw [hpass, State.parkUngranted_eq]; exact hcampaign
        rw [hgn]
      · rw [hpass, State.parkUngranted_eq]; exact hchains
      · rw [hpass, State.parkUngranted_eq]; exact hcells0 a ha
    have hmeasures : s.passed.measures n p y (s.zeroedAt n) :=
      State.measures.passed (by rw [hg]; exact hgmeasures) (hystate.trans hstate) (hypair.trans hpair)
    have hcarried := s.carried_passed
    rw [hg] at hcarried
    obtain ⟨-, -, -, hfga⟩ := State.carried_iff.1 hcarried
    have hfga' : s.passed.fga = { u.fga with service := serviceAfter (p :: rest) served } := hfga.trans hgfga
    have hchannel' : s.passed.channel c = s.advanceClock.grantedChannel c p
        (.slice n ((s.advanceClock.fixCampaignLevel n).sliceTime p y c) false) sig y.mustPrime :=
      (State.channel_of_carried hcarried c).trans (hgchannel.trans hchannel)
    have hexec := exec_boundary_passed hready
    generalize s.passed = t at hmeasures hfga' hchannel' hexec
    obtain ⟨z, cells, hfix, -⟩ := s.advanceClock.fixCampaignLevel_frame n
    generalize s.advanceClock.fixCampaignLevel n = w at hfix hchannel'
    have hwchannel : w.channel c = s.channel c := by rw [hfix]; rfl
    have hwinterval : w.fga.interval = t.fga.interval := by rw [hfix, hfga']; exact hinterval.symm
    obtain ⟨micros, hmicros⟩ : ∃ micros,
        micros = chipMicros (s.campaign n).requested.chip * sequenceLength (s.campaign n).requested.sequence := ⟨_, rfl⟩
    obtain ⟨settle, hsettle⟩ : ∃ settle, settle = if (s.channel c).point = some p then 0 else 50000 := ⟨_, rfl⟩
    obtain ⟨prime, hprime⟩ : ∃ prime, prime = if (s.channel c).point = some p ∧ (s.channel c).probe = some sig ∧ y.mustPrime = false then 0
      else micros := ⟨_, rfl⟩
    have hmicros0 : micros ≠ 0 := hmicros ▸ periodMicros_ne_zero _ _
    have hprime0 : prime = 0 ↔ (s.channel c).point = some p ∧ (s.channel c).probe = some sig ∧ y.mustPrime = false := by
      rw [hprime]
      split
      · rename_i hx; exact iff_of_true rfl hx
      · rename_i hx; exact iff_of_false hmicros0 hx
    have htime := State.sliceTime_eq (s := w) (y := y) (c := c) (p := p) (settle := settle) (prime := prime) (micros := micros)
      (by rw [hyreq]; exact hmicros) (by rw [hwchannel]; exact hsettle) (by rw [hwchannel, hysig]; exact hprime)
    rw [hyexp, hwinterval] at htime
    obtain ⟨unserved, last, hafter, hsub, hlastmem, hsorted, hserved⟩ := mem_serviceAfter_split (rest := rest) hmem
    have hlastframe : ∀ q ∈ served, t.fga.lastServed[q] = some t.fga.frame := fun q hq => by
      rw [hfga']
      exact (hlast q hq).trans (congrArg some hframe.symm)
    refine ⟨t, w.sliceTime p y c, micros, settle, prime, hexec, hmicros, hsettle, hprime, htime, ?_, hmeasures.campaign,
      fun old start length happ hexcess hext a ha hb => hmeasures.cells a ⟨old, start, length, happ, hpair ▸ hexcess, hext, ha, hb⟩,
      hlastframe p hmem, by rw [hfga']; exact hprevious, unserved, last, by rw [hfga']; exact hafter, hsub, hlastmem, hsorted,
      fun q hq => hlastframe q (hserved q hq)⟩
    rw [hchannel']
    unfold State.grantedChannel
    by_cases hpt : (s.channel c).point = some p
    · refine (if_neg (not_not.2 hpt)).trans (Eq.trans (if_congr ?_ rfl rfl) (if_neg (not_not.2 hpt)).symm)
      rw [hprime0, and_iff_right hpt]
      exact Iff.rfl
    · exact (if_pos hpt).trans (if_pos hpt).symm
  · obtain hpass := State.grantPass_coasting hstate hholder
    refine ⟨s.passed, exec_boundary_passed hready, ?_⟩
    have hch := State.channel_of_carried s.carried_passed
    rcases hpass with hheld | hsame | ⟨hopen, d, p, hne, hp, hpoint, hheld⟩
    · exact .inl (by rw [hch]; exact hheld)
    · exact .inr (.inl ((hch c).trans hsame))
    · exact .inr (.inr ⟨(hch c).trans hopen, d, p, hne, hp, by rw [hch]; exact hpoint, by rw [hch]; exact hheld⟩)

end Sys2Proof.Machine
end

section
/-! What a measurement end writes: the records of the elements measured, their classes and the merges (R88, R103, R112 to R116). -/

namespace Sys2Proof.Machine

variable {s t u v : State} {p : Pair} {i : Index} {l : List ResultElement} {c : Campaign} {target : Option Nat} {r : ResultElement}

/-! ## A condition merged into one record (R113 to R117) -/

/-- A record that a merge has given a condition: marked if it moved (R11). -/
def AmpRecord.judgedTo (x : AmpRecord) (condition : Condition) : AmpRecord :=
  { x with condition := condition, changed := x.changed || !(condition == x.condition) }

theorem AmpRecord.judgedTo_self (x : AmpRecord) : x.judgedTo x.condition = x := by
  unfold AmpRecord.judgedTo
  rw [beq_self_eq_true, Bool.not_true, Bool.or_false]

theorem AmpRecord.judgedTo_judgedTo {x : AmpRecord} {a b : Condition}
    (h : (!(a == x.condition) || !(b == a)) = !(b == x.condition)) : (x.judgedTo a).judgedTo b = x.judgedTo b := by
  unfold AmpRecord.judgedTo
  dsimp only
  rw [Bool.or_assoc, h]

/-- The pair's origin, where a condition moves (R117). -/
def movedOrigin (p : Pair) (moved : Bool) : List Origin := if moved = true then [.pair p] else []

theorem joined_movedOrigin (q : List Origin) (p : Pair) (a b : Bool) :
    joined (joined q (movedOrigin p a)) (movedOrigin p b) = joined q (movedOrigin p (a || b)) := by
  rw [← joined_append]
  cases a
  · rfl
  · cases b
    · rfl
    · exact joined_same [.pair p, .pair p] (by simp)

/-- One record's condition has been merged and nothing else written but its pair's origin queued where it moved. -/
structure State.merged (s t : State) (i : Index) (p : Pair) (m : Condition → Condition) : Prop where
  only : s.judgedOnly t
  record : ∀ j q, t.record j q = if j = i ∧ q = p then (s.record j q).judgedTo (m (s.record j q).condition) else s.record j q
  reports : t.clk.reports = joined s.clk.reports (movedOrigin p (!(m (s.record i p).condition == (s.record i p).condition)))

theorem State.merged_refl (s : State) (i : Index) (p : Pair) : s.merged s i p id := by
  refine ⟨rfl, fun j q => ?_, ?_⟩
  · split
    · exact (AmpRecord.judgedTo_self _).symm
    · rfl
  · rw [id, beq_self_eq_true]
    rfl

theorem State.merged_setCondition (s : State) (i : Index) (p : Pair) (m : Condition → Condition) :
    s.merged (s.setCondition i p (m (s.record i p).condition)) i p m := by
  obtain ⟨records, hframe, hrecord⟩ := s.setCondition_eq i p (m (s.record i p).condition)
  refine ⟨s.judgedOnly_setCondition i p _, fun j q => ?_, ?_⟩
  · rw [hrecord]
    split
    · rename_i hj
      obtain ⟨rfl, rfl⟩ := hj
      unfold AmpRecord.judgedTo
      rw [BEq.comm]
    · rfl
  · rw [State.setCondition_reports]
    refine congrArg _ ?_
    unfold movedOrigin
    by_cases hc : (s.record i p).condition = m (s.record i p).condition
    · rw [if_pos hc, ← hc, beq_self_eq_true]
      rfl
    · rw [if_neg hc, beq_false_of_ne (Ne.symm hc)]
      rfl

theorem State.merged_trans {m m' : Condition → Condition} (h1 : s.merged t i p m) (h2 : t.merged u i p m')
    (hm : ∀ x, (!(m x == x) || !(m' (m x) == m x)) = !(m' (m x) == x)) : s.merged u i p (m' ∘ m) := by
  have hself : (t.record i p).condition = m (s.record i p).condition := by
    rw [h1.record, if_pos ⟨rfl, rfl⟩]; rfl
  refine ⟨State.judgedOnly_trans h1.only h2.only, fun j q => ?_, ?_⟩
  · rw [h2.record, h1.record]
    by_cases hj : j = i ∧ q = p
    · rw [if_pos hj, if_pos hj, if_pos hj]
      exact AmpRecord.judgedTo_judgedTo (hm _)
    · rw [if_neg hj, if_neg hj, if_neg hj]
  · rw [h2.reports, h1.reports, hself, joined_movedOrigin, hm]
    rfl

/-! ## The merges in their tables (R113 to R115) -/

theorem surveyMerge_eq (x : Condition) (cls : ElementClass) : surveyMerge x cls = surveyed x cls := by
  cases x <;> cases cls <;> rfl

/-- The target merge never undoes what the survey merge has moved. -/
theorem targeted_surveyed_moves (cls : ElementClass) (x : Condition) :
    (!(surveyed x cls == x) || !(targeted (surveyed x cls) cls == surveyed x cls)) = !(targeted (surveyed x cls) cls == x) := by
  cases x <;> cases cls <;> rfl

theorem targeted_targeted (cls : ElementClass) (x : Condition) : targeted (targeted x cls) cls = targeted x cls := by
  cases x <;> cases cls <;> rfl

theorem State.merged_applySurvey (s : State) (i : Index) (p : Pair) (cls : ElementClass) :
    s.merged (s.applySurvey i p cls) i p (surveyed · cls) := by
  unfold State.applySurvey
  rw [surveyMerge_eq]
  exact s.merged_setCondition i p (surveyed · cls)

theorem State.merged_applyTarget (s : State) (i : Index) (p : Pair) (cls : ElementClass) :
    s.merged (s.applyTarget i p cls) i p (targeted · cls) := by
  unfold State.applyTarget
  rw [targetMerge_eq]
  exact s.merged_setCondition i p (targeted · cls)

/-- A classified element's merge, by its campaign's kind and place (R113). -/
theorem State.merged_mergeElement (s : State) (c : Campaign) (target : Option Nat) (r : ResultElement) :
    s.merged (s.mergeElement c target r) r.entry c.pair (mergedCondition c target r) := by
  unfold State.mergeElement mergedCondition
  cases r.verdict with
  | none => exact s.merged_refl ..
  | some cls =>
    have hboth := State.merged_trans (s.merged_applySurvey r.entry c.pair cls) ((s.applySurvey r.entry c.pair cls).merged_applyTarget
      r.entry c.pair cls) (targeted_surveyed_moves cls)
    cases c.kind with
    | none => exact s.merged_refl ..
    | some kind =>
      cases kind with
      | survey => exact s.merged_applySurvey ..
      | confirm => exact s.merged_refl ..
      | locate =>
        cases c.origin with
        | child =>
          by_cases ht : target = some r.position
          · simp only [if_pos ht]
            exact s.merged_applyTarget ..
          · simp only [if_neg ht]
            exact s.merged_refl ..
        | _ => exact hboth

/-- Every element of a list merged in turn, each into a record of its own. -/
theorem State.merged_foldl (hl : (l.map ResultElement.entry).Nodup) (s : State) :
    s.judgedOnly (l.foldl (fun s r => s.mergeElement c target r) s)
      ∧ (∀ r ∈ l, (l.foldl (fun s r => s.mergeElement c target r) s).record r.entry c.pair
          = (s.record r.entry c.pair).judgedTo (mergedCondition c target r (s.record r.entry c.pair).condition))
      ∧ (∀ j q, (∀ r ∈ l, ¬ (j = r.entry ∧ q = c.pair)) → (l.foldl (fun s r => s.mergeElement c target r) s).record j q = s.record j q)
      ∧ (l.foldl (fun s r => s.mergeElement c target r) s).clk.reports = joined s.clk.reports (movedOrigin c.pair (l.any fun r =>
          !(mergedCondition c target r (s.record r.entry c.pair).condition == (s.record r.entry c.pair).condition))) := by
  induction l generalizing s with
  | nil => exact ⟨rfl, fun _ h => (nomatch h), fun _ _ _ => rfl, rfl⟩
  | cons x l ih =>
    obtain ⟨hx, hl⟩ := List.nodup_cons.1 (List.map_cons .. ▸ hl)
    have hstep := s.merged_mergeElement c target x
    rw [List.foldl_cons]
    generalize s.mergeElement c target x = t at hstep
    obtain ⟨honly, hin, hout, hreports⟩ := ih hl t
    have hne : ∀ r ∈ l, r.entry ≠ x.entry := fun r hr e => hx (e ▸ List.mem_map_of_mem hr)
    have hother : ∀ r ∈ l, t.record r.entry c.pair = s.record r.entry c.pair := fun r hr => by
      rw [hstep.record, if_neg fun h => hne r hr h.1]
    refine ⟨State.judgedOnly_trans hstep.only honly, fun r hr => ?_, fun j q hno => ?_, ?_⟩
    · rcases List.mem_cons.1 hr with rfl | hr
      · rw [hout _ _ fun y hy h => hne y hy h.1.symm, hstep.record, if_pos ⟨rfl, rfl⟩]
      · rw [hin r hr, hother r hr]
    · rw [hout j q fun r hr => hno r (List.mem_cons_of_mem _ hr), hstep.record, if_neg (hno x List.mem_cons_self)]
    · have hany : (l.any fun r => !(mergedCondition c target r (t.record r.entry c.pair).condition == (t.record r.entry c.pair).condition))
          = l.any fun r => !(mergedCondition c target r (s.record r.entry c.pair).condition == (s.record r.entry c.pair).condition) := by
        refine Bool.eq_iff_iff.2 ?_
        simp only [List.any_eq_true]
        exact exists_congr fun r => and_congr_right fun hr => by rw [hother r hr]
      rw [hreports, hstep.reports, joined_movedOrigin, hany]
      rfl

/-! ## Records written one after another -/

/-- Each element's record written, each a record of its own. -/
theorem State.setRecord_foldl {g : ResultElement → AmpRecord → AmpRecord} (hl : (l.map ResultElement.entry).Nodup) (s : State) :
    (∃ records, l.foldl (fun s r => s.setRecord r.entry p (g r (s.record r.entry p))) s = { s with lpt := { s.lpt with records := records } })
      ∧ (∀ r ∈ l, (l.foldl (fun s r => s.setRecord r.entry p (g r (s.record r.entry p))) s).record r.entry p = g r (s.record r.entry p))
      ∧ ∀ j q, (∀ r ∈ l, ¬ (j = r.entry ∧ q = p)) →
          (l.foldl (fun s r => s.setRecord r.entry p (g r (s.record r.entry p))) s).record j q = s.record j q := by
  induction l generalizing s with
  | nil => exact ⟨⟨_, rfl⟩, fun _ h => (nomatch h), fun _ _ _ => rfl⟩
  | cons x l ih =>
    obtain ⟨hx, hl⟩ := List.nodup_cons.1 (List.map_cons .. ▸ hl)
    have hne : ∀ r ∈ l, r.entry ≠ x.entry := fun r hr e => hx (e ▸ List.mem_map_of_mem hr)
    rw [List.foldl_cons]
    obtain ⟨⟨records, hframe⟩, hin, hout⟩ := ih hl (s.setRecord x.entry p (g x (s.record x.entry p)))
    refine ⟨⟨records, hframe.trans rfl⟩, fun r hr => ?_, fun j q hno => ?_⟩
    · rcases List.mem_cons.1 hr with rfl | hr
      · rw [hout _ _ fun y hy h => hne y hy h.1.symm, State.record_setRecord, if_pos ⟨rfl, rfl⟩]
      · rw [hin r hr, State.record_setRecord, if_neg fun h => hne r hr h.1]
    · rw [hout j q fun r hr => hno r (List.mem_cons_of_mem _ hr), State.record_setRecord, if_neg (hno x List.mem_cons_self)]

/-! ## The results list (R49, R103) -/

theorem withClasses_eq {results l : List ResultElement} {classes : List ElementClass}
    (hl : l.map (fun r => { r with verdict := none }) = results) (hc : l.map ResultElement.verdict = classes.map some) :
    withClasses results classes = l := by
  induction l generalizing results classes with
  | nil =>
    subst hl
    cases classes with
    | nil => rfl
    | cons _ _ => cases hc
  | cons r l ih =>
    subst hl
    cases classes with
    | nil => cases hc
    | cons cls classes =>
      rw [List.map_cons, List.map_cons] at hc
      obtain ⟨hr, hc⟩ := List.cons.inj hc
      rw [List.map_cons]
      unfold withClasses
      rw [ih rfl hc, ← hr]

theorem beginsAtOne_eq (l : List ResultElement) :
    (if beginsAtOne l then some (0 : Int) else none) = if l.head?.map ResultElement.position = some 1 then some 0 else none := by
  cases l with
  | nil => rfl
  | cons r l =>
    refine if_congr ?_ rfl rfl
    unfold beginsAtOne
    rw [beq_iff_eq, List.head?_cons, Option.map_some, Option.some.injEq]

/-- Reduction in list order, each element with the place of its cells (R49). -/
theorem State.reduceFrom_eq (s : State) (c : Campaign) (start : Nat) (els : List Element) (k : Nat) :
    s.reduceFrom c (start + 5 * k) els = (els.zipIdx k).map (fun x => s.reduceElement c (start + 5 * x.2) x.1) := by
  induction els generalizing k with
  | nil => rfl
  | cons e els ih =>
    rw [State.reduceFrom, List.zipIdx_cons, List.map_cons]
    exact congrArg _ (ih (k + 1))

theorem peakAmong_congr {value value' : Int → Int} {l : List Int} {best : Int} (hl : ∀ o ∈ best :: l, value o = value' o) :
    peakAmong value l best = peakAmong value' l best := by
  induction l generalizing best with
  | nil => rfl
  | cons o l ih =>
    have hbest := hl best List.mem_cons_self
    have ho := hl o (List.mem_cons_of_mem _ List.mem_cons_self)
    rw [peakAmong, peakAmong, ← hbest, ← ho]
    refine ih fun x hx => ?_
    rcases List.mem_cons.1 hx with rfl | hx
    · split
      · exact ho
      · exact hbest
    · exact hl x (List.mem_cons_of_mem _ (List.mem_cons_of_mem _ hx))

theorem peakOffset_congr {value value' : Int → Int} (h : ∀ o, -2 ≤ o → o ≤ 2 → value o = value' o) :
    peakOffset value = peakOffset value' := by
  refine peakAmong_congr fun o ho => ?_
  have hrange : ∀ o ∈ (0 : Int) :: peakOrder, -2 ≤ o ∧ o ≤ 2 := by decide
  exact h o (hrange o ho).1 (hrange o ho).2

/-- Reduction reads the element's cells, the floor, the baselines and the campaign's settings. -/
theorem State.reduceElement_congr {x y : Campaign} {a : Nat} {e : Element} (hcells : ∀ o, -2 ≤ o → o ≤ 2 →
      t.cell (cellAddress a o) = s.cell (cellAddress a o)) (hfloor : t.ecr.floor = s.ecr.floor) (hlpt : t.lpt = s.lpt) (hbst : t.bst = s.bst)
    (hpair : y.pair = x.pair) (hexp : y.exponent = x.exponent) (hreq : y.requested = x.requested) (happ : y.applied = x.applied) :
    t.reduceElement y a e = s.reduceElement x a e := by
  have hpeak := peakOffset_congr hcells
  have hlevel : y.appliedLevel = x.appliedLevel := by unfold Campaign.appliedLevel; rw [happ, hreq]
  have hperiods : y.periods = x.periods := by unfold Campaign.periods; rw [hexp]
  have hbase : t.appliedBaseline e.entry y.pair = s.appliedBaseline e.entry x.pair := by
    unfold State.appliedBaseline State.baseline State.entry; rw [hlpt, hbst, hpair]
  obtain ⟨hlow, hhigh, -⟩ := peakOffset_spec (fun o => s.cell (cellAddress a o))
  unfold State.reduceElement
  dsimp only
  rw [hpeak, hcells _ hlow hhigh, hperiods, hreq, hfloor, hlevel, hbase]

end Sys2Proof.Machine
end

section
/-! The measurement end of a slice as one event: the list reduced and classified, its records written, the chain unwound (R88). -/

namespace Sys2Proof.Machine

variable {s t u v : State} {c : Chan} {n : Slot} {samples : List Sample} {l : List ResultElement} {p : Pair}
  {merged : ResultElement → Condition}

/-! ## The list a measurement gives -/

/-- The elements of a measured list, before classification. -/
theorem State.measuresTo_elements {start : Nat} (h : s.measuresTo n start samples l) :
    l.map ResultElement.entry = (s.campaign n).elements.map Element.entry
      ∧ l.map ResultElement.position = (s.campaign n).elements.map Element.position
      ∧ ∀ r ∈ l, r.refined = none ∧ r.refiningDepth = none := by
  obtain ⟨u, -, -, hl, -⟩ := h
  have hreduced : ∀ a e, (u.reduceElement (s.campaign n) a e).entry = e.entry ∧ (u.reduceElement (s.campaign n) a e).position = e.position
      ∧ (u.reduceElement (s.campaign n) a e).refined = none ∧ (u.reduceElement (s.campaign n) a e).refiningDepth = none := fun a e => by
    unfold State.reduceElement
    dsimp only
    split <;> exact ⟨rfl, rfl, rfl, rfl⟩
  have hmap : ∀ {β : Type} (f : ResultElement → β) (g : Element → β), (∀ r, f { r with verdict := none } = f r) →
      (∀ a e, f (u.reduceElement (s.campaign n) a e) = g e) → l.map f = (s.campaign n).elements.map g := fun f g hf hg => by
    calc l.map f = (l.map fun r => { r with verdict := none }).map f := by
          rw [List.map_map]; exact List.map_congr_left fun r _ => (hf r).symm
      _ = ((s.campaign n).elements.zipIdx.map Prod.fst).map g := by
          rw [hl, List.map_map, List.map_map]; exact List.map_congr_left fun x _ => hg _ _
      _ = (s.campaign n).elements.map g := by rw [List.zipIdx_map_fst]
  have hfresh := hmap (fun r => (r.refined, r.refiningDepth)) (fun _ => (none, none)) (fun _ => rfl)
    fun a e => Prod.ext (hreduced a e).2.2.1 (hreduced a e).2.2.2
  refine ⟨hmap _ _ (fun _ => rfl) fun a e => (hreduced a e).1, hmap _ _ (fun _ => rfl) fun a e => (hreduced a e).2.1, fun r hr => ?_⟩
  have hr := hfresh ▸ List.mem_map_of_mem (f := fun r : ResultElement => (r.refined, r.refiningDepth)) hr
  obtain ⟨-, -, he⟩ := List.mem_map.1 hr
  exact ⟨(congrArg Prod.fst he).symm, (congrArg Prod.snd he).symm⟩

/-! ## The period accepted and the extent reduced (R47, R49) -/

/-- The state in which a slice's last period has been accepted and its channel coasts. -/
def State.lastPeriod (s : State) (c : Chan) (n : Slot) (samples : List Sample) : State :=
  ((s.acceptPeriod n samples).coast c).judgeSlice n true

theorem State.lastPeriod_eq {start length : Nat} (hext : (s.campaign n).extent = some (start, length)) :
    s.lastPeriod c n samples = { s with
      pch := { s.pch with channels := s.pch.channels.set c { s.channel c with state := .coasting, holder := none } }
      ecr := { s.ecr with
        cells := addPeriods (probeBits (s.campaign n).requested.sequence) samples start (s.campaign n).elements s.ecr.cells }
      cen := { s.cen with
        slots := s.cen.slots.set n { s.campaign n with accepted := (s.campaign n).accepted + 1, darkCount := 0 } } } := by
  have haccept := State.acceptPeriod_eq (samples := samples) hext
  have hnow : ((s.acceptPeriod n samples).coast c).campaign n = { s.campaign n with accepted := (s.campaign n).accepted + 1 } := by
    rw [haccept]
    exact (vector_get_set ..).trans (if_pos rfl)
  unfold State.lastPeriod State.judgeSlice
  rw [hnow, haccept]
  simp only [State.coast, State.setChannel, State.setCampaign, State.channel, Vector.set_set]
  rfl

/-- The period that brings a campaign to M ends its measurement (R47, R88). -/
theorem State.exec_endsMeasurement (h : s.endsMeasurement c n samples l) :
    exec (.slicePeriodEnd c true samples) s = .next ((s.lastPeriod c n samples).measurementEnd n).concludeEvent := by
  obtain ⟨remaining, lit, start, hst, hh, -, hlen, hlast, hext, -⟩ := h
  have hcampaign : (s.acceptPeriod n samples).campaign n = { s.campaign n with accepted := (s.campaign n).accepted + 1 } := by
    rw [State.acceptPeriod_eq hext]
    exact (vector_get_set ..).trans (if_pos rfl)
  have hperiods : ((s.acceptPeriod n samples).campaign n).periods ≤ ((s.acceptPeriod n samples).campaign n).accepted := by
    rw [hcampaign]
    exact hlast.ge
  have hends : s.slicePeriod c n remaining lit true samples = (s.lastPeriod c n samples).afterSlice n := by
    unfold State.slicePeriod
    refine (if_pos (.inr hperiods)).trans ?_
    rw [Bool.or_true]
    rfl
  have hafter : (s.lastPeriod c n samples).afterSlice n = (s.lastPeriod c n samples).measurementEnd n := by
    refine if_pos ?_
    rw [State.lastPeriod, State.campaign_judgeSlice]
    exact hperiods
  rw [exec_slicePeriodEnd hst hh hlen, hends, hafter]

/-- The reduced list before classification. -/
theorem State.reduced_eq {start : Nat} (hlen : samples.length = sequenceLength (s.campaign n).requested.sequence)
    (hext : (s.campaign n).extent = some (start, 5 * (s.campaign n).elements.length)) (h : s.measuresTo n start samples l) :
    (s.lastPeriod c n samples).reduceFrom ((s.lastPeriod c n samples).campaign n) start (s.campaign n).elements
      = l.map fun r => { r with verdict := none } := by
  obtain ⟨u, hu, hcells, hl, -⟩ := h
  have hframe := State.lastPeriod_eq (c := c) (samples := samples) hext
  obtain ⟨hin, -⟩ := State.cell_acceptPeriod (s := s) (t := s.lastPeriod c n samples) (els := (s.campaign n).elements) (x := s.campaign n)
    (start := start) (by rw [hframe]) hlen
  have hnow : (s.lastPeriod c n samples).campaign n = { s.campaign n with accepted := (s.campaign n).accepted + 1, darkCount := 0 } := by
    rw [hframe]
    exact (vector_get_set ..).trans (if_pos rfl)
  have hstart : start = start + 5 * 0 := rfl
  rw [hl, hstart, State.reduceFrom_eq]
  refine List.map_congr_left fun x hx => State.reduceElement_congr (fun o h1 h2 => ?_) (by rw [hframe, hu]) (by rw [hframe, hu])
    (by rw [hframe, hu]) (by rw [hnow]) (by rw [hnow]) (by rw [hnow]) (by rw [hnow])
  · have he : (s.campaign n).elements[x.2]? = some x.1 := List.mem_zipIdx_iff_getElem?.1 hx
    exact (hin x.2 x.1 o he h1 h2).trans (hcells x.2 x.1 o he h1 h2).symm

/-- The extent released and the list stored, before the classification (R49). -/
theorem State.reduceCampaign_eq {start length : Nat} {x : Campaign} (hx : s.campaign n = x) (hext : x.extent = some (start, length)) :
    s.reduceCampaign n = { s with
      ecr := { s.ecr with extents := s.ecr.extents.filter (fun e => e.slot != n) }
      cen := { s.cen with slots := s.cen.slots.set n { x with results := s.reduceFrom x start x.elements, extent := none } } } := by
  subst hx
  unfold State.reduceCampaign
  rw [hext]
  unfold State.dropExtent
  dsimp only
  rw [State.setExtents]
  have hnow : ∀ (y : Campaign) (e : List Extent), ({ s.setCampaign n y with
      ecr := { (s.setCampaign n y).ecr with extents := e } } : State).campaign n = y := fun y e =>
    (vector_get_set ..).trans (if_pos rfl)
  rw [hnow]
  simp only [State.setCampaign, Vector.set_set]
  rfl

/-! ## The records of the elements measured (R88, R103) -/

/-- A record that a measurement has been written into, its class with it. -/
def AmpRecord.measuredAs (x : AmpRecord) (frame : Nat) (r : ResultElement) : AmpRecord :=
  { x with lastClass := r.verdict, amplitude := r.amplitude, echo := r.echo, gain := r.gain, deviation := r.deviation,
           offset := r.offset, frame := some frame }

/-- The measurements are written one after another, all with the frame number at the measurement end (R88, step 2). -/
theorem State.recordMeasurements_eq (hl : (l.map ResultElement.entry).Nodup) (s : State) (p : Pair) :
    (∃ records, l.foldl (fun s r => s.recordMeasurement p r) s = { s with lpt := { s.lpt with records := records } })
      ∧ (∀ r ∈ l, (l.foldl (fun s r => s.recordMeasurement p r) s).record r.entry p
          = { (s.record r.entry p).measuredAs s.fga.frame r with lastClass := (s.record r.entry p).lastClass })
      ∧ ∀ j q, (∀ r ∈ l, ¬ (j = r.entry ∧ q = p)) → (l.foldl (fun s r => s.recordMeasurement p r) s).record j q = s.record j q := by
  have hframe : ∀ (l : List ResultElement) (u : State), u.fga.frame = s.fga.frame → l.foldl (fun s r => s.recordMeasurement p r) u
      = l.foldl (fun u r => u.setRecord r.entry p
          { (u.record r.entry p).measuredAs s.fga.frame r with lastClass := (u.record r.entry p).lastClass }) u := by
    intro l
    induction l with
    | nil => exact fun _ _ => rfl
    | cons r l ih =>
      intro u hu
      refine (ih (u.recordMeasurement p r) hu).trans ?_
      rw [← hu]
      rfl
  rw [hframe l s rfl]
  exact State.setRecord_foldl (g := fun r x => { x.measuredAs s.fga.frame r with lastClass := x.lastClass }) hl s

/-! ## Classification, merges and summary (R88, step 3) -/

theorem pairOrigins_eq (p : Pair) (l : List ResultElement) (moved : ResultElement → Bool) :
    pairOrigins p l moved = movedOrigin p (l.any moved || decide (verdictSummary l = .lineDark)) := by
  unfold pairOrigins movedOrigin
  exact if_congr (by rw [Bool.or_eq_true, decide_eq_true_iff]) rfl rfl

theorem joined_pairOrigins (q : List Origin) (p : Pair) (l : List ResultElement) (moved : ResultElement → Bool) :
    (if verdictSummary l = .lineDark then joined (joined q (movedOrigin p (l.any moved))) [.pair p]
      else joined q (movedOrigin p (l.any moved))) = joined q (pairOrigins p l moved) := by
  rw [pairOrigins_eq]
  split
  · rename_i h
    rw [h]
    exact joined_movedOrigin q p _ true
  · rename_i h
    rw [decide_eq_false h, Bool.or_false]

theorem pairOrigins_congr {f g : ResultElement → Bool} (h : ∀ r ∈ l, f r = g r) : pairOrigins p l f = pairOrigins p l g := by
  have hany : l.any f = l.any g := by
    refine Bool.eq_iff_iff.2 ?_
    simp only [List.any_eq_true]
    exact exists_congr fun r => and_congr_right fun hr => by rw [h r hr]
  unfold pairOrigins
  rw [hany]

/-- A list reduced and classified: its summary, its records' conditions and the LINE_DARK mark. -/
theorem State.classifyCampaign_eq {y : Campaign} (hy : s.campaign n = y) (hl : (l.map ResultElement.entry).Nodup)
    (hclassified : s.classified y = l) (moved : ResultElement → Bool)
    (hmoved : ∀ r, moved r = !(mergedCondition y (s.targetPosition n) r (s.record r.entry y.pair).condition
      == (s.record r.entry y.pair).condition)) :
    (∃ records, s.classifyCampaign n = { s with
        lpt := { s.lpt with records := records }
        cen := { s.cen with slots := s.cen.slots.set n { y with results := l, summary := some (verdictSummary l) } }
        flo := { s.flo with lineDark := (if verdictSummary l = .lineDark then s.flo.lineDark.set y.pair true else s.flo.lineDark) }
        clk := { s.clk with reports := joined s.clk.reports (pairOrigins y.pair l moved) } })
      ∧ (∀ r ∈ l, (s.classifyCampaign n).record r.entry y.pair = ({ s.record r.entry y.pair with lastClass := r.verdict }
          : AmpRecord).judgedTo (mergedCondition y (s.targetPosition n) r (s.record r.entry y.pair).condition))
      ∧ ∀ j q, (∀ r ∈ l, ¬ (j = r.entry ∧ q = y.pair)) → (s.classifyCampaign n).record j q = s.record j q := by
  obtain ⟨a, ha⟩ : ∃ a, a = s.setCampaign n { y with results := l, summary := some (verdictSummary l) } := ⟨_, rfl⟩
  obtain ⟨⟨records, hframe⟩, hin, hout⟩ := State.setRecord_foldl (p := y.pair) (g := fun r x => { x with lastClass := r.verdict }) hl a
  obtain ⟨b, hb⟩ : ∃ b, b = l.foldl (fun a r => a.setRecord r.entry y.pair { a.record r.entry y.pair with lastClass := r.verdict }) a :=
    ⟨_, rfl⟩
  rw [← hb] at hframe hin hout
  obtain ⟨honly, hjudged, hothers, hreports⟩ := State.merged_foldl (c := y) (target := s.targetPosition n) hl b
  obtain ⟨d, hd⟩ : ∃ d, d = l.foldl (fun s' r => s'.mergeElement y (s.targetPosition n) r) b := ⟨_, rfl⟩
  rw [← hd] at honly hjudged hothers hreports
  have hclassify : s.classifyCampaign n = if verdictSummary l = .lineDark then d.markLineDark y.pair else d := by
    unfold State.classifyCampaign
    dsimp only
    rw [State.targetOf_eq, hy, hclassified, summarize_eq, ← ha, hd, hb]
    rfl
  have hmark : (if verdictSummary l = .lineDark then d.markLineDark y.pair else d) = { d with
      flo := { d.flo with lineDark := (if verdictSummary l = .lineDark then d.flo.lineDark.set y.pair true else d.flo.lineDark) }
      clk := { d.clk with reports :=
        (if verdictSummary l = .lineDark then joined d.clk.reports [.pair y.pair] else d.clk.reports) } } := by
    split
    · rw [State.markLineDark, State.queueOrigin_eq]
      rfl
    · rfl
  rw [hclassify, hmark]
  have hrec : ∀ j q, a.record j q = s.record j q := fun j q => by rw [ha]; rfl
  have hany : (l.any fun r => !(mergedCondition y (s.targetPosition n) r (b.record r.entry y.pair).condition
      == (b.record r.entry y.pair).condition)) = l.any moved := by
    refine Bool.eq_iff_iff.2 ?_
    simp only [List.any_eq_true]
    exact exists_congr fun r => and_congr_right fun hr => by rw [hin r hr, hrec, hmoved]
  refine ⟨⟨d.lpt.records, ?_⟩, fun r hr => ?_, fun j q hno => ?_⟩
  · have hq : b.clk = s.clk := by rw [hframe, ha]; rfl
    rw [hreports, hany, joined_pairOrigins, hq]
    generalize joined s.clk.reports _ = reports
    rw [State.judgedOnly] at honly
    rw [honly, hframe, ha]
    rfl
  · exact (hjudged r hr).trans (by rw [hin r hr, hrec])
  · exact (hothers j q hno).trans ((hout j q hno).trans (hrec j q))

/-! ## The measurement end before its walk (R88, steps 1 to 3) -/

/-- What is observed of a list does not depend on its classes, nor on the last measurements in the records (R103). -/
theorem State.observe_congr {l : List ResultElement} (h : ∀ r ∈ l, (t.record r.entry p).isolation = (s.record r.entry p).isolation) :
    (l.map fun r => { r with verdict := none }).map (t.observe p) = l.map (s.observe p) := by
  rw [List.map_map]
  refine List.map_congr_left fun r hr => ?_
  have hiso := h r hr
  unfold State.observe
  dsimp only [Function.comp]
  rw [hiso]
  rfl

theorem State.targetPosition_congr (hp : (t.campaign n).parent = (s.campaign n).parent)
    (hc : ∀ m, (t.campaign m).cursor = (s.campaign m).cursor) : t.targetPosition n = s.targetPosition n := by
  unfold State.targetPosition
  simp only [hp, hc]

/-- The measurement of a slot has ended on a channel with a list: the elements' records hold it with the conditions given, the slot
the campaign given, and no chain has changed. -/
structure State.measured (s v : State) (c : Chan) (n : Slot) (l : List ResultElement) (y : Campaign)
    (merged : ResultElement → Condition) (moved : ResultElement → Bool) : Prop where
  frame : s.measurementFrame v c (s.campaign n).pair l
  entries : v.lpt.entries = s.lpt.entries
  orders : v.isu = s.isu
  records : s.recordsMeasured v (s.campaign n).pair l merged moved
  campaign : v.campaign n = y
  others : ∀ m, m ≠ n → v.campaign m = s.campaign m
  chains : v.cen.chains = s.cen.chains
  extents : v.ecr.extents = s.ecr.extents.filter (fun e => e.slot != n)
  cells : ∀ a, (∀ y, (s.campaign n).extent = some y → a < y.1 ∨ y.1 + y.2 ≤ a) → v.cell a = s.cell a
  reports : v.clk.reports = joined s.clk.reports (pairOrigins (s.campaign n).pair l moved)

/-- A campaign whose last period has been accepted and its extent reduced into a list, not yet classified (R37, R47, R49). -/
def reducedCampaign (x : Campaign) (l : List ResultElement) : Campaign :=
  { x with accepted := x.accepted + 1, darkCount := 0, results := l.map (fun r => { r with verdict := none }), extent := none }

/-- The last period accepted and the extent reduced and released (R88, step 1). -/
theorem State.reducedState_eq {start : Nat} (hlen : samples.length = sequenceLength (s.campaign n).requested.sequence)
    (hext : (s.campaign n).extent = some (start, 5 * (s.campaign n).elements.length)) (h : s.measuresTo n start samples l) :
    ∃ cells, (s.lastPeriod c n samples).reduceCampaign n = { s with
        pch := { s.pch with channels := s.pch.channels.set c { s.channel c with state := .coasting, holder := none } }
        ecr := { s.ecr with cells := cells, extents := s.ecr.extents.filter (fun e => e.slot != n) }
        cen := { s.cen with slots := s.cen.slots.set n (reducedCampaign (s.campaign n) l) } }
      ∧ ∀ a, a < start ∨ start + 5 * (s.campaign n).elements.length ≤ a →
        ((s.lastPeriod c n samples).reduceCampaign n).cell a = s.cell a := by
  have hframe := State.lastPeriod_eq (c := c) (samples := samples) hext
  have hreduced := State.reduced_eq (c := c) hlen hext h
  have hnow : (s.lastPeriod c n samples).campaign n = { s.campaign n with accepted := (s.campaign n).accepted + 1, darkCount := 0 } := by
    rw [hframe]
    exact (vector_get_set ..).trans (if_pos rfl)
  have hreduce := State.reduceCampaign_eq hnow hext
  rw [← hnow, show ((s.lastPeriod c n samples).campaign n).elements = (s.campaign n).elements by rw [hnow], hreduced] at hreduce
  obtain ⟨-, hcells⟩ := State.cell_acceptPeriod (s := s) (t := s.lastPeriod c n samples) (els := (s.campaign n).elements) (x := s.campaign n)
    (start := start) (by rw [hframe]) hlen
  refine ⟨(s.lastPeriod c n samples).ecr.cells, ?_, fun a ha => ?_⟩
  · rw [hreduce, hnow, hframe]
    simp only [Vector.set_set]
    rfl
  · rw [hreduce]
    exact hcells a ha

/-- The classes of a list do not depend on the list's being reduced before (R103). -/
theorem State.classified_eq {y : Campaign} (hy : y.results = l.map fun r => { r with verdict := none })
    (hstep : t.flo.tStep = s.flo.tStep) (hdrift : t.flo.tDrift = s.flo.tDrift)
    (hiso : ∀ r ∈ l, (t.record r.entry y.pair).isolation = (s.record r.entry y.pair).isolation)
    (h : ∀ base : Option Int, base = (if l.head?.map ResultElement.position = some 1 then some 0 else none) →
      l.map ResultElement.verdict = (classify s.flo.tStep s.flo.tDrift base base (l.map (s.observe y.pair))).map some) :
    t.classified y = l := by
  unfold State.classified
  dsimp only
  rw [hy]
  refine withClasses_eq rfl ?_
  rw [State.observe_congr hiso, hstep, hdrift]
  refine h _ ?_
  rw [beginsAtOne_eq, List.head?_map, Option.map_map]
  rfl

/-- A period that ends a measurement: the list is measured, and then the chain walks on and unwinds. -/
theorem State.endsMeasurement_measured (h : s.endsMeasurement c n samples l)
    (hmerged : ∀ r, merged r = mergedCondition (s.campaign n) (s.targetPosition n) r (s.record r.entry (s.campaign n).pair).condition)
    {moved : ResultElement → Bool} (hmoved : ∀ r, moved r = !(merged r == (s.record r.entry (s.campaign n).pair).condition)) :
    ∃ v : State, s.measured v c n l (measuredCampaign (s.campaign n) l) merged moved ∧ exec (.slicePeriodEnd c true samples) s
      = .next (State.unwind (s.campaign n).pair (s.chain (s.campaign n).pair).reverse v).concludeEvent := by
  have hexec := State.exec_endsMeasurement h
  obtain ⟨remaining, lit, start, -, -, -, hlen, -, hext, hentries, -, -, hlist⟩ := h
  obtain ⟨hentry, -, -⟩ := State.measuresTo_elements hlist
  have hl : (l.map ResultElement.entry).Nodup := hentry ▸ hentries
  have hpair : ((s.lastPeriod c n samples).campaign n).pair = (s.campaign n).pair := by
    rw [State.lastPeriod_eq hext]
    exact (congrArg Campaign.pair ((vector_get_set ..).trans (if_pos rfl)) :)
  obtain ⟨cells, hreduce, hcells⟩ := State.reducedState_eq (c := c) hlen hext hlist
  obtain ⟨b, hb⟩ : ∃ b, b = (s.lastPeriod c n samples).reduceCampaign n := ⟨_, rfl⟩
  rw [← hb] at hreduce hcells
  obtain ⟨⟨records, hframe⟩, hin, hout⟩ := State.recordMeasurements_eq hl b (s.campaign n).pair
  obtain ⟨d, hd⟩ : ∃ d, d = l.foldl (fun s' r => s'.recordMeasurement (s.campaign n).pair r) b := ⟨_, rfl⟩
  rw [← hd] at hframe hin hout
  rw [hreduce] at hframe
  have hrecord : ∀ j q, b.record j q = s.record j q := fun j q => by rw [hreduce]; rfl
  have hfga : b.fga = s.fga := by rw [hreduce]
  simp only [hrecord, hfga] at hin hout
  have hcampaign : ∀ m, d.campaign m = if m = n then reducedCampaign (s.campaign n) l else s.campaign m := fun m => by
    rw [hframe]
    exact vector_get_set ..
  have htarget : d.targetPosition n = s.targetPosition n := by
    refine State.targetPosition_congr (by rw [hcampaign, if_pos rfl]; rfl) fun m => ?_
    rw [hcampaign]
    split
    · rename_i hm
      rw [hm]
      rfl
    · rfl
  have hclassified : d.classified (reducedCampaign (s.campaign n) l) = l := by
    refine State.classified_eq (s := s) rfl (by rw [hframe]) (by rw [hframe]) (fun r hr => ?_) hlist.choose_spec.2.2.2
    exact (congrArg AmpRecord.isolation (hin r hr) :)
  have hold : ∀ r ∈ l, (d.record r.entry (s.campaign n).pair).condition = (s.record r.entry (s.campaign n).pair).condition :=
    fun r hr => (congrArg AmpRecord.condition (hin r hr) :)
  obtain ⟨⟨records', hframe'⟩, hin', hout'⟩ := State.classifyCampaign_eq ((hcampaign n).trans (if_pos rfl)) hl hclassified
    (fun r => !(mergedCondition (s.campaign n) (s.targetPosition n) r (d.record r.entry (s.campaign n).pair).condition
      == (d.record r.entry (s.campaign n).pair).condition)) (fun r => by rw [htarget]; rfl)
  obtain ⟨v, hv⟩ : ∃ v, v = d.classifyCampaign n := ⟨_, rfl⟩
  rw [← hv] at hframe' hin' hout'
  have hunwind : (s.lastPeriod c n samples).measurementEnd n = State.unwind (s.campaign n).pair (v.chain (s.campaign n).pair).reverse v := by
    unfold State.measurementEnd
    dsimp only
    have hresults : (b.campaign n).results = l.map fun r => { r with verdict := none } := by
      rw [hreduce]
      exact (congrArg Campaign.results ((vector_get_set ..).trans (if_pos rfl)) :)
    rw [hpair, ← hb, hresults, List.foldl_map, hv, hd]
    rfl
  have hchains : v.cen.chains = s.cen.chains := by rw [hframe', hframe]
  refine ⟨v, ?_, ?_⟩
  rotate_left
  · rw [hexec, hunwind, State.chain, hchains]
    rfl
  have hany : ∀ r ∈ l, (!(mergedCondition (s.campaign n) (s.targetPosition n) r (d.record r.entry (s.campaign n).pair).condition
      == (d.record r.entry (s.campaign n).pair).condition)) = moved r := fun r hr => by rw [hold r hr, hmoved, hmerged]
  refine { frame := ?_, entries := by rw [hframe', hframe], orders := by rw [hframe', hframe], records := ⟨fun r hr => ?_, fun i q hno => ?_⟩,
           campaign := ?_, others := fun m hm => ?_, chains := hchains, extents := by rw [hframe', hframe], cells := fun a ha => ?_,
           reports := ?_ }
  · unfold State.measurementFrame
    rw [hframe', hframe]
    rfl
  · refine (hin' r hr).trans ?_
    show AmpRecord.judgedTo { d.record r.entry (s.campaign n).pair with lastClass := r.verdict }
      (mergedCondition (s.campaign n) (d.targetPosition n) r (d.record r.entry (s.campaign n).pair).condition) = _
    rw [htarget, hold r hr, ← hmerged, hin r hr, hmoved]
    rfl
  · refine (hout' i q fun r hr hq => ?_).trans ((hout i q fun r hr hq => ?_).trans rfl)
    · exact hno.elim (fun h => h hq.2) fun h => h r hr hq.1.symm
    · exact hno.elim (fun h => h hq.2) fun h => h r hr hq.1.symm
  · rw [hframe']
    exact (vector_get_set ..).trans (if_pos rfl)
  · have hother := (hcampaign m).trans (if_neg hm)
    rw [hframe']
    exact (vector_get_set ..).trans ((if_neg hm).trans hother)
  · have hb : b.cell a = s.cell a := hcells a (ha _ hext)
    rw [hframe', hframe, ← hb, hreduce]
    rfl
  · rw [hframe', ← pairOrigins_congr hany, hframe]
    rfl

end Sys2Proof.Machine
end

section
/-! What follows a measurement end on its pair's chain: the walk of the chain top, its child, its return and the root's finish (R88,
step 4; R89, R90, R118 to R123). -/

namespace Sys2Proof.Machine

variable {s t u v w : State} {c : Chan} {n m q : Slot} {samples : List Sample} {l : List ResultElement} {p : Pair}
  {y : Campaign} {merged : ResultElement → Condition} {moved : ResultElement → Bool}

/-! ## Slices that no channel holds -/

/-- No channel is held by a slice of the slots. -/
def State.noSliceOf (s : State) (l : List Slot) : Prop := ∀ d, ∀ m ∈ l, ∀ k lit, (s.channel d).holder ≠ some (.slice m k lit)

theorem State.noSliceOf.oneChannelEach {l : List Slot} (h : s.noSliceOf l) : s.oneChannelEach l :=
  fun d _ m k lit _ _ hm hd _ => absurd hd (h d m hm k lit)

theorem State.noSliceOf.mono {l l' : List Slot} (h : s.noSliceOf l) (hs : ∀ m ∈ l', m ∈ l) : s.noSliceOf l' :=
  fun d m hm => h d m (hs m hm)

theorem State.noSliceOf.congr {l : List Slot} (h : s.noSliceOf l) (ht : t.pch.channels = s.pch.channels) : t.noSliceOf l := by
  unfold State.noSliceOf State.channel
  rw [ht]
  exact h

theorem State.noSliceOf.ended {l : List Slot} (h : s.noSliceOf l) (he : s.slicesEnded t l) : t.pch.channels = s.pch.channels :=
  Vector.ext fun i hi => (he ⟨i, hi⟩).2 fun m hm k lit => h ⟨i, hi⟩ m hm k lit

/-- At a measurement end no channel is left on the chain (R62, R88). -/
theorem State.measured.noSliceOf (h : s.endsMeasurement c n samples l) (hv : s.measured v c n l y merged moved) :
    v.noSliceOf (s.chain (s.campaign n).pair) := by
  obtain ⟨-, -, -, -, -, -, -, -, -, -, -, hfree, -⟩ := h
  have hchannel : ∀ d, v.channel d = if d = c then { s.channel c with state := .coasting, holder := none } else s.channel d := fun d => by
    rw [hv.frame]
    exact vector_get_set ..
  intro d m hm k lit hd
  rw [hchannel] at hd
  split at hd
  · cases hd
  · rename_i hdc
    exact hfree d m k lit hdc hd hm

/-! ## What a measured chain top walks (R118, R119) -/

theorem State.measured.samePlan (h : s.measured v c n l (measuredCampaign (s.campaign n) l) merged moved) : s.SamePlan v n := by
  refine ⟨h.entries, by rw [h.frame], ?_, ?_, ?_, ?_, ?_, fun m => ?_⟩
  iterate 5 (rw [h.campaign]; rfl)
  by_cases hm : m = n
  · rw [hm, h.campaign]; rfl
  · rw [h.others m hm]

theorem State.measured.leftToWalk (h : s.measured v c n l (measuredCampaign (s.campaign n) l) merged moved) (hcursor : (s.campaign n).cursor = none) :
    v.leftToWalk n = s.walkable n l := by
  have htarget : v.targetPosition n = s.targetPosition n := by
    refine State.targetPosition_congr (by rw [h.campaign]; rfl) fun m => ?_
    by_cases hm : m = n
    · rw [hm, h.campaign]; rfl
    · rw [h.others m hm]
  have hwalkable : v.walkable n l = s.walkable n l := by
    unfold State.walkable
    rw [htarget, h.campaign]
    rfl
  have hresults : (v.campaign n).results = l := by rw [h.campaign]; rfl
  have hnone : (v.campaign n).cursor = none := by rw [h.campaign]; exact hcursor
  unfold State.leftToWalk
  rw [hresults, hnone, hwalkable]
  exact List.filter_eq_self.2 fun _ _ => rfl

/-- A chain whose root is a demand or periodic campaign walks on and unwinds (R88, R89, R119). -/
theorem State.measured.unwound {below : List Slot} (h : s.endsMeasurement c n samples l) (hv : s.measured v c n l (measuredCampaign (s.campaign n) l) merged moved)
    (hchain : s.chain (s.campaign n).pair = (n :: below).reverse) (hnodup : (n :: below).Nodup)
    (hlinked : s.linked (s.campaign n).pair n l below) :
    v.unwound (s.campaign n).pair (n :: below) (State.unwind (s.campaign n).pair (s.chain (s.campaign n).pair).reverse v) := by
  have hslices : v.noSliceOf (n :: below) := (hv.noSliceOf h).mono fun m hm => by rw [hchain]; exact List.mem_reverse.2 hm
  obtain ⟨-, -, -, -, -, hstate, -⟩ := h
  have hresults : (v.campaign n).results = l := by rw [hv.campaign]; rfl
  rw [hchain, List.reverse_reverse]
  refine State.unwind_eq below n v hnodup hslices.oneChannelEach ?_ ?_
  · rw [hv.campaign]
    show (s.campaign n).state ≠ .free
    rw [hstate]
    decide
  · rw [hresults]
    refine State.linked_congr rfl ?_ ?_ ?_ (fun j hj => hv.others j fun e => ?_) hlinked
    iterate 3 (rw [hv.campaign]; rfl)
    exact (List.nodup_cons.1 hnodup).1 (e ▸ hj)

/-! ## Plans and checks are decided -/

/-- The first element of a list that fails a test is one, and so is what stands before it. -/
theorem first_failing_unique {α : Type} {P : α → Prop} {a a' b b' : List α} {x x' : α} (h : a ++ x :: b = a' ++ x' :: b')
    (ha : ∀ y ∈ a, P y) (hx : ¬ P x) (ha' : ∀ y ∈ a', P y) (hx' : ¬ P x') : a = a' ∧ x = x' := by
  induction a generalizing a' with
  | nil =>
    cases a' with
    | nil => exact ⟨rfl, (List.cons.inj h).1⟩
    | cons y a' => exact absurd (ha' y List.mem_cons_self) ((List.cons.inj h).1 ▸ hx)
  | cons z a ih =>
    cases a' with
    | nil => exact absurd (ha z List.mem_cons_self) ((List.cons.inj h).1 ▸ hx')
    | cons y a' =>
      obtain ⟨rfl, htail⟩ := List.cons.inj h
      obtain ⟨rfl, hx⟩ := ih htail (fun w hw => ha w (List.mem_cons_of_mem _ hw)) fun w hw => ha' w (List.mem_cons_of_mem _ hw)
      exact ⟨rfl, hx⟩

theorem State.childPlan_unique {r : ResultElement} {first last first' last' : Nat} {els els' : List Element}
    (h : s.childPlan n r first last els) (h' : s.childPlan n r first' last' els') : first' = first ∧ last' = last ∧ els' = els := by
  obtain ⟨rfl, rfl, hels⟩ := h
  obtain ⟨rfl, rfl, hels'⟩ := h'
  exact ⟨rfl, rfl, (State.rangeElements_unique hels').trans (State.rangeElements_unique hels).symm⟩

theorem State.childBlocked_unique {r : ResultElement} {reason reason' : Reason} (h : s.childBlocked n r reason)
    (h' : s.childBlocked n r reason') : reason' = reason := by
  obtain ⟨_, _, els, passed, check, failed, hplan, hchecks, hpassed, hfails⟩ := h
  obtain ⟨_, _, els', passed', check', failed', hplan', hchecks', hpassed', hfails'⟩ := h'
  obtain ⟨-, -, rfl⟩ := State.childPlan_unique hplan hplan'
  exact (congrArg Prod.snd (first_failing_unique (P := fun x : Prop × Reason => x.1) (hchecks'.symm.trans hchecks) hpassed' hfails'
    hpassed hfails).2 :)

theorem State.not_childBlocked {r : ResultElement} {reason : Reason} {first last : Nat} {els : List Element}
    (hplan : s.childPlan n r first last els) (hchecks : ∀ x ∈ s.childChecks n els, x.1) : ¬ s.childBlocked n r reason := by
  rintro ⟨_, _, els', passed, check, failed, hplan', hlist, -, hfails⟩
  obtain ⟨-, -, rfl⟩ := State.childPlan_unique hplan hplan'
  exact hfails (hchecks (check, reason) (by rw [hlist]; exact List.mem_append_right _ List.mem_cons_self))

theorem State.lowestFreeSlot_unique (h : s.lowestFreeSlot n) (h' : s.lowestFreeSlot m) : m = n := by
  obtain ⟨hfree, hlow⟩ := h
  obtain ⟨hfree', hlow'⟩ := h'
  rcases lt_trichotomy m n with h | h | h
  · exact absurd hfree' (hlow m h)
  · exact h
  · exact absurd hfree (hlow' n h)

/-! ## The walk of a measured chain top (R119) -/

theorem State.walkedPast_congr {blocked : List ResultElement} {reason reason' : ResultElement → Reason}
    (h : ∀ r ∈ blocked, reason' r = reason r) (hw : v.walkedPast w p n blocked reason') : v.walkedPast w p n blocked reason := by
  have hrefine : ∀ l, refineBlocked l blocked reason' = refineBlocked l blocked reason := fun l =>
    List.map_congr_left fun r _ => by
      by_cases hr : r ∈ blocked
      · rw [if_pos hr, if_pos hr, h r hr]
      · rw [if_neg hr, if_neg hr]
  unfold State.walkedPast at hw ⊢
  simp only [hrefine] at hw
  exact hw

/-- What a measured chain top's walk comes to: which elements it passes is decided, and so are their reasons. -/
theorem State.measured.walk_eq (hv : s.measured v c n l (measuredCampaign (s.campaign n) l) merged moved)
    (hcursor : (s.campaign n).cursor = none) (hstate : (s.campaign n).state = .measuring)
    (hpos : (l.map ResultElement.position).Pairwise (· < ·)) {blocked rest : List ResultElement} {reason : ResultElement → Reason}
    (hwalk : s.walkable n l = blocked ++ rest) (hblocked : ∀ r ∈ blocked, s.childBlocked n r (reason r))
    (hrest : ∀ r ∈ rest.head?, ∃ first last els, s.childPlan n r first last els ∧ ∀ x ∈ s.childChecks n els, x.1) :
    ∃ w, v.walkedPast w (s.campaign n).pair n blocked reason
      ∧ ((∃ r later first last els m t, rest = r :: later ∧ s.childPlan n r first last els ∧ s.lowestFreeSlot m
            ∧ w.childAdded t (s.campaign n).pair n m r first last els ∧ v.walk n = (t, true))
        ∨ rest = [] ∧ v.walk n = (w.withCursor n none, false)) := by
  have hsame := hv.samePlan
  have hresults : (v.campaign n).results = l := by rw [hv.campaign]; rfl
  obtain ⟨blocked', rest', reason', w, hleft, hblocked', hpast, hends⟩ := State.walk_eq (s := v) hsame.pair
    (by rw [hsame.states, hstate]; decide) (by rw [hresults]; exact hpos)
  rw [hv.leftToWalk hcursor, hwalk] at hleft
  simp only [hsame.childBlocked] at hblocked'
  have hstops : ∀ r, (∃ first last els, s.childPlan n r first last els ∧ ∀ x ∈ s.childChecks n els, x.1) → ¬ ∃ y, s.childBlocked n r y :=
    fun r ⟨_, _, _, hplan, hchecks⟩ ⟨_, hr⟩ => State.not_childBlocked hplan hchecks hr
  have hstops' : ∀ r later, rest' = r :: later → ∃ first last els, s.childPlan n r first last els ∧ ∀ x ∈ s.childChecks n els, x.1 := by
    rintro r later rfl
    rcases hends with ⟨r', later', first, last, els, m, t, hr, hplan, hchecks, -⟩ | ⟨hr, -⟩
    · rw [(List.cons.inj hr).1]
      exact ⟨first, last, els, hsame.childPlan.1 hplan, hsame.childChecks els ▸ hchecks⟩
    · cases hr
  have heq : blocked' = blocked ∧ rest' = rest := by
    cases rest with
    | nil =>
      cases rest' with
      | nil => exact ⟨by simpa using hleft.symm, rfl⟩
      | cons r' later' =>
        refine absurd ⟨_, hblocked r' ?_⟩ (hstops r' (hstops' r' later' rfl))
        have hmem : r' ∈ blocked ++ [] := by rw [hleft]; exact List.mem_append_right _ List.mem_cons_self
        simpa using hmem
    | cons r later =>
      have hr := hstops r (hrest r rfl)
      cases rest' with
      | nil =>
        refine absurd ⟨_, hblocked' r ?_⟩ hr
        have hmem : r ∈ blocked' ++ [] := by rw [← hleft]; exact List.mem_append_right _ List.mem_cons_self
        simpa using hmem
      | cons r' later' =>
        obtain ⟨rfl, -⟩ := first_failing_unique (P := fun r => ∃ y, s.childBlocked n r y) hleft (fun y hy => ⟨_, hblocked y hy⟩) hr
          (fun y hy => ⟨_, hblocked' y hy⟩) (hstops r' (hstops' r' later' rfl))
        exact ⟨rfl, (List.append_cancel_left hleft).symm⟩
  obtain ⟨rfl, rfl⟩ := heq
  refine ⟨w, State.walkedPast_congr (fun r hr => State.childBlocked_unique (hblocked r hr) (hblocked' r hr)) hpast, ?_⟩
  refine hends.imp (fun ⟨r, later, first, last, els, m, t, hr, hplan, _, hm, hadded, hw⟩ => ?_) id
  exact ⟨r, later, first, last, els, m, t, hr, hsame.childPlan.1 hplan, hsame.lowestFreeSlot.1 hm, hadded, hw⟩

/-- An element of a list that has each entry once is one of some of its elements exactly if its entry is one of theirs. -/
theorem entry_mem_iff {blocked : List ResultElement} (hl : (l.map ResultElement.entry).Nodup) (hsub : ∀ r ∈ blocked, r ∈ l)
    {r : ResultElement} (hr : r ∈ l) : r.entry ∈ blocked.map ResultElement.entry ↔ r ∈ blocked := by
  refine ⟨fun h => ?_, List.mem_map_of_mem⟩
  obtain ⟨y, hy, he⟩ := List.mem_map.1 h
  exact List.inj_on_of_nodup_map hl (hsub y hy) hr he ▸ hy

/-- The elements passed are refined INCONCLUSIVE, and their records follow (R116, R119). -/
theorem State.measured.past (hv : s.measured v c n l (measuredCampaign (s.campaign n) l) merged moved) {blocked : List ResultElement}
    {reason : ResultElement → Reason} (hw : v.walkedPast w (s.campaign n).pair n blocked reason)
    (hl : (l.map ResultElement.entry).Nodup) (hsub : ∀ r ∈ blocked, r ∈ l) {final : ResultElement → Condition}
    (hfinal : ∀ r, final r = if r ∈ blocked then targeted (merged r) .inconclusive else merged r) {moved' : ResultElement → Bool}
    (hmoved : ∀ r, moved' r = (moved r || !(final r == merged r))) :
    s.measured w c n l { measuredCampaign (s.campaign n) l with
      results := refineBlocked l blocked reason, summary := some (verdictSummary (refineBlocked l blocked reason)) } final moved' := by
  obtain ⟨⟨hrecord, hreports⟩, hcampaign, hothers, hframe⟩ := hw
  obtain ⟨hin, hout⟩ := hv.records
  have hcondition : ∀ r ∈ l, (v.record r.entry (s.campaign n).pair).condition = merged r := fun r hr => by rw [hin r hr]
  refine { frame := ?_, entries := by rw [hframe]; exact hv.entries, orders := by rw [hframe]; exact hv.orders,
           records := ⟨fun r hr => ?_, fun i q hno => ?_⟩, campaign := ?_, others := fun m hm => (hothers m hm).trans (hv.others m hm),
           chains := by rw [hframe]; exact hv.chains, extents := by rw [hframe]; exact hv.extents,
           cells := fun a ha => ?_, reports := ?_ }
  · have hkeep := hv.frame
    unfold State.measurementFrame at hkeep ⊢
    generalize w.lpt.records = records, w.cen.slots = slots, w.clk.reports = reports at hframe
    rw [hframe, hkeep]
  · rw [hrecord]
    by_cases hb : r ∈ blocked
    · rw [if_pos ⟨rfl, List.mem_map_of_mem hb⟩, hcondition r hr, hin r hr, hmoved, hfinal, if_pos hb, ← Bool.or_assoc]
    · rw [if_neg fun h => hb ((entry_mem_iff hl hsub hr).1 h.2), hin r hr, hmoved, hfinal, if_neg hb, beq_self_eq_true, Bool.not_true,
        Bool.or_false]
  · rw [hrecord, if_neg, hout i q hno]
    rintro ⟨hq, hi⟩
    obtain ⟨r, hr, he⟩ := List.mem_map.1 hi
    exact hno.elim (fun h => h hq) fun h => h r (hsub r hr) he
  · rw [hcampaign, hv.campaign]
    split
    · rename_i hb
      have hsame : refineBlocked l blocked reason = l := by rw [hb]; exact List.map_id' l
      rw [hsame]
      rfl
    · rfl
  · rw [hframe]
    exact hv.cells a ha
  · have hany : ((blocked.map ResultElement.entry).any fun i => !(targeted (v.record i (s.campaign n).pair).condition .inconclusive
        == (v.record i (s.campaign n).pair).condition)) = l.any fun r => !(final r == merged r) := by
      refine Bool.eq_iff_iff.2 ?_
      simp only [List.any_eq_true, List.mem_map, exists_exists_and_eq_and]
      constructor
      · rintro ⟨r, hr, hm⟩
        rw [hcondition r (hsub r hr)] at hm
        exact ⟨r, hsub r hr, by rw [hfinal, if_pos hr]; exact hm⟩
      · rintro ⟨r, hr, hm⟩
        by_cases hb : r ∈ blocked
        · exact ⟨r, hb, by rw [hcondition r hr]; rwa [hfinal, if_pos hb] at hm⟩
        · rw [hfinal, if_neg hb, beq_self_eq_true] at hm
          cases hm
    rw [hreports, hany, hv.reports, pairOrigins_eq, pairOrigins_eq]
    refine (joined_movedOrigin _ _ _ _).trans (congrArg (fun b => joined s.clk.reports (movedOrigin _ b)) ?_)
    have hsplit : l.any moved' = (l.any moved || l.any fun r => !(final r == merged r)) := by
      refine Bool.eq_iff_iff.2 ?_
      simp only [Bool.or_eq_true, List.any_eq_true, hmoved, and_or_left, exists_or]
    rw [hsplit, Bool.or_right_comm]

/-! ## The root's finish and the child made (R86, R90) -/

theorem filter_slot_twice (l : List Extent) (n : Slot) :
    ((l.filter fun e => e.slot != n).filter fun e => e.slot != n) = l.filter fun e => e.slot != n := by
  rw [List.filter_filter]
  simp only [Bool.and_self]

/-- A measured root that has nothing left to walk finishes (R90). -/
theorem State.measured.rootFinished (hv : s.measured w c n l y merged moved) (hslices : w.noSliceOf [n])
    (hf : w.rootFinished t (s.campaign n).pair n) :
    s.measurementFrame t c (s.campaign n).pair l ∧ t.lpt.entries = s.lpt.entries ∧ t.isu = s.isu
      ∧ s.recordsMeasured t (s.campaign n).pair l merged moved ∧ t.campaign n = finishedRoot { y with extent := none }
      ∧ (∀ m, m ≠ n → t.campaign m = s.campaign m) ∧ (∀ q, t.chain q = if q = (s.campaign n).pair then [] else s.chain q)
      ∧ t.ecr.extents = s.ecr.extents.filter (fun e => e.slot != n)
      ∧ (∀ a, (∀ y, (s.campaign n).extent = some y → a < y.1 ∨ y.1 + y.2 ≤ a) → t.cell a = s.cell a)
      ∧ t.clk.reports = joined s.clk.reports (pairOrigins (s.campaign n).pair l moved ++ [.campaign n]) := by
  obtain ⟨hcampaign, hothers, hchains, hended, hframe⟩ := hf
  have hchannels := hslices.ended hended
  rw [hchannels] at hframe
  refine ⟨?_, by rw [hframe]; exact hv.entries, by rw [hframe]; exact hv.orders, ?_, hcampaign.trans (by rw [hv.campaign]),
    fun m hm => (hothers m hm).trans (hv.others m hm), fun q => ?_, ?_, fun a ha => ?_, ?_⟩
  · have hkeep := hv.frame
    unfold State.measurementFrame at hkeep ⊢
    rw [hframe, hkeep]
  · rw [hframe]
    exact hv.records
  · rw [hchains, State.chain, hv.chains]
    rfl
  · rw [hframe]
    show w.ecr.extents.filter _ = _
    rw [hv.extents, filter_slot_twice]
  · rw [hframe]
    exact hv.cells a ha
  · rw [hframe, joined_append, ← hv.reports]

/-- A measured chain top makes a child (R86). -/
theorem State.measured.childAdded {r : ResultElement} {first last : Nat} {els : List Element}
    (hv : s.measured w c n l y merged moved) (ha : w.childAdded t (s.campaign n).pair n m r first last els) :
    s.measurementFrame t c (s.campaign n).pair l ∧ t.lpt.entries = s.lpt.entries ∧ t.isu = s.isu
      ∧ s.recordsMeasured t (s.campaign n).pair l merged moved
      ∧ t.campaign n = { y with state := .nested, cursor := some r.position }
      ∧ t.childMade y n m first last els (s.ecr.extents.filter (fun e => e.slot != n))
      ∧ (∀ z, z ≠ n → z ≠ m → t.campaign z = s.campaign z)
      ∧ (∀ q, t.chain q = if q = (s.campaign n).pair then s.chain (s.campaign n).pair ++ [m] else s.chain q)
      ∧ (∀ a, (∀ z, (s.campaign n).extent = some z → a < z.1 ∨ z.1 + z.2 ≤ a) →
          (∀ z, (t.campaign m).extent = some z → a < z.1 ∨ z.1 + z.2 ≤ a) → t.cell a = s.cell a)
      ∧ t.clk.reports = joined s.clk.reports (pairOrigins (s.campaign n).pair l moved) := by
  obtain ⟨hcampaign, hmade, hothers, hchains, hcells, hframe⟩ := ha
  rw [hv.campaign] at hcampaign hmade
  rw [hv.extents] at hmade
  have hchain : ∀ q, w.chain q = s.chain q := fun q => by rw [State.chain, hv.chains]; rfl
  refine ⟨?_, by rw [hframe]; exact hv.entries, by rw [hframe]; exact hv.orders, ?_, hcampaign, hmade,
    fun z hn hm => (hothers z hn hm).trans (hv.others z hn), fun q => ?_, fun a hin hout => (hcells a hout).trans (hv.cells a hin), ?_⟩
  · have hkeep := hv.frame
    unfold State.measurementFrame at hkeep ⊢
    generalize t.ecr.extents = extents, t.ecr.cells = cells, t.cen.slots = slots, t.cen.chains = chains at hframe
    rw [hframe, hkeep]
  · rw [hframe]
    exact hv.records
  · rw [hchains, hchain, hchain]
  · rw [hframe]
    exact hv.reports

/-! ## Walks that pass nothing, and the chain's unwinding step by step -/

theorem State.walkable_subset {r : ResultElement} (hr : r ∈ s.walkable n l) : r ∈ l := by
  unfold State.walkable at hr
  split at hr
  · split at hr
    · exact List.mem_of_mem_filter hr
    · cases hr
  · exact List.mem_of_mem_filter hr
  · exact List.mem_of_mem_filter hr
  · cases hr

/-- A measured chain top with nothing to walk has walked, its cursor absent. -/
theorem State.measured.walk_nothing (hv : s.measured v c n l (measuredCampaign (s.campaign n) l) merged moved)
    (hcursor : (s.campaign n).cursor = none) (hstate : (s.campaign n).state = .measuring)
    (hl : (l.map ResultElement.entry).Nodup) (hpos : (l.map ResultElement.position).Pairwise (· < ·)) (hwalk : s.walkable n l = []) :
    ∃ w, s.measured w c n l (measuredCampaign (s.campaign n) l) merged moved ∧ v.walk n = (w.withCursor n none, false) := by
  obtain ⟨w, hpast, hends⟩ := hv.walk_eq hcursor hstate hpos (blocked := []) (rest := []) (reason := fun _ => .depth) hwalk
    (fun _ h => (nomatch h)) fun _ h => (nomatch h)
  have hw := hv.past hpast hl (fun _ h => (nomatch h)) (final := merged) (fun r => (if_neg List.not_mem_nil).symm) (moved' := moved)
    fun r => by rw [beq_self_eq_true, Bool.not_true, Bool.or_false]
  have hsame : refineBlocked l [] (fun _ => .depth) = l := List.map_id' l
  rw [hsame] at hw
  rcases hends with ⟨_, _, _, _, _, _, _, hr, -⟩ | ⟨-, hdone⟩
  · cases hr
  · exact ⟨w, hw, hdone⟩

theorem State.unwind_of_child {below : List Slot} (h : v.walk n = (t, true)) : State.unwind p (n :: below) v = t := by
  cases below <;> (unfold State.unwind; rw [h])

theorem State.unwind_of_root (h : v.walk n = (t, false)) : State.unwind p [n] v = t.finishRoot p n := by
  unfold State.unwind
  rw [h]

theorem State.unwind_of_return {below : List Slot} (h : v.walk n = (t, false)) :
    State.unwind p (n :: q :: below) v = State.unwind p (q :: below) (t.returnChild p n q) := by
  rw [State.unwind, h]

end Sys2Proof.Machine
end

section
/-! A child's return at its measurement end, and the verdict of a confirm (R89, R123, R152). -/

namespace Sys2Proof.Machine

variable {s t u v w : State} {c : Chan} {n m q : Slot} {samples : List Sample} {l : List ResultElement} {p : Pair}
  {y : Campaign} {merged : ResultElement → Condition} {moved : ResultElement → Bool}

/-! ## The return of a child (R89, R123) -/

theorem find_position_of_nodup {l : List ResultElement} {r : ResultElement} (h : (l.map ResultElement.position).Nodup) (hr : r ∈ l) :
    l.find? (fun y => y.position == r.position) = some r := by
  cases hf : l.find? (fun y => y.position == r.position) with
  | none => exact absurd (beq_self_eq_true _) (List.find?_eq_none.1 hf r hr)
  | some z =>
    have hz := List.find?_some hf
    exact congrArg some (List.inj_on_of_nodup_map h (List.mem_of_find?_eq_some hf) hr (beq_iff_eq.1 hz))

/-- A refined class that moves no condition writes the campaign's record alone (R111, R116). -/
theorem State.writeRefined_kept {k : Nat} {cls : ElementClass} {depth : Option Nat} {reason : Option Reason} {element : ResultElement}
    (hat : (s.campaign n).resultAt k = some element)
    (hkept : targeted (s.record element.entry (s.campaign n).pair).condition cls = (s.record element.entry (s.campaign n).pair).condition) :
    s.writeRefined n k cls depth reason = s.setCampaign n { s.campaign n with
      results := refineAt (s.campaign n).results k cls depth reason
      summary := some (verdictSummary (refineAt (s.campaign n).results k cls depth reason)) } := by
  have hkeep : ∀ y : Campaign, (s.setCampaign n y).applyTarget element.entry (s.campaign n).pair cls = s.setCampaign n y := fun y => by
    unfold State.applyTarget
    rw [targetMerge_eq]
    exact if_pos hkept.symm
  unfold State.writeRefined
  dsimp only
  rw [hat, summarize_eq]
  exact hkeep _

/-- A finished child's slot leaves the chain, and the campaign below it goes on (R89). -/
theorem State.resumeParent_eq (h : s.noSliceOf [n]) (hnq : q ≠ n) :
    (s.resumeParent p n q).campaign n = {} ∧ (s.resumeParent p n q).campaign q = { s.campaign q with state := .measuring }
      ∧ (∀ m, m ≠ n → m ≠ q → (s.resumeParent p n q).campaign m = s.campaign m)
      ∧ (∀ z, (s.resumeParent p n q).chain z = if z = p then (s.chain p).dropLast else s.chain z)
      ∧ s.resumeParent p n q = { s with
          ecr := { s.ecr with extents := s.ecr.extents.filter (fun e => e.slot != n) }
          cen := { s.cen with slots := (s.resumeParent p n q).cen.slots, chains := (s.resumeParent p n q).cen.chains }
          clk := { s.clk with reports := s.clk.reports.filter (fun y => !(y == Origin.campaign n)) } } := by
  obtain ⟨hended, hfree, hkept, hframe⟩ := State.dropSlot_eq h.oneChannelEach
  rw [h.ended hended] at hframe
  have hextents : (s.ecr.extents.filter fun e => !([n] : List Slot).contains e.slot) = s.ecr.extents.filter fun e => e.slot != n :=
    List.filter_congr fun e _ => by rw [List.contains_cons, List.contains_nil, Bool.or_false]; rfl
  have horigins : (s.clk.reports.filter fun x => !(([n] : List Slot).map Origin.campaign).contains x)
      = s.clk.reports.filter fun y => !(y == Origin.campaign n) :=
    List.filter_congr fun e _ => by rw [List.map_singleton, List.contains_cons, List.contains_nil, Bool.or_false]
  rw [hextents, horigins] at hframe
  obtain ⟨d, hd⟩ : ∃ d, d = s.dropSlot n := ⟨_, rfl⟩
  rw [← hd] at hfree hkept hframe
  have hdq : d.campaign q = s.campaign q := hkept q (by simpa using hnq)
  have hresume : s.resumeParent p n q = (d.setChain p (s.chain p).dropLast).setCampaign q { s.campaign q with state := .measuring } := by
    unfold State.resumeParent
    dsimp only
    rw [← hd, ← hdq]
    rfl
  have hcampaign : ∀ m, ((d.setChain p (s.chain p).dropLast).setCampaign q { s.campaign q with state := .measuring }).campaign m
      = if m = q then { s.campaign q with state := .measuring } else d.campaign m := fun m => State.campaign_setCampaign
  rw [hresume]
  refine ⟨?_, ?_, fun m hmn hmq => ?_, fun z => ?_, ?_⟩
  · rw [hcampaign, if_neg hnq.symm]
    exact hfree n List.mem_cons_self
  · rw [hcampaign, if_pos rfl]
  · rw [hcampaign, if_neg hmq]
    exact hkept m (by simpa using hmn)
  · show (d.setChain p _).chain z = _
    rw [State.chain_setChain, hframe]
    rfl
  · rw [hframe]
    rfl

/-- A finished child whose verdict moves no condition returns to its parent (R89, R123). -/
theorem State.returnChild_kept {k : Nat} {target element : ResultElement} {cls : ElementClass} (h : w.noSliceOf [n]) (hnq : q ≠ n)
    (hparent : (w.campaign n).parent = some q) (hcursor : (w.campaign q).cursor = some k)
    (hpos : ((w.campaign n).results.map ResultElement.position).Pairwise (· < ·)) (ht : target ∈ (w.campaign n).results)
    (htk : target.position = k) (hfresh : target.refined = none ∧ target.refiningDepth = none) (hcls : target.verdict = some cls)
    (hpos' : ((w.campaign q).results.map ResultElement.position).Nodup) (he : element ∈ (w.campaign q).results) (hek : element.position = k)
    (hkept : targeted (w.record element.entry (w.campaign q).pair).condition cls = (w.record element.entry (w.campaign q).pair).condition) :
    (w.withCursor n none).returnChild p n q = ((w.withCursor n none).resumeParent p n q).setCampaign q { w.campaign q with
      state := .measuring
      results := refineAt (w.campaign q).results k cls (some (w.campaign n).depth) none
      summary := some (verdictSummary (refineAt (w.campaign q).results k cls (some (w.campaign n).depth) none)) } := by
  obtain ⟨hrefined, hdepth⟩ := hfresh
  have hcampaign : ∀ m, (w.withCursor n none).campaign m = if m = n then { w.campaign n with cursor := none } else w.campaign m :=
    fun m => State.campaign_withCursor ..
  have hverdict : (w.withCursor n none).targetVerdict n = some (cls, (w.campaign n).depth, none) := by
    have htarget : (w.withCursor n none).targetPosition n = some k := by
      unfold State.targetPosition
      rw [hcampaign, if_pos rfl]
      dsimp only
      rw [hparent, Option.bind_some, hcampaign, if_neg hnq, hcursor]
    have hat : (w.campaign n).resultAt k = some target := by
      unfold Campaign.resultAt
      rw [← htk]
      exact find_position hpos ht
    unfold State.targetVerdict
    dsimp only
    rw [State.targetOf_eq, htarget, Option.bind_some, hcampaign, if_pos rfl]
    show (match (w.campaign n).resultAt k with | none => none | some r => _) = _
    rw [hat]
    dsimp only
    rw [ResultElement.final_eq, finalVerdict, hrefined, hcls, hdepth]
    rfl
  obtain ⟨-, hq, -, -, hframe⟩ := State.resumeParent_eq (s := w.withCursor n none) (p := p) h hnq
  rw [hcampaign, if_neg hnq] at hq
  obtain ⟨r, hr⟩ : ∃ r, r = (w.withCursor n none).resumeParent p n q := ⟨_, rfl⟩
  rw [← hr] at hq hframe
  have hrecord : ∀ i z, r.record i z = w.record i z := fun i z => by rw [hframe]; rfl
  have hat : (r.campaign q).resultAt k = some element := by
    rw [hq, ← hek]
    exact find_position_of_nodup hpos' he
  unfold State.returnChild
  dsimp only
  rw [hverdict, ← hr, hq]
  dsimp only
  rw [hcursor]
  dsimp only
  rw [State.writeRefined_kept hat (by rw [hq, hrecord]; exact hkept), hq, ← hcursor]

/-- The state after the return, beside the one before it. -/
theorem State.returnedState_eq (h : w.noSliceOf [n]) (hnq : q ≠ n) {z : Campaign}
    (ht : t = ((w.withCursor n none).resumeParent p n q).setCampaign q z) :
    t.campaign n = {} ∧ t.campaign q = z ∧ (∀ m, m ≠ n → m ≠ q → t.campaign m = w.campaign m)
      ∧ (∀ y, t.chain y = if y = p then (w.chain p).dropLast else w.chain y)
      ∧ t = { w with
          ecr := { w.ecr with extents := w.ecr.extents.filter (fun e => e.slot != n) }
          cen := { w.cen with slots := t.cen.slots, chains := t.cen.chains }
          clk := { w.clk with reports := w.clk.reports.filter (fun y => !(y == Origin.campaign n)) } } := by
  obtain ⟨hfree, -, hothers, hchains, hframe⟩ := State.resumeParent_eq (s := w.withCursor n none) (p := p) h hnq
  generalize (w.withCursor n none).resumeParent p n q = r at hfree hothers hchains hframe ht
  have hcampaign : ∀ m, t.campaign m = if m = q then z else r.campaign m := fun m => by rw [ht]; exact State.campaign_setCampaign
  refine ⟨?_, ?_, fun m hn hq => ?_, fun y => ?_, ?_⟩
  · rw [hcampaign, if_neg hnq.symm, hfree]
  · rw [hcampaign, if_pos rfl]
  · rw [hcampaign, if_neg hq, hothers m hn hq, State.campaign_withCursor, if_neg hn]
  · rw [ht]
    exact hchains y
  · rw [ht, hframe]
    rfl

theorem filter_two_slots (l : List Extent) (n q : Slot) :
    (((l.filter fun e => e.slot != n).filter fun e => e.slot != n).filter fun e => e.slot != q)
      = l.filter fun e => e.slot != n && e.slot != q := by
  rw [filter_slot_twice, List.filter_filter]
  exact List.filter_congr fun e _ => Bool.and_comm _ _

/-- A measured child returns to a root that has nothing more to walk, and the root finishes (R89, R90, R123). -/
theorem State.measured.returned (hv : s.measured w c n l (measuredCampaign (s.campaign n) l) merged moved) (hpair : (s.campaign n).pair = p)
    (hslices : w.noSliceOf [q, n]) (hnq : q ≠ n) {k : Nat} {refined : List ResultElement}
    (hcursor : (s.campaign q).cursor = some k) (hleft : ∀ y ∈ s.walkable q refined, y.position ≤ k)
    (horigin : (s.campaign q).origin = .demand ∨ (s.campaign q).origin = .periodic)
    (hu : u = ((w.withCursor n none).resumeParent p n q).setCampaign q { s.campaign q with
      state := .measuring, results := refined, summary := some (verdictSummary refined) }) :
    s.measurementFrame (State.unwind p [q] u) c p l ∧ (State.unwind p [q] u).lpt.entries = s.lpt.entries
      ∧ (State.unwind p [q] u).isu = s.isu ∧ s.recordsMeasured (State.unwind p [q] u) p l merged moved
      ∧ (State.unwind p [q] u).campaign n = {}
      ∧ (State.unwind p [q] u).campaign q = finishedRoot { s.campaign q with
          extent := none, results := refined, summary := some (verdictSummary refined) }
      ∧ (∀ m, m ≠ n → m ≠ q → (State.unwind p [q] u).campaign m = s.campaign m)
      ∧ (∀ y, (State.unwind p [q] u).chain y = if y = p then [] else s.chain y)
      ∧ (State.unwind p [q] u).ecr.extents = s.ecr.extents.filter (fun e => e.slot != n && e.slot != q)
      ∧ (∀ a, (∀ y, (s.campaign n).extent = some y → a < y.1 ∨ y.1 + y.2 ≤ a) → (State.unwind p [q] u).cell a = s.cell a)
      ∧ (State.unwind p [q] u).clk.reports
        = joined ((joined s.clk.reports (pairOrigins p l moved)).filter (fun y => !(y == Origin.campaign n))) [.campaign q] := by
  subst hpair
  obtain ⟨hn, hq, hothers, hchains, hframe⟩ := State.returnedState_eq (hslices.mono (by simp)) hnq hu
  have hdone : u.toWalk q = [] := State.toWalk_eq_nil (k := k) (by rw [hq]; exact hcursor) fun y hy => by
    rw [State.walkable_congr (s := s) (by rw [hq]) (by rw [hq]) (by rw [hq]) horigin, hq] at hy
    exact hleft y hy
  have hnone : u.noSliceOf [q] := State.noSliceOf.congr (hslices.mono (by simp)) (by rw [hframe])
  rw [State.unwind_rootDone hdone]
  obtain ⟨tq, tothers, tchains, tended, tframe⟩ := State.finishRoot_eq (p := (s.campaign n).pair) hnone.oneChannelEach (by rw [hq]; exact horigin)
  rw [hnone.ended tended] at tframe
  generalize ((u.withCursor q none).finishRoot (s.campaign n).pair q) = t at tq tothers tchains tended tframe
  refine ⟨?_, ?_, ?_, ?_, (tothers n hnq.symm).trans hn, ?_, fun m hmn hmq => ?_, fun y => ?_, ?_, fun a ha => ?_, ?_⟩
  · have hkeep := hv.frame
    unfold State.measurementFrame at hkeep ⊢
    rw [tframe, hframe, hkeep]
  · rw [tframe, hframe]
    exact hv.entries
  · rw [tframe, hframe]
    exact hv.orders
  · rw [tframe, hframe]
    exact hv.records
  · rw [tq, hq]
    unfold finishedRoot
    rfl
  · rw [tothers m hmq, hothers m hmn hmq, hv.others m hmn]
  · rw [tchains]
    by_cases hy : y = (s.campaign n).pair
    · rw [if_pos hy, if_pos hy]
    · rw [if_neg hy, if_neg hy, hchains, if_neg hy, State.chain, hv.chains]
      rfl
  · rw [tframe, hframe]
    show (w.ecr.extents.filter _).filter _ = _
    rw [hv.extents, filter_two_slots]
  · rw [tframe, hframe]
    exact hv.cells a ha
  · rw [tframe, hframe]
    show joined (w.clk.reports.filter _) _ = _
    rw [hv.reports]

end Sys2Proof.Machine
end

section
/-! The verdict of a confirm (R152), and the measurement end with all that follows it (R88). -/

namespace Sys2Proof.Machine

variable {s t u v w : State} {c : Chan} {n m q : Slot} {samples : List Sample} {l : List ResultElement} {p : Pair}
  {y : Campaign} {merged : ResultElement → Condition} {moved : ResultElement → Bool} {k : OrderNo} {o : Order}

/-! ## The verdict of a confirm (R152) -/

/-- What a passing confirm has seen, by its order's action (R152). -/
def confirmSeen (action : Action) (floor : Nat) (r : ResultElement) (l : List ResultElement) : Prop :=
  match action with
  | .pumpToSpare | .gainHold => r.verdict ∈ [some ElementClass.normal, some .rise, some .drift]
  | .pumpRestore | .gainRelease => r.verdict ∈ [some ElementClass.normal, some .rise]
  | .loopMute => r.amplitude < floor
  | .routeA | .routeB => ∀ y ∈ l, y.verdict ∉ [some ElementClass.noEcho, some .lost, some .breakAfter]

theorem confirmPasses_iff (action : Action) (floor : Nat) (r : ResultElement) (l : List ResultElement) :
    confirmPasses action floor r l = true ↔ confirmSeen action floor r l := by
  have hroute : (!l.any fun r => r.verdict == some .noEcho || r.verdict == some .lost || r.verdict == some .breakAfter) = true
      ↔ ∀ y ∈ l, y.verdict ∉ [some ElementClass.noEcho, some .lost, some .breakAfter] := by
    rw [Bool.not_eq_true', List.any_eq_false]
    refine forall_congr' fun y => imp_congr_right fun _ => not_congr ?_
    simp [or_assoc]
  unfold confirmPasses confirmSeen
  cases action with
  | routeA => exact hroute
  | routeB => exact hroute
  | loopMute => exact decide_eq_true_iff
  | pumpToSpare => simp [or_assoc]
  | gainHold => simp [or_assoc]
  | pumpRestore => simp
  | gainRelease => simp

/-- How an order is settled by its confirm's list (R152). -/
def State.settledAs (s : State) (o : Order) (l : List ResultElement) (condition : Condition) (ended : Order) : Prop :=
  ((∀ r ∈ l, r.entry ≠ o.entry) ∧ condition = .unresolved ∧ ended = { o with
      state := .doneUnresolved, reason := some .notOnPath
      confirm := some { summary := some (verdictSummary l), verdict := none, amplitude := none } })
  ∨ ∃ r ∈ l, r.entry = o.entry ∧ ∃ passes : Bool, (passes = true ↔ confirmSeen o.action s.ecr.floor r l)
    ∧ condition = (if passes then passedCondition o.action else .unresolved)
    ∧ ended = { o with
        state := if passes then .doneAccepted else .doneUnresolved
        reason := if passes then none else some .confirmFailed
        confirm := some { summary := some (verdictSummary l), verdict := r.verdict, amplitude := some r.amplitude } }

theorem find_entry {r : ResultElement} {i : Index} (hl : (l.map ResultElement.entry).Nodup) (hr : r ∈ l) (hi : r.entry = i) :
    l.find? (fun y => y.entry == i) = some r := by
  cases hf : l.find? (fun y => y.entry == i) with
  | none => exact absurd (beq_iff_eq.2 hi) (List.find?_eq_none.1 hf r hr)
  | some z =>
    have hz : z.entry = i := beq_iff_eq.1 (List.find?_some (p := fun y : ResultElement => y.entry == i) hf)
    exact congrArg some (List.inj_on_of_nodup_map hl (List.mem_of_find?_eq_some hf) hr (hz.trans hi.symm))

/-- The settling of an order is its end, with what the confirm has found (R152, R153). -/
theorem State.settleOrder_eq {condition : Condition} {ended : Order} (hl : (l.map ResultElement.entry).Nodup)
    (hy : y.results = l) (hsummary : y.summary = some (verdictSummary l)) (h : s.settledAs o l condition ended) :
    ended = { o with state := ended.state, reason := ended.reason, confirm := ended.confirm }
      ∧ s.settleOrder k o y = s.endOrder k { o with confirm := ended.confirm } ended.state ended.reason condition := by
  unfold State.settleOrder
  rw [hy, hsummary]
  rcases h with ⟨hno, rfl, rfl⟩ | ⟨r, hr, he, passes, hpasses, rfl, rfl⟩
  · have hnone : l.find? (fun y => y.entry == o.entry) = none :=
      List.find?_eq_none.2 fun r hr h => hno r hr (beq_iff_eq.1 h)
    rw [hnone]
    exact ⟨rfl, rfl⟩
  · have hconfirm : confirmPasses o.action s.ecr.floor r l = passes :=
      Bool.eq_iff_iff.2 ((confirmPasses_iff ..).trans hpasses.symm)
    refine ⟨rfl, ?_⟩
    rw [find_entry hl hr he]
    dsimp only
    rw [hconfirm]
    cases passes <;> rfl

theorem State.confirms_congr (h : t.isu = s.isu) (hs : s.confirms k o n) : t.confirms k o n := by
  unfold State.confirms State.order at hs ⊢
  rw [h]
  exact hs

theorem State.settledAs_congr {condition : Condition} {ended : Order} (h : t.ecr.floor = s.ecr.floor) (hs : s.settledAs o l condition ended) :
    t.settledAs o l condition ended := by
  unfold State.settledAs at hs ⊢
  rw [h]
  exact hs

/-- A measured confirm settles its order, its slot FREE and its chain ended (R90, R152). -/
theorem State.measured.confirmed (hv : s.measured w c n l y merged moved) (hpair : (s.campaign n).pair = p) (hslices : w.noSliceOf [n])
    (hl : (l.map ResultElement.entry).Nodup) (hy : y.results = l) (hsummary : y.summary = some (verdictSummary l)) (horigin : y.origin = .order)
    (hconfirms : s.confirms k o n) {condition : Condition} {ended : Order} (hsettled : s.settledAs o l condition ended)
    (ht : t = (w.withCursor n none).finishRoot p n) :
    s.measurementFrame t c p l ∧ w.orderMarks t o.entry o.pair condition
      ∧ t.isu = { s.isu with orders := s.isu.orders.set k (some ended) }
      ∧ t.cen.slots = s.cen.slots.set n {} ∧ (∀ q, t.chain q = if q = p then [] else s.chain q)
      ∧ t.ecr.extents = s.ecr.extents.filter (fun e => e.slot != n)
      ∧ (∀ a, (∀ z, (s.campaign n).extent = some z → a < z.1 ∨ z.1 + z.2 ≤ a) → t.cell a = s.cell a)
      ∧ t.clk.reports = w.orderOrigins k o condition := by
  subst hpair
  obtain ⟨hended, hcampaign, hreleased⟩ := State.releaseExtent_eq (s := w.withCursor n none) (n := n) hslices.oneChannelEach
  rw [State.noSliceOf.ended (s := w.withCursor n none) (t := (w.withCursor n none).releaseExtent n) hslices hended] at hreleased
  obtain ⟨r, hr⟩ : ∃ r, r = ((w.withCursor n none).releaseExtent n).setChain (s.campaign n).pair [] := ⟨_, rfl⟩
  have hnow : r.campaign n = { y with cursor := none, extent := none } := by
    rw [hr]
    refine (hcampaign n).trans ((if_pos rfl).trans ?_)
    rw [State.campaign_withCursor, if_pos rfl, hv.campaign]
  have hothers : ∀ m, m ≠ n → r.campaign m = s.campaign m := fun m hm => by
    rw [hr]
    refine (hcampaign m).trans ((if_neg hm).trans ?_)
    rw [State.campaign_withCursor, if_neg hm, hv.others m hm]
  have hframe : r = { w with
      ecr := { w.ecr with extents := w.ecr.extents.filter (fun e => e.slot != n) }
      cen := { w.cen with slots := r.cen.slots, chains := w.cen.chains.set (s.campaign n).pair [] } } := by
    rw [hr, hreleased]
    rfl
  have hfloor : s.ecr.floor = r.ecr.floor := by rw [hframe, hv.frame]
  have hisu : r.isu = s.isu := by rw [hframe]; exact hv.orders
  obtain ⟨hshape, hsettle⟩ := State.settleOrder_eq (s := r.freeUp n) (k := k) (y := r.campaign n) hl (by rw [hnow]; exact hy)
    (by rw [hnow]; exact hsummary) (State.settledAs_congr hfloor.symm hsettled)
  have hfinish : t = (r.freeUp n).endOrder k { o with confirm := ended.confirm } ended.state ended.reason condition := by
    rw [ht, ← hsettle]
    unfold State.finishRoot
    dsimp only
    rw [← hr]
    have ho : (r.campaign n).origin = .order := by rw [hnow]; exact horigin
    rw [ho]
    show r.confirmVerdict n = _
    unfold State.confirmVerdict
    dsimp only
    rw [State.confirmOrder_eq (State.confirms_congr hisu hconfirms)]
  obtain ⟨entries, records, htframe, hmarks⟩ :=
    (r.freeUp n).endOrder_eq k { o with confirm := ended.confirm } ended.state ended.reason condition
  rw [← hfinish] at htframe hmarks
  have hlpt : (r.freeUp n).lpt = w.lpt := by rw [hframe]; rfl
  have hcampaigns : ∀ m, t.campaign m = if m = n then {} else s.campaign m := fun m => by
    rw [htframe]
    refine State.campaign_setCampaign.trans ?_
    by_cases hm : m = n
    · rw [if_pos hm, if_pos hm]
    · rw [if_neg hm, if_neg hm, hothers m hm]
  have hfreed : (r.freeUp n).isu = s.isu := hisu
  have hchain : ∀ q, r.chain q = if q = (s.campaign n).pair then [] else s.chain q := fun q => by
    have hw : w.chain q = s.chain q := by rw [State.chain, hv.chains]; rfl
    rw [hr, State.chain_setChain, hreleased, ← hw]
    rfl
  have hslots : t.cen.slots = s.cen.slots.set n {} :=
    State.slots_ext (w := s.setCampaign n {}) fun m => (hcampaigns m).trans State.campaign_setCampaign.symm
  have hreports : t.clk.reports = w.orderOrigins k o condition := by
    have hrecord : ∀ i q, (r.freeUp n).record i q = w.record i q := fun i q => by rw [State.record, hlpt]; rfl
    obtain ⟨-, -, hreserved, -⟩ := hconfirms
    rw [htframe]
    dsimp only
    rw [hrecord, State.orderOrigins, hreserved, hframe]
    rfl
  refine ⟨?_, State.orderMarks_congr hlpt hmarks, ?_, hslots, fun q => ?_, ?_, fun a ha => ?_, hreports⟩
  · have hkeep := hv.frame
    unfold State.measurementFrame at hkeep ⊢
    generalize r.cen.slots = slots at hframe
    rw [htframe, hframe, hkeep]
    rfl
  · rw [htframe]
    dsimp only
    rw [hfreed]
    exact congrArg (fun x => ({ s.isu with orders := s.isu.orders.set k (some x) } : IsolationUnit)) hshape.symm
  · rw [htframe]
    exact hchain q
  · rw [htframe]
    show r.ecr.extents = _
    rw [hframe]
    show w.ecr.extents.filter _ = _
    rw [hv.extents, filter_slot_twice]
  · rw [htframe]
    show r.cell a = _
    rw [hframe]
    exact hv.cells a ha

/-! ## The measurement end, with all that follows it (R88) -/

/-- The target of a child is merged by the target merge, so its class moves nothing when it is applied again (R115, R116). -/
theorem targeted_of_returned {target : ResultElement} {cls : ElementClass} {x : Campaign} {k : Nat} {old : Condition}
    (hcls : target.verdict = some cls) (hkind : x.kind = some .locate) (horigin : x.origin = .child) (hk : target.position = k) :
    targeted (mergedCondition x (some k) target old) cls = mergedCondition x (some k) target old := by
  have hmerged : mergedCondition x (some k) target old = targeted old cls := by
    unfold mergedCondition
    rw [hcls, hkind, horigin, hk]
    exact if_pos rfl
  rw [hmerged, targeted_targeted]

theorem mergedCondition_confirm {x : Campaign} {target : Option Nat} {r : ResultElement} {old : Condition} (hkind : x.kind = some .confirm) :
    mergedCondition x target r old = old := by
  unfold mergedCondition
  rw [hkind]
  cases r.verdict <;> rfl

/-- Settles O48: the root that finishes, the child made, the child that returns, the chain that unwinds, and the confirm. -/
theorem measurementEndFinishesASurvey : Obligations.MeasurementEndFinishesASurvey := by
  intro c n samples l p x merged s h hx hp hcursor hmerged
  subst hp
  subst hx
  have hmeasured := fun moved hmoved => State.endsMeasurement_measured (moved := moved) h hmerged hmoved
  have hnone := fun {w y merged moved} (hw : s.measured w c n l y merged moved) => hw.noSliceOf h
  obtain ⟨hl, hpos, hfresh, hstate⟩ : (l.map ResultElement.entry).Nodup ∧ (l.map ResultElement.position).Pairwise (· < ·)
      ∧ (∀ r ∈ l, r.refined = none ∧ r.refiningDepth = none) ∧ (s.campaign n).state = .measuring := by
    obtain ⟨_, _, start, -, -, hstate, -, -, -, hentries, hpositions, -, hlist⟩ := h
    obtain ⟨hentry, hposition, hfresh⟩ := State.measuresTo_elements hlist
    exact ⟨hentry ▸ hentries, hposition ▸ hpositions, hfresh, hstate⟩
  refine ⟨fun blocked reason final moved hwalk hblocked hfinal hmoved hchain horigin => ?_,
    fun blocked rest r reason final moved first last els m below hwalk hblocked hfinal hmoved hplan hchecks hm hchain => ?_,
    fun q k target element cls refined moved hwalk hkind horigin hparent hqn hchain hk hpair ht htk hcls he hek hentry hnodup href hleft
      hroot hmoved => ?_,
    fun below moved hchain hnodup hlinked hmoved => ?_,
    fun k o ended condition hchain hkind horigin hconfirms hsettled => ?_⟩
  · obtain ⟨v, hv, hexec⟩ := hmeasured _ fun _ => rfl
    obtain ⟨w, hpast, hends⟩ := hv.walk_eq hcursor hstate hpos (rest := []) (hwalk.trans (List.append_nil _).symm) hblocked
      fun _ h => (nomatch h)
    have hw := hv.past hpast hl (fun r hr => State.walkable_subset (hwalk ▸ hr)) hfinal hmoved
    have hslices : w.noSliceOf [n] := hchain ▸ hnone hw
    rcases hends with ⟨_, _, _, _, _, _, _, hr, -⟩ | ⟨-, hdone⟩
    · cases hr
    · refine ⟨(w.withCursor n none).finishRoot (s.campaign n).pair n, ?_, hw.rootFinished hslices (State.finishRoot_eq
        hslices.oneChannelEach (by rw [hw.campaign]; exact horigin))⟩
      rw [hexec, hchain]
      exact congrArg (fun t : State => Host.Outcome.next t.concludeEvent) (State.unwind_of_root hdone)
  · obtain ⟨v, hv, hexec⟩ := hmeasured _ fun _ => rfl
    obtain ⟨w, hpast, hends⟩ := hv.walk_eq hcursor hstate hpos (rest := r :: rest) hwalk hblocked
      fun y hy => by cases hy; exact ⟨first, last, els, hplan, hchecks⟩
    have hw := hv.past hpast hl (fun r hr => State.walkable_subset (hwalk ▸ List.mem_append_left _ hr)) hfinal hmoved
    rcases hends with ⟨_, _, _, _, _, _, t, hr, hplan', hm', hadded, hchild⟩ | ⟨hr, -⟩
    · obtain ⟨rfl, rfl⟩ := List.cons.inj hr
      obtain ⟨rfl, rfl, rfl⟩ := State.childPlan_unique hplan hplan'
      obtain rfl := State.lowestFreeSlot_unique hm hm'
      have hall := hw.childAdded hadded
      rw [hchain, List.append_assoc] at hall
      refine ⟨t, ?_, hall⟩
      rw [hexec, hchain, List.reverse_append]
      exact congrArg (fun t : State => Host.Outcome.next t.concludeEvent) (State.unwind_of_child hchild)
    · cases hr
  · obtain ⟨v, hv, hexec⟩ := hmeasured moved hmoved
    obtain ⟨w, hw, hdone⟩ := hv.walk_nothing hcursor hstate hl hpos hwalk
    have hslices : w.noSliceOf [q, n] := hchain ▸ hnone hw
    have hq : w.campaign q = s.campaign q := hw.others q hqn
    have htarget : s.targetPosition n = some k := by rw [State.targetPosition, hparent, Option.bind_some, hk]
    have hreturn := State.returnChild_kept (p := (s.campaign n).pair) (element := element) (hslices.mono (by simp)) hqn
      (by rw [hw.campaign]; exact hparent) (by rw [hq]; exact hk) (by rw [hw.campaign]; exact hpos) (by rw [hw.campaign]; exact ht) htk
      (hfresh target ht) hcls (by rw [hq]; exact hnodup) (by rw [hq]; exact he) hek
      (by
        rw [hq, hpair, hentry, hw.records.1 target ht, hmerged target, htarget]
        exact targeted_of_returned hcls hkind horigin htk)
    have hdepth : (w.campaign n).depth = (s.campaign n).depth := by rw [hw.campaign]; rfl
    rw [hq, hdepth, ← href] at hreturn
    refine ⟨_, ?_, hw.returned rfl hslices hqn hk hleft hroot rfl⟩
    rw [hexec, hchain, ← hreturn]
    exact congrArg (fun t : State => Host.Outcome.next t.concludeEvent) (State.unwind_of_return hdone)
  · obtain ⟨v, hv, hexec⟩ := hmeasured moved hmoved
    exact ⟨v, _, hexec, hv.frame, hv.entries, hv.orders, hv.records, hv.campaign, hv.others, hv.chains, hv.extents, hv.cells, hv.reports,
      hv.unwound h hchain hnodup hlinked⟩
  · obtain rfl : merged = fun r => (s.record r.entry (s.campaign n).pair).condition :=
      funext fun r => (hmerged r).trans (mergedCondition_confirm hkind)
    obtain ⟨v, hv, hexec⟩ := hmeasured (fun _ => false) fun r => by rw [beq_self_eq_true]; rfl
    have hwalk : s.walkable n l = [] := by unfold State.walkable; rw [hkind]
    obtain ⟨w, hw, hdone⟩ := hv.walk_nothing hcursor hstate hl hpos hwalk
    have hslices : w.noSliceOf [n] := hchain ▸ hnone hw
    obtain ⟨hframe, hmarks, hrest⟩ := hw.confirmed rfl hslices hl rfl rfl horigin hconfirms hsettled rfl
    obtain ⟨horders, hslots, hchains, hextents, hcells, hreports⟩ := hrest
    refine ⟨w, _, ?_, hframe, hw.entries, hw.records, hmarks, horders, hslots, hchains, hextents, hcells, hw.reports, hreports⟩
    rw [hexec, hchain]
    exact congrArg (fun t : State => Host.Outcome.next t.concludeEvent) (State.unwind_of_root hdone)

end Sys2Proof.Machine
end
